-- ==== Sys2Proof/Word.lean ====
section
/-! DEFINITION. The word types of the part: a byte, the station time, and the byte string. -/

namespace Sys2Proof

/-- One byte, as frames, records, the console and the SDRAM carry it. -/
abbrev Byte := BitVec 8

/-- Station time: a 32-bit count of milliseconds that wraps (00_scope.md, Conventions). -/
abbrev Time := BitVec 32

/-- A string of bytes, first byte first. -/
abbrev Bytes := List Byte

end Sys2Proof
end

