-- ==== Sys2Proof/Syntax.lean ====
section
/-! DEFINITION. The commands of the part: one constructor per row of spec/opcode_table.json, with the operands the
environment decides (log 1). -/

namespace Sys2Proof

/-- The ROLE strap (R202). -/
inductive Role where
  | serving
  | uplink
deriving DecidableEq, Repr

/-- The straps as they stand when SLD samples them (R202). -/
structure Straps where
  role : Role
  snum : BitVec 6
deriving DecidableEq, Repr

/-- A frame as it passes on the lane (09_the_rack_lane.md, 9.3): the bid byte's class and sender, destination,
kind and body. The length and the check follow from these. -/
structure LaneFrame where
  cls    : BitVec 2
  sender : BitVec 6
  dest   : Byte
  kind   : Byte
  body   : Bytes
deriving DecidableEq, Repr

/-- The error a receiver found (R156, R162). -/
inductive RxError where
  | leadRecessive
  | tailDominant
  | overLength
  | badCheck
deriving DecidableEq, Repr

/-- How a tenure this station sent ended (R165): the sender stopped on a mismatch and found an error as a receiver of
the rest (R160, R162), or it read the two slots. -/
inductive TenureEnd where
  | stopped (error : RxError) (tailRemains : Bool)
  | slots (spoilDominant takeDominant : Bool)
deriving DecidableEq, Repr

/-- A standard device request of the server on the control endpoint (R118). -/
inductive UsbRequest where
  | getDescriptor (which : Byte)
  | setAddress (address : BitVec 7)
deriving DecidableEq, Repr

/-- The commands, in the order of spec/opcode_table.json. -/
inductive Instr where
  | coldStart (straps : Straps)
  | rstnAsserted
  | eepromAttemptComplete (bytes : Bytes)
  | eepromAttemptFailed
  | eepromRetryWaitExpiry
  | settingRecordHandover
  | memoryBringupComplete
  | psqStateDerived (pinHigh : Bool)
  | presenceBoundary
  | laneSyncQuiet
  | sitOutClear
  | laneBidBegin
  | bidLost
  | senderTenureEnd (how : TenureEnd) (straps : Straps)
  | receiveError (error : RxError) (tailRemains : Bool)
  | frameCompleteUnspoiled (frame : LaneFrame) (handovers : Nat)
  | duplicateStationNumber
  | entryHoldLimit (station : BitVec 6)
  | expiredSetTimeout (station : BitVec 6)
  | arbiterGrant
  | refreshIntervalExpiry
  | refreshGiven
  | captureWriteComplete
  | consoleForwardReadComplete
  | laneReceiveWriteComplete
  | mediaTransferComplete
  | laneSendReadComplete
  | pgoodActive
  | pgoodInactive
  | startTimerExpiry
  | settleTimerExpiry
  | youngTimerExpiry
  | graceTimerExpiry
  | forceTimerExpiry
  | restTimerExpiry
  | pressPulseEnd
  | longPressEnd
  | resetPulseEnd
  | consoleLineIdle
  | consoleGoodByte (byte : Byte)
  | consoleFramingError
  | consoleBreakStart
  | consoleBreakEnd (lengthMs : Nat)
  | consoleTextByteSent
  | consoleBreakOutEnd
  | consoleBreakGuardEnd
  | watcherWaitExpiry (station : BitVec 6)
  | watcherPauseExpiry (station : BitVec 6)
  | watchdogDeadlineExpiry
  | wantTimerExpiry (place : Nat)
  | noticePauseExpiry
  | claim
  | releaseClaim
  | status
  | watch
  | unwatch
  | powerOn
  | powerOffSoft
  | powerOffSoftThenHard
  | powerOffHard
  | powerReset
  | powerCycle
  | powerFeedCut
  | powerFeedRestore
  | powerWake
  | watchdogArm
  | watchdogDisarm
  | watchdogRetime
  | attach
  | detach
  | breakOrder
  | restart
  | drainTimerExpiry
  | read (first : BitVec 32) (count : Nat)
  | write (first : BitVec 32) (count : Nat)
  | writeStepDataReceived (data : Bytes)
  | capacity
  | ready
  | eject
  | usbStandardRequest (request : UsbRequest)
  | usbSetConfiguration
  | usbClearConfiguration
  | usbBusReset
  | usbBusIdleSuspend
  | usbBusActivityResume
  | usbResumeSignallingEnd
  | usbSetRemoteWake
  | usbClearRemoteWake
  | vbsenseHigh
  | vbsenseLow
  | uplinkUnitReceived (bytes : Bytes)
  | uplinkCharacterTimeout (bytes : Bytes)
  | uplinkUnitSent
  | urtsAsserted
  | urtsDeasserted
  | receivedFrameSpoiled (frame : LaneFrame)
  | orderNameInvalid
  | uplinkCharacterFramingError (bytes : Bytes)
deriving DecidableEq, Repr

end Sys2Proof
end

