-- ==== Sys2Proof/WellFormed.lean ====
section
/-! DEFINITION. Which operands a command's carrier can express. A command outside these names no event of the part. -/

namespace Sys2Proof

/-- A frame read whole has a body of at most 2,064 bytes (R162: a longer length field is an error). -/
def LaneFrame.wellFormed (f : LaneFrame) : Bool := f.body.length ≤ 2064

/-- The count field of a READ or WRITE expresses 1 to 256 and nothing else (07, 7.3). -/
def countWellFormed (count : Nat) : Bool := 1 ≤ count && count ≤ 256

/-- A complete EEPROM attempt read 512 bytes (R203). -/
def recordWellFormed (bytes : Bytes) : Bool := bytes.length = 512

/-- A write step takes 1 to 4 whole blocks of 512 bytes (R130). -/
def stepDataWellFormed (data : Bytes) : Bool := 0 < data.length && data.length ≤ 2048 && data.length % 512 = 0

/-- The operands of a command lie in what its carrier can express. -/
def Instr.wellFormed : Instr → Bool
  | .eepromAttemptComplete bytes => recordWellFormed bytes
  | .frameCompleteUnspoiled frame _ => frame.wellFormed
  | .receivedFrameSpoiled frame => frame.wellFormed
  | .read _ count => countWellFormed count
  | .write _ count => countWellFormed count
  | .writeStepDataReceived data => stepDataWellFormed data
  | _ => true

end Sys2Proof
end

