-- ==== Sys2Proof/Config.lean ====
section
/-! DEFINITION. What the spec leaves open, as free values with no body: nothing in Lean can evaluate one. -/

namespace Sys2Proof

/-- Which of the owners whose offers reach LIF at the same moment is taken first (R166: "are taken in either
order"). FREE VALUE, log 5; applied to the model's counter `fresh`. -/
opaque Config.offerPick : Nat → Nat

/-- A STATUS byte to which R195 gives no value: mode and boot-once in NONE, T before the first WATCHDOG-ARM.
FREE VALUE, log 23; applied to the model's counter `fresh`. -/
opaque Config.statusUnstated : Nat → BitVec 8

/-- The bytes of the USB descriptor asked for (R118 gives the device's class and not the bytes).
FREE VALUE, log 22; applied to the descriptor asked. -/
opaque Config.usbDescriptor : BitVec 8 → List (BitVec 8)

/-- Which of the failures of R203 ended an EEPROM attempt that has failed: no command tells it.
FREE VALUE, log 48; applied to the model's counter `fresh`. -/
opaque Config.eepromFailure : Nat → Nat

end Sys2Proof
end

