-- ==== Sys2Proof/Machine/State.lean ====
section
/-! DEFINITION. The state of the part, block by block, as plain data; the reasons a step can stop; the state at reset. -/

namespace Sys2Proof.Machine

/-! ### Settings (12_start_up_settings_and_the_uplink_line.md, 12.3) -/

/-- The action of a pattern entry (R63). -/
inductive PatternAction where
  | heartbeat
  | bootDone
  | panic
  | note
deriving DecidableEq, Repr

/-- A pattern entry in use or unused: an unused one has no text (R63). -/
structure Pattern where
  action : PatternAction
  text   : Bytes
deriving DecidableEq, Repr

/-- What WDU may do at an expiry or a panic (R82, R93). -/
inductive FaultAction where
  | notice
  | reset
  | cycle
deriving DecidableEq, Repr

/-- The validated parameter record (12.3). Durations are in the record's units. -/
structure Settings where
  slotCount       : Nat
  presenceMs      : Nat
  retryLimit      : Nat
  startLimit      : Nat
  settle          : Nat
  consoleRate     : Nat
  historyLog      : Nat
  sdramCode       : Nat
  rowWidth        : Nat
  colWidth        : Nat
  refreshInterval : Nat
  rest            : Nat
  young           : Nat
  grace           : Nat
  force           : Nat
  bootAllowance   : Nat
  pgoodHigh       : Bool
  reserve         : Nat
  readahead       : Nat
  wantTimer       : Nat
  panicResponse   : FaultAction
  patterns        : List Pattern
deriving DecidableEq, Repr

/-- Where the start sequence stands (R202, R203). -/
inductive SldPhase where
  | idle
  | reading (attempt : Nat)
  | retryWait (attempt : Nat) (due : Time)
  | validated (record : Settings) (digest : BitVec 16)
  | handedOver
  | halted
deriving DecidableEq, Repr

/-- What SLD drives on the setting bus as its master (R203): a start condition, the device address with its direction,
a word-address byte, acknowledges of bytes read, the missing acknowledge of the last one, a stop condition. -/
inductive BusItem where
  | start
  | device (address : BitVec 7) (reads : Bool)
  | word (byte : Byte)
  | acks (count : Nat)
  | nack
  | stop
deriving DecidableEq, Repr

/-- SLD: the strap sample, the start sequence and the record handed to every block (R202). `bus` is what SLD drove in
the last attempt that ended (R203). -/
structure Sld where
  role     : Role := .serving
  snum     : Nat := 0
  phase    : SldPhase := .idle
  warm     : Bool := false
  settings : Option Settings := none
  bus      : List BusItem := []
deriving DecidableEq, Repr

/-! ### Lane frames and the send list -/

/-- The twelve frame kinds (9.3). -/
inductive FrameKind where
  | beacon
  | admitClaim
  | admitWithdraw
  | admitRelease
  | order
  | reply
  | notice
  | consoleOut
  | consoleIn
  | lineWant
  | lineGive
  | imageRetire
deriving DecidableEq, Repr

/-- The identity of a line of image data (R105). -/
structure Key where
  image : Nat
  gen   : Nat
  line  : Nat
deriving DecidableEq, Repr

/-- Where an owner's frame stands. LISTED is QUEUED in the chapters on admission and forwarding. The number is the
frame's place in LIF's acceptance order. -/
inductive Standing where
  | held
  | listed (seq : Nat)
  | inTenure (seq : Nat)
deriving DecidableEq, Repr

/-- Who offered a frame (R166). -/
inductive Owner where
  | adm
  | ptu
  | ord
  | ntu
  | cfw
  | xchWant
  | xchGive
  | upb
deriving DecidableEq, Repr

/-- What a listed frame carries (R166): its body, the key and pinned line of XCH's LINE-GIVE (R169), or a body that
is filled at its tenure (R185, R199). -/
inductive Payload where
  | body (bytes : Bytes)
  | give (key : Key) (line : Nat)
  | atTenure
deriving DecidableEq, Repr

/-- One entry of the send list (R166). `seq` is its place in acceptance order. -/
structure SendEntry where
  seq      : Nat
  cls      : Nat
  dest     : Byte
  kind     : FrameKind
  payload  : Payload
  owner    : Owner
  retry    : Nat := 0
  inTenure : Bool := false
deriving DecidableEq, Repr

/-- The lane engine's eight states (R158). -/
inductive Engine where
  | offLane
  | syncing
  | quiet
  | bidding
  | sending
  | slots
  | receiving
  | discarding
deriving DecidableEq, Repr

/-- LIF's give buffer (R169). -/
inductive GiveBuf where
  | free
  | reading (seq : Nat)
  | loaded (seq : Nat) (data : Bytes)
  | discarding
deriving DecidableEq, Repr

/-- The tenure of this station: its place in the send list, the frame and its bytes (R159, R161). `stopped` says that
the sender stopped on a mismatch, its outcome SPOILED held until the tenure ends (R160, R173). -/
structure Tenure where
  seq     : Nat
  frame   : LaneFrame
  bytes   : Bytes
  stopped : Bool := false
deriving DecidableEq, Repr

/-- What the station last drove on the lane (R159, R162, R163). -/
inductive Drove where
  | nothing
  | leadBit
  | tailBit
  | spoilSlot
  | takeSlot
deriving DecidableEq, Repr

/-- LIF (09_the_rack_lane.md). -/
structure Lif where
  engine    : Engine := .offLane
  quiet     : Nat := 0
  sitOut    : Bool := false
  sendList  : List SendEntry := []
  nextSeq   : Nat := 0
  recvQueue : List LaneFrame := []
  takeHeld  : Option LaneFrame := none
  giveBuf   : GiveBuf := .free
  tenure    : Option Tenure := none
  drove     : Drove := .nothing
  ltx       : Bool := false
  stat      : Bool := false
deriving DecidableEq, Repr

/-! ### Membership -/

/-- The station states (R176). -/
inductive StationState where
  | setup
  | listen
  | member
  | haltedSetup
  | silent
deriving DecidableEq, Repr

/-- Whether a peer's last valid beacon carried this station's digest (R180). -/
inductive DigestMatch where
  | no
  | yes
  | notKnown
deriving DecidableEq, Repr

/-- The last sequencer summary of a peer, as its beacon coded it (R180). -/
structure SeqSummary where
  state      : Byte
  variant    : Byte
  pendingAct : Byte
  slotHeld   : Byte
deriving DecidableEq, Repr

/-- One entry of the peer table (R180). The attachment is the image id and generation as the beacon carried them,
image id 0 standing for absent. -/
structure Peer where
  present     : Bool := false
  role        : Option Role := none
  missed      : Nat := 0
  lastState   : Option StationState := none
  lastSeq     : Option SeqSummary := none
  lastAttach  : Option (Nat × Nat) := none
  digestMatch : DigestMatch := .notKnown
deriving DecidableEq, Repr

/-- PTU (10_membership_and_the_peer_table.md). `standing` is absent for NONE. -/
structure Ptu where
  state       : StationState := .setup
  peers       : Vector Peer 62 := Vector.replicate 62 {}
  boundary    : Option Time := none
  debt        : Nat := 0
  standing    : Option Standing := none
  beaconClass : Nat := 3
  digest      : Option (BitVec 16) := none
  mismatch    : Bool := false
deriving DecidableEq, Repr

/-! ### Admission -/

/-- The kind of start an ADMIT-CLAIM names (9.3). -/
inductive StartKind where
  | powerOn
  | feedRestore
deriving DecidableEq, Repr

/-- The kind of an own admission frame (R28). -/
inductive OwnKind where
  | claim (start : StartKind)
  | withdraw
  | release
deriving DecidableEq, Repr

/-- One entry of the own-frame list (R28, R43). -/
structure OwnFrame where
  kind     : OwnKind
  standing : Standing := .held
deriving DecidableEq, Repr

/-- ADM (R28). A roster entry carries the time its entry timer started; an expired station the time its timer ends. -/
structure Adm where
  roster  : List (Nat × Time) := []
  waiting : List Nat := []
  own     : List OwnFrame := []
  expired : List (Nat × Time) := []
  copied  : Bool := false
  kept    : Nat := 0
deriving DecidableEq, Repr

/-! ### Power sequencer -/

/-- The nine sequencer states (R3). -/
inductive SeqState where
  | feedCut
  | feedBounce
  | resting
  | off
  | awaitingSlot
  | starting
  | on
  | stopping
  | forcing
deriving DecidableEq, Repr

/-- The variant, none in the states where it is meaningless (R3). -/
inductive Variant where
  | none
  | powerOn
  | feedRestore
  | soft
  | softThenHard
deriving DecidableEq, Repr

/-- The pending action (R3). -/
inductive PendingAct where
  | none
  | powerOn
  | feedRestore
deriving DecidableEq, Repr

/-- The deferred off (R3). -/
inductive Deferred where
  | none
  | soft
  | softThenHard
deriving DecidableEq, Repr

/-- The rest phase; ON, STOPPING and FORCING have none (R3). -/
inductive RestPhase where
  | none
  | awaitingFall
  | running
  | satisfied
deriving DecidableEq, Repr

/-- PWR_PRESS: released, or asserted for a press pulse or a long press that ends at `due` (R1). -/
inductive Press where
  | released
  | pulse (due : Time)
  | long (due : Time)
deriving DecidableEq, Repr

/-- PSQ (R3), with its outputs (R1) and the debounced PGOOD level (R2). `state` is absent until derived (R26). A timer
holds the station time at which it runs out. -/
structure Psq where
  state      : Option SeqState := none
  variant    : Variant := .none
  pendingAct : PendingAct := .none
  slotHeld   : Bool := false
  claimAsked : Bool := false
  retract    : Nat := 0
  young      : Bool := false
  deferred   : Deferred := .none
  resetPulse : Option Time := none
  press      : Press := .released
  feedClosed : Bool := true
  restPhase  : RestPhase := .none
  startT     : Option Time := none
  settleT    : Option Time := none
  youngT     : Option Time := none
  graceT     : Option Time := none
  forceT     : Option Time := none
  restT      : Option Time := none
  pgood      : Bool := false
  faultOwed  : Bool := false
deriving DecidableEq, Repr

/-! ### Watchdog -/

/-- The deadline's phase (R82). -/
inductive DeadlinePhase where
  | boot
  | running
deriving DecidableEq, Repr

/-- WDU's record and the panic hold-off (R82). Durations are in seconds. -/
structure Wdu where
  armed          : Bool := false
  timeout        : Option Nat := none
  bootAllowance  : Nat := 600
  action         : FaultAction := .notice
  guard          : Bool := false
  pendingTimeout : Option Nat := none
  deadline       : Option Time := none
  phase          : DeadlinePhase := .boot
  lastBeat       : Option Time := none
  early          : Nat := 0
  expiry         : Nat := 0
  holdoff        : Bool := false
deriving DecidableEq, Repr

/-! ### Console -/

/-- The receiver's five states (R50). -/
inductive RxState where
  | held
  | seekingIdle
  | idle
  | character
  | brk
deriving DecidableEq, Repr

/-- The mark kinds (R59). -/
inductive MarkKind where
  | powerOn
  | powerOff
  | powerLost
  | reset
  | feedCut
  | feedRestored
  | watchdog
  | panic
  | breakIn
  | breakOut
  | garbled
  | lost
  | started
  | mediaAttached
  | mediaDetached
deriving DecidableEq, Repr

/-- One mark (3.4). -/
structure Mark where
  offset : Nat
  number : BitVec 32
  kind   : MarkKind
  time   : Time
  arg    : Nat
deriving DecidableEq, Repr

/-- Which of the two loss counts became non-zero first (R53). -/
inductive LossOrder where
  | lostFirst
  | garbledFirst
deriving DecidableEq, Repr

/-- CCU (03_console_capture_history_and_patterns.md). -/
structure Ccu where
  rx          : RxState := .held
  running     : Bool := false
  ringSize    : Nat := 0
  captured    : Nat := 0
  buffer      : Bytes := []
  lost        : Nat := 0
  garbled     : Nat := 0
  lossOrder   : LossOrder := .lostFirst
  marks       : List Mark := []
  markCounter : BitVec 32 := 0
  window      : Bytes := []
  run         : Nat := 0
deriving DecidableEq, Repr

/-- A watcher's record of the frame last built for it (R67). -/
structure InFlight where
  start  : Nat
  finish : Nat
  gap    : Nat
  resume : BitVec 32
deriving DecidableEq, Repr

/-- One entry of the watcher list (R67). -/
structure Watcher where
  station   : Nat
  sendPtr   : Nat
  nextMark  : BitVec 32
  gap       : Nat := 0
  waitStart : Option Time := none
  pause     : Option Time := none
  inFlight  : Option InFlight := none
deriving DecidableEq, Repr

/-- The standing of the outstanding frame (R67). -/
inductive OutStanding where
  | reading
  | frame (standing : Standing)
deriving DecidableEq, Repr

/-- The outstanding CONSOLE-OUT frame (R67, R73). -/
structure OutFrame where
  station  : Nat
  standing : OutStanding
  orphaned : Bool := false
  first    : Nat
  last     : Nat
  body     : Bytes := []
deriving DecidableEq, Repr

/-- One item of the console input queue (4.4). -/
inductive InputItem where
  | text (byte : Byte)
  | brk (station : Nat)
deriving DecidableEq, Repr

/-- CTXD (R80): idle high, sending a character, driven low for a break until `due`, or the guard frame after it. -/
inductive TxState where
  | idle
  | char (byte : Byte)
  | breakLow (due : Time)
  | guardHigh
deriving DecidableEq, Repr

/-- CFW (04_console_forwarding_and_input.md). -/
structure Cfw where
  watchers : List Watcher := []
  out      : Option OutFrame := none
  turn     : Nat := 0
  queue    : List InputItem := []
  reserved : Nat := 0
  tx       : TxState := .idle
deriving DecidableEq, Repr

/-! ### Memory -/

/-- MCTL's four states (R97). -/
inductive MemState where
  | down
  | bringingUp
  | up
  | selfRefresh
deriving DecidableEq, Repr

/-- The geometry of the device (R96). -/
structure Geometry where
  sdramCode : Nat
  rowWidth  : Nat
  colWidth  : Nat
deriving DecidableEq, Repr

/-- One media transfer (R98, R129, R130): blocks of one line, named within the line, for the request with the serial
`request`. A dropped one runs to its end and its data are discarded. -/
structure MediaReq where
  line    : Nat
  isRead  : Bool
  blocks  : List Nat
  data    : Bytes := []
  lineNo  : Nat
  request : Nat
  dropped : Bool := false
deriving DecidableEq, Repr

/-- A request the arbiter has granted (R98). -/
inductive MemReq where
  | refresh
  | capture (count : Nat)
  | receive (line : Nat) (data : Bytes)
  | media (m : MediaReq)
  | forward (first last : Nat)
  | send (line : Nat) (seq : Nat)
deriving DecidableEq, Repr

/-- The request in progress, and whether its completion is reported to the block that asked (R101). -/
structure InProgress where
  req      : MemReq
  reported : Bool := true
deriving DecidableEq, Repr

/-- MCTL (06_station_memory_and_the_line_pool.md). -/
structure Mctl where
  mem         : MemState := .down
  leaving     : Bool := false
  restarting  : Bool := false
  geometry    : Option Geometry := none
  debt        : Int := 0
  retention   : Bool := false
  current     : Option InProgress := none
  waitCapture : Bool := false
  waitRecv    : List (Nat × Bytes) := []
  waitMedia   : List MediaReq := []
  waitForward : Option (Nat × Nat) := none
  waitSend    : Option (Nat × Nat) := none
deriving DecidableEq, Repr

/-- A FILLING line's fill write (R104). -/
inductive FillWrite where
  | none
  | inFlight
  | freePending
deriving DecidableEq, Repr

/-- A line that is not FREE (R104). A doomed line and one whose free is pending are out of the index (R105). -/
inductive Line where
  | filling (key : Key) (write : FillWrite)
  | clean (key : Key) (pins : Nat) (doomed : Bool)
  | dirty (number : Nat) (mask : BitVec 4) (pins : Nat) (releasePending : Bool)
deriving DecidableEq, Repr

/-- LPM: the pool's lines by position, rising; a position not listed is FREE (R103, R104, R107). -/
structure Lpm where
  poolSize : Nat := 0
  reserve  : Nat := 0
  lines    : List (Nat × Line) := []
  recency  : List Nat := []
deriving DecidableEq, Repr

/-! ### Exchange -/

/-- The purpose of a want (R140). -/
inductive Purpose where
  | demand
  | readahead
deriving DecidableEq, Repr

/-- Why a want is VOID (R140). -/
inductive VoidCause where
  | retired
  | dropped
deriving DecidableEq, Repr

/-- The state of a want with the fields that have meaning in it (R140). -/
inductive WantState where
  | queued (standing : Standing)
  | sent
  | riding
  | landing (buffer : Fin 4)
  | void (buffer : Fin 4) (cause : VoidCause)
deriving DecidableEq, Repr

/-- One want (R140). In VOID `key` is the former key. -/
structure Want where
  key     : Key
  purpose : Purpose
  state   : WantState
  tries   : Nat := 0
  timer   : Option Time := none
  line    : Nat
deriving DecidableEq, Repr

/-- One give (R148). -/
structure Give where
  key      : Key
  line     : Nat
  standing : Standing := .held
deriving DecidableEq, Repr

/-- XCH (08_cooperative_line_exchange.md). A fill buffer is absent when free. -/
structure Xch where
  wants    : List Want := []
  gives    : List Give := []
  fillBufs : Vector (Option Bytes) 4 := Vector.replicate 4 none
deriving DecidableEq, Repr

/-! ### Media function -/

/-- The attachment's state (R115). -/
inductive AttachState where
  | none
  | attached
  | detaching
deriving DecidableEq, Repr

/-- The attachment's mode (R115). -/
inductive Mode where
  | readOnly
  | overlay
deriving DecidableEq, Repr

/-- Why an attachment ends (R115). -/
inductive DetachCause where
  | order
  | eject
  | bootDone
  | powerOff
  | retired
  | restart
deriving DecidableEq, Repr

/-- The port's states (R118). -/
inductive Port where
  | unpowered
  | disconnected
  | connected
  | configured
  | suspended
deriving DecidableEq, Repr

/-- Where a step's blocks are read from (R126). -/
inductive Source where
  | overlay
  | cache
  | merge
  | fetchThenMerge
deriving DecidableEq, Repr

/-- The state of a step (R125). -/
inductive StepState where
  | pending
  | waiting
  | ready
  | done
deriving DecidableEq, Repr

/-- One media transfer a READY step still has to ask: from the overlay line or from the CLEAN line (R129). -/
inductive Fetch where
  | overlay
  | base
deriving DecidableEq, Repr

/-- One step of a transfer list (R125). `todo` is what the step has still to ask of MCTL. -/
structure XferStep where
  line   : Nat
  first  : Nat
  last   : Nat
  source : Source
  state  : StepState
  todo   : List Fetch := []
deriving DecidableEq, Repr

/-- The kind of an executed request (R125). -/
inductive ReqKind where
  | read
  | write
deriving DecidableEq, Repr

/-- The request record (R125, R130). `blocked` says that a want was answered FULL and none has ended since (R127).
`buffer` is the step buffer of a WRITE, with the line its blocks go to, until the media write is asked. -/
structure Request where
  serial   : Nat
  kind     : ReqKind
  first    : Nat
  count    : Nat
  steps    : List XferStep
  delivery : Nat
  blocked  : Bool := false
  got      : List (Nat × Bytes) := []
  buffer   : Option (Nat × Bytes) := none
deriving DecidableEq, Repr

/-- The status of a server request (R123). -/
inductive UsbStatus where
  | good
  | mediumError
  | writeProtected
  | outOfRange
  | spaceExhausted
  | mediumChanged
  | notReady
deriving DecidableEq, Repr

/-- MFN (07_remote_media_function.md). `usbData`, `usbStatus` and `usbControl` are what the part last sent the
server: the blocks or capacity of the request, its status, and the control endpoint's answer. -/
structure Mfn where
  state       : AttachState := .none
  image       : Nat := 0
  gen         : Nat := 0
  capacity    : Nat := 0
  mode        : Mode := .readOnly
  bootOnce    : Bool := false
  cause       : Option DetachCause := none
  drain       : Option Time := none
  changed     : Bool := false
  tracker     : Option Nat := none
  lastCause   : Option DetachCause := none
  port        : Port := .unpowered
  remembered  : Port := .connected
  resume      : Option Time := none
  remoteWake  : Bool := false
  address     : BitVec 7 := 0
  request     : Option Request := none
  nextRequest : Nat := 0
  usbData     : Bytes := []
  usbStatus   : Option UsbStatus := none
  usbControl  : Bytes := []
deriving DecidableEq, Repr

/-! ### Orders and notices -/

/-- The standing of an order (R189); REPLY-HELD carries the REPLY's body, built at the decision (R192). -/
inductive OrderStanding where
  | waiting
  | replyHeld (reply : Bytes) (isRestart : Bool)
deriving DecidableEq, Repr

/-- One order of the inbox (R189): the body is the name, the tag and the parameters as the frame carried them. -/
structure Order where
  sender   : Nat
  body     : Bytes
  standing : OrderStanding := .waiting
deriving DecidableEq, Repr

/-- ORD (11_orders_replies_and_notices.md). `restartReply` is the RESTART's REPLY once it is in the send list. -/
structure Ord where
  inbox          : List Order := []
  holder         : Option Nat := none
  holdTime       : Time := 0
  restartPending : Bool := false
  restartReply   : Option Nat := none
deriving DecidableEq, Repr

/-- The twenty notice kinds (R198). -/
inductive NoticeKind where
  | powerLost
  | startFailed
  | unadmittedStart
  | softOffIgnored
  | feedFault
  | powerState
  | watchdogExpired
  | panicSeen
  | earlyHeartbeats
  | faultRefused
  | mediaAttached
  | mediaDetached
  | mediaFailure
  | spaceExhausted
  | bootDone
  | claimLost
  | patternNote
  | rackMismatch
  | rosterConflict
  | started
deriving DecidableEq, Repr

/-- A notice kind whose pending flag is set (R198). -/
structure PendingNotice where
  kind   : NoticeKind
  detail : Bytes
  time   : Time
  raise  : Nat
deriving DecidableEq, Repr

/-- NTU (R198). `standing` is absent for NONE. -/
structure Ntu where
  pending     : List PendingNotice := []
  counter     : Nat := 0
  standing    : Option Standing := none
  inTenure    : Option NoticeKind := none
  raisedAgain : Bool := false
  pause       : Option Time := none
deriving DecidableEq, Repr

/-! ### Uplink -/

/-- A frame of the operations computer in the outbound queue (R206). -/
structure UpFrame where
  dest : Byte
  kind : FrameKind
  body : Bytes
deriving DecidableEq, Repr

/-- A unit of the inbound queue (R208). -/
structure InUnit where
  sender : Byte
  dest   : Byte
  kind   : Byte
  body   : Bytes
deriving DecidableEq, Repr

/-- UPB (12.5). `tx` is the unit being sent on UTXD, `rx` the characters of a unit not yet whole. -/
structure Upb where
  outq : List UpFrame := []
  inq  : List InUnit := []
  tx   : Option Bytes := none
  rx   : Bytes := []
deriving DecidableEq, Repr

/-! ### The part -/

/-- The input pins whose level the part goes by between commands. -/
structure Pins where
  vbsense : Bool := false
  urts    : Bool := false
deriving DecidableEq, Repr

/-- The state of the part and the queue of commands that are waiting. -/
structure State where
  now     : Time := 0
  rstn    : Bool := true
  pins    : Pins := {}
  sld     : Sld := {}
  ptu     : Ptu := {}
  lif     : Lif := {}
  adm     : Adm := {}
  psq     : Psq := {}
  wdu     : Wdu := {}
  ccu     : Ccu := {}
  cfw     : Cfw := {}
  mctl    : Mctl := {}
  sdram   : List Host.Cell := []
  lpm     : Lpm := {}
  xch     : Xch := {}
  mfn     : Mfn := {}
  ord     : Ord := {}
  ntu     : Ntu := {}
  upb     : Upb := {}
  fresh   : Nat := 0
  pending : List Instr := []
deriving DecidableEq, Repr

/-- The reasons a step stops with a fault. -/
inductive Fault where
  /-- A memory request reaches past the device's last byte. Raised by CAPTURE_WRITE_COMPLETE,
  CONSOLE_FORWARD_READ_COMPLETE, LANE_RECEIVE_WRITE_COMPLETE, MEDIA_TRANSFER_COMPLETE and LANE_SEND_READ_COMPLETE in
  states that no run reaches (log 30). Safe. -/
  | noSuchAddress
deriving DecidableEq, Repr

/-- The reasons a command has no meaning. -/
inductive Refusal where
  /-- The command's meaning has not been written. No meaning answers with it. Safe. -/
  | notModelled (mnemonic : String)
deriving DecidableEq, Repr

/-- The part right after reset: held in its cold-start state with RSTN asserted (R202; log 8), every field at the value
the spec gives for cold start, the others as log 9, log 10 and log 28 name them. -/
def State.reset : State := {}

end Sys2Proof.Machine
end

