-- ==== Sys2Proof/Machine/Ops.lean ====
section
/-! DEFINITION. The named operations that every block uses: station time and timers, byte strings, the CRC, the SDRAM,
the send list, marks and notices, and the settings as handed over. -/

namespace Sys2Proof.Machine

/-! ### Station time and timers (00_scope.md, Conventions) -/

/-- The station time `ms` milliseconds after `t`. -/
def after (t : Time) (ms : Nat) : Time := t + BitVec.ofNat 32 ms

/-- `due` has come at `now`: station times are compared by their difference modulo 2^32. -/
def reached (due now : Time) : Bool := (now - due).toNat < 2 ^ 31

/-- The milliseconds from `since` to `now`, modulo 2^32. -/
def elapsed (since now : Time) : Nat := (now - since).toNat

/-- The station time moves to `due` when that lies ahead: the expiry command stands for that moment (log 4). -/
def State.timeTo (s : State) (due : Time) : State :=
  { s with now := if reached due s.now then s.now else due }

/-! ### Byte strings -/

/-- The `n` bytes of `v`, most significant byte first (9.3, R191). -/
def be : Nat → Nat → Bytes
  | 0, _ => []
  | n + 1, v => BitVec.ofNat 8 (v / 256 ^ n) :: be n v

/-- The number a byte string spells, most significant byte first. -/
def fromBe (bytes : Bytes) : Nat := bytes.foldl (fun acc b => acc * 256 + b.toNat) 0

/-- One byte holding a number. -/
def byte (n : Nat) : Byte := BitVec.ofNat 8 n

/-- A truth value as the byte 0 or 1. -/
def flag (b : Bool) : Byte := if b then 1 else 0

/-- The byte at a position of a string, 0 past its end. -/
def byteAt (bytes : Bytes) (i : Nat) : Byte := bytes.getD i 0

/-- The field of `n` bytes at position `i`. -/
def field (bytes : Bytes) (i n : Nat) : Nat := fromBe ((bytes.drop i).take n)

/-- The largest value of a count of 32 bits that holds at its maximum. -/
def max32 : Nat := 4294967295

/-- A sum held at 4,294,967,295. -/
def sat32 (n : Nat) : Nat := min n max32

/-! ### CRC-16 (R161) -/

/-- One bit of the CRC-16 of x^16+x^12+x^5+1. -/
def crcBit (crc : BitVec 16) (bit : Bool) : BitVec 16 :=
  if xor crc.msb bit then (crc <<< 1) ^^^ 0x1021#16 else crc <<< 1

/-- One byte of the CRC, most significant bit first. -/
def crcByte (crc : BitVec 16) (b : Byte) : BitVec 16 :=
  [7, 6, 5, 4, 3, 2, 1, 0].foldl (fun c i => crcBit c (b.getLsbD i)) crc

/-- The CRC-16 from all ones, with no final inversion. -/
def crc16 (bytes : Bytes) : BitVec 16 := bytes.foldl crcByte 0xFFFF#16

/-! ### The SDRAM (R96) -/

/-- The SDRAM as a list of written bytes: addresses strictly rising, no entry equal to what an unlisted address reads
as. -/
abbrev Memory := List Host.Cell

/-- What an address that nothing has written reads as. DESIGN CHOICE, unsafe, log 6. -/
def Memory.unlisted : Byte := 0

/-- The canonical form of a memory. -/
abbrev Memory.wf (m : Memory) : Prop :=
  m.Pairwise (fun a b => a.1 < b.1) ∧ ∀ c ∈ m, c.2 ≠ Memory.unlisted

/-- The byte at an address. -/
def Memory.read : Memory → Nat → Byte
  | [], _ => Memory.unlisted
  | (k, v) :: m, a => if a = k then v else Memory.read m a

/-- A byte written, keeping the canonical form. -/
def Memory.write : Memory → Nat → Byte → Memory
  | [], a, v => if v = Memory.unlisted then [] else [(a, v)]
  | (k, w) :: m, a, v =>
    if a < k then (if v = Memory.unlisted then (k, w) :: m else (a, v) :: (k, w) :: m)
    else if a = k then (if v = Memory.unlisted then m else (a, v) :: m)
    else (k, w) :: Memory.write m a v

/-- The `n` bytes from an address on. -/
def Memory.readBytes (m : Memory) (a : Nat) : Nat → Bytes
  | 0 => []
  | n + 1 => m.read a :: Memory.readBytes m (a + 1) n

/-- A byte string written from an address on. -/
def Memory.writeBytes (m : Memory) (a : Nat) : Bytes → Memory
  | [] => m
  | b :: bs => Memory.writeBytes (m.write a b) (a + 1) bs

/-- Bytes written at the ring positions of the offsets from `offset` on (R54: offset mod ring size). -/
def Memory.writeRing (m : Memory) (ring offset : Nat) : Bytes → Memory
  | [] => m
  | b :: bs => Memory.writeRing (m.write (offset % ring) b) ring (offset + 1) bs

/-- The `n` bytes of the ring from an offset on. -/
def Memory.readRing (m : Memory) (ring offset : Nat) : Nat → Bytes
  | 0 => []
  | n + 1 => m.read (offset % ring) :: Memory.readRing m ring (offset + 1) n

/-- The size of the device in bytes by the record's code (12.3): 32, 64 or 128 MiB. -/
def sdramBytes (code : Nat) : Nat := if code = 1 then 33554432 else if code = 2 then 67108864 else 134217728

/-- The size of the device that MCTL has brought up, 0 before it has one. -/
def Mctl.size (m : Mctl) : Nat :=
  match m.geometry with
  | some g => sdramBytes g.sdramCode
  | none => 0

/-- The address of pool position `p` (R96). -/
def lineAddress (ring p : Nat) : Nat := ring + 2048 * p

/-! ### Settings as handed over -/

/-- The value of a setting, 0 where no record has been handed over. -/
def State.setting (s : State) (f : Settings → Nat) : Nat := (s.sld.settings.map f).getD 0

/-- The patterns of the record (R63). -/
def State.patterns (s : State) : List Pattern := (s.sld.settings.map Settings.patterns).getD []

/-- This station's number. -/
def State.own (s : State) : Nat := s.sld.snum

/-- The station number is legal, 1 to 62 (R202). -/
def State.legalNumber (s : State) : Bool := 1 ≤ s.sld.snum && s.sld.snum ≤ 62

/-- The role is SERVING. -/
def State.serving (s : State) : Bool := s.sld.role = .serving

/-- A number of seconds in milliseconds. -/
def sec (n : Nat) : Nat := 1000 * n

/-- The hold limit in ms: start limit plus settle time plus two presence periods (02, 2.4). -/
def State.holdLimit (s : State) : Nat :=
  sec (s.setting Settings.startLimit) + sec (s.setting Settings.settle) + 2 * s.setting Settings.presenceMs

/-! ### The send list (R166 to R169) -/

/-- LIF accepts offers in LISTEN, MEMBER and HALTED-SETUP (R174). -/
def State.lifAccepts (s : State) : Bool :=
  s.ptu.state = .listen || s.ptu.state = .member || s.ptu.state = .haltedSetup

/-- The list has a place for an offer of this class (R166). -/
def Lif.hasPlace (l : Lif) (cls : Nat) : Bool := l.sendList.length < (if cls = 0 then 24 else 20)

/-- LIF refuses an offer whose body exceeds 2,064 bytes or whose destination is 0 (R161). -/
def offerValid (dest : Byte) (payload : Payload) : Bool :=
  dest ≠ 0 && (match payload with
    | .body bytes => bytes.length ≤ 2064
    | _ => true)

/-- An accepted offer joins the list with retry count 0 at the next place in acceptance order (R166). -/
def Lif.accept (l : Lif) (cls : Nat) (dest : Byte) (kind : FrameKind) (payload : Payload) (owner : Owner) : Lif :=
  { l with
    sendList := l.sendList ++ [{ seq := l.nextSeq, cls := cls, dest := dest, kind := kind, payload := payload, owner := owner }]
    nextSeq := l.nextSeq + 1 }

/-- The head: the frame of the lowest class, and of that class the one accepted first (R167). -/
def Lif.head (l : Lif) : Option SendEntry :=
  l.sendList.foldl (fun best e =>
    match best with
    | none => some e
    | some b => if e.cls < b.cls then some e else some b) none

/-- The entry at a place in acceptance order. -/
def Lif.entry (l : Lif) (seq : Nat) : Option SendEntry := l.sendList.find? (fun e => e.seq = seq)

/-- The entry at `seq` takes or leaves its tenure. -/
def Lif.setTenure (l : Lif) (seq : Nat) (on : Bool) : Lif :=
  { l with sendList := l.sendList.map (fun e => if e.seq = seq then { e with inTenure := on } else e) }

/-- The entry at `seq` leaves the list. -/
def Lif.remove (l : Lif) (seq : Nat) : Lif := { l with sendList := l.sendList.filter (fun e => e.seq ≠ seq) }

/-- The give buffer of a LINE-GIVE that leaves the list: a read still waiting at MCTL is withdrawn and the buffer
freed, a read in progress runs to its end first (R169). -/
def State.freeGiveBuf (s : State) (seq : Nat) : State :=
  match s.lif.giveBuf with
  | .loaded q _ => if q = seq then { s with lif := { s.lif with giveBuf := .free } } else s
  | .reading q =>
    if q = seq then
      (if s.mctl.waitSend.any (fun w => w.2 = seq) then
        { s with lif := { s.lif with giveBuf := .free }, mctl := { s.mctl with waitSend := none } }
      else { s with lif := { s.lif with giveBuf := .discarding } })
    else s
  | _ => s

/-- An owner withdraws a LISTED frame; a frame IN-TENURE stays (R168). -/
def State.lifWithdraw (s : State) (seq : Nat) : State :=
  match s.lif.entry seq with
  | some e => if e.inTenure then s else ({ s with lif := s.lif.remove seq } : State).freeGiveBuf seq
  | none => s

/-- The frame of a standing leaves the send list if it is LISTED. -/
def State.withdrawStanding (s : State) : Standing → State
  | .held => s
  | .listed seq => s.lifWithdraw seq
  | .inTenure seq => s.lifWithdraw seq

/-- A standing belongs to the frame at `seq`. -/
def Standing.isAt (st : Standing) (seq : Nat) : Bool := st = .listed seq || st = .inTenure seq

/-- The bytes of a frame on the lane, check included (9.3, R161). -/
def LaneFrame.bytes (f : LaneFrame) : Bytes :=
  let content := (byte (f.cls.toNat * 64 + f.sender.toNat) :: f.dest :: f.kind :: be 2 f.body.length) ++ f.body
  content ++ be 2 (crc16 content).toNat

/-! ### Marks (R57, R58) -/

/-- The oldest retained offset (R55). -/
def Ccu.oldest (c : Ccu) : Nat := c.captured - c.ringSize

/-- The stored count (R54). -/
def Ccu.stored (c : Ccu) : Nat := c.captured - c.buffer.length

/-- A mark completed and appended; the oldest of 64 is dropped first; BREAK-IN, LOST and STARTED clear the run
(R57, R58, R65). -/
def Ccu.putMark (c : Ccu) (now : Time) (kind : MarkKind) (arg : Nat) : Ccu :=
  { c with
    marks := (if c.marks.length < 64 then c.marks else c.marks.drop 1) ++
      [{ offset := c.captured, number := c.markCounter, kind := kind, time := now, arg := arg }]
    markCounter := c.markCounter + 1
    run := if kind = .breakIn || kind = .lost || kind = .started then 0 else c.run }

/-- The LOST mark, when its count is not 0 (R53). -/
def Ccu.putLost (c : Ccu) (now : Time) : Ccu :=
  if c.lost = 0 then c else { c.putMark now .lost c.lost with lost := 0 }

/-- The GARBLED mark, when its count is not 0 (R53). -/
def Ccu.putGarbled (c : Ccu) (now : Time) : Ccu :=
  if c.garbled = 0 then c else { c.putMark now .garbled c.garbled with garbled := 0 }

/-- The pending loss marks, in the order in which the losses began (R53). -/
def Ccu.putLosses (c : Ccu) (now : Time) : Ccu :=
  match c.lossOrder with
  | .lostFirst => (c.putLost now).putGarbled now
  | .garbledFirst => (c.putGarbled now).putLost now

/-- A mark asked of CCU: discarded while the history is not running, else the loss marks go first (R57). -/
def Ccu.addMark (c : Ccu) (now : Time) (kind : MarkKind) (arg : Nat) : Ccu :=
  if c.running then (c.putLosses now).putMark now kind arg else c

/-- A block asks CCU for a mark. -/
def State.mark (s : State) (kind : MarkKind) (arg : Nat) : State :=
  { s with ccu := s.ccu.addMark s.now kind arg }

/-! ### Notices (R198) -/

/-- NTU takes raises from the station's entry to LISTEN, and in SILENT; none in SETUP and HALTED-SETUP (R201). -/
def State.takesRaises (s : State) : Bool :=
  s.ptu.state = .listen || s.ptu.state = .member || s.ptu.state = .silent

/-- A raise: a set flag keeps its raise number and takes the new detail and time; a clear one is set (R198). -/
def Ntu.raise (n : Ntu) (now : Time) (kind : NoticeKind) (detail : Bytes) : Ntu :=
  if n.pending.any (fun p => p.kind = kind) then
    { n with
      pending := n.pending.map (fun p => if p.kind = kind then { p with detail := detail, time := now } else p)
      raisedAgain := n.raisedAgain || n.inTenure = some kind }
  else
    { n with
      pending := n.pending ++ [{ kind := kind, detail := detail, time := now, raise := n.counter }]
      counter := n.counter + 1
      raisedAgain := n.raisedAgain || n.inTenure = some kind }

/-- A block raises a notice in NTU. -/
def State.raise (s : State) (kind : NoticeKind) (detail : Bytes) : State :=
  if s.takesRaises then { s with ntu := s.ntu.raise s.now kind detail } else s

/-! ### Outcomes -/

/-- The state of a command's effect as the command's answer; while RSTN is asserted every block is held (R202). -/
def runs (s : State) (effect : State → State) : Host.Outcome State Fault Refusal :=
  .next (if s.rstn then s else effect s)

end Sys2Proof.Machine
end

