-- ==== Sys2Proof/Machine/Operands.lean ====
section
/-! DEFINITION. What the bytes of frames, records and orders say, and the codes the part writes into them. -/

namespace Sys2Proof.Machine

/-! ### Codes -/

/-- Frame kind codes (9.3). -/
def FrameKind.code : FrameKind → Byte
  | .beacon => 1
  | .admitClaim => 2
  | .admitWithdraw => 3
  | .admitRelease => 4
  | .order => 5
  | .reply => 6
  | .notice => 7
  | .consoleOut => 8
  | .consoleIn => 9
  | .lineWant => 10
  | .lineGive => 11
  | .imageRetire => 12

/-- All frame kinds. -/
def FrameKind.all : List FrameKind :=
  [.beacon, .admitClaim, .admitWithdraw, .admitRelease, .order, .reply, .notice, .consoleOut, .consoleIn, .lineWant,
   .lineGive, .imageRetire]

/-- The kind a code names, none outside 1 to 12 (R170). -/
def FrameKind.ofCode (code : Byte) : Option FrameKind := FrameKind.all.find? (fun k => k.code = code)

/-- The urgency class of a frame of the operations computer (R206). -/
def FrameKind.uplinkClass : FrameKind → Nat
  | .admitClaim | .admitWithdraw | .admitRelease | .imageRetire => 0
  | .order | .reply | .notice => 1
  | .consoleOut | .consoleIn => 2
  | .beacon | .lineWant | .lineGive => 3

/-- The destination that means all (00_scope.md). -/
def toAll : Byte := 63

/-- Role codes (R185). -/
def Role.code : Role → Byte
  | .serving => 1
  | .uplink => 2

/-- Station state codes (R176). -/
def StationState.code : StationState → Byte
  | .setup => 1
  | .listen => 2
  | .member => 3
  | .haltedSetup => 4
  | .silent => 5

/-- Sequencer state codes (R185). -/
def SeqState.code : SeqState → Byte
  | .feedCut => 1
  | .feedBounce => 2
  | .resting => 3
  | .off => 4
  | .awaitingSlot => 5
  | .starting => 6
  | .on => 7
  | .stopping => 8
  | .forcing => 9

/-- A sequencer state, 0 while not derived (R185). -/
def seqCode : Option SeqState → Byte
  | none => 0
  | some st => st.code

/-- Variant codes (R185). -/
def Variant.code : Variant → Byte
  | .none => 0
  | .powerOn => 1
  | .feedRestore => 2
  | .soft => 3
  | .softThenHard => 4

/-- Pending action codes (R185). -/
def PendingAct.code : PendingAct → Byte
  | .none => 0
  | .powerOn => 1
  | .feedRestore => 2

/-- The four sequencer bytes of beacons, STATUS, POWER replies and POWER-STATE (R185, R192, R198). -/
def Psq.bytes (p : Psq) : Bytes := [seqCode p.state, p.variant.code, p.pendingAct.code, flag p.slotHeld]

/-- Mark kind codes (R59). -/
def MarkKind.code : MarkKind → Byte
  | .powerOn => 1
  | .powerOff => 2
  | .powerLost => 3
  | .reset => 4
  | .feedCut => 5
  | .feedRestored => 6
  | .watchdog => 7
  | .panic => 8
  | .breakIn => 9
  | .breakOut => 10
  | .garbled => 11
  | .lost => 12
  | .started => 13
  | .mediaAttached => 14
  | .mediaDetached => 15

/-- Notice kind codes (R198). -/
def NoticeKind.code : NoticeKind → Byte
  | .powerLost => 1
  | .startFailed => 2
  | .unadmittedStart => 3
  | .softOffIgnored => 4
  | .feedFault => 5
  | .powerState => 6
  | .watchdogExpired => 7
  | .panicSeen => 8
  | .earlyHeartbeats => 9
  | .faultRefused => 10
  | .mediaAttached => 11
  | .mediaDetached => 12
  | .mediaFailure => 13
  | .spaceExhausted => 14
  | .bootDone => 15
  | .claimLost => 16
  | .patternNote => 17
  | .rackMismatch => 18
  | .rosterConflict => 19
  | .started => 20

/-- Notice groups (R198). -/
def NoticeKind.group : NoticeKind → Nat
  | .powerLost | .startFailed | .unadmittedStart | .softOffIgnored | .feedFault | .powerState => 3
  | .watchdogExpired | .panicSeen | .earlyHeartbeats | .faultRefused => 2
  | .mediaAttached | .mediaDetached | .mediaFailure | .spaceExhausted | .bootDone => 1
  | .claimLost | .patternNote | .rackMismatch | .rosterConflict | .started => 0

/-- The status of an order (R7, R192). -/
inductive OrderStatus where
  | done
  | accepted
  | already
  | busy
  | mismatch
  | notWakeable
  | notHolder
  | held
  | invalid
  | notMember
  | full
  | notUplink
deriving DecidableEq, Repr

/-- Status codes (R192). -/
def OrderStatus.code : OrderStatus → Byte
  | .done => 0
  | .accepted => 1
  | .already => 2
  | .busy => 3
  | .mismatch => 4
  | .notWakeable => 5
  | .notHolder => 6
  | .held => 7
  | .invalid => 8
  | .notMember => 9
  | .full => 10
  | .notUplink => 11

/-- Codes of the watchdog action and the panic response (R191, 12.3, R198). -/
def FaultAction.code : FaultAction → Byte
  | .notice => 1
  | .reset => 2
  | .cycle => 3

/-- The action a code names (R191, 12.3). -/
def FaultAction.ofCode (code : Nat) : Option FaultAction :=
  if code = 1 then some .notice else if code = 2 then some .reset else if code = 3 then some .cycle else none

/-- Mode codes (R191). -/
def Mode.code : Mode → Byte
  | .readOnly => 1
  | .overlay => 2

/-- Detach cause codes (R195). -/
def DetachCause.code : DetachCause → Byte
  | .order => 1
  | .eject => 2
  | .bootDone => 3
  | .powerOff => 4
  | .retired => 5
  | .restart => 6

/-- A detach cause, 0 for absent (R195). -/
def causeCode : Option DetachCause → Byte
  | none => 0
  | some c => c.code

/-- The MEDIA-DETACHED mark's argument (R135). -/
def DetachCause.markArg : DetachCause → Nat
  | .order => 0
  | .eject => 1
  | .bootDone => 2
  | .powerOff => 3
  | .retired => 4
  | .restart => 5

/-- Port state codes (R195). -/
def Port.code : Port → Byte
  | .unpowered => 1
  | .disconnected => 2
  | .connected => 3
  | .configured => 4
  | .suspended => 5

/-- Attachment state codes (R195). -/
def AttachState.code : AttachState → Byte
  | .none => 0
  | .attached => 1
  | .detaching => 2

/-- Digest match codes (R195). -/
def DigestMatch.code : DigestMatch → Byte
  | .no => 0
  | .yes => 1
  | .notKnown => 2

/-! ### Line keys (R139) -/

/-- The key in the first 7 bytes of a LINE-WANT or LINE-GIVE body (R139); for a shorter body see log 42. -/
def keyOf (body : Bytes) : Key := { image := field body 0 2, gen := field body 2 1, line := field body 3 4 }

/-- The 7 bytes of a key. -/
def Key.bytes (k : Key) : Bytes := be 2 k.image ++ be 1 k.gen ++ be 4 k.line

/-- An image id that names an image: 1 to 65,534. -/
def imageLegal (image : Nat) : Bool := 1 ≤ image && image ≤ 65534

/-! ### Beacons (9.3, R183) -/

/-- A well-formed beacon's content. -/
structure Beacon where
  role    : Role
  state   : StationState
  digest  : BitVec 16
  seq     : SeqSummary
  attach  : Nat × Nat
  roster  : List Nat
  waiting : List Nat
  holder  : Nat
deriving DecidableEq, Repr

/-- The beacon a frame carries, none where it is not valid (R183). -/
def beaconOf (f : LaneFrame) : Option Beacon :=
  let b := f.body
  let nr := (byteAt b 11).toNat
  let nw := (byteAt b (12 + nr)).toNat
  let role : Option Role := if byteAt b 0 = 1 then some .serving else if byteAt b 0 = 2 then some .uplink else none
  let st : Option StationState :=
    if byteAt b 1 = 3 then some .member else if byteAt b 1 = 4 then some .haltedSetup else none
  if f.dest = toAll && b.length = 14 + nr + nw && nr ≤ 16 && nw ≤ 62 then
    match role, st with
    | some role, some st => some
        { role := role
          state := st
          digest := BitVec.ofNat 16 (field b 2 2)
          seq := { state := byteAt b 4, variant := byteAt b 5, pendingAct := byteAt b 6, slotHeld := byteAt b 7 }
          attach := (field b 8 2, field b 10 1)
          roster := ((b.drop 12).take nr).map (fun x => x.toNat)
          waiting := ((b.drop (13 + nr)).take nw).map (fun x => x.toNat)
          holder := (byteAt b (13 + nr + nw)).toNat }
    | _, _ => none
  else none

/-! ### Orders (R190, R191) -/

/-- The command of spec/opcode_table.json that decides an order. POWER has one for each action. -/
inductive OrderRow where
  | claim
  | releaseClaim
  | status
  | watch
  | unwatch
  | powerOn
  | powerOffSoft
  | powerOffSoftThenHard
  | powerOffHard
  | powerReset
  | powerCycle
  | powerFeedCut
  | powerFeedRestore
  | powerWake
  | watchdogArm
  | watchdogDisarm
  | watchdogRetime
  | attach
  | detach
  | breakOrder
  | restart
  | invalid
deriving DecidableEq, Repr

/-- The parameters of an order: its body past the name and the tag (9.3). -/
def Order.params (o : Order) : Bytes := o.body.drop 2

/-- The order's name code, absent where the body is shorter than 2 bytes or the name is not one of R191 (R190, test 1). -/
def Order.name (o : Order) : Option Nat :=
  if o.body.length < 2 then none
  else let n := (byteAt o.body 0).toNat; if 1 ≤ n && n ≤ 13 then some n else none

/-- The tag the REPLY echoes; 0 for a body shorter than 2 bytes (R190). -/
def Order.tag (o : Order) : Byte := if o.body.length < 2 then 0 else byteAt o.body 1

/-- The row of a POWER order by its action (R191); an action outside the nine reaches no block (R7; log 14). -/
def powerRow (params : Bytes) : OrderRow :=
  match (byteAt params 0).toNat with
  | 1 => .powerOn
  | 2 => .powerOffSoft
  | 3 => .powerOffSoftThenHard
  | 4 => .powerOffHard
  | 5 => .powerReset
  | 6 => .powerCycle
  | 7 => .powerFeedCut
  | 8 => .powerFeedRestore
  | 9 => .powerWake
  | _ => .invalid

/-- The row that decides an order (R191; log 14). -/
def Order.row (o : Order) : OrderRow :=
  match o.name with
  | some 1 => .claim
  | some 2 => .releaseClaim
  | some 3 => .status
  | some 4 => .watch
  | some 5 => .unwatch
  | some 6 => powerRow o.params
  | some 7 => .watchdogArm
  | some 8 => .watchdogDisarm
  | some 9 => .watchdogRetime
  | some 10 => .attach
  | some 11 => .detach
  | some 12 => .breakOrder
  | some 13 => .restart
  | _ => .invalid

/-- The orders that need the claim (R191). -/
def needsClaim (name : Nat) : Bool := 6 ≤ name

/-- R190, test 5: the parameters have the length R191 gives and every code in them is in its table. -/
def paramsValid (name : Nat) (p : Bytes) : Bool :=
  match name with
  | 1 => p.length = 1 && (byteAt p 0).toNat ≤ 1
  | 4 => (p.length = 1 && (byteAt p 0).toNat ≤ 1) || (p.length = 9 && (byteAt p 0).toNat = 2)
  | 6 => p.length = 1 && 1 ≤ (byteAt p 0).toNat && (byteAt p 0).toNat ≤ 9
  | 7 => p.length = 6 && (FaultAction.ofCode (field p 2 1)).isSome && (byteAt p 3).toNat ≤ 1
  | 9 => p.length = 2
  | 10 => p.length = 9 && 1 ≤ (byteAt p 7).toNat && (byteAt p 7).toNat ≤ 2 && (byteAt p 8).toNat ≤ 1
  | _ => p.length = 0

/-! ### The parameter record (12.3, R204) -/

/-- The action of a pattern entry (12.3). -/
def PatternAction.ofCode (code : Nat) : Option PatternAction :=
  match code with
  | 1 => some .heartbeat
  | 2 => some .bootDone
  | 3 => some .panic
  | 4 => some .note
  | _ => none

/-- The pattern entry at byte 31 + 34 i, none where it is invalid. An unused entry has length 0 and its action is not
examined (R204). -/
def patternOf (b : Bytes) (i : Nat) : Option Pattern :=
  let at0 := 31 + 34 * i
  let len := field b at0 1
  if len = 0 then some { action := .note, text := [] }
  else if len ≤ 32 then
    (PatternAction.ofCode (field b (at0 + 1) 1)).map (fun a => { action := a, text := (b.drop (at0 + 2)).take len })
  else none

/-- The eight pattern entries, none where one is invalid. -/
def patternsOf (b : Bytes) : Option (List Pattern) :=
  [0, 1, 2, 3, 4, 5, 6, 7].foldr (fun i acc =>
    match patternOf b i, acc with
    | some p, some ps => some (p :: ps)
    | _, _ => none) (some [])

/-- The allowed combinations of SDRAM size, row width and column width (R96). -/
def geometryLegal (code row col : Nat) : Bool :=
  (code, row, col) ∈ [(1, 13, 9), (2, 13, 10), (2, 14, 9), (3, 13, 11), (3, 14, 10)]

/-- The pool size of a record (R103). -/
def Settings.poolSize (r : Settings) : Nat := min ((sdramBytes r.sdramCode - 2 ^ r.historyLog) / 2048) 65536

/-- A number lies in a range. -/
def within (lo v hi : Nat) : Bool := lo ≤ v && v ≤ hi

/-- The geometry a record names. -/
def Settings.geometry (r : Settings) : Geometry :=
  { sdramCode := r.sdramCode, rowWidth := r.rowWidth, colWidth := r.colWidth }

/-- The fields of the record as they stand in the bytes read (12.3). -/
def settingsOf (b : Bytes) (panic : FaultAction) (patterns : List Pattern) : Settings :=
  { slotCount := field b 5 1
    presenceMs := field b 6 2
    retryLimit := field b 8 1
    startLimit := field b 9 1
    settle := field b 10 1
    consoleRate := field b 11 1
    historyLog := field b 12 1
    sdramCode := field b 13 1
    rowWidth := field b 14 1
    colWidth := field b 15 1
    refreshInterval := field b 16 1
    rest := field b 17 1
    young := field b 18 1
    grace := field b 19 2
    force := field b 21 1
    bootAllowance := field b 22 2
    pgoodHigh := field b 24 1 = 1
    reserve := field b 25 2
    readahead := field b 27 1
    wantTimer := field b 28 2
    panicResponse := panic
    patterns := patterns }

/-- Every number of the record lies within its legal values, and the pool is large enough (12.3, R204). -/
def Settings.legal (r : Settings) : Bool :=
  within 1 r.slotCount 16 && within 250 r.presenceMs 4000 && within 1 r.retryLimit 15 && within 5 r.startLimit 120 &&
  within 0 r.settle 60 && within 1 r.consoleRate 5 && within 16 r.historyLog 23 && within 1 r.sdramCode 3 &&
  geometryLegal r.sdramCode r.rowWidth r.colWidth && within 39 r.refreshInterval 156 && within 2 r.rest 60 &&
  within 0 r.young 60 && within 10 r.grace 600 && within 8 r.force 30 && within 30 r.bootAllowance 3600 &&
  within 64 r.reserve 4096 && within 0 r.readahead 8 && within 50 r.wantTimer 1000 &&
  (r.reserve + 64 ≤ r.poolSize)

/-- The header and the check of the record (12.3, R204). -/
def recordFramed (b : Bytes) : Bool :=
  field b 0 2 = 0x6C2E && field b 2 1 = 1 && field b 3 2 = 305 && field b 303 2 = (crc16 (b.take 303)).toNat

/-- The setting record in the bytes read and its rack digest, none where the record is invalid (R204, R186). -/
def recordOf (b : Bytes) : Option (Settings × BitVec 16) :=
  if recordFramed b && field b 24 1 ≤ 1 then
    match FaultAction.ofCode (field b 30 1), patternsOf b with
    | some panic, some patterns =>
      let r := settingsOf b panic patterns
      if r.legal then some (r, crc16 ((b.drop 5).take 6)) else none
    | _, _ => none
  else none

end Sys2Proof.Machine
end

