-- ==== Sys2Proof/Machine/Flags.lean ====
section
/-! DEFINITION. Levels and conditions the part computes from its state: output pins, room, the mismatch condition. -/

namespace Sys2Proof.Machine

/-! ### Output pins -/

/-- PWR_PRESS asserted (R1). -/
def Psq.pressAsserted (p : Psq) : Bool := p.press ≠ .released

/-- PWR_RESET asserted (R1). -/
def Psq.resetAsserted (p : Psq) : Bool := p.resetPulse.isSome

/-- DPPU: the pull-up is on exactly when the attachment is ATTACHED and VBSENSE is high (R119). -/
def State.pullUp (s : State) : Bool := s.mfn.state = .attached && s.pins.vbsense

/-- UCTS: in uplink role, in LISTEN and MEMBER, while the outbound queue holds fewer than 16 frames (R206, R209). -/
def State.ucts (s : State) : Bool :=
  !s.serving && (s.ptu.state = .listen || s.ptu.state = .member) && s.upb.outq.length < 16

/-- CTXD high; a break drives it low (R80). While a character is sent its bits are on the line (log 31). -/
def Cfw.ctxdHigh (c : Cfw) : Bool :=
  match c.tx with
  | .breakLow _ => false
  | _ => true

/-! ### Queues and room -/

/-- The free places of the inbound queue: 32 less the units held, less the places reserved (R208). -/
def State.upbFree (s : State) : Nat :=
  32 - s.upb.inq.length - s.lif.recvQueue.length - (s.lif.sendList.filter (fun e => e.owner = .upb)).length

/-- UPB's frames in the send list (R206). -/
def State.upbListed (s : State) : Nat := (s.lif.sendList.filter (fun e => e.owner = .upb)).length

/-- The text bytes of the input queue (4.4). -/
def Cfw.textCount (c : Cfw) : Nat := (c.queue.filter (fun i => match i with | .text _ => true | .brk _ => false)).length

/-- The break items of the input queue (4.4). -/
def Cfw.breakCount (c : Cfw) : Nat := (c.queue.filter (fun i => match i with | .text _ => false | .brk _ => true)).length

/-- The free text room (R78). -/
def Cfw.textRoom (c : Cfw) : Nat := 512 - c.textCount - c.reserved

/-! ### The peer table -/

/-- The entry of a station number, the empty entry for a number outside 1 to 62. -/
def Ptu.peer (p : Ptu) (x : Nat) : Peer := if 1 ≤ x then p.peers.toList.getD (x - 1) {} else {}

/-- The entry of a station number replaced. -/
def Ptu.setPeer (p : Ptu) (x : Nat) (e : Peer) : Ptu :=
  if 1 ≤ x then { p with peers := p.peers.setIfInBounds (x - 1) e } else p

/-- Station numbers 1 to 62. -/
def stationNumbers : List Nat := (List.range 62).map (fun i => i + 1)

/-- The present peers with digest match no, in station-number order (R186). -/
def Ptu.mismatched (p : Ptu) : List Nat :=
  stationNumbers.filter (fun x => (p.peer x).present && (p.peer x).digestMatch = .no)

/-- The present peers, in station-number order. -/
def Ptu.presentPeers (p : Ptu) : List Nat := stationNumbers.filter (fun x => (p.peer x).present)

/-- The role of a sender as the tests on a frame read it: this station's own role for its own frames, else the
peer table's (log 16). -/
def State.roleOf (s : State) (x : Nat) : Option Role := if x = s.own then some s.sld.role else (s.ptu.peer x).role

/-! ### The history and the watchers -/

/-- A watcher's readable unsent bytes: from its send pointer up to the stored count (R67). -/
def Watcher.readable (w : Watcher) (c : Ccu) : Nat := c.stored - w.sendPtr

/-- The marks from a mark number on: none at the mark counter, all where the number is no longer in the list
(R71, R74). -/
def Ccu.marksFrom (c : Ccu) (number : BitVec 32) : List Mark :=
  if number = c.markCounter then []
  else if c.marks.any (fun m => m.number = number) then c.marks.dropWhile (fun m => m.number ≠ number)
  else c.marks

/-- 20 ms have passed since the watcher's wait start (R72). -/
def Watcher.waited (w : Watcher) (now : Time) : Bool :=
  match w.waitStart with
  | some t => reached (after t 20) now
  | none => false

/-- A watcher is ready for a frame (R72). -/
def Watcher.isReady (w : Watcher) (c : Ccu) (now : Time) : Bool :=
  w.pause.isNone && w.inFlight.isNone &&
    (256 ≤ w.readable c || (0 < w.readable c && w.waited now) ||
      (c.marksFrom w.nextMark).any (fun m => m.offset = c.stored))

/-! ### The pool (R103, R105, R109) -/

/-- The index holds an image key on this line (R105). -/
def Line.hasKey (l : Line) (key : Key) : Bool :=
  match l with
  | .filling k w => k = key && w ≠ .freePending
  | .clean k _ doomed => k = key && !doomed
  | .dirty _ _ _ _ => false

/-- The index holds an overlay line number on this line (R105). -/
def Line.hasOverlay (l : Line) (n : Nat) : Bool :=
  match l with
  | .dirty m _ _ pending => m = n && !pending
  | _ => false

/-- The line the index gives for a key, with its position. -/
def Lpm.find (p : Lpm) (key : Key) : Option (Nat × Line) := p.lines.find? (fun e => e.2.hasKey key)

/-- The DIRTY line the index gives for an overlay line number. -/
def Lpm.findOverlay (p : Lpm) (n : Nat) : Option (Nat × Line) := p.lines.find? (fun e => e.2.hasOverlay n)

/-- A FILLING line. -/
def Line.isFilling : Line → Bool
  | .filling _ _ => true
  | _ => false

/-- A CLEAN line, doomed or not. -/
def Line.isClean : Line → Bool
  | .clean _ _ _ => true
  | _ => false

/-- A DIRTY line. -/
def Line.isDirty : Line → Bool
  | .dirty _ _ _ _ => true
  | _ => false

/-- The count of FILLING lines (R103). -/
def Lpm.fillingCount (p : Lpm) : Nat := (p.lines.filter (fun e => e.2.isFilling)).length

/-- The count of CLEAN lines; doomed lines are counted as CLEAN (R103). -/
def Lpm.cleanCount (p : Lpm) : Nat := (p.lines.filter (fun e => e.2.isClean)).length

/-- The count of DIRTY lines. -/
def Lpm.dirtyCount (p : Lpm) : Nat := (p.lines.filter (fun e => e.2.isDirty)).length

/-- The count of FREE lines. -/
def Lpm.freeCount (p : Lpm) : Nat := p.poolSize - p.lines.length

end Sys2Proof.Machine
end

