-- ==== Sys2Proof/Machine/Arbiter.lean ====
section
/-! DEFINITION. MCTL: requests asked and withdrawn, the grant, refresh, and self-refresh (R98 to R102). -/

namespace Sys2Proof.Machine

/-- A media transfer is in progress for this request, reported. -/
def Mctl.mediaCurrent (m : Mctl) : Option MediaReq :=
  match m.current with
  | some { req := .media r, reported := true } => some r
  | _ => none

/-- The media transfers asked and not yet complete (R125). -/
def Mctl.mediaOutstanding (m : Mctl) : Nat := m.waitMedia.length + (if m.mediaCurrent.isSome then 1 else 0)

/-- A media transfer is asked (level 4). -/
def Mctl.askMedia (m : Mctl) (r : MediaReq) : Mctl := { m with waitMedia := m.waitMedia ++ [r] }

/-- The transfer in progress goes on, and its data are discarded at its end (R131). -/
def Mctl.dropCurrentMedia (m : Mctl) (p : MediaReq → Bool) : Mctl :=
  match m.current with
  | some { req := .media r, reported := rep } =>
    if p r then { m with current := some { req := .media { r with dropped := true }, reported := rep } } else m
  | _ => m

/-- A lane receive write is asked (level 3, R110). -/
def Mctl.askReceive (m : Mctl) (line : Nat) (data : Bytes) : Mctl := { m with waitRecv := m.waitRecv ++ [(line, data)] }

/-- The read in progress runs to its end and its completion is not reported (R70, R101). -/
def Mctl.muteForward (m : Mctl) : Mctl :=
  match m.current with
  | some { req := .forward a b, reported := _ } => { m with current := some { req := .forward a b, reported := false } }
  | _ => m

/-- CFW abandons its read: one still waiting is withdrawn, one in progress runs to its end and is discarded (R70). -/
def Mctl.abandonForward (m : Mctl) : Mctl :=
  match m.waitForward with
  | some _ => { m with waitForward := none }
  | none => m.muteForward

/-- The bytes a capture write in progress has taken from the buffer. -/
def Mctl.captureCurrent (m : Mctl) : Nat :=
  match m.current with
  | some { req := .capture n, reported := _ } => n
  | _ => 0

/-- CCU asks for a capture write while its buffer holds bytes that no write in progress has taken (R54, R98). -/
def State.askCapture (s : State) : State :=
  { s with mctl := if s.mctl.captureCurrent < s.ccu.buffer.length then { s.mctl with waitCapture := true } else s.mctl }

/-- A level-7 refresh is eligible at debt -7 to 7 (R100). During a warm restart's drain refreshes go on as R100 states
(R101). -/
def Mctl.refreshEligible (m : Mctl) : Bool := -7 ≤ m.debt && m.debt ≤ 7

/-- The arbiter's grant: the oldest waiting request of the lowest level that has one (R98, R99). -/
def Mctl.grant (m : Mctl) (captureBytes : Nat) : Mctl :=
  if 8 ≤ m.debt then { m with current := some { req := .refresh } }
  else if m.waitCapture then
    { m with waitCapture := false, current := some { req := .capture (min captureBytes 64) } }
  else
    match m.waitRecv with
    | (line, data) :: rest => { m with waitRecv := rest, current := some { req := .receive line data } }
    | [] =>
      match m.waitMedia with
      | r :: rest => { m with waitMedia := rest, current := some { req := .media r } }
      | [] =>
        match m.waitForward with
        | some (a, b) => { m with waitForward := none, current := some { req := .forward a b } }
        | none =>
          match m.waitSend with
          | some (line, seq) => { m with waitSend := none, current := some { req := .send line seq } }
          | none => if m.refreshEligible then { m with current := some { req := .refresh } } else m

/-- A warm restart begins: every waiting request but the capture write is discarded, and a request in progress runs to
its end unreported; capture writes go on (R101). -/
def Mctl.restart (m : Mctl) : Mctl :=
  { m with
    restarting := true
    leaving := false
    waitRecv := []
    waitMedia := []
    waitForward := none
    waitSend := none
    current :=
      match m.current with
      | some { req := .capture n, reported := r } => some { req := .capture n, reported := r }
      | some c => some { c with reported := false }
      | none => none }

/-- With the capture buffer empty, no request in progress and the debt 0 or below, the device goes into self-refresh
and the retention flag is set (R101), in HALTED-SETUP too (log 39). -/
def State.enterSelfRefresh (s : State) : State :=
  { s with mctl :=
      if s.mctl.restarting && s.mctl.mem = .up && s.ccu.buffer.isEmpty && s.mctl.current.isNone && s.mctl.debt ≤ 0 then
        { s.mctl with mem := .selfRefresh, retention := true, restarting := false, waitCapture := false }
      else s.mctl }

end Sys2Proof.Machine
end

