-- ==== Sys2Proof/Machine/Pool.lean ====
section
/-! DEFINITION. LPM: the line records, pins, the recency list, allocation, fill, free, retire and overlay release
(R104 to R114). -/

namespace Sys2Proof.Machine

/-- The record at a position; none for FREE. -/
def Lpm.line (p : Lpm) (pos : Nat) : Option Line := (p.lines.find? (fun e => e.1 = pos)).map Prod.snd

/-- A record put at a position, positions rising. -/
def putLine : List (Nat × Line) → Nat → Line → List (Nat × Line)
  | [], pos, l => [(pos, l)]
  | (k, old) :: rest, pos, l =>
    if pos < k then (pos, l) :: (k, old) :: rest
    else if pos = k then (pos, l) :: rest
    else (k, old) :: putLine rest pos l

/-- A position takes a record. -/
def Lpm.put (p : Lpm) (pos : Nat) (l : Line) : Lpm := { p with lines := putLine p.lines pos l }

/-- A position becomes FREE and leaves the recency list. -/
def Lpm.free (p : Lpm) (pos : Nat) : Lpm :=
  { p with lines := p.lines.filter (fun e => e.1 ≠ pos), recency := p.recency.filter (fun q => q ≠ pos) }

/-- The lowest position not in a rising list of positions, from `at0` on (R108). -/
def lowestFree (size : Nat) : Nat → List (Nat × Line) → Option Nat
  | at0, [] => if at0 < size then some at0 else none
  | at0, (k, _) :: rest => if at0 < k then (if at0 < size then some at0 else none) else lowestFree size (at0 + 1) rest

/-- A line to take: the FREE line at the lowest position, else the evicted head of the recency list, else none
(R108, steps 2 to 4). -/
def Lpm.take (p : Lpm) : Option (Nat × Lpm) :=
  match lowestFree p.poolSize 0 p.lines with
  | some pos => some (pos, p)
  | none =>
    match p.recency with
    | pos :: _ => some (pos, p.free pos)
    | [] => none

/-- A FILLING line for a want (R108, R114): none for NO-LINE. The caller has found the key out of the index. -/
def Lpm.allocFilling (p : Lpm) (key : Key) : Option (Nat × Lpm) :=
  if p.poolSize = 0 then none
  else
    match p.take with
    | some (pos, q) => some (pos, q.put pos (.filling key .none))
    | none => none

/-- The answer to a request for overlay space (R109). -/
inductive OverlayAnswer where
  | given (pos : Nat) (pool : Lpm)
  | dirtyLimit
  | noLine
deriving DecidableEq, Repr

/-- Overlay space for blocks of line `n`, pinned for the media write (R109). With no pool there is no line (R114). -/
def Lpm.allocOverlay (p : Lpm) (n : Nat) (mask : BitVec 4) : OverlayAnswer :=
  if p.poolSize = 0 then .noLine
  else
    match p.findOverlay n with
    | some (pos, .dirty m old pins pending) => .given pos (p.put pos (.dirty m (old ||| mask) (pins + 1) pending))
    | _ =>
      if p.poolSize - p.reserve ≤ p.dirtyCount then .dirtyLimit
      else
        match p.take with
        | some (pos, q) => .given pos (q.put pos (.dirty n mask 1 false))
        | none => .noLine

/-- A pin on a position: granted on a CLEAN line not doomed and on a DIRTY line not release pending (R106). -/
def Lpm.pin (p : Lpm) (pos : Nat) : Option Lpm :=
  match p.line pos with
  | some (.clean key pins false) =>
    some { p.put pos (.clean key (pins + 1) false) with recency := p.recency.filter (fun q => q ≠ pos) }
  | some (.dirty n mask pins false) => some (p.put pos (.dirty n mask (pins + 1) false))
  | _ => none

/-- A CLEAN line whose last pin drops goes to the tail of the recency list (R106, R107). -/
def Lpm.toTail (p : Lpm) (pos : Nat) : Lpm := { p with recency := p.recency.filter (fun q => q ≠ pos) ++ [pos] }

/-- An unpin (R106). -/
def Lpm.unpin (p : Lpm) (pos : Nat) : Lpm :=
  match p.line pos with
  | some (.clean key pins doomed) =>
    if pins ≤ 1 then (if doomed then p.free pos else (p.put pos (.clean key 0 doomed)).toTail pos)
    else p.put pos (.clean key (pins - 1) doomed)
  | some (.dirty n mask pins pending) =>
    if pins ≤ 1 then (if pending then p.free pos else p.put pos (.dirty n mask 0 pending))
    else p.put pos (.dirty n mask (pins - 1) pending)
  | _ => p

/-- A fill is accepted for a FILLING line whose fill write is NONE (R110). -/
def Lpm.fill (p : Lpm) (pos : Nat) : Option Lpm :=
  match p.line pos with
  | some (.filling key .none) => some (p.put pos (.filling key .inFlight))
  | _ => none

/-- What LPM reports of a fill write that has completed (R110). -/
inductive FillReport where
  | complete
  | void
  | none
deriving DecidableEq, Repr

/-- A fill write completes: the line becomes CLEAN at the tail of the recency list, or FREE if its free was pending
(R110). -/
def Lpm.fillDone (p : Lpm) (pos : Nat) : FillReport × Lpm :=
  match p.line pos with
  | some (.filling key .inFlight) => (.complete, (p.put pos (.clean key 0 false)).toTail pos)
  | some (.filling _ .freePending) => (.void, p.free pos)
  | _ => (.none, p)

/-- A FILLING line is freed, at once or when its fill write completes (R111). -/
def Lpm.freeFilling (p : Lpm) (pos : Nat) : Lpm :=
  match p.line pos with
  | some (.filling _ .none) => p.free pos
  | some (.filling key .inFlight) => p.put pos (.filling key .freePending)
  | _ => p

/-- The line holds a key of this image generation in the index. -/
def Line.ofImage (l : Line) (image gen : Nat) : Bool :=
  match l with
  | .filling k w => k.image = image && k.gen = gen && w ≠ .freePending
  | .clean k _ doomed => k.image = image && k.gen = gen && !doomed
  | .dirty _ _ _ _ => false

/-- Retire of one line: freed, its free left pending, or doomed (R112). -/
def Lpm.retireLine (p : Lpm) (pos : Nat) : Lpm :=
  match p.line pos with
  | some (.filling _ _) => p.freeFilling pos
  | some (.clean key pins _) => if pins = 0 then p.free pos else p.put pos (.clean key pins true)
  | _ => p

/-- Retire of an image generation (R112). DIRTY lines are not touched. -/
def Lpm.retire (p : Lpm) (image gen : Nat) : Lpm :=
  ((p.lines.filter (fun e => e.2.ofImage image gen)).map Prod.fst).foldl Lpm.retireLine p

/-- Release of one line of the overlay: FREE at pin count 0, else release pending (R113). -/
def Lpm.releaseLine (p : Lpm) (pos : Nat) : Lpm :=
  match p.line pos with
  | some (.dirty n mask pins _) => if pins = 0 then p.free pos else p.put pos (.dirty n mask pins true)
  | _ => p

/-- The overlay is released (R113). -/
def Lpm.releaseOverlay (p : Lpm) : Lpm :=
  ((p.lines.filter (fun e => e.2.isDirty)).map Prod.fst).foldl Lpm.releaseLine p

/-- The pool as set up from a record: every line FREE (R103). -/
def Lpm.setUp (r : Settings) : Lpm := { poolSize := r.poolSize, reserve := r.reserve }

end Sys2Proof.Machine
end

