-- ==== Sys2Proof/Machine/Exchange.lean ====
section
/-! DEFINITION. XCH: wants and gives asked, ridden, filled, dropped and suppressed (R139 to R155). Reports to MFN are
made by the callers. -/

namespace Sys2Proof.Machine

/-! ### The want list -/

/-- The want has this key; a VOID want carries none (R140). -/
def Want.isFor (w : Want) (key : Key) : Bool :=
  w.key = key && (match w.state with
    | .void _ _ => false
    | _ => true)

/-- The want's key belongs to this image generation (R147, R153). -/
def Want.ofImage (w : Want) (image gen : Nat) : Bool :=
  w.key.image = image && w.key.gen = gen && (match w.state with
    | .void _ _ => false
    | _ => true)

/-- The want is LANDING. -/
def Want.isLanding (w : Want) : Bool :=
  match w.state with
  | .landing _ => true
  | _ => false

/-- When a want timer started now runs out (R140). -/
def State.wantDue (s : State) : Time := after s.now (s.setting Settings.wantTimer)

/-- The answer to a want asked (R141). `ready` is case 2: CREATED, with the FILLED report at once. -/
inductive AskAnswer where
  | created
  | ready
  | full
  | noLine
deriving DecidableEq, Repr

/-- The wants that a READ has come to need take purpose DEMAND (R141, case 1). -/
def Xch.demand (x : Xch) (needed : Want → Bool) : Xch :=
  { x with wants := x.wants.map (fun w => if needed w then { w with purpose := .demand } else w) }

/-- MFN asks a want (R141). -/
def State.xchAsk (s : State) (key : Key) (purpose : Purpose) : AskAnswer × State :=
  if s.xch.wants.any (fun w => w.isFor key) then
    (.created, { s with xch := s.xch.demand (fun w => w.isFor key && purpose = .demand) })
  else if (s.lpm.find key).isSome then (.ready, s)
  else if 8 ≤ s.xch.wants.length then (.full, s)
  else
    match s.lpm.allocFilling key with
    | some (pos, p) =>
      (.created, { s with
        lpm := p
        xch := { s.xch with wants := s.xch.wants ++ [{ key := key, purpose := purpose, state := .queued .held, line := pos }] } })
    | none => (.noLine, s)

/-- The frame of a QUEUED want leaves the send list, unless it is IN-TENURE. -/
def State.withdrawWant (s : State) (w : Want) : State :=
  match w.state with
  | .queued st => s.withdrawStanding st
  | _ => s

/-- The frames of several wants leave the send list. -/
def State.withdrawWants (s : State) (ws : List Want) : State := ws.foldl State.withdrawWant s

/-- A want whose peer's LINE-WANT has been seen rides on it (R143). -/
def Want.ride (w : Want) (due : Time) : Want :=
  match w.state with
  | .queued .held => { w with state := .riding, timer := some due }
  | .queued (.listed _) => { w with state := .riding, timer := some due }
  | _ => w

/-- A peer's LINE-WANT is ridden by the want of its key (R143). -/
def State.rideWants (s : State) (key : Key) : State :=
  let s1 := s.withdrawWants (s.xch.wants.filter (fun w => w.isFor key))
  { s1 with xch := { s1.xch with wants := s1.xch.wants.map (fun w => if w.isFor key then w.ride s.wantDue else w) } }

/-- The first free fill buffer (8.4, R144): the lowest-numbered one, the model's choice (log 44). -/
def Xch.freeBuffer (x : Xch) : Option (Fin 4) :=
  ([0, 1, 2, 3] : List (Fin 4)).find? (fun i => (x.fillBufs.get i).isNone)

/-- A want in a state that a give fills (R144). -/
def Want.fillable (w : Want) : Bool :=
  match w.state with
  | .queued _ => true
  | .sent => true
  | .riding => true
  | _ => false

/-- The want becomes LANDING with its buffer, its timer stopped (R144). -/
def Want.land (w : Want) (buf : Fin 4) : Want := { w with state := .landing buf, timer := none }

/-- A LINE-GIVE fills the want of its key when a fill buffer is free (R144). -/
def State.fillWants (s : State) (key : Key) (data : Bytes) : State :=
  match s.xch.wants.find? (fun w => w.isFor key && w.fillable), s.xch.freeBuffer with
  | some w, some buf =>
    match s.lpm.fill w.line with
    | some p =>
      let s1 := s.withdrawWant w
      { s1 with
        lpm := p
        mctl := s1.mctl.askReceive w.line data
        xch := { s1.xch with
          fillBufs := s1.xch.fillBufs.set buf (some data)
          wants := s1.xch.wants.map (fun v => if v.line = w.line then v.land buf else v) } }
    | none => s
  | _, _ => s

/-- A want that is dropped or retired while LANDING becomes VOID; any other goes (R147, R153). -/
def Want.voided (w : Want) (cause : VoidCause) : Option Want :=
  match w.state with
  | .landing buf => some { w with state := .void buf cause }
  | _ => none

/-- The wants of an image generation end or become VOID. -/
def Xch.voidImage (x : Xch) (image gen : Nat) (cause : VoidCause) : Xch :=
  { x with wants := x.wants.filterMap (fun w => if w.ofImage image gen then w.voided cause else some w) }

/-- MFN drops the wants of an image generation (R147). -/
def State.dropWants (s : State) (image gen : Nat) : State :=
  let named := s.xch.wants.filter (fun w => w.ofImage image gen)
  let s1 := s.withdrawWants named
  { s1 with
    lpm := (named.map Want.line).foldl Lpm.freeFilling s1.lpm
    xch := s1.xch.voidImage image gen .dropped }

/-- The keys whose FAILED report a retire makes at once: the wants that are not LANDING (R153), in want-list order, the
model's choice (log 43). -/
def Xch.retiredKeys (x : Xch) (image gen : Nat) : List Key :=
  (x.wants.filter (fun w => w.ofImage image gen && !w.isLanding)).map Want.key

/-- XCH and LPM retire an image generation, reports apart (R153, steps 1 and 2). -/
def State.retireImage (s : State) (image gen : Nat) : State :=
  let s1 := s.withdrawWants (s.xch.wants.filter (fun w => w.ofImage image gen))
  { s1 with lpm := s1.lpm.retire image gen, xch := s1.xch.voidImage image gen .retired }

/-! ### The give list -/

/-- A peer's LINE-WANT is answered with a give when the conditions of R149 hold. -/
def State.queueGive (s : State) (key : Key) : State :=
  match s.lpm.find key with
  | some (pos, .clean _ _ _) =>
    if s.xch.wants.all (fun w => !w.isFor key) && s.xch.gives.length < 4 && s.xch.gives.all (fun g => g.key ≠ key) then
      match s.lpm.pin pos with
      | some p => { s with lpm := p, xch := { s.xch with gives := s.xch.gives ++ [{ key := key, line := pos }] } }
      | none => s
    else s
  | _ => s

/-- A give's frame is on the lane. -/
def Give.isInTenure (g : Give) : Bool :=
  match g.standing with
  | .inTenure _ => true
  | _ => false

/-- Gives leave the give list: their frames leave the send list and their lines are unpinned. -/
def State.dropGives (s : State) (out : Give → Bool) : State :=
  let named := s.xch.gives.filter out
  let s1 := (named.map Give.standing).foldl State.withdrawStanding s
  { s1 with
    lpm := (named.map Give.line).foldl Lpm.unpin s1.lpm
    xch := { s1.xch with gives := s1.xch.gives.filter (fun g => !out g) } }

/-- Another station's LINE-GIVE suppresses this station's give of the key (R151). -/
def State.suppressGives (s : State) (key : Key) : State := s.dropGives (fun g => g.key = key && !g.isInTenure)

/-- A give whose frame has ended or been given up is removed and its line unpinned (R150). -/
def State.giveEnded (s : State) (seq : Nat) : State := s.dropGives (fun g => g.standing.isAt seq)

/-- A frame of the computer is a LINE-GIVE of this key; each field of a body cut short is what its bytes there spell
(log 42). -/
def isGiveOf (kind : FrameKind) (body : Bytes) (key : Key) : Bool := kind = .lineGive && keyOf body = key

/-- A send list entry is a computer's LINE-GIVE of this key, outside tenure (R152). -/
def SendEntry.isComputerGive (e : SendEntry) (key : Key) : Bool :=
  e.owner = .upb && !e.inTenure && (match e.payload with
    | .body bytes => isGiveOf e.kind bytes key
    | _ => false)

/-- In uplink role another station's LINE-GIVE removes the computer's gives of the key (R152). -/
def State.suppressComputerGives (s : State) (key : Key) : State :=
  if s.serving then s
  else { s with
    upb := { s.upb with outq := s.upb.outq.filter (fun f => !isGiveOf f.kind f.body key) }
    lif := { s.lif with sendList := s.lif.sendList.filter (fun e => !e.isComputerGive key) } }

/-! ### LIF's reports on XCH's frames (R142, R150) -/

/-- The standing of a want's frame changes. -/
def Want.restand (w : Want) (seq : Nat) (st : Standing) : Want :=
  match w.state with
  | .queued old => if old.isAt seq then { w with state := .queued st } else w
  | _ => w

/-- The standing of the want or give at `seq` changes. -/
def Xch.restand (x : Xch) (seq : Nat) (st : Standing) : Xch :=
  { x with
    wants := x.wants.map (fun w => w.restand seq st)
    gives := x.gives.map (fun g => if g.standing.isAt seq then { g with standing := st } else g) }

/-- The want at `seq` has been sent: SENT with its timer started (R142). -/
def Want.sentAt (w : Want) (seq : Nat) (due : Time) : Want :=
  match w.state with
  | .queued old => if old.isAt seq then { w with state := .sent, timer := some due } else w
  | _ => w

/-- LIF reports the LINE-WANT at `seq` ended or given up (R142). -/
def State.wantSent (s : State) (seq : Nat) : State :=
  { s with xch := { s.xch with wants := s.xch.wants.map (fun w => w.sentAt seq s.wantDue) } }

/-! ### SILENT (R154) -/

/-- A QUEUED want becomes SENT with its timer started. -/
def Want.silence (w : Want) (due : Time) : Want :=
  match w.state with
  | .queued _ => { w with state := .sent, timer := some due }
  | _ => w

/-- XCH's entry to SILENT (R154). LIF has emptied its send list. The gives' lines are unpinned in give-list order, the
model's choice (log 45). -/
def State.xchSilent (s : State) : State :=
  { s with
    lpm := (s.xch.gives.map Give.line).foldl Lpm.unpin s.lpm
    xch := { s.xch with gives := [], wants := s.xch.wants.map (fun w => w.silence s.wantDue) } }

end Sys2Proof.Machine
end

