-- ==== Sys2Proof/Machine/Media.lean ====
section
/-! DEFINITION. MFN: lookups, the transfer list, wants and media transfers, the ends of a request, detach and port
(R115 to R138). -/

namespace Sys2Proof.Machine

/-! ### Lines and blocks (R115, R125) -/

/-- The key of a line of the attachment's image. -/
def Mfn.key (m : Mfn) (line : Nat) : Key := { image := m.image, gen := m.gen, line := line }

/-- The attachment is draining (R115). -/
def Mfn.draining (m : Mfn) : Bool := m.state = .attached && m.cause.isSome

/-- The blocks of a step, within its line. -/
def XferStep.blocks (st : XferStep) : List Nat := (List.range 4).filter (fun b => st.first ≤ b && b ≤ st.last)

/-- The mask of the overlay line of a line number, none set where there is none. -/
def Lpm.overlayMask (p : Lpm) (line : Nat) : BitVec 4 :=
  match p.findOverlay line with
  | some (_, .dirty _ mask _ _) => mask
  | _ => 0

/-- A block mask with the bits of these blocks. -/
def maskOf (blocks : List Nat) : BitVec 4 := blocks.foldl (fun m b => m ||| (1#4 <<< b)) 0

/-- The blocks of a step that the overlay holds. -/
def State.overlayBlocks (s : State) (st : XferStep) : List Nat :=
  st.blocks.filter (fun b => (s.lpm.overlayMask st.line).getLsbD b)

/-- The blocks of a step that the overlay does not hold. -/
def State.baseBlocks (s : State) (st : XferStep) : List Nat :=
  st.blocks.filter (fun b => !(s.lpm.overlayMask st.line).getLsbD b)

/-- The lookup of a READ step: its source and state, with the transfers to ask (R126, R129). A MERGE with no overlay
block among the step's blocks needs the base alone (log 19); of its two transfers the overlay line's is asked before the
base's, the model's choice (log 54). -/
def State.lookupStep (s : State) (st : XferStep) : XferStep :=
  if s.baseBlocks st = [] then { st with source := .overlay, state := .ready, todo := [.overlay] }
  else
    match s.lpm.find (s.mfn.key st.line) with
    | some (_, .clean _ _ _) =>
      if (s.lpm.findOverlay st.line).isSome then
        { st with
          source := .merge
          state := .ready
          todo := if s.overlayBlocks st = [] then [.base] else [.overlay, .base] }
      else { st with source := .cache, state := .ready, todo := [.base] }
    | some _ => { st with source := .fetchThenMerge, state := .waiting, todo := [] }
    | none => { st with source := .fetchThenMerge, state := .pending, todo := [] }

/-- The steps of a request: one per line touched, in ascending line order (R125). -/
def requestSteps (first count : Nat) : List XferStep :=
  let last := first + count - 1
  (List.range (last / 4 - first / 4 + 1)).map (fun i =>
    let line := first / 4 + i
    { line := line
      first := if i = 0 then first % 4 else 0
      last := if line = last / 4 then last % 4 else 3
      source := .overlay
      state := .pending })

/-- A step is DONE. -/
def XferStep.isDone (st : XferStep) : Bool := st.state = .done

/-- The last block of a request. -/
def Request.lastBlock (r : Request) : Nat := r.first + r.count - 1

/-! ### The ends of a request (R131, R132, R134, R135) -/

/-- Waiting media transfers that a condition names are withdrawn and their lines unpinned (R106, R131), in the order in
which they wait, the model's choice (log 49). -/
def State.withdrawMedia (s : State) (p : MediaReq → Bool) : State :=
  { s with
    lpm := ((s.mctl.waitMedia.filter p).map MediaReq.line).foldl Lpm.unpin s.lpm
    mctl := { s.mctl with waitMedia := s.mctl.waitMedia.filter (fun r => !p r) } }

/-- The read transfers of a request end: the waiting ones are withdrawn, the one in progress runs to its end (R131). -/
def State.withdrawReads (s : State) (p : MediaReq → Bool) : State :=
  let s1 := s.withdrawMedia (fun r => r.isRead && p r)
  { s1 with mctl := s1.mctl.dropCurrentMedia (fun r => r.isRead && p r) }

/-- The port as the pull-up goes off: DISCONNECTED, or still UNPOWERED (R118, R135). Resume signalling under way runs on,
the model's choice (log 50), and the address stays (log 40). -/
def Mfn.disconnect (m : Mfn) : Mfn :=
  { m with port := if m.port = .unpowered then .unpowered else .disconnected, remoteWake := false }

/-- The teardown, steps 1 to 3 (R135). -/
def State.teardown (s : State) : State :=
  let s1 : State := { s with mfn := { s.mfn.disconnect with state := .detaching, drain := none } }
  let s2 := (s1.dropWants s.mfn.image s.mfn.gen).withdrawMedia (fun _ => true)
  { s2 with lpm := s2.lpm.releaseOverlay }

/-- The request in progress ends; the drain then ends too (R131, R132, R134). -/
def State.closeRequest (s : State) : State :=
  match s.mfn.request with
  | some r =>
    let s1 := s.withdrawReads (fun m => m.request = r.serial)
    let s2 : State := { s1 with mfn := { s1.mfn with request := none } }
    if s2.mfn.draining then s2.teardown else s2
  | none => s

/-- The request in progress fails with a status (R131). -/
def State.failRequest (s : State) (status : UsbStatus) : State :=
  ({ s with mfn := { s.mfn with usbStatus := some status } } : State).closeRequest

/-- The detail of SPACE-EXHAUSTED (R198): reason 1 NO-LINE, 2 DIRTY-LIMIT. -/
def spaceDetail (kind : ReqKind) (line reason : Nat) : Bytes :=
  (if kind = .read then byte 1 else byte 2) :: (be 4 line ++ [byte reason])

/-- A trigger of R117: in ATTACHED with the cause absent, the drain begins; with no request in progress the teardown
begins at once (R134). -/
def State.detachTrigger (s : State) (cause : DetachCause) : State :=
  if s.mfn.state = .attached && s.mfn.cause.isNone then
    let s1 : State := { s with mfn := { s.mfn with cause := some cause, drain := some (after s.now 2000) } }
    if s1.mfn.request.isNone then s1.teardown else s1
  else s

/-- A trigger that needs boot-once (R117). -/
def State.bootOnceTrigger (s : State) (cause : DetachCause) : State :=
  if s.mfn.bootOnce then s.detachTrigger cause else s

/-- The detach completes once the overlay is released: the DIRTY count is 0 (R113, R135, steps 4 and 5). -/
def State.detachComplete (s : State) : State :=
  if s.mfn.state = .detaching && s.lpm.dirtyCount = 0 then
    match s.mfn.cause with
    | some c =>
      let s1 := (s.mark .mediaDetached c.markArg).raise .mediaDetached
        (c.code :: (be 2 s.mfn.image ++ be 1 s.mfn.gen))
      { s1 with mfn := { s1.mfn with state := .none, lastCause := some c, cause := none, tracker := none } }
    | none => s
  else s

/-! ### Wants of a READ (R127, R128) -/

/-- A step of the list is replaced. -/
def Request.setStep (r : Request) (st : XferStep) : Request :=
  { r with steps := r.steps.map (fun x => if x.line = st.line then st else x) }

/-- The request in progress is replaced. -/
def State.setRequest (s : State) (r : Request) : State := { s with mfn := { s.mfn with request := some r } }

/-- MFN asks a want for one PENDING step, unless wants are held back (R127). -/
def State.askStep (s : State) (st : XferStep) : State :=
  match s.mfn.request with
  | some r =>
    if r.kind = .read && !r.blocked && r.steps.any (fun x => x.line = st.line && x.state = .pending) then
      match s.xchAsk (s.mfn.key st.line) .demand with
      | (.created, s1) => s1.setRequest (r.setStep { st with source := .fetchThenMerge, state := .waiting, todo := [] })
      | (.ready, s1) => s1.setRequest (r.setStep (s1.lookupStep st))
      | (.full, s1) => s1.setRequest { r with blocked := true }
      | (.noLine, s1) => (s1.raise .spaceExhausted (spaceDetail .read st.line 1)).failRequest .spaceExhausted
    else s
  | none => s

/-- The want that a WAITING step of the request waits on is a DEMAND want from then on; none is created (R126, R141;
log 41). -/
def State.needWaited (s : State) (r : Request) : State :=
  { s with xch := s.xch.demand (fun w => r.steps.any (fun st => st.state = .waiting && w.isFor (s.mfn.key st.line))) }

/-- MFN asks the wants of the PENDING steps in step order (R127), those that steps already wait on being needed too. -/
def State.askWants (s : State) : State :=
  match s.mfn.request with
  | some r => (r.steps.filter (fun x => x.state = .pending)).foldl State.askStep (s.needWaited r)
  | none => s

/-- XCH reports a want ended (R128). A report of any key lets MFN ask again (R127). -/
def State.wantEnded (s : State) (key : Key) (filled : Bool) : State :=
  match s.mfn.request with
  | some r =>
    let waits : XferStep → Bool := fun st => st.state = .waiting && s.mfn.key st.line = key
    let s1 := s.setRequest { r with blocked := false }
    if filled then
      s1.setRequest { r with blocked := false, steps := r.steps.map (fun st => if waits st then s.lookupStep st else st) }
    else
      match r.steps.find? waits with
      | some st =>
        (s1.raise .mediaFailure (be 4 st.line ++ be 2 s.mfn.image ++ be 1 s.mfn.gen)).failRequest .mediumError
      | none => s1
  | none => s

/-- XCH reports several wants FAILED, in order, before MFN asks again (R153; log 43). -/
def State.wantsFailed (s : State) (keys : List Key) : State := keys.foldl (fun t k => t.wantEnded k false) s

/-! ### Media transfers (R129, R130) -/

/-- The step whose transfers are to be asked: the first that is READY with one to ask, every earlier step being READY
or DONE (R129). -/
def nextFetch : List XferStep → Option XferStep
  | [] => none
  | st :: rest =>
    match st.state with
    | .ready => if st.todo.isEmpty then nextFetch rest else some st
    | .done => nextFetch rest
    | _ => none

/-- The position of the line that a transfer names, by overlay line number or by key (R125). -/
def State.fetchLine (s : State) (st : XferStep) (f : Fetch) : Option Nat :=
  match f with
  | .overlay => (s.lpm.findOverlay st.line).map Prod.fst
  | .base => (s.lpm.find (s.mfn.key st.line)).map Prod.fst

/-- The blocks a transfer moves (R126): overlay blocks win. -/
def State.fetchBlocks (s : State) (st : XferStep) (f : Fetch) : List Nat :=
  match f with
  | .overlay => s.overlayBlocks st
  | .base => s.baseBlocks st

/-- The transfers asked for a step are withdrawn, its pins dropped, and the step is looked up again (R129). -/
def State.relookStep (s : State) (r : Request) (st : XferStep) : State :=
  let s1 := s.withdrawReads (fun m => m.request = r.serial && m.lineNo = st.line)
  s1.setRequest ({ r with got := r.got.filter (fun g => g.1 / 4 ≠ st.line) }.setStep (s1.lookupStep st))

/-- One transfer of a READ is asked where one can be (R129). -/
def State.askFetch (s : State) : State :=
  match s.mfn.request with
  | some r =>
    if r.kind = .read && s.mctl.mediaOutstanding < 2 then
      match nextFetch r.steps with
      | some st =>
        match st.todo with
        | f :: more =>
          match (s.fetchLine st f).bind (fun pos => (s.lpm.pin pos).map (fun p => (pos, p))) with
          | some (pos, p) =>
            let m : MediaReq :=
              { line := pos, isRead := true, blocks := s.fetchBlocks st f, lineNo := st.line, request := r.serial }
            ({ s with lpm := p, mctl := s.mctl.askMedia m } : State).setRequest (r.setStep { st with todo := more })
          | none => s.relookStep r st
        | [] => s
      | none => s
    else s
  | none => s

/-- The media write of a WRITE step is asked where it can be: overlay space first, then the transfer (R130). -/
def State.askStore (s : State) : State :=
  match s.mfn.request with
  | some r =>
    match r.buffer, r.steps.find? (fun st => !st.isDone) with
    | some (line, data), some st =>
      if s.mctl.mediaOutstanding < 2 then
        match s.lpm.allocOverlay line (maskOf st.blocks) with
        | .given pos p =>
          let m : MediaReq :=
            { line := pos, isRead := false, blocks := st.blocks, data := data, lineNo := line, request := r.serial }
          ({ s with lpm := p, mctl := s.mctl.askMedia m } : State).setRequest
            ({ r with buffer := none }.setStep { st with state := .ready })
        | .dirtyLimit => (s.raise .spaceExhausted (spaceDetail .write line 2)).failRequest .spaceExhausted
        | .noLine => (s.raise .spaceExhausted (spaceDetail .write line 1)).failRequest .spaceExhausted
      else s
    | _, _ => s
  | none => s

/-- MFN asks what it can for the request in progress (R127, R129, R130), a bounded number of times: at most two
transfers can be asked, and a step looked up again is asked at once or waits. -/
def State.mediaRun : Nat → State → State
  | 0, s => s
  | n + 1, s => State.mediaRun n s.askWants.askFetch.askStore

/-- MFN's work that becomes due at the end of a step. -/
def State.mediaAdvance (s : State) : State := if s.mfn.request.isSome then s.mediaRun 8 else s

/-! ### Completion (R129, R131, R133) -/

/-- Readahead wants for the lines after a sequential READ (R133). -/
def State.readahead (s : State) : List Nat → State
  | [] => s
  | line :: rest =>
    if (s.lpm.findOverlay line).isSome || (s.lpm.find (s.mfn.key line)).isSome then s.readahead rest
    else
      match s.xchAsk (s.mfn.key line) .readahead with
      | (.full, s1) => s1
      | (_, s1) => s1.readahead rest

/-- The candidate lines of readahead (R133). -/
def State.readaheadLines (s : State) (lastBlock : Nat) : List Nat :=
  ((List.range (s.setting Settings.readahead)).map (fun i => lastBlock / 4 + 1 + i)).filter
    (fun line => line ≤ (s.mfn.capacity - 1) / 4)

/-- The last READ step is DONE: GOOD is sent, the tracker set and readahead wants created (R131, R133). -/
def State.readComplete (s : State) (r : Request) : State :=
  let sequential := s.mfn.tracker.any (fun t => r.first = t + 1)
  let s1 : State := { s with mfn := { s.mfn with usbStatus := some .good, tracker := some r.lastBlock } }
  let s2 := if sequential && !s.mfn.draining then s1.readahead (s.readaheadLines r.lastBlock) else s1
  s2.closeRequest

/-- The steps whose last block lies before the delivery point are DONE (R129). -/
def doneBefore (delivery : Nat) (steps : List XferStep) : List XferStep :=
  steps.map (fun st => if 4 * st.line + st.last < delivery then { st with state := .done } else st)

/-- The blocks read go to the server at the delivery point, in ascending order (R129): what is sent, and the request
after. -/
def deliver : Nat → Request → Bytes → Bytes × Request
  | 0, r, sent => (sent, r)
  | n + 1, r, sent =>
    match r.got.find? (fun g => g.1 = r.delivery) with
    | some (_, data) =>
      let d := r.delivery + 1
      deliver n { r with
        delivery := d
        got := r.got.filter (fun g => g.1 ≠ r.delivery)
        steps := doneBefore d r.steps } (sent ++ data)
    | none => (sent, r)

/-- The blocks read by a transfer come to the request they belong to (R129), and go to the server while the port is
SUSPENDED as well, the model's choice (log 53). -/
def State.readArrived (s : State) (m : MediaReq) (blocks : List (Nat × Bytes)) : State :=
  match s.mfn.request with
  | some r =>
    if r.kind = .read && m.request = r.serial && !m.dropped then
      let (sent, r1) := deliver 8 { r with got := r.got ++ blocks.filter (fun g => r.delivery ≤ g.1) } s.mfn.usbData
      let s1 := ({ s with mfn := { s.mfn with usbData := sent } } : State).setRequest r1
      if r1.steps.all XferStep.isDone then s1.readComplete r1 else s1
    else s
  | none => s

/-- A media write has completed: its step is DONE and the next begins; after the last, GOOD is sent (R130). -/
def State.writeArrived (s : State) (m : MediaReq) : State :=
  match s.mfn.request with
  | some r =>
    if r.kind = .write && m.request = r.serial then
      let r1 : Request :=
        { r with
          steps := r.steps.map (fun st => if st.line = m.lineNo then { st with state := .done } else st) }
      let s1 := s.setRequest r1
      if r1.steps.all XferStep.isDone then
        ({ s1 with mfn := { s1.mfn with usbStatus := some .good } } : State).closeRequest
      else s1
    else s
  | none => s

/-! ### Server requests (R123) -/

/-- The status of the first test of R123 that applies, none where the request is executed. -/
def Mfn.requestTest (m : Mfn) (isWrite : Bool) (range : Option (Nat × Nat)) : Option UsbStatus :=
  if m.draining then some .notReady
  else if !m.changed then some .mediumChanged
  else if isWrite && m.mode = .readOnly then some .writeProtected
  else
    match range with
    | some (first, count) => if m.capacity < first + count then some .outOfRange else none
    | none => none

/-- A server request is taken when the port is CONFIGURED and none is in progress (R123): refused with its status, or
executed. -/
def State.serverRequest (s : State) (isWrite : Bool) (range : Option (Nat × Nat)) (execute : State → State) : State :=
  if s.mfn.port = .configured && s.mfn.request.isNone then
    let s1 : State := { s with mfn := { s.mfn with usbData := [], usbStatus := none } }
    match s.mfn.requestTest isWrite range with
    | some .mediumChanged => { s1 with mfn := { s1.mfn with usbStatus := some .mediumChanged, changed := true } }
    | some status => { s1 with mfn := { s1.mfn with usbStatus := some status } }
    | none => execute s1
  else s

/-- The request record of an executed READ or WRITE (R125, R126). -/
def State.beginRequest (s : State) (kind : ReqKind) (first count : Nat) : State :=
  let steps := requestSteps first count
  { s with mfn := { s.mfn with
      request := some
        { serial := s.mfn.nextRequest
          kind := kind
          first := first
          count := count
          steps := if kind = .read then steps.map s.lookupStep else steps
          delivery := first }
      nextRequest := s.mfn.nextRequest + 1 } }

/-! ### The port and the starts (R118 to R122, R137) -/

/-- The bus reset and a fall of VBSENSE stop resume signalling and clear the remote-wake-enabled flag (R120 to R122).
The address stays, the model's choice (log 40). -/
def Mfn.portLost (m : Mfn) (port : Port) : Mfn := { m with port := port, remoteWake := false, resume := none }

/-- MFN at a start: NONE with every field as R115 gives it, and the last detach cause as told (R115, R137). -/
def Mfn.started (vbsense : Bool) (last : Option DetachCause) : Mfn :=
  { port := if vbsense then .disconnected else .unpowered, lastCause := last }

end Sys2Proof.Machine
end

