-- ==== Sys2Proof/Machine/Power.lean ====
section
/-! DEFINITION. PSQ with what it asks of ADM and reports to WDU and MFN: the own-frame list, entry to a state, and the
nine power actions (R1 to R17, R43, R44, R87). -/

namespace Sys2Proof.Machine

/-! ### The own-frame list (R28, R43, R44) -/

/-- An own frame's kind is CLAIM. -/
def OwnFrame.isClaim (f : OwnFrame) : Bool :=
  match f.kind with
  | .claim _ => true
  | _ => false

/-- An own frame is on the lane. -/
def OwnFrame.isInTenure (f : OwnFrame) : Bool :=
  match f.standing with
  | .inTenure _ => true
  | _ => false

/-- The first WITHDRAW of a list, and the list without it. -/
def takeWithdraw : List OwnFrame → Option (OwnFrame × List OwnFrame)
  | [] => none
  | f :: rest =>
    if f.kind = .withdraw then some (f, rest) else (takeWithdraw rest).map (fun r => (r.1, f :: r.2))

/-- A CLAIM not in tenure with a WITHDRAW behind it, and the list without both (R44). -/
def cancelPair : List OwnFrame → Option (OwnFrame × OwnFrame × List OwnFrame)
  | [] => none
  | f :: rest =>
    if f.isClaim && !f.isInTenure then (takeWithdraw rest).map (fun r => (f, r.1, r.2))
    else (cancelPair rest).map (fun r => (r.1, r.2.1, f :: r.2.2))

/-- The own-frame list with entries at its tail, as far as its four places go (R28, R43; log 47). -/
def Adm.ownWith (a : Adm) (entries : List OwnFrame) : List OwnFrame := (a.own ++ entries).take 4

/-- An entry joins the tail of the own-frame list, HELD (R43). -/
def State.addOwn (s : State) (kind : OwnKind) : State :=
  { s with adm := { s.adm with own := s.adm.ownWith [{ kind := kind }] } }

/-- The kind of start a variant claims (R5). -/
def Variant.startKind : Variant → StartKind
  | .feedRestore => .feedRestore
  | _ => .powerOn

/-- PSQ asks a claim in AWAITING-SLOT with retract count 0 while the station is MEMBER (R5). -/
def State.askClaim (s : State) : State :=
  if s.psq.state = some .awaitingSlot && s.psq.retract = 0 && !s.psq.claimAsked && s.ptu.state = .member then
    ({ s with psq := { s.psq with claimAsked := true } } : State).addOwn (.claim s.psq.variant.startKind)
  else s

/-- ADM reports a retract settled: the count goes down by 1, and at 0 a waiting claim is asked (R5, R42). A count that is
0 already, after a retract asked before the derivation of R26, stays 0: the model's choice (log 21). -/
def State.retractSettled (s : State) : State :=
  ({ s with psq := { s.psq with retract := s.psq.retract - 1 } } : State).askClaim

/-- A CLAIM with a WITHDRAW behind it is cancelled: both entries go, and the withdraw is settled (R44). -/
def State.cancelClaim (s : State) : State :=
  match cancelPair s.adm.own with
  | some (c, w, rest) =>
    let s1 := ({ s with adm := { s.adm with own := rest } } : State)
    ((s1.withdrawStanding c.standing).withdrawStanding w.standing).retractSettled
  | none => s

/-- PSQ asks ADM to queue a retract and adds 1 to the retract count; nothing in SILENT (R5). In LISTEN ADM keeps it for
the end of LISTEN (R46). -/
def State.askRetract (s : State) (kind : OwnKind) : State :=
  if s.ptu.state = .silent then s
  else
    let s1 : State := { s with psq := { s.psq with retract := s.psq.retract + 1 } }
    if s.ptu.state = .member then (s1.addOwn kind).cancelClaim
    else { s1 with adm := { s1.adm with kept := s1.adm.kept + 1 } }

/-- PSQ releases the slot; nothing where it holds none (R5). -/
def State.releaseSlot (s : State) : State :=
  if s.psq.slotHeld then
    ({ s with psq := { s.psq with slotHeld := false, settleT := none } } : State).askRetract .release
  else s

/-- PSQ withdraws the claim where one is asked (R5). -/
def State.withdrawClaim (s : State) : State :=
  if s.psq.claimAsked then
    ({ s with psq := { s.psq with claimAsked := false } } : State).askRetract .withdraw
  else s

/-! ### WDU's part in PSQ's reports (R87) -/

/-- The deadline from the boot allowance, phase BOOT, where the record is ARMED (R83). -/
def State.bootDeadline (s : State) : State :=
  { s with wdu := if s.wdu.armed then
      { s.wdu with deadline := some (after s.now (sec s.wdu.bootAllowance)), phase := .boot } else s.wdu }

/-- PSQ reports a reset pulse in ON. -/
def State.wduResetPulse (s : State) : State :=
  ({ s with wdu := { s.wdu with early := 0, lastBeat := none } } : State).bootDeadline

/-- PSQ reports entry to ON. -/
def State.wduEntersOn (s : State) : State :=
  ({ s with wdu := { s.wdu with early := 0, lastBeat := none, holdoff := false } } : State).bootDeadline

/-- PSQ reports that it has left ON. -/
def State.wduLeavesOn (s : State) : State := { s with wdu := { s.wdu with deadline := none } }

/-! ### Entry to a state (R4, R5, R6) -/

/-- The states in which the server is off or going off (R4, R6). -/
def SeqState.isOff : SeqState → Bool
  | .feedCut | .feedBounce | .resting | .off | .awaitingSlot => true
  | _ => false

/-- ON, STOPPING and FORCING. -/
def SeqState.isRunning : SeqState → Bool
  | .on | .stopping | .forcing => true
  | _ => false

/-- What PSQ clears on leaving a state (R4). -/
def Psq.leave (p : Psq) : Psq :=
  match p.state with
  | some .on => { p with young := false, youngT := none, deferred := .none }
  | some .starting => { p with startT := none }
  | some .stopping => { p with graceT := none }
  | some .forcing => { p with forceT := none }
  | _ => p

/-- The rest phase on entry to a state: ON, STOPPING and FORCING have none, OFF and AWAITING-SLOT have SATISFIED, and
the others keep what the event set (R3). -/
def Psq.restOnEntry (p : Psq) (st : SeqState) : Psq :=
  match st with
  | .on | .stopping | .forcing => { p with restPhase := .none, restT := none }
  | .off | .awaitingSlot => { p with restPhase := .satisfied, restT := none }
  | _ => p

/-- The timer that a state runs from its entry (R3). -/
def State.entryTimer (s : State) (st : SeqState) : Psq :=
  match st with
  | .starting => { s.psq with startT := some (after s.now (sec (s.setting Settings.startLimit))) }
  | .stopping => { s.psq with graceT := some (after s.now (sec (s.setting Settings.grace))) }
  | .forcing | .feedBounce => { s.psq with forceT := some (after s.now (sec (s.setting Settings.force))) }
  | _ => s.psq

/-- WDU is told where PSQ enters or leaves ON (R6). -/
def State.tellWdu (s : State) (old : Option SeqState) (st : SeqState) : State :=
  if st = .on then s.wduEntersOn else if old = some .on then s.wduLeavesOn else s

/-- MFN is told of the server going off (R6, R117). -/
def State.tellMfn (s : State) (old : Option SeqState) (st : SeqState) : State :=
  if st.isOff && old.any SeqState.isRunning then s.bootOnceTrigger .powerOff else s

/-- PSQ enters a state. `start` says that a grant taken as a start led here, which asks for no withdraw (R5). -/
def State.psqEnter (s : State) (st : SeqState) (var : Variant) (start : Bool := false) : State :=
  let old := s.psq.state
  let s1 : State := { s with psq := (s.psq.leave.restOnEntry st) }
  let s2 : State := { s1 with psq := { s1.entryTimer st with state := some st, variant := var } }
  let s3 := if st.isOff && (old.any SeqState.isRunning || old = some .starting) then s2.releaseSlot else s2
  let s4 :=
    if old = some .awaitingSlot then
      (if start then { s3 with psq := { s3.psq with claimAsked := false } } else s3.withdrawClaim)
    else s3
  let s5 := ((s4.askClaim).tellMfn old st).tellWdu old st
  s5.raise .powerState s5.psq.bytes

/-! ### Outputs and timers PSQ starts (R1) -/

/-- A press pulse of 200 ms on PWR_PRESS. -/
def State.pressPulse (s : State) : State := { s with psq := { s.psq with press := .pulse (after s.now 200) } }

/-- A long press of 6 s on PWR_PRESS. -/
def State.longPress (s : State) : State := { s with psq := { s.psq with press := .long (after s.now 6000) } }

/-- PWR_PRESS is released. -/
def State.releasePress (s : State) : State := { s with psq := { s.psq with press := .released } }

/-- FEED_EN is closed or opened. -/
def State.setFeed (s : State) (closed : Bool) : State := { s with psq := { s.psq with feedClosed := closed } }

/-- The rest timer starts and the phase is RUNNING (R3). -/
def State.startRest (s : State) : State :=
  { s with psq := { s.psq with restPhase := .running, restT := some (after s.now (sec (s.setting Settings.rest))) } }

/-- The young flag is set and the young timer starts (R11, R17, R24). -/
def State.startYoung (s : State) : State :=
  { s with psq := { s.psq with young := true, youngT := some (after s.now (sec (s.setting Settings.young))) } }

/-- The pending action is set. -/
def State.setPending (s : State) (a : PendingAct) : State := { s with psq := { s.psq with pendingAct := a } }

/-! ### Power actions (R7 to R15) -/

/-- The answer MISMATCH in place of ACCEPTED under the rack-mismatch condition (R7). -/
def State.unlessMismatch (s : State) (accepted : State) : OrderStatus × State :=
  if s.ptu.mismatch then (.mismatch, s) else (.accepted, accepted)

/-- A pending POWER-ON is cancelled with DONE; ALREADY where none is pending (R9, R10). -/
def State.cancelPending (s : State) : OrderStatus × State :=
  if s.psq.pendingAct = .powerOn then (.done, s.setPending .none) else (.already, s)

/-- An off action in AWAITING-SLOT: OFF, or FEED-CUT with the rest SATISFIED from the FEED-RESTORE variant (R9). -/
def State.offAwaiting (s : State) : State :=
  let s1 := s.setPending .none
  if s.psq.variant = .feedRestore then
    ({ s1 with psq := { s1.psq with restPhase := .satisfied, restT := none } } : State).psqEnter .feedCut .none
  else s1.psqEnter .off .none

/-- ON (R8). -/
def State.actOn (s : State) : OrderStatus × State :=
  match s.psq.state with
  | some .off => s.unlessMismatch (s.psqEnter .awaitingSlot .powerOn)
  | some .resting => s.unlessMismatch (s.setPending .powerOn)
  | some .awaitingSlot | some .starting =>
    if s.psq.variant = .feedRestore then s.unlessMismatch (s.setPending .powerOn) else (.already, s)
  | some .on => (.already, s)
  | _ => (.busy, s)

/-- The soft off's STOPPING: a press pulse and the grace timer (R9). -/
def State.beginStopping (s : State) (var : Variant) : State := s.pressPulse.psqEnter .stopping var

/-- OFF-SOFT and OFF-SOFT-THEN-HARD (R9). -/
def State.actOffSoft (s : State) (thenHard : Bool) : OrderStatus × State :=
  match s.psq.state with
  | some .on =>
    if s.psq.young then
      (.accepted, { s with psq := { s.psq with deferred := if thenHard then .softThenHard else .soft } })
    else (.accepted, s.beginStopping (if thenHard then .softThenHard else .soft))
  | some .awaitingSlot => (.done, s.offAwaiting)
  | some .stopping =>
    if s.psq.variant = .soft && thenHard then
      (.accepted, { s with psq := { s.psq with variant := .softThenHard } })
    else (.already, s)
  | some .resting | some .feedBounce | some .forcing => s.cancelPending
  | some .off | some .feedCut => (.already, s)
  | _ => (.busy, s)

/-- The forced off: a long press and the force timer (R10, R21). -/
def State.beginForcing (s : State) : State := s.longPress.psqEnter .forcing .none

/-- OFF-HARD (R10). -/
def State.actOffHard (s : State) : OrderStatus × State :=
  match s.psq.state with
  | some .on | some .stopping => (.accepted, s.beginForcing)
  | some .starting => (.accepted, (s.releaseSlot.setPending .none).beginForcing)
  | some .awaitingSlot => (.done, s.offAwaiting)
  | some .forcing | some .resting | some .feedBounce => s.cancelPending
  | some .off | some .feedCut => (.already, s)
  | none => (.busy, s)

/-- RESET; the source gives the mark's argument (R11). -/
def State.actReset (s : State) (source : Nat) : OrderStatus × State :=
  if s.psq.state = some .on && s.psq.resetPulse.isNone then
    let s1 : State := { s with psq := { s.psq with resetPulse := some (after s.now 200) } }
    (.done, ((s1.mark .reset source).startYoung).wduResetPulse)
  else (.busy, s)

/-- CYCLE (R12). -/
def State.actCycle (s : State) : OrderStatus × State :=
  match s.psq.state with
  | some .on | some .stopping => s.unlessMismatch ((s.setPending .powerOn).beginForcing)
  | some .resting | some .off => s.actOn
  | _ => (.busy, s)

/-- The rest phase on entry to FEED-CUT by the action, by the state left (R13). -/
def State.cutRest (s : State) : State :=
  let awaitFall : State := { s with psq := { s.psq with restPhase := .awaitingFall, restT := none } }
  match s.psq.state with
  | some .on | some .stopping => awaitFall
  | some .forcing => if s.psq.pgood then awaitFall else s.startRest
  | some .feedBounce => if s.psq.pgood then awaitFall else s
  | some .starting => s.startRest
  | some .off | some .awaitingSlot => { s with psq := { s.psq with restPhase := .satisfied, restT := none } }
  | _ => s

/-- FEED-CUT (R13). -/
def State.actFeedCut (s : State) : OrderStatus × State :=
  match s.psq.state with
  | none => (.busy, s)
  | some .feedCut => (.already, s)
  | some _ =>
    let s1 := ((s.setFeed false).releasePress).mark .feedCut 0
    let s2 := s1.cutRest
    let s3 : State := { s2 with psq := { s2.psq with
      pendingAct := .none, deferred := .none, startT := none, youngT := none, graceT := none, forceT := none } }
    (.done, s3.psqEnter .feedCut .none)

/-- FEED-RESTORE (R14). -/
def State.actFeedRestore (s : State) : OrderStatus × State :=
  match s.psq.state with
  | none => (.busy, s)
  | some .feedCut =>
    if s.psq.restPhase = .satisfied then s.unlessMismatch (s.psqEnter .awaitingSlot .feedRestore)
    else s.unlessMismatch (s.setPending .feedRestore)
  | some _ => (.already, s)

/-- WAKE (R15, R122). -/
def State.actWake (s : State) : OrderStatus × State :=
  if s.psq.state = some .on && s.mfn.port = .suspended && s.mfn.remoteWake then
    (.done, { s with mfn := { s.mfn with
      resume := match s.mfn.resume with
        | some due => some due
        | none => some (after s.now 10) } })
  else (.notWakeable, s)

/-! ### PGOOD and the grant (R16, R17) -/

/-- The admitted start: PSQ enters ON from STARTING (R17). -/
def State.startedOn (s : State) : State :=
  let s1 := (((s.setPending .none).mark .powerOn 0).psqEnter .on .none).startYoung
  if s1.psq.slotHeld then
    (if s1.setting Settings.settle = 0 then s1.releaseSlot
     else { s1 with psq := { s1.psq with settleT := some (after s1.now (sec (s1.setting Settings.settle))) } })
  else s1

/-- ADM signals a grant (R16). -/
def State.granted (s : State) : State :=
  if s.psq.state = some .awaitingSlot && s.psq.claimAsked then
    let s1 : State := { s with psq := { s.psq with slotHeld := true } }
    if s.psq.variant = .feedRestore then
      let s2 := (((s1.setFeed true).mark .feedRestored 0).psqEnter .starting .feedRestore true)
      if s2.psq.pgood then s2.startedOn else s2
    else s1.pressPulse.psqEnter .starting .powerOn true
  else s.askRetract .release

/-- ADM signals slot end (R5, R41). -/
def State.slotEnded (s : State) : State := { s with psq := { s.psq with slotHeld := false, settleT := none } }

end Sys2Proof.Machine
end

