-- ==== Sys2Proof/Machine/Roster.lean ====
section
/-! DEFINITION. ADM: the roster, the waiting list and promotion, the admission frames, absence, repair, the copy at join,
and LIF's reports on the own frames (R28 to R48). -/

namespace Sys2Proof.Machine

/-! ### The lists (R28, R29) -/

/-- A station is in the roster. -/
def Adm.inRoster (a : Adm) (x : Nat) : Bool := a.roster.any (fun e => e.1 = x)

/-- A station is in the waiting list. -/
def Adm.isWaiting (a : Adm) (x : Nat) : Bool := a.waiting.any (fun y => y = x)

/-- A station leaves the roster. -/
def Adm.dropRoster (a : Adm) (x : Nat) : Adm := { a with roster := a.roster.filter (fun e => e.1 ≠ x) }

/-- A station leaves the waiting list. -/
def Adm.dropWaiting (a : Adm) (x : Nat) : Adm := { a with waiting := a.waiting.filter (fun y => y ≠ x) }

/-- A station joins the roster's tail, its entry timer starting. -/
def Adm.joinRoster (a : Adm) (x : Nat) (now : Time) : Adm := { a with roster := a.roster ++ [(x, now)] }

/-- A station joins the waiting list's tail. -/
def Adm.joinWaiting (a : Adm) (x : Nat) : Adm := { a with waiting := a.waiting ++ [x] }

/-- Promotion: heads of the waiting list join the roster while it has fewer than `slots` entries (R29). -/
def Adm.promote (a : Adm) (slots : Nat) (now : Time) : Adm :=
  let n := slots - a.roster.length
  { a with roster := a.roster ++ (a.waiting.take n).map (fun x => (x, now)), waiting := a.waiting.drop n }

/-- A change of the lists with its promotion, and the grant where this station's own number has entered its own roster;
none in uplink role (R29, R40). -/
def State.admChange (s : State) (change : Adm → Adm) : State :=
  let after := (change s.adm).promote (s.setting Settings.slotCount) s.now
  let s1 : State := { s with adm := after }
  if s.serving && !s.adm.inRoster s.own && after.inRoster s.own then s1.granted else s1

/-- ADMIT-CLAIM applied (R31). -/
def Adm.claim (a : Adm) (x slots : Nat) (now : Time) : Adm :=
  if a.inRoster x || a.isWaiting x then a
  else if a.roster.length < slots then a.joinRoster x now
  else a.joinWaiting x

/-- ADMIT-WITHDRAW applied (R32). -/
def Adm.withdraw (a : Adm) (x : Nat) : Adm := if a.isWaiting x then a.dropWaiting x else a.dropRoster x

/-- ADMIT-RELEASE applied (R33). -/
def Adm.release (a : Adm) (x : Nat) : Adm := if a.inRoster x then a.dropRoster x else a.dropWaiting x

/-- Removal on absence or by role (R35). -/
def State.admRemove (s : State) (x : Nat) : State := s.admChange (fun a => (a.dropRoster x).dropWaiting x)

/-! ### The frames (R30) -/

/-- ADM applies frames, expiries, absences and repairs: in MEMBER, and in LISTEN after its copy (R30, R46, R48). -/
def State.admActs (s : State) : Bool := s.ptu.state = .member || (s.ptu.state = .listen && s.adm.copied)

/-- The body of an admission frame is what its kind requires (R30). -/
def admitBody (kind : FrameKind) (body : Bytes) : Bool :=
  match kind with
  | .admitClaim => body = [1] || body = [2]
  | .admitWithdraw | .admitRelease => body.isEmpty
  | _ => false

/-- The tests of R30. An own frame always matches in digest; its role is this station's own (log 16). -/
def State.admitTest (s : State) (f : LaneFrame) (kind : FrameKind) : Bool :=
  s.admActs && f.dest = toAll && f.sender ≠ 0 && f.sender ≠ 63 && admitBody kind f.body &&
  (f.sender.toNat = s.own || (s.ptu.peer f.sender.toNat).digestMatch ≠ .no) &&
  (kind ≠ .admitClaim || s.roleOf f.sender.toNat ≠ some .uplink)

/-- An admission frame whose tenure has ended unspoiled is applied (R30 to R33). -/
def State.admitFrame (s : State) (f : LaneFrame) (kind : FrameKind) : State :=
  if s.admitTest f kind then
    let x := f.sender.toNat
    match kind with
    | .admitClaim => s.admChange (fun a => a.claim x (s.setting Settings.slotCount) s.now)
    | .admitWithdraw => s.admChange (fun a => a.withdraw x)
    | .admitRelease => s.admChange (fun a => a.release x)
    | _ => s
  else s

/-! ### Beacon repair and the copy (R37, R46) -/

/-- A beacon that ADM may use: another station's, in MEMBER, with this station's digest (R37, R38). -/
def State.usableBeacon (s : State) (x : Nat) (b : Beacon) : Bool :=
  x ≠ s.own && b.state = .member && s.ptu.digest = some b.digest

/-- Repair of one station's own standing (R37). -/
def State.repair (s : State) (x : Nat) (b : Beacon) : State :=
  let a := s.adm
  let conflict := s.raise .rosterConflict [byte x]
  if b.roster.contains x then
    if a.inRoster x then s
    else if a.isWaiting x then conflict
    else if a.expired.any (fun e => e.1 = x) then s
    else if a.roster.length < s.setting Settings.slotCount then s.admChange (fun a => a.joinRoster x s.now)
    else conflict
  else if b.waiting.contains x then
    if a.inRoster x then s.admChange (fun a => (a.dropRoster x).joinWaiting x)
    else if a.isWaiting x then s
    else s.admChange (fun a => a.joinWaiting x)
  else if a.inRoster x then s.admChange (fun a => a.dropRoster x)
  else if a.isWaiting x then s.admChange (fun a => a.dropWaiting x)
  else s

/-- The copy of one number of a beacon's roster (R46; log 26). -/
def copyRoster (slots : Nat) (now : Time) (a : Adm) (x : Nat) : Adm :=
  if 1 ≤ x && x ≤ 62 && !a.inRoster x && a.roster.length < slots then a.joinRoster x now else a

/-- The copy of one number of a beacon's waiting list (R46; log 26). -/
def copyWaiting (a : Adm) (x : Nat) : Adm :=
  if 1 ≤ x && x ≤ 62 && !a.inRoster x && !a.isWaiting x then a.joinWaiting x else a

/-- The copy at join (R46). What it puts in the roster is no grant; the promotion after it is as any (R28, R40). -/
def State.copyLists (s : State) (b : Beacon) : State :=
  let slots := s.setting Settings.slotCount
  let a := b.roster.foldl (copyRoster slots s.now) { s.adm with roster := [], waiting := [], copied := true }
  ({ s with adm := b.waiting.foldl copyWaiting a } : State).admChange id

/-- ADM takes a beacon whose tenure has ended unspoiled (R37, R38, R46). -/
def State.admBeacon (s : State) (x : Nat) (b : Beacon) : State :=
  if s.usableBeacon x b then
    if s.admActs then s.repair x b
    else if s.ptu.state = .listen then s.copyLists b
    else s
  else s

/-! ### LIF's reports on the own frames (R42 to R45) -/

/-- The own frame at `seq` takes a standing. -/
def Adm.restand (a : Adm) (seq : Nat) (st : Standing) : Adm :=
  { a with own := a.own.map (fun f => if f.standing.isAt seq then { f with standing := st } else f) }

/-- The own frame at `seq` returns from its tenure to QUEUED (R43, R44). -/
def State.ownBack (s : State) (seq : Nat) : State :=
  ({ s with adm := s.adm.restand seq (.listed seq) } : State).cancelClaim

/-- The own frame at `seq` has completed unspoiled and been applied: its entry goes, and a retract is settled
(R42, R43). -/
def State.ownDone (s : State) (seq : Nat) : State :=
  match s.adm.own.find? (fun f => f.standing.isAt seq) with
  | some f =>
    let s1 : State := { s with adm := { s.adm with own := s.adm.own.filter (fun g => !g.standing.isAt seq) } }
    if f.isClaim then s1 else s1.retractSettled
  | none => s

/-- The own frame at `seq` has been given up: it and every later QUEUED entry return to HELD (R45). -/
def State.ownGivenUp (s : State) (seq : Nat) : State :=
  let later := (s.adm.own.dropWhile (fun f => !f.standing.isAt seq)).map OwnFrame.standing
  let s1 := later.foldl State.withdrawStanding s
  ({ s1 with adm := { s1.adm with own := s1.adm.own.map (fun f =>
      if later.contains f.standing then { f with standing := .held } else f) } } : State).cancelClaim

/-! ### The end of LISTEN (R46, R47) -/

/-- ADM retracts its own number's standing and queues the releases kept during LISTEN. -/
def State.selfRetract (s : State) : State :=
  let entry : List OwnFrame :=
    if s.adm.inRoster s.own then [{ kind := .release }] else if s.adm.isWaiting s.own then [{ kind := .withdraw }] else []
  let own := if s.serving then entry else []
  { s with
    adm := { s.adm with own := s.adm.ownWith (own ++ List.replicate s.adm.kept { kind := .release }), kept := 0 }
    psq := { s.psq with retract := s.psq.retract + own.length } }

/-- ADM's entry to SILENT (R48). -/
def State.admSilent (s : State) : State := { s with adm := { copied := s.adm.copied } }

end Sys2Proof.Machine
end

