-- ==== Sys2Proof/Machine/Watchdog.lean ====
section
/-! DEFINITION. WDU: heartbeats, expiry and its response, the guard, and the panic response (R82 to R95). -/

namespace Sys2Proof.Machine

/-- The timeout T in ms. -/
def Wdu.timeoutMs (w : Wdu) : Nat := sec (w.timeout.getD 0)

/-- The deadline is now + T, phase RUNNING (R83). -/
def State.runDeadline (s : State) : State :=
  { s with wdu := { s.wdu with deadline := some (after s.now s.wdu.timeoutMs), phase := .running } }

/-- WDU takes PSQ's answer to a request: a refusal is reported as FAULT-REFUSED (R94). -/
def wduTakes (source action : Nat) (answer : OrderStatus × State) : Bool × State :=
  match answer with
  | (.done, t) => (true, t)
  | (.accepted, t) => (true, t)
  | (st, t) => (false, t.raise .faultRefused [byte source, byte action, st.code])

/-- A request of RESET or CYCLE from a source: 1 WATCHDOG, 2 PANIC (R94). NOTICE asks nothing. -/
def State.faultRequest (s : State) (source : Nat) (response : FaultAction) : Bool × State :=
  match response with
  | .notice => (false, s)
  | .reset => wduTakes source 5 (s.actReset source)
  | .cycle => wduTakes source 6 s.actCycle

/-- The response chosen at an expiry (R90, step 2). -/
def Wdu.response (w : Wdu) : FaultAction :=
  match w.action with
  | .reset => if w.expiry ≤ 1 then .reset else .cycle
  | a => a

/-- An expiry, of cause 1 DEADLINE or 2 EARLY (R90, R91). -/
def State.watchdogExpiry (s : State) (cause : Nat) : State :=
  let s1 : State := { s with wdu := { s.wdu with expiry := min 2 (s.wdu.expiry + 1) } }
  let response := s1.wdu.response
  let s2 := (s1.mark .watchdog (3 * (cause - 1) + (response.code.toNat - 1))).raise .watchdogExpired
    [byte cause, response.code, byte s1.wdu.expiry]
  let answer := s2.faultRequest 1 response
  if answer.1 then answer.2 else answer.2.runDeadline

/-- A heartbeat is early: less than T/8 after the last (R88). -/
def Wdu.isEarly (w : Wdu) (now : Time) : Bool := w.lastBeat.any (fun t => 8 * elapsed t now < w.timeoutMs)

/-- A HEARTBEAT match of a pattern entry (R88, R89). -/
def State.heartbeat (s : State) (entry : Nat) : State :=
  if s.wdu.armed && s.psq.state = some .on then
    if s.wdu.isEarly s.now then
      let s1 : State := { s with wdu := { s.wdu with early := s.wdu.early + 1, lastBeat := some s.now } }
      let s2 := s1.raise .earlyHeartbeats [byte s1.wdu.early, byte entry]
      if 3 ≤ s1.wdu.early then
        let s3 := s2.watchdogExpiry 2
        { s3 with wdu := { s3.wdu with early := 0 } }
      else s2
    else
      let s1 : State := { s with wdu := { s.wdu with
        early := 0
        expiry := 0
        timeout := (match s.wdu.pendingTimeout with
          | some t => some t
          | none => s.wdu.timeout)
        pendingTimeout := none } }
      let s2 := s1.runDeadline
      { s2 with wdu := { s2.wdu with lastBeat := some s.now } }
  else s

/-- The panic response of the station block (R93). -/
def State.panicResponse (s : State) : FaultAction := (s.sld.settings.map Settings.panicResponse).getD .notice

/-- A PANIC match of a pattern entry ending at an offset (R93). -/
def State.panic (s : State) (entry endOffset : Nat) : State :=
  let detail : Byte → Bytes := fun response => byte entry :: (be 8 endOffset ++ [response])
  if s.psq.state = some .on && !s.wdu.holdoff then
    let s1 : State := { s with wdu := { s.wdu with holdoff := true } }
    let s2 := (s1.mark .panic entry).raise .panicSeen (detail s.panicResponse.code)
    (s2.faultRequest 2 s.panicResponse).2
  else s.raise .panicSeen (detail 0)

/-- PSQ reports a POWER-LOST: the guard asks for ON (R92). -/
def State.guardAsks (s : State) : State :=
  if s.wdu.armed && s.wdu.guard then (wduTakes 3 1 s.actOn).2 else s

/-- WDU at a start: the values of R82, the boot allowance from the record where there is one. -/
def Wdu.started (bootAllowance : Option Nat) : Wdu := { bootAllowance := bootAllowance.getD 600 }

/-- WATCHDOG-ARM's parameters lie in their ranges (R84). Boot allowance 0 stands for absent (R191). -/
def armValid (timeout boot : Nat) : Bool := within 10 timeout 3600 && (boot = 0 || within 30 boot 3600)

/-- WATCHDOG-ARM (R84). -/
def State.actArm (s : State) (timeout : Nat) (action : FaultAction) (guard : Bool) (boot : Nat) : OrderStatus × State :=
  if armValid timeout boot then
    let s1 : State := { s with wdu := { s.wdu with
      armed := true
      timeout := some timeout
      bootAllowance := if boot = 0 then s.setting Settings.bootAllowance else boot
      action := action
      guard := guard
      pendingTimeout := none
      lastBeat := none
      early := 0
      expiry := 0 } }
    (.done, if s.psq.state = some .on then s1.runDeadline else s1)
  else (.invalid, s)

/-- WATCHDOG-DISARM (R85). -/
def State.actDisarm (s : State) : OrderStatus × State :=
  if s.wdu.armed then
    (.done, { s with wdu := { s.wdu with
      armed := false, deadline := none, pendingTimeout := none, lastBeat := none, early := 0, expiry := 0 } })
  else (.already, s)

/-- WATCHDOG-RETIME (R86). -/
def State.actRetime (s : State) (timeout : Nat) : OrderStatus × State :=
  if !within 10 timeout 3600 then (.invalid, s)
  else if !s.wdu.armed then (.busy, s)
  else (.done, { s with wdu := { s.wdu with pendingTimeout := some timeout } })

end Sys2Proof.Machine
end

