-- ==== Sys2Proof/Machine/Capture.lean ====
section
/-! DEFINITION. CCU: capture, loss counts, the matcher and the delivery of matches, and the history at a start
(R49 to R66). -/

namespace Sys2Proof.Machine

/-- A byte is placed in the buffer and the window, its offset the capture count; marks that the ring has passed are
dropped (R52, steps 2 and 3; R58; R64). -/
def Ccu.capture (c : Ccu) (b : Byte) : Ccu :=
  let c1 : Ccu := { c with buffer := c.buffer ++ [b], captured := c.captured + 1 }
  let w := c.window ++ [b]
  { c1 with
    marks := c.marks.dropWhile (fun m => m.offset < c1.oldest)
    window := w.drop (w.length - 32)
    run := min 32 (c.run + 1) }

/-- A pattern entry matches at the byte just captured (R64). -/
def Ccu.matchesEntry (c : Ccu) (p : Pattern) : Bool :=
  0 < p.text.length && p.text.length ≤ c.run && c.window.drop (c.window.length - p.text.length) = p.text

/-- Every watcher that the oldest retained offset has passed is moved up, the bytes passed over counted as its gap
(R71). -/
def Watcher.advance (w : Watcher) (oldest : Nat) : Watcher :=
  if w.sendPtr < oldest then { w with sendPtr := oldest, gap := sat32 (w.gap + (oldest - w.sendPtr)) } else w

/-- CCU gives CFW the oldest retained offset (R54, R71). -/
def State.advanceGaps (s : State) : State :=
  { s with cfw := { s.cfw with watchers := s.cfw.watchers.map (fun w => w.advance s.ccu.oldest) } }

/-- A match is delivered by its action (R66). -/
def State.deliverMatch (s : State) (entry : Nat) (action : PatternAction) : State :=
  let endOffset := s.ccu.captured
  let detail := byte entry :: be 8 endOffset
  match action with
  | .heartbeat => s.heartbeat entry
  | .panic => s.panic entry endOffset
  | .bootDone => (s.bootOnceTrigger .bootDone).raise .bootDone detail
  | .note => s.raise .patternNote detail

/-- The entries that match at the byte just captured, in ascending index (R64, R66). -/
def State.matchedEntries (s : State) : List (Nat × Pattern) :=
  ((List.range s.patterns.length).zip s.patterns).filter (fun e => s.ccu.matchesEntry e.2)

/-- The matches at the byte just captured are delivered in ascending entry index (R66). -/
def State.deliverMatches (s : State) : State :=
  s.matchedEntries.foldl (fun t e => t.deliverMatch e.1 e.2.action) s

/-- A count of losses goes up by 1; the loss order records which was first (R53). -/
def Ccu.countLost (c : Ccu) : Ccu :=
  { c with
    lost := sat32 (c.lost + 1)
    lossOrder := if c.lost = 0 then (if c.garbled = 0 then .lostFirst else .garbledFirst) else c.lossOrder }

/-- A framing error is counted (R53). -/
def Ccu.countGarbled (c : Ccu) : Ccu :=
  { c with
    garbled := sat32 (c.garbled + 1)
    lossOrder := if c.garbled = 0 then (if c.lost = 0 then .garbledFirst else .lostFirst) else c.lossOrder }

/-- A good byte is captured, or counted lost with the buffer full (R52). -/
def State.goodByte (s : State) (b : Byte) : State :=
  if s.ccu.buffer.length < 64 then
    (({ s with ccu := (s.ccu.putLosses s.now).capture b } : State).advanceGaps).deliverMatches
  else { s with ccu := s.ccu.countLost }

/-- A watcher's wait starts when the stored count rises above its send pointer while it had no readable unsent bytes
(R67). -/
def Watcher.wait (w : Watcher) (before after : Ccu) (now : Time) : Watcher :=
  if w.readable before = 0 && 0 < w.readable after then { w with waitStart := some now } else w

/-- A capture write of `n` bytes has completed: they are in the ring and leave the buffer, and the stored count rises
(R54). -/
def State.captureStored (s : State) (n : Nat) : State :=
  let done := s.ccu.buffer.take n
  let after : Ccu := { s.ccu with buffer := s.ccu.buffer.drop n }
  { s with
    sdram := Memory.writeRing s.sdram s.ccu.ringSize s.ccu.stored done
    ccu := after
    cfw := { s.cfw with watchers := s.cfw.watchers.map (fun w => w.wait s.ccu after s.now) } }

/-- CCU when a warm restart begins: the receiver is HELD, the loss marks are written and the history stops (R61). -/
def Ccu.stop (c : Ccu) (now : Time) : Ccu :=
  { (if c.running then c.putLosses now else c) with rx := .held, running := false }

/-- The history starts: kept, or initialised with the ring of the record; the STARTED mark; SEEKING-IDLE (R60, R61). -/
def Ccu.start (c : Ccu) (now : Time) (warm kept : Bool) (ringSize : Nat) : Ccu :=
  let base : Ccu :=
    if kept then { c with lost := 0, garbled := 0, window := [], run := 0 } else { ringSize := ringSize }
  let arg := if warm then (if kept then 1 else 2) else 0
  { base.putMark now .started arg with running := true, rx := .seekingIdle }

end Sys2Proof.Machine
end

