-- ==== Sys2Proof/Machine/Forward.lean ====
section
/-! DEFINITION. CFW: watchers, the frame built for each, its outcomes, and the console input queue (R67 to R81). -/

namespace Sys2Proof.Machine

/-! ### The outstanding frame (R70) -/

/-- The outstanding frame becomes absent. -/
def State.clearOut (s : State) : State := { s with cfw := { s.cfw with out := none } }

/-- The outstanding frame of a station is ended by its standing: its watcher is removed or started anew (R70). -/
def State.endOut (s : State) (station : Nat) : State :=
  match s.cfw.out with
  | some o =>
    if o.station = station && !o.orphaned then
      match o.standing with
      | .reading => ({ s with mctl := s.mctl.abandonForward } : State).clearOut
      | .frame .held => s.clearOut
      | .frame (.listed seq) => (s.lifWithdraw seq).clearOut
      | .frame (.inTenure _) => { s with cfw := { s.cfw with out := some { o with orphaned := true } } }
    else s
  | none => s

/-- The place of a station in the watcher list. -/
def Cfw.place (c : Cfw) (station : Nat) : Option Nat := c.watchers.findIdx? (fun w => w.station = station)

/-- A watcher leaves the list; the next search begins at the place it held where it was served last (R70, R73). -/
def Cfw.removeWatcher (c : Cfw) (station : Nat) : Cfw :=
  match c.place station with
  | some j =>
    let rest := c.watchers.filter (fun w => w.station ≠ station)
    { c with watchers := rest, turn := if rest.isEmpty then 0 else if j < c.turn then c.turn - 1 else c.turn }
  | none => c

/-- A watcher is removed and its frame ended (R70). -/
def State.dropWatcher (s : State) (station : Nat) : State :=
  if (s.cfw.place station).isSome then
    let s1 := s.endOut station
    { s1 with cfw := s1.cfw.removeWatcher station }
  else s

/-! ### WATCH and UNWATCH (R68, R69) -/

/-- The number of the oldest mark in the list, or the mark counter (R68). -/
def Ccu.oldestMark (c : Ccu) : BitVec 32 := ((c.marks.head?).map Mark.number).getD c.markCounter

/-- The send pointer, gap count and next mark number of a start mode, none where it is refused (R68). -/
def Ccu.watchStart (c : Ccu) (mode offset : Nat) : Option (Nat × Nat × BitVec 32) :=
  match mode with
  | 0 => some (c.captured, 0, c.markCounter)
  | 1 => some (c.oldest, 0, c.oldestMark)
  | 2 =>
    if c.captured < offset then none
    else if offset < c.oldest then some (c.oldest, sat32 (c.oldest - offset), c.oldestMark)
    else some (offset, 0, ((c.marks.find? (fun m => offset ≤ m.offset)).map Mark.number).getD c.markCounter)
  | _ => none

/-- A watcher's entry as WATCH starts it, its wait start as R67 states (R68). -/
def State.newWatcher (s : State) (station : Nat) (start : Nat × Nat × BitVec 32) : Watcher :=
  { station := station
    sendPtr := start.1
    nextMark := start.2.2
    gap := start.2.1
    waitStart := if start.1 < s.ccu.stored then some s.now else none }

/-- WATCH: the status, the REPLY's detail and the state after (R68). A start that is refused answers INVALID before the
list is asked for room, the model's choice (log 38). -/
def State.actWatch (s : State) (station mode offset : Nat) : OrderStatus × Bytes × State :=
  match s.ccu.watchStart mode offset with
  | some start =>
    let detail := be 8 start.1 ++ be 4 start.2.1
    match s.cfw.place station with
    | some j =>
      let s1 := s.endOut station
      (.done, detail, { s1 with cfw := { s1.cfw with watchers := s1.cfw.watchers.set j (s.newWatcher station start) } })
    | none =>
      if s.cfw.watchers.length < 4 then
        (.done, detail, { s with cfw := { s.cfw with watchers := s.cfw.watchers ++ [s.newWatcher station start] } })
      else (.full, [], s)
  | none => (.invalid, [], s)

/-- UNWATCH (R69). -/
def State.actUnwatch (s : State) (station : Nat) : OrderStatus × State :=
  if (s.cfw.place station).isSome then (.done, s.dropWatcher station) else (.already, s)

/-! ### Building a frame (R73, R74) -/

/-- The 21 bytes of a mark in a CONSOLE-OUT frame (9.3). -/
def Mark.bytes (m : Mark) : Bytes :=
  be 8 m.offset ++ be 4 m.number.toNat ++ (m.kind.code :: be 4 m.time.toNat) ++ be 4 m.arg

/-- The next mark number as a build finds it (R74, step 2). -/
def Watcher.normalMark (w : Watcher) (c : Ccu) : BitVec 32 :=
  if w.nextMark = c.markCounter || c.marks.any (fun m => m.number = w.nextMark) then w.nextMark else c.oldestMark

/-- What a build yields: the frame's record, its body and the watcher after (R74). -/
structure Built where
  record : InFlight
  body   : Bytes
  after  : Watcher
deriving DecidableEq, Repr

/-- The frame for a watcher up to `finish`, from the bytes read at `first` on; none where the send pointer has passed
the end (R74). -/
def Watcher.build (w : Watcher) (c : Ccu) (now : Time) (first finish : Nat) (data : Bytes) : Option Built :=
  if finish < w.sendPtr then none
  else
    let next := w.normalMark c
    let eligible := (c.marksFrom next).takeWhile (fun m => m.offset ≤ finish)
    let chosen := eligible.take 8
    let finish1 :=
      match eligible[8]? with
      | some m => if m.offset < finish then m.offset else finish
      | none => finish
    let text := (data.drop (w.sendPtr - first)).take (finish1 - w.sendPtr)
    let record : InFlight :=
      { start := w.sendPtr
        finish := finish1
        gap := w.gap
        resume := ((chosen.getLast?).map (fun m => m.number + 1)).getD next }
    some
      { record := record
        body := be 8 w.sendPtr ++ be 4 w.gap ++ (byte chosen.length :: (chosen.map Mark.bytes).flatten) ++ text
        after := { w with
          nextMark := next
          sendPtr := finish1
          waitStart := if finish1 < c.stored then some now else none
          inFlight := some record } }

/-- A watcher's entry is replaced. -/
def Cfw.setWatcher (c : Cfw) (w : Watcher) : Cfw :=
  { c with watchers := c.watchers.map (fun x => if x.station = w.station then w else x) }

/-- The frame of a watcher is built, or none is and the outstanding frame becomes absent (R74). -/
def Cfw.buildFor (c : Cfw) (ccu : Ccu) (now : Time) (w : Watcher) (first finish : Nat) (data : Bytes) : Cfw :=
  match w.build ccu now first finish data with
  | some b =>
    { c.setWatcher b.after with
      out := some { station := w.station, standing := .frame .held, first := first, last := finish, body := b.body } }
  | none => { c with out := none }

/-- The first ready watcher in turn, with its place (R73). -/
def Cfw.pick (c : Cfw) (ccu : Ccu) (now : Time) : Option (Nat × Watcher) :=
  let n := c.watchers.length
  let start := if c.turn < n then c.turn else 0
  ((List.range n).map (fun i => (start + i) % n)).findSome? (fun j =>
    match c.watchers[j]? with
    | some w => if w.isReady ccu now then some (j, w) else none
    | none => none)

/-- CFW serves the next ready watcher while no frame is outstanding (R72, R73). -/
def State.serveWatcher (s : State) : State :=
  if s.cfw.out.isNone then
    match s.cfw.pick s.ccu s.now with
    | some (j, w) =>
      let finish := min s.ccu.stored (w.sendPtr + 256)
      let c1 : Cfw := { s.cfw with turn := j + 1 }
      if w.sendPtr < finish then
        { s with
          mctl := { s.mctl with waitForward := some (w.sendPtr, finish) }
          cfw := { c1 with out := some { station := w.station, standing := .reading, first := w.sendPtr, last := finish } } }
      else { s with cfw := c1.buildFor s.ccu s.now w w.sendPtr finish [] }
    | none => s
  else s

/-- The read of the outstanding frame has completed: the frame is built (R74). -/
def State.forwardRead (s : State) (first finish : Nat) : State :=
  match s.cfw.out with
  | some o =>
    if o.standing = .reading then
      match s.cfw.watchers.find? (fun w => w.station = o.station) with
      | some w =>
        let data := Memory.readRing s.sdram s.ccu.ringSize first (finish - first)
        { s with cfw := s.cfw.buildFor s.ccu s.now w first finish data }
      | none => s.clearOut
    else s
  | none => s

/-! ### LIF's reports (R75, R76) -/

/-- The outstanding frame has this place in acceptance order. -/
def OutFrame.isAt (o : OutFrame) (seq : Nat) : Bool :=
  match o.standing with
  | .frame st => st.isAt seq
  | .reading => false

/-- The outstanding frame takes a standing. -/
def Cfw.restand (c : Cfw) (seq : Nat) (st : Standing) : Cfw :=
  { c with out := c.out.map (fun o => if o.isAt seq then { o with standing := .frame st } else o) }

/-- The frame at `seq` returns to QUEUED; an orphaned one is withdrawn and ends (R70, R75). -/
def State.outBack (s : State) (seq : Nat) : State :=
  match s.cfw.out with
  | some o =>
    if o.isAt seq then
      (if o.orphaned then (s.lifWithdraw seq).clearOut else { s with cfw := s.cfw.restand seq (.listed seq) })
    else s
  | none => s

/-- A watcher whose frame was TAKEN (R75). -/
def Watcher.taken (w : Watcher) : Watcher :=
  match w.inFlight with
  | some r => { w with inFlight := none, gap := w.gap - r.gap, nextMark := r.resume }
  | none => w

/-- A watcher whose frame was GIVEN-UP (R76); its wait start stays absent where no readable byte is unsent (R67; log 55). -/
def Watcher.givenUp (w : Watcher) (c : Ccu) (now : Time) : Watcher :=
  match w.inFlight with
  | some r =>
    let ptr := if r.finish < c.oldest then w.sendPtr else max r.start c.oldest
    { w with
      inFlight := none
      sendPtr := ptr
      gap := sat32 (w.gap + (min r.finish c.oldest - r.start))
      waitStart := if ptr < c.stored then some now else none
      pause := some (after now 100) }
  | none => w

/-- The frame at `seq` has ended: its watcher changes, unless the frame is orphaned (R70, R75, R76). -/
def State.outEnded (s : State) (seq : Nat) (change : Watcher → Watcher) : State :=
  match s.cfw.out with
  | some o =>
    if o.isAt seq then
      (if o.orphaned then s.clearOut
       else { s with cfw := { s.cfw with
          out := none
          watchers := s.cfw.watchers.map (fun w => if w.station = o.station then change w else w) } })
    else s
  | none => s

/-- CFW's entry to SILENT (R77). LIF has emptied its send list. -/
def State.cfwSilent (s : State) : State :=
  let s1 : State :=
    match s.cfw.out with
    | some o => if o.standing = .reading then { s with mctl := s.mctl.abandonForward } else s
    | none => s
  { s1 with cfw := { s1.cfw with watchers := [], out := none, turn := 0 } }

/-! ### Console input (R78 to R81) -/

/-- The CONSOLE-IN test of CFW and ORD (R78). -/
def State.consoleInTest (s : State) (sender : Nat) (body : Bytes) : Bool :=
  s.ord.holder = some sender && 1 ≤ body.length && body.length ≤ 256 && body.length ≤ s.cfw.textRoom

/-- A taken CONSOLE-IN's bytes join the input queue and its reservation is released (R78). -/
def Cfw.appendText (c : Cfw) (body : Bytes) : Cfw :=
  { c with queue := c.queue ++ body.map InputItem.text, reserved := c.reserved - body.length }

/-- BREAK (R79). -/
def State.actBreak (s : State) (station : Nat) : OrderStatus × State :=
  if s.cfw.breakCount < 8 then (.done, { s with cfw := { s.cfw with queue := s.cfw.queue ++ [.brk station] } })
  else (.full, s)

/-- The input queue drains from entry to LISTEN on, in serving role (R80, R81). -/
def State.inputDrains (s : State) : Bool :=
  s.serving && (s.ptu.state = .listen || s.ptu.state = .member || s.ptu.state = .silent)

/-- The next item of the input queue begins on CTXD (R80). -/
def State.startInput (s : State) : State :=
  if s.inputDrains && s.cfw.tx = .idle then
    match s.cfw.queue with
    | .text b :: _ => { s with cfw := { s.cfw with tx := .char b } }
    | .brk station :: _ =>
      let s1 := s.mark .breakOut station
      { s1 with cfw := { s1.cfw with tx := .breakLow (after s.now 300) } }
    | [] => s
  else s

/-- The item at the head of the input queue has gone out (R80). -/
def Cfw.itemSent (c : Cfw) (tx : TxState) : Cfw := { c with queue := c.queue.drop 1, tx := tx }

end Sys2Proof.Machine
end

