-- ==== Sys2Proof/Machine/Members.lean ====
section
/-! DEFINITION. PTU and the blocks' acts on frames seen on the lane: presence, beacons, absence, the rack-mismatch
condition, loss of the claim, and the presentation of a completed frame (R139, R164, R176 to R188, R194). -/

namespace Sys2Proof.Machine

/-! ### The peer table (R180 to R183, R186) -/

/-- PTU re-evaluates the rack-mismatch condition, and raises RACK-MISMATCH where it changes (R186). -/
def State.evalMismatch (s : State) : State :=
  let bad := s.ptu.mismatched
  let set := !bad.isEmpty
  if set = s.ptu.mismatch then s
  else
    ({ s with ptu := { s.ptu with mismatch := set } } : State).raise .rackMismatch
      [flag set, byte bad.length, byte (bad.headD 0)]

/-- A station number of another station, 1 to 62. -/
def State.isPeer (s : State) (x : Nat) : Bool := 1 ≤ x && x ≤ 62 && x ≠ s.own

/-- A frame is heard from a station (R181). -/
def State.heard (s : State) (x : Nat) : State :=
  if s.isPeer x then
    { s with ptu := s.ptu.setPeer x { s.ptu.peer x with present := true, missed := 0 } }
  else s

/-- The digest match that a valid beacon gives (R183). -/
def State.digestMatchOf (s : State) (b : Beacon) : DigestMatch :=
  if b.state = .member then (if s.ptu.digest = some b.digest then .yes else .no) else .notKnown

/-- A valid beacon's content enters the sender's entry (R183). -/
def State.beaconEntry (s : State) (x : Nat) (b : Beacon) : State :=
  let e : Peer := { s.ptu.peer x with
    role := some b.role
    lastState := some b.state
    lastSeq := some b.seq
    lastAttach := some b.attach
    digestMatch := s.digestMatchOf b }
  ({ s with ptu := s.ptu.setPeer x e } : State).evalMismatch

/-- The claim is lost without an order: cause 2 ABSENT, 3 ROLE (R194). -/
def State.loseClaim (s : State) (x cause : Nat) : State :=
  if s.ord.holder = some x then
    ({ s with ord := { s.ord with holder := none, holdTime := 0 } } : State).raise .claimLost [byte x, 0, byte cause]
  else s

/-- PTU reports a beacon sender's role to ADM, ORD and CFW (R183). -/
def State.roleReported (s : State) (x : Nat) (role : Role) : State :=
  let s1 := if role = .serving then s else s.admRemove x
  if role = .uplink then s1 else (s1.loseClaim x 3).dropWatcher x

/-- A valid beacon seen (R183; log 15): PTU's entry, ADM's copy or repair, then the role report. -/
def State.beaconSeen (s : State) (x : Nat) (b : Beacon) : State :=
  ((s.beaconEntry x b).admBeacon x b).roleReported x b.role

/-- A peer is declared absent (R182). -/
def State.declareAbsent (s : State) (x : Nat) : State :=
  let s1 : State := { s with ptu := s.ptu.setPeer x {} }
  (((s1.admRemove x).loseClaim x 2).dropWatcher x).evalMismatch

/-- The missed count of every present entry goes up by 1 (R182). -/
def Ptu.age (p : Ptu) : Ptu :=
  { p with peers := p.peers.map (fun e => if e.present then { e with missed := e.missed + 1 } else e) }

/-- The present peers whose missed count has reached 3, ascending (R182; log 15). -/
def Ptu.overdue (p : Ptu) : List Nat := p.presentPeers.filter (fun x => 3 ≤ (p.peer x).missed)

/-- A boundary ages the peer table and declares absences (R182). -/
def State.agePeers (s : State) : State :=
  let s1 : State := { s with ptu := s.ptu.age }
  s1.ptu.overdue.foldl State.declareAbsent s1

/-! ### Own beacons (R184, R185, R187) -/

/-- A fresh beacon is offered, at class 0 when the debt is 2 (R184). -/
def Ptu.freshBeacon (p : Ptu) : Ptu :=
  { p with standing := some .held, beaconClass := if 2 ≤ p.debt then 0 else 3 }

/-- The beacon debt goes up by 1, held at 2. -/
def Ptu.owe (p : Ptu) : Ptu := { p with debt := min 2 (p.debt + 1) }

/-- The beacon due at a boundary (R184); none without a legal station number (R178). -/
def State.offerBeacon (s : State) : State :=
  if (s.ptu.state = .member || s.ptu.state = .haltedSetup) && s.legalNumber then
    match s.ptu.standing with
    | none => { s with ptu := s.ptu.freshBeacon }
    | some .held => { s with ptu := s.ptu.owe.freshBeacon }
    | some (.listed seq) =>
      let s1 := s.lifWithdraw seq
      { s1 with ptu := s1.ptu.owe.freshBeacon }
    | some (.inTenure _) => s
  else s

/-- The sequencer bytes of a beacon: OFF in uplink role (R185). -/
def State.beaconSeq (s : State) : Bytes := if s.serving then s.psq.bytes else [SeqState.off.code, 0, 0, 0]

/-- The attachment of a beacon: image id and generation, 0 in NONE (R115, R185). -/
def Mfn.beaconAttach (m : Mfn) : Bytes := if m.state = .none then [0, 0, 0] else be 2 m.image ++ be 1 m.gen

/-- A beacon's body, filled when its tenure begins (R185). -/
def State.beaconBody (s : State) : Bytes :=
  if s.ptu.state = .haltedSetup then
    [Role.code s.sld.role, s.ptu.state.code, 0, 0, 0, 0, 0, 0, 0, 0, 0, 0, 0, 0]
  else
    [Role.code s.sld.role, s.ptu.state.code] ++ be 2 ((s.ptu.digest.map BitVec.toNat).getD 0) ++ s.beaconSeq ++
    s.mfn.beaconAttach ++
    (byte s.adm.roster.length :: s.adm.roster.map (fun e => byte e.1)) ++
    (byte s.adm.waiting.length :: s.adm.waiting.map byte) ++
    [if s.serving then byte (s.ord.holder.getD 0) else 0]

/-- The end of LISTEN (R177): the self-retract, MEMBER with a waiting claim asked (R5). -/
def State.enterMember (s : State) : State :=
  let s1 := s.selfRetract
  ({ s1 with ptu := { s1.ptu with state := .member } } : State).askClaim

/-! ### XCH's frames (R139, R143, R144, R149, R151 to R153) -/

/-- An IMAGE-RETIRE is applied: LPM and XCH, the FAILED reports, then MFN's trigger (R153, R136). -/
def State.applyRetire (s : State) (image gen : Nat) : State :=
  let keys := s.xch.retiredKeys image gen
  let s1 := (s.retireImage image gen).wantsFailed keys
  if s1.mfn.image = image && s1.mfn.gen = gen then s1.detachTrigger .retired else s1

/-- A LINE-WANT of another station (R143, R149). -/
def State.seeWant (s : State) (key : Key) : State :=
  let s1 := s.rideWants key
  if s.serving && s.ptu.state = .member then s1.queueGive key else s1

/-- A LINE-GIVE of another station (R144, R151, R152). -/
def State.seeGive (s : State) (key : Key) (data : Bytes) : State :=
  ((s.fillWants key data).suppressGives key).suppressComputerGives key

/-- XCH takes a frame of its kinds (R139). A station's own LINE-WANT and LINE-GIVE change nothing here (R142, R144). One
whose sender number is 0 or 63 is taken as any other station's (log 51). -/
def State.xchFrame (s : State) (f : LaneFrame) (kind : FrameKind) : State :=
  if (s.ptu.state = .listen || s.ptu.state = .member) && f.dest = toAll && imageLegal (field f.body 0 2) then
    match kind with
    | .lineWant => if f.body.length = 7 && f.sender.toNat ≠ s.own then s.seeWant (keyOf f.body) else s
    | .lineGive =>
      if f.body.length = 2055 && f.sender.toNat ≠ s.own then s.seeGive (keyOf f.body) (f.body.drop 7) else s
    | .imageRetire =>
      if f.body.length = 3 && s.roleOf f.sender.toNat = some .uplink then
        s.applyRetire (field f.body 0 2) (field f.body 2 1)
      else s
    | _ => s
  else s

/-- ADM and XCH take a frame that has completed unspoiled (R164). -/
def State.presentBlocks (s : State) (f : LaneFrame) : State :=
  match FrameKind.ofCode f.kind with
  | some .admitClaim => s.admitFrame f .admitClaim
  | some .admitWithdraw => s.admitFrame f .admitWithdraw
  | some .admitRelease => s.admitFrame f .admitRelease
  | some .lineWant => s.xchFrame f .lineWant
  | some .lineGive => s.xchFrame f .lineGive
  | some .imageRetire => s.xchFrame f .imageRetire
  | _ => s

/-- A received frame that has completed unspoiled is presented to PTU, ADM and XCH (R164). -/
def State.present (s : State) (f : LaneFrame) : State :=
  let x := f.sender.toNat
  let s1 := s.heard x
  if f.kind = FrameKind.beacon.code then
    match beaconOf f with
    | some b => if s1.isPeer x then s1.beaconSeen x b else s1
    | none => s1
  else s1.presentBlocks f

end Sys2Proof.Machine
end

