-- ==== Sys2Proof/Machine/Lane.lean ====
section
/-! DEFINITION. LIF: the tenure, the reports to owners, taking and handing over, and entry to SILENT (R156 to R175). -/

namespace Sys2Proof.Machine

/-! ### The notice in tenure (R199, R200) -/

/-- The pending kind of the highest group with the lowest raise number (R199). -/
def Ntu.choose (n : Ntu) : Option PendingNotice :=
  n.pending.foldl (fun best p =>
    match best with
    | none => some p
    | some b =>
      if b.kind.group < p.kind.group || (b.kind.group = p.kind.group && p.raise < b.raise) then some p else some b) none

/-- A NOTICE's body (R199). -/
def PendingNotice.body (p : PendingNotice) : Bytes :=
  [p.kind.code, byte p.kind.group] ++ be 4 p.time.toNat ++ p.detail

/-- The NOTICE was TAKEN (R200). -/
def Ntu.taken (n : Ntu) : Ntu :=
  match n.inTenure with
  | some k =>
    if n.raisedAgain then
      { n with
        standing := none, inTenure := none, raisedAgain := false
        pending := n.pending.map (fun p => if p.kind = k then { p with raise := n.counter } else p)
        counter := n.counter + 1 }
    else
      { n with
        standing := none, inTenure := none, raisedAgain := false
        pending := n.pending.filter (fun p => p.kind ≠ k) }
  | none => { n with standing := none, raisedAgain := false }

/-- The NOTICE was NOT-TAKEN or GIVEN-UP: the pause runs for 1 s (R200). -/
def Ntu.notTaken (n : Ntu) (now : Time) : Ntu :=
  { n with standing := none, inTenure := none, raisedAgain := false, pause := some (after now 1000) }

/-! ### Reports to the owners -/

/-- What LIF reports on a frame (R159, R160, R165). -/
inductive Report where
  | begun
  | lostBid
  | retry
  | taken
  | notTaken
  | givenUp
deriving DecidableEq, Repr

/-- ADM takes a report (R43 to R45). -/
def State.reportAdm (s : State) (seq : Nat) (r : Report) : State :=
  match r with
  | .begun => { s with adm := s.adm.restand seq (.inTenure seq) }
  | .lostBid | .retry => s.ownBack seq
  | .taken | .notTaken => s.ownDone seq
  | .givenUp => s.ownGivenUp seq

/-- PTU takes a report (R187). -/
def Ptu.report (p : Ptu) (seq : Nat) (r : Report) : Ptu :=
  match r with
  | .begun => { p with standing := some (.inTenure seq) }
  | .lostBid | .retry => { p with standing := some (.listed seq) }
  | .taken | .notTaken => { p with standing := none, debt := 0 }
  | .givenUp => { p.owe with standing := none }

/-- NTU takes a report (R199, R200). -/
def Ntu.report (n : Ntu) (now : Time) (seq : Nat) (r : Report) : Ntu :=
  match r with
  | .begun =>
    { n with standing := some (.inTenure seq), inTenure := n.choose.map PendingNotice.kind, raisedAgain := false }
  | .lostBid | .retry => { n with standing := some (.listed seq), inTenure := none, raisedAgain := false }
  | .taken => n.taken
  | .notTaken | .givenUp => n.notTaken now

/-- CFW takes a report (R75, R76). -/
def State.reportCfw (s : State) (seq : Nat) (r : Report) : State :=
  match r with
  | .begun => { s with cfw := s.cfw.restand seq (.inTenure seq) }
  | .lostBid | .retry => s.outBack seq
  | .taken | .notTaken => s.outEnded seq Watcher.taken
  | .givenUp => s.outEnded seq (fun w => w.givenUp s.ccu s.now)

/-- XCH takes a report on a LINE-WANT (R142). -/
def State.reportWant (s : State) (seq : Nat) (r : Report) : State :=
  match r with
  | .begun => { s with xch := s.xch.restand seq (.inTenure seq) }
  | .lostBid | .retry => { s with xch := s.xch.restand seq (.listed seq) }
  | .taken | .notTaken | .givenUp => s.wantSent seq

/-- XCH takes a report on a LINE-GIVE (R150). -/
def State.reportGive (s : State) (seq : Nat) (r : Report) : State :=
  match r with
  | .begun => { s with xch := s.xch.restand seq (.inTenure seq) }
  | .lostBid | .retry => { s with xch := s.xch.restand seq (.listed seq) }
  | .taken | .notTaken | .givenUp => s.giveEnded seq

/-- A delivery-failed unit (R207). -/
def State.failedUnit (s : State) (f : LaneFrame) : InUnit :=
  { sender := byte s.own, dest := f.dest, kind := f.kind ||| 0x80, body := f.body }

/-- UPB takes a report (R207). -/
def State.reportUpb (s : State) (f : LaneFrame) (r : Report) : State :=
  match r with
  | .givenUp => { s with upb := { s.upb with inq := s.upb.inq ++ [s.failedUnit f] } }
  | _ => s

/-- LIF reports to the frame's owner. ORD's acts on a REPLY are none but the warm restart's (R192, R196). -/
def State.report (s : State) (e : SendEntry) (f : LaneFrame) (r : Report) : State :=
  match e.owner with
  | .adm => s.reportAdm e.seq r
  | .ptu => { s with ptu := s.ptu.report e.seq r }
  | .ord => s
  | .ntu => { s with ntu := s.ntu.report s.now e.seq r }
  | .cfw => s.reportCfw e.seq r
  | .xchWant => s.reportWant e.seq r
  | .xchGive => s.reportGive e.seq r
  | .upb => s.reportUpb f r

/-! ### The engine (R157, R158) -/

/-- What takes the lane engine from one state to another (R158, its last column). OFF-LANE is left by entry to LISTEN or
HALTED-SETUP (State.enterListen, State.enterHalted). -/
inductive LaneEvent where
  | quiet16
  | leadBit (own : Bool)
  | withdraw
  | survive
  | lastTail
  | mismatch
  | takeSlotEnd
  | errorFound
deriving DecidableEq, Repr

/-- The engine's next state, the table of R158: an event that the table does not give a state leaves it as it is. -/
def Engine.next (e : Engine) (event : LaneEvent) : Engine :=
  match e, event with
  | .syncing, .quiet16 => .quiet
  | .quiet, .leadBit own => if own then .bidding else .receiving
  | .bidding, .withdraw => .receiving
  | .bidding, .survive => .sending
  | .sending, .lastTail => .slots
  | .sending, .mismatch => .receiving
  | .slots, .takeSlotEnd => .quiet
  | .receiving, .takeSlotEnd => .quiet
  | .receiving, .errorFound => .discarding
  | .discarding, .quiet16 => .quiet
  | e, _ => e

/-- The engine after events in turn (R158). -/
def Engine.run (e : Engine) (events : List LaneEvent) : Engine := events.foldl Engine.next e

/-- The gap: the quiet count at which this station may begin a bid (R157). -/
def Lif.gap (l : Lif) : Nat := if l.sitOut then 48 else 16

/-- The engine is in a tenure that this station goes on sending (R158). -/
def Lif.isSending (l : Lif) : Bool := l.engine = .bidding || l.engine = .sending

/-- The sender has stopped on a mismatch and its outcome is held until the tenure ends (R160, R173). -/
def Lif.isStopped (l : Lif) : Bool := l.tenure.any Tenure.stopped

/-! ### A tenure of this station's (R159 to R161, R165) -/

/-- The station sends: in MEMBER and in HALTED-SETUP, with a legal station number (R174, R178; log 32). -/
def State.sends (s : State) : Bool := (s.ptu.state = .member || s.ptu.state = .haltedSetup) && s.legalNumber

/-- The body a frame is sent with, none while it is not ready (R159, R161, R169, R185, R199). -/
def State.tenureBody (s : State) (e : SendEntry) : Option Bytes :=
  match e.payload with
  | .body bytes => some bytes
  | .give key _ =>
    match s.lif.giveBuf with
    | .loaded q data => if q = e.seq then some (key.bytes ++ data) else none
    | _ => none
  | .atTenure =>
    match e.owner with
    | .ptu => some s.beaconBody
    | _ => s.ntu.choose.map PendingNotice.body

/-- The frame of a send list entry (R161). -/
def State.tenureFrame (s : State) (e : SendEntry) (body : Bytes) : LaneFrame :=
  { cls := BitVec.ofNat 2 e.cls
    sender := BitVec.ofNat 6 s.own
    dest := e.dest
    kind := e.kind.code
    body := body }

/-- A tenure begins: the head is IN-TENURE, its lead bit driven (R158, R159). -/
def State.beginTenure (s : State) (e : SendEntry) (f : LaneFrame) : State :=
  let l := s.lif.setTenure e.seq true
  ({ s with lif := { l with
      engine := l.engine.next (.leadBit true)
      quiet := 0
      sitOut := false
      ltx := true
      drove := .leadBit
      tenure := some { seq := e.seq, frame := f, bytes := LaneFrame.bytes f } } } : State).report e f .begun

/-- The outcome of a tenure (R165). -/
inductive Outcome where
  | taken
  | notTaken
  | spoiled
deriving DecidableEq, Repr

/-- The outcome that the end of a tenure shows (R165). -/
def TenureEnd.outcome : TenureEnd → Outcome
  | .stopped _ _ => .spoiled
  | .slots true _ => .spoiled
  | .slots false true => .taken
  | .slots false false => .notTaken

/-- The lane retry limit; 4 in HALTED-SETUP (R165). -/
def State.retryLimit (s : State) : Nat :=
  if s.ptu.state = .haltedSetup then 4 else s.setting Settings.retryLimit

/-- What LIF reports at the end of a tenure (R165). -/
def State.tenureReport (s : State) (e : SendEntry) (o : Outcome) : Report :=
  match o with
  | .taken => .taken
  | .notTaken =>
    if e.dest = toAll then .notTaken else if e.retry + 1 < s.retryLimit then .retry else .givenUp
  | .spoiled => if e.retry + 1 < s.retryLimit then .retry else .givenUp

/-- The send list after a report: a frame to be retried stays with its count raised, any other leaves (R165, R169). -/
def State.settleEntry (s : State) (seq : Nat) (r : Report) : State :=
  match r with
  | .retry =>
    { s with lif := { s.lif with sendList := s.lif.sendList.map (fun e =>
        if e.seq = seq then { e with retry := e.retry + 1, inTenure := false } else e) } }
  | _ => ({ s with lif := s.lif.remove seq } : State).freeGiveBuf seq

/-- LIF's state once a tenure it sent has ended: sit-out set (R157, R158). A sender that read the slots passes SLOTS to
QUIET; one that stopped waits in DISCARDING, its error found. -/
def Lif.endTenure (l : Lif) (how : TenureEnd) : Lif :=
  match how with
  | .slots _ _ =>
    { l with
      engine := l.engine.run [.survive, .lastTail, .takeSlotEnd]
      quiet := 0
      sitOut := true
      ltx := false
      drove := .nothing
      tenure := none }
  | .stopped _ _ => { l with quiet := 0, sitOut := true, ltx := false, tenure := none }

/-- In uplink role an own NOTICE that completed unspoiled goes to UPB where a place is free (R201, R208). -/
def State.ownNotice (s : State) (e : SendEntry) (f : LaneFrame) : State :=
  if !s.serving && e.owner = .ntu && 1 ≤ s.upbFree then
    { s with upb := { s.upb with inq := s.upb.inq ++
        [{ sender := byte s.own, dest := f.dest, kind := f.kind, body := f.body }] } }
  else s

/-- The end of a tenure that this station sent, the warm restart apart (R164, R165). -/
def State.endTenure (s : State) (e : SendEntry) (f : LaneFrame) (how : TenureEnd) : State :=
  let r := s.tenureReport e (TenureEnd.outcome how)
  let s1 : State := { s with lif := s.lif.endTenure how }
  let s2 := s1.settleEntry e.seq r
  let s3 := if f.dest = toAll && (TenureEnd.outcome how) ≠ .spoiled then (s2.presentBlocks f).ownNotice e f else s2
  s3.report e f r

/-! ### Taking (R170 to R172) -/

/-- The kind is one that the role takes, from a frame addressed as the table of R170 requires. -/
def State.takesKind (s : State) (f : LaneFrame) (kind : FrameKind) : Bool :=
  let one := f.dest.toNat = s.own
  let all := f.dest = toAll
  match kind with
  | .order | .consoleIn => one
  | .beacon | .admitClaim | .admitWithdraw | .admitRelease | .notice | .lineWant | .imageRetire => !s.serving && all
  | .reply | .consoleOut => !s.serving && one
  | .lineGive => false

/-- The station takes frames: in MEMBER, and of ORDER alone in HALTED-SETUP in serving role (R174; log 32). -/
def State.takesIn (s : State) (kind : FrameKind) : Bool :=
  s.ptu.state = .member || (s.ptu.state = .haltedSetup && s.serving && kind = .order && s.legalNumber)

/-- The ORDER frames taken and not yet handed over. -/
def Lif.ordersHeld (l : Lif) : Nat := (l.recvQueue.filter (fun f => f.kind = FrameKind.order.code)).length

/-- The kind's own admission test (R170). -/
def State.kindTest (s : State) (f : LaneFrame) (kind : FrameKind) : Bool :=
  if s.serving then
    (if kind = .order then s.ord.inbox.length + s.lif.ordersHeld < 4 else s.consoleInTest f.sender.toNat f.body)
  else 1 ≤ s.upbFree

/-- LIF decides whether it takes a frame (R170, R171). -/
def State.decidesTake (s : State) (f : LaneFrame) : Bool :=
  match FrameKind.ofCode f.kind with
  | some kind =>
    s.takesIn kind && s.takesKind f kind && f.sender ≠ 0 && f.sender ≠ 63 && s.lif.recvQueue.length < 8 &&
    s.kindTest f kind
  | none => false

/-- The input room a taken frame reserves (R78). -/
def State.reserves (s : State) (f : LaneFrame) : Nat :=
  if s.serving && f.kind = FrameKind.consoleIn.code then f.body.length else 0

/-- A frame decided for take is held with its reservations (R171). -/
def State.holdTake (s : State) (f : LaneFrame) : State :=
  if s.decidesTake f then
    { s with
      lif := { s.lif with takeHeld := some f }
      cfw := { s.cfw with reserved := s.cfw.reserved + s.reserves f } }
  else s

/-- The spoil slot was recessive: a held frame is acknowledged and placed in the receive queue (R163). -/
def State.placeTake (s : State) : State :=
  match s.lif.takeHeld with
  | some f =>
    { s with lif := { s.lif with takeHeld := none, recvQueue := s.lif.recvQueue ++ [f], drove := .takeSlot } }
  | none => { s with lif := { s.lif with drove := .nothing } }

/-- The spoil slot was dominant: the take is undone and its reservations released (R163, R171). -/
def State.undoTake (s : State) : State :=
  match s.lif.takeHeld with
  | some f =>
    { s with
      lif := { s.lif with takeHeld := none, drove := .nothing }
      cfw := { s.cfw with reserved := s.cfw.reserved - s.reserves f } }
  | none => { s with lif := { s.lif with drove := .nothing } }

/-- LIF hands the head of the receive queue to its owner (R172). -/
def State.handOver (s : State) : State :=
  match s.lif.recvQueue with
  | f :: rest =>
    let s1 : State := { s with lif := { s.lif with recvQueue := rest } }
    if s.serving then
      (if f.kind = FrameKind.order.code then
        { s1 with ord := { s1.ord with inbox := s1.ord.inbox ++ [{ sender := f.sender.toNat, body := f.body }] } }
       else { s1 with cfw := s1.cfw.appendText f.body })
    else
      { s1 with upb := { s1.upb with inq := s1.upb.inq ++
          [{ sender := byte f.sender.toNat, dest := f.dest, kind := f.kind, body := f.body }] } }
  | [] => s

/-- LIF hands over the first frames of the receive queue, oldest first (R172; log 13). -/
def State.handOvers : Nat → State → State
  | 0, s => s
  | n + 1, s => State.handOvers n s.handOver

/-! ### Reception (R158, R162, R164) -/

/-- The engine can be reading a frame sent by another: from its lead bit in QUIET on, or after a lost bid or a mismatch
(R158; log 12). -/
def Lif.reads (l : Lif) : Bool := l.engine = .quiet || l.engine = .receiving

/-- LIF between tenures, a frame of another station having passed (R157, R158). -/
def Lif.passed (l : Lif) : Lif :=
  { l with engine := l.engine.run [.leadBit false, .takeSlotEnd], quiet := 0, sitOut := false, ltx := false }

/-- The station is on the lane with a number that another may share (R173). -/
def State.mayDuplicate (s : State) : Bool :=
  s.legalNumber && (s.ptu.state = .listen || s.ptu.state = .member || s.ptu.state = .haltedSetup)

/-- What a receiver drives at an error (R162): nothing in SILENT. -/
def State.errorDrive (s : State) (error : RxError) (tailRemains : Bool) : Drove :=
  if s.ptu.state = .silent then .nothing
  else
    match error with
    | .tailDominant => .nothing
    | .badCheck => .spoilSlot
    | .leadRecessive | .overLength => if tailRemains then .tailBit else .spoilSlot

/-! ### SILENT (R173, R179) -/

/-- The give buffer freed: a waiting read withdrawn, one in progress discarded at its end (R173). -/
def GiveBuf.dropped (g : GiveBuf) (waiting : Bool) : GiveBuf :=
  match g with
  | .reading _ => if waiting then .free else .discarding
  | .discarding => .discarding
  | _ => .free

/-- LIF's entry to SILENT (R173). A sender that had stopped on a mismatch, or stops within the command, was the sender
beyond the bid byte, so its sit-out flag is set (R157; log 18). -/
def State.lifSilent (s : State) : State :=
  { s with
    lif := { s.lif with
      engine := .quiet
      quiet := 0
      sitOut := s.lif.engine = .sending || s.lif.isStopped
      sendList := []
      takeHeld := none
      giveBuf := s.lif.giveBuf.dropped s.mctl.waitSend.isSome
      tenure := none
      drove := .nothing
      ltx := false
      stat := true }
    mctl := { s.mctl with waitSend := none } }

/-- NTU's standing at entry to SILENT: a NOTICE listed or in tenure is HELD from then on (R201; log 33). -/
def Ntu.silence (n : Ntu) : Ntu :=
  { n with standing := n.standing.map (fun _ => .held), inTenure := none, raisedAgain := false }

/-- The station enters SILENT (R48, R77, R154, R173, R179, R196). -/
def State.enterSilent (s : State) : State :=
  let s1 : State := { s.lifSilent with
    ptu := { s.ptu with state := .silent, standing := none }
    ord := { s.ord with restartPending := false, restartReply := none }
    ntu := s.ntu.silence }
  (s1.admSilent.cfwSilent).xchSilent

end Sys2Proof.Machine
end

