-- ==== Sys2Proof/Machine/Uplink.lean ====
section
/-! DEFINITION. UPB: units on the uplink line and the two queues (R205 to R209). -/

namespace Sys2Proof.Machine

/-- The sync byte of a unit. -/
def syncByte : Byte := 0xA5

/-- An inbound unit's bytes on UTXD (R205). -/
def InUnit.bytes (u : InUnit) : Bytes :=
  let content := [u.sender, u.dest, u.kind] ++ be 2 u.body.length ++ u.body
  syncByte :: (content ++ be 2 (crc16 content).toNat)

/-- What stands behind a sync byte (R205): a unit not yet whole, one to be dropped, or a whole one with the bytes after
it. -/
inductive UnitRead where
  | partly
  | bad
  | whole (dest kind : Byte) (body : Bytes) (rest : Bytes)
deriving DecidableEq, Repr

/-- The bytes behind a sync byte read as an outbound unit (R205). -/
def readUnit (b : Bytes) : UnitRead :=
  let len := field b 2 2
  if b.length < 4 then .partly
  else if 2064 < len then .bad
  else if b.length < 6 + len then .partly
  else if field b (4 + len) 2 = (crc16 (b.take (4 + len))).toNat then
    .whole (byteAt b 0) (byteAt b 1) ((b.drop 4).take len) (b.drop (6 + len))
  else .bad

/-- UPB takes frames of the computer: in uplink role, outside HALTED-SETUP (R205, R209; log 25). -/
def State.upbReceives (s : State) : Bool := !s.serving && s.ptu.state ≠ .haltedSetup

/-- The tests on a whole unit (R205). A destination of 64 or more has one of its top two bits set (log 52). -/
def State.unitTest (s : State) (dest kind : Byte) : Bool :=
  dest ≠ 0 && dest.toNat < 64 && dest.toNat ≠ s.own && 2 ≤ kind.toNat && kind.toNat ≤ 12 && s.upb.outq.length < 16

/-- A whole unit is placed in the outbound queue or dropped (R205, R206). -/
def State.takeUnit (s : State) (dest kind : Byte) (body : Bytes) : State :=
  match FrameKind.ofCode kind with
  | some k =>
    if s.unitTest dest kind then
      { s with upb := { s.upb with outq := s.upb.outq ++ [{ dest := dest, kind := k, body := body }] } }
    else s
  | none => s

/-- UPB hunts for sync bytes and reads units; a unit not yet whole at the end is left, or dropped where the line has
failed (R205). Behind a unit that is whole the hunt goes on after its last byte, also where takeUnit drops it for its
destination, its kind or a full queue: the model's choice (log 56). The number bounds the bytes looked at. -/
def State.hunt (ended : Bool) : Nat → Bytes → State → State
  | 0, _, s => { s with upb := { s.upb with rx := [] } }
  | _, [], s => { s with upb := { s.upb with rx := [] } }
  | n + 1, b :: bs, s =>
    if b = syncByte then
      match readUnit bs with
      | .partly => if ended then State.hunt ended n bs s else { s with upb := { s.upb with rx := b :: bs } }
      | .bad => State.hunt ended n bs s
      | .whole dest kind body rest => State.hunt ended n rest (s.takeUnit dest kind body)
    else State.hunt ended n bs s

/-- Characters arrive on URXD (R205); `ended` says that a gap of 1 ms or a framing error follows them. -/
def State.uplinkChars (s : State) (bytes : Bytes) (ended : Bool) : State :=
  if s.upbReceives then
    let all := s.upb.rx ++ bytes
    s.hunt ended all.length all
  else s

/-- UPB begins to send the unit at the head of the inbound queue while URTS is asserted (R208, R209). -/
def State.startUnit (s : State) : State :=
  if !s.serving && s.upb.tx.isNone && s.pins.urts &&
      (s.ptu.state = .listen || s.ptu.state = .member || s.ptu.state = .silent) then
    match s.upb.inq with
    | u :: _ => { s with upb := { s.upb with tx := some u.bytes } }
    | [] => s
  else s

end Sys2Proof.Machine
end

