-- ==== Sys2Proof/Machine/Orders.lean ====
section
/-! DEFINITION. ORD: the decision of the order at the head of the inbox, its REPLY, the claim, STATUS, ATTACH, DETACH and
RESTART (R116, R117, R189 to R197). -/

namespace Sys2Proof.Machine

/-- What a block answers to a dispatched order: the status, the REPLY's detail where the block gives one, and the state
after. -/
structure Answer where
  status  : OrderStatus
  detail  : Bytes := []
  state   : State
  restart : Bool := false
deriving DecidableEq, Repr

/-- A block's status and state as an answer without detail. -/
def Answer.plain (a : OrderStatus × State) : Answer := { status := a.1, state := a.2 }

/-- The first of the five tests that applies (R190). -/
def State.orderTest (s : State) (o : Order) : Option OrderStatus :=
  match o.name with
  | none => some .invalid
  | some n =>
    if (s.ptu.peer o.sender).role ≠ some .uplink then some .notUplink
    else if s.ptu.state ≠ .member && n ≠ 3 then some .notMember
    else if needsClaim n && s.ord.holder ≠ some o.sender then some .notHolder
    else if !paramsValid n o.params then some .invalid
    else none

/-- The REPLY's detail (R192): POWER's and CLAIM's at any status, else what the block gave. -/
def State.replyDetail (s : State) (o : Order) (given : Bytes) : Bytes :=
  match o.name with
  | some 6 => s.psq.bytes
  | some 1 => [byte (s.ord.holder.getD 0)]
  | _ => given

/-- The REPLY's body: tag, status, detail (R192). -/
def replyBody (o : Order) (status : OrderStatus) (detail : Bytes) : Bytes := o.tag :: status.code :: detail

/-- The head of the inbox becomes REPLY-HELD with its REPLY (R190, R192). -/
def State.holdReply (s : State) (o : Order) (status : OrderStatus) (given : Bytes) (restart : Bool) : State :=
  let reply := replyBody o status (s.replyDetail o given)
  { s with ord := { s.ord with inbox :=
      match s.ord.inbox with
      | head :: rest => { head with standing := .replyHeld reply restart } :: rest
      | [] => [] } }

/-- The order that can be decided now (R190, R197): the WAITING head, with no warm restart pending. -/
def State.deciding (s : State) : Option Order :=
  if s.serving && !s.ord.restartPending &&
      (s.ptu.state = .member || s.ptu.state = .haltedSetup || s.ptu.state = .silent) then
    match s.ord.inbox with
    | o :: _ => if o.standing = .waiting then some o else none
    | [] => none
  else none

/-- The head of the inbox is decided by the command of its row (R190): by a test, or by its block. -/
def State.decide (s : State) (row : OrderRow) (block : Order → State → Answer) : State :=
  match s.deciding with
  | some o =>
    if o.row = row then
      match s.orderTest o with
      | some status => s.holdReply o status [] false
      | none =>
        let a := block o s
        a.state.holdReply o a.status a.detail a.restart
    else s
  | none => s

/-! ### The claim (R193) -/

/-- A station becomes the holder, time now. -/
def State.takeClaim (s : State) (x : Nat) : State := { s with ord := { s.ord with holder := some x, holdTime := s.now } }

/-- CLAIM (R193). -/
def State.actClaim (s : State) (x : Nat) (seize : Bool) : OrderStatus × State :=
  match s.ord.holder with
  | none => (.done, s.takeClaim x)
  | some h =>
    if h = x then (.already, s)
    else if seize then (.done, (s.takeClaim x).raise .claimLost [byte h, byte x, 1])
    else (.held, s)

/-- RELEASE-CLAIM (R193). -/
def State.actReleaseClaim (s : State) (x : Nat) : OrderStatus × State :=
  if s.ord.holder = some x then (.done, { s with ord := { s.ord with holder := none, holdTime := 0 } })
  else (.notHolder, s)

/-! ### STATUS (R195) -/

/-- A STATUS byte to which R195 gives no value (log 23), by its place in the detail. -/
def State.unstated (s : State) (place : Nat) : Byte := Config.statusUnstated (s.fresh + place)

/-- The place of this station in its own waiting list, 0 when not waiting. -/
def State.waitingPosition (s : State) : Nat :=
  match s.adm.waiting.findIdx? (fun x => x = s.own) with
  | some i => i + 1
  | none => 0

/-- The deadline phase byte: 0 none, 1 BOOT, 2 RUNNING. -/
def Wdu.phaseByte (w : Wdu) : Byte :=
  match w.deadline, w.phase with
  | none, _ => 0
  | some _, .boot => 1
  | some _, .running => 2

/-- The time to the deadline in ms; all ones when it is absent. -/
def Wdu.timeLeft (w : Wdu) (now : Time) : Bytes :=
  match w.deadline with
  | some d => be 4 (if reached d now then 0 else (d - now).toNat)
  | none => be 4 max32

/-- The watchdog fields of STATUS: 17 bytes from place 12. T has no value before the first WATCHDOG-ARM (log 23). -/
def State.statusWatchdog (s : State) : Bytes :=
  let w := s.wdu
  [flag w.armed] ++
  (match w.timeout with
    | some t => be 2 t
    | none => [s.unstated 13, s.unstated 14]) ++
  be 2 w.bootAllowance ++ be 2 (w.pendingTimeout.getD 0) ++ [w.action.code, flag w.guard, w.phaseByte] ++
  w.timeLeft s.now ++ [byte w.early, byte w.expiry, flag w.holdoff]

/-- The kind of request in progress (R195): 0 none, 1 READ, 2 WRITE. The code 3 (other) is never reported, the model's
choice (log 20): CAPACITY, READY, EJECT and a refused READ or WRITE end within their own command, so none of them stands
when STATUS is decided. -/
def Mfn.requestByte (m : Mfn) : Byte :=
  match m.request with
  | none => 0
  | some r => if r.kind = .read then 1 else 2

/-- The media fields of STATUS: 15 bytes from place 29. Mode and boot-once have no value in NONE (log 23). -/
def State.statusMedia (s : State) : Bytes :=
  let m := s.mfn
  [m.state.code, causeCode m.cause] ++
  (if m.state = .none then [0, 0, 0, 0, 0, 0, 0, s.unstated 38, s.unstated 39]
   else be 2 m.image ++ be 1 m.gen ++ be 4 m.capacity ++ [m.mode.code, flag m.bootOnce]) ++
  [m.port.code, flag m.remoteWake, m.requestByte, causeCode m.lastCause]

/-- The role byte of a peer record; unknown has no coding in R195 (log 23). -/
def State.statusRole (s : State) (place : Nat) (role : Option Role) : Byte :=
  match role with
  | some r => Role.code r
  | none => s.unstated place

/-- The 12 bytes of one present peer from a place of the detail. What no beacon has given has no coding (log 23). -/
def State.statusPeer (s : State) (place x : Nat) : Bytes :=
  let e := s.ptu.peer x
  [byte x, s.statusRole (place + 1) e.role, byte e.missed] ++
  (match e.lastState with
    | some st => [st.code]
    | none => [s.unstated (place + 3)]) ++
  (match e.lastSeq with
    | some q => [q.state, q.variant, q.pendingAct, q.slotHeld]
    | none => [s.unstated (place + 4), s.unstated (place + 5), s.unstated (place + 6), s.unstated (place + 7)]) ++
  (match e.lastAttach with
    | some a => be 2 a.1 ++ be 1 a.2
    | none => [s.unstated (place + 8), s.unstated (place + 9), s.unstated (place + 10)]) ++
  [e.digestMatch.code]

/-- The present peers of a role. -/
def Ptu.countRole (p : Ptu) (role : Option Role) : Nat :=
  (p.presentPeers.filter (fun x => (p.peer x).role = role)).length

/-- The peer fields of STATUS, from place 81 on. -/
def State.statusPeers (s : State) : Bytes :=
  let xs := s.ptu.presentPeers
  [byte xs.length, byte (s.ptu.countRole (some .uplink)), byte (s.ptu.countRole (some .serving)),
    byte (s.ptu.countRole none)] ++
  (((List.range xs.length).zip xs).map (fun e => s.statusPeer (85 + 12 * e.1) e.2)).flatten

/-- The fields of the blocks that need a setting record, places 6 to 80: all 0 without one (R195; log 24). -/
def State.statusBlocks (s : State) : Bytes :=
  if s.sld.settings.isNone then List.replicate 75 0
  else
    s.psq.bytes ++ [byte s.waitingPosition, flag s.ptu.mismatch] ++ s.statusWatchdog ++ s.statusMedia ++
    be 4 s.lpm.freeCount ++ be 4 s.lpm.fillingCount ++ be 4 s.lpm.cleanCount ++ be 4 s.lpm.dirtyCount ++
    be 8 s.ccu.captured ++ be 8 s.ccu.oldest ++
    (byte (s.ord.holder.getD 0) :: be 4 (if s.ord.holder.isSome then s.ord.holdTime.toNat else 0))

/-- STATUS's detail (R195). -/
def State.statusDetail (s : State) : Bytes :=
  [s.ptu.state.code, Role.code s.sld.role] ++ be 4 s.now.toNat ++ s.statusBlocks ++ s.statusPeers

/-- STATUS (R195). The counter of free values moves past those this reply used. -/
def State.actStatus (s : State) : Answer :=
  { status := .done, detail := s.statusDetail, state := { s with fresh := s.fresh + 1024 } }

/-! ### ATTACH, DETACH and RESTART (R116, R117, R196) -/

/-- ATTACH's numeric parameters lie in their ranges (R115, R116). -/
def attachValid (image capacity : Nat) : Bool := imageLegal image && 1 ≤ capacity

/-- ATTACH (R116, R119). -/
def State.actAttach (s : State) (image gen capacity : Nat) (mode : Mode) (bootOnce : Bool) : OrderStatus × State :=
  if !attachValid image capacity then (.invalid, s)
  else if s.mfn.state ≠ .none then (.busy, s)
  else
    let s1 : State := { s with mfn := { s.mfn with
      state := .attached
      image := image
      gen := gen
      capacity := capacity
      mode := mode
      bootOnce := bootOnce
      cause := none
      drain := none
      changed := false
      tracker := none
      port := if s.pins.vbsense then .connected else s.mfn.port } }
    (.done, (s1.mark .mediaAttached (image * 256 + gen)).raise .mediaAttached
      (be 2 image ++ be 1 gen ++ be 4 capacity ++ [mode.code, flag bootOnce]))

/-- DETACH (R117). -/
def State.actDetach (s : State) : OrderStatus × State :=
  if s.mfn.state = .attached && s.mfn.cause.isNone then (.accepted, s.detachTrigger .order) else (.already, s)

/-- RESTART (R196). -/
def State.actRestart (s : State) : Answer :=
  { status := .done, state := { s with ord := { s.ord with restartPending := true } }, restart := true }

end Sys2Proof.Machine
end

