-- ==== Sys2Proof/Machine/Start.lean ====
section
/-! DEFINITION. The starts: the cold-start state, HALTED-SETUP, the hand-over, bring-up and entry to LISTEN, PSQ's
derivation, and the warm restart in every block (R26, R27, R97, R101, R102, R137, R176, R178, R188, R202 to R204). -/

namespace Sys2Proof.Machine

/-- Every block in its cold-start state (R202). The pins stay as they are, and so do the waiting commands and the
model's counter of free values. SDRAM is taken as empty (log 7). -/
def State.coldState (s : State) : State :=
  { State.reset with
    pins := s.pins
    mfn := Mfn.started s.pins.vbsense none
    fresh := s.fresh
    pending := s.pending }

/-- The station enters HALTED-SETUP: its 1,000 ms boundaries start, the engine enters SYNCING and a beacon is offered
(R174, R176, R178). A drain of R101 still under way goes on, the model's choice (log 39). -/
def State.enterHalted (s : State) : State :=
  ({ s with
    sld := { s.sld with phase := .halted }
    lif := { s.lif with engine := .syncing }
    ptu := { s.ptu with state := .haltedSetup, boundary := some (after s.now 1000) } } : State).offerBeacon

/-- The straps are sampled and the start sequence begins: HALTED-SETUP at once for an illegal number (R202). -/
def State.beginStart (s : State) (straps : Straps) (warm : Bool) : State :=
  let s1 : State := { s with sld :=
    { role := straps.role, snum := straps.snum.toNat, phase := .reading 1, warm := warm, settings := none } }
  if s1.legalNumber then s1 else s1.enterHalted

/-- The warm restart of every block, the straps apart (R27, R61, R81, R95, R101, R114, R137, R155, R175, R188, R189,
R201, R209). -/
def State.warmState (s : State) : State :=
  { s with
    now := 0
    ptu := {}
    lif := {}
    adm := {}
    psq := { feedClosed := s.psq.feedClosed }
    wdu := Wdu.started none
    ccu := s.ccu.stop s.now
    cfw := {}
    mctl := s.mctl.restart
    lpm := {}
    xch := {}
    mfn := Mfn.started s.pins.vbsense (if s.mfn.state = .none then s.mfn.lastCause else some .restart)
    ord := {}
    ntu := {}
    upb := {} }

/-- A warm restart begins (R175, R202). -/
def State.warmRestart (s : State) (straps : Straps) : State := s.warmState.beginStart straps true

/-- The hand-over can be made: the record is validated and, at a warm restart, MCTL is in SELF-REFRESH (R202). -/
def State.mayHandOver (s : State) : Bool := !s.sld.warm || s.mctl.mem = .selfRefresh

/-- MCTL takes the hand-over (R97, R102; log 27). -/
def Mctl.handed (m : Mctl) (r : Settings) : Mctl :=
  if m.mem = .selfRefresh && m.geometry = some r.geometry then { m with leaving := true }
  else { m with mem := .bringingUp, geometry := some r.geometry, retention := false }

/-- SLD hands the record over, with the rack digest (R202, R186). -/
def State.handOverRecord (s : State) (r : Settings) (digest : BitVec 16) : State :=
  { s with
    sld := { s.sld with settings := some r, phase := .handedOver }
    ptu := { s.ptu with digest := some digest }
    wdu := { s.wdu with bootAllowance := r.bootAllowance }
    mctl := s.mctl.handed r }

/-- The memory is being brought up or taken out of self-refresh (R97, R102). -/
def Mctl.comingUp (m : Mctl) : Bool := m.mem = .bringingUp || m.leaving

/-- The history is kept: a warm restart, the memory retained, the ring's size unchanged (R61, R102). -/
def State.keepsHistory (s : State) (ringSize : Nat) : Bool :=
  s.sld.warm && s.mctl.retention && s.ccu.ringSize = ringSize

/-- The detail of STARTED: 0 cold start, 1 warm restart with the history kept, 2 initialised (R201; log 35). -/
def State.startDetail (s : State) (kept : Bool) : Nat := if s.sld.warm then (if kept then 1 else 2) else 0

/-- FEED-FAULT owed from the derivation is raised once NTU has raised STARTED (R27). -/
def State.payFault (s : State) : State :=
  if s.psq.faultOwed then
    ({ s with psq := { s.psq with faultOwed := false } } : State).raise .feedFault [seqCode s.psq.state]
  else s

/-- MCTL reports the memory up: the pool is set up, the history starts, and the station enters LISTEN (R60, R61, R97,
R100, R103, R176, R182, R201). In uplink role the history does not start and stays empty (R62). -/
def State.enterListen (s : State) (r : Settings) : State :=
  let ring := 2 ^ r.historyLog
  let kept := s.serving && s.keepsHistory ring
  let s1 : State := { s with
    mctl := { s.mctl with mem := .up, leaving := false, debt := 0 }
    lpm := Lpm.setUp r
    ccu := if s.serving then s.ccu.start s.now s.sld.warm kept ring else {}
    lif := { s.lif with engine := .syncing }
    ptu := { s.ptu with state := .listen, boundary := some (after s.now r.presenceMs) } }
  (s1.raise .started [byte (s.startDetail kept)]).payFault

/-- PSQ derives its state from the debounced level (R2, R26, R27). -/
def State.derivePsq (s : State) (active : Bool) : State :=
  let s1 : State := { s with psq := { feedClosed := s.psq.feedClosed, pgood := active } }
  if s.psq.feedClosed then
    (if active then s1.psqEnter .on .none else s1.startRest.psqEnter .resting .none)
  else if active then
    let s2 := ({ s1 with psq := { s1.psq with restPhase := .awaitingFall, faultOwed := true } } : State).psqEnter .feedCut .none
    if s2.takesRaises then s2.payFault else s2
  else s1.startRest.psqEnter .feedCut .none

end Sys2Proof.Machine
end

