-- ==== Sys2Proof/Machine/Settle.lean ====
section
/-! DEFINITION. What becomes due at the end of a step and is done in that step: media transfers and wants, the end of a
detach, the capture write, the next input item, the next watcher, self-refresh, the offers to LIF, the give's read, and
the next unit on UTXD (95_what_each_step_holds.md; log 1). -/

namespace Sys2Proof.Machine

/-! ### Offers to LIF (R166) -/

/-- An offer as its owner makes it. -/
structure Offer where
  owner   : Owner
  cls     : Nat
  dest    : Byte
  kind    : FrameKind
  payload : Payload
deriving DecidableEq, Repr

/-- An own frame waits to be offered (R43). -/
def OwnFrame.isHeld (f : OwnFrame) : Bool := f.standing = .held

/-- The frame kind and body of an own admission frame (9.3). -/
def OwnKind.frame : OwnKind → FrameKind × Bytes
  | .claim .powerOn => (.admitClaim, [1])
  | .claim .feedRestore => (.admitClaim, [2])
  | .withdraw => (.admitWithdraw, [])
  | .release => (.admitRelease, [])

/-- ADM's next offer: the first HELD entry, every entry before it being QUEUED or IN-TENURE (R43). -/
def State.offerAdm (s : State) : Option Offer :=
  (s.adm.own.find? OwnFrame.isHeld).map (fun f =>
    { owner := .adm, cls := 0, dest := toAll, kind := f.kind.frame.1, payload := .body f.kind.frame.2 })

/-- PTU's offer (R184). -/
def State.offerPtu (s : State) : Option Offer :=
  if s.ptu.standing = some .held then
    some { owner := .ptu, cls := s.ptu.beaconClass, dest := toAll, kind := .beacon, payload := .atTenure }
  else none

/-- ORD's offer: the REPLY of the head (R192). -/
def State.offerOrd (s : State) : Option Offer :=
  match s.ord.inbox with
  | o :: _ =>
    match o.standing with
    | .replyHeld reply _ =>
      some { owner := .ord, cls := 1, dest := byte o.sender, kind := .reply, payload := .body reply }
    | .waiting => none
  | [] => none

/-- NTU's offer (R199). -/
def State.offerNtu (s : State) : Option Offer :=
  if s.ntu.standing = some .held then
    some { owner := .ntu, cls := 1, dest := toAll, kind := .notice, payload := .atTenure }
  else none

/-- CFW's offer (R75). -/
def State.offerCfw (s : State) : Option Offer :=
  match s.cfw.out with
  | some o =>
    if o.standing = .frame .held then
      some { owner := .cfw, cls := 2, dest := byte o.station, kind := .consoleOut, payload := .body o.body }
    else none
  | none => none

/-- A want waits to be offered. -/
def Want.isHeld (w : Want) : Bool := w.state = .queued .held

/-- The want that is offered next: DEMAND before READAHEAD, in want-list order (R142). -/
def Xch.nextWant (x : Xch) : Option Want :=
  match x.wants.find? (fun w => w.isHeld && w.purpose = .demand) with
  | some w => some w
  | none => x.wants.find? Want.isHeld

/-- XCH's next offer: gives first, then wants (R142). -/
def State.offerXch (s : State) : Option Offer :=
  match s.xch.gives.find? (fun g => g.standing = .held) with
  | some g => some { owner := .xchGive, cls := 3, dest := toAll, kind := .lineGive, payload := .give g.key g.line }
  | none => s.xch.nextWant.map (fun w =>
      { owner := .xchWant, cls := 3, dest := toAll, kind := .lineWant, payload := .body w.key.bytes })

/-- UPB's offer: the head of the outbound queue, when R206's conditions hold. -/
def State.offerUpb (s : State) : Option Offer :=
  if !s.serving && s.upbListed < 8 && 1 ≤ s.upbFree && (s.ptu.state = .listen || s.ptu.state = .member) then
    s.upb.outq.head?.map (fun f =>
      { owner := .upb, cls := f.kind.uplinkClass, dest := f.dest, kind := f.kind, payload := .body f.body })
  else none

/-- LIF would accept an offer (R161, R166, R174). -/
def State.acceptable (s : State) (o : Offer) : Bool :=
  s.lifAccepts && s.lif.hasPlace o.cls && offerValid o.dest o.payload

/-- The offers that reach LIF at this moment and that it would accept. -/
def State.offers (s : State) : List Offer :=
  [s.offerAdm, s.offerPtu, s.offerOrd, s.offerNtu, s.offerCfw, s.offerXch, s.offerUpb].filterMap id
    |>.filter s.acceptable

/-- The first HELD entry becomes LISTED. -/
def listOwn (seq : Nat) : List OwnFrame → List OwnFrame
  | [] => []
  | f :: rest => if f.isHeld then { f with standing := .listed seq } :: rest else f :: listOwn seq rest

/-- The first HELD give becomes LISTED. -/
def listGive (seq : Nat) : List Give → List Give
  | [] => []
  | g :: rest => if g.standing = .held then { g with standing := .listed seq } :: rest else g :: listGive seq rest

/-- The want offered becomes LISTED. -/
def Xch.listWant (x : Xch) (seq : Nat) : Xch :=
  match x.nextWant with
  | some w => { x with wants := x.wants.map (fun v =>
      if v.line = w.line && v.isHeld then { v with state := .queued (.listed seq) } else v) }
  | none => x

/-- ORD's order leaves the inbox; a RESTART's REPLY is remembered (R192, R196). -/
def Ord.replyListed (o : Ord) (seq : Nat) : Ord :=
  match o.inbox with
  | head :: rest =>
    { o with
      inbox := rest
      restartReply := (match head.standing with
        | .replyHeld _ true => some seq
        | _ => o.restartReply) }
  | [] => o

/-- The owner learns that its offer has been accepted at a place. -/
def State.listed (s : State) (o : Owner) (seq : Nat) : State :=
  match o with
  | .adm => { s with adm := { s.adm with own := listOwn seq s.adm.own } }
  | .ptu => { s with ptu := { s.ptu with standing := some (.listed seq) } }
  | .ord => { s with ord := s.ord.replyListed seq }
  | .ntu => { s with ntu := { s.ntu with standing := some (.listed seq) } }
  | .cfw => { s with cfw := { s.cfw with
      out := s.cfw.out.map (fun f => { f with standing := .frame (.listed seq) }) } }
  | .xchWant => { s with xch := s.xch.listWant seq }
  | .xchGive => { s with xch := { s.xch with gives := listGive seq s.xch.gives } }
  | .upb => { s with upb := { s.upb with outq := s.upb.outq.drop 1 } }

/-- LIF accepts an offer (R166). -/
def State.acceptOffer (s : State) (o : Offer) : State :=
  let seq := s.lif.nextSeq
  ({ s with lif := s.lif.accept o.cls o.dest o.kind o.payload o.owner } : State).listed o.owner seq

/-- One offer is taken. Of several made at one moment any may come first (R166): a free value, log 5. -/
def State.takeOffer (s : State) : State :=
  match s.offers with
  | [] => s
  | [o] => s.acceptOffer o
  | o :: os =>
    let pick := (o :: os).getD (Config.offerPick s.fresh % (os.length + 1)) o
    ({ s with fresh := s.fresh + 1 } : State).acceptOffer pick

/-- Offers are taken as far as LIF accepts them: the list holds at most 24 frames. -/
def State.takeOffers : Nat → State → State
  | 0, s => s
  | n + 1, s => State.takeOffers n s.takeOffer

/-- NTU offers a NOTICE when a flag is set, none stands and the pause is idle (R199, R201). -/
def State.askNotice (s : State) : State :=
  if s.takesRaises && s.ntu.standing.isNone && s.ntu.pause.isNone && !s.ntu.pending.isEmpty then
    { s with ntu := { s.ntu with standing := some .held } }
  else s

/-- A HELD want of a SILENT station goes at once to SENT (R154). -/
def Want.sentSilent (w : Want) (due : Time) : Want :=
  if w.isHeld then { w with state := .sent, timer := some due } else w

/-- LIF refuses every offer in SILENT: ORD drops its REPLY, one HELD before the entry too (log 46), and XCH's wants go to
SENT (R154, R197). -/
def State.refuseSilent (s : State) : State :=
  if s.ptu.state = .silent then
    { s with
      ord := { s.ord with inbox := if s.offerOrd.isSome then s.ord.inbox.drop 1 else s.ord.inbox }
      xch := { s.xch with wants := s.xch.wants.map (fun w => w.sentSilent s.wantDue) } }
  else s

/-- The owners' offers at the end of a step. -/
def State.settleOffers (s : State) : State := State.takeOffers 25 s.askNotice.refuseSilent

/-! ### The give's read (R169) -/

/-- LIF asks the read of the LINE-GIVE at the head of its list when the give buffer is free. -/
def State.askGiveRead (s : State) : State :=
  match s.lif.head with
  | some e =>
    match e.payload with
    | .give _ line =>
      if s.lif.giveBuf = .free then
        { s with
          lif := { s.lif with giveBuf := .reading e.seq }
          mctl := { s.mctl with waitSend := some (line, e.seq) } }
      else s
    | _ => s
  | none => s

/-! ### The end of a step -/

/-- Everything due at the end of a step, in order. -/
def State.settleRun (s : State) : State :=
  ((((((((s.mediaAdvance).detachComplete).askCapture).startInput).serveWatcher).enterSelfRefresh).settleOffers).askGiveRead).startUnit

/-- The end of a step. It is written so that what it leaves alone stands in its text: station time, RSTN, the pins, SLD,
PSQ, WDU, the SDRAM, the queue, and the fields of the other blocks that are not named here. -/
def settle (s : State) : State :=
  let r := s.settleRun
  { s with
    lif := { s.lif with sendList := r.lif.sendList, nextSeq := r.lif.nextSeq, giveBuf := r.lif.giveBuf }
    adm := { s.adm with own := r.adm.own }
    ptu := { s.ptu with standing := r.ptu.standing }
    ord := { s.ord with inbox := r.ord.inbox, restartReply := r.ord.restartReply }
    ntu := { s.ntu with
      pending := r.ntu.pending, counter := r.ntu.counter, standing := r.ntu.standing, raisedAgain := r.ntu.raisedAgain }
    ccu := { s.ccu with
      lost := r.ccu.lost, garbled := r.ccu.garbled, marks := r.ccu.marks, markCounter := r.ccu.markCounter, run := r.ccu.run }
    cfw := { s.cfw with watchers := r.cfw.watchers, out := r.cfw.out, turn := r.cfw.turn, tx := r.cfw.tx }
    mctl := { s.mctl with
      mem := r.mctl.mem
      restarting := r.mctl.restarting
      retention := r.mctl.retention
      current := r.mctl.current
      waitCapture := r.mctl.waitCapture
      waitMedia := r.mctl.waitMedia
      waitForward := r.mctl.waitForward
      waitSend := r.mctl.waitSend }
    lpm := { s.lpm with lines := r.lpm.lines, recency := r.lpm.recency }
    xch := { s.xch with wants := r.xch.wants, gives := r.xch.gives }
    mfn := { s.mfn with
      state := r.mfn.state
      cause := r.mfn.cause
      drain := r.mfn.drain
      tracker := r.mfn.tracker
      lastCause := r.mfn.lastCause
      port := r.mfn.port
      remoteWake := r.mfn.remoteWake
      request := r.mfn.request
      usbStatus := r.mfn.usbStatus }
    upb := { s.upb with outq := r.upb.outq, tx := r.upb.tx }
    fresh := r.fresh }

/-- A command's effect, with what becomes due at its end; while RSTN is asserted every block is held (R202). -/
def ends (s : State) (effect : State → State) : Host.Outcome State Fault Refusal := runs s (fun t => settle (effect t))

end Sys2Proof.Machine
end

