-- ==== Sys2Proof/Machine/PowerSteps.lean ====
section
/-! DEFINITION. The meanings of the PGOOD and power-timer commands (R1, R17 to R25). -/

namespace Sys2Proof.Machine

/-- The debounced level changes (R2). -/
def State.setPgood (s : State) (active : Bool) : State := { s with psq := { s.psq with pgood := active } }

/-- An unadmitted start (R24). -/
def State.unadmittedStart (s : State) : State :=
  let left := seqCode s.psq.state
  let s1 := (((s.setPending .none).psqEnter .on .none).startYoung).mark .powerOn 1
  s1.raise .unadmittedStart [left]

/-- A feed fault (R25). -/
def State.feedFault (s : State) : State :=
  let s1 : State :=
    if s.psq.state = some .feedBounce && s.psq.restPhase = .running then
      { s with psq := { s.psq with restPhase := .awaitingFall, restT := none } }
    else s
  s1.raise .feedFault [seqCode s.psq.state]

/-- PGOOD goes active (R17, R24, R25). -/
def State.pgoodRises (s : State) : State :=
  match s.psq.state with
  | some .starting => s.startedOn
  | some .off | some .resting => s.unadmittedStart
  | some .awaitingSlot => if s.psq.variant = .feedRestore then s.feedFault else s.unadmittedStart
  | some .feedCut | some .feedBounce => s.feedFault
  | _ => s

/-- PGOOD_ACTIVE (R17): a change of the level, counted once PSQ has derived its state (R2). -/
def execPgoodActive (s : State) : Host.Outcome State Fault Refusal :=
  ends s (fun t => if t.psq.state.isSome && !t.psq.pgood then (t.setPgood true).pgoodRises else t)

/-- The rest timer starts and PSQ enters RESTING (R18, R20, R22). -/
def State.toResting (s : State) : State := s.startRest.psqEnter .resting .none

/-- The server has gone off as asked: PWR_PRESS released, the POWER-OFF mark, RESTING (R20). -/
def State.wentOff (s : State) (arg : Nat) : State := ((s.releasePress).mark .powerOff arg).toResting

/-- The server lost power in ON (R20, R92). -/
def State.powerLost (s : State) : State :=
  (((s.mark .powerLost 0).raise .powerLost [SeqState.resting.code]).toResting).guardAsks

/-- PGOOD's fall in FEED-CUT or FEED-BOUNCE with the rest awaiting it (R20). -/
def State.fellAwaited (s : State) (arg : Nat) : State :=
  if s.psq.restPhase = .awaitingFall then (s.mark .powerOff arg).startRest else s

/-- The force timer is stopped. -/
def State.stopForce (s : State) : State := { s with psq := { s.psq with forceT := none } }

/-- PGOOD goes inactive (R20). -/
def State.pgoodFalls (s : State) : State :=
  match s.psq.state with
  | some .stopping => s.wentOff 0
  | some .forcing => s.wentOff 1
  | some .on => s.powerLost
  | some .feedCut => s.fellAwaited 2
  | some .feedBounce => if s.psq.restPhase = .awaitingFall then (s.fellAwaited 3).stopForce else s
  | _ => s

/-- PGOOD_INACTIVE (R20). -/
def execPgoodInactive (s : State) : Host.Outcome State Fault Refusal :=
  ends s (fun t => if t.psq.state.isSome && t.psq.pgood then (t.setPgood false).pgoodFalls else t)

/-- A running timer runs out: station time comes to it, and its event follows (log 4). -/
def State.expires (s : State) (timer : Option Time) (event : State → State) : State :=
  match timer with
  | some due => event (s.timeTo due)
  | none => s

/-- The start limit has passed in STARTING (R18). -/
def State.startFailed (s : State) : State :=
  let s1 : State := { s with psq := { s.psq with startT := none } }
  if s.psq.state = some .starting then
    if s.psq.variant = .feedRestore then
      let s2 := s1.psqEnter .off .none
      if s.psq.pendingAct = .powerOn then (s2.setPending .none).psqEnter .awaitingSlot .powerOn else s2
    else s1.toResting.raise .startFailed [byte (s.setting Settings.startLimit)]
  else s1

/-- START_TIMER_EXPIRY (R18). -/
def execStartTimerExpiry (s : State) : Host.Outcome State Fault Refusal :=
  ends s (fun t => t.expires t.psq.startT State.startFailed)

/-- The settle time has passed: a held slot is released (R19). -/
def State.settled (s : State) : State := ({ s with psq := { s.psq with settleT := none } } : State).releaseSlot

/-- SETTLE_TIMER_EXPIRY (R19). -/
def execSettleTimerExpiry (s : State) : Host.Outcome State Fault Refusal :=
  ends s (fun t => t.expires t.psq.settleT State.settled)

/-- The minimum on time has passed: a deferred off is carried out (R19). -/
def State.youngOver (s : State) : State :=
  let s1 : State := { s with psq := { s.psq with young := false, youngT := none } }
  if s.psq.state = some .on then
    match s.psq.deferred with
    | .none => s1
    | .soft => s1.beginStopping .soft
    | .softThenHard => s1.beginStopping .softThenHard
  else s1

/-- YOUNG_TIMER_EXPIRY (R19). -/
def execYoungTimerExpiry (s : State) : Host.Outcome State Fault Refusal :=
  ends s (fun t => t.expires t.psq.youngT State.youngOver)

/-- The soft-off grace has passed in STOPPING (R21). -/
def State.graceOver (s : State) : State :=
  let s1 : State := { s with psq := { s.psq with graceT := none } }
  if s.psq.state = some .stopping then
    if s.psq.variant = .softThenHard then s1.beginForcing
    else (s1.psqEnter .on .none).raise .softOffIgnored (be 2 (s.setting Settings.grace))
  else s1

/-- GRACE_TIMER_EXPIRY (R21). -/
def execGraceTimerExpiry (s : State) : Host.Outcome State Fault Refusal :=
  ends s (fun t => t.expires t.psq.graceT State.graceOver)

/-- The forced off has failed: the feed is opened (R22). -/
def State.bounce (s : State) : State :=
  let s1 := ((s.releasePress).setFeed false).mark .feedCut 1
  ({ s1 with psq := { s1.psq with restPhase := .awaitingFall } } : State).psqEnter .feedBounce .none

/-- The force limit has passed in FORCING, or in FEED-BOUNCE with PGOOD still active (R22). -/
def State.forceOver (s : State) : State :=
  let s1 := s.stopForce
  match s.psq.state with
  | some .forcing => if s.psq.pgood then s1.bounce else s1.toResting
  | some .feedBounce => if s.psq.pgood then s1.raise .feedFault [SeqState.feedBounce.code] else s1
  | _ => s1

/-- FORCE_TIMER_EXPIRY (R22). -/
def execForceTimerExpiry (s : State) : Host.Outcome State Fault Refusal :=
  ends s (fun t => t.expires t.psq.forceT State.forceOver)

/-- The rest time has passed (R23). -/
def State.restOver (s : State) : State :=
  let s1 : State := { s with psq := { s.psq with restPhase := .satisfied, restT := none } }
  match s.psq.state with
  | some .resting =>
    if s.psq.pendingAct = .powerOn then (s1.setPending .none).psqEnter .awaitingSlot .powerOn else s1.psqEnter .off .none
  | some .feedBounce => s1.psqEnter .awaitingSlot .feedRestore
  | some .feedCut =>
    if s.psq.pendingAct = .feedRestore then (s1.setPending .none).psqEnter .awaitingSlot .feedRestore else s1
  | _ => s1

/-- REST_TIMER_EXPIRY (R23). -/
def execRestTimerExpiry (s : State) : Host.Outcome State Fault Refusal :=
  ends s (fun t => t.expires t.psq.restT State.restOver)

/-- The end of a press pulse, none while no pulse is driven. -/
def Psq.pulseEnd (p : Psq) : Option Time :=
  match p.press with
  | .pulse due => some due
  | _ => none

/-- PRESS_PULSE_END (R1). -/
def execPressPulseEnd (s : State) : Host.Outcome State Fault Refusal :=
  ends s (fun t => t.expires t.psq.pulseEnd State.releasePress)

/-- The end of a long press, none while none is driven. -/
def Psq.longEnd (p : Psq) : Option Time :=
  match p.press with
  | .long due => some due
  | _ => none

/-- LONG_PRESS_END (R1). -/
def execLongPressEnd (s : State) : Host.Outcome State Fault Refusal :=
  ends s (fun t => t.expires t.psq.longEnd State.releasePress)

/-- PWR_RESET is released (R1). -/
def State.releaseReset (s : State) : State := { s with psq := { s.psq with resetPulse := none } }

/-- RESET_PULSE_END (R1, R11). -/
def execResetPulseEnd (s : State) : Host.Outcome State Fault Refusal :=
  ends s (fun t => t.expires t.psq.resetPulse State.releaseReset)

end Sys2Proof.Machine
end

