-- ==== Sys2Proof/Machine/ConsoleSteps.lean ====
section
/-! DEFINITION. The meanings of the console, watcher, watchdog, want-timer and notice-pause commands (R49 to R53, R72,
R76, R80, R90, R146, R200). -/

namespace Sys2Proof.Machine

/-- The receiver takes a state. -/
def State.setRx (s : State) (rx : RxState) : State := { s with ccu := { s.ccu with rx := rx } }

/-- An event of the receiver in one of its states; in another it cannot be happening (log 2). -/
def State.inRx (s : State) (rx : RxState) (event : State → State) : State := if s.ccu.rx = rx then event s else s

/-- CONSOLE_LINE_IDLE: CRXD has been high for a character frame in SEEKING-IDLE (R50). -/
def execConsoleLineIdle (s : State) : Host.Outcome State Fault Refusal :=
  ends s (fun t => t.inRx .seekingIdle (fun u => u.setRx .idle))

/-- CONSOLE_GOOD_BYTE (R52). -/
def execConsoleGoodByte (b : Byte) (s : State) : Host.Outcome State Fault Refusal :=
  ends s (fun t => t.inRx .idle (fun u => u.goodByte b))

/-- CONSOLE_FRAMING_ERROR (R49, R53). -/
def execConsoleFramingError (s : State) : Host.Outcome State Fault Refusal :=
  ends s (fun t => t.inRx .idle (fun u => { u with ccu := u.ccu.countGarbled }))

/-- CONSOLE_BREAK_START (R49, R51). -/
def execConsoleBreakStart (s : State) : Host.Outcome State Fault Refusal :=
  ends s (fun t => t.inRx .idle (fun u => u.setRx .brk))

/-- CONSOLE_BREAK_END (R51). -/
def execConsoleBreakEnd (lengthMs : Nat) (s : State) : Host.Outcome State Fault Refusal :=
  ends s (fun t => t.inRx .brk (fun u => (u.mark .breakIn (sat32 lengthMs)).setRx .idle))

/-- A text byte's stop bit has been sent (R80). -/
def State.textSent (s : State) : State :=
  match s.cfw.tx with
  | .char _ => { s with cfw := s.cfw.itemSent .idle }
  | _ => s

/-- CONSOLE_TEXT_BYTE_SENT (R80). -/
def execConsoleTextByteSent (s : State) : Host.Outcome State Fault Refusal := ends s State.textSent

/-- The 300 ms of a break have ended (R80). -/
def State.breakOutOver (s : State) : State :=
  match s.cfw.tx with
  | .breakLow due => { s.timeTo due with cfw := s.cfw.itemSent .guardHigh }
  | _ => s

/-- CONSOLE_BREAK_OUT_END (R80). -/
def execConsoleBreakOutEnd (s : State) : Host.Outcome State Fault Refusal := ends s State.breakOutOver

/-- CTXD has been high for a character frame after a break (R80). -/
def State.guardOver (s : State) : State :=
  if s.cfw.tx = .guardHigh then { s with cfw := { s.cfw with tx := .idle } } else s

/-- CONSOLE_BREAK_GUARD_END (R80). -/
def execConsoleBreakGuardEnd (s : State) : Host.Outcome State Fault Refusal := ends s State.guardOver

/-- The watcher of a station. -/
def Cfw.watcher (c : Cfw) (station : Nat) : Option Watcher := c.watchers.find? (fun w => w.station = station)

/-- WATCHER_WAIT_EXPIRY: 20 ms have passed since the wait start, and the watcher is served if its turn comes (R72). -/
def execWatcherWaitExpiry (station : BitVec 6) (s : State) : Host.Outcome State Fault Refusal :=
  ends s (fun t =>
    t.expires (((t.cfw.watcher station.toNat).bind Watcher.waitStart).map (fun start => after start 20)) id)

/-- A watcher's pause ends. -/
def State.pauseOver (s : State) (station : Nat) : State :=
  { s with cfw := { s.cfw with watchers := s.cfw.watchers.map (fun w =>
      if w.station = station then { w with pause := none } else w) } }

/-- WATCHER_PAUSE_EXPIRY (R72, R76). -/
def execWatcherPauseExpiry (station : BitVec 6) (s : State) : Host.Outcome State Fault Refusal :=
  ends s (fun t => t.expires ((t.cfw.watcher station.toNat).bind Watcher.pause) (fun u => u.pauseOver station.toNat))

/-- The deadline has been reached (R90): the record is ARMED and PSQ is in ON. -/
def State.deadlineReached (s : State) : State :=
  if s.wdu.armed && s.psq.state = some .on then s.watchdogExpiry 1 else s

/-- WATCHDOG_DEADLINE_EXPIRY (R90). -/
def execWatchdogDeadlineExpiry (s : State) : Host.Outcome State Fault Refusal :=
  ends s (fun t => t.expires t.wdu.deadline State.deadlineReached)

/-- A want's timer has run out (R146). -/
def State.wantExpired (s : State) (w : Want) : State :=
  if w.tries < 3 then
    { s with xch := { s.xch with wants := s.xch.wants.map (fun v =>
        if v.line = w.line then { v with tries := v.tries + 1, state := .queued .held, timer := none } else v) } }
  else
    ({ s with
      lpm := s.lpm.freeFilling w.line
      xch := { s.xch with wants := s.xch.wants.filter (fun v => v.line ≠ w.line) } } : State).wantEnded w.key false

/-- A want waits for a give, its timer running (R140). -/
def Want.waits (w : Want) : Bool := w.state = .sent || w.state = .riding

/-- The want at a place of the list, if its timer runs. -/
def Xch.timedWant (x : Xch) (place : Nat) : Option Want :=
  match x.wants[place]? with
  | some w => if w.waits then some w else none
  | none => none

/-- WANT_TIMER_EXPIRY (R146). -/
def execWantTimerExpiry (place : Nat) (s : State) : Host.Outcome State Fault Refusal :=
  ends s (fun t =>
    match t.xch.timedWant place with
    | some w => t.expires w.timer (fun u => u.wantExpired w)
    | none => t)

/-- NOTICE_PAUSE_EXPIRY (R200). -/
def execNoticePauseExpiry (s : State) : Host.Outcome State Fault Refusal :=
  ends s (fun t => t.expires t.ntu.pause (fun u => { u with ntu := { u.ntu with pause := none } }))

end Sys2Proof.Machine
end

