-- ==== Sys2Proof/Machine/LaneSteps.lean ====
section
/-! DEFINITION. The meanings of the lane, membership and admission-timer commands (R34, R157 to R173, R177, R182). -/

namespace Sys2Proof.Machine

/-- The presence period: 1,000 ms without a record (R178). -/
def State.period (s : State) : Nat := (s.sld.settings.map Settings.presenceMs).getD 1000

/-- A presence-period boundary (R177, R182, R184). -/
def State.boundary (s : State) : State :=
  match s.ptu.boundary with
  | some due =>
    let s1 := s.timeTo due
    let s2 := ({ s1 with ptu := { s1.ptu with boundary := some (after due s.period) } } : State).agePeers
    (if s2.ptu.state = .listen then s2.enterMember else s2).offerBeacon
  | none => s

/-- PRESENCE_BOUNDARY (R182). -/
def execPresenceBoundary (s : State) : Host.Outcome State Fault Refusal := ends s State.boundary

/-- The quiet count reaches 16 in SYNCING or DISCARDING (R158), a tenure of this station's having ended. -/
def State.syncQuiet (s : State) : State :=
  if (s.lif.engine = .syncing || s.lif.engine = .discarding) && s.lif.tenure.isNone then
    { s with lif := { s.lif with engine := s.lif.engine.next .quiet16, quiet := 16, drove := .nothing } }
  else s

/-- LANE_SYNC_QUIET (R158). -/
def execLaneSyncQuiet (s : State) : Host.Outcome State Fault Refusal := ends s State.syncQuiet

/-- The quiet count reaches 48 with the sit-out flag set (R157). -/
def State.clearSitOut (s : State) : State :=
  if s.lif.engine = .quiet && s.lif.sitOut then { s with lif := { s.lif with sitOut := false, quiet := 48 } } else s

/-- SIT_OUT_CLEAR (R157). -/
def execSitOutClear (s : State) : Host.Outcome State Fault Refusal := ends s State.clearSitOut

/-- The head of the send list, ready, begins its tenure from QUIET once the quiet count has reached the gap. The command
tells that the short gap is reached; the long one is reached when SIT_OUT_CLEAR has told it (R157, R159; log 11). -/
def State.bidBegin (s : State) : State :=
  if s.lif.engine = .quiet && s.lif.gap ≤ max s.lif.quiet 16 && s.sends then
    match s.lif.head with
    | some e =>
      match s.tenureBody e with
      | some body => s.beginTenure e (s.tenureFrame e body)
      | none => s
    | none => s
  else s

/-- LANE_BID_BEGIN (R159). -/
def execLaneBidBegin (s : State) : Host.Outcome State Fault Refusal := ends s State.bidBegin

/-- A millisecond of station time; none while RSTN is asserted (log 3). A bid byte lasts less, so a bid that BID_LOST has
not ended has survived (R158; log 12). -/
def State.tick (s : State) : State :=
  if s.rstn then s else { s with now := s.now + 1, lif := { s.lif with engine := s.lif.engine.next .survive } }

/-- The entry and the frame of this station's tenure. -/
def State.tenured (s : State) : Option (SendEntry × LaneFrame) :=
  match s.lif.tenure with
  | some t => (s.lif.entry t.seq).map (fun e => (e, t.frame))
  | none => none

/-- LIF after a withdrawal or a mismatch: LTX released, the engine a receiver of the rest (R158, R160). -/
def Lif.becomesReceiver (l : Lif) (event : LaneEvent) (tenure : Option Tenure) : Lif :=
  { l with engine := l.engine.next event, ltx := false, drove := .nothing, tenure := tenure }

/-- The bidder withdraws: its frame stays in its place with its retry count (R160). -/
def State.withdrawBid (s : State) : State :=
  match s.tenured with
  | some (e, f) =>
    ({ s with lif := (s.lif.setTenure e.seq false).becomesReceiver .withdraw none } : State).report e f .lostBid
  | none => s

/-- The sender stops on a mismatch and receives the rest, its outcome SPOILED held (R160, R173). -/
def State.mismatch (s : State) : State :=
  { s with lif := s.lif.becomesReceiver .mismatch (s.lif.tenure.map (fun t => { t with stopped := true })) }

/-- The station reads dominant where it drove recessive: in the bid it withdraws, after it the sender stops (R160). -/
def State.loseBid (s : State) : State :=
  match s.lif.engine with
  | .bidding => s.withdrawBid
  | .sending => s.mismatch
  | _ => s

/-- BID_LOST (R160). -/
def execBidLost (s : State) : Host.Outcome State Fault Refusal := ends s State.loseBid

/-- A receiver finds an error: what it drives, and DISCARDING (R156, R162). -/
def State.receiveError (s : State) (error : RxError) (tailRemains : Bool) : State :=
  if s.lif.reads then
    { s with lif := { s.lif with
        engine := s.lif.engine.run [.leadBit false, .errorFound]
        quiet := 0
        sitOut := false
        drove := s.errorDrive error tailRemains } }
  else s

/-- RECEIVE_ERROR (R162). -/
def execReceiveError (error : RxError) (tailRemains : Bool) (s : State) : Host.Outcome State Fault Refusal :=
  ends s (fun t => t.receiveError error tailRemains)

/-- The REPLY to RESTART has ended with TAKEN or GIVEN-UP (R175, R196). -/
def State.restartEnds (s : State) (e : SendEntry) (how : TenureEnd) : Bool :=
  s.ord.restartReply = some e.seq && (match s.tenureReport e (TenureEnd.outcome how) with
    | .taken => true
    | .givenUp => true
    | _ => false)

/-- A sender that went on to its mismatch within this command has stopped there (R160). -/
def State.stopSending (s : State) : State :=
  if s.lif.isSending then
    ({ s with lif := { s.lif with engine := s.lif.engine.next .survive } } : State).mismatch
  else s

/-- The tenure as the sender stood at its end: a stopped one has received the rest and found its error (R160, R162). -/
def State.tenureRest (s : State) (how : TenureEnd) : State :=
  match how with
  | .stopped error tailRemains => s.stopSending.receiveError error tailRemains
  | .slots _ _ => s

/-- The tenure can have ended so: a stopped sender reads no slots (R164, R165). -/
def Lif.endsAs (l : Lif) (how : TenureEnd) : Bool :=
  match how with
  | .slots _ _ => l.isSending
  | .stopped _ _ => l.isSending || l.isStopped

/-- A tenure that this station sent ends; the warm restart begins at the end of RESTART's REPLY (R165, R175). -/
def State.tenureEnds (s : State) (how : TenureEnd) (straps : Straps) : State :=
  if s.lif.endsAs how then
    match s.tenured with
    | some (e, f) =>
      if s.restartEnds e how then s.warmRestart straps else (s.tenureRest how).endTenure e f how
    | none => s
  else s

/-- SENDER_TENURE_END (R165). -/
def execSenderTenureEnd (how : TenureEnd) (straps : Straps) (s : State) : Host.Outcome State Fault Refusal :=
  ends s (fun t => t.tenureEnds how straps)

/-- A frame read whole carries this station's number (R173). -/
def State.isDuplicate (s : State) (f : LaneFrame) : Bool := s.mayDuplicate && f.sender.toNat = s.own

/-- A frame of another station completes unspoiled: it is taken or not, presented, and queued frames are handed over
(R163, R164, R171 to R173). A sender that stopped can read no number whole but its own (R160). -/
def State.frameComplete (s : State) (f : LaneFrame) (handovers : Nat) : State :=
  if s.lif.reads && LaneFrame.wellFormed f then
    if s.isDuplicate f then s.enterSilent
    else if s.lif.tenure.isSome then s
    else
      let s1 := (({ s with lif := s.lif.passed } : State).holdTake f).placeTake
      State.handOvers handovers (s1.present f)
  else s

/-- FRAME_COMPLETE_UNSPOILED (R164). -/
def execFrameCompleteUnspoiled (frame : LaneFrame) (handovers : Nat) (s : State) : Host.Outcome State Fault Refusal :=
  ends s (fun t => t.frameComplete frame handovers)

/-- A frame read whole is spoiled: its take is undone (R163, R173). -/
def State.frameSpoiled (s : State) (f : LaneFrame) : State :=
  if s.lif.reads && LaneFrame.wellFormed f then
    if s.isDuplicate f then s.enterSilent
    else if s.lif.tenure.isSome then s
    else (({ s with lif := s.lif.passed } : State).holdTake f).undoTake
  else s

/-- RECEIVED_FRAME_SPOILED (R163). -/
def execReceivedFrameSpoiled (frame : LaneFrame) (s : State) : Host.Outcome State Fault Refusal :=
  ends s (fun t => t.frameSpoiled frame)

/-- A frame read whole with this station's number as sender, not its own; a sender reads it once it has withdrawn or
stopped on a mismatch, which may be within this command (R160, R173). -/
def State.duplicate (s : State) : State :=
  if s.mayDuplicate && (s.lif.reads || s.lif.isSending) then s.enterSilent else s

/-- DUPLICATE_STATION_NUMBER (R173). -/
def execDuplicateStationNumber (s : State) : Host.Outcome State Fault Refusal := ends s State.duplicate

/-- The expired set takes a station for one presence period (R34). -/
def State.expire (s : State) (x : Nat) : State :=
  let others := s.adm.expired.filter (fun e => e.1 ≠ x)
  { s with adm := { s.adm with expired := others ++ [(x, after s.now (s.setting Settings.presenceMs))] } }

/-- A roster entry reaches the hold limit (R34, R41). -/
def State.holdLimitReached (s : State) (x : Nat) : State :=
  match s.adm.roster.find? (fun e => e.1 = x) with
  | some (_, start) =>
    let s1 := ((s.timeTo (after start s.holdLimit)).expire x).admChange (fun a => a.release x)
    if s.serving && x = s.own then s1.slotEnded else s1
  | none => s

/-- ENTRY_HOLD_LIMIT (R34). -/
def execEntryHoldLimit (station : BitVec 6) (s : State) : Host.Outcome State Fault Refusal :=
  ends s (fun t => t.holdLimitReached station.toNat)

/-- A station's presence period in the expired set has ended (R34). -/
def State.expiredOver (s : State) (x : Nat) : State :=
  match s.adm.expired.find? (fun e => e.1 = x) with
  | some (_, due) =>
    { s.timeTo due with adm := { s.adm with expired := s.adm.expired.filter (fun e => e.1 ≠ x) } }
  | none => s

/-- EXPIRED_SET_TIMEOUT (R34). -/
def execExpiredSetTimeout (station : BitVec 6) (s : State) : Host.Outcome State Fault Refusal :=
  ends s (fun t => t.expiredOver station.toNat)

end Sys2Proof.Machine
end

