-- ==== Sys2Proof/Machine/MediaSteps.lean ====
section
/-! DEFINITION. The meanings of the media and USB commands (R118 to R125, R130, R134). -/

namespace Sys2Proof.Machine

/-- DRAIN_TIMER_EXPIRY: the request in progress is aborted and the teardown begins (R134). -/
def execDrainTimerExpiry (s : State) : Host.Outcome State Fault Refusal :=
  ends s (fun t => t.expires t.mfn.drain State.closeRequest)

/-- READ (R123, R125, R126). -/
def execRead (first : BitVec 32) (count : Nat) (s : State) : Host.Outcome State Fault Refusal :=
  ends s (fun t =>
    if countWellFormed count then
      t.serverRequest false (some (first.toNat, count)) (fun u => u.beginRequest .read first.toNat count)
    else t)

/-- WRITE (R123, R125, R130). A refused WRITE's data phase is discarded in this step (log 20). -/
def execWrite (first : BitVec 32) (count : Nat) (s : State) : Host.Outcome State Fault Refusal :=
  ends s (fun t =>
    if countWellFormed count then
      t.serverRequest true (some (first.toNat, count)) (fun u => u.beginRequest .write first.toNat count)
    else t)

/-- A step's blocks come into the step buffer of a WRITE that waits for them, and the delivery point passes them (R125,
R130), while the port is SUSPENDED as well, the model's choice (log 53). -/
def State.stepData (s : State) (data : Bytes) : State :=
  match s.mfn.request with
  | some r =>
    match r.steps.find? (fun st => !st.isDone) with
    | some st =>
      if r.kind = .write && st.state = .pending && r.buffer.isNone && data.length = 512 * st.blocks.length then
        s.setRequest { r with buffer := some (st.line, data), delivery := r.delivery + st.blocks.length }
      else s
    | none => s
  | none => s

/-- WRITE_STEP_DATA_RECEIVED (R130). -/
def execWriteStepDataReceived (data : Bytes) (s : State) : Host.Outcome State Fault Refusal :=
  ends s (fun t => if stepDataWellFormed data then t.stepData data else t)

/-- CAPACITY (R124). -/
def execCapacity (s : State) : Host.Outcome State Fault Refusal :=
  ends s (fun t => t.serverRequest false none (fun u =>
    { u with mfn := { u.mfn with usbData := be 4 u.mfn.capacity, usbStatus := some .good } }))

/-- GOOD is sent for a request without a transfer list (R124). -/
def State.answerGood (s : State) : State := { s with mfn := { s.mfn with usbStatus := some .good } }

/-- READY (R124). -/
def execReady (s : State) : Host.Outcome State Fault Refusal :=
  ends s (fun t => t.serverRequest false none State.answerGood)

/-- EJECT (R124, R117). -/
def execEject (s : State) : Host.Outcome State Fault Refusal :=
  ends s (fun t => t.serverRequest false none (fun u => u.answerGood.detachTrigger .eject))

/-- The port takes a state. -/
def State.setPort (s : State) (port : Port) : State := { s with mfn := { s.mfn with port := port } }

/-- The server reaches the device on the bus: CONNECTED or CONFIGURED. -/
def Mfn.onBus (m : Mfn) : Bool := m.port = .connected || m.port = .configured

/-- A standard device request on the control endpoint (R118; log 22). -/
def Mfn.standard (m : Mfn) (request : UsbRequest) : Mfn :=
  match request with
  | .getDescriptor which => { m with usbControl := Config.usbDescriptor which }
  | .setAddress address => { m with address := address, usbControl := [] }

/-- USB_STANDARD_REQUEST (R118). -/
def execUsbStandardRequest (request : UsbRequest) (s : State) : Host.Outcome State Fault Refusal :=
  ends s (fun t => if t.mfn.onBus then { t with mfn := t.mfn.standard request } else t)

/-- USB_SET_CONFIGURATION (R118). -/
def execUsbSetConfiguration (s : State) : Host.Outcome State Fault Refusal :=
  ends s (fun t => if t.mfn.port = .connected then t.setPort .configured else t)

/-- USB_CLEAR_CONFIGURATION (R118, R120). -/
def execUsbClearConfiguration (s : State) : Host.Outcome State Fault Refusal :=
  ends s (fun t => if t.mfn.port = .configured then (t.setPort .connected).closeRequest else t)

/-- The pull-up is on and the port is in one of the three states it then has (R118). -/
def Mfn.attachedToBus (m : Mfn) : Bool := m.onBus || m.port = .suspended

/-- USB_BUS_RESET (R120, R122). -/
def execUsbBusReset (s : State) : Host.Outcome State Fault Refusal :=
  ends s (fun t =>
    if t.mfn.attachedToBus then ({ t with mfn := t.mfn.portLost .connected } : State).closeRequest else t)

/-- USB_BUS_IDLE_SUSPEND (R118). -/
def execUsbBusIdleSuspend (s : State) : Host.Outcome State Fault Refusal :=
  ends s (fun t =>
    if t.mfn.onBus then { t with mfn := { t.mfn with port := .suspended, remembered := t.mfn.port } } else t)

/-- The port returns to the state remembered at suspend (R118). -/
def State.resumePort (s : State) : State := if s.mfn.port = .suspended then s.setPort s.mfn.remembered else s

/-- USB_BUS_ACTIVITY_RESUME (R118). -/
def execUsbBusActivityResume (s : State) : Host.Outcome State Fault Refusal := ends s State.resumePort

/-- USB_RESUME_SIGNALLING_END (R122). -/
def execUsbResumeSignallingEnd (s : State) : Host.Outcome State Fault Refusal :=
  ends s (fun t =>
    t.expires t.mfn.resume (fun u => ({ u with mfn := { u.mfn with resume := none } } : State).resumePort))

/-- The remote-wake-enabled flag follows the server's feature request (R122). -/
def State.setRemoteWake (s : State) (on : Bool) : State :=
  if s.mfn.onBus then { s with mfn := { s.mfn with remoteWake := on } } else s

/-- USB_SET_REMOTE_WAKE (R122). -/
def execUsbSetRemoteWake (s : State) : Host.Outcome State Fault Refusal := ends s (fun t => t.setRemoteWake true)

/-- USB_CLEAR_REMOTE_WAKE (R122). -/
def execUsbClearRemoteWake (s : State) : Host.Outcome State Fault Refusal := ends s (fun t => t.setRemoteWake false)

/-- VBSENSE stands at a level. -/
def State.setVbsense (s : State) (high : Bool) : State := { s with pins := { s.pins with vbsense := high } }

/-- VBSENSE goes high: DISCONNECTED, and CONNECTED at once if the attachment is ATTACHED (R118, R119, R121). -/
def State.vbusRises (s : State) : State :=
  if s.mfn.port = .unpowered then s.setPort (if s.mfn.state = .attached then .connected else .disconnected) else s

/-- VBSENSE_HIGH (R118). The pin's level is followed under RSTN too (log 10). -/
def execVbsenseHigh (s : State) : Host.Outcome State Fault Refusal :=
  ends (s.setVbsense true) State.vbusRises

/-- VBSENSE_LOW (R121). The pin's level is followed under RSTN too (log 10). -/
def execVbsenseLow (s : State) : Host.Outcome State Fault Refusal :=
  ends (s.setVbsense false) (fun t => ({ t with mfn := t.mfn.portLost .unpowered } : State).closeRequest)

end Sys2Proof.Machine
end

