-- ==== Sys2Proof/Machine/MemorySteps.lean ====
section
/-! DEFINITION. The meanings of the memory commands (R54, R74, R98 to R101, R110, R129, R130, R145, R169). -/

namespace Sys2Proof.Machine

/-- The arbiter grants while the memory is UP and no request is in progress (R99), in HALTED-SETUP too while the drain of
R101 lasts (log 39). -/
def State.arbiterGrants (s : State) : State :=
  if s.mctl.mem = .up && s.mctl.current.isNone then { s with mctl := s.mctl.grant s.ccu.buffer.length } else s

/-- ARBITER_GRANT (R99). -/
def execArbiterGrant (s : State) : Host.Outcome State Fault Refusal := ends s State.arbiterGrants

/-- An expiry of the refresh interval adds 1 to the debt, which never passes 8 (R99, R100). -/
def State.refreshOwed (s : State) : State :=
  if s.mctl.mem = .up then { s with mctl := { s.mctl with debt := min 8 (s.mctl.debt + 1) } } else s

/-- REFRESH_INTERVAL_EXPIRY (R100). -/
def execRefreshIntervalExpiry (s : State) : Host.Outcome State Fault Refusal := ends s State.refreshOwed

/-- A refresh has been given: the one in progress, or the one forced within another request at debt 8 (R99, R100). -/
def State.refreshGiven (s : State) : State :=
  match s.mctl.current with
  | some c =>
    if c.req = .refresh then { s with mctl := { s.mctl with debt := s.mctl.debt - 1, current := none } }
    else if 8 ≤ s.mctl.debt then { s with mctl := { s.mctl with debt := s.mctl.debt - 1 } }
    else s
  | none => s

/-- REFRESH_GIVEN (R100). -/
def execRefreshGiven (s : State) : Host.Outcome State Fault Refusal := ends s State.refreshGiven

/-- The answer of a memory completion: a fault where the request reaches past the device (log 30). -/
def completes (s : State) (fits : Bool) (effect : State → State) : Host.Outcome State Fault Refusal :=
  if s.rstn then .next s else if fits then .next (settle (effect s)) else .fault .noSuchAddress

/-- No request is in progress from here on. -/
def State.requestOver (s : State) : State := { s with mctl := { s.mctl with current := none } }

/-- The address of a pool line (R96). -/
def State.lineAt (s : State) (pos : Nat) : Nat := lineAddress s.ccu.ringSize pos

/-- The ring lies in the device. -/
def State.ringFits (s : State) : Bool := s.ccu.ringSize ≤ s.mctl.size

/-- A pool line lies in the device. -/
def State.lineFits (s : State) (pos : Nat) : Bool := s.lineAt pos + 2048 ≤ s.mctl.size

/-- CAPTURE_WRITE_COMPLETE (R54). -/
def execCaptureWriteComplete (s : State) : Host.Outcome State Fault Refusal :=
  match s.mctl.current with
  | some { req := .capture n, reported := _ } => completes s s.ringFits (fun t => t.requestOver.captureStored n)
  | _ => ends s id

/-- CONSOLE_FORWARD_READ_COMPLETE (R56, R74); a read abandoned is discarded (R70, R101). -/
def execConsoleForwardReadComplete (s : State) : Host.Outcome State Fault Refusal :=
  match s.mctl.current with
  | some { req := .forward first finish, reported := rep } =>
    completes s s.ringFits (fun t => if rep then t.requestOver.forwardRead first finish else t.requestOver)
  | _ => ends s id

/-- The want whose line's write has ended leaves the list, its fill buffer freed (R145). -/
def Xch.endWant (x : Xch) (w : Want) : Xch :=
  { x with
    wants := x.wants.filter (fun v => v.line ≠ w.line)
    fillBufs :=
      match w.state with
      | .landing buf => x.fillBufs.set buf none
      | .void buf _ => x.fillBufs.set buf none
      | _ => x.fillBufs }

/-- A fill write has ended: LPM's report, the want's end, and the report to MFN (R110, R145). -/
def State.fillEnded (s : State) (pos : Nat) : State :=
  let (rep, p) := s.lpm.fillDone pos
  let s1 : State := { s with lpm := p }
  match s.xch.wants.find? (fun w => w.line = pos) with
  | some w =>
    let s2 : State := { s1 with xch := s1.xch.endWant w }
    match rep, w.state with
    | .complete, _ => s2.wantEnded w.key true
    | .void, .void _ .retired => s2.wantEnded w.key false
    | .void, _ => s2
    | .none, _ => s1
  | none => s1

/-- LANE_RECEIVE_WRITE_COMPLETE (R110). -/
def execLaneReceiveWriteComplete (s : State) : Host.Outcome State Fault Refusal :=
  match s.mctl.current with
  | some { req := .receive pos data, reported := rep } =>
    completes s (s.lineFits pos) (fun t =>
      let t1 : State := { t.requestOver with sdram := Memory.writeBytes t.sdram (t.lineAt pos) (data.take 2048) }
      if rep then t1.fillEnded pos else t1)
  | _ => ends s id

/-- The blocks of a read transfer, each with its block number (R115). -/
def State.readBlocks (s : State) (m : MediaReq) : List (Nat × Bytes) :=
  m.blocks.map (fun b => (4 * m.lineNo + b, Memory.readBytes s.sdram (s.lineAt m.line + 512 * b) 512))

/-- The blocks of a write transfer, from its data in order, put into the line (R130). -/
def Memory.writeBlocks (m : Memory) (base : Nat) : List Nat → Bytes → Memory
  | [], _ => m
  | b :: bs, data => Memory.writeBlocks (m.writeBytes (base + 512 * b) (data.take 512)) base bs (data.drop 512)

/-- A media transfer has completed: its line is unpinned, and its blocks go on (R106, R129, R130). -/
def State.mediaDone (s : State) (m : MediaReq) (reported : Bool) : State :=
  let s1 := s.requestOver
  let s2 : State :=
    if m.isRead then s1 else { s1 with sdram := Memory.writeBlocks s1.sdram (s1.lineAt m.line) m.blocks m.data }
  if reported then
    let s3 : State := { s2 with lpm := s2.lpm.unpin m.line }
    if m.isRead then s3.readArrived m (s.readBlocks m) else s3.writeArrived m
  else s2

/-- MEDIA_TRANSFER_COMPLETE (R129, R130). -/
def execMediaTransferComplete (s : State) : Host.Outcome State Fault Refusal :=
  match s.mctl.current with
  | some { req := .media m, reported := rep } => completes s (s.lineFits m.line) (fun t => t.mediaDone m rep)
  | _ => ends s id

/-- The data of a lane send read reach the give buffer, or are discarded and the buffer freed (R169). -/
def GiveBuf.arrived (g : GiveBuf) (seq : Nat) (data : Bytes) : GiveBuf :=
  match g with
  | .reading q => if q = seq then .loaded seq data else .reading q
  | .discarding => .free
  | g => g

/-- LANE_SEND_READ_COMPLETE (R169). -/
def execLaneSendReadComplete (s : State) : Host.Outcome State Fault Refusal :=
  match s.mctl.current with
  | some { req := .send pos seq, reported := rep } =>
    completes s (s.lineFits pos) (fun t =>
      let t1 := t.requestOver
      let data := Memory.readBytes t1.sdram (t1.lineAt pos) 2048
      if rep then { t1 with lif := { t1.lif with giveBuf := t1.lif.giveBuf.arrived seq data } } else t1)
  | _ => ends s id

end Sys2Proof.Machine
end

