-- ==== Sys2Proof/Machine/OrderSteps.lean ====
section
/-! DEFINITION. The meanings of the order commands: each decides the WAITING order at the head of the inbox when it is
one of its row (R68, R69, R79, R84 to R86, R116, R117, R190 to R196). -/

namespace Sys2Proof.Machine

/-- CLAIM (R193). -/
def execClaim (s : State) : Host.Outcome State Fault Refusal :=
  ends s (fun t => t.decide .claim (fun o u => .plain (u.actClaim o.sender (field o.params 0 1 = 1))))

/-- RELEASE_CLAIM (R193). -/
def execReleaseClaim (s : State) : Host.Outcome State Fault Refusal :=
  ends s (fun t => t.decide .releaseClaim (fun o u => .plain (u.actReleaseClaim o.sender)))

/-- STATUS (R195). -/
def execStatus (s : State) : Host.Outcome State Fault Refusal :=
  ends s (fun t => t.decide .status (fun _ u => u.actStatus))

/-- WATCH (R68). -/
def execWatch (s : State) : Host.Outcome State Fault Refusal :=
  ends s (fun t => t.decide .watch (fun o u =>
    let a := u.actWatch o.sender (field o.params 0 1) (field o.params 1 8)
    { status := a.1, detail := a.2.1, state := a.2.2 }))

/-- UNWATCH (R69). -/
def execUnwatch (s : State) : Host.Outcome State Fault Refusal :=
  ends s (fun t => t.decide .unwatch (fun o u => .plain (u.actUnwatch o.sender)))

/-- POWER_ON (R8). -/
def execPowerOn (s : State) : Host.Outcome State Fault Refusal :=
  ends s (fun t => t.decide .powerOn (fun _ u => .plain u.actOn))

/-- POWER_OFF_SOFT (R9). -/
def execPowerOffSoft (s : State) : Host.Outcome State Fault Refusal :=
  ends s (fun t => t.decide .powerOffSoft (fun _ u => .plain (u.actOffSoft false)))

/-- POWER_OFF_SOFT_THEN_HARD (R9). -/
def execPowerOffSoftThenHard (s : State) : Host.Outcome State Fault Refusal :=
  ends s (fun t => t.decide .powerOffSoftThenHard (fun _ u => .plain (u.actOffSoft true)))

/-- POWER_OFF_HARD (R10). -/
def execPowerOffHard (s : State) : Host.Outcome State Fault Refusal :=
  ends s (fun t => t.decide .powerOffHard (fun _ u => .plain u.actOffHard))

/-- POWER_RESET (R11). -/
def execPowerReset (s : State) : Host.Outcome State Fault Refusal :=
  ends s (fun t => t.decide .powerReset (fun _ u => .plain (u.actReset 0)))

/-- POWER_CYCLE (R12). -/
def execPowerCycle (s : State) : Host.Outcome State Fault Refusal :=
  ends s (fun t => t.decide .powerCycle (fun _ u => .plain u.actCycle))

/-- POWER_FEED_CUT (R13). -/
def execPowerFeedCut (s : State) : Host.Outcome State Fault Refusal :=
  ends s (fun t => t.decide .powerFeedCut (fun _ u => .plain u.actFeedCut))

/-- POWER_FEED_RESTORE (R14). -/
def execPowerFeedRestore (s : State) : Host.Outcome State Fault Refusal :=
  ends s (fun t => t.decide .powerFeedRestore (fun _ u => .plain u.actFeedRestore))

/-- POWER_WAKE (R15). -/
def execPowerWake (s : State) : Host.Outcome State Fault Refusal :=
  ends s (fun t => t.decide .powerWake (fun _ u => .plain u.actWake))

/-- The action that a WATCHDOG-ARM names (R191). -/
def Order.armAction (o : Order) : FaultAction := (FaultAction.ofCode (field o.params 2 1)).getD .notice

/-- WATCHDOG_ARM (R84). -/
def execWatchdogArm (s : State) : Host.Outcome State Fault Refusal :=
  ends s (fun t => t.decide .watchdogArm (fun o u =>
    .plain (u.actArm (field o.params 0 2) o.armAction (field o.params 3 1 = 1) (field o.params 4 2))))

/-- WATCHDOG_DISARM (R85). -/
def execWatchdogDisarm (s : State) : Host.Outcome State Fault Refusal :=
  ends s (fun t => t.decide .watchdogDisarm (fun _ u => .plain u.actDisarm))

/-- WATCHDOG_RETIME (R86). -/
def execWatchdogRetime (s : State) : Host.Outcome State Fault Refusal :=
  ends s (fun t => t.decide .watchdogRetime (fun o u => .plain (u.actRetime (field o.params 0 2))))

/-- The mode that an ATTACH names (R191). -/
def Order.attachMode (o : Order) : Mode := if field o.params 7 1 = 2 then .overlay else .readOnly

/-- ATTACH (R116). -/
def execAttach (s : State) : Host.Outcome State Fault Refusal :=
  ends s (fun t => t.decide .attach (fun o u =>
    .plain (u.actAttach (field o.params 0 2) (field o.params 2 1) (field o.params 3 4) o.attachMode
      (field o.params 8 1 = 1))))

/-- DETACH (R117). -/
def execDetach (s : State) : Host.Outcome State Fault Refusal :=
  ends s (fun t => t.decide .detach (fun _ u => .plain u.actDetach))

/-- BREAK (R79). -/
def execBreak (s : State) : Host.Outcome State Fault Refusal :=
  ends s (fun t => t.decide .breakOrder (fun o u => .plain (u.actBreak o.sender)))

/-- RESTART (R196). -/
def execRestart (s : State) : Host.Outcome State Fault Refusal :=
  ends s (fun t => t.decide .restart (fun _ u => u.actRestart))

/-- ORDER_NAME_INVALID: the order fails a test of R190; none of its kind reaches a block (R7, R190; log 14). -/
def execOrderNameInvalid (s : State) : Host.Outcome State Fault Refusal :=
  ends s (fun t => t.decide .invalid (fun _ u => { status := .invalid, state := u }))

end Sys2Proof.Machine
end

