-- ==== Sys2Proof/Machine/StartSteps.lean ====
section
/-! DEFINITION. The meanings of the start commands (R26, R97, R102, R202 to R204). -/

namespace Sys2Proof.Machine

/-- COLD_START: every block takes its cold-start state, RSTN is released, the straps are sampled and the start sequence
begins in SETUP, or HALTED-SETUP follows at once for an illegal number (R202). -/
def execColdStart (straps : Straps) (s : State) : Host.Outcome State Fault Refusal :=
  .next (settle (({ s.coldState with rstn := false } : State).beginStart straps false))

/-- RSTN_ASSERTED: every block is held in its cold-start state (R202). -/
def execRstnAsserted (s : State) : Host.Outcome State Fault Refusal := .next { s.coldState with rstn := true }

/-- The EEPROM's device address (R203). -/
def eepromAddress : BitVec 7 := 0x53

/-- What SLD drives in a complete attempt: the word address 0, then 512 bytes read from there (R203). -/
def attemptBus : List BusItem :=
  [.start, .device eepromAddress false, .word 0, .word 0, .start, .device eepromAddress true, .acks 511, .nack, .stop]

/-- Why an EEPROM attempt failed (R203): one of the four bytes was not acknowledged, or SDA was low before the first or
the repeated start condition. -/
inductive EepromFault where
  | noAck (byte : Fin 4)
  | sdaLow (repeatedStart : Bool)
deriving DecidableEq, Repr

/-- The failures of an attempt, in the order in which the attempt meets them (R203). -/
def EepromFault.all : List EepromFault := [.sdaLow false, .noAck 0, .noAck 1, .noAck 2, .sdaLow true, .noAck 3]

/-- How much of an attempt SLD drives before the failure: the unacknowledged byte is its last, and a start condition
with SDA low is not given (R203). -/
def attemptDrives : EepromFault → Nat
  | .sdaLow repeatedStart => if repeatedStart then 4 else 0
  | .noAck byte => if byte = 3 then 6 else 2 + byte

/-- What SLD drives in a failed attempt: the attempt up to the failure, then a stop condition (R203). -/
def failedBus (cause : EepromFault) : List BusItem := attemptBus.take (attemptDrives cause) ++ [.stop]

/-- What SLD drove on the setting bus, at the end of an attempt (R203). -/
def State.drivesBus (s : State) (items : List BusItem) : State := { s with sld := { s.sld with bus := items } }

/-- A completed attempt's bytes are validated; an invalid record halts the station (R202, R204). -/
def State.attemptComplete (s : State) (bytes : Bytes) : State :=
  match s.sld.phase with
  | .reading _ =>
    if recordWellFormed bytes then
      let s1 := s.drivesBus attemptBus
      match recordOf bytes with
      | some (r, digest) => { s1 with sld := { s1.sld with phase := .validated r digest } }
      | none => s1.enterHalted
    else s
  | _ => s

/-- EEPROM_ATTEMPT_COMPLETE (R203, R204). -/
def execEepromAttemptComplete (bytes : Bytes) (s : State) : Host.Outcome State Fault Refusal :=
  ends s (fun t => t.attemptComplete bytes)

/-- The failure that ended this attempt: which it was is a free value (log 48). -/
def State.attemptFault (s : State) : EepromFault :=
  EepromFault.all.getD (Config.eepromFailure s.fresh % 6) (.sdaLow false)

/-- A failed attempt: 5 ms and another, or HALTED-SETUP after the third (R203). -/
def State.attemptFailed (s : State) : State :=
  match s.sld.phase with
  | .reading n =>
    let s1 := ({ s with fresh := s.fresh + 1 } : State).drivesBus (failedBus s.attemptFault)
    if n < 3 then { s1 with sld := { s1.sld with phase := .retryWait n (after s1.now 5) } } else s1.enterHalted
  | _ => s

/-- EEPROM_ATTEMPT_FAILED (R203). -/
def execEepromAttemptFailed (s : State) : Host.Outcome State Fault Refusal := ends s State.attemptFailed

/-- The 5 ms have passed and the next attempt begins (R203). -/
def State.retryAttempt (s : State) : State :=
  match s.sld.phase with
  | .retryWait n due => { s.timeTo due with sld := { s.sld with phase := .reading (n + 1) } }
  | _ => s

/-- EEPROM_RETRY_WAIT_EXPIRY (R203). -/
def execEepromRetryWaitExpiry (s : State) : Host.Outcome State Fault Refusal := ends s State.retryAttempt

/-- The validated record is handed over when the start allows (R202). -/
def State.handOverSettings (s : State) : State :=
  match s.sld.phase with
  | .validated r digest => if s.mayHandOver then s.handOverRecord r digest else s
  | _ => s

/-- SETTING_RECORD_HANDOVER (R202, R97, R102). -/
def execSettingRecordHandover (s : State) : Host.Outcome State Fault Refusal := ends s State.handOverSettings

/-- MCTL reports the memory up and the station enters LISTEN (R97, R102, R176). -/
def State.memoryUp (s : State) : State :=
  match s.sld.settings with
  | some r => if s.mctl.comingUp && s.ptu.state = .setup then s.enterListen r else s
  | none => s

/-- MEMORY_BRINGUP_COMPLETE (R97). -/
def execMemoryBringupComplete (s : State) : Host.Outcome State Fault Refusal := ends s State.memoryUp

/-- PSQ, handed the record in serving role, derives its state from the PGOOD pin's level (R2, R26, R27). -/
def State.deriveFromPin (s : State) (pinHigh : Bool) : State :=
  match s.sld.settings, s.psq.state with
  | some r, none => if s.serving then s.derivePsq (pinHigh = r.pgoodHigh) else s
  | _, _ => s

/-- PSQ_STATE_DERIVED (R26). -/
def execPsqStateDerived (pinHigh : Bool) (s : State) : Host.Outcome State Fault Refusal :=
  ends s (fun t => t.deriveFromPin pinHigh)

end Sys2Proof.Machine
end

