-- ==== Sys2Proof/Machine/UplinkSteps.lean ====
section
/-! DEFINITION. The meanings of the uplink line commands (R205, R208). -/

namespace Sys2Proof.Machine

/-- UPLINK_UNIT_RECEIVED: characters arrive that make a unit whole (R205). -/
def execUplinkUnitReceived (bytes : Bytes) (s : State) : Host.Outcome State Fault Refusal :=
  ends s (fun t => t.uplinkChars bytes false)

/-- UPLINK_CHARACTER_TIMEOUT: after these characters more than 1 ms passes inside a unit (R205). -/
def execUplinkCharacterTimeout (bytes : Bytes) (s : State) : Host.Outcome State Fault Refusal :=
  ends s (fun t => t.uplinkChars bytes true)

/-- UPLINK_CHARACTER_FRAMING_ERROR: after these characters one has a framing error (R205). -/
def execUplinkCharacterFramingError (bytes : Bytes) (s : State) : Host.Outcome State Fault Refusal :=
  ends s (fun t => t.uplinkChars bytes true)

/-- The last CRC byte of the unit on UTXD has been sent (R208). -/
def State.unitSent (s : State) : State :=
  if s.upb.tx.isSome then { s with upb := { s.upb with tx := none, inq := s.upb.inq.drop 1 } } else s

/-- UPLINK_UNIT_SENT (R208). -/
def execUplinkUnitSent (s : State) : Host.Outcome State Fault Refusal := ends s State.unitSent

/-- URTS stands at a level. -/
def State.setUrts (s : State) (on : Bool) : State := { s with pins := { s.pins with urts := on } }

/-- URTS_ASSERTED (R208). The pin's level is followed under RSTN too (log 10). -/
def execUrtsAsserted (s : State) : Host.Outcome State Fault Refusal := ends (s.setUrts true) id

/-- URTS_DEASSERTED (R208). The pin's level is followed under RSTN too (log 10). -/
def execUrtsDeasserted (s : State) : Host.Outcome State Fault Refusal := ends (s.setUrts false) id

end Sys2Proof.Machine
end

