-- ==== Sys2Proof/Machine/Dispatch.lean ====
section
/-! DEFINITION. The meaning of each command: one arm per row of spec/opcode_table.json. -/

namespace Sys2Proof.Machine

def exec (i : Instr) (s : State) : Host.Outcome State Fault Refusal :=
  match i with
  | .coldStart straps => Sys2Proof.Machine.execColdStart straps s
  | .rstnAsserted => Sys2Proof.Machine.execRstnAsserted s
  | .eepromAttemptComplete bytes => Sys2Proof.Machine.execEepromAttemptComplete bytes s
  | .eepromAttemptFailed => Sys2Proof.Machine.execEepromAttemptFailed s
  | .eepromRetryWaitExpiry => Sys2Proof.Machine.execEepromRetryWaitExpiry s
  | .settingRecordHandover => Sys2Proof.Machine.execSettingRecordHandover s
  | .memoryBringupComplete => Sys2Proof.Machine.execMemoryBringupComplete s
  | .psqStateDerived pinHigh => Sys2Proof.Machine.execPsqStateDerived pinHigh s
  | .presenceBoundary => Sys2Proof.Machine.execPresenceBoundary s
  | .laneSyncQuiet => Sys2Proof.Machine.execLaneSyncQuiet s
  | .sitOutClear => Sys2Proof.Machine.execSitOutClear s
  | .laneBidBegin => Sys2Proof.Machine.execLaneBidBegin s
  | .bidLost => Sys2Proof.Machine.execBidLost s
  | .senderTenureEnd how straps => Sys2Proof.Machine.execSenderTenureEnd how straps s
  | .receiveError error tailRemains => Sys2Proof.Machine.execReceiveError error tailRemains s
  | .frameCompleteUnspoiled frame handovers => Sys2Proof.Machine.execFrameCompleteUnspoiled frame handovers s
  | .duplicateStationNumber => Sys2Proof.Machine.execDuplicateStationNumber s
  | .entryHoldLimit station => Sys2Proof.Machine.execEntryHoldLimit station s
  | .expiredSetTimeout station => Sys2Proof.Machine.execExpiredSetTimeout station s
  | .arbiterGrant => Sys2Proof.Machine.execArbiterGrant s
  | .refreshIntervalExpiry => Sys2Proof.Machine.execRefreshIntervalExpiry s
  | .refreshGiven => Sys2Proof.Machine.execRefreshGiven s
  | .captureWriteComplete => Sys2Proof.Machine.execCaptureWriteComplete s
  | .consoleForwardReadComplete => Sys2Proof.Machine.execConsoleForwardReadComplete s
  | .laneReceiveWriteComplete => Sys2Proof.Machine.execLaneReceiveWriteComplete s
  | .mediaTransferComplete => Sys2Proof.Machine.execMediaTransferComplete s
  | .laneSendReadComplete => Sys2Proof.Machine.execLaneSendReadComplete s
  | .pgoodActive => Sys2Proof.Machine.execPgoodActive s
  | .pgoodInactive => Sys2Proof.Machine.execPgoodInactive s
  | .startTimerExpiry => Sys2Proof.Machine.execStartTimerExpiry s
  | .settleTimerExpiry => Sys2Proof.Machine.execSettleTimerExpiry s
  | .youngTimerExpiry => Sys2Proof.Machine.execYoungTimerExpiry s
  | .graceTimerExpiry => Sys2Proof.Machine.execGraceTimerExpiry s
  | .forceTimerExpiry => Sys2Proof.Machine.execForceTimerExpiry s
  | .restTimerExpiry => Sys2Proof.Machine.execRestTimerExpiry s
  | .pressPulseEnd => Sys2Proof.Machine.execPressPulseEnd s
  | .longPressEnd => Sys2Proof.Machine.execLongPressEnd s
  | .resetPulseEnd => Sys2Proof.Machine.execResetPulseEnd s
  | .consoleLineIdle => Sys2Proof.Machine.execConsoleLineIdle s
  | .consoleGoodByte byte => Sys2Proof.Machine.execConsoleGoodByte byte s
  | .consoleFramingError => Sys2Proof.Machine.execConsoleFramingError s
  | .consoleBreakStart => Sys2Proof.Machine.execConsoleBreakStart s
  | .consoleBreakEnd lengthMs => Sys2Proof.Machine.execConsoleBreakEnd lengthMs s
  | .consoleTextByteSent => Sys2Proof.Machine.execConsoleTextByteSent s
  | .consoleBreakOutEnd => Sys2Proof.Machine.execConsoleBreakOutEnd s
  | .consoleBreakGuardEnd => Sys2Proof.Machine.execConsoleBreakGuardEnd s
  | .watcherWaitExpiry station => Sys2Proof.Machine.execWatcherWaitExpiry station s
  | .watcherPauseExpiry station => Sys2Proof.Machine.execWatcherPauseExpiry station s
  | .watchdogDeadlineExpiry => Sys2Proof.Machine.execWatchdogDeadlineExpiry s
  | .wantTimerExpiry place => Sys2Proof.Machine.execWantTimerExpiry place s
  | .noticePauseExpiry => Sys2Proof.Machine.execNoticePauseExpiry s
  | .claim => Sys2Proof.Machine.execClaim s
  | .releaseClaim => Sys2Proof.Machine.execReleaseClaim s
  | .status => Sys2Proof.Machine.execStatus s
  | .watch => Sys2Proof.Machine.execWatch s
  | .unwatch => Sys2Proof.Machine.execUnwatch s
  | .powerOn => Sys2Proof.Machine.execPowerOn s
  | .powerOffSoft => Sys2Proof.Machine.execPowerOffSoft s
  | .powerOffSoftThenHard => Sys2Proof.Machine.execPowerOffSoftThenHard s
  | .powerOffHard => Sys2Proof.Machine.execPowerOffHard s
  | .powerReset => Sys2Proof.Machine.execPowerReset s
  | .powerCycle => Sys2Proof.Machine.execPowerCycle s
  | .powerFeedCut => Sys2Proof.Machine.execPowerFeedCut s
  | .powerFeedRestore => Sys2Proof.Machine.execPowerFeedRestore s
  | .powerWake => Sys2Proof.Machine.execPowerWake s
  | .watchdogArm => Sys2Proof.Machine.execWatchdogArm s
  | .watchdogDisarm => Sys2Proof.Machine.execWatchdogDisarm s
  | .watchdogRetime => Sys2Proof.Machine.execWatchdogRetime s
  | .attach => Sys2Proof.Machine.execAttach s
  | .detach => Sys2Proof.Machine.execDetach s
  | .breakOrder => Sys2Proof.Machine.execBreak s
  | .restart => Sys2Proof.Machine.execRestart s
  | .drainTimerExpiry => Sys2Proof.Machine.execDrainTimerExpiry s
  | .read first count => Sys2Proof.Machine.execRead first count s
  | .write first count => Sys2Proof.Machine.execWrite first count s
  | .writeStepDataReceived data => Sys2Proof.Machine.execWriteStepDataReceived data s
  | .capacity => Sys2Proof.Machine.execCapacity s
  | .ready => Sys2Proof.Machine.execReady s
  | .eject => Sys2Proof.Machine.execEject s
  | .usbStandardRequest request => Sys2Proof.Machine.execUsbStandardRequest request s
  | .usbSetConfiguration => Sys2Proof.Machine.execUsbSetConfiguration s
  | .usbClearConfiguration => Sys2Proof.Machine.execUsbClearConfiguration s
  | .usbBusReset => Sys2Proof.Machine.execUsbBusReset s
  | .usbBusIdleSuspend => Sys2Proof.Machine.execUsbBusIdleSuspend s
  | .usbBusActivityResume => Sys2Proof.Machine.execUsbBusActivityResume s
  | .usbResumeSignallingEnd => Sys2Proof.Machine.execUsbResumeSignallingEnd s
  | .usbSetRemoteWake => Sys2Proof.Machine.execUsbSetRemoteWake s
  | .usbClearRemoteWake => Sys2Proof.Machine.execUsbClearRemoteWake s
  | .vbsenseHigh => Sys2Proof.Machine.execVbsenseHigh s
  | .vbsenseLow => Sys2Proof.Machine.execVbsenseLow s
  | .uplinkUnitReceived bytes => Sys2Proof.Machine.execUplinkUnitReceived bytes s
  | .uplinkCharacterTimeout bytes => Sys2Proof.Machine.execUplinkCharacterTimeout bytes s
  | .uplinkUnitSent => Sys2Proof.Machine.execUplinkUnitSent s
  | .urtsAsserted => Sys2Proof.Machine.execUrtsAsserted s
  | .urtsDeasserted => Sys2Proof.Machine.execUrtsDeasserted s
  | .receivedFrameSpoiled frame => Sys2Proof.Machine.execReceivedFrameSpoiled frame s
  | .orderNameInvalid => Sys2Proof.Machine.execOrderNameInvalid s
  | .uplinkCharacterFramingError bytes => Sys2Proof.Machine.execUplinkCharacterFramingError bytes s

end Sys2Proof.Machine
end

