-- ==== Sys2Proof/Machine/Step.lean ====
section
/-! DEFINITION. One step: the command at the front of the queue, or a millisecond of station time. -/

namespace Sys2Proof.Machine

/-- The front command is taken from the queue and run on what is left; on an empty queue a millisecond passes. -/
def step (s : State) : Host.Outcome State Fault Refusal :=
  match s.pending with
  | c :: rest => exec c { s with pending := rest }
  | [] => .next s.tick

/-- A command put at the front of the queue. -/
def State.push (s : State) (c : Instr) : State := { s with pending := c :: s.pending }

/-- The state whose next step runs the command that a word spells; the state itself where the word spells none. -/
def State.withFetchWord (s : State) (nbits w : Nat) : State :=
  match decodeTableWord nbits w with
  | some c => s.push c
  | none => s

end Sys2Proof.Machine
end

