-- ==== Sys2Proof/Safety.lean ====
section
/-! DEFINITION. What the statements about the part are said with: the invariants, the state in which nothing is due at the
end of a step, the order at the head of the inbox, and the tables of spec/ that the statements compare the part with. -/

namespace Sys2Proof.Machine

/-! ### Invariants -/

/-- R4's row of one sequencer state: which pending actions, slot, claim, timers and variants it admits. -/
structure Psq.Legal (p : Psq) : Prop where
  slot     : p.slotHeld = true → p.state = some .starting ∨ p.state = some .on ∨ p.state = some .stopping ∨ p.state = some .forcing
  claim    : p.claimAsked = true → p.state = some .awaitingSlot
  start    : p.startT.isSome → p.state = some .starting
  settle   : p.settleT.isSome → p.slotHeld = true
  youngT   : p.youngT.isSome → p.state = some .on
  young    : p.young = true → p.state = some .on
  deferred : p.deferred ≠ .none → p.state = some .on
  grace    : p.graceT.isSome → p.state = some .stopping
  force    : p.forceT.isSome → p.state = some .forcing ∨ p.state = some .feedBounce
  bounce   : p.state = some .feedBounce → p.restT.isSome → p.forceT = none
  rest     : p.restT.isSome → p.state = some .feedCut ∨ p.state = some .feedBounce ∨ p.state = some .resting
  none     : p.state = none → p.pendingAct = .none
  noAct    : (p.state = some .off ∨ p.state = some .on ∨ p.state = some .stopping) → p.pendingAct = .none
  cutAct   : p.state = some .feedCut → p.pendingAct ≠ .powerOn
  cutRest  : p.state = some .feedCut → p.pendingAct = .feedRestore → p.restPhase ≠ .satisfied
  powerAct : (p.state = some .feedBounce ∨ p.state = some .resting ∨ p.state = some .awaitingSlot ∨ p.state = some .starting ∨
    p.state = some .forcing) → p.pendingAct ≠ .feedRestore
  startAct : (p.state = some .awaitingSlot ∨ p.state = some .starting) → p.variant = .powerOn → p.pendingAct = .none
  startVar : (p.state = some .awaitingSlot ∨ p.state = some .starting) → p.variant = .powerOn ∨ p.variant = .feedRestore
  stopVar  : p.state = some .stopping → p.variant = .soft ∨ p.variant = .softThenHard
  feed     : p.state.isSome → (p.feedClosed = false ↔
    (p.state = some .feedCut ∨ p.state = some .feedBounce ∨ (p.state = some .awaitingSlot ∧ p.variant = .feedRestore)))

/-- R28: the roster holds at most A station numbers, none twice; no number stands twice in the waiting list or in both.
A is 0 while no record has been handed over. -/
structure AdmissionOrdered (s : State) : Prop where
  rosterDistinct  : (s.adm.roster.map Prod.fst).Nodup
  waitingDistinct : s.adm.waiting.Nodup
  disjoint        : ∀ x ∈ s.adm.waiting, x ∉ s.adm.roster.map Prod.fst
  bounded         : s.adm.roster.length ≤ s.setting Settings.slotCount
  handed          : s.sld.settings.isSome → s.sld.phase = .handedOver

/-- The text bytes of the CONSOLE-IN frames taken and not yet handed over, in serving role (R78). -/
def Lif.textHeld (l : Lif) : Nat :=
  ((l.recvQueue.filter (fun f => f.kind ≠ FrameKind.order.code)).map (fun f => f.body.length)).sum

/-- The queues and lists lie within the capacities the spec gives them, and no take is held over a step (R28, R54, R58,
R67, R78, R79, R140, R148, R166, R171, R172, R189, R206, R208). The bytes reserved are those of the CONSOLE-IN frames in
the receive queue, and UPB's inbound queue keeps a place for each frame taken or listed for the computer. -/
structure WithinCapacities (s : State) : Prop where
  own       : s.adm.own.length ≤ 4
  sendList  : s.lif.sendList.length ≤ 24
  recvQueue : s.lif.recvQueue.length ≤ 8
  takeHeld  : s.lif.takeHeld = none
  inbox     : s.serving = true → s.ord.inbox.length + s.lif.ordersHeld ≤ 4
  wants     : s.xch.wants.length ≤ 8
  gives     : s.xch.gives.length ≤ 4
  watchers  : s.cfw.watchers.length ≤ 4
  marks     : s.ccu.marks.length ≤ 64
  buffer    : s.ccu.buffer.length ≤ 64
  breaks    : s.cfw.breakCount ≤ 8
  text      : s.serving = true → s.cfw.textCount + s.cfw.reserved ≤ 512
  reserved  : s.serving = true → s.cfw.reserved = s.lif.textHeld
  outbound  : s.upb.outq.length ≤ 16
  inbound   : s.serving = false → s.upb.inq.length + s.lif.recvQueue.length + s.upbListed ≤ 32

/-- The pool's positions rise and lie below the pool size, and so does the recency list (R103, R104, R107). -/
structure Lpm.Placed (p : Lpm) : Prop where
  rising  : p.lines.Pairwise (fun a b => a.1 < b.1)
  below   : ∀ e ∈ p.lines, e.1 < p.poolSize
  recency : ∀ q ∈ p.recency, q < p.poolSize

/-- The pool's records have their places, and the DIRTY lines are at most the pool size less the reserve (R109). -/
structure PoolWithinBounds (p : Lpm) : Prop where
  placed : p.Placed
  dirty  : p.dirtyCount ≤ p.poolSize - p.reserve

/-! ### The end of a step -/

/-- The end of a step finds nothing to do: each of its works is absent. -/
structure State.NothingDue (s : State) : Prop where
  request : s.mfn.request = none
  detach  : s.mfn.state = .detaching → s.mfn.cause.isSome → s.lpm.dirtyCount ≠ 0
  capture : s.ccu.buffer.length ≤ s.mctl.captureCurrent ∨ s.mctl.waitCapture = true
  input   : s.inputDrains = true → s.cfw.tx = .idle → s.cfw.queue = []
  watcher : s.cfw.out = none → ∀ w ∈ s.cfw.watchers, w.isReady s.ccu s.now = false
  refresh : s.mctl.restarting = false
  notice  : s.takesRaises = true → s.ntu.standing = none → s.ntu.pause = none → s.ntu.pending = []
  silent  : s.ptu.state = .silent → s.ord.inbox = [] ∧ ∀ w ∈ s.xch.wants, w.isHeld = false
  offers  : s.offers = []
  give    : ∀ e, s.lif.head = some e → (∃ b, e.payload = .body b) ∨ e.payload = .atTenure ∨ s.lif.giveBuf ≠ .free
  unit    : s.serving = true ∨ s.upb.tx.isSome ∨ s.pins.urts = false ∨ s.upb.inq = []

/-! ### Frames of the power commands -/

/-- What a power event may touch: PSQ with its marks and notices, WDU's record, the attachment it may end, the own-frame
list with the frames it withdraws. Everything else of `t` is as in `s`. -/
def State.PowerFrame (s t : State) : Prop :=
  t = { s with
    now := t.now
    psq := t.psq
    wdu := t.wdu
    ccu := t.ccu
    ntu := t.ntu
    mfn := t.mfn
    adm := { s.adm with own := t.adm.own, kept := t.adm.kept }
    lif := { s.lif with sendList := t.lif.sendList, giveBuf := t.lif.giveBuf }
    mctl := { s.mctl with waitMedia := t.mctl.waitMedia, waitSend := t.mctl.waitSend }
    lpm := { s.lpm with lines := t.lpm.lines, recency := t.lpm.recency }
    xch := { s.xch with wants := t.xch.wants } }

/-- What asking ADM for a retract does (R5, R44, R46): in MEMBER the entry joins the own-frame list and the count goes up
by 1, or a CLAIM with a WITHDRAW behind it is cancelled with it; in LISTEN ADM keeps it; in SILENT nothing is asked. The
list's four places are log 47. -/
structure State.RetractAsked (s t : State) (kind : OwnKind) : Prop where
  silent : s.ptu.state = .silent → t.psq.retract = s.psq.retract ∧ t.adm = s.adm
  member : s.ptu.state = .member → cancelPair (s.adm.ownWith [{ kind := kind }]) = none →
    t.psq.retract = s.psq.retract + 1 ∧ t.adm = { s.adm with own := s.adm.ownWith [{ kind := kind }] }
  cancel : ∀ c w rest, s.ptu.state = .member → cancelPair (s.adm.ownWith [{ kind := kind }]) = some (c, w, rest) →
    t.psq.retract = s.psq.retract ∧ t.adm = { s.adm with own := rest }
  other  : s.ptu.state ≠ .silent → s.ptu.state ≠ .member →
    t.psq.retract = s.psq.retract + 1 ∧ t.adm = { s.adm with kept := s.adm.kept + 1 }

/-- A retract is settled, which leaves ADM this own-frame list (R5, R42): the count goes down by 1, and where that brings
it to 0 in AWAITING-SLOT with the station MEMBER, a claim not yet asked is asked, its CLAIM at the list's tail. A count
that is 0 already stays 0 (log 21, the model's choice). -/
def State.RetractSettles (s u : State) (own : List OwnFrame) : Prop :=
  let claims : Bool := s.psq.state = some .awaitingSlot ∧ s.psq.retract ≤ 1 ∧ s.psq.claimAsked = false ∧
    s.ptu.state = .member
  let start : StartKind := if s.psq.variant = .feedRestore then .feedRestore else .powerOn
  u.psq = { s.psq with retract := s.psq.retract - 1, claimAsked := s.psq.claimAsked || claims } ∧
  u.adm = { s.adm with
    roster := u.adm.roster, waiting := u.adm.waiting
    own := if claims then (own ++ ([{ kind := .claim start }] : List OwnFrame)).take 4 else own }

/-- The frames of a CLAIM cancelled with the WITHDRAW behind it leave the send list (R44), no other frame does. -/
structure Lif.PairCancelled (l k : Lif) (c w : OwnFrame) : Prop where
  leaves : ∀ q x, c.standing = .listed q ∨ w.standing = .listed q → l.entry q = some x → x.inTenure = false →
    k.entry q = none
  stays  : ∀ x ∈ l.sendList, c.standing.isAt x.seq = false → w.standing.isAt x.seq = false → x ∈ k.sendList

/-- PSQ's slot is released where it is held (R5). -/
def State.SlotReleased (s t : State) : Prop :=
  (s.psq.slotHeld = true → s.RetractAsked t .release) ∧
  (s.psq.slotHeld = false → t.psq.retract = s.psq.retract ∧ t.adm = s.adm)

/-- A claim is asked on entry to AWAITING-SLOT (R5): in MEMBER with retract count 0. -/
def State.claimsNow (s : State) : Bool := s.ptu.state = .member && s.psq.retract = 0

/-- What a grant does (R16): in AWAITING-SLOT with the claim asked PSQ takes the slot and starts, by a press pulse for
POWER-ON, by closing FEED_EN with its mark for FEED-RESTORE, and is ON at once where PGOOD is already active (R17; log 21
for the POWER-STATE of a slot released in the same event); in any other condition a release is asked and nothing else. A
claim with its withdraw behind it may be cancelled where a release joins the list, which is told of elsewhere. -/
structure State.GrantTaken (s u : State) : Prop where
  powerOn  : s.psq.state = some .awaitingSlot → s.psq.claimAsked = true → s.psq.variant = .powerOn →
    u.psq = { s.psq with
      state := some .starting, slotHeld := true, claimAsked := false, press := .pulse (after s.now 200)
      startT := some (after s.now (1000 * s.setting Settings.startLimit)) } ∧
    u.ntu = (s.raise .powerState [6, 1, s.psq.pendingAct.code, 1]).ntu ∧ u.ccu = s.ccu ∧ u.wdu = s.wdu
  restore  : s.psq.state = some .awaitingSlot → s.psq.claimAsked = true → s.psq.variant = .feedRestore →
    s.psq.pgood = false →
    u.psq = { s.psq with
      state := some .starting, slotHeld := true, claimAsked := false, feedClosed := true
      startT := some (after s.now (1000 * s.setting Settings.startLimit)) } ∧
    u.ntu = (s.raise .powerState [6, 2, s.psq.pendingAct.code, 1]).ntu ∧
    u.ccu = s.ccu.addMark s.now .feedRestored 0 ∧ u.wdu = s.wdu
  alreadyUp : s.psq.state = some .awaitingSlot → s.psq.claimAsked = true → s.psq.variant = .feedRestore →
    s.psq.pgood = true → (s.setting Settings.settle = 0 → cancelPair (s.adm.ownWith [{ kind := .release }]) = none) →
    u.psq = { s.psq with
      state := some .on, variant := .none, pendingAct := .none, claimAsked := false, feedClosed := true, startT := none
      young := true, youngT := some (after s.now (1000 * s.setting Settings.young)), restPhase := .none, restT := none
      slotHeld := s.setting Settings.settle ≠ 0
      settleT :=
        if s.setting Settings.settle = 0 then none else some (after s.now (1000 * s.setting Settings.settle))
      retract := if s.setting Settings.settle = 0 then s.psq.retract + 1 else s.psq.retract } ∧
    u.ntu = ((s.raise .powerState [6, 2, s.psq.pendingAct.code, 1]).raise .powerState [7, 0, 0, 1]).ntu ∧
    u.ccu = (s.ccu.addMark s.now .feedRestored 0).addMark s.now .powerOn 0 ∧
    u.wdu = { s.wdu with
      early := 0, lastBeat := none, holdoff := false
      deadline := if s.wdu.armed then some (after s.now (1000 * s.wdu.bootAllowance)) else s.wdu.deadline
      phase := if s.wdu.armed then .boot else s.wdu.phase }
  refused  : s.psq.state ≠ some .awaitingSlot ∨ s.psq.claimAsked = false →
    cancelPair (s.adm.ownWith [{ kind := .release }]) = none →
    u.psq = { s.psq with retract := s.psq.retract + 1 } ∧ u.ntu = s.ntu ∧ u.ccu = s.ccu ∧ u.wdu = s.wdu

/-- A release is asked at a grant: by R16 where it is no start, and by R17 at settle time 0. -/
def State.grantReleases (s : State) : Bool :=
  s.psq.state ≠ some .awaitingSlot || !s.psq.claimAsked ||
    (s.psq.variant = .feedRestore && s.psq.pgood && s.setting Settings.settle = 0)

/-! ### Beacons -/

/-- The bytes of a beacon's body, as 9.3 lays them out. -/
def Beacon.bytes (b : Beacon) : Bytes :=
  [Role.code b.role, b.state.code] ++ be 2 b.digest.toNat ++ [b.seq.state, b.seq.variant, b.seq.pendingAct, b.seq.slotHeld] ++
  be 2 b.attach.1 ++ be 1 b.attach.2 ++ (byte b.roster.length :: b.roster.map byte) ++
  (byte b.waiting.length :: b.waiting.map byte) ++ [byte b.holder]

/-- A beacon whose fields fit their bytes, of a station that sends beacons (R183). -/
structure Beacon.Fits (b : Beacon) : Prop where
  state   : b.state = .member ∨ b.state = .haltedSetup
  attach  : b.attach.1 < 65536 ∧ b.attach.2 < 256
  roster  : b.roster.length ≤ 16 ∧ ∀ y ∈ b.roster, y < 256
  waiting : b.waiting.length ≤ 62 ∧ ∀ y ∈ b.waiting, y < 256
  holder  : b.holder < 256

/-- Another station's frame ends while this station reads it: no tenure of its own is current, and the frame's sender is
another station of a legal number. -/
structure State.Reads (s : State) (f : LaneFrame) : Prop where
  released : s.rstn = false
  engine   : s.lif.engine = .quiet ∨ s.lif.engine = .receiving
  tenure   : s.lif.tenure = none
  body     : f.body.length ≤ 2064
  other    : f.sender.toNat ≠ s.own
  legal    : 1 ≤ f.sender.toNat ∧ f.sender.toNat ≤ 62

/-- LIF after a frame of another station that it took no part in (R157, R158, R163). -/
def Lif.afterFrame (l : Lif) : Lif :=
  { l with engine := .quiet, quiet := 0, sitOut := false, ltx := false, drove := .nothing }

/-- The peer table with a frame heard from a station (R181). -/
def State.hearing (s : State) (x : Nat) : Ptu :=
  s.ptu.setPeer x { s.ptu.peer x with present := true, missed := 0 }

/-! ### Orders -/

/-- An order of a row stands WAITING at the head of the inbox of a serving station in MEMBER and passes the tests of
R190. -/
structure OrderAtHead (s : State) (o : Order) (rest : List Order) (row : OrderRow) : Prop where
  released  : s.rstn = false
  serving   : s.serving = true
  member    : s.ptu.state = .member
  noRestart : s.ord.restartPending = false
  head      : s.ord.inbox = o :: rest
  waiting   : o.standing = .waiting
  row       : o.row = row
  uplink    : (s.ptu.peer o.sender).role = some .uplink
  claim     : ∀ n, o.name = some n → 6 ≤ n → s.ord.holder = some o.sender
  params    : ∀ n, o.name = some n → paramsValid n o.params = true

/-- The order with its REPLY held: tag, status and detail (R192). -/
def Order.replied (o : Order) (status : OrderStatus) (detail : Bytes) (restart : Bool := false) : Order :=
  { o with standing := .replyHeld (o.tag :: status.code :: detail) restart }

/-- The state with its inbox replaced. -/
def State.withInbox (s : State) (inbox : List Order) : State := { s with ord := { s.ord with inbox := inbox } }

/-- The command of a row. -/
def OrderRow.command : OrderRow → Instr
  | .claim => .claim
  | .releaseClaim => .releaseClaim
  | .status => .status
  | .watch => .watch
  | .unwatch => .unwatch
  | .powerOn => .powerOn
  | .powerOffSoft => .powerOffSoft
  | .powerOffSoftThenHard => .powerOffSoftThenHard
  | .powerOffHard => .powerOffHard
  | .powerReset => .powerReset
  | .powerCycle => .powerCycle
  | .powerFeedCut => .powerFeedCut
  | .powerFeedRestore => .powerFeedRestore
  | .powerWake => .powerWake
  | .watchdogArm => .watchdogArm
  | .watchdogDisarm => .watchdogDisarm
  | .watchdogRetime => .watchdogRetime
  | .attach => .attach
  | .detach => .detach
  | .breakOrder => .breakOrder
  | .restart => .restart
  | .invalid => .orderNameInvalid

/-- The rows of the nine power actions (R7). -/
def powerRows : List OrderRow :=
  [.powerOn, .powerOffSoft, .powerOffSoftThenHard, .powerOffHard, .powerReset, .powerCycle, .powerFeedCut,
   .powerFeedRestore, .powerWake]

/-- "Cancel" of the status table: DONE when a pending POWER-ON is cancelled and ALREADY when none is pending. -/
def cancelStatus (p : Psq) : OrderStatus := if p.pendingAct = .powerOn then .done else .already

/-- ACCEPTED, which becomes MISMATCH under the rack-mismatch condition. -/
def startStatus (mismatch : Bool) : OrderStatus := if mismatch then .mismatch else .accepted

/-- The columns of the status table of 01_server_power_sequencer.md for one state, in the table's order of columns. -/
def statusColumns (p : Psq) (st : SeqState) (mismatch wakeable : Bool) : List OrderStatus :=
  let c := cancelStatus p
  let start := startStatus mismatch
  match st with
  | .feedCut => [.busy, .already, .already, .already, .busy, .busy, .already, start, .notWakeable]
  | .feedBounce => [.busy, c, c, c, .busy, .busy, .done, .already, .notWakeable]
  | .resting => [start, c, c, c, .busy, start, .done, .already, .notWakeable]
  | .off => [start, .already, .already, .already, .busy, start, .done, .already, .notWakeable]
  | .awaitingSlot =>
    [if p.variant = .feedRestore then start else .already, .done, .done, .done, .busy, .busy, .done, .already,
      .notWakeable]
  | .starting =>
    [if p.variant = .feedRestore then start else .already, .busy, .busy, .accepted, .busy, .busy, .done, .already,
      .notWakeable]
  | .on =>
    [.already, .accepted, .accepted, .accepted, if p.resetPulse.isSome then .busy else .done, start, .done, .already,
      if wakeable then .done else .notWakeable]
  | .stopping =>
    [.busy, .already, if p.variant = .soft then .accepted else .already, .accepted, .busy, start, .done, .already,
      .notWakeable]
  | .forcing => [.busy, c, c, c, .busy, .busy, .done, .already, .notWakeable]

/-- The status of a power action by the table. -/
def tableStatus (p : Psq) (st : SeqState) (mismatch wakeable : Bool) (row : OrderRow) : Option OrderStatus :=
  (powerRows.zip (statusColumns p st mismatch wakeable)).lookup row

/-- CFW ends the outstanding frame of a watcher that is removed or started anew by the frame's standing (R70): a read is
withdrawn or runs to its end unreported, a HELD frame is discarded, a QUEUED one leaves the send list, and one IN-TENURE
stays, orphaned. The frame of another watcher stays. -/
structure State.OutFrameEnded (s t : State) (x : Nat) : Prop where
  other   : (∀ o, s.cfw.out = some o → o.station ≠ x ∨ o.orphaned = true) →
    t.cfw.out = s.cfw.out ∧ t.lif = s.lif ∧ t.mctl = s.mctl
  waiting : ∀ o r, s.cfw.out = some o → o.station = x → o.orphaned = false → o.standing = .reading →
    s.mctl.waitForward = some r → t.cfw.out = none ∧ t.lif = s.lif ∧ t.mctl = { s.mctl with waitForward := none }
  reading : ∀ o, s.cfw.out = some o → o.station = x → o.orphaned = false → o.standing = .reading →
    s.mctl.waitForward = none → t.cfw.out = none ∧ t.lif = s.lif ∧
      t.mctl = { s.mctl with current := s.mctl.current.map (fun c =>
        match c.req with
        | .forward _ _ => { c with reported := false }
        | _ => c) }
  held    : ∀ o, s.cfw.out = some o → o.station = x → o.orphaned = false → o.standing = .frame .held →
    t.cfw.out = none ∧ t.lif = s.lif ∧ t.mctl = s.mctl
  listed  : ∀ o seq, s.cfw.out = some o → o.station = x → o.orphaned = false → o.standing = .frame (.listed seq) →
    t.cfw.out = none ∧ (∀ e, s.lif.entry seq = some e → e.inTenure = false →
      t.lif.sendList = s.lif.sendList.filter (fun f => f.seq ≠ seq))
  tenure  : ∀ o seq, s.cfw.out = some o → o.station = x → o.orphaned = false → o.standing = .frame (.inTenure seq) →
    t.cfw.out = some { o with orphaned := true } ∧ t.lif = s.lif ∧ t.mctl = s.mctl

/-! ### Media -/

/-- One pin of the line at a position drops (R106): a CLEAN line whose last pin drops goes to the tail of the recency
list, or is FREE where it is doomed; a DIRTY line whose last pin drops is FREE where its release is pending; a FREE
or FILLING line, which has no pin, and every other line stay. -/
structure Lpm.Unpinned (p q : Lpm) (pos : Nat) : Prop where
  clean   : ∀ key pins, p.line pos = some (.clean key pins false) → pins ≤ 1 →
    q.line pos = some (.clean key 0 false) ∧ q.recency = p.recency.filter (fun x => x ≠ pos) ++ [pos]
  doomed  : ∀ key pins, p.line pos = some (.clean key pins true) → pins ≤ 1 →
    q.line pos = none ∧ q.recency = p.recency.filter (fun x => x ≠ pos)
  dirty   : ∀ n mask pins, p.line pos = some (.dirty n mask pins false) → pins ≤ 1 →
    q.line pos = some (.dirty n mask 0 false) ∧ q.recency = p.recency
  release : ∀ n mask pins, p.line pos = some (.dirty n mask pins true) → pins ≤ 1 →
    q.line pos = none ∧ q.recency = p.recency.filter (fun x => x ≠ pos)
  pinned  : (∀ key pins doomed, p.line pos = some (.clean key pins doomed) → 1 < pins →
      q.line pos = some (.clean key (pins - 1) doomed) ∧ q.recency = p.recency) ∧
    (∀ n mask pins pending, p.line pos = some (.dirty n mask pins pending) → 1 < pins →
      q.line pos = some (.dirty n mask (pins - 1) pending) ∧ q.recency = p.recency)
  unheld  : p.line pos = none ∨ (∃ key write, p.line pos = some (.filling key write)) → q = p
  others  : ∀ x, x ≠ pos → q.line x = p.line x
  pool    : q.poolSize = p.poolSize ∧ q.reserve = p.reserve

/-- Pins drop one after the other (R106). -/
inductive Lpm.UnpinnedInTurn : Lpm → List Nat → Lpm → Prop where
  | done (p : Lpm) : p.UnpinnedInTurn [] p
  | next {p q r : Lpm} {pos : Nat} {rest : List Nat} :
    p.Unpinned q pos → q.UnpinnedInTurn rest r → p.UnpinnedInTurn (pos :: rest) r

/-- Lines that become FREE leave the recency list (R107), no other line does, and no FREE line is taken. -/
def Lpm.Frees (p q : Lpm) : Prop :=
  (∀ x, p.line x = none → q.line x = none) ∧
  q.recency = p.recency.filter (fun x => (p.line x).isNone || (q.line x).isSome)

/-- The FILLING lines of wants that are dropped are FREE, or to be freed at the end of their fill write (R111, R147). -/
def Lpm.WantsFreed (p q : Lpm) (dropped : List Want) : Prop :=
  p.Frees q ∧ ∀ pos, q.line pos =
    if ∃ w ∈ dropped, w.line = pos then
      (match p.line pos with
        | some (.filling _ .none) => none
        | some (.filling key .inFlight) => some (.filling key .freePending)
        | l => l)
    else p.line pos

/-- The overlay is released (R113): every DIRTY line is FREE, or has its release pending while pinned. -/
def Lpm.OverlayReleased (p q : Lpm) : Prop :=
  p.Frees q ∧ ∀ pos, q.line pos =
    match p.line pos with
    | some (.dirty n mask pins _) => if pins = 0 then none else some (.dirty n mask pins true)
    | l => l

/-- The frames of wants leave the send list (R143, R147, R153, R168): that of each QUEUED want, unless it is IN-TENURE, and
no other. -/
structure Lif.WantsWithdrawn (l k : Lif) (ws : List Want) : Prop where
  leaves : ∀ w ∈ ws, ∀ seq e, w.state = .queued (.listed seq) → l.entry seq = some e → e.inTenure = false →
    ∀ x ∈ k.sendList, x.seq ≠ seq
  tenure : ∀ seq e, l.entry seq = some e → e.inTenure = true → k.entry seq = some e
  stays  : ∀ e ∈ l.sendList, (∀ w ∈ ws, ∀ st, w.state = .queued st → st.isAt e.seq = false) → e ∈ k.sendList

/-- The teardown's first three steps (R135): DETACHING with the drain timer stopped, the port DISCONNECTED or still
UNPOWERED, every want of the image dropped, one LANDING becoming VOID, their frames withdrawn (R147), no media transfer
waiting, their lines unpinned, and every DIRTY line FREE or pinned with its release pending. That the waiting transfers'
lines are unpinned in queue order (log 49), that resume signalling under way runs on (log 50) and that the USB address
stays (log 40) are the model's choices. -/
structure State.TornDown (s t : State) : Prop where
  frame   : t = { s with
    mfn := { s.mfn with
      state := .detaching
      drain := none
      remoteWake := false
      port := if s.mfn.port = .unpowered then .unpowered else .disconnected }
    mctl := { s.mctl with waitMedia := [], waitSend := t.mctl.waitSend }
    lpm := { s.lpm with lines := t.lpm.lines, recency := t.lpm.recency }
    xch := { s.xch with wants := t.xch.wants }
    lif := { s.lif with sendList := t.lif.sendList, giveBuf := t.lif.giveBuf } }
  wants   : t.xch.wants = s.xch.wants.filterMap (fun w =>
    if w.ofImage s.mfn.image s.mfn.gen then
      match w.state with
      | .landing buf => some { w with state := .void buf .dropped }
      | _ => none
    else some w)
  frames  : s.lif.WantsWithdrawn t.lif (s.xch.wants.filter (fun w => w.ofImage s.mfn.image s.mfn.gen))
  lines   : ∃ p q, s.lpm.WantsFreed p (s.xch.wants.filter (fun w => w.ofImage s.mfn.image s.mfn.gen)) ∧
    p.UnpinnedInTurn (s.mctl.waitMedia.map MediaReq.line) q ∧ q.OverlayReleased t.lpm

/-- The server goes off (R6, R117, R134): a boot-once attachment in ATTACHED with the cause absent takes cause POWER-OFF and
drains for 2 s, or is torn down at once where no request is in progress; in any other case MFN, the pool, the wants and the
waiting transfers stay. -/
def State.BootOnceEnds (s t : State) : Prop :=
  let due := s.mfn.bootOnce = true ∧ s.mfn.state = .attached ∧ s.mfn.cause = none
  let caused : State := { s with
    now := t.now, mfn := { s.mfn with cause := some .powerOff, drain := some (after t.now 2000) } }
  let media := fun (v : State) =>
    t.mfn = v.mfn ∧ t.lpm = v.lpm ∧ t.xch = v.xch ∧ t.mctl.waitMedia = v.mctl.waitMedia
  (due → s.mfn.request.isSome → media caused) ∧
  (due → s.mfn.request = none → ∃ v, caused.TornDown v ∧ media v) ∧
  (¬ due → media s)

/-- A media write's blocks stand in its line, and no other byte changes (R110, R130). -/
def State.BlocksStored (s u : State) (m : MediaReq) : Prop :=
  let base := s.ccu.ringSize + 2048 * m.line
  (∀ j b i, m.blocks[j]? = some b → i < 512 →
    Memory.read u.sdram (base + 512 * b + i) = m.data.getD (512 * j + i) 0) ∧
  (∀ a, (∀ b ∈ m.blocks, a < base + 512 * b ∨ base + 512 * b + 512 ≤ a) →
    Memory.read u.sdram a = Memory.read s.sdram a)

/-- The request with a serial number is no longer served at MCTL (R131, R132): its waiting reads are withdrawn, a read in
progress goes on with its data discarded, and its writes stay. -/
def Mctl.withoutReads (m : Mctl) (serial : Nat) : Mctl :=
  { m with
    waitMedia := m.waitMedia.filter (fun x => !(x.isRead && x.request = serial))
    current := m.current.map (fun c =>
      match c.req with
      | .media x => if x.isRead && x.request = serial then { c with req := .media { x with dropped := true } } else c
      | _ => c) }

/-- The block request that a command carries: whether it writes, and its first block and count. -/
def blockRequest : Instr → Option (Bool × Option (Nat × Nat))
  | .read first count => if 1 ≤ count ∧ count ≤ 256 then some (false, some (first.toNat, count)) else none
  | .write first count => if 1 ≤ count ∧ count ≤ 256 then some (true, some (first.toNat, count)) else none
  | .capacity => some (false, none)
  | .ready => some (false, none)
  | .eject => some (false, none)
  | _ => none

/-- A transfer list covers the blocks first to first + count − 1 in ascending line order, each step within its line. -/
structure CoversBlocks (steps : List XferStep) (first count : Nat) : Prop where
  rising : steps.Pairwise (fun a b => a.line < b.line)
  within : ∀ st ∈ steps, st.first ≤ st.last ∧ st.last ≤ 3
  blocks : ∀ b, (first ≤ b ∧ b < first + count) ↔ ∃ st ∈ steps, st.line = b / 4 ∧ st.first ≤ b % 4 ∧ b % 4 ≤ st.last

/-- R126's table for one step of a READ, with the transfers that it then has to ask (R129): of a MERGE the overlay's first
(log 54, the model's choice), and the base's alone where the overlay holds no block of the step (log 19, deduced). -/
structure State.LookedUp (s : State) (st : XferStep) : Prop where
  overlay : (∀ b, st.first ≤ b → b ≤ st.last → b < 4 → (s.lpm.overlayMask st.line).getLsbD b = true) →
    st.source = .overlay ∧ st.state = .ready ∧ st.todo = [.overlay]
  merge   : ∀ pos key pins, (∃ b < 4, st.first ≤ b ∧ b ≤ st.last ∧ (s.lpm.overlayMask st.line).getLsbD b = false) →
    s.lpm.find (s.mfn.key st.line) = some (pos, .clean key pins false) → (s.lpm.findOverlay st.line).isSome →
    st.source = .merge ∧ st.state = .ready ∧
    ((∃ b < 4, st.first ≤ b ∧ b ≤ st.last ∧ (s.lpm.overlayMask st.line).getLsbD b = true) → st.todo = [.overlay, .base]) ∧
    ((∀ b < 4, st.first ≤ b → b ≤ st.last → (s.lpm.overlayMask st.line).getLsbD b = false) → st.todo = [.base])
  cache   : ∀ pos key pins, st.first ≤ st.last → st.last ≤ 3 → s.lpm.findOverlay st.line = none →
    s.lpm.find (s.mfn.key st.line) = some (pos, .clean key pins false) →
    st.source = .cache ∧ st.state = .ready ∧ st.todo = [.base]
  filling : ∀ pos key write, (∃ b < 4, st.first ≤ b ∧ b ≤ st.last ∧ (s.lpm.overlayMask st.line).getLsbD b = false) →
    s.lpm.find (s.mfn.key st.line) = some (pos, .filling key write) →
    st.source = .fetchThenMerge ∧ st.state = .waiting ∧ st.todo = []
  absent  : (∃ b < 4, st.first ≤ b ∧ b ≤ st.last ∧ (s.lpm.overlayMask st.line).getLsbD b = false) →
    s.lpm.find (s.mfn.key st.line) = none → st.source = .fetchThenMerge ∧ st.state = .pending ∧ st.todo = []

/-- A step is looked up anew: its line and blocks stay (R128, R129). -/
def State.LookedUpAgain (s : State) (old st : XferStep) : Prop :=
  s.LookedUp st ∧ st.line = old.line ∧ st.first = old.first ∧ st.last = old.last

/-- The request with its step of a line replaced. -/
def Request.withStep (r : Request) (st : XferStep) : Request :=
  { r with steps := r.steps.map (fun x => if x.line = st.line then st else x) }

/-! ### Lines taken and pinned -/

/-- A pin is granted at a position (R106): a CLEAN line, which leaves the recency list, or a DIRTY one. -/
structure Lpm.Pinned (p q : Lpm) (pos : Nat) : Prop where
  line   : (∃ key pins, p.line pos = some (.clean key pins false) ∧ q.line pos = some (.clean key (pins + 1) false) ∧
      q.recency = p.recency.filter (fun x => x ≠ pos)) ∨
    (∃ n mask pins, p.line pos = some (.dirty n mask pins false) ∧ q.line pos = some (.dirty n mask (pins + 1) false) ∧
      q.recency = p.recency)
  others : ∀ x, x ≠ pos → q.line x = p.line x
  pool   : q.poolSize = p.poolSize ∧ q.reserve = p.reserve

/-- A line of the pool takes a record (R108, R109): the FREE line at the lowest position, or with none FREE the line at
the head of the recency list, evicted. -/
structure Lpm.Given (p q : Lpm) (pos : Nat) (l : Line) : Prop where
  choice : (pos < p.poolSize ∧ p.line pos = none ∧ (∀ x < pos, p.line x ≠ none) ∧ q.recency = p.recency) ∨
    ((∀ x < p.poolSize, p.line x ≠ none) ∧ (∃ rest, p.recency = pos :: rest) ∧
      q.recency = p.recency.filter (fun x => x ≠ pos))
  line   : q.line pos = some l
  others : ∀ x, x ≠ pos → q.line x = p.line x
  pool   : q.poolSize = p.poolSize ∧ q.reserve = p.reserve

/-- No line can be taken: no pool, or none FREE and none to evict (R108, R114). -/
def Lpm.NoLine (p : Lpm) : Prop := p.poolSize = 0 ∨ ((∀ x < p.poolSize, p.line x ≠ none) ∧ p.recency = [])

/-! ### Wants asked (R126, R127, R133, R141) -/

/-- XCH's answer to a want asked, with the pool and the want list after it (R141): a want of the key stands and turns to
DEMAND where that is asked; the index holds the key; the want list is full; no line; or a want is created. -/
structure WantAsked (key : Key) (purpose : Purpose) (p : Lpm) (ws : List Want) (answer : AskAnswer) (q : Lpm)
    (vs : List Want) : Prop where
  known   : (∃ w ∈ ws, w.isFor key = true) → answer = .created ∧ q = p ∧
    vs = ws.map (fun w => if w.isFor key = true ∧ purpose = .demand then { w with purpose := .demand } else w)
  held    : (∀ w ∈ ws, w.isFor key = false) → (p.find key).isSome → answer = .ready ∧ q = p ∧ vs = ws
  full    : (∀ w ∈ ws, w.isFor key = false) → p.find key = none → 8 ≤ ws.length → answer = .full ∧ q = p ∧ vs = ws
  noLine  : (∀ w ∈ ws, w.isFor key = false) → p.find key = none → ws.length < 8 → p.NoLine →
    answer = .noLine ∧ q = p ∧ vs = ws
  created : (∀ w ∈ ws, w.isFor key = false) → p.find key = none → ws.length < 8 → ¬ p.NoLine →
    answer = .created ∧ ∃ pos, p.Given q pos (.filling key .none) ∧
      vs = ws ++ [{ key := key, purpose := purpose, state := .queued .held, line := pos }]

/-- Readahead's wants for candidate lines in turn (R133): a line that the overlay or the index holds is passed over, and
the first FULL ends it. -/
inductive ReadaheadAsked (m : Mfn) : List Nat → Lpm → List Want → Lpm → List Want → Prop where
  | done (p : Lpm) (ws : List Want) : ReadaheadAsked m [] p ws p ws
  | held {line : Nat} {rest : List Nat} {p q : Lpm} {ws vs : List Want} :
    (p.findOverlay line).isSome ∨ (p.find (m.key line)).isSome → ReadaheadAsked m rest p ws q vs →
    ReadaheadAsked m (line :: rest) p ws q vs
  | full {line : Nat} {rest : List Nat} {p q : Lpm} {ws vs : List Want} :
    p.findOverlay line = none → p.find (m.key line) = none → WantAsked (m.key line) .readahead p ws .full q vs →
    ReadaheadAsked m (line :: rest) p ws q vs
  | asked {line : Nat} {rest : List Nat} {p q r : Lpm} {ws vs us : List Want} {answer : AskAnswer} :
    p.findOverlay line = none → p.find (m.key line) = none → WantAsked (m.key line) .readahead p ws answer q vs →
    answer ≠ .full → ReadaheadAsked m rest q vs r us → ReadaheadAsked m (line :: rest) p ws r us

/-! ### The request in progress (R127, R129 to R132, R134) -/

/-- The request in progress ends: its waiting reads are withdrawn and unpinned in turn, in queue order (log 49, the model's
choice), a read in progress goes on with its data discarded, and a draining attachment is torn down (R131, R132, R134). -/
structure State.RequestEnded (s t : State) : Prop where
  idle : s.mfn.request = none → t = s
  ends : ∀ r, s.mfn.request = some r → ∃ lines recency,
    let ended : State := { s with
      mfn := { s.mfn with request := none }
      mctl := s.mctl.withoutReads r.serial
      lpm := { s.lpm with lines := lines, recency := recency } }
    s.lpm.UnpinnedInTurn ((s.mctl.waitMedia.filter (fun x => x.isRead && x.request = r.serial)).map MediaReq.line)
      ended.lpm ∧
    (s.mfn.draining = false → t = ended) ∧ (s.mfn.draining = true → ended.TornDown t)

/-- The request in progress fails for want of space: SPACE-EXHAUSTED is sent and raised, with the request's kind, the line
and the reason, 1 NO-LINE or 2 DIRTY-LIMIT (R127, R130, R131, R198). -/
def State.SpaceExhausted (s t : State) (kind line reason : Nat) : Prop :=
  ({ s with
    mfn := { s.mfn with usbStatus := some .spaceExhausted }
    ntu := (s.raise .spaceExhausted (byte kind :: (be 4 line ++ [byte reason]))).ntu } : State).RequestEnded t

/-- What the retire of an image generation makes of a line of the pool (R112): one of its FILLING lines is freed or left to
be freed at the end of its fill write, one of its CLEAN lines freed or, while pinned, doomed. -/
def Line.afterRetire (image gen : Nat) (l : Line) : Option Line :=
  match l with
  | .filling k .none => if k.image = image ∧ k.gen = gen then none else some l
  | .filling k .inFlight => if k.image = image ∧ k.gen = gen then some (.filling k .freePending) else some l
  | .clean k pins false =>
    if k.image = image ∧ k.gen = gen then (if pins = 0 then none else some (.clean k pins true)) else some l
  | _ => some l

/-- LPM and XCH retire an image generation (R112, R153, steps 1 and 2): its lines by R112's table, those that become FREE
leaving the recency list; its wants end, one LANDING becoming VOID, and their frames are withdrawn; the gives stay. -/
structure State.PoolRetired (s t : State) (image gen : Nat) : Prop where
  frame  : t = { s with
    lif := { s.lif with sendList := t.lif.sendList, giveBuf := t.lif.giveBuf }
    mctl := { s.mctl with waitSend := t.mctl.waitSend }
    lpm := { s.lpm with lines := t.lpm.lines, recency := t.lpm.recency }
    xch := { s.xch with wants := t.xch.wants } }
  lines  : ∀ pos, t.lpm.line pos = (s.lpm.line pos).bind (Line.afterRetire image gen)
  frees  : s.lpm.Frees t.lpm
  wants  : t.xch.wants = s.xch.wants.filterMap (fun w =>
    if w.ofImage image gen then
      match w.state with
      | .landing buf => some { w with state := .void buf .retired }
      | _ => none
    else some w)
  frames : s.lif.WantsWithdrawn t.lif (s.xch.wants.filter (fun w => w.ofImage image gen))

/-- The attachment of a retired image generation is to be detached, its teardown at once where no request is in progress;
any other stays (R117, R134, R136). -/
structure State.AttachmentRetired (s t : State) (image gen : Nat) : Prop where
  detach : s.mfn.state = .attached → s.mfn.cause = none → s.mfn.image = image → s.mfn.gen = gen →
    let caused : State := { s with mfn := { s.mfn with cause := some .retired, drain := some (after s.now 2000) } }
    (s.mfn.request.isSome → t = caused) ∧ (s.mfn.request = none → caused.TornDown t)
  rests  : s.mfn.state ≠ .attached ∨ s.mfn.cause.isSome ∨ s.mfn.image ≠ image ∨ s.mfn.gen ≠ gen → t = s

/-- All that an IMAGE-RETIRE applied does (R112, R128, R131, R136, R153): the pool and the wants, then the FAILED reports of
the wants that have ended, in want-list order (log 43, the model's choice), then the attachment. The first report that a
step of the request waits for fails it with MEDIUM-ERROR and MEDIA-FAILURE; any report lets MFN ask again. -/
def State.ImageRetired (s u : State) (image gen : Nat) : Prop :=
  let ended := (s.xch.wants.filter (fun w => w.ofImage image gen && !w.isLanding)).map Want.key
  let waits := fun (r : Request) (k : Key) => ∃ st ∈ r.steps, st.state = .waiting ∧ s.mfn.key st.line = k
  ∃ v q : State, s.PoolRetired v image gen ∧ q.AttachmentRetired u image gen ∧
    (s.mfn.request = none → q = v) ∧
    (∀ r, s.mfn.request = some r → (∀ k ∈ ended, ¬ waits r k) →
      q = { v with mfn := { s.mfn with request := some { r with blocked := r.blocked && ended.isEmpty } } }) ∧
    (∀ r before k rest, s.mfn.request = some r → ended = before ++ k :: rest → (∀ j ∈ before, ¬ waits r j) → waits r k →
      ({ v with
        mfn := { s.mfn with request := some { r with blocked := false }, usbStatus := some .mediumError }
        ntu := (s.raise .mediaFailure (be 4 k.line ++ be 2 image ++ be 1 gen)).ntu } : State).RequestEnded q)

/-- MFN comes to one step of the request while it asks its wants (R127): a PENDING step of a READ asks a DEMAND want,
unless wants are held back since a FULL. -/
structure State.StepAsked (s : State) (st : XferStep) (t : State) : Prop where
  passed : (∀ r, s.mfn.request = some r →
      r.kind ≠ .read ∨ r.blocked = true ∨ ∀ x ∈ r.steps, x.line = st.line → x.state ≠ .pending) → t = s
  asked  : ∀ r, s.mfn.request = some r → r.kind = .read → r.blocked = false →
    (∃ x ∈ r.steps, x.line = st.line ∧ x.state = .pending) →
    ∃ answer q vs, WantAsked (s.mfn.key st.line) .demand s.lpm s.xch.wants answer q vs ∧
      let after_ : State := { s with lpm := q, xch := { s.xch with wants := vs } }
      (answer = .created → t = { after_ with mfn := { s.mfn with
        request := some (r.withStep { st with source := .fetchThenMerge, state := .waiting, todo := [] }) } }) ∧
      (answer = .ready → ∃ again, s.LookedUpAgain st again ∧
        t = { s with mfn := { s.mfn with request := some (r.withStep again) } }) ∧
      (answer = .full → t = { s with mfn := { s.mfn with request := some { r with blocked := true } } }) ∧
      (answer = .noLine → s.SpaceExhausted t 1 st.line 1)

/-- MFN comes to steps of the request in turn. -/
inductive State.StepsAsked : State → List XferStep → State → Prop where
  | done (s : State) : s.StepsAsked [] s
  | next {s t u : State} {st : XferStep} {rest : List XferStep} :
    s.StepAsked st t → t.StepsAsked rest u → s.StepsAsked (st :: rest) u

/-- MFN asks its wants (R127): a want that a WAITING step waits on is a DEMAND want from now on (R126, R141; log 41), and the
PENDING steps ask in step order. -/
structure State.WantsAsked (s t : State) : Prop where
  idle : s.mfn.request = none → t = s
  asks : ∀ r, s.mfn.request = some r →
    ({ s with xch := { s.xch with wants := s.xch.wants.map (fun w =>
      if r.steps.any (fun st => st.state = .waiting && w.isFor (s.mfn.key st.line)) then { w with purpose := .demand }
      else w) } } : State).StepsAsked (r.steps.filter (fun st => st.state = .pending)) t

/-- The step of a READ whose transfers come next (R129): the first that is READY with one to ask, every step before it
READY with none, or DONE. -/
def NextFetch (steps : List XferStep) (st : XferStep) : Prop :=
  ∃ before rest, steps = before ++ st :: rest ∧ st.state = .ready ∧ st.todo ≠ [] ∧
    ∀ x ∈ before, x.state = .done ∨ (x.state = .ready ∧ x.todo = [])

/-- The position of the line that a transfer reads: the overlay line of the line number, or the line of the key (R125). -/
def State.HasFetchLine (s : State) (st : XferStep) (f : Fetch) (pos : Nat) : Prop :=
  match f with
  | .overlay => ∃ l, s.lpm.findOverlay st.line = some (pos, l)
  | .base => ∃ l, s.lpm.find (s.mfn.key st.line) = some (pos, l)

/-- MFN asks one media transfer of a READ (R125, R126, R129), two at most being outstanding, those of earlier requests
counted (log 34, deduced): the line is pinned, and the
transfer moves the blocks of the step that the overlay holds, or those that it does not. A step whose line is no longer
there, or can no longer be pinned, is looked up again, with its transfers withdrawn. -/
structure State.FetchAsked (s t : State) : Prop where
  rests  : (∀ r, s.mfn.request = some r →
      r.kind ≠ .read ∨ 2 ≤ s.mctl.mediaOutstanding ∨ ∀ st, ¬ NextFetch r.steps st) → t = s
  asks   : ∀ r st f more pos q, s.mfn.request = some r → r.kind = .read → s.mctl.mediaOutstanding < 2 →
    NextFetch r.steps st → st.todo = f :: more → s.HasFetchLine st f pos → s.lpm.Pinned q pos →
    ∃ lpm, s.lpm.Pinned lpm pos ∧ t = { s with
      lpm := lpm
      mctl := { s.mctl with waitMedia := s.mctl.waitMedia ++
        [{ line := pos
           isRead := true
           lineNo := st.line
           request := r.serial
           blocks := (List.range 4).filter (fun b => Decidable.decide (st.first ≤ b ∧ b ≤ st.last) &&
             ((s.lpm.overlayMask st.line).getLsbD b == Decidable.decide (f = .overlay))) }] }
      mfn := { s.mfn with request := some (r.withStep { st with todo := more }) } }
  again  : ∀ r st f more, s.mfn.request = some r → r.kind = .read → s.mctl.mediaOutstanding < 2 →
    NextFetch r.steps st → st.todo = f :: more → (∀ pos q, s.HasFetchLine st f pos → ¬ s.lpm.Pinned q pos) →
    ∃ lpm new, s.lpm.UnpinnedInTurn ((s.mctl.waitMedia.filter (fun x =>
        x.isRead && (x.request = r.serial && x.lineNo = st.line))).map MediaReq.line) lpm ∧
      ({ s with lpm := lpm } : State).LookedUpAgain st new ∧ t = { s with
        lpm := lpm
        mctl := { s.mctl with
          waitMedia := s.mctl.waitMedia.filter (fun x => !(x.isRead && (x.request = r.serial && x.lineNo = st.line)))
          current := s.mctl.current.map (fun c =>
            match c.req with
            | .media x =>
              if x.isRead && (x.request = r.serial && x.lineNo = st.line) then { c with req := .media { x with dropped := true } }
              else c
            | _ => c) }
        mfn := { s.mfn with
        request := some (Request.withStep { r with got := r.got.filter (fun g => g.1 / 4 ≠ st.line) } new) } }

/-- Overlay space for blocks of a line, pinned for its media write (R109): in the overlay line that stands, or in a line
taken for a new one. -/
def Lpm.OverlayGiven (p q : Lpm) (n : Nat) (mask : BitVec 4) (pos : Nat) : Prop :=
  p.poolSize ≠ 0 ∧
  ((∃ m old pins pending, p.findOverlay n = some (pos, .dirty m old pins pending) ∧
      q.line pos = some (.dirty m (old ||| mask) (pins + 1) pending) ∧ q.recency = p.recency ∧
      (∀ x, x ≠ pos → q.line x = p.line x) ∧ q.poolSize = p.poolSize ∧ q.reserve = p.reserve) ∨
    (p.findOverlay n = none ∧ p.dirtyCount < p.poolSize - p.reserve ∧ p.Given q pos (.dirty n mask 1 false)))

/-- MFN asks the media write of the blocks in a WRITE's step buffer (R109, R130), two transfers at most being outstanding:
overlay space first, else the request fails, at the DIRTY limit or with no line. -/
structure State.StoreAsked (s t : State) : Prop where
  rests : (∀ r, s.mfn.request = some r →
      r.buffer = none ∨ (∀ st ∈ r.steps, st.state = .done) ∨ 2 ≤ s.mctl.mediaOutstanding) → t = s
  asks  : ∀ r line data before st rest, s.mfn.request = some r → r.buffer = some (line, data) →
    r.steps = before ++ st :: rest → (∀ x ∈ before, x.state = .done) → st.state ≠ .done →
    s.mctl.mediaOutstanding < 2 →
    ∃ mask : BitVec 4, (∀ b < 4, mask.getLsbD b = true ↔ st.first ≤ b ∧ b ≤ st.last) ∧
      let fresh := s.lpm.poolSize ≠ 0 ∧ s.lpm.findOverlay line = none
      let limit := s.lpm.poolSize - s.lpm.reserve ≤ s.lpm.dirtyCount
      ((∃ pos q, s.lpm.OverlayGiven q line mask pos) → ∃ pos q, s.lpm.OverlayGiven q line mask pos ∧ t = { s with
        lpm := q
        mctl := { s.mctl with waitMedia := s.mctl.waitMedia ++
          [{ line := pos
             isRead := false
             data := data
             lineNo := line
             request := r.serial
             blocks := (List.range 4).filter (fun b => Decidable.decide (st.first ≤ b ∧ b ≤ st.last)) }] }
        mfn := { s.mfn with request := some (Request.withStep { r with buffer := none } { st with state := .ready }) } }) ∧
      (fresh → limit → s.SpaceExhausted t 2 line 2) ∧
      (s.lpm.poolSize = 0 ∨ (fresh ∧ ¬ limit ∧ s.lpm.NoLine) → s.SpaceExhausted t 2 line 1)

/-- MFN's work at the end of a step, while a request is in progress: its wants, a read and a write are asked, eight times
over, more than can have an effect. -/
def State.MediaAdvanced (s t : State) : Prop :=
  (s.mfn.request = none → t = s) ∧
  (s.mfn.request.isSome → ∃ run : Nat → State, run 0 = s ∧ run 8 = t ∧
    ∀ i < 8, ∃ u v, (run i).WantsAsked u ∧ u.FetchAsked v ∧ v.StoreAsked (run (i + 1)))

/-! ### Notices (R198) -/

/-- A block raises a notice: outside LISTEN, MEMBER and SILENT NTU takes none (R201); a clear flag takes the detail, the
time and the raise counter, which goes up by 1; a set flag takes the detail and the time and keeps its raise number; the
kind in tenure is raised again. -/
structure State.Raised (s t : State) (kind : NoticeKind) (detail : Bytes) : Prop where
  refused : s.ptu.state ≠ .listen → s.ptu.state ≠ .member → s.ptu.state ≠ .silent → t = s
  clear   : s.ptu.state = .listen ∨ s.ptu.state = .member ∨ s.ptu.state = .silent →
    (∀ p ∈ s.ntu.pending, p.kind ≠ kind) → t = { s with ntu := { s.ntu with
      pending := s.ntu.pending ++ [{ kind := kind, detail := detail, time := s.now, raise := s.ntu.counter }]
      counter := s.ntu.counter + 1
      raisedAgain := s.ntu.raisedAgain || s.ntu.inTenure = some kind } }
  set     : s.ptu.state = .listen ∨ s.ptu.state = .member ∨ s.ptu.state = .silent →
    (∃ p ∈ s.ntu.pending, p.kind = kind) → t = { s with ntu := { s.ntu with
      pending := s.ntu.pending.map (fun p => if p.kind = kind then { p with detail := detail, time := s.now } else p)
      raisedAgain := s.ntu.raisedAgain || s.ntu.inTenure = some kind } }

/-! ### Marks, capture and matches (R52 to R58, R64 to R66) -/

/-- The loss marks owed, in the order in which the losses began, at the capture count (R53). -/
def Ccu.owedMarks (c : Ccu) (now : Time) : List Mark :=
  let lost := if c.lost = 0 then [] else [(MarkKind.lost, c.lost)]
  let garbled := if c.garbled = 0 then [] else [(MarkKind.garbled, c.garbled)]
  let owed := match c.lossOrder with
    | .lostFirst => lost ++ garbled
    | .garbledFirst => garbled ++ lost
  let mark := fun (loss : MarkKind × Nat) (number : BitVec 32) =>
    ({ offset := c.captured, number := number, kind := loss.1, time := now, arg := loss.2 } : Mark)
  match owed with
  | [] => []
  | [one] => [mark one c.markCounter]
  | one :: two :: _ => [mark one c.markCounter, mark two (c.markCounter + 1)]

/-- The newest 64 of the mark list with marks at its tail (R58). -/
def Ccu.marksWith (c : Ccu) (added : List Mark) : List Mark :=
  (c.marks ++ added).drop ((c.marks ++ added).length - 64)

/-- A mark is asked of CCU (R57, R58, R65): none while the history does not run; else the loss marks owed come first, the
mark takes the capture count, the next number and the time, and BREAK-IN, STARTED and a LOST mark clear the run. -/
structure Ccu.Marked (c d : Ccu) (now : Time) (kind : MarkKind) (arg : Nat) : Prop where
  stopped : c.running = false → d = c
  added   : c.running = true → c.marks.length ≤ 64 →
    let owed := c.owedMarks now
    let number := c.markCounter + BitVec.ofNat 32 owed.length
    d = { c with
      marks := c.marksWith (owed ++ [{ offset := c.captured, number := number, kind := kind, time := now, arg := arg }])
      markCounter := number + 1, lost := 0, garbled := 0
      run := if c.lost ≠ 0 ∨ kind = .breakIn ∨ kind = .lost ∨ kind = .started then 0 else c.run }

/-- The state with a good byte captured, its matches not yet delivered (R52 to R55, R58, R64, R65, R71): the loss marks
stand first, at most 64 marks are kept, and the marks and send pointers that the ring has left behind are passed. -/
def State.withByte (s : State) (b : Byte) : State :=
  let oldest := s.ccu.captured + 1 - s.ccu.ringSize
  let window := s.ccu.window ++ [b]
  let owed := s.ccu.owedMarks s.now
  { s with
    ccu := { s.ccu with
      captured := s.ccu.captured + 1, buffer := s.ccu.buffer ++ [b], lost := 0, garbled := 0
      window := window.drop (window.length - 32)
      run := min 32 ((if s.ccu.lost = 0 then s.ccu.run else 0) + 1)
      marks := (s.ccu.marksWith owed).dropWhile (fun m => m.offset < oldest)
      markCounter := s.ccu.markCounter + BitVec.ofNat 32 owed.length }
    cfw := { s.cfw with watchers := s.cfw.watchers.map (fun w =>
      if w.sendPtr < oldest then
        { w with sendPtr := oldest, gap := min (w.gap + (oldest - w.sendPtr)) 4294967295 }
      else w) } }

/-- A good byte completes a match of an entry (R64): the entry is in use, the run with this byte is at least its length,
and the window ends with its bytes. -/
def State.CompletesMatch (s : State) (b : Byte) (k : Nat) (p : Pattern) : Prop :=
  s.patterns[k]? = some p ∧ p.text ≠ [] ∧ p.text.length ≤ min 32 ((if s.ccu.lost = 0 then s.ccu.run else 0) + 1) ∧
  p.text <:+ s.ccu.window ++ [b]

/-- What a watchdog expiry does in ARMED and ON (R90, R91, R94), of cause 1 DEADLINE or 2 EARLY: the expiry count goes up
by 1, held at 2; the response is the action, a RESET becoming a CYCLE at the second expiry; the WATCHDOG mark and notice
name cause and response; NOTICE and a refused request start the deadline anew from T, a RESET pulse starts the boot
allowance, and a CYCLE forces the server off with POWER-ON pending. -/
def State.WatchdogExpires (s : State) (cause : Nat) (t : State) : Prop :=
  let count := min 2 (s.wdu.expiry + 1)
  let cycles : Bool := s.wdu.action = .cycle || (s.wdu.action = .reset && count = 2)
  let marked := fun (response : Nat) => s.ccu.addMark s.now .watchdog (3 * (cause - 1) + response - 1)
  let said := fun (response : Nat) => s.raise .watchdogExpired [byte cause, byte response, byte count]
  let anew : Wdu := { s.wdu with
    expiry := count, deadline := some (after s.now (1000 * s.wdu.timeout.getD 0)), phase := .running }
  (s.wdu.action = .notice → t = { s with wdu := anew, ccu := marked 1, ntu := (said 1).ntu }) ∧
  (s.wdu.action = .reset → count = 1 → s.psq.resetPulse = none → t = { s with
    ccu := (marked 2).addMark s.now .reset 1
    ntu := (said 2).ntu
    psq := { s.psq with
      resetPulse := some (after s.now 200), young := true
      youngT := some (after s.now (1000 * s.setting Settings.young)) }
    wdu := { s.wdu with
      expiry := 1, early := 0, lastBeat := none
      deadline := some (after s.now (1000 * s.wdu.bootAllowance)), phase := .boot } }) ∧
  (s.wdu.action = .reset → count = 1 → s.psq.resetPulse.isSome →
    t = { s with ccu := marked 2, ntu := ((said 2).raise .faultRefused [1, 5, 3]).ntu, wdu := anew }) ∧
  (cycles = true → s.ptu.mismatch = true →
    t = { s with ccu := marked 3, ntu := ((said 3).raise .faultRefused [1, 6, 4]).ntu, wdu := anew }) ∧
  (cycles = true → s.ptu.mismatch = false → t = { s with
    ccu := marked 3
    ntu := ((said 3).raise .powerState [9, 0, 1, flag s.psq.slotHeld]).ntu
    psq := { s.psq with
      state := some .forcing, variant := .none, pendingAct := .powerOn, press := .long (after s.now 6000)
      forceT := some (after s.now (1000 * s.setting Settings.force))
      young := false, youngT := none, deferred := .none, restPhase := .none, restT := none }
    wdu := { s.wdu with expiry := count, deadline := none } })

/-- A match of an entry at the byte just captured is delivered by its action (R66): NOTE and BOOT-DONE are raised with the
entry's index and the end offset, and BOOT-DONE gives a boot-once attachment its cause (R117); a heartbeat in ARMED and ON
sets the deadline and takes a pending timeout (R88), an early one is counted and at the third is an expiry of cause EARLY
(R89, R90); the first panic of an ON acts by the response of the record and any other is a notice only (R93). -/
def State.MatchDelivered (s : State) (k : Nat) (action : PatternAction) (t : State) : Prop :=
  let finish := s.ccu.captured
  let detail := byte k :: be 8 finish
  let beats := s.wdu.armed = true ∧ s.psq.state = some .on
  let early := ∃ last, s.wdu.lastBeat = some last ∧ 8 * (s.now - last).toNat < 1000 * s.wdu.timeout.getD 0
  let boot : Wdu := { s.wdu with
    early := 0, lastBeat := none
    deadline := if s.wdu.armed then some (after s.now (1000 * s.wdu.bootAllowance)) else s.wdu.deadline
    phase := if s.wdu.armed then .boot else s.wdu.phase }
  (action = .note → t = { s with ntu := (s.raise .patternNote detail).ntu }) ∧
  (action = .bootDone →
    (s.mfn.bootOnce = false ∨ s.mfn.state ≠ .attached ∨ s.mfn.cause.isSome →
      t = { s with ntu := (s.raise .bootDone detail).ntu }) ∧
    (s.mfn.bootOnce = true → s.mfn.state = .attached → s.mfn.cause = none →
      let caused : State := { s with
        mfn := { s.mfn with cause := some .bootDone, drain := some (after s.now 2000) }
        ntu := (s.raise .bootDone detail).ntu }
      (s.mfn.request.isSome → t = caused) ∧ (s.mfn.request = none → caused.TornDown t))) ∧
  (action = .heartbeat →
    (¬ beats → t = s) ∧
    (beats → ¬ early → ∀ timeout, s.wdu.timeout = some timeout →
      let next := s.wdu.pendingTimeout.getD timeout
      t = { s with wdu := { s.wdu with
        early := 0, expiry := 0, timeout := some next, pendingTimeout := none
        deadline := some (after s.now (1000 * next)), phase := .running, lastBeat := some s.now } }) ∧
    (beats → early →
      let counted : State := { s with
        wdu := { s.wdu with early := s.wdu.early + 1, lastBeat := some s.now }
        ntu := (s.raise .earlyHeartbeats [byte (s.wdu.early + 1), byte k]).ntu }
      (s.wdu.early + 1 < 3 → t = counted) ∧
      (3 ≤ s.wdu.early + 1 → ∃ v, counted.WatchdogExpires 2 v ∧ t = { v with wdu := { v.wdu with early := 0 } }))) ∧
  (action = .panic →
    let seen := fun (response : Byte) => s.raise .panicSeen (byte k :: (be 8 finish ++ [response]))
    let marked := s.ccu.addMark s.now .panic k
    (s.psq.state ≠ some .on ∨ s.wdu.holdoff = true → t = { s with ntu := (seen 0).ntu }) ∧
    (s.psq.state = some .on → s.wdu.holdoff = false →
      (s.panicResponse = .notice → t = { s with
        ccu := marked, wdu := { s.wdu with holdoff := true }, ntu := (seen 1).ntu }) ∧
      (s.panicResponse = .reset → s.psq.resetPulse = none → t = { s with
        ccu := marked.addMark s.now .reset 2
        wdu := { boot with holdoff := true }
        ntu := (seen 2).ntu
        psq := { s.psq with
          resetPulse := some (after s.now 200), young := true
          youngT := some (after s.now (1000 * s.setting Settings.young)) } }) ∧
      (s.panicResponse = .reset → s.psq.resetPulse.isSome → t = { s with
        ccu := marked, wdu := { s.wdu with holdoff := true }
        ntu := ((seen 2).raise .faultRefused [2, 5, 3]).ntu }) ∧
      (s.panicResponse = .cycle → s.ptu.mismatch = true → t = { s with
        ccu := marked, wdu := { s.wdu with holdoff := true }
        ntu := ((seen 3).raise .faultRefused [2, 6, 4]).ntu }) ∧
      (s.panicResponse = .cycle → s.ptu.mismatch = false → t = { s with
        ccu := marked
        wdu := { s.wdu with holdoff := true, deadline := none }
        ntu := ((seen 3).raise .powerState [9, 0, 1, flag s.psq.slotHeld]).ntu
        psq := { s.psq with
          state := some .forcing, variant := .none, pendingAct := .powerOn, press := .long (after s.now 6000)
          forceT := some (after s.now (1000 * s.setting Settings.force))
          young := false, youngT := none, deferred := .none, restPhase := .none, restT := none } })))

/-- Matches are delivered one after the other (R66). -/
inductive State.MatchesDelivered : State → List (Nat × PatternAction) → State → Prop where
  | done (s : State) : s.MatchesDelivered [] s
  | next {s t u : State} {k : Nat} {action : PatternAction} {rest : List (Nat × PatternAction)} :
    s.MatchDelivered k action t → t.MatchesDelivered rest u → s.MatchesDelivered ((k, action) :: rest) u

/-! ### The rest of the end of a step -/

/-- The detach completes (R113, R135, steps 4 and 5): no DIRTY line is left in DETACHING. -/
structure State.DetachEnds (s t : State) : Prop where
  ends  : ∀ c, s.mfn.state = .detaching → s.mfn.cause = some c → s.lpm.dirtyCount = 0 → t = { s with
    ccu := s.ccu.addMark s.now .mediaDetached c.markArg
    ntu := (s.raise .mediaDetached (c.code :: (be 2 s.mfn.image ++ be 1 s.mfn.gen))).ntu
    mfn := { s.mfn with state := .none, lastCause := some c, cause := none, tracker := none } }
  rests : s.mfn.state ≠ .detaching ∨ s.mfn.cause = none ∨ s.lpm.dirtyCount ≠ 0 → t = s

/-- CCU asks a capture write (R54) while its buffer holds bytes that no write in progress has taken. -/
structure State.CaptureAsked (s t : State) : Prop where
  asks  : s.ccu.buffer ≠ [] → (∀ c n, s.mctl.current = some c → c.req = .capture n → n < s.ccu.buffer.length) →
    t = { s with mctl := { s.mctl with waitCapture := true } }
  rests : s.ccu.buffer = [] ∨
    (∃ c n, s.mctl.current = some c ∧ c.req = .capture n ∧ s.ccu.buffer.length ≤ n) → t = s

/-- The item at the head of the input queue begins on an idle CTXD (R80): a character, or a break of 300 ms with its
mark. -/
structure State.InputBegun (s t : State) : Prop where
  text  : ∀ b rest, s.inputDrains = true → s.cfw.tx = .idle → s.cfw.queue = .text b :: rest →
    t = { s with cfw := { s.cfw with tx := .char b } }
  brk   : ∀ x rest, s.inputDrains = true → s.cfw.tx = .idle → s.cfw.queue = .brk x :: rest → t = { s with
    ccu := s.ccu.addMark s.now .breakOut x
    cfw := { s.cfw with tx := .breakLow (after s.now 300) } }
  rests : s.inputDrains = false ∨ s.cfw.tx ≠ .idle ∨ s.cfw.queue = [] → t = s

/-- A mark at or after a mark number in the list stands at this place: any place where the number is in the list no
longer (R71, R72). -/
def Ccu.FromNumber (c : Ccu) (number : BitVec 32) (place : Nat) : Prop :=
  number ≠ c.markCounter ∧
  ∀ i m, c.marks[i]? = some m → m.number = number → (∀ j < i, ∀ x, c.marks[j]? = some x → x.number ≠ number) → i ≤ place

/-- A watcher is ready for a frame (R72). -/
structure Watcher.Ready (w : Watcher) (c : Ccu) (now : Time) : Prop where
  noPause  : w.pause = none
  noFlight : w.inFlight = none
  due      : w.sendPtr + 256 ≤ c.stored ∨
    (w.sendPtr < c.stored ∧ ∃ start, w.waitStart = some start ∧ reached (after start 20) now = true) ∨
    ∃ i m, c.marks[i]? = some m ∧ c.FromNumber w.nextMark i ∧ m.offset = c.stored

/-- The watcher at this place is the first ready one in list order after the one served last (R73). -/
structure State.Turn (s : State) (j : Nat) (w : Watcher) : Prop where
  absent : s.cfw.out = none
  place  : s.cfw.watchers[j]? = some w
  ready  : w.Ready s.ccu s.now
  first  : let n := s.cfw.watchers.length
    let start := if s.cfw.turn < n then s.cfw.turn else 0
    ∀ i v, (∀ k ≤ i, (start + k) % n ≠ j) → s.cfw.watchers[(start + i) % n]? = some v →
      ¬ v.Ready s.ccu s.now

/-- CFW serves the watcher whose turn it is (R72 to R74): a read of its bytes is asked, up to 256 of them, or a frame of
marks alone is built at once. -/
structure State.WatcherServed (s t : State) : Prop where
  reads  : ∀ j w, s.Turn j w → w.sendPtr < s.ccu.stored →
    let finish := min s.ccu.stored (w.sendPtr + 256)
    t = { s with
      mctl := { s.mctl with waitForward := some (w.sendPtr, finish) }
      cfw := { s.cfw with
        turn := j + 1
        out := some { station := w.station, standing := .reading, first := w.sendPtr, last := finish } } }
  marks  : ∀ j w, s.Turn j w → w.sendPtr = s.ccu.stored →
    let next := if w.nextMark = s.ccu.markCounter ∨ (∃ m ∈ s.ccu.marks, m.number = w.nextMark) then w.nextMark
      else ((s.ccu.marks.head?).map Mark.number).getD s.ccu.markCounter
    let from_ := if next = s.ccu.markCounter then [] else s.ccu.marks.dropWhile (fun m => m.number ≠ next)
    let due := from_.takeWhile (fun m => m.offset ≤ w.sendPtr)
    let chosen := due.take 8
    let cut := ((due[8]?).map Mark.offset).getD w.sendPtr
    let markBytes := fun (m : Mark) =>
      be 8 m.offset ++ be 4 m.number.toNat ++ [m.kind.code] ++ be 4 m.time.toNat ++ be 4 m.arg
    let w' : Watcher := { w with
      nextMark := next, sendPtr := cut
      waitStart := if cut < s.ccu.stored then some s.now else none
      inFlight := some { start := w.sendPtr, finish := cut, gap := w.gap,
                         resume := ((chosen.getLast?).map (fun m => m.number + 1)).getD next } }
    t = { s with cfw := { s.cfw with
      turn := j + 1
      watchers := s.cfw.watchers.map (fun v => if v.station = w.station then w' else v)
      out := some { station := w.station, standing := .frame .held, first := w.sendPtr, last := w.sendPtr,
                    body := be 8 w.sendPtr ++ be 4 w.gap ++ [byte chosen.length] ++ chosen.flatMap markBytes } } }
  passed : ∀ j w, s.Turn j w → s.ccu.stored < w.sendPtr → t = { s with cfw := { s.cfw with turn := j + 1 } }
  rests  : (∀ j w, ¬ s.Turn j w) → t = s

/-- The drain of a warm restart is over (R101): the device goes into self-refresh and the retention flag is set. -/
structure State.SelfRefreshEntered (s t : State) : Prop where
  enters : s.mctl.restarting = true → s.mctl.mem = .up → s.ccu.buffer = [] → s.mctl.current = none → s.mctl.debt ≤ 0 →
    t = { s with mctl := { s.mctl with
      mem := .selfRefresh, retention := true, restarting := false, waitCapture := false } }
  rests  : s.mctl.restarting = false ∨ s.mctl.mem ≠ .up ∨ s.ccu.buffer ≠ [] ∨ s.mctl.current.isSome ∨ 0 < s.mctl.debt →
    t = s

/-- NTU offers a NOTICE where a flag is set, none stands and no pause runs (R199, R201). -/
structure State.NoticeAsked (s t : State) : Prop where
  asks  : s.takesRaises = true → s.ntu.standing = none → s.ntu.pause = none → s.ntu.pending ≠ [] →
    t = { s with ntu := { s.ntu with standing := some .held } }
  rests : s.takesRaises = false ∨ s.ntu.standing.isSome ∨ s.ntu.pause.isSome ∨ s.ntu.pending = [] → t = s

/-- In SILENT ORD drops the REPLY it holds (R197; log 46) and a want that waits to be offered is SENT, its timer started
(R154). -/
structure State.SilentRefused (s t : State) : Prop where
  silent : s.ptu.state = .silent →
    let due := after s.now (s.setting Settings.wantTimer)
    ∃ inbox, t = { s with
      ord := { s.ord with inbox := inbox }
      xch := { s.xch with wants := s.xch.wants.map (fun w =>
        if w.state = .queued .held then { w with state := .sent, timer := some due } else w) } } ∧
      (∀ o rest reply restart, s.ord.inbox = o :: rest → o.standing = .replyHeld reply restart → inbox = rest) ∧
      (∀ o rest, s.ord.inbox = o :: rest → o.standing = .waiting → inbox = s.ord.inbox) ∧
      (s.ord.inbox = [] → inbox = [])
  other  : s.ptu.state ≠ .silent → t = s

/-- LIF reads the line of the LINE-GIVE at the head of its list into the give buffer once that is free (R169). -/
structure State.GiveReadAsked (s t : State) : Prop where
  asks  : ∀ e key line, s.lif.head = some e → e.payload = .give key line → s.lif.giveBuf = .free → t = { s with
    lif := { s.lif with giveBuf := .reading e.seq }
    mctl := { s.mctl with waitSend := some (line, e.seq) } }
  rests : s.lif.giveBuf ≠ .free ∨ (∀ e key line, s.lif.head = some e → e.payload ≠ .give key line) → t = s

/-- UPB begins the unit at the head of its inbound queue while URTS is asserted (R205, R208, R209). -/
structure State.UnitBegun (s t : State) : Prop where
  begins : ∀ u rest, s.serving = false → s.upb.tx = none → s.pins.urts = true → s.upb.inq = u :: rest →
    s.ptu.state = .listen ∨ s.ptu.state = .member ∨ s.ptu.state = .silent →
    let content := [u.sender, u.dest, u.kind] ++ be 2 u.body.length ++ u.body
    t = { s with upb := { s.upb with tx := some (165 :: (content ++ be 2 (crc16 content).toNat)) } }
  rests  : s.serving = true ∨ s.upb.tx.isSome ∨ s.pins.urts = false ∨ s.upb.inq = [] ∨ s.ptu.state = .setup ∨
    s.ptu.state = .haltedSetup → t = s

/-! ### Offers (R166) -/

/-- LIF takes an offer (R161, R166, R174): the station state accepts, the list has a place for the class, the destination
is not 0 and the body not above 2,064 bytes. -/
def State.TakesOffer (s : State) (cls : Nat) (dest : Byte) (payload : Payload) : Prop :=
  (s.ptu.state = .listen ∨ s.ptu.state = .member ∨ s.ptu.state = .haltedSetup) ∧
  s.lif.sendList.length < (if cls = 0 then 24 else 20) ∧ dest ≠ 0 ∧
  ∀ body, payload = .body body → body.length ≤ 2064

/-- LIF with an offer at the tail of its list, at the next place in acceptance order and with retry count 0 (R166). -/
def Lif.withOffer (l : Lif) (cls : Nat) (dest : Byte) (kind : FrameKind) (payload : Payload) (owner : Owner) : Lif :=
  { l with
    nextSeq := l.nextSeq + 1
    sendList := l.sendList ++
      [{ seq := l.nextSeq, cls := cls, dest := dest, kind := kind, payload := payload, owner := owner, retry := 0,
         inTenure := false }] }

/-- One offer of an owner is taken and its owner told (R43, R75, R142, R166, R184, R192, R199, R206). -/
inductive State.OfferListed (s : State) : State → Prop where
  | adm (before rest : List OwnFrame) (f : OwnFrame) (kind : FrameKind) (body : Bytes) (fresh : Nat) :
    s.adm.own = before ++ f :: rest → (∀ g ∈ before, g.standing ≠ .held) → f.standing = .held →
    (kind, body) = (match f.kind with
      | .claim .powerOn => (FrameKind.admitClaim, [1])
      | .claim .feedRestore => (.admitClaim, [2])
      | .withdraw => (.admitWithdraw, [])
      | .release => (.admitRelease, [])) →
    s.TakesOffer 0 toAll (.body body) →
    s.OfferListed { s with
      fresh := fresh
      lif := s.lif.withOffer 0 toAll kind (.body body) .adm
      adm := { s.adm with own := before ++ { f with standing := .listed s.lif.nextSeq } :: rest } }
  | ptu (fresh : Nat) : s.ptu.standing = some .held → s.TakesOffer s.ptu.beaconClass toAll .atTenure →
    s.OfferListed { s with
      fresh := fresh
      lif := s.lif.withOffer s.ptu.beaconClass toAll .beacon .atTenure .ptu
      ptu := { s.ptu with standing := some (.listed s.lif.nextSeq) } }
  | ord (o : Order) (rest : List Order) (reply : Bytes) (restart : Bool) (fresh : Nat) :
    s.ord.inbox = o :: rest → o.standing = .replyHeld reply restart → s.TakesOffer 1 (byte o.sender) (.body reply) →
    s.OfferListed { s with
      fresh := fresh
      lif := s.lif.withOffer 1 (byte o.sender) .reply (.body reply) .ord
      ord := { s.ord with
        inbox := rest, restartReply := if restart then some s.lif.nextSeq else s.ord.restartReply } }
  | ntu (fresh : Nat) : s.ntu.standing = some .held → s.TakesOffer 1 toAll .atTenure →
    s.OfferListed { s with
      fresh := fresh
      lif := s.lif.withOffer 1 toAll .notice .atTenure .ntu
      ntu := { s.ntu with standing := some (.listed s.lif.nextSeq) } }
  | cfw (o : OutFrame) (fresh : Nat) : s.cfw.out = some o → o.standing = .frame .held →
    s.TakesOffer 2 (byte o.station) (.body o.body) →
    s.OfferListed { s with
      fresh := fresh
      lif := s.lif.withOffer 2 (byte o.station) .consoleOut (.body o.body) .cfw
      cfw := { s.cfw with out := some { o with standing := .frame (.listed s.lif.nextSeq) } } }
  | give (before rest : List Give) (g : Give) (fresh : Nat) :
    s.xch.gives = before ++ g :: rest → (∀ x ∈ before, x.standing ≠ .held) → g.standing = .held →
    s.TakesOffer 3 toAll (.give g.key g.line) →
    s.OfferListed { s with
      fresh := fresh
      lif := s.lif.withOffer 3 toAll .lineGive (.give g.key g.line) .xchGive
      xch := { s.xch with gives := before ++ { g with standing := .listed s.lif.nextSeq } :: rest } }
  | want (before rest : List Want) (w : Want) (fresh : Nat) :
    (∀ g ∈ s.xch.gives, g.standing ≠ .held) → s.xch.wants = before ++ w :: rest → w.state = .queued .held →
    (∀ x ∈ before, x.state = .queued .held → w.purpose = .demand ∧ x.purpose = .readahead) →
    (∀ x ∈ rest, x.state = .queued .held → x.purpose = .demand → w.purpose = .demand) →
    s.TakesOffer 3 toAll (.body w.key.bytes) →
    s.OfferListed { s with
      fresh := fresh
      lif := s.lif.withOffer 3 toAll .lineWant (.body w.key.bytes) .xchWant
      xch := { s.xch with wants := s.xch.wants.map (fun x =>
        if x.line = w.line ∧ x.state = .queued .held then { x with state := .queued (.listed s.lif.nextSeq) } else x) } }
  | upb (f : UpFrame) (rest : List UpFrame) (fresh : Nat) :
    s.serving = false → s.ptu.state = .listen ∨ s.ptu.state = .member → s.upbListed < 8 → 1 ≤ s.upbFree →
    s.upb.outq = f :: rest → s.TakesOffer f.kind.uplinkClass f.dest (.body f.body) →
    s.OfferListed { s with
      fresh := fresh
      lif := s.lif.withOffer f.kind.uplinkClass f.dest f.kind (.body f.body) .upb
      upb := { s.upb with outq := rest } }

/-- Offers are taken one after the other, in any order that several owners' offers may come (log 5), until none can be. -/
def State.OffersListed (s t : State) : Prop := Relation.ReflTransGen State.OfferListed s t ∧ ∀ v, ¬ t.OfferListed v

end Sys2Proof.Machine
end

