-- ==== Sys2Proof/Certificates/Slice0/Obligations.lean ====
section
/-! DEFINITION. The statements about the part, one definition each; OBLIGATIONS.json says which rule of spec/ each one
formalises or rests on. A command with RSTN released answers `settle u`: `u` is the command's own effect and `settle` the
end of the step, of which `Obligations.EndOfStepDoesWhatIsDue` says what it does and what it leaves alone. -/

open Sys2Proof Sys2Proof.Machine

/-! ### Steps, reset and invariants -/

/-- A step of a state with a command at the front of its queue runs that command on the queue's rest. -/
def Obligations.StepRunsFrontCommand : Prop := ∀ (c : Instr) (s : State), step (s.push c) = exec c s

/-- A step of an empty queue lets one millisecond of station time pass, none while RSTN is asserted, and a bid that has not
been lost by then goes on to SENDING (logs 3 and 12, the model's choices). The short timers run out: a press pulse and a
long press release PWR_PRESS and a reset pulse PWR_RESET (R1), the wait and the pause of a watcher and the pause of NTU end
(R72, R76, R200); station time comes to them (log 4, the model's choice), nothing else of the part changes, and a watcher
may be served at the end of the step. What every raise of these statements does to NTU at that time is the last clause
(R198). -/
def Obligations.TimePassesAndShortTimersRunOut : Prop :=
  (∀ s : State, s.pending = [] → step s = .next (if s.rstn then s else { s with
    now := s.now + 1
    lif := { s.lif with engine := if s.lif.engine = .bidding then .sending else s.lif.engine } })) ∧
  (∀ (s : State) (due : Time), s.rstn = false →
    (s.psq.press = .pulse due →
      exec .pressPulseEnd s = .next (settle { s.timeTo due with psq := { s.psq with press := .released } })) ∧
    (s.psq.press = .long due →
      exec .longPressEnd s = .next (settle { s.timeTo due with psq := { s.psq with press := .released } })) ∧
    (s.psq.resetPulse = some due →
      exec .resetPulseEnd s = .next (settle { s.timeTo due with psq := { s.psq with resetPulse := none } }))) ∧
  (∀ (s : State) (x : BitVec 6) (w : Watcher) (start : Time), s.rstn = false →
    s.cfw.watchers.find? (fun v => v.station = x.toNat) = some w → w.waitStart = some start →
    exec (.watcherWaitExpiry x) s = .next (settle (s.timeTo (after start 20)))) ∧
  (∀ (s : State) (x : BitVec 6) (w : Watcher) (due : Time), s.rstn = false →
    s.cfw.watchers.find? (fun v => v.station = x.toNat) = some w → w.pause = some due →
    exec (.watcherPauseExpiry x) s = .next (settle { s.timeTo due with cfw := { s.cfw with
      watchers := s.cfw.watchers.map (fun v => if v.station = x.toNat then { v with pause := none } else v) } })) ∧
  (∀ (s : State) (due : Time), s.rstn = false → s.ntu.pause = some due →
    exec .noticePauseExpiry s = .next (settle { s.timeTo due with ntu := { s.ntu with pause := none } })) ∧
  (∀ (s : State) (kind : NoticeKind) (detail : Bytes), s.Raised (s.raise kind detail) kind detail)

/-- The end of a step (95_what_each_step_holds.md) does in turn what is due: MFN asks its wants and media transfers (R109,
R127, R129 to R131, R141), a detach completes (R135), CCU asks a capture write (R54), the next input item begins (R80), CFW
serves the watcher whose turn it is (R72 to R74), SELF-REFRESH is entered (R101), a NOTICE is asked (R199), SILENT refuses
(R154, R197), the offers that LIF takes are listed until it takes no more (R166), LIF asks its give's read (R169), and UPB
begins a unit (R208). It leaves alone what the first clause does not name, and the whole state where nothing is due. That
these happen in the step that makes them due, and in this order, is log 1; any owner's offer may come first (log 5); the
moment of a waited want's DEMAND is log 41, and that of a held REPLY's drop log 46. The relations say more that is not the
spec's: of a MERGE step the overlay's transfer is asked first (log 54), and the base's alone where the overlay holds none of
its blocks (log 19, deduced); an earlier request's transfers count toward the two (log 34, deduced); MFN asks on while the
port is SUSPENDED (log 53); reads withdrawn are unpinned in queue order (log 49); a teardown leaves resume signalling
(log 50) and the USB address (log 40); SELF-REFRESH is entered in HALTED-SETUP too (log 39): the model's choices. -/
def Obligations.EndOfStepDoesWhatIsDue : Prop :=
  (∀ s : State, ∃ t : State, settle s = t ∧ t = { s with
    lif := { s.lif with sendList := t.lif.sendList, nextSeq := t.lif.nextSeq, giveBuf := t.lif.giveBuf }
    adm := { s.adm with own := t.adm.own }
    ptu := { s.ptu with standing := t.ptu.standing }
    ord := { s.ord with inbox := t.ord.inbox, restartReply := t.ord.restartReply }
    ntu := { s.ntu with
      pending := t.ntu.pending, counter := t.ntu.counter, standing := t.ntu.standing, raisedAgain := t.ntu.raisedAgain }
    ccu := { s.ccu with
      lost := t.ccu.lost, garbled := t.ccu.garbled, marks := t.ccu.marks, markCounter := t.ccu.markCounter
      run := t.ccu.run }
    cfw := { s.cfw with watchers := t.cfw.watchers, out := t.cfw.out, turn := t.cfw.turn, tx := t.cfw.tx }
    mctl := { s.mctl with
      mem := t.mctl.mem, restarting := t.mctl.restarting, retention := t.mctl.retention, current := t.mctl.current
      waitCapture := t.mctl.waitCapture, waitMedia := t.mctl.waitMedia, waitForward := t.mctl.waitForward
      waitSend := t.mctl.waitSend }
    lpm := { s.lpm with lines := t.lpm.lines, recency := t.lpm.recency }
    xch := { s.xch with wants := t.xch.wants, gives := t.xch.gives }
    mfn := { s.mfn with
      state := t.mfn.state, cause := t.mfn.cause, drain := t.mfn.drain, tracker := t.mfn.tracker
      lastCause := t.mfn.lastCause, port := t.mfn.port, remoteWake := t.mfn.remoteWake, request := t.mfn.request
      usbStatus := t.mfn.usbStatus }
    upb := { s.upb with outq := t.upb.outq, tx := t.upb.tx }
    fresh := t.fresh }) ∧
  (∀ s : State, s.NothingDue → settle s = s) ∧
  (∀ s : State, (s.mfn.request.isSome → s.lpm.Placed) → ∃ t1 t2 t3 t4 t5 t6 t7 t8 t9 t10 : State,
    s.MediaAdvanced t1 ∧ t1.DetachEnds t2 ∧ t2.CaptureAsked t3 ∧ t3.InputBegun t4 ∧ t4.WatcherServed t5 ∧
    t5.SelfRefreshEntered t6 ∧ t6.NoticeAsked t7 ∧ t7.SilentRefused t8 ∧ t8.OffersListed t9 ∧ t9.GiveReadAsked t10 ∧
    t10.UnitBegun (settle s))

/-- Right after reset the part is held in its cold-start state: what the rules give each block (R26, R28, R48, R60, R67,
R81, R82, R97, R114, R115, R140, R148, R175, R188, R189, R193, R201), and every invariant below holds. That the state after
reset has RSTN asserted (log 8), nothing listed in the SDRAM (log 7) and a pool of no lines (log 9) are the model's. -/
def Obligations.ResetStateMeetsTheInvariants : Prop :=
  let s := State.reset
  s.rstn = true ∧ s.now = 0 ∧ s.pending = [] ∧
  s.ptu.state = .setup ∧ (∀ x, s.ptu.peer x = {}) ∧ s.ptu.standing = none ∧ s.ptu.debt = 0 ∧ s.ptu.mismatch = false ∧
  s.lif.engine = .offLane ∧ s.lif.sendList = [] ∧ s.lif.recvQueue = [] ∧ s.lif.sitOut = false ∧ s.lif.stat = false ∧
  s.adm.roster = [] ∧ s.adm.waiting = [] ∧ s.adm.own = [] ∧ s.adm.expired = [] ∧
  s.psq.state = none ∧ s.psq.feedClosed = true ∧ s.psq.press = .released ∧ s.psq.resetPulse = none ∧
  s.wdu.armed = false ∧ s.wdu.bootAllowance = 600 ∧ s.wdu.deadline = none ∧ s.wdu.holdoff = false ∧
  s.ccu.rx = .held ∧ s.ccu.captured = 0 ∧ s.ccu.marks = [] ∧ s.ccu.markCounter = 0 ∧
  s.cfw.watchers = [] ∧ s.cfw.out = none ∧ s.cfw.queue = [] ∧ s.cfw.tx = .idle ∧
  s.mctl.mem = .down ∧ s.mctl.debt = 0 ∧ s.mctl.retention = false ∧ s.sdram = [] ∧
  s.lpm.poolSize = 0 ∧ s.lpm.lines = [] ∧ s.xch.wants = [] ∧ s.xch.gives = [] ∧
  s.mfn.state = .none ∧ s.mfn.lastCause = none ∧ s.mfn.request = none ∧
  s.ord.inbox = [] ∧ s.ord.holder = none ∧ s.ntu.pending = [] ∧ s.ntu.pause = none ∧ s.upb.outq = [] ∧ s.upb.inq = [] ∧
  Memory.wf s.sdram ∧ s.psq.Legal ∧ AdmissionOrdered s ∧ WithinCapacities s ∧ PoolWithinBounds s.lpm

/-- COLD_START takes every block to its cold-start state, samples the straps and begins the start sequence in SETUP; with
station number 0 or 63 HALTED-SETUP follows at once, with 1,000 ms boundaries, and no beacon is offered. RSTN_ASSERTED holds
every block in its cold-start state, and until COLD_START no other command changes it; the two input pins the part goes by
are followed. The pins, the waiting commands and the counter of free values stay (log 7, log 8, log 10, log 32, the model's
choices); the values that the spec does not give are those of log 9. -/
def Obligations.ColdStartAndRstnHoldTheBlocks : Prop :=
  (∀ (straps : Straps) (s : State),
    let cold : State := { State.reset with
      rstn := false
      pins := s.pins
      mfn := { port := if s.pins.vbsense then .disconnected else .unpowered }
      fresh := s.fresh
      pending := s.pending }
    (1 ≤ straps.snum.toNat ∧ straps.snum.toNat ≤ 62 →
      exec (.coldStart straps) s = .next { cold with
        sld := { role := straps.role, snum := straps.snum.toNat, phase := .reading 1, warm := false, settings := none } }) ∧
    (straps.snum = 0 ∨ straps.snum = 63 →
      exec (.coldStart straps) s = .next { cold with
        sld := { role := straps.role, snum := straps.snum.toNat, phase := .halted, warm := false, settings := none }
        lif := { engine := .syncing }
        ptu := { state := .haltedSetup, boundary := some 1000 } })) ∧
  (∀ s : State, exec .rstnAsserted s = .next { State.reset with
    pins := s.pins
    mfn := { port := if s.pins.vbsense then .disconnected else .unpowered }
    fresh := s.fresh
    pending := s.pending }) ∧
  (∀ (c : Instr) (s : State), s.rstn = true →
    match c with
    | .coldStart _ => True
    | .rstnAsserted => True
    | .vbsenseHigh => exec c s = .next { s with pins := { s.pins with vbsense := true } }
    | .vbsenseLow => exec c s = .next { s with pins := { s.pins with vbsense := false } }
    | .urtsAsserted => exec c s = .next { s with pins := { s.pins with urts := true } }
    | .urtsDeasserted => exec c s = .next { s with pins := { s.pins with urts := false } }
    | _ => exec c s = .next s)

/-- Every step keeps the SDRAM in its canonical form. -/
def Obligations.EveryStepKeepsMemoryCanonical : Prop :=
  ∀ s t : State, Memory.wf s.sdram → step s = .next t → Memory.wf t.sdram

/-- Every step keeps PSQ's record in what R4 admits. -/
def Obligations.EveryStepKeepsSequencerRecordLegal : Prop :=
  ∀ s t : State, s.psq.Legal → step s = .next t → t.psq.Legal

/-- Every step keeps the roster within A entries and no station number twice in it, in the waiting list or in both. -/
def Obligations.EveryStepKeepsAdmissionOrdered : Prop :=
  ∀ s t : State, AdmissionOrdered s → step s = .next t → AdmissionOrdered t

/-- Every step keeps the queues and lists within their capacities: the own-frame list, the send list and receive queue, the
inbox with the orders taken, wants and gives, watchers and marks, the capture buffer, the console input queue with the
bytes reserved, and UPB's two queues with the places kept for frames taken and listed. That a fifth own frame is not
added is log 47's reading (deduced). -/
def Obligations.EveryStepKeepsCapacities : Prop :=
  ∀ s t : State, WithinCapacities s → step s = .next t → WithinCapacities t

/-- Every step keeps the pool's records at rising positions within the pool and the DIRTY lines within the reserve's
limit. -/
def Obligations.EveryStepKeepsPoolWithinBounds : Prop :=
  ∀ s t : State, PoolWithinBounds s.lpm → step s = .next t → PoolWithinBounds t.lpm

/-- Only a completed capture write, lane receive write or media transfer, and a cold start or RSTN, changes a byte of the
SDRAM. That the last two leave it with nothing listed is log 7, the model's choice. -/
def Obligations.OnlyStoringCommandsChangeSdram : Prop :=
  ∀ (c : Instr) (s t : State), exec c s = .next t →
    match c with
    | .coldStart _ => t.sdram = []
    | .rstnAsserted => t.sdram = []
    | .captureWriteComplete => True
    | .laneReceiveWriteComplete => True
    | .mediaTransferComplete => True
    | _ => ∀ a, Memory.read t.sdram a = Memory.read s.sdram a

/-! ### Starts -/

/-- The EEPROM attempts and the hand-over (R97, R102, R186, R202 to R204): an attempt drives the bus as R203 says, up to the
byte not acknowledged or the start that SDA forbids where it fails, and then a stop condition; a complete attempt of 512
bytes with a valid record waits for its hand-over, one with an invalid record halts the station, a failed attempt is made
again 5 ms later, and the third failed one halts the station. A station in HALTED-SETUP synchronises with the lane, starts
its 1,000 ms boundaries and offers its beacon. The record and the rack digest reach the blocks and the memory is brought
up; at a warm restart that waits for SELF-REFRESH, and with an unchanged geometry the device is taken out of self-refresh
with its contents. Station time comes to the end of the wait (log 4), the bus is told by its bytes and conditions
(log 31), a warm restart that halts before R101's drain is over leaves the memory as it was (log 39), and which failure
ended an attempt is a free value (log 48): the model's choices. -/
def Obligations.RecordIsReadAndHandedOver : Prop :=
  (∀ (s : State) (n : Nat), s.rstn = false →
    let write : List BusItem := [.start, .device 0x53 false]
    let addressed : List BusItem := write ++ [.word 0, .word 0]
    let read : List BusItem := addressed ++ [.start, .device 0x53 true]
    let failures : List (List BusItem) :=
      [[.stop], write ++ [.stop], write ++ [.word 0, .stop], addressed ++ [.stop], read ++ [.stop]]
    let complete := read ++ [.acks 511, .nack, .stop]
    let halted := fun (fresh : Nat) (bus : List BusItem) => ({ s with
      fresh := fresh
      sld := { s.sld with phase := .halted, bus := bus }
      lif := { s.lif with engine := .syncing }
      ptu := { s.ptu with state := .haltedSetup, boundary := some (s.now + 1000) } } : State).offerBeacon
    (∀ bytes r d, s.sld.phase = .reading n → bytes.length = 512 → recordOf bytes = some (r, d) →
      exec (.eepromAttemptComplete bytes) s =
        .next (settle { s with sld := { s.sld with phase := .validated r d, bus := complete } })) ∧
    (∀ bytes, s.sld.phase = .reading n → bytes.length = 512 → recordOf bytes = none →
      exec (.eepromAttemptComplete bytes) s = .next (settle (halted s.fresh complete))) ∧
    (s.sld.phase = .reading n → n < 3 → ∃ bus ∈ failures,
      exec .eepromAttemptFailed s =
        .next (settle { s with
          fresh := s.fresh + 1, sld := { s.sld with phase := .retryWait n (s.now + 5), bus := bus } })) ∧
    (s.sld.phase = .reading n → 3 ≤ n → ∃ bus ∈ failures,
      exec .eepromAttemptFailed s = .next (settle (halted (s.fresh + 1) bus))) ∧
    (∀ due, s.sld.phase = .retryWait n due →
      exec .eepromRetryWaitExpiry s =
        .next (settle { s.timeTo due with sld := { s.sld with phase := .reading (n + 1) } }))) ∧
  (∀ (s : State) (r : Settings) (d : BitVec 16), s.rstn = false → s.sld.phase = .validated r d →
    let handed : State := { s with
      sld := { s.sld with settings := some r, phase := .handedOver }
      ptu := { s.ptu with digest := some d }
      wdu := { s.wdu with bootAllowance := r.bootAllowance } }
    let bringing : Mctl := { s.mctl with mem := .bringingUp, geometry := some r.geometry, retention := false }
    (s.sld.warm = false → s.mctl.mem ≠ .selfRefresh →
      exec .settingRecordHandover s = .next (settle { handed with mctl := bringing })) ∧
    (s.mctl.mem = .selfRefresh → s.mctl.geometry = some r.geometry →
      exec .settingRecordHandover s = .next (settle { handed with mctl := { s.mctl with leaving := true } })) ∧
    (s.mctl.mem = .selfRefresh → s.mctl.geometry ≠ some r.geometry →
      exec .settingRecordHandover s = .next (settle { handed with mctl := bringing })) ∧
    (s.sld.warm = true → s.mctl.mem ≠ .selfRefresh → exec .settingRecordHandover s = .next (settle s)))

/-- The memory is reported up in SETUP (R60 to R62, R97, R100, R103, R176, R182, R201): the pool is set up with every line
FREE, the history starts with a STARTED mark in serving role (kept where a warm restart left it whole), the station enters
LISTEN with its engine in SYNCING, and NTU is given STARTED, then a FEED-FAULT owed since the derivation. STARTED's detail
in uplink role, which keeps no history, is 2 after a warm restart (log 35, deduced). -/
def Obligations.MemoryUpEntersListen : Prop :=
  ∀ (s : State) (r : Settings), s.rstn = false → s.sld.settings = some r → s.ptu.state = .setup →
    s.mctl.mem = .bringingUp ∨ s.mctl.leaving = true →
    let ring := 2 ^ r.historyLog
    let kept := s.serving && s.sld.warm && s.mctl.retention && Decidable.decide (s.ccu.ringSize = ring)
    let how := if s.sld.warm then (if kept then 1 else 2) else 0
    let noted := s.ntu.raise s.now .started [byte how]
    let started : Ccu := { ringSize := ring }
    let old : Ccu := { s.ccu with lost := 0, garbled := 0, window := [], run := 0 }
    let base := if kept then old else started
    exec .memoryBringupComplete s = .next (settle { s with
      mctl := { s.mctl with mem := .up, leaving := false, debt := 0 }
      lpm := { poolSize := r.poolSize, reserve := r.reserve }
      ccu :=
        if s.serving then { base.putMark s.now .started how with running := true, rx := .seekingIdle } else {}
      lif := { s.lif with engine := .syncing }
      ptu := { s.ptu with state := .listen, boundary := some (after s.now r.presenceMs) }
      psq := { s.psq with faultOwed := false }
      ntu := if s.psq.faultOwed then noted.raise s.now .feedFault [seqCode s.psq.state] else noted })

/-- PSQ derives its state once SLD has handed the record over (R2, R26, R27): ON or RESTING with the feed closed, FEED-CUT
with the feed open, where an active PGOOD is a feed fault that is raised when NTU takes raises. The level is read through
the record's polarity. POWER-STATE is raised as at any change of state (log 21). -/
def Obligations.PsqDerivesItsStateFromFeedAndPgood : Prop :=
  ∀ (s : State) (r : Settings) (pinHigh : Bool), s.rstn = false → s.sld.settings = some r → s.serving = true →
    s.psq.state = none →
    let active : Bool := pinHigh = r.pgoodHigh
    let rest := after s.now (sec r.rest)
    let told := fun (bytes : Bytes) => (s.raise .powerState bytes).ntu
    (s.psq.feedClosed = true → active = true → exec (.psqStateDerived pinHigh) s = .next (settle { s with
      psq := { feedClosed := true, pgood := true, state := some .on }
      wdu := { s.wdu with
        early := 0, lastBeat := none, holdoff := false
        deadline := if s.wdu.armed then some (after s.now (sec s.wdu.bootAllowance)) else s.wdu.deadline
        phase := if s.wdu.armed then .boot else s.wdu.phase }
      ntu := told [7, 0, 0, 0] })) ∧
    (s.psq.feedClosed = true → active = false → exec (.psqStateDerived pinHigh) s = .next (settle { s with
      psq := { feedClosed := true, state := some .resting, restPhase := .running, restT := some rest }
      ntu := told [3, 0, 0, 0] })) ∧
    (s.psq.feedClosed = false → active = false → exec (.psqStateDerived pinHigh) s = .next (settle { s with
      psq := { feedClosed := false, state := some .feedCut, restPhase := .running, restT := some rest }
      ntu := told [1, 0, 0, 0] })) ∧
    (s.psq.feedClosed = false → active = true → exec (.psqStateDerived pinHigh) s = .next (settle { s with
      psq := { feedClosed := false, pgood := true, state := some .feedCut, restPhase := .awaitingFall
               faultOwed := !s.takesRaises }
      ntu := if s.takesRaises then ((s.raise .powerState [1, 0, 0, 0]).raise .feedFault [1]).ntu
        else s.ntu }))

/-! ### Membership and the lane -/

/-- A presence-period boundary (R177, R182, R184, R35): each present peer's missed count goes up by 1 and at 3 the peer is
declared absent and leaves both admission lists; LISTEN ends in MEMBER; the beacon debt goes up by 1, held at 2, where the
last beacon still waits, and the next boundary is one presence period later. At the end of LISTEN a serving station retracts
its own number's standing, with 1 added to PSQ's retract count, the releases kept during LISTEN join the own-frame list
behind the self-retract (R46, R47), one of them for a promotion of the own number by an absence of that boundary (R16), and
a claim that waits for MEMBER is asked where the count is 0 (R5). An absence takes the absent holder's claim, CLAIM-LOST
being raised with cause ABSENT (R194), the rack-mismatch condition is evaluated anew and its end told (R186), and in MEMBER
a promotion of the own number by one absence is a grant (R16, R40); that POWER-STATE still shows the slot which settle time
0 releases in the same event, and what a grant before PSQ has derived its state does, are log 21, the model's choices.
Station time comes to the boundary (log 4, the model's choice), the absences come before the end of LISTEN (log 15, the
model's choice), and the list has four places (log 47, deduced). -/
def Obligations.BoundaryAgesPeersAndOwesBeacons : Prop :=
  ∀ (s : State) (due : Time), s.rstn = false → s.ptu.boundary = some due →
    let gone := fun (x : Nat) => 1 ≤ x ∧ x ≤ 62 ∧ (s.ptu.peer x).present = true ∧ 2 ≤ (s.ptu.peer x).missed
    let told := s.ptu.state = .listen ∨ s.ptu.state = .member ∨ s.ptu.state = .silent
    let notice := fun (v : State) (kind : NoticeKind) =>
      (v.ntu.pending.find? (fun p => p.kind = kind)).map PendingNotice.detail
    ∃ u t, t = settle u ∧ exec .presenceBoundary s = .next t ∧
      t.now = (if reached due s.now then s.now else due) ∧ t.rstn = s.rstn ∧ t.pins = s.pins ∧ t.sld = s.sld ∧
      t.sdram = s.sdram ∧ t.pending = s.pending ∧ t.lif.engine = s.lif.engine ∧ t.ccu.captured = s.ccu.captured ∧
      t.ptu.boundary = some (after due s.period) ∧ t.ptu.digest = s.ptu.digest ∧
      (∀ x, 1 ≤ x → x ≤ 62 → t.ptu.peer x =
        if (s.ptu.peer x).present then
          (if 2 ≤ (s.ptu.peer x).missed then {} else { s.ptu.peer x with missed := (s.ptu.peer x).missed + 1 })
        else s.ptu.peer x) ∧
      (∀ x, 1 ≤ x → x ≤ 62 → (s.ptu.peer x).present = true → 2 ≤ (s.ptu.peer x).missed →
        x ∉ t.adm.roster.map Prod.fst ∧ x ∉ t.adm.waiting ∧ t.ord.holder ≠ some x ∧
        ∀ w ∈ t.cfw.watchers, w.station ≠ x) ∧
      t.ptu.state = (if s.ptu.state = .listen then .member else s.ptu.state) ∧
      (s.ptu.state = .listen ∨ s.ptu.state = .member ∨ s.ptu.state = .haltedSetup → s.legalNumber = true →
        t.ptu.debt = (match s.ptu.standing with
          | some .held => min 2 (s.ptu.debt + 1)
          | some (.listed _) => min 2 (s.ptu.debt + 1)
          | _ => s.ptu.debt) ∧
        ((∀ seq, s.ptu.standing ≠ some (.inTenure seq)) → t.ptu.beaconClass = if 2 ≤ t.ptu.debt then 0 else 3)) ∧
      ((∀ x, 1 ≤ x → x ≤ 62 → (s.ptu.peer x).present = true → (s.ptu.peer x).missed < 2) →
        t.adm.roster = s.adm.roster ∧ t.adm.waiting = s.adm.waiting ∧
        (s.ptu.state ≠ .listen →
          t.adm.own.map OwnFrame.kind = s.adm.own.map OwnFrame.kind ∧ t.adm.kept = s.adm.kept ∧ t.psq = s.psq)) ∧
      (s.ptu.state = .listen → (s.ptu.peer s.own).present = false →
        s.psq.state ≠ some .awaitingSlot ∨ s.psq.claimAsked = false →
        let mine := t.adm.roster.map Prod.fst
        let promoted := if s.serving = true ∧ s.own ∉ s.adm.roster.map Prod.fst ∧ s.own ∈ mine then 1 else 0
        let entry : List OwnKind :=
          if s.serving = false then [] else if s.own ∈ mine then [.release]
          else if s.own ∈ t.adm.waiting then [.withdraw] else []
        let retract := s.psq.retract + promoted + entry.length
        let claims : Bool := s.psq.state = some .awaitingSlot ∧ retract = 0 ∧ s.psq.claimAsked = false
        let start : StartKind := if s.psq.variant = .feedRestore then .feedRestore else .powerOn
        t.adm.own.map OwnFrame.kind =
          (s.adm.own.map OwnFrame.kind ++ entry ++ List.replicate (s.adm.kept + promoted) OwnKind.release ++
            (if claims then [OwnKind.claim start] else [])).take 4 ∧
        t.adm.kept = 0 ∧ t.psq = { s.psq with retract := retract, claimAsked := s.psq.claimAsked || claims }) ∧
      (∀ x, gone x → s.ord.holder = some x →
        t.ord.holder = none ∧ t.ord.holdTime = 0 ∧ (told → notice u .claimLost = some [byte x, 0, 2])) ∧
      ((∀ x, gone x → s.ord.holder ≠ some x) → t.ord.holder = s.ord.holder ∧ notice u .claimLost = notice s .claimLost) ∧
      (let bad := stationNumbers.filter (fun y => (t.ptu.peer y).present && (t.ptu.peer y).digestMatch = .no)
       ((∃ x, gone x) → (t.ptu.mismatch = true ↔ bad ≠ [])) ∧
       (s.ptu.mismatch = true → (∃ x, gone x) → bad = [] → told → notice u .rackMismatch = some [0, 0, 0]) ∧
       (s.ptu.mismatch = true → bad ≠ [] → notice u .rackMismatch = notice s .rackMismatch)) ∧
      ((∀ x, ¬ gone x) → t.ptu.mismatch = s.ptu.mismatch ∧ u.ntu = s.ntu) ∧
      (∀ x, gone x → (∀ y, gone y → y = x) → s.serving = true → s.ptu.state = .member → AdmissionOrdered s →
        s.own ∉ s.adm.roster.map Prod.fst → s.own ∈ t.adm.roster.map Prod.fst →
        (s.grantReleases = true → cancelPair (s.adm.ownWith [{ kind := .release }]) = none) →
        ∃ w, ({ s with now := t.now } : State).GrantTaken w ∧ t.psq = w.psq ∧ t.wdu = w.wdu ∧ u.ccu = w.ccu ∧
          notice u .powerState = notice w .powerState)

/-- A tenure begins (R157 to R159, R161): from QUIET, once the quiet count has reached 16, or 48 while the sit-out flag is
set, in MEMBER or HALTED-SETUP, the head of the send list with its body ready is IN-TENURE and its lead bit driven; the
engine is in BIDDING. Its bytes are the bid of class and station number, destination,
kind, length, body and the CRC-16 of all before it. The body is the frame's own, a LINE-GIVE's key with the 2,048 bytes read
(R169), the beacon of this moment (R185), or the notice chosen now, of the highest group and there of the lowest raise
number, with its kind, group, time and detail (R199). Its owner finds it IN-TENURE. With the sit-out flag set and the long
gap not reached, or with no frame ready at the head, it begins nothing. That the command tells the short gap reached, and
SIT_OUT_CLEAR the long one, is log 11, the model's choice. -/
def Obligations.BidBeginsATenure : Prop :=
  (∀ (s : State) (e : SendEntry), s.rstn = false →
    s.lif.engine = .quiet → s.lif.sitOut = false ∨ 48 ≤ s.lif.quiet →
    s.ptu.state = .member ∨ s.ptu.state = .haltedSetup → s.legalNumber = true → s.lif.head = some e →
    (∃ b, e.payload = .body b) ∨ (∃ key line data, e.payload = .give key line ∧ s.lif.giveBuf = .loaded e.seq data) ∨
      (e.payload = .atTenure ∧ (e.owner = .ptu ∨ s.ntu.pending ≠ [])) →
    let now := Standing.inTenure e.seq
    ∃ (body : Bytes) (u : State), exec .laneBidBegin s = .next (settle u) ∧
      (∀ b, e.payload = .body b → body = b) ∧
      (∀ key line data, e.payload = .give key line → s.lif.giveBuf = .loaded e.seq data →
        body = be 2 key.image ++ be 1 key.gen ++ be 4 key.line ++ data) ∧
      (e.payload = .atTenure → e.owner = .ptu →
        (s.ptu.state = .haltedSetup → body = [Role.code s.sld.role, 4] ++ List.replicate 12 0) ∧
        (s.ptu.state = .member →
          let beacon : Beacon :=
            { role := s.sld.role
              state := .member
              digest := s.ptu.digest.getD 0
              seq :=
                if s.serving then
                  { state := seqCode s.psq.state, variant := s.psq.variant.code, pendingAct := s.psq.pendingAct.code,
                    slotHeld := flag s.psq.slotHeld }
                else { state := 4, variant := 0, pendingAct := 0, slotHeld := 0 }
              attach := if s.mfn.state = .none then (0, 0) else (s.mfn.image, s.mfn.gen)
              roster := s.adm.roster.map Prod.fst
              waiting := s.adm.waiting
              holder := if s.serving then s.ord.holder.getD 0 else 0 }
          body = beacon.bytes)) ∧
      (e.payload = .atTenure → e.owner = .ntu → ∃ p ∈ s.ntu.pending,
        (∀ q ∈ s.ntu.pending, q.kind.group < p.kind.group ∨ (q.kind.group = p.kind.group ∧ p.raise ≤ q.raise)) ∧
        body = [p.kind.code, byte p.kind.group] ++ be 4 p.time.toNat ++ p.detail ∧ u.ntu.inTenure = some p.kind) ∧
      (let frame : LaneFrame :=
        { cls := BitVec.ofNat 2 e.cls, sender := BitVec.ofNat 6 s.own, dest := e.dest, kind := e.kind.code, body := body }
       let content := [BitVec.ofNat 8 (64 * (e.cls % 4) + s.own), e.dest, e.kind.code] ++ be 2 body.length ++ body
       u.lif = { s.lif with
         engine := .bidding
         quiet := 0, sitOut := false, ltx := true, drove := .leadBit
         sendList := s.lif.sendList.map (fun x => if x.seq = e.seq then { x with inTenure := true } else x)
         tenure := some { seq := e.seq, frame := frame, bytes := content ++ be 2 (crc16 content).toNat } }) ∧
      u = { s with lif := u.lif, adm := u.adm, ptu := u.ptu, ntu := u.ntu, cfw := u.cfw, xch := u.xch } ∧
      u.adm = (if e.owner = .adm then { s.adm with
        own := s.adm.own.map (fun f => if f.standing.isAt e.seq then { f with standing := now } else f) } else s.adm) ∧
      u.ptu = (if e.owner = .ptu then { s.ptu with standing := some now } else s.ptu) ∧
      u.ntu = (if e.owner = .ntu then { s.ntu with
        standing := some now, inTenure := s.ntu.choose.map PendingNotice.kind, raisedAgain := false } else s.ntu) ∧
      u.cfw = (if e.owner = .cfw then { s.cfw with
        out := s.cfw.out.map (fun o => if o.isAt e.seq then { o with standing := .frame now } else o) } else s.cfw) ∧
      u.xch = (if e.owner = .xchWant ∨ e.owner = .xchGive then { s.xch with
        wants := s.xch.wants.map (fun w => match w.state with
          | .queued st => if st.isAt e.seq then { w with state := .queued now } else w
          | _ => w)
        gives := s.xch.gives.map (fun g => if g.standing.isAt e.seq then { g with standing := now } else g) }
        else s.xch)) ∧
  (∀ s : State, s.rstn = false → s.lif.engine = .quiet → s.lif.sitOut = true → s.lif.quiet < 48 →
    exec .laneBidBegin s = .next (settle s)) ∧
  (∀ s : State, s.rstn = false →
    (∀ e, s.lif.head = some e → (∃ key line, e.payload = .give key line) ∧ ∀ data, s.lif.giveBuf ≠ .loaded e.seq data) →
    exec .laneBidBegin s = .next (settle s))

/-- A station that reads dominant where it drove recessive (R158, R160): in the bid it withdraws, its frame stays in its
place with its retry count as it was and is LISTED again at its owner, an orphaned CONSOLE-OUT leaving the list (R70) and a
CLAIM with a WITHDRAW behind it cancelled, the withdraw settled (R5, R42, R44; the list's four places log 47, deduced; a
retract count of 0 stays 0, log 21, the model's choice); after the bid it stops, receives the rest, and its outcome is
held. -/
def Obligations.LostBidAndMismatchStopTheSender : Prop :=
  (∀ (s : State) (e : SendEntry) (t : Tenure), s.rstn = false → s.lif.engine = .bidding → s.lif.tenure = some t →
    s.lif.entry t.seq = some e →
    let back := Standing.listed e.seq
    let sent := s.lif.sendList.map (fun x => if x.seq = e.seq then { x with inTenure := false } else x)
    let lif : Lif := { s.lif with
      engine := .receiving, ltx := false, drove := .nothing, tenure := none, sendList := sent }
    let own := s.adm.own.map (fun f => if f.standing.isAt e.seq then { f with standing := back } else f)
    let lost := fun (u : State) => exec .bidLost s = .next (settle u)
    (e.owner = .ptu → lost { s with lif := lif, ptu := { s.ptu with standing := some back } }) ∧
    (e.owner = .ntu → lost { s with
      lif := lif, ntu := { s.ntu with standing := some back, inTenure := none, raisedAgain := false } }) ∧
    (e.owner = .ord ∨ e.owner = .upb → lost { s with lif := lif }) ∧
    (e.owner = .xchWant ∨ e.owner = .xchGive → lost { s with
      lif := lif
      xch := { s.xch with
        wants := s.xch.wants.map (fun w => match w.state with
          | .queued st => if st.isAt e.seq then { w with state := .queued back } else w
          | _ => w)
        gives := s.xch.gives.map (fun g => if g.standing.isAt e.seq then { g with standing := back } else g) } }) ∧
    (e.owner = .cfw →
      (∀ o, s.cfw.out = some o → o.isAt e.seq = true → o.orphaned = false →
        lost { s with lif := lif, cfw := { s.cfw with out := some { o with standing := .frame back } } }) ∧
      (∀ o, s.cfw.out = some o → o.isAt e.seq = true → o.orphaned = true →
        ∃ u, lost u ∧ u = { s with
          lif := { lif with sendList := sent.filter (fun x => x.seq ≠ e.seq), giveBuf := u.lif.giveBuf }
          mctl := { s.mctl with waitSend := u.mctl.waitSend }
          cfw := { s.cfw with out := none } }) ∧
      ((∀ o, s.cfw.out = some o → o.isAt e.seq = false) → lost { s with lif := lif })) ∧
    (e.owner = .adm →
      (cancelPair own = none → lost { s with lif := lif, adm := { s.adm with own := own } }) ∧
      (∀ c w rest, cancelPair own = some (c, w, rest) →
        ∃ u, lost u ∧ s.RetractSettles u rest ∧ lif.PairCancelled u.lif c w ∧ u = { s with
          lif := { lif with sendList := u.lif.sendList, giveBuf := u.lif.giveBuf }
          mctl := { s.mctl with waitSend := u.mctl.waitSend }
          adm := { s.adm with own := u.adm.own }
          psq := u.psq }))) ∧
  (∀ s : State, s.rstn = false → s.lif.engine = .sending → exec .bidLost s = .next (settle { s with
    lif := { s.lif with
      engine := .receiving, ltx := false, drove := .nothing
      tenure := s.lif.tenure.map (fun t => { t with stopped := true }) } }))

/-- A tenure of this station's ends (R157, R158, R162, R165): a sender that read its slots passes to QUIET; one that stopped
has received the rest, found an error in it, driven what R162 has it drive unless it had done so before, and waits in
DISCARDING (log 12, log 17); the sit-out flag is set either way. A BEACON or a REPLY that is TAKEN, or NOT-TAKEN and sent to
all, leaves the list; any other has its retry count raised, stays while that is below the limit, and else is given up. For
a beacon the debt is cleared or raised accordingly (R187). -/
def Obligations.TenureEndsWithItsOutcome : Prop :=
  ∀ (s : State) (e : SendEntry) (t : Tenure) (how : TenureEnd) (straps : Straps), s.rstn = false →
    s.lif.engine = .bidding ∨ s.lif.engine = .sending ∨
      ((s.lif.engine = .receiving ∨ s.lif.engine = .discarding) ∧ t.stopped = true ∧ ∀ spoil take, how ≠ .slots spoil take) →
    s.lif.tenure = some t → s.lif.entry t.seq = some e → s.ord.restartReply ≠ some e.seq →
    let outcome := TenureEnd.outcome how
    let limit := if s.ptu.state = .haltedSetup then 4 else s.setting Settings.retryLimit
    let done := outcome = .taken ∨ (outcome = .notTaken ∧ e.dest = toAll)
    ∃ u, exec (.senderTenureEnd how straps) s = .next (settle u) ∧
      (match how with
        | .slots _ _ => u.lif.engine = .quiet ∧ u.lif.drove = .nothing
        | .stopped error tailRemains => u.lif.engine = .discarding ∧ u.lif.drove =
          if s.lif.engine = .discarding then s.lif.drove
          else if s.ptu.state = .silent ∨ error = .tailDominant then .nothing
          else if tailRemains ∧ error ≠ .badCheck then .tailBit else .spoilSlot) ∧
      u.lif.sitOut = true ∧ u.lif.ltx = false ∧ u.lif.tenure = none ∧ u.lif.quiet = 0 ∧
      u.now = s.now ∧ u.rstn = s.rstn ∧ u.pins = s.pins ∧ u.sld = s.sld ∧ u.sdram = s.sdram ∧ u.pending = s.pending ∧
      ((e.owner = .ptu ∧ t.frame.kind = FrameKind.beacon.code) ∨ (e.owner = .ord ∧ t.frame.kind = FrameKind.reply.code) →
        (done → u.lif.sendList = s.lif.sendList.filter (fun x => x.seq ≠ e.seq)) ∧
        (¬ done → e.retry + 1 < limit → u.lif.sendList = s.lif.sendList.map (fun x =>
          if x.seq = e.seq then { x with retry := x.retry + 1, inTenure := false } else x)) ∧
        (¬ done → limit ≤ e.retry + 1 → u.lif.sendList = s.lif.sendList.filter (fun x => x.seq ≠ e.seq)) ∧
        u.adm = s.adm ∧ u.psq = s.psq ∧ u.cfw = s.cfw ∧ u.xch = s.xch ∧ u.lpm = s.lpm ∧ u.ord = s.ord) ∧
      (e.owner = .ptu →
        (done → u.ptu = { s.ptu with standing := none, debt := 0 }) ∧
        (¬ done → e.retry + 1 < limit → u.ptu = { s.ptu with standing := some (.listed e.seq) }) ∧
        (¬ done → limit ≤ e.retry + 1 → u.ptu = { s.ptu with standing := none, debt := min 2 (s.ptu.debt + 1) }))

/-- What each other owner does with its frame's outcome: an own retract that completes is settled, and with the retract
count at 0 in AWAITING-SLOT a claim not yet asked is asked (R5, R42; the list's four places log 47, deduced; a count of 0
stays 0, log 21, the model's choice), one to be retried is QUEUED again, one given up returns to HELD with every later
QUEUED one, which leaves the send list, and a CLAIM with a WITHDRAW behind it is cancelled there, the withdraw settled (R32,
R33, R42 to R45); a NOTICE that is TAKEN clears its flag unless its kind was raised again, and one NOT-TAKEN or GIVEN-UP
starts the pause of 1 s (R200), and in uplink role each unspoiled one joins the computer's inbound queue where that has a
free place (R201, R208); a CONSOLE-OUT that is TAKEN or GIVEN-UP settles its watcher's account (R75, R76; log 55, the
model's choice, for the wait start that a frame leaves absent where no byte is unsent), and an orphaned one, whichever way
it ends, leaves the list and every watcher as it is (R70); a LINE-WANT that ends or is given up leaves its want SENT with
its timer started (R142); a LINE-GIVE that ends or is given up leaves the give list and its line is unpinned (R150); the
computer's frame that is given up comes back as a delivery-failed unit (R207). -/
def Obligations.OwnersTakeTheOutcome : Prop :=
  ∀ (s : State) (e : SendEntry) (t : Tenure) (how : TenureEnd) (straps : Straps), s.rstn = false →
    s.lif.endsAs how = true → s.lif.tenure = some t → s.lif.entry t.seq = some e →
    s.ord.restartReply ≠ some e.seq → t.frame.kind = e.kind.code → t.frame.dest = e.dest → t.frame.sender.toNat = s.own →
    let limit := if s.ptu.state = .haltedSetup then 4 else s.setting Settings.retryLimit
    let taken := TenureEnd.outcome how = .taken
    let done := taken ∨ (TenureEnd.outcome how = .notTaken ∧ e.dest = toAll)
    let retried := ¬ done ∧ e.retry + 1 < limit
    let givenUp := ¬ done ∧ limit ≤ e.retry + 1
    let back := Standing.listed e.seq
    let due := after s.now (s.setting Settings.wantTimer)
    ∃ u, exec (.senderTenureEnd how straps) s = .next (settle u) ∧
      (e.owner = .adm →
        (retried →
          let own := s.adm.own.map (fun f => if f.standing.isAt e.seq then { f with standing := back } else f)
          let lif : Lif := { s.lif with sendList := s.lif.sendList.map (fun x =>
            if x.seq = e.seq then { x with retry := x.retry + 1, inTenure := false } else x) }
          (cancelPair own = none → u.adm = { s.adm with own := own } ∧ u.psq = s.psq) ∧
          (∀ c w rest, cancelPair own = some (c, w, rest) → s.RetractSettles u rest ∧
            u.adm.roster = s.adm.roster ∧ u.adm.waiting = s.adm.waiting ∧ lif.PairCancelled u.lif c w)) ∧
        (givenUp → ∀ before after' f, s.adm.own = before ++ f :: after' → f.standing.isAt e.seq = true →
          (∀ g ∈ before, g.standing.isAt e.seq = false ∧ ∀ h ∈ f :: after', g.standing ≠ h.standing) →
          let own := before ++ (f :: after').map (fun g => { g with standing := .held })
          (cancelPair own = none → u.adm = { s.adm with own := own } ∧ u.psq = s.psq) ∧
          (∀ c w rest, cancelPair own = some (c, w, rest) → s.RetractSettles u rest ∧
            u.adm.roster = s.adm.roster ∧ u.adm.waiting = s.adm.waiting ∧
            ∀ q x, c.standing = .listed q → s.lif.entry q = some x → x.inTenure = false → u.lif.entry q = none) ∧
          ∀ g ∈ after', ∀ q x, g.standing = .listed q → s.lif.entry q = some x → x.inTenure = false →
            u.lif.entry q = none) ∧
        (done → e.dest = toAll → t.frame.body = [] → s.ptu.state = .member →
          s.legalNumber = true → AdmissionOrdered s → ∀ f, s.adm.own.find? (fun g => g.standing.isAt e.seq) = some f →
          (e.kind = .admitRelease ∧ f.kind = .release) ∨ (e.kind = .admitWithdraw ∧ f.kind = .withdraw) →
          let rosterLess := s.adm.roster.filter (fun g => g.1 ≠ s.own)
          let waitingLess := s.adm.waiting.filter (fun y => y ≠ s.own)
          let room := s.setting Settings.slotCount - rosterLess.length
          s.RetractSettles u (s.adm.own.filter (fun g => !g.standing.isAt e.seq)) ∧
          u.adm.roster = rosterLess ++ (waitingLess.take room).map (fun y => (y, s.now)) ∧
          u.adm.waiting = waitingLess.drop room)) ∧
      (e.owner = .ntu → e.kind = .notice →
        (taken → ∀ k, s.ntu.inTenure = some k → s.ntu.raisedAgain = false → u.ntu = { s.ntu with
          standing := none, inTenure := none, pending := s.ntu.pending.filter (fun p => p.kind ≠ k) }) ∧
        (taken → ∀ k, s.ntu.inTenure = some k → s.ntu.raisedAgain = true → u.ntu = { s.ntu with
          standing := none, inTenure := none, raisedAgain := false, counter := s.ntu.counter + 1
          pending := s.ntu.pending.map (fun p => if p.kind = k then { p with raise := s.ntu.counter } else p) }) ∧
        (retried → u.ntu = { s.ntu with standing := some back, inTenure := none, raisedAgain := false }) ∧
        (¬ taken → ¬ retried → u.ntu = { s.ntu with
          standing := none, inTenure := none, raisedAgain := false, pause := some (after s.now 1000) }) ∧
        (e.dest = toAll → (∀ x ∈ s.lif.sendList, x.owner = .upb → x.seq ≠ e.seq) →
          (s.serving = false → TenureEnd.outcome how ≠ .spoiled → 1 ≤ s.upbFree → u.upb = { s.upb with
            inq := s.upb.inq ++ [{ sender := byte s.own, dest := 63, kind := 7, body := t.frame.body }] }) ∧
          (s.serving = true ∨ TenureEnd.outcome how = .spoiled ∨ s.upbFree = 0 → u.upb = s.upb))) ∧
      (e.owner = .cfw → e.kind = .consoleOut → ∀ o, s.cfw.out = some o → o.isAt e.seq = true → o.orphaned = true →
        u.cfw = { s.cfw with out := none } ∧ ∀ x ∈ u.lif.sendList, x.seq ≠ e.seq) ∧
      (e.owner = .cfw → e.kind = .consoleOut → ∀ o w r, s.cfw.out = some o → o.isAt e.seq = true → o.orphaned = false →
        o.station = w.station → w ∈ s.cfw.watchers → w.inFlight = some r →
        (retried → u.cfw = { s.cfw with out := some { o with standing := .frame back } }) ∧
        (¬ retried → u.cfw.out = none) ∧
        (done → { w with inFlight := none, gap := w.gap - r.gap, nextMark := r.resume } ∈ u.cfw.watchers) ∧
        (givenUp → r.start ≤ r.finish →
          let oldest := s.ccu.oldest
          let ptr := if r.finish < oldest then w.sendPtr else max r.start oldest
          let lost := if oldest ≤ r.start then 0 else min r.finish oldest - r.start
          { w with
            inFlight := none, sendPtr := ptr, gap := min (w.gap + lost) 4294967295, pause := some (after s.now 100)
            waitStart := if ptr < s.ccu.stored then some s.now else none } ∈ u.cfw.watchers)) ∧
      (e.owner = .xchWant → e.kind = .lineWant → u.xch = { s.xch with
        wants := s.xch.wants.map (fun w => match w.state with
          | .queued st =>
            if st.isAt e.seq then
              (if e.retry + 1 < limit ∧ ¬ done then { w with state := .queued back }
               else { w with state := .sent, timer := some due })
            else w
          | _ => w)
        gives := u.xch.gives }) ∧
      (e.owner = .xchGive → e.kind = .lineGive →
        (retried → u.lpm = s.lpm ∧
          u.xch.gives = s.xch.gives.map (fun g => if g.standing.isAt e.seq then { g with standing := back } else g)) ∧
        (¬ retried → u.xch = { s.xch with gives := s.xch.gives.filter (fun g => !g.standing.isAt e.seq) } ∧
          ∀ g, s.xch.gives.filter (fun g => g.standing.isAt e.seq) = [g] → s.lpm.Unpinned u.lpm g.line)) ∧
      (e.owner = .upb →
        (givenUp → u.upb = { s.upb with inq := s.upb.inq ++
          [{ sender := byte s.own, dest := e.dest, kind := e.kind.code ||| 128, body := t.frame.body }] }) ∧
        (¬ givenUp → u.upb = s.upb))

/-- The warm restart (R27, R61, R81, R95, R101, R114, R137, R155, R175, R188, R189, R196, R201, R202): it begins at the end
of the REPLY to RESTART with TAKEN or GIVEN-UP. Every block starts anew; FEED_EN keeps its level, the history stops with
its loss marks written, an attachment's end is remembered as RESTART, and MCTL drains its capture writes with every other
waiting request discarded and a request in progress unreported. The straps are sampled anew; with station number 0 or 63
HALTED-SETUP follows at once, with 1,000 ms boundaries, and no beacon is offered (log 32). The values that the spec does not
give at a start are those of log 9, and the mark of the drain is log 27: the model's choices. -/
def Obligations.RestartReplyBeginsAWarmRestart : Prop :=
  ∀ (s : State) (e : SendEntry) (t : Tenure) (how : TenureEnd) (straps : Straps), s.rstn = false →
    s.lif.engine = .bidding ∨ s.lif.engine = .sending ∨ (t.stopped = true ∧ ∀ spoil take, how ≠ .slots spoil take) →
    s.lif.tenure = some t → s.lif.entry t.seq = some e → s.ord.restartReply = some e.seq →
    TenureEnd.outcome how = .taken ∨ s.tenureReport e (TenureEnd.outcome how) = .givenUp →
    let legal : Bool := straps.snum ≠ 0 ∧ straps.snum ≠ 63
    ∃ u, exec (.senderTenureEnd how straps) s = .next (settle u) ∧
      u = { s with
        now := 0
        sld :=
          { role := straps.role, snum := straps.snum.toNat, phase := if legal then .reading 1 else .halted
            warm := true, settings := none }
        ptu := if legal then {} else { state := .haltedSetup, boundary := some 1000 }
        lif := if legal then {} else { engine := .syncing }
        adm := {}, wdu := {}, cfw := {}, lpm := {}, xch := {}, ord := {}, ntu := {}, upb := {}
        psq := { feedClosed := s.psq.feedClosed }
        ccu := { (if s.ccu.running then s.ccu.putLosses s.now else s.ccu) with rx := .held, running := false }
        mfn := { port := if s.pins.vbsense then .disconnected else .unpowered
                 lastCause := if s.mfn.state = .none then s.mfn.lastCause else some .restart }
        mctl := { s.mctl with
          restarting := true, leaving := false, waitRecv := [], waitMedia := [], waitForward := none, waitSend := none
          current := u.mctl.current } } ∧
      (u.mctl.current.map InProgress.req = s.mctl.current.map InProgress.req) ∧
      (∀ c, u.mctl.current = some c → (∀ n, c.req ≠ .capture n) → c.reported = false)

/-- The engine outside its own tenures: 16 quiet bit times take it from SYNCING or DISCARDING to QUIET and 48 clear the
sit-out flag (R157, R158); a receiver that finds an error discards the rest of the tenure, driving the tail of its byte or
the spoil slot where R162 has it do so, and nothing in SILENT; a frame read whole and spoiled leaves no take behind (R156,
R162, R163, R171). That the quiet count stands at what was last known of it is log 11, the model's choice. -/
def Obligations.EngineActsOnQuietErrorsAndSpoils : Prop :=
  (∀ s : State, s.rstn = false →
    (s.lif.engine = .syncing ∨ s.lif.engine = .discarding → s.lif.tenure = none →
      exec .laneSyncQuiet s =
        .next (settle { s with lif := { s.lif with engine := .quiet, quiet := 16, drove := .nothing } })) ∧
    (s.lif.engine = .quiet → s.lif.sitOut = true →
      exec .sitOutClear s = .next (settle { s with lif := { s.lif with sitOut := false, quiet := 48 } }))) ∧
  (∀ (s : State) (error : RxError) (tailRemains : Bool), s.rstn = false →
    s.lif.engine = .quiet ∨ s.lif.engine = .receiving →
    exec (.receiveError error tailRemains) s = .next (settle { s with lif := { s.lif with
      engine := .discarding, quiet := 0, sitOut := false
      drove :=
        if s.ptu.state = .silent ∨ error = .tailDominant then .nothing
        else if tailRemains ∧ error ≠ .badCheck then .tailBit else .spoilSlot } })) ∧
  (∀ (s : State) (f : LaneFrame), s.rstn = false → s.lif.engine = .quiet ∨ s.lif.engine = .receiving →
    s.lif.tenure = none → f.body.length ≤ 2064 → f.sender.toNat ≠ s.own → s.lif.takeHeld = none →
    exec (.receivedFrameSpoiled f) s = .next (settle { s with lif := { s.lif with
      engine := .quiet, quiet := 0, sitOut := false, ltx := false, drove := .nothing } }))

/-- A serving station hears the sender of a frame (R181) and takes an ORDER addressed to it, in MEMBER and in HALTED-SETUP,
while the inbox with the orders not yet handed over holds fewer than 4, and in MEMBER a CONSOLE-IN of the claim holder with
1 to 256 bytes for which the input queue has room, its bytes reserved; both while the receive queue holds fewer than 8
(R78, R163, R170, R171). Handed over, the one is a WAITING order and the other's bytes join the input queue (R172, R189).
A frame that is not taken leaves nothing but its sender's presence. -/
def Obligations.OrderAndConsoleInFramesAreTaken : Prop :=
  ∀ (s : State) (f : LaneFrame), s.Reads f → s.serving = true → s.lif.takeHeld = none →
    let x := f.sender.toNat
    let len := f.body.length
    let idle : Lif := { s.lif.afterFrame with drove := .takeSlot }
    let heard : State := { s with ptu := s.hearing x, lif := idle }
    let placed : State := { heard with lif := { idle with recvQueue := s.lif.recvQueue ++ [f] } }
    let answers := fun (handovers : Nat) (t : State) => exec (.frameCompleteUnspoiled f handovers) s = .next (settle t)
    let passed := answers 0 { s with ptu := s.hearing x, lif := s.lif.afterFrame }
    let mine := f.dest.toNat = s.own
    let orderFits := mine ∧ s.ord.inbox.length + s.lif.ordersHeld < 4 ∧ s.lif.recvQueue.length < 8 ∧
      (s.ptu.state = .member ∨ (s.ptu.state = .haltedSetup ∧ s.legalNumber = true))
    let textFits := mine ∧ s.ord.holder = some x ∧ 1 ≤ len ∧ len ≤ 256 ∧
      s.cfw.textCount + s.cfw.reserved + len ≤ 512 ∧ s.lif.recvQueue.length < 8 ∧ s.ptu.state = .member
    (f.kind = FrameKind.order.code →
      (orderFits → answers 0 placed ∧
        (s.lif.recvQueue = [] →
          answers 1 { heard with ord := { s.ord with inbox := s.ord.inbox ++ [{ sender := x, body := f.body }] } })) ∧
      (¬ orderFits → passed)) ∧
    (f.kind = FrameKind.consoleIn.code →
      (textFits → answers 0 { placed with cfw := { s.cfw with reserved := s.cfw.reserved + len } } ∧
        (s.lif.recvQueue = [] →
          answers 1 { heard with cfw := { s.cfw with queue := s.cfw.queue ++ f.body.map InputItem.text } })) ∧
      (¬ textFits → passed))

/-- An admission frame of another station X completes unspoiled in MEMBER, or in LISTEN after the copy (R29 to R33, R46): a
claim appends X to the roster where it has room and to the waiting list where not, a withdraw and a release take X out of
whichever list holds it, and heads of the waiting list are promoted while the roster has room. A frame that fails a test of
R30 is seen and ignored: in another station state, not sent to all, of sender 0 or 63, with a body that is not its kind's,
of a sender with another digest, or a claim of a known uplink. -/
def Obligations.AdmissionFramesMoveTheLists : Prop :=
  ∀ (s : State) (f : LaneFrame) (kind : FrameKind), s.rstn = false → s.lif.engine = .quiet ∨ s.lif.engine = .receiving →
    s.lif.tenure = none → f.sender.toNat ≠ s.own → f.body.length ≤ 2064 →
    kind = .admitClaim ∨ kind = .admitWithdraw ∨ kind = .admitRelease → f.kind = kind.code → AdmissionOrdered s →
    let x := f.sender.toNat
    let legal := 1 ≤ x ∧ x ≤ 62
    let applied := (s.ptu.state = .member ∨ (s.ptu.state = .listen ∧ s.adm.copied = true)) ∧ f.dest = toAll ∧ legal ∧
      (if kind = .admitClaim then f.body = [1] ∨ f.body = [2] else f.body = []) ∧ (s.ptu.peer x).digestMatch ≠ .no ∧
      (kind = .admitClaim → (s.ptu.peer x).role ≠ some .uplink)
    let slots := s.setting Settings.slotCount
    let inRoster := x ∈ s.adm.roster.map Prod.fst
    let isWaiting := x ∈ s.adm.waiting
    let promoted := fun (t : State) (roster : List (Nat × Time)) (waiting : List Nat) =>
      t.adm.roster = roster ++ (waiting.take (slots - roster.length)).map (fun y => (y, s.now)) ∧
      t.adm.waiting = waiting.drop (slots - roster.length) ∧ t.adm.expired = s.adm.expired
    let rosterLess := s.adm.roster.filter (fun e => e.1 ≠ x)
    let waitingLess := s.adm.waiting.filter (fun y => y ≠ x)
    ∃ t, exec (.frameCompleteUnspoiled f 0) s = .next t ∧ t.now = s.now ∧ t.sdram = s.sdram ∧ t.ord.holder = s.ord.holder ∧
      (kind = .admitClaim → applied →
        (inRoster ∨ isWaiting → promoted t s.adm.roster s.adm.waiting) ∧
        (¬ inRoster → ¬ isWaiting → s.adm.roster.length < slots →
          promoted t (s.adm.roster ++ [(x, s.now)]) s.adm.waiting) ∧
        (¬ inRoster → ¬ isWaiting → slots ≤ s.adm.roster.length →
          promoted t s.adm.roster (s.adm.waiting ++ [x]))) ∧
      (kind = .admitWithdraw ∨ kind = .admitRelease → applied → promoted t rosterLess waitingLess) ∧
      (¬ applied → t.adm.roster = s.adm.roster ∧ t.adm.waiting = s.adm.waiting ∧ t.adm.expired = s.adm.expired ∧
        t.adm.kept = s.adm.kept ∧ t.psq = s.psq ∧
        (s.serving = true → s.lif.takeHeld = none → t = settle { s with
          ptu := if legal then s.hearing x else s.ptu, lif := s.lif.afterFrame }))

/-- PSQ's grant (R16, R17, R40): at the end of its own ADMIT-CLAIM with room in the roster, and at a promotion out of the
waiting list by a peer's release or withdraw, this station's number enters its own roster and PSQ takes the slot and starts,
or asks the slot's release. The claim's entry leaves the own-frame list (R43). Where the roster is full the station joins
the waiting list's tail, and PSQ goes on waiting (R31). Where a CLAIM and a WITHDRAW behind it cancel is told of with the
retracts. That POWER-STATE still shows the slot which settle time 0 releases in the same event, and what a grant before PSQ
has derived its state does, are log 21, the model's choices; a release asked with four own frames is log 47 (deduced). -/
def Obligations.GrantStartsTheServerOrAsksARelease : Prop :=
  (∀ (s : State) (e : SendEntry) (t : Tenure) (own : OwnFrame) (start : StartKind) (take : Bool) (straps : Straps),
    s.rstn = false → s.serving = true → s.legalNumber = true → s.ptu.state = .member → AdmissionOrdered s →
    s.lif.engine = .bidding ∨ s.lif.engine = .sending → s.lif.tenure = some t → s.lif.entry t.seq = some e →
    s.ord.restartReply ≠ some e.seq → e.owner = .adm → e.dest = toAll → e.kind = .admitClaim →
    t.frame.kind = FrameKind.admitClaim.code → t.frame.dest = toAll → t.frame.sender.toNat = s.own →
    t.frame.body = [1] ∨ t.frame.body = [2] → s.adm.own.length ≤ 4 →
    s.adm.own.find? (fun g => g.standing.isAt e.seq) = some own → own.kind = .claim start →
    s.own ∉ s.adm.roster.map Prod.fst → s.own ∉ s.adm.waiting →
    (s.grantReleases = true → cancelPair (s.adm.ownWith [{ kind := .release }]) = none) →
    let slots := s.setting Settings.slotCount
    s.adm.roster.length < slots →
    let roster := s.adm.roster ++ [(s.own, s.now)]
    let asked := if s.grantReleases then s.adm.ownWith [{ kind := .release }] else s.adm.own
    ∃ u, exec (.senderTenureEnd (.slots false take) straps) s = .next (settle u) ∧ s.GrantTaken u ∧
      u.adm.roster = roster ++ (s.adm.waiting.take (slots - roster.length)).map (fun y => (y, s.now)) ∧
      u.adm.waiting = s.adm.waiting.drop (slots - roster.length) ∧
      u.adm.own = asked.filter (fun g => !g.standing.isAt e.seq) ∧
      u.now = s.now ∧ u.sdram = s.sdram ∧ u.ptu = s.ptu ∧ u.ord = s.ord ∧ u.cfw = s.cfw ∧ u.mfn = s.mfn) ∧
  (∀ (s : State) (e : SendEntry) (t : Tenure) (own : OwnFrame) (start : StartKind) (take : Bool) (straps : Straps),
    s.rstn = false → s.serving = true → s.legalNumber = true → s.ptu.state = .member → AdmissionOrdered s →
    s.lif.engine = .bidding ∨ s.lif.engine = .sending → s.lif.tenure = some t → s.lif.entry t.seq = some e →
    s.ord.restartReply ≠ some e.seq → e.owner = .adm → e.dest = toAll → e.kind = .admitClaim →
    t.frame.kind = FrameKind.admitClaim.code → t.frame.dest = toAll → t.frame.sender.toNat = s.own →
    t.frame.body = [1] ∨ t.frame.body = [2] →
    s.adm.own.find? (fun g => g.standing.isAt e.seq) = some own → own.kind = .claim start →
    s.own ∉ s.adm.roster.map Prod.fst → s.own ∉ s.adm.waiting →
    s.setting Settings.slotCount ≤ s.adm.roster.length →
    ∃ u, exec (.senderTenureEnd (.slots false take) straps) s = .next (settle u) ∧
      u.adm = { s.adm with
        waiting := s.adm.waiting ++ [s.own], own := s.adm.own.filter (fun g => !g.standing.isAt e.seq) } ∧
      u.now = s.now ∧ u.sdram = s.sdram ∧ u.psq = s.psq ∧ u.wdu = s.wdu ∧ u.ccu = s.ccu ∧ u.ntu = s.ntu ∧
      u.ptu = s.ptu ∧ u.ord = s.ord ∧ u.cfw = s.cfw ∧ u.mfn = s.mfn) ∧
  (∀ (s : State) (f : LaneFrame), s.Reads f → s.serving = true → s.ptu.state = .member → AdmissionOrdered s →
    s.lif.takeHeld = none → f.dest = toAll →
    f.kind = FrameKind.admitRelease.code ∨ f.kind = FrameKind.admitWithdraw.code → f.body = [] →
    let x := f.sender.toNat
    let rosterLess := s.adm.roster.filter (fun e => e.1 ≠ x)
    let room := s.setting Settings.slotCount - rosterLess.length
    (s.ptu.peer x).digestMatch ≠ .no → x ∈ s.adm.roster.map Prod.fst → s.own ∈ s.adm.waiting.take room →
    (s.grantReleases = true → cancelPair (s.adm.ownWith [{ kind := .release }]) = none) →
    ∃ u, exec (.frameCompleteUnspoiled f 0) s = .next (settle u) ∧ s.GrantTaken u ∧
      u.adm.roster = rosterLess ++ (s.adm.waiting.take room).map (fun y => (y, s.now)) ∧
      u.adm.waiting = s.adm.waiting.drop room ∧
      u.adm.own = (if s.grantReleases then s.adm.ownWith [{ kind := .release }] else s.adm.own) ∧
      u.now = s.now ∧ u.sdram = s.sdram ∧ u.ptu = s.hearing x ∧ u.ord = s.ord ∧ u.cfw = s.cfw ∧ u.mfn = s.mfn)

/-- A BEACON of another station, its fields as 9.3 lays them out (R183): the sender's entry takes its content and its digest
match, every other entry stays, the rack-mismatch condition holds while a present peer does not match, and its change is
told (R186). The claim of a sender that is not an uplink, and its place among the watchers, are lost (R70, R194). In MEMBER,
and in LISTEN after its copy, the beacon of a MEMBER with this station's digest repairs its own sender's standing alone (R37,
R38), by R37's table, ROSTER-CONFLICT where it may not join; the first such beacon in LISTEN is copied (R46): each number 1
to 62 once, a number of the roster not taken again, the roster up to A entries (log 26, deduced, for the numbers above 63).
Any other changes neither list. An uplink leaves both admission lists whatever the repair or the copy made of them (R35; log
15, the model's choice, for the order), with the promotion that follows. In MEMBER a promotion of this station's number is a
grant (R16, R40; log 21, the model's choice, and log 47, deduced, for its POWER-STATE and the own-frame list).
A body shorter than 14 bytes, or a beacon not sent to all, tells of its sender's presence alone. -/
def Obligations.BeaconsUpdateThePeerAndRepairTheLists : Prop :=
  (∀ (s : State) (f : LaneFrame), s.Reads f → s.serving = true → s.lif.takeHeld = none → f.kind = FrameKind.beacon.code →
    f.dest ≠ toAll ∨ f.body.length < 14 →
    exec (.frameCompleteUnspoiled f 0) s =
      .next (settle { s with ptu := s.hearing f.sender.toNat, lif := s.lif.afterFrame })) ∧
  (∀ (s : State) (f : LaneFrame) (b : Beacon), s.Reads f → s.serving = true → s.lif.takeHeld = none →
    f.kind = FrameKind.beacon.code → f.dest = toAll → f.body = b.bytes → b.Fits →
    let x := f.sender.toNat
    let entry := s.ptu.peer x
    let slots := s.setting Settings.slotCount
    let usable := b.state = .member ∧ s.ptu.digest = some b.digest
    let repairs := s.ptu.state = .member ∨ (s.ptu.state = .listen ∧ s.adm.copied = true)
    let copies := usable ∧ s.ptu.state = .listen ∧ s.adm.copied = false
    let told := s.ptu.state = .listen ∨ s.ptu.state = .member ∨ s.ptu.state = .silent
    let notice := fun (u : State) (kind : NoticeKind) =>
      (u.ntu.pending.find? (fun p => p.kind = kind)).map PendingNotice.detail
    let inRoster := x ∈ s.adm.roster.map Prod.fst
    let isWaiting := x ∈ s.adm.waiting
    let rosterLess := s.adm.roster.filter (fun e => e.1 ≠ x)
    let waitingLess := s.adm.waiting.filter (fun y => y ≠ x)
    let legal := fun (l : List Nat) => l.filter (fun y => 1 ≤ y && y ≤ 62)
    let copied := (legal b.roster).eraseDups.take slots
    let waits := ((legal b.waiting).filter (fun y => !copied.contains y)).eraseDups
    let copyRoster := (copied ++ waits.take (slots - copied.length)).map (fun y => (y, s.now))
    let copyWaiting := waits.drop (slots - copied.length)
    ∃ u, exec (.frameCompleteUnspoiled f 0) s = .next (settle u) ∧
      let becomes := fun (roster : List (Nat × Time)) (waiting : List Nat) =>
        u.adm.roster = roster ++ (waiting.take (slots - roster.length)).map (fun y => (y, s.now)) ∧
        u.adm.waiting = waiting.drop (slots - roster.length)
      let conflict := notice u .rosterConflict = some [byte x]
      let granted := s.own ∉ s.adm.roster.map Prod.fst ∧ s.own ∈ u.adm.roster.map Prod.fst
      u.adm.expired = s.adm.expired ∧ (copies → u.adm.copied = true) ∧ (¬ copies → u.adm.copied = s.adm.copied) ∧
      (s.ptu.state = .member → AdmissionOrdered s → granted →
        (s.grantReleases = true → cancelPair (s.adm.ownWith [{ kind := .release }]) = none) →
        ∃ w, s.GrantTaken w ∧ u.psq = w.psq ∧ u.wdu = w.wdu ∧ u.ccu = w.ccu ∧
          notice u .powerState = notice w .powerState) ∧
      (¬ copies → AdmissionOrdered s → ¬ granted → u.psq = s.psq ∧ u.adm.own = s.adm.own) ∧
      u.ptu.peer x = { entry with
        present := true, missed := 0, role := some b.role, lastState := some b.state, lastSeq := some b.seq
        lastAttach := some b.attach
        digestMatch := if b.state = .member then (if s.ptu.digest = some b.digest then .yes else .no) else .notKnown } ∧
      (∀ y, y ≠ x → u.ptu.peer y = s.ptu.peer y) ∧ u.ptu.state = s.ptu.state ∧
      (let bad := stationNumbers.filter (fun y => (u.ptu.peer y).present && (u.ptu.peer y).digestMatch = .no)
       (u.ptu.mismatch = true ↔ bad ≠ []) ∧
       (u.ptu.mismatch ≠ s.ptu.mismatch → told →
         notice u .rackMismatch = some [flag u.ptu.mismatch, byte bad.length, byte (bad.headD 0)])) ∧
      (b.role = .uplink → u.ord = s.ord ∧ u.cfw = s.cfw ∧ x ∉ u.adm.roster.map Prod.fst ∧ x ∉ u.adm.waiting ∧
        (AdmissionOrdered s → ¬ copies → becomes rosterLess waitingLess) ∧
        (copies → becomes (copyRoster.filter (fun e => e.1 ≠ x)) (copyWaiting.filter (fun y => y ≠ x))) ∧
        (AdmissionOrdered s → usable → repairs → x ∈ b.roster →
          isWaiting ∨ (¬ inRoster ∧ x ∉ s.adm.expired.map Prod.fst ∧ slots ≤ s.adm.roster.length) → conflict)) ∧
      (b.role = .serving →
        (s.ord.holder = some x → u.ord.holder = none ∧ (told → notice u .claimLost = some [byte x, 0, 3])) ∧
        (s.ord.holder ≠ some x → u.ord = s.ord) ∧
        u.cfw.watchers = s.cfw.watchers.filter (fun w => w.station ≠ x) ∧
        (¬ usable ∨ ¬ (repairs ∨ s.ptu.state = .listen) →
          u.adm = s.adm ∧ u.psq = s.psq) ∧
        (usable → repairs → AdmissionOrdered s →
          let stays := u.adm.roster = s.adm.roster ∧ u.adm.waiting = s.adm.waiting
          let conflicts := stays ∧ conflict
          (x ∈ b.roster →
            (inRoster → stays) ∧ (isWaiting → conflicts) ∧
            (¬ inRoster → ¬ isWaiting →
              (x ∈ s.adm.expired.map Prod.fst → stays) ∧
              (x ∉ s.adm.expired.map Prod.fst → s.adm.roster.length < slots →
                becomes (s.adm.roster ++ [(x, s.now)]) s.adm.waiting) ∧
              (x ∉ s.adm.expired.map Prod.fst → slots ≤ s.adm.roster.length → conflicts))) ∧
          (x ∉ b.roster → x ∈ b.waiting →
            (inRoster → becomes rosterLess (s.adm.waiting ++ [x])) ∧ (isWaiting → stays) ∧
            (¬ inRoster → ¬ isWaiting → becomes s.adm.roster (s.adm.waiting ++ [x]))) ∧
          (x ∉ b.roster → x ∉ b.waiting →
            (inRoster → becomes rosterLess s.adm.waiting) ∧ (isWaiting → becomes s.adm.roster waitingLess) ∧
            (¬ inRoster → ¬ isWaiting → stays))) ∧
        (copies → u.adm.roster = copyRoster ∧ u.adm.waiting = copyWaiting)))

/-- A frame read whole from a station of this station's number silences it (R48, R77, R154, R173, R179): STAT is asserted,
the send list, both admission lists, the own frames, the watchers and the gives are emptied, and the claim, the inbox, PSQ,
WDU, the captured history and the SDRAM stay; a REPLY held at the head, which no place can take any more, is dropped with
its order (R197; log 46 for the moment). The sit-out flag is set where this station sent beyond its bid byte and stopped
(R157): with a tenure stopped before, or in SENDING, where it stops within the command; a bidder has withdrawn (log 18,
deduced). -/
def Obligations.DuplicateNumberSilencesTheStation : Prop :=
  ∀ (s : State) (f : LaneFrame) (handovers : Nat), s.rstn = false → s.legalNumber = true →
    s.ptu.state = .listen ∨ s.ptu.state = .member ∨ s.ptu.state = .haltedSetup →
    let silenced := fun (t : State) =>
      t.ptu.state = .silent ∧ t.lif.engine = .quiet ∧ t.lif.stat = true ∧ t.lif.ltx = false ∧ t.lif.sendList = [] ∧
      t.lif.tenure = none ∧
      (t.lif.sitOut = true ↔ s.lif.engine = .sending ∨ ∃ q, s.lif.tenure = some q ∧ q.stopped = true) ∧
      t.adm.roster = [] ∧ t.adm.waiting = [] ∧ t.adm.own = [] ∧ t.adm.expired = [] ∧ t.cfw.watchers = [] ∧
      t.xch.gives = [] ∧ (∀ w ∈ t.xch.wants, ∀ st, w.state ≠ .queued st) ∧ t.ord.restartPending = false ∧
      t.now = s.now ∧ t.rstn = s.rstn ∧ t.pins = s.pins ∧ t.sld = s.sld ∧ t.psq = s.psq ∧ t.wdu = s.wdu ∧
      t.sdram = s.sdram ∧ t.ord.holder = s.ord.holder ∧ t.ccu.captured = s.ccu.captured ∧ t.ccu.buffer = s.ccu.buffer ∧
      (∀ o rest reply restart, s.ord.inbox = o :: rest → o.standing = .replyHeld reply restart → t.ord.inbox = rest) ∧
      (∀ o rest, s.ord.inbox = o :: rest → o.standing = .waiting → t.ord.inbox = s.ord.inbox) ∧
      (s.ord.inbox = [] → t.ord.inbox = []) ∧ t.ptu.peers = s.ptu.peers ∧ t.lif.recvQueue = s.lif.recvQueue ∧ t.pending = s.pending
    (s.lif.engine = .quiet ∨ s.lif.engine = .receiving ∨ s.lif.engine = .bidding ∨ s.lif.engine = .sending →
      ∃ t, exec .duplicateStationNumber s = .next t ∧ silenced t) ∧
    (s.lif.engine = .quiet ∨ s.lif.engine = .receiving → f.body.length ≤ 2064 → f.sender.toNat = s.own →
      ∃ t, exec (.frameCompleteUnspoiled f handovers) s = .next t ∧ silenced t)

/-- A roster entry that reaches the hold limit is removed as by a release, promotion follows, and its station stands in the
expired set for one presence period; at this station's own entry PSQ is told of the slot's end (R34), and in MEMBER a
promotion of this station's number is a grant (R16, R40; logs 21 and 47 for its POWER-STATE and the own-frame list). Here
and in the timers' statements `now` is the moment of the run-out: the present one where it has come. -/
def Obligations.HoldLimitRemovesTheEntry : Prop :=
  (∀ (s : State) (x : BitVec 6) (start : Time), s.rstn = false → AdmissionOrdered s → (x.toNat, start) ∈ s.adm.roster →
    let limit := 1000 * s.setting Settings.startLimit + 1000 * s.setting Settings.settle +
      2 * s.setting Settings.presenceMs
    let room := s.setting Settings.slotCount - (s.adm.roster.length - 1)
    ∃ (now : Time) (t : State), (reached (after start limit) s.now = true → now = s.now) ∧
      exec (.entryHoldLimit x) s = .next t ∧ t.now = now ∧
      t.adm.roster = s.adm.roster.filter (fun e => e.1 ≠ x.toNat) ++ (s.adm.waiting.take room).map (fun y => (y, now)) ∧
      t.adm.waiting = s.adm.waiting.drop room ∧
      t.adm.expired = s.adm.expired.filter (fun e => e.1 ≠ x.toNat) ++
        [(x.toNat, after now (s.setting Settings.presenceMs))] ∧
      t.sdram = s.sdram ∧ t.ptu.state = s.ptu.state ∧ t.ord.holder = s.ord.holder ∧
      (s.serving = true → x.toNat = s.own → t.psq = { s.psq with slotHeld := false, settleT := none }) ∧
      (s.own ∉ (s.adm.waiting.take room) → x.toNat ≠ s.own → t.psq = s.psq) ∧
      (s.own ∈ s.adm.waiting.take room → s.serving = true → s.ptu.state = .member →
        (s.grantReleases = true → cancelPair (s.adm.ownWith [{ kind := .release }]) = none) →
        ∃ u, t = settle u ∧ ({ s with now := now } : State).GrantTaken u ∧
          u.adm.own = if s.grantReleases then s.adm.ownWith [{ kind := .release }] else s.adm.own)) ∧
  (∀ (s : State) (x : BitVec 6) (due : Time), s.rstn = false → s.adm.expired.find? (fun e => e.1 = x.toNat) = some (x.toNat, due) →
    ∃ now : Time, (reached due s.now = true → now = s.now) ∧
      exec (.expiredSetTimeout x) s = .next (settle { s with
        now := now, adm := { s.adm with expired := s.adm.expired.filter (fun e => e.1 ≠ x.toNat) } }))

/-! ### Memory -/

/-- The arbiter grants the oldest waiting request of the lowest level that has one (R98, R99): a refresh at debt 8, then a
capture write of up to 64 bytes, a lane receive write, a media transfer, a console forwarding read, a lane send read, and
a refresh ahead of time; nothing while a request is in progress or the memory is not UP. The refresh debt (R99, R100): an
interval adds 1 while the memory is UP, held at 8; a refresh given subtracts 1, and ends the request where it was one of
its own and not one forced within another at debt 8. A refresh reported within another request below debt 8, which the
arbiter never gives, changes nothing (log 2, the model's choice). -/
def Obligations.ArbiterGrantsAndRefreshesAreCounted : Prop :=
  (∀ s : State, s.rstn = false →
    let granted := fun (m : Mctl) (req : MemReq) =>
      exec .arbiterGrant s = .next (settle { s with mctl := { m with current := some { req := req } } })
    (s.mctl.mem = .up → s.mctl.current = none →
      (8 ≤ s.mctl.debt → granted s.mctl .refresh) ∧
      (s.mctl.debt < 8 →
        (s.mctl.waitCapture = true →
          granted { s.mctl with waitCapture := false } (.capture (min s.ccu.buffer.length 64))) ∧
        (s.mctl.waitCapture = false →
          (∀ line data rest, s.mctl.waitRecv = (line, data) :: rest →
            granted { s.mctl with waitRecv := rest } (.receive line data)) ∧
          (s.mctl.waitRecv = [] →
            (∀ m rest, s.mctl.waitMedia = m :: rest → granted { s.mctl with waitMedia := rest } (.media m)) ∧
            (s.mctl.waitMedia = [] →
              (∀ a b, s.mctl.waitForward = some (a, b) → granted { s.mctl with waitForward := none } (.forward a b)) ∧
              (s.mctl.waitForward = none →
                (∀ line seq, s.mctl.waitSend = some (line, seq) →
                  granted { s.mctl with waitSend := none } (.send line seq)) ∧
                (s.mctl.waitSend = none →
                  (-7 ≤ s.mctl.debt → granted s.mctl .refresh) ∧
                  (s.mctl.debt < -7 → exec .arbiterGrant s = .next (settle s))))))))) ∧
    (s.mctl.mem ≠ .up ∨ s.mctl.current.isSome → exec .arbiterGrant s = .next (settle s))) ∧
  (∀ s : State, s.rstn = false →
    (s.mctl.mem = .up → exec .refreshIntervalExpiry s =
      .next (settle { s with mctl := { s.mctl with debt := min 8 (s.mctl.debt + 1) } })) ∧
    (s.mctl.mem ≠ .up → exec .refreshIntervalExpiry s = .next (settle s)) ∧
    (∀ rep, s.mctl.current = some { req := .refresh, reported := rep } → exec .refreshGiven s =
      .next (settle { s with mctl := { s.mctl with debt := s.mctl.debt - 1, current := none } })) ∧
    (∀ c, s.mctl.current = some c → c.req ≠ .refresh → 8 ≤ s.mctl.debt → exec .refreshGiven s =
      .next (settle { s with mctl := { s.mctl with debt := s.mctl.debt - 1 } })) ∧
    (∀ c, s.mctl.current = some c → c.req ≠ .refresh → s.mctl.debt < 8 → exec .refreshGiven s = .next (settle s)))

/-- A capture write completes (R54, R67): each byte stands at its offset modulo the ring size, the bytes leave the buffer and
every other byte of the SDRAM is as it was; a watcher that had nothing to read starts its wait. A ring that reaches past
the device faults (log 30). -/
def Obligations.CaptureWriteStoresTheBytesInTheRing : Prop :=
  ∀ (s : State) (n : Nat) (rep : Bool), s.rstn = false → s.mctl.current = some { req := .capture n, reported := rep } →
    let done := s.ccu.buffer.take n
    (s.ccu.ringSize ≤ s.mctl.size → Memory.wf s.sdram → done.length ≤ s.ccu.ringSize →
      ∃ u, exec .captureWriteComplete s = .next (settle u) ∧
        (∀ i b, done[i]? = some b → Memory.read u.sdram ((s.ccu.stored + i) % s.ccu.ringSize) = b) ∧
        (∀ a, (∀ i < done.length, a ≠ (s.ccu.stored + i) % s.ccu.ringSize) →
          Memory.read u.sdram a = Memory.read s.sdram a) ∧
        u = { s with
          sdram := u.sdram
          mctl := { s.mctl with current := none }
          ccu := { s.ccu with buffer := s.ccu.buffer.drop n }
          cfw := { s.cfw with watchers := s.cfw.watchers.map (fun w =>
            if s.ccu.stored ≤ w.sendPtr ∧ w.sendPtr < s.ccu.captured - (s.ccu.buffer.drop n).length then
              { w with waitStart := some s.now } else w) } }) ∧
    (s.mctl.size < s.ccu.ringSize → exec .captureWriteComplete s = .fault .noSuchAddress)

/-- A console forwarding read and a lane send read complete (R74, R169): the watcher's CONSOLE-OUT frame is built from its
send pointer, moved on or not since the read was asked, with its offset, gap count, up to eight marks from its next mark
number on, cut back to the offset of the ninth where more are due, and the bytes read, and it is offered; the line's 2,048
bytes reach the give buffer, or free it where its frame has left the list meanwhile. With the pointer moved past the end of
the read nothing is outstanding any more. A read whose completion is not reported builds and loads nothing, and one that
reaches past the device faults (log 30). -/
def Obligations.ReadsReachTheFrameAndTheGiveBuffer : Prop :=
  (∀ (s : State) (first finish : Nat) (o : OutFrame) (w : Watcher), s.rstn = false →
    s.mctl.current = some { req := .forward first finish } → s.ccu.ringSize ≤ s.mctl.size → s.cfw.out = some o →
    o.standing = .reading → s.cfw.watchers.find? (fun v => v.station = o.station) = some w → first ≤ w.sendPtr →
    let next := if w.nextMark = s.ccu.markCounter ∨ (∃ m ∈ s.ccu.marks, m.number = w.nextMark) then w.nextMark
      else ((s.ccu.marks.head?).map Mark.number).getD s.ccu.markCounter
    let from_ := if next = s.ccu.markCounter then [] else s.ccu.marks.dropWhile (fun m => m.number ≠ next)
    let due := from_.takeWhile (fun m => m.offset ≤ finish)
    let marks := due.take 8
    let cut := ((due[8]?).map Mark.offset).getD finish
    let markBytes := fun (m : Mark) =>
      be 8 m.offset ++ be 4 m.number.toNat ++ [m.kind.code] ++ be 4 m.time.toNat ++ be 4 m.arg
    let text := Memory.readRing s.sdram s.ccu.ringSize w.sendPtr (cut - w.sendPtr)
    let read : State := { s with mctl := { s.mctl with current := none } }
    (w.sendPtr ≤ finish → ∃ w', exec .consoleForwardReadComplete s = .next (settle { read with
        cfw := { s.cfw with
          watchers := s.cfw.watchers.map (fun v => if v.station = w.station then w' else v)
          out := some { station := w.station, standing := .frame .held, first := first, last := finish
                        body := be 8 w.sendPtr ++ be 4 w.gap ++ [byte marks.length] ++ marks.flatMap markBytes ++ text } } }) ∧
      w' = { w with
        nextMark := next, sendPtr := cut
        waitStart := if cut < s.ccu.stored then some s.now else none
        inFlight := some
          { start := w.sendPtr, finish := cut, gap := w.gap
            resume := ((marks.getLast?).map (fun m => m.number + 1)).getD next } }) ∧
    (finish < w.sendPtr →
      exec .consoleForwardReadComplete s = .next (settle { read with cfw := { s.cfw with out := none } }))) ∧
  (∀ (s : State) (first finish : Nat), s.rstn = false →
    s.mctl.current = some { req := .forward first finish, reported := false } → s.ccu.ringSize ≤ s.mctl.size →
    exec .consoleForwardReadComplete s = .next (settle { s with mctl := { s.mctl with current := none } })) ∧
  (∀ (s : State) (first finish : Nat) (rep : Bool), s.rstn = false →
    s.mctl.current = some { req := .forward first finish, reported := rep } → s.mctl.size < s.ccu.ringSize →
    exec .consoleForwardReadComplete s = .fault .noSuchAddress) ∧
  (∀ (s : State) (pos seq : Nat), s.rstn = false → s.mctl.current = some { req := .send pos seq } →
    s.ccu.ringSize + 2048 * pos + 2048 ≤ s.mctl.size → s.lif.giveBuf = .reading seq →
    exec .laneSendReadComplete s = .next (settle { s with
      mctl := { s.mctl with current := none }
      lif := { s.lif with
        giveBuf := .loaded seq (Memory.readBytes s.sdram (s.ccu.ringSize + 2048 * pos) 2048) } })) ∧
  (∀ (s : State) (pos seq : Nat), s.rstn = false → s.mctl.current = some { req := .send pos seq } →
    s.ccu.ringSize + 2048 * pos + 2048 ≤ s.mctl.size → s.lif.giveBuf = .discarding →
    exec .laneSendReadComplete s = .next (settle { s with
      mctl := { s.mctl with current := none }, lif := { s.lif with giveBuf := .free } })) ∧
  (∀ (s : State) (pos seq : Nat), s.rstn = false → s.mctl.current = some { req := .send pos seq, reported := false } →
    s.ccu.ringSize + 2048 * pos + 2048 ≤ s.mctl.size →
    exec .laneSendReadComplete s = .next (settle { s with mctl := { s.mctl with current := none } })) ∧
  (∀ (s : State) (pos seq : Nat) (rep : Bool), s.rstn = false →
    s.mctl.current = some { req := .send pos seq, reported := rep } →
    s.mctl.size < s.ccu.ringSize + 2048 * pos + 2048 → exec .laneSendReadComplete s = .fault .noSuchAddress)

/-- A lane receive write completes (R110, R145): its 2,048 bytes stand in its line and every byte outside the line is as it
was, its want is gone and its fill buffer free. For a LANDING want the line is CLEAN at the tail of the recency list, and
MFN's request in progress takes FILLED (R128): wants are held back no more, and every step that waited on the key is looked
up again. For a VOID want the line is FREE; a dropped want's end is not reported, and a retired one's is FAILED: a step that
waited on the key fails the request with MEDIUM-ERROR and MEDIA-FAILURE (R128, R131). In a step looked up again the order
of a MERGE's transfers is log 54, the model's choice, and the base's alone where the overlay holds none of its blocks log 19
(deduced); a request that fails unpins its reads in queue order (log 49), and the teardown it may end in leaves resume
signalling (log 50) and the USB address (log 40): the model's choices. -/
def Obligations.ReceiveWriteFillsTheLine : Prop :=
  ∀ (s : State) (pos : Nat) (data : Bytes) (key : Key) (w : Want) (buf : Fin 4), s.rstn = false →
    s.mctl.current = some { req := .receive pos data } → s.ccu.ringSize + 2048 * pos + 2048 ≤ s.mctl.size →
    data.length = 2048 → Memory.wf s.sdram → s.xch.wants.find? (fun v => v.line = pos) = some w →
    let base := s.ccu.ringSize + 2048 * pos
    let stored := fun (u : State) =>
      (∀ a, base ≤ a → a < base + 2048 → Memory.read u.sdram a = data.getD (a - base) 0) ∧
      (∀ a, a < base ∨ base + 2048 ≤ a → Memory.read u.sdram a = Memory.read s.sdram a)
    let xch : Xch := { s.xch with
      wants := s.xch.wants.filter (fun v => v.line ≠ pos), fillBufs := s.xch.fillBufs.set buf none }
    let waits := fun (st : XferStep) => st.state = .waiting ∧ s.mfn.key st.line = w.key
    let answers := fun (u : State) => exec .laneReceiveWriteComplete s = .next (settle u)
    (s.lpm.line pos = some (.filling key .inFlight) → w.state = .landing buf → ∃ u, answers u ∧ stored u ∧
      u.lpm.line pos = some (.clean key 0 false) ∧
      u.lpm.recency = s.lpm.recency.filter (fun q => q ≠ pos) ++ [pos] ∧ (∀ q, q ≠ pos → u.lpm.line q = s.lpm.line q) ∧
      (s.mfn.request = none → u.mfn = s.mfn) ∧
      (∀ r, s.mfn.request = some r → ∃ steps : List XferStep,
        u.mfn = { s.mfn with request := some { r with blocked := false, steps := steps } } ∧
        steps.length = r.steps.length ∧
        ∀ (i : Nat) (old new : XferStep), r.steps[i]? = some old → steps[i]? = some new →
          (waits old → u.LookedUpAgain old new) ∧ (¬ waits old → new = old)) ∧
      u = { s with
        sdram := u.sdram
        mctl := { s.mctl with current := none }
        lpm := { s.lpm with lines := u.lpm.lines, recency := u.lpm.recency }
        xch := xch
        mfn := u.mfn }) ∧
    (∀ cause, s.lpm.line pos = some (.filling key .freePending) → w.state = .void buf cause → ∃ v, stored v ∧
      v = { s with
        sdram := v.sdram
        mctl := { s.mctl with current := none }
        lpm := { s.lpm with
          lines := s.lpm.lines.filter (fun e => e.1 ≠ pos), recency := s.lpm.recency.filter (fun q => q ≠ pos) }
        xch := xch } ∧
      (cause = .dropped ∨ s.mfn.request = none → answers v) ∧
      (cause = .retired → ∀ r, s.mfn.request = some r →
        let open_ : State := { v with mfn := { s.mfn with request := some { r with blocked := false } } }
        ((∀ st ∈ r.steps, ¬ waits st) → answers open_) ∧
        (∀ before st rest, r.steps = before ++ st :: rest → (∀ x ∈ before, ¬ waits x) → waits st → ∃ u, answers u ∧
          ({ open_ with
            mfn := { open_.mfn with usbStatus := some .mediumError }
            ntu := (s.raise .mediaFailure (be 4 st.line ++ be 2 s.mfn.image ++ be 1 s.mfn.gen)).ntu } : State).RequestEnded
              u)))

/-- A media transfer completes (R106, R125, R129 to R131, R133): the pin of its line drops, and only the blocks written
change in the SDRAM. A write's blocks stand in the line and its step is DONE; a read's blocks join those that came before,
and from the delivery point on they go to the server in order, a step being DONE once its last block has gone. The end of
the last step answers GOOD and ends the request, a draining attachment being torn down (R134), and a READ's last block is
remembered; where the READ began right behind the READ before it, and the attachment is not draining, a readahead want is
asked for each of the lines that follow, up to the record's number and the
capacity, which neither the overlay nor the index holds, until the want list is full. That blocks and status go out while the
port is SUSPENDED too is log 53, the model's choice. A write whose request has failed or been aborted completes into the
overlay and unpins its line (R131, R132); the blocks of a read that is no longer served are discarded. A transfer that a
warm restart left in progress is not reported: a write's blocks stand, and nothing else changes (R101). A transfer past the
device faults (log 30). The order in which a request's reads are unpinned at its end (log 49), and what a teardown leaves of
resume signalling (log 50) and the USB address (log 40), are the model's choices. -/
def Obligations.MediaTransferMovesItsBlocks : Prop :=
  (∀ (s : State) (m : MediaReq) (r : Request), s.rstn = false → s.mctl.current = some { req := .media m } →
    s.ccu.ringSize + 2048 * m.line + 2048 ≤ s.mctl.size → Memory.wf s.sdram → m.isRead = false →
    m.blocks.Pairwise (· < ·) → (∀ b ∈ m.blocks, b < 4) → m.data.length = 512 * m.blocks.length →
    s.mfn.request = some r → r.kind = .write → m.request = r.serial →
    let steps := r.steps.map (fun st => if st.line = m.lineNo then { st with state := .done } else st)
    let finished := ∀ st ∈ steps, st.state = .done
    ∃ u, exec .mediaTransferComplete s = .next (settle u) ∧ s.BlocksStored u m ∧
      ∃ q, s.lpm.Unpinned q m.line ∧
        let stored : State := { s with
          sdram := u.sdram, mctl := { s.mctl with current := none }, lpm := q
          mfn := { s.mfn with request := some { r with steps := steps } } }
        (¬ finished → u = stored) ∧
        (finished →
          ({ stored with mfn := { stored.mfn with usbStatus := some .good } } : State).RequestEnded u) ∧
        (finished → s.mfn.draining = false → (∀ x ∈ s.mctl.waitMedia, x.isRead = true → x.request ≠ r.serial) →
          u = { stored with mfn := { s.mfn with usbStatus := some .good, request := none } })) ∧
  (∀ (s : State) (m : MediaReq) (r : Request), s.rstn = false → s.mctl.current = some { req := .media m } →
    s.ccu.ringSize + 2048 * m.line + 2048 ≤ s.mctl.size → m.isRead = true → m.dropped = false →
    s.mfn.request = some r → r.kind = .read → m.request = r.serial →
    let base := s.ccu.ringSize + 2048 * m.line
    let read := m.blocks.map (fun b => (4 * m.lineNo + b, Memory.readBytes s.sdram (base + 512 * b) 512))
    let got := r.got ++ read.filter (fun g => r.delivery ≤ g.1)
    let block := fun (n : Nat) => ((got.find? (fun g => g.1 = n)).map Prod.snd).getD []
    ∃ (n : Nat) (u : State), exec .mediaTransferComplete s = .next (settle u) ∧ n ≤ 8 ∧
      (∀ i < n, ∃ g ∈ got, g.1 = r.delivery + i) ∧ (n < 8 → ∀ g ∈ got, g.1 ≠ r.delivery + n) ∧
      (let steps := r.steps.map (fun st =>
        if 0 < n ∧ 4 * st.line + st.last < r.delivery + n then { st with state := .done } else st)
       let finished := ∀ st ∈ steps, st.state = .done
       let sent : Mfn := { s.mfn with
         usbData := s.mfn.usbData ++ (List.range n).flatMap (fun i => block (r.delivery + i)) }
       let last := r.first + r.count - 1
       let follows := s.mfn.draining = false ∧ ∃ t, s.mfn.tracker = some t ∧ r.first = t + 1
       ∃ v : State, v = { s with
           mctl := { s.mctl with current := none }, lpm := v.lpm, xch := v.xch
           mfn := { sent with
             usbStatus := v.mfn.usbStatus, tracker := v.mfn.tracker
             request := some { r with
               delivery := r.delivery + n, steps := steps
               got := got.filter (fun g => g.1 < r.delivery ∨ r.delivery + n ≤ g.1) } } } ∧
         (¬ finished → u = v ∧ v.mfn.usbStatus = s.mfn.usbStatus ∧ v.mfn.tracker = s.mfn.tracker) ∧
         (finished → v.RequestEnded u ∧ v.mfn.usbStatus = some .good ∧ v.mfn.tracker = some last) ∧
         (finished → s.mfn.draining = false → (∀ x ∈ s.mctl.waitMedia, x.isRead = true → x.request ≠ r.serial) →
           u = { v with mfn := { v.mfn with request := none } }) ∧
         (¬ (finished ∧ follows) → s.lpm.Unpinned v.lpm m.line ∧ v.xch = s.xch) ∧
         (finished → follows → ∃ asked, v.xch = { s.xch with wants := s.xch.wants ++ asked } ∧
           ∀ w ∈ asked, w.purpose = .readahead ∧ w.state = .queued .held ∧ w.key.image = s.mfn.image ∧
             w.key.gen = s.mfn.gen ∧ last / 4 < w.key.line ∧ w.key.line ≤ last / 4 + s.setting Settings.readahead ∧
             w.key.line ≤ (s.mfn.capacity - 1) / 4) ∧
         (finished → follows → s.lpm.Placed → ∃ q, s.lpm.Unpinned q m.line ∧
           ReadaheadAsked s.mfn (((List.range (s.setting Settings.readahead)).map (fun i => last / 4 + 1 + i)).filter
             (fun line => line ≤ (s.mfn.capacity - 1) / 4)) q s.xch.wants v.lpm v.xch.wants))) ∧
  (∀ (s : State) (m : MediaReq), s.rstn = false → s.mctl.current = some { req := .media m } →
    s.ccu.ringSize + 2048 * m.line + 2048 ≤ s.mctl.size → Memory.wf s.sdram → m.isRead = false →
    m.blocks.Pairwise (· < ·) → (∀ b ∈ m.blocks, b < 4) → m.data.length = 512 * m.blocks.length →
    (∀ r, s.mfn.request = some r → r.kind ≠ .write ∨ m.request ≠ r.serial) →
    ∃ u, exec .mediaTransferComplete s = .next (settle u) ∧ s.BlocksStored u m ∧ s.lpm.Unpinned u.lpm m.line ∧
      u = { s with sdram := u.sdram, mctl := { s.mctl with current := none }, lpm := u.lpm }) ∧
  (∀ (s : State) (m : MediaReq), s.rstn = false → s.mctl.current = some { req := .media m, reported := false } →
    s.ccu.ringSize + 2048 * m.line + 2048 ≤ s.mctl.size →
    (m.isRead = true →
      exec .mediaTransferComplete s = .next (settle { s with mctl := { s.mctl with current := none } })) ∧
    (m.isRead = false → Memory.wf s.sdram → m.blocks.Pairwise (· < ·) → (∀ b ∈ m.blocks, b < 4) →
      m.data.length = 512 * m.blocks.length →
      ∃ u, exec .mediaTransferComplete s = .next (settle u) ∧ s.BlocksStored u m ∧
        u = { s with sdram := u.sdram, mctl := { s.mctl with current := none } })) ∧
  (∀ (s : State) (m : MediaReq), s.rstn = false → s.mctl.current = some { req := .media m } →
    s.ccu.ringSize + 2048 * m.line + 2048 ≤ s.mctl.size → m.isRead = true →
    m.dropped = true ∨ (∀ r, s.mfn.request = some r → m.request ≠ r.serial) →
    ∃ u, exec .mediaTransferComplete s = .next (settle u) ∧ s.lpm.Unpinned u.lpm m.line ∧
      u = { s with mctl := { s.mctl with current := none }, lpm := u.lpm }) ∧
  (∀ (s : State) (m : MediaReq) (rep : Bool), s.rstn = false →
    s.mctl.current = some { req := .media m, reported := rep } →
    s.mctl.size < s.ccu.ringSize + 2048 * m.line + 2048 → exec .mediaTransferComplete s = .fault .noSuchAddress)

/-! ### Power -/

/-- PGOOD goes active (R2, R17, R24, R25): in STARTING PSQ enters ON admitted, with mark POWER-ON 0, the young timer, and
the settle timer while a slot is held, or the slot released at once at settle time 0; in OFF, RESTING and AWAITING-SLOT of
the POWER-ON variant it enters ON unadmitted, with mark POWER-ON 1 and UNADMITTED-START; with the feed open a FEED-FAULT is
raised, and a running rest in FEED-BOUNCE waits for the fall again; in the other states the level alone is recorded. That
POWER-STATE's detail shows the slot where settle time 0 releases it in the same event is log 21, the model's choice; the
own-frame list's four places are log 47 (deduced). -/
def Obligations.PgoodRiseActsByState : Prop :=
  ∀ (s : State) (st : SeqState), s.rstn = false → s.psq.Legal → s.psq.state = some st → s.psq.pgood = false →
    let on : Psq := { s.psq with
      pgood := true, state := some .on, variant := .none, pendingAct := .none, young := true
      youngT := some (after s.now (1000 * s.setting Settings.young)), restPhase := .none, restT := none, startT := none }
    let wdu : Wdu := { s.wdu with
      early := 0, lastBeat := none, holdoff := false
      deadline := if s.wdu.armed then some (after s.now (1000 * s.wdu.bootAllowance)) else s.wdu.deadline
      phase := if s.wdu.armed then .boot else s.wdu.phase }
    let fault := fun (psq : Psq) => exec .pgoodActive s = .next (settle { s with
      psq := psq, ntu := (s.raise .feedFault [st.code]).ntu })
    (st = .starting → ∃ u, exec .pgoodActive s = .next (settle u) ∧ s.PowerFrame u ∧ u.now = s.now ∧ u.mfn = s.mfn ∧
      u.wdu = wdu ∧ u.ccu = s.ccu.addMark s.now .powerOn 0 ∧
      u.ntu = (s.raise .powerState [7, 0, 0, flag s.psq.slotHeld]).ntu ∧
      (s.psq.slotHeld = false → u.psq = on ∧ u.adm = s.adm) ∧
      (s.psq.slotHeld = true → s.setting Settings.settle ≠ 0 →
        u.psq = { on with settleT := some (after s.now (1000 * s.setting Settings.settle)) } ∧ u.adm = s.adm) ∧
      (s.psq.slotHeld = true → s.setting Settings.settle = 0 →
        u.psq = { on with slotHeld := false, settleT := none, retract := u.psq.retract } ∧ s.RetractAsked u .release)) ∧
    (st = .off ∨ st = .resting ∨ (st = .awaitingSlot ∧ s.psq.variant = .powerOn) →
      ∃ u, exec .pgoodActive s = .next (settle u) ∧ s.PowerFrame u ∧ u.now = s.now ∧ u.mfn = s.mfn ∧ u.wdu = wdu ∧
        u.ccu = s.ccu.addMark s.now .powerOn 1 ∧
        u.ntu = ((s.raise .powerState [7, 0, 0, 0]).raise .unadmittedStart [st.code]).ntu ∧
        u.psq = { on with claimAsked := false, retract := u.psq.retract } ∧
        (s.psq.claimAsked = true → s.RetractAsked u .withdraw) ∧
        (s.psq.claimAsked = false → u.psq.retract = s.psq.retract ∧ u.adm = s.adm)) ∧
    (st = .feedCut ∨ (st = .awaitingSlot ∧ s.psq.variant = .feedRestore) ∨
        (st = .feedBounce ∧ s.psq.restPhase ≠ .running) → fault { s.psq with pgood := true }) ∧
    (st = .feedBounce → s.psq.restPhase = .running →
      fault { s.psq with pgood := true, restPhase := .awaitingFall, restT := none }) ∧
    (st = .on ∨ st = .stopping ∨ st = .forcing →
      exec .pgoodActive s = .next (settle { s with psq := { s.psq with pgood := true } }))

/-- PGOOD goes inactive (R20, R92): the server went off as asked in STOPPING and FORCING, or lost its power in ON, and PSQ
rests with a held slot released; in FEED-CUT and FEED-BOUNCE the rest begins where it awaited the fall; in the other states
the level alone is recorded. With the guard on WDU asks ON after a power loss, which is pending or answered MISMATCH. A slot
released: the own-frame list's four places are log 47 (deduced). The teardown of a boot-once attachment leaves resume
signalling (log 50) and the USB address (log 40) and unpins in queue order (log 49): the model's choices. -/
def Obligations.PgoodFallActsByState : Prop :=
  ∀ (s : State) (st : SeqState), s.rstn = false → s.psq.Legal → s.psq.state = some st → s.psq.pgood = true →
    let rest := after s.now (1000 * s.setting Settings.rest)
    let resting : Psq := { s.psq with
      pgood := false, state := some .resting, variant := .none, slotHeld := false, settleT := none, graceT := none
      forceT := none, young := false, youngT := none, deferred := .none, restPhase := .running, restT := some rest }
    let guarded := s.wdu.armed && s.wdu.guard
    let lost := (s.raise .powerLost [3]).raise .powerState [3, 0, 0, 0]
    (st = .stopping ∨ st = .forcing → ∃ u, exec .pgoodInactive s = .next (settle u) ∧ s.PowerFrame u ∧ u.now = s.now ∧
      u.psq = { resting with press := .released, retract := u.psq.retract } ∧ s.SlotReleased u ∧ s.BootOnceEnds u ∧
      u.wdu = s.wdu ∧ u.ccu = s.ccu.addMark s.now .powerOff (if st = .stopping then 0 else 1) ∧
      u.ntu = (s.raise .powerState [3, 0, s.psq.pendingAct.code, 0]).ntu) ∧
    (st = .on → ∃ u, exec .pgoodInactive s = .next (settle u) ∧ s.PowerFrame u ∧ u.now = s.now ∧
      u.psq = { resting with
        pendingAct := if guarded && !s.ptu.mismatch then .powerOn else .none, retract := u.psq.retract } ∧
      s.SlotReleased u ∧ s.BootOnceEnds u ∧ u.wdu = { s.wdu with deadline := none } ∧
      u.ccu = s.ccu.addMark s.now .powerLost 0 ∧
      u.ntu = if guarded && s.ptu.mismatch then (lost.raise .faultRefused [3, 1, 4]).ntu else lost.ntu) ∧
    (st = .feedCut → s.psq.restPhase = .awaitingFall → exec .pgoodInactive s = .next (settle { s with
      psq := { s.psq with pgood := false, restPhase := .running, restT := some rest }
      ccu := s.ccu.addMark s.now .powerOff 2 })) ∧
    (st = .feedBounce → s.psq.restPhase = .awaitingFall → exec .pgoodInactive s = .next (settle { s with
      psq := { s.psq with pgood := false, restPhase := .running, restT := some rest, forceT := none }
      ccu := s.ccu.addMark s.now .powerOff 3 })) ∧
    ((st = .feedCut ∨ st = .feedBounce) ∧ s.psq.restPhase ≠ .awaitingFall ∨ st = .resting ∨ st = .off ∨
        st = .awaitingSlot ∨ st = .starting →
      exec .pgoodInactive s = .next (settle { s with psq := { s.psq with pgood := false } }))

/-- The start limit passes in STARTING (R18): from the POWER-ON variant PSQ rests and raises START-FAILED; from the
FEED-RESTORE variant it enters OFF, and with a pending POWER-ON it awaits a slot at once, whose claim waits for the release
just asked. The force limit passes (R22): with PGOOD still active the feed is opened and PSQ bounces; with PGOOD inactive it
rests with no mark; in FEED-BOUNCE with PGOOD active FEED-FAULT is raised and the timer is not started again. Station time
comes to the run-out (log 4, the model's choice), and the own-frame list's four places are log 47 (deduced). The teardown of
a boot-once attachment leaves resume signalling (log 50) and the USB address (log 40) and unpins in queue order (log 49): the
model's choices. -/
def Obligations.StartAndForceLimitsEndTheirStates : Prop :=
  (∀ (s : State) (due : Time), s.rstn = false → s.psq.Legal → s.psq.startT = some due →
    let now := (s.timeTo due).now
    let s1 := s.timeTo due
    let ended : Psq := { s.psq with variant := .none, startT := none, slotHeld := false, settleT := none }
    ∃ u, exec .startTimerExpiry s = .next (settle u) ∧ s.PowerFrame u ∧ u.now = now ∧ u.mfn = s.mfn ∧ u.wdu = s.wdu ∧
      u.ccu = s.ccu ∧
      (s.psq.variant = .powerOn → s.SlotReleased u ∧
        u.psq = { ended with
          state := some .resting, restPhase := .running, restT := some (after now (1000 * s.setting Settings.rest))
          retract := u.psq.retract } ∧
        u.ntu = ((s1.raise .powerState [3, 0, 0, 0]).raise .startFailed [byte (s.setting Settings.startLimit)]).ntu) ∧
      (s.psq.variant = .feedRestore → s.psq.pendingAct = .none → s.SlotReleased u ∧
        u.psq = { ended with state := some .off, restPhase := .satisfied, retract := u.psq.retract } ∧
        u.ntu = (s1.raise .powerState [4, 0, 0, 0]).ntu) ∧
      (s.psq.variant = .feedRestore → s.psq.pendingAct = .powerOn →
        u.psq = { ended with
          state := some .awaitingSlot, variant := .powerOn, pendingAct := .none, restPhase := .satisfied
          retract := u.psq.retract, claimAsked := u.psq.claimAsked } ∧
        (s.psq.slotHeld = true → cancelPair (s.adm.ownWith [{ kind := .release }]) = none →
          s.RetractAsked u .release ∧ u.psq.claimAsked = false) ∧
        (s.psq.slotHeld = false → u.psq.retract = s.psq.retract ∧ u.psq.claimAsked = s.claimsNow) ∧
        u.ntu = ((s1.raise .powerState [4, 0, 1, 0]).raise .powerState [5, 1, 0, 0]).ntu)) ∧
  (∀ (s : State) (due : Time), s.rstn = false → s.psq.Legal → s.psq.forceT = some due →
    let s1 := s.timeTo due
    let gone : Psq := { s.psq with variant := .none, slotHeld := false, settleT := none }
    (s.psq.state = some .forcing → s.psq.pgood = true → ∃ u, exec .forceTimerExpiry s = .next (settle u) ∧
      s.PowerFrame u ∧ u.now = s1.now ∧ s.SlotReleased u ∧ s.BootOnceEnds u ∧ u.wdu = s.wdu ∧
      u.ccu = s.ccu.addMark s1.now .feedCut 1 ∧
      u.psq = { gone with
        state := some .feedBounce, press := .released, feedClosed := false, restPhase := .awaitingFall
        forceT := some (after s1.now (1000 * s.setting Settings.force)), retract := u.psq.retract } ∧
      u.ntu = (s1.raise .powerState [2, 0, s.psq.pendingAct.code, 0]).ntu) ∧
    (s.psq.state = some .forcing → s.psq.pgood = false → ∃ u, exec .forceTimerExpiry s = .next (settle u) ∧
      s.PowerFrame u ∧ u.now = s1.now ∧ s.SlotReleased u ∧ s.BootOnceEnds u ∧ u.wdu = s.wdu ∧ u.ccu = s.ccu ∧
      u.psq = { gone with
        state := some .resting, restPhase := .running, restT := some (after s1.now (1000 * s.setting Settings.rest))
        forceT := none, retract := u.psq.retract } ∧
      u.ntu = (s1.raise .powerState [3, 0, s.psq.pendingAct.code, 0]).ntu) ∧
    (s.psq.state = some .feedBounce → s.psq.pgood = true → exec .forceTimerExpiry s = .next (settle { s1 with
      psq := { s.psq with forceT := none }, ntu := (s1.raise .feedFault [2]).ntu })))

/-- The settle timer releases the held slot, and the young timer ends the minimum on time and carries out a deferred off
with a press pulse and the grace timer (R19). A slot released: the own-frame list's four places are log 47 (deduced). -/
def Obligations.SettleAndYoungTimersEndTheStart : Prop :=
  (∀ (s : State) (due : Time), s.rstn = false → s.psq.Legal → s.psq.settleT = some due →
    ∃ (now : Time) (u : State), (reached due s.now = true → now = s.now) ∧ exec .settleTimerExpiry s = .next (settle u) ∧
      u = { s with
        now := now
        psq := { s.psq with slotHeld := false, settleT := none, retract := u.psq.retract }
        adm := { s.adm with own := u.adm.own, kept := u.adm.kept }
        lif := { s.lif with sendList := u.lif.sendList, giveBuf := u.lif.giveBuf }
        mctl := { s.mctl with waitSend := u.mctl.waitSend } } ∧
      s.RetractAsked u .release) ∧
  (∀ (s : State) (due : Time), s.rstn = false → s.psq.Legal → s.psq.youngT = some due →
    ∃ now : Time, (reached due s.now = true → now = s.now) ∧
    let s1 : State := { s with now := now }
    let stopping := fun (var : Variant) => exec .youngTimerExpiry s = .next (settle { s1 with
      psq := { s.psq with
        state := some .stopping, variant := var, young := false, youngT := none, deferred := .none
        press := .pulse (after s1.now 200), graceT := some (after s1.now (1000 * s.setting Settings.grace))
        restPhase := .none, restT := none }
      wdu := { s.wdu with deadline := none }
      ntu := (s1.raise .powerState [8, var.code, 0, flag s.psq.slotHeld]).ntu })
    (s.psq.deferred = .none → exec .youngTimerExpiry s = .next (settle { s1 with
      psq := { s.psq with young := false, youngT := none } })) ∧
    (s.psq.deferred = .soft → stopping .soft) ∧
    (s.psq.deferred = .softThenHard → stopping .softThenHard))

/-- The soft-off grace passes in STOPPING (R21). -/
def Obligations.GraceEndsInOnOrForcing : Prop :=
  ∀ (s : State) (due : Time), s.rstn = false → s.psq.Legal → s.psq.graceT = some due →
    ∃ now : Time, (reached due s.now = true → now = s.now) ∧
    let s1 : State := { s with now := now }
    (s.psq.variant = .soft → exec .graceTimerExpiry s = .next (settle { s1 with
      psq := { s.psq with
        state := some .on, variant := .none, graceT := none, young := false, deferred := .none, restPhase := .none }
      wdu := { s.wdu with
        early := 0, lastBeat := none, holdoff := false
        deadline := if s.wdu.armed then some (after s1.now (1000 * s.wdu.bootAllowance)) else s.wdu.deadline
        phase := if s.wdu.armed then .boot else s.wdu.phase }
      ntu := ((s1.raise .powerState [7, 0, 0, flag s.psq.slotHeld]).raise .softOffIgnored
        (be 2 (s.setting Settings.grace))).ntu })) ∧
    (s.psq.variant = .softThenHard → exec .graceTimerExpiry s = .next (settle { s1 with
      psq := { s.psq with
        state := some .forcing, variant := .none, graceT := none, press := .long (after s1.now 6000)
        forceT := some (after s1.now (1000 * s.setting Settings.force)), restPhase := .none }
      ntu := (s1.raise .powerState [9, 0, 0, flag s.psq.slotHeld]).ntu }))

/-- The rest time passes (R23): a pending start or restore awaits a slot, its claim asked as R5 allows; RESTING without one
becomes OFF; FEED-BOUNCE awaits the slot of its feed restore; FEED-CUT without one stays. A claim asked: the own-frame
list's four places are log 47 (deduced). -/
def Obligations.RestEndsInOffOrAClaim : Prop :=
  ∀ (s : State) (due : Time), s.rstn = false → s.psq.Legal → s.psq.restT = some due →
    ∃ now : Time, (reached due s.now = true → now = s.now) ∧
    let s1 : State := { s with now := now }
    let rested : Psq := { s.psq with restPhase := .satisfied, restT := none }
    let awaits := fun (var : Variant) (start : StartKind) (act : PendingAct) =>
      exec .restTimerExpiry s = .next (settle { s1 with
        psq := { rested with
          state := some .awaitingSlot, variant := var, pendingAct := act, claimAsked := s.claimsNow }
        adm := { s.adm with own := if s.claimsNow then s.adm.ownWith [{ kind := .claim start }] else s.adm.own }
        ntu := (s1.raise .powerState [5, var.code, act.code, 0]).ntu })
    (s.psq.state = some .resting → s.psq.pendingAct = .powerOn → awaits .powerOn .powerOn .none) ∧
    (s.psq.state = some .resting → s.psq.pendingAct = .none → exec .restTimerExpiry s = .next (settle { s1 with
      psq := { rested with state := some .off, variant := .none }
      ntu := (s1.raise .powerState [4, 0, 0, 0]).ntu })) ∧
    (s.psq.state = some .feedBounce → awaits .feedRestore .feedRestore s.psq.pendingAct) ∧
    (s.psq.state = some .feedCut → s.psq.pendingAct = .feedRestore → awaits .feedRestore .feedRestore .none) ∧
    (s.psq.state = some .feedCut → s.psq.pendingAct = .none →
      exec .restTimerExpiry s = .next (settle { s1 with psq := rested }))

/-! ### Console, watchdog and timers -/

/-- The receiver's events (R49 to R51, R53, R57, R58, R65): a quiet line ends SEEKING-IDLE; a framing error is counted, held
at 4,294,967,295; a break is BREAK until CRXD goes high, and then a BREAK-IN mark carries its length, with the loss marks
before it, while the history runs. What every mark asked in these statements does to CCU is the last clause. The console
input queue's items leave as they go out (R80): a text byte at its stop bit, a break after its 300 ms, after which CTXD is
high for one character before the next item. Station time comes to the end of a break (log 4, the model's choice). -/
def Obligations.ReceiverAndInputQueueEvents : Prop :=
  (∀ (s : State) (lengthMs : Nat), s.rstn = false →
    (s.ccu.rx = .seekingIdle → exec .consoleLineIdle s = .next (settle { s with ccu := { s.ccu with rx := .idle } })) ∧
    (s.ccu.rx = .idle → exec .consoleFramingError s = .next (settle { s with ccu := { s.ccu with
      garbled := min (s.ccu.garbled + 1) 4294967295
      lossOrder :=
        if s.ccu.garbled ≠ 0 then s.ccu.lossOrder else if s.ccu.lost = 0 then .garbledFirst else .lostFirst } })) ∧
    (s.ccu.rx = .idle → exec .consoleBreakStart s = .next (settle { s with ccu := { s.ccu with rx := .brk } })) ∧
    (s.ccu.rx = .brk → s.ccu.running = false →
      exec (.consoleBreakEnd lengthMs) s = .next (settle { s with ccu := { s.ccu with rx := .idle } })) ∧
    (s.ccu.rx = .brk → s.ccu.running = true → s.ccu.marks.length ≤ 64 →
      let owed := s.ccu.owedMarks s.now
      let number := s.ccu.markCounter + BitVec.ofNat 32 owed.length
      exec (.consoleBreakEnd lengthMs) s = .next (settle { s with ccu := { s.ccu with
        rx := .idle, lost := 0, garbled := 0, run := 0, markCounter := number + 1
        marks := s.ccu.marksWith (owed ++
          [{ offset := s.ccu.captured, number := number, kind := .breakIn, time := s.now
             arg := min lengthMs 4294967295 }]) } }))) ∧
  (∀ s : State, s.rstn = false →
    (∀ b, s.cfw.tx = .char b → exec .consoleTextByteSent s =
      .next (settle { s with cfw := { s.cfw with queue := s.cfw.queue.drop 1, tx := .idle } })) ∧
    (∀ due, s.cfw.tx = .breakLow due → exec .consoleBreakOutEnd s =
      .next (settle { s.timeTo due with cfw := { s.cfw with queue := s.cfw.queue.drop 1, tx := .guardHigh } })) ∧
    (s.cfw.tx = .guardHigh → exec .consoleBreakGuardEnd s =
      .next (settle { s with cfw := { s.cfw with tx := .idle } })) ∧
    (∀ b rest, s.inputDrains = true → s.cfw.tx = .idle → s.cfw.queue = .text b :: rest →
      s.startInput = { s with cfw := { s.cfw with tx := .char b } }) ∧
    (∀ x rest, s.inputDrains = true → s.cfw.tx = .idle → s.cfw.queue = .brk x :: rest →
      s.startInput = { s with
        ccu := s.ccu.addMark s.now .breakOut x, cfw := { s.cfw with tx := .breakLow (after s.now 300) } })) ∧
  (∀ (c : Ccu) (now : Time) (kind : MarkKind) (arg : Nat), c.Marked (c.addMark now kind arg) now kind arg)

/-- A good byte (R52, R53, R55, R58, R64, R65, R71): with room in the buffer it is captured at the capture count and enters
the window, the marks of the losses before it stand first, in the order in which the losses began, at most 64 marks are
kept, and the marks and send pointers that the ring has left behind are passed, and nothing else is done where it completes
no match of a pattern; with the buffer full it is counted lost. No match of the patterns changes what was captured. -/
def Obligations.GoodByteIsCapturedOrCountedLost : Prop :=
  ∀ (s : State) (b : Byte), s.rstn = false → s.ccu.rx = .idle →
    let window := s.ccu.window ++ [b]
    (64 ≤ s.ccu.buffer.length → exec (.consoleGoodByte b) s = .next (settle { s with ccu := { s.ccu with
      lost := min (s.ccu.lost + 1) 4294967295
      lossOrder :=
        if s.ccu.lost ≠ 0 then s.ccu.lossOrder else if s.ccu.garbled = 0 then .lostFirst else .garbledFirst } })) ∧
    (s.ccu.buffer.length < 64 → ∃ t, exec (.consoleGoodByte b) s = .next t ∧
      t.ccu.captured = s.ccu.captured + 1 ∧ t.ccu.buffer = s.ccu.buffer ++ [b] ∧ t.ccu.rx = .idle ∧
      t.ccu.window = window.drop (window.length - 32) ∧
      t.now = s.now ∧ t.sdram = s.sdram ∧ t.ord.holder = s.ord.holder ∧ t.ptu.state = s.ptu.state) ∧
    (s.ccu.buffer.length < 64 → s.ccu.marks.length ≤ 64 → (∀ k p, ¬ s.CompletesMatch b k p) →
      exec (.consoleGoodByte b) s = .next (settle (s.withByte b)))

/-- A byte that completes matches is captured, whatever was lost before it, and its matches are delivered in ascending
entry index, each on the state that the one before it left (R64, R66); of one match alone the delivery is the step. What the
delivery of a match does by its action is State.MatchDelivered (R66, R88 to R93, R117), an early expiry included. The
teardown at a BOOT-DONE leaves resume signalling (log 50) and the USB address (log 40) and unpins in queue order (log 49):
the model's choices. -/
def Obligations.MatchesAreDeliveredByTheirAction : Prop :=
  ∀ (s : State) (b : Byte), s.rstn = false → s.ccu.rx = .idle → s.ccu.buffer.length < 64 → s.ccu.marks.length ≤ 64 →
    (∃ (u : State) (matches_ : List (Nat × PatternAction)), exec (.consoleGoodByte b) s = .next (settle u) ∧
      (s.withByte b).MatchesDelivered matches_ u ∧ (matches_.map Prod.fst).Pairwise (· < ·) ∧
      ∀ k action, (k, action) ∈ matches_ ↔ ∃ p, s.CompletesMatch b k p ∧ p.action = action) ∧
    (∀ k p, s.CompletesMatch b k p → (∀ j q, s.CompletesMatch b j q → j = k) →
      ∃ u, exec (.consoleGoodByte b) s = .next (settle u) ∧ (s.withByte b).MatchDelivered k p.action u)

/-- The watchdog deadline is reached in ON (R90, R91, R94): the expiry of cause DEADLINE is what State.WatchdogExpires says,
its count, its response with mark, notice and request, and the deadline after it. Station time comes to the deadline
(log 4, the model's choice). -/
def Obligations.DeadlineExpiryRespondsByAction : Prop :=
  ∀ (s : State) (due : Time), s.rstn = false → s.wdu.armed = true → s.psq.state = some .on → s.wdu.deadline = some due →
    ∃ u, exec .watchdogDeadlineExpiry s = .next (settle u) ∧ (s.timeTo due).WatchdogExpires 1 u

/-- A want's timer runs out in SENT or RIDING (R146): below 3 tries it is offered again with one more try; at 3 it has failed,
its line is FREE and it leaves the list, and MFN's request in progress takes FAILED (R128): wants are held back no more, and
a step that waited on the key fails the request with MEDIUM-ERROR and MEDIA-FAILURE (R131). Station time comes
to the run-out (log 4, the model's choice). Another station's LINE-WANT (R143, R149): this station's QUEUED want of the key
rides on it, its frame withdrawn unless it is IN-TENURE and its timer started, and every other frame stays in the send list;
a serving station in MEMBER that holds the line CLEAN, with no want and no give of the key and fewer than four gives, pins it
and queues a give. In another station state, not sent to all, of another length or of image id 0 or 65,535, it is ignored
(R139). A request that fails unpins its reads in queue order (log 49), and the teardown it may end in leaves resume signalling
(log 50) and the USB address (log 40): the model's choices. -/
def Obligations.WantsRetryFailAndRideAndGivesAreQueued : Prop :=
  (∀ (s : State) (place : Nat) (w : Want) (due : Time), s.rstn = false → s.xch.wants[place]? = some w →
    w.state = .sent ∨ w.state = .riding → w.timer = some due →
    (w.tries < 3 → exec (.wantTimerExpiry place) s = .next (settle { s.timeTo due with xch := { s.xch with
      wants := s.xch.wants.map (fun v =>
        if v.line = w.line then { v with tries := v.tries + 1, state := .queued .held, timer := none } else v) } })) ∧
    (3 ≤ w.tries → s.lpm.line w.line = some (.filling w.key .none) →
      let v : State := { s.timeTo due with
        lpm := { s.lpm with
          lines := s.lpm.lines.filter (fun e => e.1 ≠ w.line), recency := s.lpm.recency.filter (fun q => q ≠ w.line) }
        xch := { s.xch with wants := s.xch.wants.filter (fun v => v.line ≠ w.line) } }
      let waits := fun (st : XferStep) => st.state = .waiting ∧ s.mfn.key st.line = w.key
      let answers := fun (u : State) => exec (.wantTimerExpiry place) s = .next (settle u)
      (s.mfn.request = none → answers v) ∧
      (∀ r, s.mfn.request = some r →
        let open_ : State := { v with mfn := { s.mfn with request := some { r with blocked := false } } }
        ((∀ st ∈ r.steps, ¬ waits st) → answers open_) ∧
        (∀ before st rest, r.steps = before ++ st :: rest → (∀ x ∈ before, ¬ waits x) → waits st → ∃ u, answers u ∧
          ({ open_ with
            mfn := { open_.mfn with usbStatus := some .mediumError }
            ntu := (v.raise .mediaFailure (be 4 st.line ++ be 2 s.mfn.image ++ be 1 s.mfn.gen)).ntu } : State).RequestEnded
              u)))) ∧
  (∀ (s : State) (f : LaneFrame), s.Reads f → s.serving = true → s.lif.takeHeld = none →
    f.kind = FrameKind.lineWant.code →
    let key : Key := { image := field f.body 0 2, gen := field f.body 2 1, line := field f.body 3 4 }
    let due := after s.now (s.setting Settings.wantTimer)
    let free := (∀ w ∈ s.xch.wants, w.isFor key = false) ∧ s.xch.gives.length < 4 ∧ ∀ g ∈ s.xch.gives, g.key ≠ key
    let passes := (s.ptu.state = .listen ∨ s.ptu.state = .member) ∧ f.dest = toAll ∧ f.body.length = 7 ∧
      1 ≤ key.image ∧ key.image ≤ 65534
    (¬ passes → exec (.frameCompleteUnspoiled f 0) s =
      .next (settle { s with ptu := s.hearing f.sender.toNat, lif := s.lif.afterFrame })) ∧
    (passes → ∃ u, exec (.frameCompleteUnspoiled f 0) s = .next (settle u) ∧
      u.xch.wants = s.xch.wants.map (fun w =>
        if w.isFor key then
          match w.state with
          | .queued .held => { w with state := .riding, timer := some due }
          | .queued (.listed _) => { w with state := .riding, timer := some due }
          | _ => w
        else w) ∧
      s.lif.WantsWithdrawn u.lif (s.xch.wants.filter (fun w => w.isFor key)) ∧
      (∀ pos pins, s.ptu.state = .member → s.lpm.find key = some (pos, .clean key pins false) →
        s.lpm.line pos = some (.clean key pins false) → free →
        u.xch.gives = s.xch.gives ++ [{ key := key, line := pos }] ∧ u.lpm.line pos = some (.clean key (pins + 1) false) ∧
        u.lpm.recency = s.lpm.recency.filter (fun q => q ≠ pos) ∧ ∀ q, q ≠ pos → u.lpm.line q = s.lpm.line q) ∧
      (s.ptu.state = .listen ∨ (∀ pos pins, s.lpm.find key ≠ some (pos, .clean key pins false)) ∨ ¬ free →
        u.xch.gives = s.xch.gives ∧ u.lpm = s.lpm) ∧
      u = { s with
        ptu := s.hearing f.sender.toNat
        lif := { s.lif.afterFrame with sendList := u.lif.sendList, giveBuf := u.lif.giveBuf }
        mctl := { s.mctl with waitSend := u.mctl.waitSend }
        lpm := { s.lpm with lines := u.lpm.lines, recency := u.lpm.recency }
        xch := { s.xch with wants := u.xch.wants, gives := u.xch.gives } }))

/-- Another station's LINE-GIVE (R144, R151, R152): the want of its key in QUEUED, SENT or RIDING becomes LANDING in a free
fill buffer, the lowest-numbered one (log 44), its frame is withdrawn, its timer stopped and its line's receive write asked,
and with no such want or no free buffer nothing is filled; this station's give of the key outside its tenure is withdrawn
and its line unpinned; in uplink role the computer's gives of the key leave the outbound queue and, outside tenure, the send
list. Every other give, and every other frame of the send list, stays. R149 allows one give of a key: of more, which no run
holds, the lines are unpinned in give-list order (log 45, the model's choice). Each field of a computer's body cut short is
the number that its bytes there spell (log 42, the model's choice). In another station state, not sent to all, of another
length or of image id 0 or 65,535, it is ignored (R139). -/
def Obligations.LineGivesFillAndSuppress : Prop :=
  ∀ (s : State) (f : LaneFrame), s.Reads f → s.lif.takeHeld = none → f.kind = FrameKind.lineGive.code →
    let keyIn := fun (b : Bytes) => ({ image := field b 0 2, gen := field b 2 1, line := field b 3 4 } : Key)
    let key := keyIn f.body
    let data := f.body.drop 7
    let bufferFree := fun (i : Fin 4) => s.xch.fillBufs.get i = none
    let filling := fun (w : Want) => w.isFor key = true ∧
      (w.state = .sent ∨ w.state = .riding ∨ ∃ st, w.state = .queued st)
    let suppressed := s.xch.gives.filter (fun g => g.key = key && !g.isInTenure)
    let isComputers := fun (e : SendEntry) =>
      e.owner = .upb ∧ e.inTenure = false ∧ e.kind = .lineGive ∧ ∃ b, e.payload = .body b ∧ keyIn b = key
    let unfilled := (∀ w ∈ s.xch.wants, ¬ filling w) ∨ ∀ i, ¬ bufferFree i
    let passes := (s.ptu.state = .listen ∨ s.ptu.state = .member) ∧ f.dest = toAll ∧ f.body.length = 2055 ∧
      1 ≤ key.image ∧ key.image ≤ 65534
    (¬ passes → exec (.frameCompleteUnspoiled f 0) s =
      .next (settle { s with ptu := s.hearing f.sender.toNat, lif := s.lif.afterFrame })) ∧
    (passes → ∃ u, exec (.frameCompleteUnspoiled f 0) s = .next (settle u) ∧
      (∀ (w : Want) (buf : Fin 4) (k : Key), s.xch.wants.find? (fun v => v.isFor key) = some w → filling w →
        bufferFree buf → (∀ j, j < buf → ¬ bufferFree j) → s.lpm.line w.line = some (.filling k .none) →
        u.xch.wants = s.xch.wants.map (fun v =>
          if v.line = w.line then { v with state := .landing buf, timer := none } else v) ∧
        u.xch.fillBufs = s.xch.fillBufs.set buf (some data) ∧
        u.mctl.waitRecv = s.mctl.waitRecv ++ [(w.line, data)] ∧ u.lpm.line w.line = some (.filling k .inFlight) ∧
        (∃ q : Lpm, q.line w.line = some (.filling k .inFlight) ∧ (∀ pos, pos ≠ w.line → q.line pos = s.lpm.line pos) ∧
          q.recency = s.lpm.recency ∧ q.UnpinnedInTurn (suppressed.map Give.line) u.lpm) ∧
        ∀ seq e, w.state = .queued (.listed seq) → s.lif.entry seq = some e → e.inTenure = false →
          ∀ x ∈ u.lif.sendList, x.seq ≠ seq) ∧
      (unfilled → u.xch.wants = s.xch.wants ∧ u.xch.fillBufs = s.xch.fillBufs ∧ u.mctl.waitRecv = s.mctl.waitRecv ∧
        s.lpm.UnpinnedInTurn (suppressed.map Give.line) u.lpm) ∧
      u.xch.gives = s.xch.gives.filter (fun g => g.key ≠ key || g.isInTenure) ∧
      (∀ g ∈ suppressed, ∀ seq e, g.standing = .listed seq → s.lif.entry seq = some e → e.inTenure = false →
        ∀ x ∈ u.lif.sendList, x.seq ≠ seq) ∧
      (s.serving = true → u.upb = s.upb) ∧
      (s.serving = false →
        (∀ g, g ∈ u.upb.outq ↔ g ∈ s.upb.outq ∧ ¬ (g.kind = .lineGive ∧ keyIn g.body = key)) ∧
        ∀ e ∈ u.lif.sendList, ¬ isComputers e) ∧
      (∀ seq e, s.lif.entry seq = some e → e.inTenure = true → u.lif.entry seq = some e) ∧
      (∀ e ∈ s.lif.sendList, s.serving = true ∨ ¬ isComputers e →
        unfilled ∨ (∀ w ∈ s.xch.wants, filling w → ∀ st, w.state = .queued st → st.isAt e.seq = false) →
        (∀ g ∈ suppressed, g.standing.isAt e.seq = false) → e ∈ u.lif.sendList) ∧
      u = { s with
        ptu := s.hearing f.sender.toNat
        lif := { s.lif.afterFrame with sendList := u.lif.sendList, giveBuf := u.lif.giveBuf }
        mctl := { s.mctl with waitRecv := u.mctl.waitRecv, waitSend := u.mctl.waitSend }
        lpm := { s.lpm with lines := u.lpm.lines, recency := u.lpm.recency }
        xch := u.xch
        upb := { s.upb with outq := u.upb.outq } })

/-- An IMAGE-RETIRE from a known uplink station, or this station's own in uplink role, whose tenure ends unspoiled (R112, R136,
R139, R153): State.ImageRetired. Of its image and generation every FILLING line is freed or left to be freed at the end of
its fill write, every CLEAN line is freed or doomed while pinned, and a line that is FREE stands in the recency list no more
(R107); the wants end, one LANDING becoming VOID, their frames withdrawn unless in tenure, and the gives and every other
frame of the send list stay. The attachment of that image is to be detached with cause RETIRED, its teardown at once where no
request is in progress; a step that waits for an ended want fails the request with MEDIUM-ERROR and MEDIA-FAILURE, the first
in want-list order deciding the line named (log 43), its reads unpinned in queue order (log 49), and a draining attachment is
then torn down (R134), which leaves resume signalling (log 50) and the USB address (log 40): the model's choices. From any
other sender, in another station state, not sent to all, of another length or of image id 0 or 65,535, it is ignored (R139). -/
def Obligations.ImageRetireEndsItsLinesWantsAndAttachment : Prop :=
  let passes := fun (s : State) (f : LaneFrame) => (s.ptu.state = .listen ∨ s.ptu.state = .member) ∧ f.dest = toAll ∧
    f.body.length = 3 ∧ 1 ≤ field f.body 0 2 ∧ field f.body 0 2 ≤ 65534
  let retired := fun (s u : State) (f : LaneFrame) => s.ImageRetired u (field f.body 0 2) (field f.body 2 1)
  (∀ (s : State) (f : LaneFrame), s.Reads f → s.lif.takeHeld = none → f.kind = FrameKind.imageRetire.code → s.lpm.Placed →
    let uplink := (s.ptu.peer f.sender.toNat).role = some .uplink
    ∃ t u, exec (.frameCompleteUnspoiled f 0) s = .next (settle u) ∧
      t = { s with
        ptu := s.hearing f.sender.toNat
        lif := { s.lif.afterFrame with recvQueue := t.lif.recvQueue, drove := t.lif.drove } } ∧
      (s.serving = true → t.lif = s.lif.afterFrame) ∧
      (passes s f → uplink → retired t u f) ∧ (¬ (passes s f ∧ uplink) → u = t)) ∧
  (∀ (s : State) (e : SendEntry) (t : Tenure) (take : Bool) (straps : Straps), s.rstn = false → s.serving = false →
    s.lif.engine = .bidding ∨ s.lif.engine = .sending → s.lif.tenure = some t → s.lif.entry t.seq = some e →
    s.ord.restartReply ≠ some e.seq → e.owner = .upb → e.dest = toAll → t.frame.dest = toAll →
    t.frame.kind = FrameKind.imageRetire.code → t.frame.sender.toNat = s.own → s.lpm.Placed →
    ∃ v u, exec (.senderTenureEnd (.slots false take) straps) s = .next (settle u) ∧
      v = { s with
        lif := { s.lif with
          engine := .quiet, quiet := 0, sitOut := true, ltx := false, drove := .nothing, tenure := none
          sendList := s.lif.sendList.filter (fun x => x.seq ≠ e.seq), giveBuf := v.lif.giveBuf }
        mctl := { s.mctl with waitSend := v.mctl.waitSend } } ∧
      (passes s t.frame → retired v u t.frame) ∧ (¬ passes s t.frame → u = v))

/-! ### Orders -/

/-- The tests of R190 in their order, whichever row the order is of: a body with no name of R191, a sender not known as an
uplink, a station outside MEMBER (STATUS apart), a sender that does not hold the claim where one is needed, and parameters
that are not what the name requires, answer their status, and nothing but the inbox changes. The order becomes REPLY-HELD
with the detail its name always carries (R192). An order whose name or POWER action is not one of the tables is of the row
ORDER_NAME_INVALID (log 14). -/
def Obligations.FailedOrderTestsAnswerTheirStatus : Prop :=
  ∀ (s : State) (o : Order) (rest : List Order) (row : OrderRow), s.rstn = false → s.serving = true →
    s.ord.restartPending = false → s.ptu.state = .member ∨ s.ptu.state = .haltedSetup ∨ s.ptu.state = .silent →
    s.ord.inbox = o :: rest → o.standing = .waiting → o.row = row →
    let detail := match o.name with
      | some 6 => s.psq.bytes
      | some 1 => [byte (s.ord.holder.getD 0)]
      | _ => []
    let answers := fun (st : OrderStatus) =>
      exec row.command s = .next (settle (s.withInbox (o.replied st detail :: rest)))
    let uplink := (s.ptu.peer o.sender).role = some .uplink
    (o.name = none → answers .invalid ∧
      exec .orderNameInvalid s = .next (settle (s.withInbox (o.replied .invalid detail :: rest)))) ∧
    (∀ n, o.name = some n →
      (¬ uplink → answers .notUplink) ∧
      (uplink → s.ptu.state ≠ .member → n ≠ 3 → answers .notMember) ∧
      (uplink → s.ptu.state = .member → 6 ≤ n → s.ord.holder ≠ some o.sender → answers .notHolder) ∧
      (uplink → s.ptu.state = .member ∨ n = 3 → n < 6 ∨ s.ord.holder = some o.sender →
        paramsValid n o.params = false → answers .invalid)) ∧
    (∀ other : OrderRow, other ≠ row → exec other.command s = .next (settle s))

/-- Each of the nine power actions answers the status that the table of R8 to R15 gives its state, with the sequencer's
four bytes as they are after it as detail. With the status ALREADY, BUSY, MISMATCH or NOT-WAKEABLE, a cancel with none
pending among them, nothing but the inbox changes (R7). Before PSQ has derived its state it takes no action (log 21, the
model's choice: BUSY, and NOT-WAKEABLE for WAKE). -/
def Obligations.PowerActionsAnswerTheStatusTable : Prop :=
  ∀ (s : State) (o : Order) (rest : List Order) (row : OrderRow), OrderAtHead s o rest row → row ∈ powerRows →
    s.psq.Legal →
    let wakeable : Bool := s.mfn.port = .suspended && s.mfn.remoteWake
    (∀ st status, s.psq.state = some st → tableStatus s.psq st s.ptu.mismatch wakeable row = some status →
      (∃ u, exec row.command s = .next (settle u) ∧ u.ord.inbox = o.replied status u.psq.bytes :: rest ∧
        s.PowerFrame { u with ord := s.ord }) ∧
      (status = .already ∨ status = .busy ∨ status = .mismatch ∨ status = .notWakeable →
        exec row.command s = .next (settle (s.withInbox (o.replied status s.psq.bytes :: rest))))) ∧
    (s.psq.state = none → exec row.command s = .next (settle (s.withInbox
      (o.replied (if row = .powerWake then .notWakeable else .busy) s.psq.bytes :: rest))))

/-- ON and CYCLE (R8, R12): from OFF PSQ awaits a slot with its claim asked as R5 allows; in RESTING, and for ON in a
FEED-RESTORE start, the start is pending; CYCLE in ON or STOPPING forces the server off with the start pending. Under the
rack-mismatch condition the record is unchanged (R7). A claim asked: the own-frame list's four places
are log 47 (deduced). -/
def Obligations.OnAndCycleAskForAStart : Prop :=
  ∀ (s : State) (o : Order) (rest : List Order) (row : OrderRow) (st : SeqState), OrderAtHead s o rest row →
    s.psq.Legal → s.psq.state = some st →
    let answers := fun (status : OrderStatus) (v : State) =>
      exec row.command s = .next (settle (v.withInbox (o.replied status v.psq.bytes :: rest)))
    let accepted := fun (v : State) => if s.ptu.mismatch then answers .mismatch s else answers .accepted v
    let pending : State := { s with psq := { s.psq with pendingAct := .powerOn } }
    (row = .powerOn ∨ row = .powerCycle → st = .off → accepted { s with
      psq := { s.psq with
        state := some .awaitingSlot, variant := .powerOn, restPhase := .satisfied, claimAsked := s.claimsNow }
      adm := { s.adm with own := if s.claimsNow then s.adm.ownWith [{ kind := .claim .powerOn }] else s.adm.own }
      ntu := (s.raise .powerState [5, 1, 0, 0]).ntu }) ∧
    (row = .powerOn ∨ row = .powerCycle → st = .resting → accepted pending) ∧
    (row = .powerOn → st = .awaitingSlot ∨ st = .starting → s.psq.variant = .feedRestore → accepted pending) ∧
    (row = .powerCycle → st = .on ∨ st = .stopping → accepted { s with
      psq := { s.psq with
        state := some .forcing, variant := .none, pendingAct := .powerOn, press := .long (after s.now 6000)
        forceT := some (after s.now (1000 * s.setting Settings.force))
        young := false, youngT := none, deferred := .none, graceT := none, restPhase := .none }
      wdu := if st = .on then { s.wdu with deadline := none } else s.wdu
      ntu := (s.raise .powerState [9, 0, 1, flag s.psq.slotHeld]).ntu })

/-- The three offs (R9, R10): in ON a press pulse and the grace timer, deferred while young, or a long press and the force
timer; in STARTING a hard off gives up slot and pending start; in AWAITING-SLOT the claim is withdrawn and PSQ is OFF, or
FEED-CUT with the rest SATISFIED; a pending POWER-ON is cancelled in RESTING, FEED-BOUNCE and FORCING. Each change of state
raises POWER-STATE, and WDU is told where PSQ leaves ON (R6). A retract asked: the own-frame list's four places are log 47
(deduced). -/
def Obligations.OffActionsStopTheServer : Prop :=
  ∀ (s : State) (o : Order) (rest : List Order) (row : OrderRow) (st : SeqState), OrderAtHead s o rest row →
    s.psq.Legal → s.psq.state = some st →
    let answers := fun (status : OrderStatus) (v : State) =>
      exec row.command s = .next (settle (v.withInbox (o.replied status v.psq.bytes :: rest)))
    let soft := row = .powerOffSoft ∨ row = .powerOffSoftThenHard
    let var : Variant := if row = .powerOffSoft then .soft else .softThenHard
    let force := some (after s.now (1000 * s.setting Settings.force))
    (soft → st = .on → s.psq.young = false → answers .accepted { s with
      psq := { s.psq with
        state := some .stopping, variant := var, press := .pulse (after s.now 200), youngT := none, deferred := .none
        graceT := some (after s.now (1000 * s.setting Settings.grace)), restPhase := .none }
      wdu := { s.wdu with deadline := none }
      ntu := (s.raise .powerState [8, var.code, 0, flag s.psq.slotHeld]).ntu }) ∧
    (soft → st = .on → s.psq.young = true → answers .accepted { s with
      psq := { s.psq with deferred := if row = .powerOffSoft then .soft else .softThenHard } }) ∧
    (row = .powerOffSoftThenHard → st = .stopping → s.psq.variant = .soft →
      answers .accepted { s with psq := { s.psq with variant := .softThenHard } }) ∧
    (row = .powerOffHard → st = .on ∨ st = .stopping → answers .accepted { s with
      psq := { s.psq with
        state := some .forcing, variant := .none, press := .long (after s.now 6000), forceT := force
        young := false, youngT := none, deferred := .none, graceT := none, restPhase := .none }
      wdu := if st = .on then { s.wdu with deadline := none } else s.wdu
      ntu := (s.raise .powerState [9, 0, 0, flag s.psq.slotHeld]).ntu }) ∧
    (row = .powerOffHard → st = .starting → ∃ u, exec row.command s = .next (settle u) ∧
      u.ord.inbox = o.replied .accepted [9, 0, 0, 0] :: rest ∧ s.PowerFrame { u with ord := s.ord } ∧ s.SlotReleased u ∧
      u.now = s.now ∧ u.ntu = (s.raise .powerState [9, 0, 0, 0]).ntu ∧ u.wdu = s.wdu ∧ u.ccu = s.ccu ∧ u.mfn = s.mfn ∧
      u.lpm = s.lpm ∧ u.xch = s.xch ∧
      u.psq = { s.psq with
        state := some .forcing, variant := .none, pendingAct := .none, press := .long (after s.now 6000)
        forceT := force, startT := none, slotHeld := false, settleT := none, restPhase := .none
        retract := u.psq.retract }) ∧
    (soft ∨ row = .powerOffHard → st = .awaitingSlot → ∃ u, exec row.command s = .next (settle u) ∧
      let left : Bytes := [if s.psq.variant = .feedRestore then 1 else 4, 0, 0, 0]
      u.ord.inbox = o.replied .done left :: rest ∧ s.PowerFrame { u with ord := s.ord } ∧
      u.now = s.now ∧ u.ntu = (s.raise .powerState left).ntu ∧ u.wdu = s.wdu ∧ u.ccu = s.ccu ∧ u.mfn = s.mfn ∧
      u.lpm = s.lpm ∧ u.xch = s.xch ∧
      (s.psq.claimAsked = true → s.RetractAsked u .withdraw) ∧
      (s.psq.claimAsked = false → u.psq.retract = s.psq.retract ∧ u.adm = s.adm) ∧
      u.psq = { s.psq with
        state := some (if s.psq.variant = .feedRestore then .feedCut else .off), variant := .none, pendingAct := .none
        claimAsked := false, restPhase := .satisfied, retract := u.psq.retract }) ∧
    (soft ∨ row = .powerOffHard → st = .resting ∨ st = .feedBounce ∨ st = .forcing → s.psq.pendingAct = .powerOn →
      answers .done { s with psq := { s.psq with pendingAct := .none } })

/-- FEED-CUT, FEED-RESTORE, RESET and WAKE (R11, R13 to R15): a cut opens the feed, releases PWR_PRESS, marks, clears what
was pending and rests as the state left requires; a restore awaits a slot or is pending; a reset drives PWR_RESET for 200
ms, marks, restarts the young timer and the boot allowance; a wake signals resume for 10 ms and leaves the record. A claim
or retract asked: the own-frame list's four places are log 47 (deduced). The teardown of a boot-once attachment leaves resume
signalling (log 50) and the USB address (log 40) and unpins in queue order (log 49): the model's choices. -/
def Obligations.FeedResetAndWakeActions : Prop :=
  ∀ (s : State) (o : Order) (rest : List Order) (row : OrderRow) (st : SeqState), OrderAtHead s o rest row →
    s.psq.Legal → s.psq.state = some st →
    let answers := fun (status : OrderStatus) (v : State) =>
      exec row.command s = .next (settle (v.withInbox (o.replied status v.psq.bytes :: rest)))
    let accepted := fun (v : State) => if s.ptu.mismatch then answers .mismatch s else answers .accepted v
    let fall : RestPhase × Option Time := (.awaitingFall, none)
    let run : RestPhase × Option Time := (.running, some (after s.now (1000 * s.setting Settings.rest)))
    let kept : RestPhase × Option Time := (s.psq.restPhase, s.psq.restT)
    let cutRest : RestPhase × Option Time :=
      match st with
      | .on | .stopping => fall
      | .forcing => if s.psq.pgood then fall else run
      | .feedBounce => if s.psq.pgood then fall else kept
      | .starting => run
      | .off | .awaitingSlot => (.satisfied, none)
      | .resting | .feedCut => kept
    (row = .powerFeedCut → st ≠ .feedCut → ∃ u, exec row.command s = .next (settle u) ∧ u.now = s.now ∧
      u.ord.inbox = o.replied .done [1, 0, 0, 0] :: rest ∧ s.PowerFrame { u with ord := s.ord } ∧
      u.ccu = s.ccu.addMark s.now .feedCut 0 ∧ u.ntu = (s.raise .powerState [1, 0, 0, 0]).ntu ∧
      u.wdu = (if st = .on then { s.wdu with deadline := none } else s.wdu) ∧
      (st = .on ∨ st = .stopping ∨ st = .forcing → s.BootOnceEnds u) ∧
      (st ≠ .on → st ≠ .stopping → st ≠ .forcing → u.mfn = s.mfn ∧ u.lpm = s.lpm ∧ u.xch = s.xch) ∧
      (st ≠ .awaitingSlot → s.SlotReleased u) ∧
      (st = .awaitingSlot → s.psq.claimAsked = true → s.RetractAsked u .withdraw) ∧
      (st = .awaitingSlot → s.psq.claimAsked = false → u.psq.retract = s.psq.retract ∧ u.adm = s.adm) ∧
      u.psq = { s.psq with
        state := some .feedCut, variant := .none, pendingAct := .none, slotHeld := false, claimAsked := false
        young := false, deferred := .none, press := .released, feedClosed := false
        restPhase := cutRest.1, restT := cutRest.2, startT := none, settleT := none, youngT := none, graceT := none
        forceT := none, retract := u.psq.retract }) ∧
    (row = .powerFeedRestore → st = .feedCut → s.psq.restPhase = .satisfied → accepted { s with
      psq := { s.psq with
        state := some .awaitingSlot, variant := .feedRestore, restT := none, claimAsked := s.claimsNow }
      adm := { s.adm with own := if s.claimsNow then s.adm.ownWith [{ kind := .claim .feedRestore }] else s.adm.own }
      ntu := (s.raise .powerState [5, 2, 0, 0]).ntu }) ∧
    (row = .powerFeedRestore → st = .feedCut → s.psq.restPhase ≠ .satisfied →
      accepted { s with psq := { s.psq with pendingAct := .feedRestore } }) ∧
    (row = .powerReset → st = .on → s.psq.resetPulse = none → answers .done { s with
      psq := { s.psq with
        resetPulse := some (after s.now 200), young := true
        youngT := some (after s.now (1000 * s.setting Settings.young)) }
      wdu := { s.wdu with
        early := 0, lastBeat := none
        deadline := if s.wdu.armed then some (after s.now (1000 * s.wdu.bootAllowance)) else s.wdu.deadline
        phase := if s.wdu.armed then .boot else s.wdu.phase }
      ccu := s.ccu.addMark s.now .reset 0 }) ∧
    (row = .powerWake → st = .on → s.mfn.port = .suspended → s.mfn.remoteWake = true → answers .done { s with
      mfn := { s.mfn with resume := some (s.mfn.resume.getD (after s.now 10)) } })

/-- CLAIM and RELEASE-CLAIM by the table of R193; CLAIM's detail is the holder after the decision (R192). -/
def Obligations.ClaimPassesByTheTable : Prop :=
  ∀ (s : State) (o : Order) (rest : List Order),
    let taken : State := { s with ord := { s.ord with holder := some o.sender, holdTime := s.now } }
    let answers := fun (row : OrderRow) (status : OrderStatus) (v : State) (detail : Bytes) =>
      exec row.command s = .next (settle (v.withInbox (o.replied status detail :: rest)))
    (OrderAtHead s o rest .claim →
      (s.ord.holder = none → answers .claim .done taken [byte o.sender]) ∧
      (s.ord.holder = some o.sender → answers .claim .already s [byte o.sender]) ∧
      (∀ h, s.ord.holder = some h → h ≠ o.sender → o.params = [0] → answers .claim .held s [byte h]) ∧
      (∀ h, s.ord.holder = some h → h ≠ o.sender → o.params = [1] →
        answers .claim .done { taken with ntu := (s.raise .claimLost [byte h, byte o.sender, 1]).ntu }
          [byte o.sender])) ∧
    (OrderAtHead s o rest .releaseClaim →
      (s.ord.holder = some o.sender →
        answers .releaseClaim .done { s with ord := { s.ord with holder := none, holdTime := 0 } } []) ∧
      (s.ord.holder ≠ some o.sender → answers .releaseClaim .notHolder s []))

/-- STATUS (R195): decided in MEMBER, HALTED-SETUP and SILENT with DONE and a detail of 85 bytes and 12 for each present
peer, which holds the values of the blocks at their places, 0 in every field of a block without a setting record. Nothing of
the part changes but the counter of free values (log 23, log 24: what R195 gives no value). That request in progress is
never reported as 3 (other) is log 20, the model's choice. -/
def Obligations.StatusReportsTheBlocks : Prop :=
  ∀ (s : State) (o : Order) (rest : List Order), s.rstn = false → s.serving = true → s.ord.restartPending = false →
    s.ptu.state = .member ∨ s.ptu.state = .haltedSetup ∨ s.ptu.state = .silent → s.ord.inbox = o :: rest →
    o.standing = .waiting → o.row = .status → (s.ptu.peer o.sender).role = some .uplink → o.params = [] →
    let peers := stationNumbers.filter (fun x => (s.ptu.peer x).present)
    ∃ d : Bytes, exec .status s =
        .next (settle (({ s with fresh := s.fresh + 1024 } : State).withInbox (o.replied .done d :: rest))) ∧
      let at_ := fun (place n : Nat) (bytes : Bytes) => (d.drop place).take n = bytes
      d.length = 85 + 12 * peers.length ∧
      at_ 0 6 ([s.ptu.state.code, Role.code s.sld.role] ++ be 4 s.now.toNat) ∧
      (s.sld.settings = none → at_ 6 75 (List.replicate 75 0)) ∧
      (s.sld.settings.isSome →
        at_ 6 6 (s.psq.bytes ++ [byte s.waitingPosition, flag s.ptu.mismatch]) ∧
        at_ 12 1 [flag s.wdu.armed] ∧ (∀ t, s.wdu.timeout = some t → at_ 13 2 (be 2 t)) ∧
        at_ 15 7 (be 2 s.wdu.bootAllowance ++ be 2 (s.wdu.pendingTimeout.getD 0) ++
          [s.wdu.action.code, flag s.wdu.guard, s.wdu.phaseByte]) ∧
        (s.wdu.deadline = none → at_ 22 4 [255, 255, 255, 255]) ∧
        (∀ t, s.wdu.deadline = some t → reached t s.now = false → at_ 22 4 (be 4 (t - s.now).toNat)) ∧
        at_ 26 5 [byte s.wdu.early, byte s.wdu.expiry, flag s.wdu.holdoff, s.mfn.state.code, causeCode s.mfn.cause] ∧
        (s.mfn.state = .none → at_ 31 7 [0, 0, 0, 0, 0, 0, 0]) ∧
        (s.mfn.state ≠ .none → at_ 31 9 (be 2 s.mfn.image ++ be 1 s.mfn.gen ++ be 4 s.mfn.capacity ++
          [s.mfn.mode.code, flag s.mfn.bootOnce])) ∧
        at_ 40 4 [s.mfn.port.code, flag s.mfn.remoteWake, s.mfn.requestByte, causeCode s.mfn.lastCause] ∧
        at_ 44 16 (be 4 s.lpm.freeCount ++ be 4 s.lpm.fillingCount ++ be 4 s.lpm.cleanCount ++ be 4 s.lpm.dirtyCount) ∧
        at_ 60 16 (be 8 s.ccu.captured ++ be 8 s.ccu.oldest) ∧
        (s.ord.holder = none → at_ 76 5 [0, 0, 0, 0, 0]) ∧
        (∀ h, s.ord.holder = some h → at_ 76 5 (byte h :: be 4 s.ord.holdTime.toNat))) ∧
      at_ 81 4 [byte peers.length,
        byte (peers.filter (fun x => (s.ptu.peer x).role = some .uplink)).length,
        byte (peers.filter (fun x => (s.ptu.peer x).role = some .serving)).length,
        byte (peers.filter (fun x => (s.ptu.peer x).role = none)).length] ∧
      (∀ i x, peers[i]? = some x →
        let e := s.ptu.peer x
        at_ (85 + 12 * i) 1 [byte x] ∧ (∀ r, e.role = some r → at_ (86 + 12 * i) 1 [Role.code r]) ∧
        at_ (87 + 12 * i) 1 [byte e.missed] ∧ (∀ st, e.lastState = some st → at_ (88 + 12 * i) 1 [st.code]) ∧
        (∀ q, e.lastSeq = some q → at_ (89 + 12 * i) 4 [q.state, q.variant, q.pendingAct, q.slotHeld]) ∧
        (∀ a, e.lastAttach = some a → at_ (93 + 12 * i) 3 (be 2 a.1 ++ be 1 a.2)) ∧
        at_ (96 + 12 * i) 1 [e.digestMatch.code])

/-- WATCH, UNWATCH and BREAK (R68 to R70, R79): a start by the table of R68, a new entry at the tail, FULL at four, a
replaced start in its place with the frame in flight ended; UNWATCH removes the entry and ends its frame, or answers ALREADY;
BREAK appends its item behind the text, or answers FULL at eight. That a refused start of a new sender answers INVALID before
FULL is log 38, the model's choice. -/
def Obligations.WatchUnwatchAndBreakActOnForwarding : Prop :=
  ∀ (s : State) (o : Order) (rest : List Order),
    let answers := fun (row : OrderRow) (status : OrderStatus) (v : State) (detail : Bytes) =>
      exec row.command s = .next (settle (v.withInbox (o.replied status detail :: rest)))
    let place := s.cfw.watchers.findIdx? (fun w => w.station = o.sender)
    let first := ((s.ccu.marks.head?).map Mark.number).getD s.ccu.markCounter
    let touched := fun (u : State) (cfw : Cfw) (status : OrderStatus) (detail : Bytes) =>
      s.OutFrameEnded u o.sender ∧ u = { s with
        cfw := { cfw with out := u.cfw.out }
        lif := { s.lif with sendList := u.lif.sendList, giveBuf := u.lif.giveBuf }
        mctl := { s.mctl with
          waitForward := u.mctl.waitForward, current := u.mctl.current, waitSend := u.mctl.waitSend }
        ord := { s.ord with inbox := o.replied status detail :: rest } }
    let started := fun (ptr gap : Nat) (mark : BitVec 32) =>
      let w : Watcher :=
        { station := o.sender, sendPtr := ptr, nextMark := mark, gap := gap
          waitStart := if ptr < s.ccu.stored then some s.now else none }
      let detail := be 8 ptr ++ be 4 gap
      (place = none → s.cfw.watchers.length < 4 →
        answers .watch .done { s with cfw := { s.cfw with watchers := s.cfw.watchers ++ [w] } } detail) ∧
      (place = none → 4 ≤ s.cfw.watchers.length → answers .watch .full s []) ∧
      (∀ j, place = some j → ∃ u, exec .watch s = .next (settle u) ∧
        touched u { s.cfw with watchers := s.cfw.watchers.set j w } .done detail)
    (OrderAtHead s o rest .watch →
      (o.params = [0] → started s.ccu.captured 0 s.ccu.markCounter) ∧
      (o.params = [1] → started s.ccu.oldest 0 first) ∧
      (∀ n, n < 2 ^ 64 → o.params = 2 :: be 8 n →
        (s.ccu.captured < n → answers .watch .invalid s []) ∧
        (n ≤ s.ccu.captured → n < s.ccu.oldest → started s.ccu.oldest (min (s.ccu.oldest - n) 4294967295) first) ∧
        (n ≤ s.ccu.captured → s.ccu.oldest ≤ n →
          started n 0 (((s.ccu.marks.find? (fun m => n ≤ m.offset)).map Mark.number).getD s.ccu.markCounter)))) ∧
    (OrderAtHead s o rest .unwatch →
      (place = none → answers .unwatch .already s []) ∧
      (∀ j, place = some j → ∃ u, exec .unwatch s = .next (settle u) ∧
        touched u { s.cfw with watchers := s.cfw.watchers.filter (fun w => w.station ≠ o.sender), turn := u.cfw.turn } .done [])) ∧
    (OrderAtHead s o rest .breakOrder →
      (s.cfw.breakCount < 8 → answers .breakOrder .done
        { s with cfw := { s.cfw with queue := s.cfw.queue ++ [.brk o.sender] } } []) ∧
      (8 ≤ s.cfw.breakCount → answers .breakOrder .full s []))

/-- The watchdog orders (R84 to R86): ARM takes every value of the order, clears what was counted and in ON sets the deadline
to now + T; DISARM makes the deadline, pending timeout and counts absent and keeps the settings and the hold-off; RETIME
stores a pending timeout and moves nothing else. A number out of its range and an action outside the three answer
INVALID, with the record unchanged. -/
def Obligations.WatchdogOrdersSetTheRecord : Prop :=
  ∀ (s : State) (o : Order) (rest : List Order),
    let answers := fun (row : OrderRow) (status : OrderStatus) (wdu : Wdu) =>
      exec row.command s = .next (settle (({ s with wdu := wdu } : State).withInbox (o.replied status [] :: rest)))
    (OrderAtHead s o rest .watchdogArm → ∀ (t : Nat) (action : FaultAction) (guard : Bool) (boot : Nat),
      t < 65536 → boot < 65536 → o.params = be 2 t ++ [action.code, flag guard] ++ be 2 boot →
      let valid := 10 ≤ t ∧ t ≤ 3600 ∧ (boot = 0 ∨ (30 ≤ boot ∧ boot ≤ 3600))
      (¬ valid → answers .watchdogArm .invalid s.wdu) ∧
      (∀ other : Byte, other = 0 ∨ 3 < other.toNat →
        let asked : Order := { o with body := o.body.take 2 ++ be 2 t ++ [other, flag guard] ++ be 2 boot }
        exec .watchdogArm (s.withInbox (asked :: rest)) =
          .next (settle (s.withInbox (asked.replied .invalid [] :: rest)))) ∧
      (valid → answers .watchdogArm .done { s.wdu with
        armed := true, timeout := some t, action := action, guard := guard
        bootAllowance := if boot = 0 then s.setting Settings.bootAllowance else boot
        pendingTimeout := none, lastBeat := none, early := 0, expiry := 0
        deadline := if s.psq.state = some .on then some (after s.now (1000 * t)) else s.wdu.deadline
        phase := if s.psq.state = some .on then .running else s.wdu.phase })) ∧
    (OrderAtHead s o rest .watchdogDisarm →
      (s.wdu.armed = true → answers .watchdogDisarm .done { s.wdu with
        armed := false, deadline := none, pendingTimeout := none, lastBeat := none, early := 0, expiry := 0 }) ∧
      (s.wdu.armed = false → answers .watchdogDisarm .already s.wdu)) ∧
    (OrderAtHead s o rest .watchdogRetime → ∀ t : Nat, t < 65536 → o.params = be 2 t →
      (t < 10 ∨ 3600 < t → s.wdu.armed = true → answers .watchdogRetime .invalid s.wdu) ∧
      (10 ≤ t → t ≤ 3600 → s.wdu.armed = false → answers .watchdogRetime .busy s.wdu) ∧
      (10 ≤ t → t ≤ 3600 → s.wdu.armed = true →
        answers .watchdogRetime .done { s.wdu with pendingTimeout := some t }))

/-- ATTACH, DETACH and RESTART (R116, R117, R134, R196): ATTACH in NONE takes its five values, turns the pull-up on with
VBSENSE high, marks and notifies; DETACH in ATTACHED with no cause drains, its teardown at once when no request is in
progress; RESTART is answered DONE and holds back every further order. A number of ATTACH or WATCHDOG-RETIME out of its
range answers INVALID before a BUSY (log 37, deduced). The teardown leaves resume signalling (log 50) and the USB address
(log 40) and unpins in queue order (log 49): the model's choices. -/
def Obligations.AttachDetachAndRestartAct : Prop :=
  ∀ (s : State) (o : Order) (rest : List Order),
    let answers := fun (row : OrderRow) (status : OrderStatus) (v : State) =>
      exec row.command s = .next (settle (v.withInbox (o.replied status [] :: rest)))
    (OrderAtHead s o rest .attach → ∀ (image gen capacity : Nat) (mode : Mode) (bootOnce : Bool),
      image < 65536 → gen < 256 → capacity < 2 ^ 32 →
      o.params = be 2 image ++ be 1 gen ++ be 4 capacity ++ [mode.code, flag bootOnce] →
      let valid := 1 ≤ image ∧ image ≤ 65534 ∧ 1 ≤ capacity
      (¬ valid → answers .attach .invalid s) ∧
      (valid → s.mfn.state ≠ .none → answers .attach .busy s) ∧
      (valid → s.mfn.state = .none → answers .attach .done { s with
        mfn := { s.mfn with
          state := .attached, image := image, gen := gen, capacity := capacity, mode := mode, bootOnce := bootOnce
          cause := none, drain := none, changed := false, tracker := none
          port := if s.pins.vbsense then .connected else s.mfn.port }
        ccu := s.ccu.addMark s.now .mediaAttached (image * 256 + gen)
        ntu := (s.raise .mediaAttached
          (be 2 image ++ be 1 gen ++ be 4 capacity ++ [mode.code, flag bootOnce])).ntu })) ∧
    (OrderAtHead s o rest .watchdogRetime → ∀ t : Nat, t < 65536 → o.params = be 2 t → t < 10 ∨ 3600 < t →
      s.wdu.armed = false → answers .watchdogRetime .invalid s) ∧
    (OrderAtHead s o rest .detach →
      let caused : State := { s with mfn := { s.mfn with cause := some .order, drain := some (after s.now 2000) } }
      (s.mfn.state = .attached → s.mfn.cause = none → s.mfn.request.isSome → answers .detach .accepted caused) ∧
      (s.mfn.state = .attached → s.mfn.cause = none → s.mfn.request = none → ∃ u, caused.TornDown u ∧
        answers .detach .accepted u) ∧
      (s.mfn.state ≠ .attached ∨ s.mfn.cause.isSome → answers .detach .already s)) ∧
    (OrderAtHead s o rest .restart → exec .restart s = .next (settle
      (({ s with ord := { s.ord with restartPending := true } } : State).withInbox (o.replied .done [] true :: rest))))

/-! ### Media -/

/-- A block request is taken when the port is CONFIGURED and none is in progress, and is decided by the tests of R123 in
their order; CAPACITY returns the capacity and GOOD, READY returns GOOD, and EJECT returns GOOD and begins the teardown at
once (R124, R134). That a refusal leaves no data with the server, and the four bytes of CAPACITY, most significant first,
are log 20's, the model's choice. The teardown leaves resume signalling (log 50) and the USB address (log 40) and unpins in
queue order (log 49): the model's choices. -/
def Obligations.RequestTestsAndAnswers : Prop :=
  ∀ (s : State) (c : Instr) (isWrite : Bool) (range : Option (Nat × Nat)), s.rstn = false →
    blockRequest c = some (isWrite, range) →
    let sends := fun (status : UsbStatus) (data : Bytes) (changed : Bool) => exec c s = .next (settle { s with
      mfn := { s.mfn with usbStatus := some status, usbData := data, changed := changed } })
    let outside := ∃ first count, range = some (first, count) ∧ s.mfn.capacity < first + count
    (s.mfn.port ≠ .configured ∨ s.mfn.request.isSome → exec c s = .next (settle s)) ∧
    (s.mfn.port = .configured → s.mfn.request = none →
      (s.mfn.state = .attached → s.mfn.cause.isSome → sends .notReady [] s.mfn.changed) ∧
      (s.mfn.state ≠ .attached ∨ s.mfn.cause = none →
        (s.mfn.changed = false → sends .mediumChanged [] true) ∧
        (s.mfn.changed = true →
          (isWrite = true → s.mfn.mode = .readOnly → sends .writeProtected [] true) ∧
          (isWrite = false ∨ s.mfn.mode = .overlay → outside → sends .outOfRange [] true) ∧
          (c = .capacity → sends .good (be 4 s.mfn.capacity) true) ∧
          (c = .ready → sends .good [] true) ∧
          (c = .eject → s.mfn.state = .attached → ∃ u, exec c s = .next (settle u) ∧
            ({ s with mfn := { s.mfn with usbStatus := some .good, usbData := [], cause := some .eject } } : State).TornDown
              u))))

/-- READ and WRITE begin their transfer (R125, R126, R130): a request record whose steps cover the blocks line by line, each
step of a READ looked up by R126's table and each of a WRITE waiting for its blocks, which come into the step buffer one
step at a time; the delivery point is the next block to pass (R125), so it moves on by the step's blocks as they come, while
the port is SUSPENDED too (log 53, the model's choice). Of a MERGE step's two transfers the overlay's comes first (log 54,
the model's choice), and the base's alone is asked where the overlay holds none of its blocks (log 19, deduced, where R129
speaks of two). The blocks and the status last sent are empty from here on (log 20, the model's choice), and the want that a
step comes to wait on turns to DEMAND at the end of the step (R141; log 41, deduced). -/
def Obligations.ReadAndWriteBeginTheirTransfer : Prop :=
  (∀ (s : State) (c : Instr) (isWrite : Bool) (first count : Nat), s.rstn = false →
    blockRequest c = some (isWrite, some (first, count)) → s.mfn.port = .configured → s.mfn.request = none →
    s.mfn.draining = false → s.mfn.changed = true → isWrite = false ∨ s.mfn.mode = .overlay →
    first + count ≤ s.mfn.capacity →
    ∃ steps, CoversBlocks steps first count ∧
      (isWrite = false → ∀ st ∈ steps, s.LookedUp st) ∧
      (isWrite = true → ∀ st ∈ steps, st.source = .overlay ∧ st.state = .pending) ∧
      exec c s = .next (settle { s with mfn := { s.mfn with
        usbData := [], usbStatus := none, nextRequest := s.mfn.nextRequest + 1
        request := some
          { serial := s.mfn.nextRequest, kind := if isWrite then .write else .read, first := first, count := count
            steps := steps, delivery := first } } })) ∧
  (∀ (s : State) (r : Request) (st : XferStep) (data : Bytes), s.rstn = false → s.mfn.request = some r →
    r.kind = .write → r.buffer = none → r.steps.find? (fun x => !x.isDone) = some st → st.state = .pending →
    st.first ≤ st.last → st.last ≤ 3 → data.length = 512 * (st.last - st.first + 1) →
    exec (.writeStepDataReceived data) s = .next (settle { s with
      mfn := { s.mfn with request := some { r with
        buffer := some (st.line, data), delivery := r.delivery + (st.last - st.first + 1) } } }))

/-- The port's events that end no request (R118, R119, R122): the server's requests are answered and its address taken, its
configuration selected, the bus suspended and resumed to the state remembered, the remote-wake flag set and cleared, and
VBSENSE's rise turns the pull-up on in ATTACHED. An event outside the states it is defined in changes nothing (log 2); the
descriptors' bytes are free values (log 22). Station time comes to the end of a resume (log 4, the model's choice). -/
def Obligations.PortFollowsTheBus : Prop :=
  ∀ s : State, s.rstn = false →
    let moves := fun (c : Instr) (mfn : Mfn) => exec c s = .next (settle { s with mfn := mfn })
    let m := s.mfn
    let onBus := m.port = .connected ∨ m.port = .configured
    (onBus →
      (∀ which, moves (.usbStandardRequest (.getDescriptor which))
        { m with usbControl := Config.usbDescriptor which }) ∧
      (∀ a, moves (.usbStandardRequest (.setAddress a)) { m with address := a, usbControl := [] }) ∧
      moves .usbBusIdleSuspend { m with port := .suspended, remembered := m.port } ∧
      moves .usbSetRemoteWake { m with remoteWake := true } ∧
      moves .usbClearRemoteWake { m with remoteWake := false }) ∧
    (¬ onBus → moves .usbBusIdleSuspend m ∧ moves .usbSetRemoteWake m ∧ moves .usbClearRemoteWake m ∧
      ∀ q, moves (.usbStandardRequest q) m) ∧
    (m.port = .connected → moves .usbSetConfiguration { m with port := .configured }) ∧
    (m.port ≠ .connected → moves .usbSetConfiguration m) ∧
    (m.port = .suspended → moves .usbBusActivityResume { m with port := m.remembered }) ∧
    (m.port ≠ .suspended → moves .usbBusActivityResume m) ∧
    (∀ due, m.resume = some due → exec .usbResumeSignallingEnd s = .next (settle { s.timeTo due with
      mfn := { m with resume := none, port := if m.port = .suspended then m.remembered else m.port } })) ∧
    (m.resume = none → moves .usbResumeSignallingEnd m) ∧
    exec .vbsenseHigh s = .next (settle { s with
      pins := { s.pins with vbsense := true }
      mfn := { m with port :=
        if m.port = .unpowered then (if m.state = .attached then .connected else .disconnected) else m.port } })

/-- The events that abort the request in progress (R120, R121, R132, R134): the server selects no configuration, a bus
reset, a fall of VBSENSE, and the drain limit. The port moves as each rule says, the waiting reads are withdrawn and their
lines unpinned in turn (R106; log 49 for the order), no status is sent, and a draining attachment is torn down. Station time
comes to the drain limit (log 4), the USB address stays (log 40), and resume signalling runs on at a teardown (log 50): the
model's choices. -/
def Obligations.AbortsEndTheRequest : Prop :=
  ∀ s : State, s.rstn = false →
    let m := s.mfn
    let aborts := fun (c : Instr) (t : State) (port : Mfn) =>
      ∃ u, exec c s = .next (settle u) ∧ ({ t with mfn := port } : State).RequestEnded u
    (m.port = .configured → aborts .usbClearConfiguration s { m with port := .connected }) ∧
    (m.port = .connected ∨ m.port = .configured ∨ m.port = .suspended →
      aborts .usbBusReset s { m with port := .connected, remoteWake := false, resume := none }) ∧
    aborts .vbsenseLow { s with pins := { s.pins with vbsense := false } }
      { m with port := .unpowered, remoteWake := false, resume := none } ∧
    (∀ due, m.drain = some due → aborts .drainTimerExpiry (s.timeTo due) m)

/-! ### Uplink -/

/-- The uplink line (R205, R206, R208): the characters of a unit are kept until it is whole; a whole unit with its CRC, with
a destination and kind that R205 lets pass and room in the outbound queue, joins that queue, and any other is dropped; a gap
or a framing error drops a unit begun; UPB begins the unit at the head of the inbound queue while URTS is asserted, and the
unit leaves when sent. A bad unit that holds no further sync byte leaves nothing. From the lane a MEMBER takes the kinds of
R170 addressed as it states, while the receive queue holds fewer than 8 and the inbound queue keeps a place (R171, R208), and
each frame handed over is a unit at the inbound queue's tail (R172). That UPB receives in every station state but
HALTED-SETUP is log 25, and that a destination of 64 to 191 is dropped log 52 (both deduced). That UPB goes on behind the
whole of a unit dropped for its destination, its kind or a full queue is log 56, the model's choice. -/
def Obligations.UplinkUnitsPassBothWays : Prop :=
  ∀ s : State, s.rstn = false → s.serving = false →
    let received := fun (c : Instr) (rx : Bytes) (outq : List UpFrame) =>
      exec c s = .next (settle { s with upb := { s.upb with rx := rx, outq := outq } })
    (s.ptu.state ≠ .haltedSetup → s.upb.rx = [] → ∀ (dest kind : Byte) (body : Bytes), body.length ≤ 2064 →
      let content := [dest, kind] ++ be 2 body.length ++ body
      let passes := dest ≠ 0 ∧ dest.toNat < 64 ∧ dest.toNat ≠ s.own ∧ s.upb.outq.length < 16
      let whole := Instr.uplinkUnitReceived (165 :: (content ++ be 2 (crc16 content).toNat))
      (∀ k : FrameKind, kind = k.code → k ≠ .beacon → passes →
        received whole [] (s.upb.outq ++ [{ dest := dest, kind := k, body := body }])) ∧
      (¬ passes ∨ kind = 1 ∨ (∀ k : FrameKind, kind ≠ k.code) → received whole [] s.upb.outq)) ∧
    (s.ptu.state ≠ .haltedSetup → ∀ bytes part : Bytes, s.upb.rx ++ bytes = 165 :: part → 165 ∉ part →
      let len := field part 2 2
      (4 ≤ part.length → 2064 < len → received (.uplinkUnitReceived bytes) [] s.upb.outq) ∧
      (len ≤ 2064 → part.length = 6 + len → field part (4 + len) 2 ≠ (crc16 (part.take (4 + len))).toNat →
        received (.uplinkUnitReceived bytes) [] s.upb.outq) ∧
      (part.length < 4 ∨ (len ≤ 2064 ∧ part.length < 6 + len) →
        received (.uplinkUnitReceived bytes) (165 :: part) s.upb.outq ∧
        received (.uplinkCharacterTimeout bytes) [] s.upb.outq ∧
        received (.uplinkCharacterFramingError bytes) [] s.upb.outq)) ∧
    (∀ b, s.upb.tx = some b → exec .uplinkUnitSent s =
      .next (settle { s with upb := { s.upb with tx := none, inq := s.upb.inq.drop 1 } })) ∧
    exec .urtsAsserted s = .next (settle { s with pins := { s.pins with urts := true } }) ∧
    exec .urtsDeasserted s = .next (settle { s with pins := { s.pins with urts := false } }) ∧
    (∀ u rest, s.upb.tx = none → s.pins.urts = true → s.upb.inq = u :: rest →
      s.ptu.state = .listen ∨ s.ptu.state = .member ∨ s.ptu.state = .silent →
      let content := [u.sender, u.dest, u.kind] ++ be 2 u.body.length ++ u.body
      s.startUnit = { s with
        upb := { s.upb with tx := some (165 :: (content ++ be 2 (crc16 content).toNat)) } }) ∧
    (∀ (f : LaneFrame) (handovers : Nat), s.Reads f → s.lif.takeHeld = none →
      let kinds := fun (l : List FrameKind) => ∃ k ∈ l, f.kind = k.code
      let toThis := kinds [.order, .reply, .consoleOut, .consoleIn]
      let toEvery := kinds [.beacon, .admitClaim, .admitWithdraw, .admitRelease, .notice, .lineWant, .imageRetire]
      let takes := s.ptu.state = .member ∧ ((f.dest = toAll ∧ toEvery) ∨ (f.dest.toNat = s.own ∧ toThis)) ∧
        s.lif.recvQueue.length < 8 ∧ s.upb.inq.length + s.lif.recvQueue.length + s.upbListed < 32
      let unit := fun (g : LaneFrame) =>
        ({ sender := byte g.sender.toNat, dest := g.dest, kind := g.kind, body := g.body } : InUnit)
      let passes := fun (queue : List LaneFrame) (drove : Drove) =>
        ∃ u, exec (.frameCompleteUnspoiled f handovers) s = .next (settle u) ∧
          u.lif.recvQueue = queue.drop handovers ∧ u.upb.inq = s.upb.inq ++ (queue.take handovers).map unit ∧
          u.lif.drove = drove ∧ u.lif.engine = .quiet ∧ u.lif.takeHeld = none ∧ u.lif.tenure = none ∧ u.upb.tx = s.upb.tx ∧
          u.sdram = s.sdram ∧ u.pending = s.pending
      (takes → passes (s.lif.recvQueue ++ [f]) .takeSlot) ∧ (¬ takes → passes s.lif.recvQueue .nothing))
end

