-- ==== Sys2Proof/Laws/Keeps.lean ====
section
/-! SUPPORT. For each shared operation one lemma with every block of the state that it leaves as it was. Later proofs cite
these and do not unfold the operation. -/

set_option linter.unusedTactic false
set_option linter.unnecessarySeqFocus false

namespace Sys2Proof.Machine

@[simp] theorem State.timeTo_keeps (s : State) (due : Time) :
    (s.timeTo due).rstn = s.rstn ∧ (s.timeTo due).pins = s.pins ∧ (s.timeTo due).sld = s.sld ∧
    (s.timeTo due).ptu = s.ptu ∧ (s.timeTo due).lif = s.lif ∧ (s.timeTo due).adm = s.adm ∧
    (s.timeTo due).psq = s.psq ∧ (s.timeTo due).wdu = s.wdu ∧ (s.timeTo due).ccu = s.ccu ∧
    (s.timeTo due).cfw = s.cfw ∧ (s.timeTo due).mctl = s.mctl ∧ (s.timeTo due).sdram = s.sdram ∧
    (s.timeTo due).lpm = s.lpm ∧ (s.timeTo due).xch = s.xch ∧ (s.timeTo due).mfn = s.mfn ∧
    (s.timeTo due).ord = s.ord ∧ (s.timeTo due).ntu = s.ntu ∧ (s.timeTo due).upb = s.upb ∧
    (s.timeTo due).fresh = s.fresh ∧ (s.timeTo due).pending = s.pending := by
  unfold State.timeTo; (try dsimp only); (repeat' split) <;> simp_all

@[simp] theorem State.freeGiveBuf_keeps (s : State) (seq : Nat) :
    (s.freeGiveBuf seq).now = s.now ∧ (s.freeGiveBuf seq).rstn = s.rstn ∧ (s.freeGiveBuf seq).pins = s.pins ∧
    (s.freeGiveBuf seq).sld = s.sld ∧ (s.freeGiveBuf seq).ptu = s.ptu ∧ (s.freeGiveBuf seq).adm = s.adm ∧
    (s.freeGiveBuf seq).psq = s.psq ∧ (s.freeGiveBuf seq).wdu = s.wdu ∧ (s.freeGiveBuf seq).ccu = s.ccu ∧
    (s.freeGiveBuf seq).cfw = s.cfw ∧ (s.freeGiveBuf seq).sdram = s.sdram ∧ (s.freeGiveBuf seq).lpm = s.lpm ∧
    (s.freeGiveBuf seq).xch = s.xch ∧ (s.freeGiveBuf seq).mfn = s.mfn ∧ (s.freeGiveBuf seq).ord = s.ord ∧
    (s.freeGiveBuf seq).ntu = s.ntu ∧ (s.freeGiveBuf seq).upb = s.upb ∧ (s.freeGiveBuf seq).fresh = s.fresh ∧
    (s.freeGiveBuf seq).pending = s.pending := by
  unfold State.freeGiveBuf; (try dsimp only); (repeat' split) <;> simp_all

@[simp] theorem State.lifWithdraw_keeps (s : State) (seq : Nat) :
    (s.lifWithdraw seq).now = s.now ∧ (s.lifWithdraw seq).rstn = s.rstn ∧ (s.lifWithdraw seq).pins = s.pins ∧
    (s.lifWithdraw seq).sld = s.sld ∧ (s.lifWithdraw seq).ptu = s.ptu ∧ (s.lifWithdraw seq).adm = s.adm ∧
    (s.lifWithdraw seq).psq = s.psq ∧ (s.lifWithdraw seq).wdu = s.wdu ∧ (s.lifWithdraw seq).ccu = s.ccu ∧
    (s.lifWithdraw seq).cfw = s.cfw ∧ (s.lifWithdraw seq).sdram = s.sdram ∧ (s.lifWithdraw seq).lpm = s.lpm ∧
    (s.lifWithdraw seq).xch = s.xch ∧ (s.lifWithdraw seq).mfn = s.mfn ∧ (s.lifWithdraw seq).ord = s.ord ∧
    (s.lifWithdraw seq).ntu = s.ntu ∧ (s.lifWithdraw seq).upb = s.upb ∧ (s.lifWithdraw seq).fresh = s.fresh ∧
    (s.lifWithdraw seq).pending = s.pending := by
  unfold State.lifWithdraw; (try dsimp only); (repeat' split) <;> simp_all

@[simp] theorem State.withdrawStanding_keeps (s : State) (x0 : Standing) :
    (s.withdrawStanding x0).now = s.now ∧ (s.withdrawStanding x0).rstn = s.rstn ∧
    (s.withdrawStanding x0).pins = s.pins ∧ (s.withdrawStanding x0).sld = s.sld ∧
    (s.withdrawStanding x0).ptu = s.ptu ∧ (s.withdrawStanding x0).adm = s.adm ∧
    (s.withdrawStanding x0).psq = s.psq ∧ (s.withdrawStanding x0).wdu = s.wdu ∧
    (s.withdrawStanding x0).ccu = s.ccu ∧ (s.withdrawStanding x0).cfw = s.cfw ∧
    (s.withdrawStanding x0).sdram = s.sdram ∧ (s.withdrawStanding x0).lpm = s.lpm ∧
    (s.withdrawStanding x0).xch = s.xch ∧ (s.withdrawStanding x0).mfn = s.mfn ∧
    (s.withdrawStanding x0).ord = s.ord ∧ (s.withdrawStanding x0).ntu = s.ntu ∧
    (s.withdrawStanding x0).upb = s.upb ∧ (s.withdrawStanding x0).fresh = s.fresh ∧
    (s.withdrawStanding x0).pending = s.pending := by
  unfold State.withdrawStanding; (try dsimp only); (repeat' split) <;> simp_all

@[simp] theorem State.foldl_withdrawStanding_keeps (l : List Standing) (s : State) :
    (l.foldl State.withdrawStanding s).now = s.now ∧ (l.foldl State.withdrawStanding s).rstn = s.rstn ∧
    (l.foldl State.withdrawStanding s).pins = s.pins ∧ (l.foldl State.withdrawStanding s).sld = s.sld ∧
    (l.foldl State.withdrawStanding s).ptu = s.ptu ∧ (l.foldl State.withdrawStanding s).adm = s.adm ∧
    (l.foldl State.withdrawStanding s).psq = s.psq ∧ (l.foldl State.withdrawStanding s).wdu = s.wdu ∧
    (l.foldl State.withdrawStanding s).ccu = s.ccu ∧ (l.foldl State.withdrawStanding s).cfw = s.cfw ∧
    (l.foldl State.withdrawStanding s).sdram = s.sdram ∧ (l.foldl State.withdrawStanding s).lpm = s.lpm ∧
    (l.foldl State.withdrawStanding s).xch = s.xch ∧ (l.foldl State.withdrawStanding s).mfn = s.mfn ∧
    (l.foldl State.withdrawStanding s).ord = s.ord ∧ (l.foldl State.withdrawStanding s).ntu = s.ntu ∧
    (l.foldl State.withdrawStanding s).upb = s.upb ∧ (l.foldl State.withdrawStanding s).fresh = s.fresh ∧
    (l.foldl State.withdrawStanding s).pending = s.pending := by
  induction l generalizing s <;> simp_all

@[simp] theorem State.mark_keeps (s : State) (kind : MarkKind) (arg : Nat) :
    (s.mark kind arg).now = s.now ∧ (s.mark kind arg).rstn = s.rstn ∧ (s.mark kind arg).pins = s.pins ∧
    (s.mark kind arg).sld = s.sld ∧ (s.mark kind arg).ptu = s.ptu ∧ (s.mark kind arg).lif = s.lif ∧
    (s.mark kind arg).adm = s.adm ∧ (s.mark kind arg).psq = s.psq ∧ (s.mark kind arg).wdu = s.wdu ∧
    (s.mark kind arg).cfw = s.cfw ∧ (s.mark kind arg).mctl = s.mctl ∧ (s.mark kind arg).sdram = s.sdram ∧
    (s.mark kind arg).lpm = s.lpm ∧ (s.mark kind arg).xch = s.xch ∧ (s.mark kind arg).mfn = s.mfn ∧
    (s.mark kind arg).ord = s.ord ∧ (s.mark kind arg).ntu = s.ntu ∧ (s.mark kind arg).upb = s.upb ∧
    (s.mark kind arg).fresh = s.fresh ∧ (s.mark kind arg).pending = s.pending := by
  unfold State.mark; (try dsimp only); (repeat' split) <;> simp_all

@[simp] theorem State.raise_keeps (s : State) (kind : NoticeKind) (detail : Bytes) :
    (s.raise kind detail).now = s.now ∧ (s.raise kind detail).rstn = s.rstn ∧ (s.raise kind detail).pins = s.pins ∧
    (s.raise kind detail).sld = s.sld ∧ (s.raise kind detail).ptu = s.ptu ∧ (s.raise kind detail).lif = s.lif ∧
    (s.raise kind detail).adm = s.adm ∧ (s.raise kind detail).psq = s.psq ∧ (s.raise kind detail).wdu = s.wdu ∧
    (s.raise kind detail).ccu = s.ccu ∧ (s.raise kind detail).cfw = s.cfw ∧ (s.raise kind detail).mctl = s.mctl ∧
    (s.raise kind detail).sdram = s.sdram ∧ (s.raise kind detail).lpm = s.lpm ∧ (s.raise kind detail).xch = s.xch ∧
    (s.raise kind detail).mfn = s.mfn ∧ (s.raise kind detail).ord = s.ord ∧ (s.raise kind detail).upb = s.upb ∧
    (s.raise kind detail).fresh = s.fresh ∧ (s.raise kind detail).pending = s.pending := by
  unfold State.raise; (try dsimp only); (repeat' split) <;> simp_all

@[simp] theorem State.askCapture_keeps (s : State) :
    s.askCapture.now = s.now ∧ s.askCapture.rstn = s.rstn ∧ s.askCapture.pins = s.pins ∧ s.askCapture.sld = s.sld ∧
    s.askCapture.ptu = s.ptu ∧ s.askCapture.lif = s.lif ∧ s.askCapture.adm = s.adm ∧ s.askCapture.psq = s.psq ∧
    s.askCapture.wdu = s.wdu ∧ s.askCapture.ccu = s.ccu ∧ s.askCapture.cfw = s.cfw ∧ s.askCapture.sdram = s.sdram ∧
    s.askCapture.lpm = s.lpm ∧ s.askCapture.xch = s.xch ∧ s.askCapture.mfn = s.mfn ∧ s.askCapture.ord = s.ord ∧
    s.askCapture.ntu = s.ntu ∧ s.askCapture.upb = s.upb ∧ s.askCapture.fresh = s.fresh ∧
    s.askCapture.pending = s.pending := by
  unfold State.askCapture; (try dsimp only); (repeat' split) <;> simp_all

@[simp] theorem State.enterSelfRefresh_keeps (s : State) :
    s.enterSelfRefresh.now = s.now ∧ s.enterSelfRefresh.rstn = s.rstn ∧ s.enterSelfRefresh.pins = s.pins ∧
    s.enterSelfRefresh.sld = s.sld ∧ s.enterSelfRefresh.ptu = s.ptu ∧ s.enterSelfRefresh.lif = s.lif ∧
    s.enterSelfRefresh.adm = s.adm ∧ s.enterSelfRefresh.psq = s.psq ∧ s.enterSelfRefresh.wdu = s.wdu ∧
    s.enterSelfRefresh.ccu = s.ccu ∧ s.enterSelfRefresh.cfw = s.cfw ∧ s.enterSelfRefresh.sdram = s.sdram ∧
    s.enterSelfRefresh.lpm = s.lpm ∧ s.enterSelfRefresh.xch = s.xch ∧ s.enterSelfRefresh.mfn = s.mfn ∧
    s.enterSelfRefresh.ord = s.ord ∧ s.enterSelfRefresh.ntu = s.ntu ∧ s.enterSelfRefresh.upb = s.upb ∧
    s.enterSelfRefresh.fresh = s.fresh ∧ s.enterSelfRefresh.pending = s.pending := by
  unfold State.enterSelfRefresh; (try dsimp only); (repeat' split) <;> simp_all

@[simp] theorem State.xchAsk_keeps (s : State) (key : Key) (purpose : Purpose) :
    (s.xchAsk key purpose).2.now = s.now ∧ (s.xchAsk key purpose).2.rstn = s.rstn ∧
    (s.xchAsk key purpose).2.pins = s.pins ∧ (s.xchAsk key purpose).2.sld = s.sld ∧
    (s.xchAsk key purpose).2.ptu = s.ptu ∧ (s.xchAsk key purpose).2.lif = s.lif ∧
    (s.xchAsk key purpose).2.adm = s.adm ∧ (s.xchAsk key purpose).2.psq = s.psq ∧
    (s.xchAsk key purpose).2.wdu = s.wdu ∧ (s.xchAsk key purpose).2.ccu = s.ccu ∧
    (s.xchAsk key purpose).2.cfw = s.cfw ∧ (s.xchAsk key purpose).2.mctl = s.mctl ∧
    (s.xchAsk key purpose).2.sdram = s.sdram ∧ (s.xchAsk key purpose).2.mfn = s.mfn ∧
    (s.xchAsk key purpose).2.ord = s.ord ∧ (s.xchAsk key purpose).2.ntu = s.ntu ∧
    (s.xchAsk key purpose).2.upb = s.upb ∧ (s.xchAsk key purpose).2.fresh = s.fresh ∧
    (s.xchAsk key purpose).2.pending = s.pending := by
  unfold State.xchAsk; (try dsimp only); (repeat' split) <;> simp_all

@[simp] theorem State.withdrawWant_keeps (s : State) (w : Want) :
    (s.withdrawWant w).now = s.now ∧ (s.withdrawWant w).rstn = s.rstn ∧ (s.withdrawWant w).pins = s.pins ∧
    (s.withdrawWant w).sld = s.sld ∧ (s.withdrawWant w).ptu = s.ptu ∧ (s.withdrawWant w).adm = s.adm ∧
    (s.withdrawWant w).psq = s.psq ∧ (s.withdrawWant w).wdu = s.wdu ∧ (s.withdrawWant w).ccu = s.ccu ∧
    (s.withdrawWant w).cfw = s.cfw ∧ (s.withdrawWant w).sdram = s.sdram ∧ (s.withdrawWant w).lpm = s.lpm ∧
    (s.withdrawWant w).xch = s.xch ∧ (s.withdrawWant w).mfn = s.mfn ∧ (s.withdrawWant w).ord = s.ord ∧
    (s.withdrawWant w).ntu = s.ntu ∧ (s.withdrawWant w).upb = s.upb ∧ (s.withdrawWant w).fresh = s.fresh ∧
    (s.withdrawWant w).pending = s.pending := by
  unfold State.withdrawWant; (try dsimp only); (repeat' split) <;> simp_all

@[simp] theorem State.foldl_withdrawWant_keeps (l : List Want) (s : State) :
    (l.foldl State.withdrawWant s).now = s.now ∧ (l.foldl State.withdrawWant s).rstn = s.rstn ∧
    (l.foldl State.withdrawWant s).pins = s.pins ∧ (l.foldl State.withdrawWant s).sld = s.sld ∧
    (l.foldl State.withdrawWant s).ptu = s.ptu ∧ (l.foldl State.withdrawWant s).adm = s.adm ∧
    (l.foldl State.withdrawWant s).psq = s.psq ∧ (l.foldl State.withdrawWant s).wdu = s.wdu ∧
    (l.foldl State.withdrawWant s).ccu = s.ccu ∧ (l.foldl State.withdrawWant s).cfw = s.cfw ∧
    (l.foldl State.withdrawWant s).sdram = s.sdram ∧ (l.foldl State.withdrawWant s).lpm = s.lpm ∧
    (l.foldl State.withdrawWant s).xch = s.xch ∧ (l.foldl State.withdrawWant s).mfn = s.mfn ∧
    (l.foldl State.withdrawWant s).ord = s.ord ∧ (l.foldl State.withdrawWant s).ntu = s.ntu ∧
    (l.foldl State.withdrawWant s).upb = s.upb ∧ (l.foldl State.withdrawWant s).fresh = s.fresh ∧
    (l.foldl State.withdrawWant s).pending = s.pending := by
  induction l generalizing s <;> simp_all

@[simp] theorem State.withdrawWants_keeps (s : State) (ws : List Want) :
    (s.withdrawWants ws).now = s.now ∧ (s.withdrawWants ws).rstn = s.rstn ∧ (s.withdrawWants ws).pins = s.pins ∧
    (s.withdrawWants ws).sld = s.sld ∧ (s.withdrawWants ws).ptu = s.ptu ∧ (s.withdrawWants ws).adm = s.adm ∧
    (s.withdrawWants ws).psq = s.psq ∧ (s.withdrawWants ws).wdu = s.wdu ∧ (s.withdrawWants ws).ccu = s.ccu ∧
    (s.withdrawWants ws).cfw = s.cfw ∧ (s.withdrawWants ws).sdram = s.sdram ∧ (s.withdrawWants ws).lpm = s.lpm ∧
    (s.withdrawWants ws).xch = s.xch ∧ (s.withdrawWants ws).mfn = s.mfn ∧ (s.withdrawWants ws).ord = s.ord ∧
    (s.withdrawWants ws).ntu = s.ntu ∧ (s.withdrawWants ws).upb = s.upb ∧ (s.withdrawWants ws).fresh = s.fresh ∧
    (s.withdrawWants ws).pending = s.pending := by
  unfold State.withdrawWants; (try dsimp only); (repeat' split) <;> simp_all

@[simp] theorem State.rideWants_keeps (s : State) (key : Key) :
    (s.rideWants key).now = s.now ∧ (s.rideWants key).rstn = s.rstn ∧ (s.rideWants key).pins = s.pins ∧
    (s.rideWants key).sld = s.sld ∧ (s.rideWants key).ptu = s.ptu ∧ (s.rideWants key).adm = s.adm ∧
    (s.rideWants key).psq = s.psq ∧ (s.rideWants key).wdu = s.wdu ∧ (s.rideWants key).ccu = s.ccu ∧
    (s.rideWants key).cfw = s.cfw ∧ (s.rideWants key).sdram = s.sdram ∧ (s.rideWants key).lpm = s.lpm ∧
    (s.rideWants key).mfn = s.mfn ∧ (s.rideWants key).ord = s.ord ∧ (s.rideWants key).ntu = s.ntu ∧
    (s.rideWants key).upb = s.upb ∧ (s.rideWants key).fresh = s.fresh ∧ (s.rideWants key).pending = s.pending := by
  unfold State.rideWants; (try dsimp only); (repeat' split) <;> simp_all

@[simp] theorem State.fillWants_keeps (s : State) (key : Key) (data : Bytes) :
    (s.fillWants key data).now = s.now ∧ (s.fillWants key data).rstn = s.rstn ∧
    (s.fillWants key data).pins = s.pins ∧ (s.fillWants key data).sld = s.sld ∧
    (s.fillWants key data).ptu = s.ptu ∧ (s.fillWants key data).adm = s.adm ∧ (s.fillWants key data).psq = s.psq ∧
    (s.fillWants key data).wdu = s.wdu ∧ (s.fillWants key data).ccu = s.ccu ∧ (s.fillWants key data).cfw = s.cfw ∧
    (s.fillWants key data).sdram = s.sdram ∧ (s.fillWants key data).mfn = s.mfn ∧
    (s.fillWants key data).ord = s.ord ∧ (s.fillWants key data).ntu = s.ntu ∧ (s.fillWants key data).upb = s.upb ∧
    (s.fillWants key data).fresh = s.fresh ∧ (s.fillWants key data).pending = s.pending := by
  unfold State.fillWants; (try dsimp only); (repeat' split) <;> simp_all

@[simp] theorem State.dropWants_keeps (s : State) (image gen : Nat) :
    (s.dropWants image gen).now = s.now ∧ (s.dropWants image gen).rstn = s.rstn ∧
    (s.dropWants image gen).pins = s.pins ∧ (s.dropWants image gen).sld = s.sld ∧
    (s.dropWants image gen).ptu = s.ptu ∧ (s.dropWants image gen).adm = s.adm ∧
    (s.dropWants image gen).psq = s.psq ∧ (s.dropWants image gen).wdu = s.wdu ∧
    (s.dropWants image gen).ccu = s.ccu ∧ (s.dropWants image gen).cfw = s.cfw ∧
    (s.dropWants image gen).sdram = s.sdram ∧ (s.dropWants image gen).mfn = s.mfn ∧
    (s.dropWants image gen).ord = s.ord ∧ (s.dropWants image gen).ntu = s.ntu ∧
    (s.dropWants image gen).upb = s.upb ∧ (s.dropWants image gen).fresh = s.fresh ∧
    (s.dropWants image gen).pending = s.pending := by
  unfold State.dropWants; (try dsimp only); (repeat' split) <;> simp_all

@[simp] theorem State.retireImage_keeps (s : State) (image gen : Nat) :
    (s.retireImage image gen).now = s.now ∧ (s.retireImage image gen).rstn = s.rstn ∧
    (s.retireImage image gen).pins = s.pins ∧ (s.retireImage image gen).sld = s.sld ∧
    (s.retireImage image gen).ptu = s.ptu ∧ (s.retireImage image gen).adm = s.adm ∧
    (s.retireImage image gen).psq = s.psq ∧ (s.retireImage image gen).wdu = s.wdu ∧
    (s.retireImage image gen).ccu = s.ccu ∧ (s.retireImage image gen).cfw = s.cfw ∧
    (s.retireImage image gen).sdram = s.sdram ∧ (s.retireImage image gen).mfn = s.mfn ∧
    (s.retireImage image gen).ord = s.ord ∧ (s.retireImage image gen).ntu = s.ntu ∧
    (s.retireImage image gen).upb = s.upb ∧ (s.retireImage image gen).fresh = s.fresh ∧
    (s.retireImage image gen).pending = s.pending := by
  unfold State.retireImage; (try dsimp only); (repeat' split) <;> simp_all

@[simp] theorem State.queueGive_keeps (s : State) (key : Key) :
    (s.queueGive key).now = s.now ∧ (s.queueGive key).rstn = s.rstn ∧ (s.queueGive key).pins = s.pins ∧
    (s.queueGive key).sld = s.sld ∧ (s.queueGive key).ptu = s.ptu ∧ (s.queueGive key).lif = s.lif ∧
    (s.queueGive key).adm = s.adm ∧ (s.queueGive key).psq = s.psq ∧ (s.queueGive key).wdu = s.wdu ∧
    (s.queueGive key).ccu = s.ccu ∧ (s.queueGive key).cfw = s.cfw ∧ (s.queueGive key).mctl = s.mctl ∧
    (s.queueGive key).sdram = s.sdram ∧ (s.queueGive key).mfn = s.mfn ∧ (s.queueGive key).ord = s.ord ∧
    (s.queueGive key).ntu = s.ntu ∧ (s.queueGive key).upb = s.upb ∧ (s.queueGive key).fresh = s.fresh ∧
    (s.queueGive key).pending = s.pending := by
  unfold State.queueGive; (try dsimp only); (repeat' split) <;> simp_all

@[simp] theorem State.dropGives_keeps (s : State) (out : Give → Bool) :
    (s.dropGives out).now = s.now ∧ (s.dropGives out).rstn = s.rstn ∧ (s.dropGives out).pins = s.pins ∧
    (s.dropGives out).sld = s.sld ∧ (s.dropGives out).ptu = s.ptu ∧ (s.dropGives out).adm = s.adm ∧
    (s.dropGives out).psq = s.psq ∧ (s.dropGives out).wdu = s.wdu ∧ (s.dropGives out).ccu = s.ccu ∧
    (s.dropGives out).cfw = s.cfw ∧ (s.dropGives out).sdram = s.sdram ∧ (s.dropGives out).mfn = s.mfn ∧
    (s.dropGives out).ord = s.ord ∧ (s.dropGives out).ntu = s.ntu ∧ (s.dropGives out).upb = s.upb ∧
    (s.dropGives out).fresh = s.fresh ∧ (s.dropGives out).pending = s.pending := by
  unfold State.dropGives; (try dsimp only); (repeat' split) <;> simp_all

@[simp] theorem State.suppressGives_keeps (s : State) (key : Key) :
    (s.suppressGives key).now = s.now ∧ (s.suppressGives key).rstn = s.rstn ∧ (s.suppressGives key).pins = s.pins ∧
    (s.suppressGives key).sld = s.sld ∧ (s.suppressGives key).ptu = s.ptu ∧ (s.suppressGives key).adm = s.adm ∧
    (s.suppressGives key).psq = s.psq ∧ (s.suppressGives key).wdu = s.wdu ∧ (s.suppressGives key).ccu = s.ccu ∧
    (s.suppressGives key).cfw = s.cfw ∧ (s.suppressGives key).sdram = s.sdram ∧ (s.suppressGives key).mfn = s.mfn ∧
    (s.suppressGives key).ord = s.ord ∧ (s.suppressGives key).ntu = s.ntu ∧ (s.suppressGives key).upb = s.upb ∧
    (s.suppressGives key).fresh = s.fresh ∧ (s.suppressGives key).pending = s.pending := by
  unfold State.suppressGives; (try dsimp only); (repeat' split) <;> simp_all

@[simp] theorem State.giveEnded_keeps (s : State) (seq : Nat) :
    (s.giveEnded seq).now = s.now ∧ (s.giveEnded seq).rstn = s.rstn ∧ (s.giveEnded seq).pins = s.pins ∧
    (s.giveEnded seq).sld = s.sld ∧ (s.giveEnded seq).ptu = s.ptu ∧ (s.giveEnded seq).adm = s.adm ∧
    (s.giveEnded seq).psq = s.psq ∧ (s.giveEnded seq).wdu = s.wdu ∧ (s.giveEnded seq).ccu = s.ccu ∧
    (s.giveEnded seq).cfw = s.cfw ∧ (s.giveEnded seq).sdram = s.sdram ∧ (s.giveEnded seq).mfn = s.mfn ∧
    (s.giveEnded seq).ord = s.ord ∧ (s.giveEnded seq).ntu = s.ntu ∧ (s.giveEnded seq).upb = s.upb ∧
    (s.giveEnded seq).fresh = s.fresh ∧ (s.giveEnded seq).pending = s.pending := by
  unfold State.giveEnded; (try dsimp only); (repeat' split) <;> simp_all

@[simp] theorem State.suppressComputerGives_keeps (s : State) (key : Key) :
    (s.suppressComputerGives key).now = s.now ∧ (s.suppressComputerGives key).rstn = s.rstn ∧
    (s.suppressComputerGives key).pins = s.pins ∧ (s.suppressComputerGives key).sld = s.sld ∧
    (s.suppressComputerGives key).ptu = s.ptu ∧ (s.suppressComputerGives key).adm = s.adm ∧
    (s.suppressComputerGives key).psq = s.psq ∧ (s.suppressComputerGives key).wdu = s.wdu ∧
    (s.suppressComputerGives key).ccu = s.ccu ∧ (s.suppressComputerGives key).cfw = s.cfw ∧
    (s.suppressComputerGives key).mctl = s.mctl ∧ (s.suppressComputerGives key).sdram = s.sdram ∧
    (s.suppressComputerGives key).lpm = s.lpm ∧ (s.suppressComputerGives key).xch = s.xch ∧
    (s.suppressComputerGives key).mfn = s.mfn ∧ (s.suppressComputerGives key).ord = s.ord ∧
    (s.suppressComputerGives key).ntu = s.ntu ∧ (s.suppressComputerGives key).fresh = s.fresh ∧
    (s.suppressComputerGives key).pending = s.pending := by
  unfold State.suppressComputerGives; (try dsimp only); (repeat' split) <;> simp_all

@[simp] theorem State.wantSent_keeps (s : State) (seq : Nat) :
    (s.wantSent seq).now = s.now ∧ (s.wantSent seq).rstn = s.rstn ∧ (s.wantSent seq).pins = s.pins ∧
    (s.wantSent seq).sld = s.sld ∧ (s.wantSent seq).ptu = s.ptu ∧ (s.wantSent seq).lif = s.lif ∧
    (s.wantSent seq).adm = s.adm ∧ (s.wantSent seq).psq = s.psq ∧ (s.wantSent seq).wdu = s.wdu ∧
    (s.wantSent seq).ccu = s.ccu ∧ (s.wantSent seq).cfw = s.cfw ∧ (s.wantSent seq).mctl = s.mctl ∧
    (s.wantSent seq).sdram = s.sdram ∧ (s.wantSent seq).lpm = s.lpm ∧ (s.wantSent seq).mfn = s.mfn ∧
    (s.wantSent seq).ord = s.ord ∧ (s.wantSent seq).ntu = s.ntu ∧ (s.wantSent seq).upb = s.upb ∧
    (s.wantSent seq).fresh = s.fresh ∧ (s.wantSent seq).pending = s.pending := by
  unfold State.wantSent; (try dsimp only); (repeat' split) <;> simp_all

@[simp] theorem State.xchSilent_keeps (s : State) :
    s.xchSilent.now = s.now ∧ s.xchSilent.rstn = s.rstn ∧ s.xchSilent.pins = s.pins ∧ s.xchSilent.sld = s.sld ∧
    s.xchSilent.ptu = s.ptu ∧ s.xchSilent.lif = s.lif ∧ s.xchSilent.adm = s.adm ∧ s.xchSilent.psq = s.psq ∧
    s.xchSilent.wdu = s.wdu ∧ s.xchSilent.ccu = s.ccu ∧ s.xchSilent.cfw = s.cfw ∧ s.xchSilent.mctl = s.mctl ∧
    s.xchSilent.sdram = s.sdram ∧ s.xchSilent.mfn = s.mfn ∧ s.xchSilent.ord = s.ord ∧ s.xchSilent.ntu = s.ntu ∧
    s.xchSilent.upb = s.upb ∧ s.xchSilent.fresh = s.fresh ∧ s.xchSilent.pending = s.pending := by
  unfold State.xchSilent; (try dsimp only); (repeat' split) <;> simp_all

@[simp] theorem State.withdrawMedia_keeps (s : State) (p : MediaReq → Bool) :
    (s.withdrawMedia p).now = s.now ∧ (s.withdrawMedia p).rstn = s.rstn ∧ (s.withdrawMedia p).pins = s.pins ∧
    (s.withdrawMedia p).sld = s.sld ∧ (s.withdrawMedia p).ptu = s.ptu ∧ (s.withdrawMedia p).lif = s.lif ∧
    (s.withdrawMedia p).adm = s.adm ∧ (s.withdrawMedia p).psq = s.psq ∧ (s.withdrawMedia p).wdu = s.wdu ∧
    (s.withdrawMedia p).ccu = s.ccu ∧ (s.withdrawMedia p).cfw = s.cfw ∧ (s.withdrawMedia p).sdram = s.sdram ∧
    (s.withdrawMedia p).xch = s.xch ∧ (s.withdrawMedia p).mfn = s.mfn ∧ (s.withdrawMedia p).ord = s.ord ∧
    (s.withdrawMedia p).ntu = s.ntu ∧ (s.withdrawMedia p).upb = s.upb ∧ (s.withdrawMedia p).fresh = s.fresh ∧
    (s.withdrawMedia p).pending = s.pending := by
  unfold State.withdrawMedia; (try dsimp only); (repeat' split) <;> simp_all

@[simp] theorem State.withdrawReads_keeps (s : State) (p : MediaReq → Bool) :
    (s.withdrawReads p).now = s.now ∧ (s.withdrawReads p).rstn = s.rstn ∧ (s.withdrawReads p).pins = s.pins ∧
    (s.withdrawReads p).sld = s.sld ∧ (s.withdrawReads p).ptu = s.ptu ∧ (s.withdrawReads p).lif = s.lif ∧
    (s.withdrawReads p).adm = s.adm ∧ (s.withdrawReads p).psq = s.psq ∧ (s.withdrawReads p).wdu = s.wdu ∧
    (s.withdrawReads p).ccu = s.ccu ∧ (s.withdrawReads p).cfw = s.cfw ∧ (s.withdrawReads p).sdram = s.sdram ∧
    (s.withdrawReads p).xch = s.xch ∧ (s.withdrawReads p).mfn = s.mfn ∧ (s.withdrawReads p).ord = s.ord ∧
    (s.withdrawReads p).ntu = s.ntu ∧ (s.withdrawReads p).upb = s.upb ∧ (s.withdrawReads p).fresh = s.fresh ∧
    (s.withdrawReads p).pending = s.pending := by
  unfold State.withdrawReads; (try dsimp only); (repeat' split) <;> simp_all

@[simp] theorem State.teardown_keeps (s : State) :
    s.teardown.now = s.now ∧ s.teardown.rstn = s.rstn ∧ s.teardown.pins = s.pins ∧ s.teardown.sld = s.sld ∧
    s.teardown.ptu = s.ptu ∧ s.teardown.adm = s.adm ∧ s.teardown.psq = s.psq ∧ s.teardown.wdu = s.wdu ∧
    s.teardown.ccu = s.ccu ∧ s.teardown.cfw = s.cfw ∧ s.teardown.sdram = s.sdram ∧ s.teardown.ord = s.ord ∧
    s.teardown.ntu = s.ntu ∧ s.teardown.upb = s.upb ∧ s.teardown.fresh = s.fresh ∧ s.teardown.pending = s.pending := by
  unfold State.teardown; (try dsimp only); (repeat' split) <;> simp_all

@[simp] theorem State.closeRequest_keeps (s : State) :
    s.closeRequest.now = s.now ∧ s.closeRequest.rstn = s.rstn ∧ s.closeRequest.pins = s.pins ∧
    s.closeRequest.sld = s.sld ∧ s.closeRequest.ptu = s.ptu ∧ s.closeRequest.adm = s.adm ∧
    s.closeRequest.psq = s.psq ∧ s.closeRequest.wdu = s.wdu ∧ s.closeRequest.ccu = s.ccu ∧
    s.closeRequest.cfw = s.cfw ∧ s.closeRequest.sdram = s.sdram ∧ s.closeRequest.ord = s.ord ∧
    s.closeRequest.ntu = s.ntu ∧ s.closeRequest.upb = s.upb ∧ s.closeRequest.fresh = s.fresh ∧
    s.closeRequest.pending = s.pending := by
  unfold State.closeRequest; (try dsimp only); (repeat' split) <;> simp_all

@[simp] theorem State.failRequest_keeps (s : State) (status : UsbStatus) :
    (s.failRequest status).now = s.now ∧ (s.failRequest status).rstn = s.rstn ∧
    (s.failRequest status).pins = s.pins ∧ (s.failRequest status).sld = s.sld ∧
    (s.failRequest status).ptu = s.ptu ∧ (s.failRequest status).adm = s.adm ∧ (s.failRequest status).psq = s.psq ∧
    (s.failRequest status).wdu = s.wdu ∧ (s.failRequest status).ccu = s.ccu ∧ (s.failRequest status).cfw = s.cfw ∧
    (s.failRequest status).sdram = s.sdram ∧ (s.failRequest status).ord = s.ord ∧
    (s.failRequest status).ntu = s.ntu ∧ (s.failRequest status).upb = s.upb ∧
    (s.failRequest status).fresh = s.fresh ∧ (s.failRequest status).pending = s.pending := by
  unfold State.failRequest; (try dsimp only); (repeat' split) <;> simp_all

@[simp] theorem State.detachTrigger_keeps (s : State) (cause : DetachCause) :
    (s.detachTrigger cause).now = s.now ∧ (s.detachTrigger cause).rstn = s.rstn ∧
    (s.detachTrigger cause).pins = s.pins ∧ (s.detachTrigger cause).sld = s.sld ∧
    (s.detachTrigger cause).ptu = s.ptu ∧ (s.detachTrigger cause).adm = s.adm ∧
    (s.detachTrigger cause).psq = s.psq ∧ (s.detachTrigger cause).wdu = s.wdu ∧
    (s.detachTrigger cause).ccu = s.ccu ∧ (s.detachTrigger cause).cfw = s.cfw ∧
    (s.detachTrigger cause).sdram = s.sdram ∧ (s.detachTrigger cause).ord = s.ord ∧
    (s.detachTrigger cause).ntu = s.ntu ∧ (s.detachTrigger cause).upb = s.upb ∧
    (s.detachTrigger cause).fresh = s.fresh ∧ (s.detachTrigger cause).pending = s.pending := by
  unfold State.detachTrigger; (try dsimp only); (repeat' split) <;> simp_all

@[simp] theorem State.bootOnceTrigger_keeps (s : State) (cause : DetachCause) :
    (s.bootOnceTrigger cause).now = s.now ∧ (s.bootOnceTrigger cause).rstn = s.rstn ∧
    (s.bootOnceTrigger cause).pins = s.pins ∧ (s.bootOnceTrigger cause).sld = s.sld ∧
    (s.bootOnceTrigger cause).ptu = s.ptu ∧ (s.bootOnceTrigger cause).adm = s.adm ∧
    (s.bootOnceTrigger cause).psq = s.psq ∧ (s.bootOnceTrigger cause).wdu = s.wdu ∧
    (s.bootOnceTrigger cause).ccu = s.ccu ∧ (s.bootOnceTrigger cause).cfw = s.cfw ∧
    (s.bootOnceTrigger cause).sdram = s.sdram ∧ (s.bootOnceTrigger cause).ord = s.ord ∧
    (s.bootOnceTrigger cause).ntu = s.ntu ∧ (s.bootOnceTrigger cause).upb = s.upb ∧
    (s.bootOnceTrigger cause).fresh = s.fresh ∧ (s.bootOnceTrigger cause).pending = s.pending := by
  unfold State.bootOnceTrigger; (try dsimp only); (repeat' split) <;> simp_all

@[simp] theorem State.detachComplete_keeps (s : State) :
    s.detachComplete.now = s.now ∧ s.detachComplete.rstn = s.rstn ∧ s.detachComplete.pins = s.pins ∧
    s.detachComplete.sld = s.sld ∧ s.detachComplete.ptu = s.ptu ∧ s.detachComplete.lif = s.lif ∧
    s.detachComplete.adm = s.adm ∧ s.detachComplete.psq = s.psq ∧ s.detachComplete.wdu = s.wdu ∧
    s.detachComplete.cfw = s.cfw ∧ s.detachComplete.mctl = s.mctl ∧ s.detachComplete.sdram = s.sdram ∧
    s.detachComplete.lpm = s.lpm ∧ s.detachComplete.xch = s.xch ∧ s.detachComplete.ord = s.ord ∧
    s.detachComplete.upb = s.upb ∧ s.detachComplete.fresh = s.fresh ∧ s.detachComplete.pending = s.pending := by
  unfold State.detachComplete; (try dsimp only); (repeat' split) <;> simp_all

@[simp] theorem State.setRequest_keeps (s : State) (r : Request) :
    (s.setRequest r).now = s.now ∧ (s.setRequest r).rstn = s.rstn ∧ (s.setRequest r).pins = s.pins ∧
    (s.setRequest r).sld = s.sld ∧ (s.setRequest r).ptu = s.ptu ∧ (s.setRequest r).lif = s.lif ∧
    (s.setRequest r).adm = s.adm ∧ (s.setRequest r).psq = s.psq ∧ (s.setRequest r).wdu = s.wdu ∧
    (s.setRequest r).ccu = s.ccu ∧ (s.setRequest r).cfw = s.cfw ∧ (s.setRequest r).mctl = s.mctl ∧
    (s.setRequest r).sdram = s.sdram ∧ (s.setRequest r).lpm = s.lpm ∧ (s.setRequest r).xch = s.xch ∧
    (s.setRequest r).ord = s.ord ∧ (s.setRequest r).ntu = s.ntu ∧ (s.setRequest r).upb = s.upb ∧
    (s.setRequest r).fresh = s.fresh ∧ (s.setRequest r).pending = s.pending := by
  unfold State.setRequest; (try dsimp only); (repeat' split) <;> simp_all

@[simp] theorem State.askStep_keeps (s : State) (st : XferStep) :
    (s.askStep st).now = s.now ∧ (s.askStep st).rstn = s.rstn ∧ (s.askStep st).pins = s.pins ∧
    (s.askStep st).sld = s.sld ∧ (s.askStep st).ptu = s.ptu ∧ (s.askStep st).adm = s.adm ∧
    (s.askStep st).psq = s.psq ∧ (s.askStep st).wdu = s.wdu ∧ (s.askStep st).ccu = s.ccu ∧
    (s.askStep st).cfw = s.cfw ∧ (s.askStep st).sdram = s.sdram ∧ (s.askStep st).ord = s.ord ∧
    (s.askStep st).upb = s.upb ∧ (s.askStep st).fresh = s.fresh ∧ (s.askStep st).pending = s.pending := by
  unfold State.askStep
  have hk := State.xchAsk_keeps s (s.mfn.key st.line) .demand
  split
  · split
    · split <;> (rename_i h; rw [h] at hk; simp_all)
    · simp
  · simp

@[simp] theorem State.foldl_askStep_keeps (l : List XferStep) (s : State) :
    (l.foldl State.askStep s).now = s.now ∧ (l.foldl State.askStep s).rstn = s.rstn ∧
    (l.foldl State.askStep s).pins = s.pins ∧ (l.foldl State.askStep s).sld = s.sld ∧
    (l.foldl State.askStep s).ptu = s.ptu ∧ (l.foldl State.askStep s).adm = s.adm ∧
    (l.foldl State.askStep s).psq = s.psq ∧ (l.foldl State.askStep s).wdu = s.wdu ∧
    (l.foldl State.askStep s).ccu = s.ccu ∧ (l.foldl State.askStep s).cfw = s.cfw ∧
    (l.foldl State.askStep s).sdram = s.sdram ∧ (l.foldl State.askStep s).ord = s.ord ∧
    (l.foldl State.askStep s).upb = s.upb ∧ (l.foldl State.askStep s).fresh = s.fresh ∧
    (l.foldl State.askStep s).pending = s.pending := by
  induction l generalizing s <;> simp_all

@[simp] theorem State.needWaited_keeps (s : State) (r : Request) :
    (s.needWaited r).now = s.now ∧ (s.needWaited r).rstn = s.rstn ∧ (s.needWaited r).pins = s.pins ∧
    (s.needWaited r).sld = s.sld ∧ (s.needWaited r).ptu = s.ptu ∧ (s.needWaited r).lif = s.lif ∧
    (s.needWaited r).adm = s.adm ∧ (s.needWaited r).psq = s.psq ∧ (s.needWaited r).wdu = s.wdu ∧
    (s.needWaited r).ccu = s.ccu ∧ (s.needWaited r).cfw = s.cfw ∧ (s.needWaited r).mctl = s.mctl ∧
    (s.needWaited r).sdram = s.sdram ∧ (s.needWaited r).lpm = s.lpm ∧ (s.needWaited r).mfn = s.mfn ∧
    (s.needWaited r).ord = s.ord ∧ (s.needWaited r).ntu = s.ntu ∧ (s.needWaited r).upb = s.upb ∧
    (s.needWaited r).fresh = s.fresh ∧ (s.needWaited r).pending = s.pending := by
  simp [State.needWaited]

@[simp] theorem State.askWants_keeps (s : State) :
    s.askWants.now = s.now ∧ s.askWants.rstn = s.rstn ∧ s.askWants.pins = s.pins ∧ s.askWants.sld = s.sld ∧
    s.askWants.ptu = s.ptu ∧ s.askWants.adm = s.adm ∧ s.askWants.psq = s.psq ∧ s.askWants.wdu = s.wdu ∧
    s.askWants.ccu = s.ccu ∧ s.askWants.cfw = s.cfw ∧ s.askWants.sdram = s.sdram ∧ s.askWants.ord = s.ord ∧
    s.askWants.upb = s.upb ∧ s.askWants.fresh = s.fresh ∧ s.askWants.pending = s.pending := by
  unfold State.askWants; (try dsimp only); (repeat' split) <;> simp_all

@[simp] theorem State.wantEnded_keeps (s : State) (key : Key) (filled : Bool) :
    (s.wantEnded key filled).now = s.now ∧ (s.wantEnded key filled).rstn = s.rstn ∧
    (s.wantEnded key filled).pins = s.pins ∧ (s.wantEnded key filled).sld = s.sld ∧
    (s.wantEnded key filled).ptu = s.ptu ∧ (s.wantEnded key filled).adm = s.adm ∧
    (s.wantEnded key filled).psq = s.psq ∧ (s.wantEnded key filled).wdu = s.wdu ∧
    (s.wantEnded key filled).ccu = s.ccu ∧ (s.wantEnded key filled).cfw = s.cfw ∧
    (s.wantEnded key filled).sdram = s.sdram ∧ (s.wantEnded key filled).ord = s.ord ∧
    (s.wantEnded key filled).upb = s.upb ∧ (s.wantEnded key filled).fresh = s.fresh ∧
    (s.wantEnded key filled).pending = s.pending := by
  unfold State.wantEnded; (try dsimp only); (repeat' split) <;> simp_all

@[simp] theorem State.foldl_wantEnded_keeps (l : List Key) (s : State) :
    (l.foldl (fun t k => t.wantEnded k false) s).now = s.now ∧
    (l.foldl (fun t k => t.wantEnded k false) s).rstn = s.rstn ∧
    (l.foldl (fun t k => t.wantEnded k false) s).pins = s.pins ∧
    (l.foldl (fun t k => t.wantEnded k false) s).sld = s.sld ∧
    (l.foldl (fun t k => t.wantEnded k false) s).ptu = s.ptu ∧
    (l.foldl (fun t k => t.wantEnded k false) s).adm = s.adm ∧
    (l.foldl (fun t k => t.wantEnded k false) s).psq = s.psq ∧
    (l.foldl (fun t k => t.wantEnded k false) s).wdu = s.wdu ∧
    (l.foldl (fun t k => t.wantEnded k false) s).ccu = s.ccu ∧
    (l.foldl (fun t k => t.wantEnded k false) s).cfw = s.cfw ∧
    (l.foldl (fun t k => t.wantEnded k false) s).sdram = s.sdram ∧
    (l.foldl (fun t k => t.wantEnded k false) s).ord = s.ord ∧
    (l.foldl (fun t k => t.wantEnded k false) s).upb = s.upb ∧
    (l.foldl (fun t k => t.wantEnded k false) s).fresh = s.fresh ∧
    (l.foldl (fun t k => t.wantEnded k false) s).pending = s.pending := by
  induction l generalizing s <;> simp_all

@[simp] theorem State.wantsFailed_keeps (s : State) (keys : List Key) :
    (s.wantsFailed keys).now = s.now ∧ (s.wantsFailed keys).rstn = s.rstn ∧ (s.wantsFailed keys).pins = s.pins ∧
    (s.wantsFailed keys).sld = s.sld ∧ (s.wantsFailed keys).ptu = s.ptu ∧ (s.wantsFailed keys).adm = s.adm ∧
    (s.wantsFailed keys).psq = s.psq ∧ (s.wantsFailed keys).wdu = s.wdu ∧ (s.wantsFailed keys).ccu = s.ccu ∧
    (s.wantsFailed keys).cfw = s.cfw ∧ (s.wantsFailed keys).sdram = s.sdram ∧ (s.wantsFailed keys).ord = s.ord ∧
    (s.wantsFailed keys).upb = s.upb ∧ (s.wantsFailed keys).fresh = s.fresh ∧
    (s.wantsFailed keys).pending = s.pending := by
  unfold State.wantsFailed; (try dsimp only); (repeat' split) <;> simp_all

@[simp] theorem State.relookStep_keeps (s : State) (r : Request) (st : XferStep) :
    (s.relookStep r st).now = s.now ∧ (s.relookStep r st).rstn = s.rstn ∧ (s.relookStep r st).pins = s.pins ∧
    (s.relookStep r st).sld = s.sld ∧ (s.relookStep r st).ptu = s.ptu ∧ (s.relookStep r st).lif = s.lif ∧
    (s.relookStep r st).adm = s.adm ∧ (s.relookStep r st).psq = s.psq ∧ (s.relookStep r st).wdu = s.wdu ∧
    (s.relookStep r st).ccu = s.ccu ∧ (s.relookStep r st).cfw = s.cfw ∧ (s.relookStep r st).sdram = s.sdram ∧
    (s.relookStep r st).xch = s.xch ∧ (s.relookStep r st).ord = s.ord ∧ (s.relookStep r st).ntu = s.ntu ∧
    (s.relookStep r st).upb = s.upb ∧ (s.relookStep r st).fresh = s.fresh ∧ (s.relookStep r st).pending = s.pending := by
  unfold State.relookStep; (try dsimp only); (repeat' split) <;> simp_all

@[simp] theorem State.askFetch_keeps (s : State) :
    s.askFetch.now = s.now ∧ s.askFetch.rstn = s.rstn ∧ s.askFetch.pins = s.pins ∧ s.askFetch.sld = s.sld ∧
    s.askFetch.ptu = s.ptu ∧ s.askFetch.lif = s.lif ∧ s.askFetch.adm = s.adm ∧ s.askFetch.psq = s.psq ∧
    s.askFetch.wdu = s.wdu ∧ s.askFetch.ccu = s.ccu ∧ s.askFetch.cfw = s.cfw ∧ s.askFetch.sdram = s.sdram ∧
    s.askFetch.xch = s.xch ∧ s.askFetch.ord = s.ord ∧ s.askFetch.ntu = s.ntu ∧ s.askFetch.upb = s.upb ∧
    s.askFetch.fresh = s.fresh ∧ s.askFetch.pending = s.pending := by
  unfold State.askFetch; (try dsimp only); (repeat' split) <;> simp_all

@[simp] theorem State.askStore_keeps (s : State) :
    s.askStore.now = s.now ∧ s.askStore.rstn = s.rstn ∧ s.askStore.pins = s.pins ∧ s.askStore.sld = s.sld ∧
    s.askStore.ptu = s.ptu ∧ s.askStore.adm = s.adm ∧ s.askStore.psq = s.psq ∧ s.askStore.wdu = s.wdu ∧
    s.askStore.ccu = s.ccu ∧ s.askStore.cfw = s.cfw ∧ s.askStore.sdram = s.sdram ∧ s.askStore.ord = s.ord ∧
    s.askStore.upb = s.upb ∧ s.askStore.fresh = s.fresh ∧ s.askStore.pending = s.pending := by
  unfold State.askStore; (try dsimp only); (repeat' split) <;> simp_all

@[simp] theorem State.mediaRun_keeps (x0 : Nat) (s : State) :
    (State.mediaRun x0 s).now = s.now ∧ (State.mediaRun x0 s).rstn = s.rstn ∧ (State.mediaRun x0 s).pins = s.pins ∧
    (State.mediaRun x0 s).sld = s.sld ∧ (State.mediaRun x0 s).ptu = s.ptu ∧ (State.mediaRun x0 s).adm = s.adm ∧
    (State.mediaRun x0 s).psq = s.psq ∧ (State.mediaRun x0 s).wdu = s.wdu ∧ (State.mediaRun x0 s).ccu = s.ccu ∧
    (State.mediaRun x0 s).cfw = s.cfw ∧ (State.mediaRun x0 s).sdram = s.sdram ∧ (State.mediaRun x0 s).ord = s.ord ∧
    (State.mediaRun x0 s).upb = s.upb ∧ (State.mediaRun x0 s).fresh = s.fresh ∧
    (State.mediaRun x0 s).pending = s.pending := by
  induction x0 generalizing s with
  | zero => simp [State.mediaRun]
  | succ n ih => simp [State.mediaRun, ih]

@[simp] theorem State.mediaAdvance_keeps (s : State) :
    s.mediaAdvance.now = s.now ∧ s.mediaAdvance.rstn = s.rstn ∧ s.mediaAdvance.pins = s.pins ∧
    s.mediaAdvance.sld = s.sld ∧ s.mediaAdvance.ptu = s.ptu ∧ s.mediaAdvance.adm = s.adm ∧
    s.mediaAdvance.psq = s.psq ∧ s.mediaAdvance.wdu = s.wdu ∧ s.mediaAdvance.ccu = s.ccu ∧
    s.mediaAdvance.cfw = s.cfw ∧ s.mediaAdvance.sdram = s.sdram ∧ s.mediaAdvance.ord = s.ord ∧
    s.mediaAdvance.upb = s.upb ∧ s.mediaAdvance.fresh = s.fresh ∧ s.mediaAdvance.pending = s.pending := by
  unfold State.mediaAdvance; (try dsimp only); (repeat' split) <;> simp_all

@[simp] theorem State.readahead_keeps (s : State) (x0 : List Nat) :
    (s.readahead x0).now = s.now ∧ (s.readahead x0).rstn = s.rstn ∧ (s.readahead x0).pins = s.pins ∧
    (s.readahead x0).sld = s.sld ∧ (s.readahead x0).ptu = s.ptu ∧ (s.readahead x0).lif = s.lif ∧
    (s.readahead x0).adm = s.adm ∧ (s.readahead x0).psq = s.psq ∧ (s.readahead x0).wdu = s.wdu ∧
    (s.readahead x0).ccu = s.ccu ∧ (s.readahead x0).cfw = s.cfw ∧ (s.readahead x0).mctl = s.mctl ∧
    (s.readahead x0).sdram = s.sdram ∧ (s.readahead x0).mfn = s.mfn ∧ (s.readahead x0).ord = s.ord ∧
    (s.readahead x0).ntu = s.ntu ∧ (s.readahead x0).upb = s.upb ∧ (s.readahead x0).fresh = s.fresh ∧
    (s.readahead x0).pending = s.pending := by
  induction x0 generalizing s with
  | nil => simp [State.readahead]
  | cons x xs ih =>
    have hk := State.xchAsk_keeps s (s.mfn.key x) .readahead
    unfold State.readahead
    split
    · exact ih s
    · split <;> (rename_i h; rw [h] at hk; simp_all)

@[simp] theorem State.readComplete_keeps (s : State) (r : Request) :
    (s.readComplete r).now = s.now ∧ (s.readComplete r).rstn = s.rstn ∧ (s.readComplete r).pins = s.pins ∧
    (s.readComplete r).sld = s.sld ∧ (s.readComplete r).ptu = s.ptu ∧ (s.readComplete r).adm = s.adm ∧
    (s.readComplete r).psq = s.psq ∧ (s.readComplete r).wdu = s.wdu ∧ (s.readComplete r).ccu = s.ccu ∧
    (s.readComplete r).cfw = s.cfw ∧ (s.readComplete r).sdram = s.sdram ∧ (s.readComplete r).ord = s.ord ∧
    (s.readComplete r).ntu = s.ntu ∧ (s.readComplete r).upb = s.upb ∧ (s.readComplete r).fresh = s.fresh ∧
    (s.readComplete r).pending = s.pending := by
  unfold State.readComplete; (try dsimp only); (repeat' split) <;> simp_all

@[simp] theorem State.readArrived_keeps (s : State) (m : MediaReq) (blocks : List (Nat × Bytes)) :
    (s.readArrived m blocks).now = s.now ∧ (s.readArrived m blocks).rstn = s.rstn ∧
    (s.readArrived m blocks).pins = s.pins ∧ (s.readArrived m blocks).sld = s.sld ∧
    (s.readArrived m blocks).ptu = s.ptu ∧ (s.readArrived m blocks).adm = s.adm ∧
    (s.readArrived m blocks).psq = s.psq ∧ (s.readArrived m blocks).wdu = s.wdu ∧
    (s.readArrived m blocks).ccu = s.ccu ∧ (s.readArrived m blocks).cfw = s.cfw ∧
    (s.readArrived m blocks).sdram = s.sdram ∧ (s.readArrived m blocks).ord = s.ord ∧
    (s.readArrived m blocks).ntu = s.ntu ∧ (s.readArrived m blocks).upb = s.upb ∧
    (s.readArrived m blocks).fresh = s.fresh ∧ (s.readArrived m blocks).pending = s.pending := by
  unfold State.readArrived; (try dsimp only); (repeat' split) <;> simp_all

@[simp] theorem State.writeArrived_keeps (s : State) (m : MediaReq) :
    (s.writeArrived m).now = s.now ∧ (s.writeArrived m).rstn = s.rstn ∧ (s.writeArrived m).pins = s.pins ∧
    (s.writeArrived m).sld = s.sld ∧ (s.writeArrived m).ptu = s.ptu ∧ (s.writeArrived m).adm = s.adm ∧
    (s.writeArrived m).psq = s.psq ∧ (s.writeArrived m).wdu = s.wdu ∧ (s.writeArrived m).ccu = s.ccu ∧
    (s.writeArrived m).cfw = s.cfw ∧ (s.writeArrived m).sdram = s.sdram ∧ (s.writeArrived m).ord = s.ord ∧
    (s.writeArrived m).ntu = s.ntu ∧ (s.writeArrived m).upb = s.upb ∧ (s.writeArrived m).fresh = s.fresh ∧
    (s.writeArrived m).pending = s.pending := by
  unfold State.writeArrived; (try dsimp only); (repeat' split) <;> simp_all

@[simp] theorem State.beginRequest_keeps (s : State) (kind : ReqKind) (first count : Nat) :
    (s.beginRequest kind first count).now = s.now ∧ (s.beginRequest kind first count).rstn = s.rstn ∧
    (s.beginRequest kind first count).pins = s.pins ∧ (s.beginRequest kind first count).sld = s.sld ∧
    (s.beginRequest kind first count).ptu = s.ptu ∧ (s.beginRequest kind first count).lif = s.lif ∧
    (s.beginRequest kind first count).adm = s.adm ∧ (s.beginRequest kind first count).psq = s.psq ∧
    (s.beginRequest kind first count).wdu = s.wdu ∧ (s.beginRequest kind first count).ccu = s.ccu ∧
    (s.beginRequest kind first count).cfw = s.cfw ∧ (s.beginRequest kind first count).mctl = s.mctl ∧
    (s.beginRequest kind first count).sdram = s.sdram ∧ (s.beginRequest kind first count).lpm = s.lpm ∧
    (s.beginRequest kind first count).xch = s.xch ∧ (s.beginRequest kind first count).ord = s.ord ∧
    (s.beginRequest kind first count).ntu = s.ntu ∧ (s.beginRequest kind first count).upb = s.upb ∧
    (s.beginRequest kind first count).fresh = s.fresh ∧ (s.beginRequest kind first count).pending = s.pending := by
  unfold State.beginRequest; (try dsimp only); (repeat' split) <;> simp_all

@[simp] theorem State.addOwn_keeps (s : State) (kind : OwnKind) :
    (s.addOwn kind).now = s.now ∧ (s.addOwn kind).rstn = s.rstn ∧ (s.addOwn kind).pins = s.pins ∧
    (s.addOwn kind).sld = s.sld ∧ (s.addOwn kind).ptu = s.ptu ∧ (s.addOwn kind).lif = s.lif ∧
    (s.addOwn kind).psq = s.psq ∧ (s.addOwn kind).wdu = s.wdu ∧ (s.addOwn kind).ccu = s.ccu ∧
    (s.addOwn kind).cfw = s.cfw ∧ (s.addOwn kind).mctl = s.mctl ∧ (s.addOwn kind).sdram = s.sdram ∧
    (s.addOwn kind).lpm = s.lpm ∧ (s.addOwn kind).xch = s.xch ∧ (s.addOwn kind).mfn = s.mfn ∧
    (s.addOwn kind).ord = s.ord ∧ (s.addOwn kind).ntu = s.ntu ∧ (s.addOwn kind).upb = s.upb ∧
    (s.addOwn kind).fresh = s.fresh ∧ (s.addOwn kind).pending = s.pending := by
  unfold State.addOwn; (try dsimp only); (repeat' split) <;> simp_all

@[simp] theorem State.askClaim_keeps (s : State) :
    s.askClaim.now = s.now ∧ s.askClaim.rstn = s.rstn ∧ s.askClaim.pins = s.pins ∧ s.askClaim.sld = s.sld ∧
    s.askClaim.ptu = s.ptu ∧ s.askClaim.lif = s.lif ∧ s.askClaim.wdu = s.wdu ∧ s.askClaim.ccu = s.ccu ∧
    s.askClaim.cfw = s.cfw ∧ s.askClaim.mctl = s.mctl ∧ s.askClaim.sdram = s.sdram ∧ s.askClaim.lpm = s.lpm ∧
    s.askClaim.xch = s.xch ∧ s.askClaim.mfn = s.mfn ∧ s.askClaim.ord = s.ord ∧ s.askClaim.ntu = s.ntu ∧
    s.askClaim.upb = s.upb ∧ s.askClaim.fresh = s.fresh ∧ s.askClaim.pending = s.pending := by
  unfold State.askClaim; (try dsimp only); (repeat' split) <;> simp_all

@[simp] theorem State.retractSettled_keeps (s : State) :
    s.retractSettled.now = s.now ∧ s.retractSettled.rstn = s.rstn ∧ s.retractSettled.pins = s.pins ∧
    s.retractSettled.sld = s.sld ∧ s.retractSettled.ptu = s.ptu ∧ s.retractSettled.lif = s.lif ∧
    s.retractSettled.wdu = s.wdu ∧ s.retractSettled.ccu = s.ccu ∧ s.retractSettled.cfw = s.cfw ∧
    s.retractSettled.mctl = s.mctl ∧ s.retractSettled.sdram = s.sdram ∧ s.retractSettled.lpm = s.lpm ∧
    s.retractSettled.xch = s.xch ∧ s.retractSettled.mfn = s.mfn ∧ s.retractSettled.ord = s.ord ∧
    s.retractSettled.ntu = s.ntu ∧ s.retractSettled.upb = s.upb ∧ s.retractSettled.fresh = s.fresh ∧
    s.retractSettled.pending = s.pending := by
  unfold State.retractSettled; (try dsimp only); (repeat' split) <;> simp_all

@[simp] theorem State.cancelClaim_keeps (s : State) :
    s.cancelClaim.now = s.now ∧ s.cancelClaim.rstn = s.rstn ∧ s.cancelClaim.pins = s.pins ∧
    s.cancelClaim.sld = s.sld ∧ s.cancelClaim.ptu = s.ptu ∧ s.cancelClaim.wdu = s.wdu ∧ s.cancelClaim.ccu = s.ccu ∧
    s.cancelClaim.cfw = s.cfw ∧ s.cancelClaim.sdram = s.sdram ∧ s.cancelClaim.lpm = s.lpm ∧
    s.cancelClaim.xch = s.xch ∧ s.cancelClaim.mfn = s.mfn ∧ s.cancelClaim.ord = s.ord ∧ s.cancelClaim.ntu = s.ntu ∧
    s.cancelClaim.upb = s.upb ∧ s.cancelClaim.fresh = s.fresh ∧ s.cancelClaim.pending = s.pending := by
  unfold State.cancelClaim; (try dsimp only); (repeat' split) <;> simp_all

@[simp] theorem State.askRetract_keeps (s : State) (kind : OwnKind) :
    (s.askRetract kind).now = s.now ∧ (s.askRetract kind).rstn = s.rstn ∧ (s.askRetract kind).pins = s.pins ∧
    (s.askRetract kind).sld = s.sld ∧ (s.askRetract kind).ptu = s.ptu ∧ (s.askRetract kind).wdu = s.wdu ∧
    (s.askRetract kind).ccu = s.ccu ∧ (s.askRetract kind).cfw = s.cfw ∧ (s.askRetract kind).sdram = s.sdram ∧
    (s.askRetract kind).lpm = s.lpm ∧ (s.askRetract kind).xch = s.xch ∧ (s.askRetract kind).mfn = s.mfn ∧
    (s.askRetract kind).ord = s.ord ∧ (s.askRetract kind).ntu = s.ntu ∧ (s.askRetract kind).upb = s.upb ∧
    (s.askRetract kind).fresh = s.fresh ∧ (s.askRetract kind).pending = s.pending := by
  unfold State.askRetract; (try dsimp only); (repeat' split) <;> simp_all

@[simp] theorem State.releaseSlot_keeps (s : State) :
    s.releaseSlot.now = s.now ∧ s.releaseSlot.rstn = s.rstn ∧ s.releaseSlot.pins = s.pins ∧
    s.releaseSlot.sld = s.sld ∧ s.releaseSlot.ptu = s.ptu ∧ s.releaseSlot.wdu = s.wdu ∧ s.releaseSlot.ccu = s.ccu ∧
    s.releaseSlot.cfw = s.cfw ∧ s.releaseSlot.sdram = s.sdram ∧ s.releaseSlot.lpm = s.lpm ∧
    s.releaseSlot.xch = s.xch ∧ s.releaseSlot.mfn = s.mfn ∧ s.releaseSlot.ord = s.ord ∧ s.releaseSlot.ntu = s.ntu ∧
    s.releaseSlot.upb = s.upb ∧ s.releaseSlot.fresh = s.fresh ∧ s.releaseSlot.pending = s.pending := by
  unfold State.releaseSlot; (try dsimp only); (repeat' split) <;> simp_all

@[simp] theorem State.withdrawClaim_keeps (s : State) :
    s.withdrawClaim.now = s.now ∧ s.withdrawClaim.rstn = s.rstn ∧ s.withdrawClaim.pins = s.pins ∧
    s.withdrawClaim.sld = s.sld ∧ s.withdrawClaim.ptu = s.ptu ∧ s.withdrawClaim.wdu = s.wdu ∧
    s.withdrawClaim.ccu = s.ccu ∧ s.withdrawClaim.cfw = s.cfw ∧ s.withdrawClaim.sdram = s.sdram ∧
    s.withdrawClaim.lpm = s.lpm ∧ s.withdrawClaim.xch = s.xch ∧ s.withdrawClaim.mfn = s.mfn ∧
    s.withdrawClaim.ord = s.ord ∧ s.withdrawClaim.ntu = s.ntu ∧ s.withdrawClaim.upb = s.upb ∧
    s.withdrawClaim.fresh = s.fresh ∧ s.withdrawClaim.pending = s.pending := by
  unfold State.withdrawClaim; (try dsimp only); (repeat' split) <;> simp_all

@[simp] theorem State.bootDeadline_keeps (s : State) :
    s.bootDeadline.now = s.now ∧ s.bootDeadline.rstn = s.rstn ∧ s.bootDeadline.pins = s.pins ∧
    s.bootDeadline.sld = s.sld ∧ s.bootDeadline.ptu = s.ptu ∧ s.bootDeadline.lif = s.lif ∧
    s.bootDeadline.adm = s.adm ∧ s.bootDeadline.psq = s.psq ∧ s.bootDeadline.ccu = s.ccu ∧
    s.bootDeadline.cfw = s.cfw ∧ s.bootDeadline.mctl = s.mctl ∧ s.bootDeadline.sdram = s.sdram ∧
    s.bootDeadline.lpm = s.lpm ∧ s.bootDeadline.xch = s.xch ∧ s.bootDeadline.mfn = s.mfn ∧
    s.bootDeadline.ord = s.ord ∧ s.bootDeadline.ntu = s.ntu ∧ s.bootDeadline.upb = s.upb ∧
    s.bootDeadline.fresh = s.fresh ∧ s.bootDeadline.pending = s.pending := by
  unfold State.bootDeadline; (try dsimp only); (repeat' split) <;> simp_all

@[simp] theorem State.wduResetPulse_keeps (s : State) :
    s.wduResetPulse.now = s.now ∧ s.wduResetPulse.rstn = s.rstn ∧ s.wduResetPulse.pins = s.pins ∧
    s.wduResetPulse.sld = s.sld ∧ s.wduResetPulse.ptu = s.ptu ∧ s.wduResetPulse.lif = s.lif ∧
    s.wduResetPulse.adm = s.adm ∧ s.wduResetPulse.psq = s.psq ∧ s.wduResetPulse.ccu = s.ccu ∧
    s.wduResetPulse.cfw = s.cfw ∧ s.wduResetPulse.mctl = s.mctl ∧ s.wduResetPulse.sdram = s.sdram ∧
    s.wduResetPulse.lpm = s.lpm ∧ s.wduResetPulse.xch = s.xch ∧ s.wduResetPulse.mfn = s.mfn ∧
    s.wduResetPulse.ord = s.ord ∧ s.wduResetPulse.ntu = s.ntu ∧ s.wduResetPulse.upb = s.upb ∧
    s.wduResetPulse.fresh = s.fresh ∧ s.wduResetPulse.pending = s.pending := by
  unfold State.wduResetPulse; (try dsimp only); (repeat' split) <;> simp_all

@[simp] theorem State.wduEntersOn_keeps (s : State) :
    s.wduEntersOn.now = s.now ∧ s.wduEntersOn.rstn = s.rstn ∧ s.wduEntersOn.pins = s.pins ∧
    s.wduEntersOn.sld = s.sld ∧ s.wduEntersOn.ptu = s.ptu ∧ s.wduEntersOn.lif = s.lif ∧ s.wduEntersOn.adm = s.adm ∧
    s.wduEntersOn.psq = s.psq ∧ s.wduEntersOn.ccu = s.ccu ∧ s.wduEntersOn.cfw = s.cfw ∧
    s.wduEntersOn.mctl = s.mctl ∧ s.wduEntersOn.sdram = s.sdram ∧ s.wduEntersOn.lpm = s.lpm ∧
    s.wduEntersOn.xch = s.xch ∧ s.wduEntersOn.mfn = s.mfn ∧ s.wduEntersOn.ord = s.ord ∧ s.wduEntersOn.ntu = s.ntu ∧
    s.wduEntersOn.upb = s.upb ∧ s.wduEntersOn.fresh = s.fresh ∧ s.wduEntersOn.pending = s.pending := by
  unfold State.wduEntersOn; (try dsimp only); (repeat' split) <;> simp_all

@[simp] theorem State.wduLeavesOn_keeps (s : State) :
    s.wduLeavesOn.now = s.now ∧ s.wduLeavesOn.rstn = s.rstn ∧ s.wduLeavesOn.pins = s.pins ∧
    s.wduLeavesOn.sld = s.sld ∧ s.wduLeavesOn.ptu = s.ptu ∧ s.wduLeavesOn.lif = s.lif ∧ s.wduLeavesOn.adm = s.adm ∧
    s.wduLeavesOn.psq = s.psq ∧ s.wduLeavesOn.ccu = s.ccu ∧ s.wduLeavesOn.cfw = s.cfw ∧
    s.wduLeavesOn.mctl = s.mctl ∧ s.wduLeavesOn.sdram = s.sdram ∧ s.wduLeavesOn.lpm = s.lpm ∧
    s.wduLeavesOn.xch = s.xch ∧ s.wduLeavesOn.mfn = s.mfn ∧ s.wduLeavesOn.ord = s.ord ∧ s.wduLeavesOn.ntu = s.ntu ∧
    s.wduLeavesOn.upb = s.upb ∧ s.wduLeavesOn.fresh = s.fresh ∧ s.wduLeavesOn.pending = s.pending := by
  unfold State.wduLeavesOn; (try dsimp only); (repeat' split) <;> simp_all

@[simp] theorem State.tellWdu_keeps (s : State) (old : Option SeqState) (st : SeqState) :
    (s.tellWdu old st).now = s.now ∧ (s.tellWdu old st).rstn = s.rstn ∧ (s.tellWdu old st).pins = s.pins ∧
    (s.tellWdu old st).sld = s.sld ∧ (s.tellWdu old st).ptu = s.ptu ∧ (s.tellWdu old st).lif = s.lif ∧
    (s.tellWdu old st).adm = s.adm ∧ (s.tellWdu old st).psq = s.psq ∧ (s.tellWdu old st).ccu = s.ccu ∧
    (s.tellWdu old st).cfw = s.cfw ∧ (s.tellWdu old st).mctl = s.mctl ∧ (s.tellWdu old st).sdram = s.sdram ∧
    (s.tellWdu old st).lpm = s.lpm ∧ (s.tellWdu old st).xch = s.xch ∧ (s.tellWdu old st).mfn = s.mfn ∧
    (s.tellWdu old st).ord = s.ord ∧ (s.tellWdu old st).ntu = s.ntu ∧ (s.tellWdu old st).upb = s.upb ∧
    (s.tellWdu old st).fresh = s.fresh ∧ (s.tellWdu old st).pending = s.pending := by
  unfold State.tellWdu; (try dsimp only); (repeat' split) <;> simp_all

@[simp] theorem State.tellMfn_keeps (s : State) (old : Option SeqState) (st : SeqState) :
    (s.tellMfn old st).now = s.now ∧ (s.tellMfn old st).rstn = s.rstn ∧ (s.tellMfn old st).pins = s.pins ∧
    (s.tellMfn old st).sld = s.sld ∧ (s.tellMfn old st).ptu = s.ptu ∧ (s.tellMfn old st).adm = s.adm ∧
    (s.tellMfn old st).psq = s.psq ∧ (s.tellMfn old st).wdu = s.wdu ∧ (s.tellMfn old st).ccu = s.ccu ∧
    (s.tellMfn old st).cfw = s.cfw ∧ (s.tellMfn old st).sdram = s.sdram ∧ (s.tellMfn old st).ord = s.ord ∧
    (s.tellMfn old st).ntu = s.ntu ∧ (s.tellMfn old st).upb = s.upb ∧ (s.tellMfn old st).fresh = s.fresh ∧
    (s.tellMfn old st).pending = s.pending := by
  unfold State.tellMfn; (try dsimp only); (repeat' split) <;> simp_all

@[simp] theorem State.psqEnter_keeps (s : State) (st : SeqState) (var : Variant) (start : Bool) :
    (s.psqEnter st var start).now = s.now ∧ (s.psqEnter st var start).rstn = s.rstn ∧
    (s.psqEnter st var start).pins = s.pins ∧ (s.psqEnter st var start).sld = s.sld ∧
    (s.psqEnter st var start).ptu = s.ptu ∧ (s.psqEnter st var start).ccu = s.ccu ∧
    (s.psqEnter st var start).cfw = s.cfw ∧ (s.psqEnter st var start).sdram = s.sdram ∧
    (s.psqEnter st var start).ord = s.ord ∧ (s.psqEnter st var start).upb = s.upb ∧
    (s.psqEnter st var start).fresh = s.fresh ∧ (s.psqEnter st var start).pending = s.pending := by
  unfold State.psqEnter; (try dsimp only); (repeat' split) <;> simp_all

@[simp] theorem State.pressPulse_keeps (s : State) :
    s.pressPulse.now = s.now ∧ s.pressPulse.rstn = s.rstn ∧ s.pressPulse.pins = s.pins ∧ s.pressPulse.sld = s.sld ∧
    s.pressPulse.ptu = s.ptu ∧ s.pressPulse.lif = s.lif ∧ s.pressPulse.adm = s.adm ∧ s.pressPulse.wdu = s.wdu ∧
    s.pressPulse.ccu = s.ccu ∧ s.pressPulse.cfw = s.cfw ∧ s.pressPulse.mctl = s.mctl ∧
    s.pressPulse.sdram = s.sdram ∧ s.pressPulse.lpm = s.lpm ∧ s.pressPulse.xch = s.xch ∧ s.pressPulse.mfn = s.mfn ∧
    s.pressPulse.ord = s.ord ∧ s.pressPulse.ntu = s.ntu ∧ s.pressPulse.upb = s.upb ∧ s.pressPulse.fresh = s.fresh ∧
    s.pressPulse.pending = s.pending := by
  unfold State.pressPulse; (try dsimp only); (repeat' split) <;> simp_all

@[simp] theorem State.longPress_keeps (s : State) :
    s.longPress.now = s.now ∧ s.longPress.rstn = s.rstn ∧ s.longPress.pins = s.pins ∧ s.longPress.sld = s.sld ∧
    s.longPress.ptu = s.ptu ∧ s.longPress.lif = s.lif ∧ s.longPress.adm = s.adm ∧ s.longPress.wdu = s.wdu ∧
    s.longPress.ccu = s.ccu ∧ s.longPress.cfw = s.cfw ∧ s.longPress.mctl = s.mctl ∧ s.longPress.sdram = s.sdram ∧
    s.longPress.lpm = s.lpm ∧ s.longPress.xch = s.xch ∧ s.longPress.mfn = s.mfn ∧ s.longPress.ord = s.ord ∧
    s.longPress.ntu = s.ntu ∧ s.longPress.upb = s.upb ∧ s.longPress.fresh = s.fresh ∧
    s.longPress.pending = s.pending := by
  unfold State.longPress; (try dsimp only); (repeat' split) <;> simp_all

@[simp] theorem State.releasePress_keeps (s : State) :
    s.releasePress.now = s.now ∧ s.releasePress.rstn = s.rstn ∧ s.releasePress.pins = s.pins ∧
    s.releasePress.sld = s.sld ∧ s.releasePress.ptu = s.ptu ∧ s.releasePress.lif = s.lif ∧
    s.releasePress.adm = s.adm ∧ s.releasePress.wdu = s.wdu ∧ s.releasePress.ccu = s.ccu ∧
    s.releasePress.cfw = s.cfw ∧ s.releasePress.mctl = s.mctl ∧ s.releasePress.sdram = s.sdram ∧
    s.releasePress.lpm = s.lpm ∧ s.releasePress.xch = s.xch ∧ s.releasePress.mfn = s.mfn ∧
    s.releasePress.ord = s.ord ∧ s.releasePress.ntu = s.ntu ∧ s.releasePress.upb = s.upb ∧
    s.releasePress.fresh = s.fresh ∧ s.releasePress.pending = s.pending := by
  unfold State.releasePress; (try dsimp only); (repeat' split) <;> simp_all

@[simp] theorem State.setFeed_keeps (s : State) (closed : Bool) :
    (s.setFeed closed).now = s.now ∧ (s.setFeed closed).rstn = s.rstn ∧ (s.setFeed closed).pins = s.pins ∧
    (s.setFeed closed).sld = s.sld ∧ (s.setFeed closed).ptu = s.ptu ∧ (s.setFeed closed).lif = s.lif ∧
    (s.setFeed closed).adm = s.adm ∧ (s.setFeed closed).wdu = s.wdu ∧ (s.setFeed closed).ccu = s.ccu ∧
    (s.setFeed closed).cfw = s.cfw ∧ (s.setFeed closed).mctl = s.mctl ∧ (s.setFeed closed).sdram = s.sdram ∧
    (s.setFeed closed).lpm = s.lpm ∧ (s.setFeed closed).xch = s.xch ∧ (s.setFeed closed).mfn = s.mfn ∧
    (s.setFeed closed).ord = s.ord ∧ (s.setFeed closed).ntu = s.ntu ∧ (s.setFeed closed).upb = s.upb ∧
    (s.setFeed closed).fresh = s.fresh ∧ (s.setFeed closed).pending = s.pending := by
  unfold State.setFeed; (try dsimp only); (repeat' split) <;> simp_all

@[simp] theorem State.startRest_keeps (s : State) :
    s.startRest.now = s.now ∧ s.startRest.rstn = s.rstn ∧ s.startRest.pins = s.pins ∧ s.startRest.sld = s.sld ∧
    s.startRest.ptu = s.ptu ∧ s.startRest.lif = s.lif ∧ s.startRest.adm = s.adm ∧ s.startRest.wdu = s.wdu ∧
    s.startRest.ccu = s.ccu ∧ s.startRest.cfw = s.cfw ∧ s.startRest.mctl = s.mctl ∧ s.startRest.sdram = s.sdram ∧
    s.startRest.lpm = s.lpm ∧ s.startRest.xch = s.xch ∧ s.startRest.mfn = s.mfn ∧ s.startRest.ord = s.ord ∧
    s.startRest.ntu = s.ntu ∧ s.startRest.upb = s.upb ∧ s.startRest.fresh = s.fresh ∧
    s.startRest.pending = s.pending := by
  unfold State.startRest; (try dsimp only); (repeat' split) <;> simp_all

@[simp] theorem State.startYoung_keeps (s : State) :
    s.startYoung.now = s.now ∧ s.startYoung.rstn = s.rstn ∧ s.startYoung.pins = s.pins ∧ s.startYoung.sld = s.sld ∧
    s.startYoung.ptu = s.ptu ∧ s.startYoung.lif = s.lif ∧ s.startYoung.adm = s.adm ∧ s.startYoung.wdu = s.wdu ∧
    s.startYoung.ccu = s.ccu ∧ s.startYoung.cfw = s.cfw ∧ s.startYoung.mctl = s.mctl ∧
    s.startYoung.sdram = s.sdram ∧ s.startYoung.lpm = s.lpm ∧ s.startYoung.xch = s.xch ∧ s.startYoung.mfn = s.mfn ∧
    s.startYoung.ord = s.ord ∧ s.startYoung.ntu = s.ntu ∧ s.startYoung.upb = s.upb ∧ s.startYoung.fresh = s.fresh ∧
    s.startYoung.pending = s.pending := by
  unfold State.startYoung; (try dsimp only); (repeat' split) <;> simp_all

@[simp] theorem State.setPending_keeps (s : State) (a : PendingAct) :
    (s.setPending a).now = s.now ∧ (s.setPending a).rstn = s.rstn ∧ (s.setPending a).pins = s.pins ∧
    (s.setPending a).sld = s.sld ∧ (s.setPending a).ptu = s.ptu ∧ (s.setPending a).lif = s.lif ∧
    (s.setPending a).adm = s.adm ∧ (s.setPending a).wdu = s.wdu ∧ (s.setPending a).ccu = s.ccu ∧
    (s.setPending a).cfw = s.cfw ∧ (s.setPending a).mctl = s.mctl ∧ (s.setPending a).sdram = s.sdram ∧
    (s.setPending a).lpm = s.lpm ∧ (s.setPending a).xch = s.xch ∧ (s.setPending a).mfn = s.mfn ∧
    (s.setPending a).ord = s.ord ∧ (s.setPending a).ntu = s.ntu ∧ (s.setPending a).upb = s.upb ∧
    (s.setPending a).fresh = s.fresh ∧ (s.setPending a).pending = s.pending := by
  unfold State.setPending; (try dsimp only); (repeat' split) <;> simp_all

@[simp] theorem State.cancelPending_keeps (s : State) :
    s.cancelPending.2.now = s.now ∧ s.cancelPending.2.rstn = s.rstn ∧ s.cancelPending.2.pins = s.pins ∧
    s.cancelPending.2.sld = s.sld ∧ s.cancelPending.2.ptu = s.ptu ∧ s.cancelPending.2.lif = s.lif ∧
    s.cancelPending.2.adm = s.adm ∧ s.cancelPending.2.wdu = s.wdu ∧ s.cancelPending.2.ccu = s.ccu ∧
    s.cancelPending.2.cfw = s.cfw ∧ s.cancelPending.2.mctl = s.mctl ∧ s.cancelPending.2.sdram = s.sdram ∧
    s.cancelPending.2.lpm = s.lpm ∧ s.cancelPending.2.xch = s.xch ∧ s.cancelPending.2.mfn = s.mfn ∧
    s.cancelPending.2.ord = s.ord ∧ s.cancelPending.2.ntu = s.ntu ∧ s.cancelPending.2.upb = s.upb ∧
    s.cancelPending.2.fresh = s.fresh ∧ s.cancelPending.2.pending = s.pending := by
  unfold State.cancelPending; (try dsimp only); (repeat' split) <;> simp_all

@[simp] theorem State.offAwaiting_keeps (s : State) :
    s.offAwaiting.now = s.now ∧ s.offAwaiting.rstn = s.rstn ∧ s.offAwaiting.pins = s.pins ∧
    s.offAwaiting.sld = s.sld ∧ s.offAwaiting.ptu = s.ptu ∧ s.offAwaiting.ccu = s.ccu ∧ s.offAwaiting.cfw = s.cfw ∧
    s.offAwaiting.sdram = s.sdram ∧ s.offAwaiting.ord = s.ord ∧ s.offAwaiting.upb = s.upb ∧
    s.offAwaiting.fresh = s.fresh ∧ s.offAwaiting.pending = s.pending := by
  unfold State.offAwaiting; (try dsimp only); (repeat' split) <;> simp_all

@[simp] theorem State.actOn_keeps (s : State) :
    s.actOn.2.now = s.now ∧ s.actOn.2.rstn = s.rstn ∧ s.actOn.2.pins = s.pins ∧ s.actOn.2.sld = s.sld ∧
    s.actOn.2.ptu = s.ptu ∧ s.actOn.2.ccu = s.ccu ∧ s.actOn.2.cfw = s.cfw ∧ s.actOn.2.sdram = s.sdram ∧
    s.actOn.2.ord = s.ord ∧ s.actOn.2.upb = s.upb ∧ s.actOn.2.fresh = s.fresh ∧ s.actOn.2.pending = s.pending := by
  unfold State.actOn State.unlessMismatch; (try dsimp only); (repeat' split) <;> simp_all

@[simp] theorem State.beginStopping_keeps (s : State) (var : Variant) :
    (s.beginStopping var).now = s.now ∧ (s.beginStopping var).rstn = s.rstn ∧ (s.beginStopping var).pins = s.pins ∧
    (s.beginStopping var).sld = s.sld ∧ (s.beginStopping var).ptu = s.ptu ∧ (s.beginStopping var).ccu = s.ccu ∧
    (s.beginStopping var).cfw = s.cfw ∧ (s.beginStopping var).sdram = s.sdram ∧ (s.beginStopping var).ord = s.ord ∧
    (s.beginStopping var).upb = s.upb ∧ (s.beginStopping var).fresh = s.fresh ∧
    (s.beginStopping var).pending = s.pending := by
  unfold State.beginStopping; (try dsimp only); (repeat' split) <;> simp_all

@[simp] theorem State.actOffSoft_keeps (s : State) (thenHard : Bool) :
    (s.actOffSoft thenHard).2.now = s.now ∧ (s.actOffSoft thenHard).2.rstn = s.rstn ∧
    (s.actOffSoft thenHard).2.pins = s.pins ∧ (s.actOffSoft thenHard).2.sld = s.sld ∧
    (s.actOffSoft thenHard).2.ptu = s.ptu ∧ (s.actOffSoft thenHard).2.ccu = s.ccu ∧
    (s.actOffSoft thenHard).2.cfw = s.cfw ∧ (s.actOffSoft thenHard).2.sdram = s.sdram ∧
    (s.actOffSoft thenHard).2.ord = s.ord ∧ (s.actOffSoft thenHard).2.upb = s.upb ∧
    (s.actOffSoft thenHard).2.fresh = s.fresh ∧ (s.actOffSoft thenHard).2.pending = s.pending := by
  unfold State.actOffSoft; (try dsimp only); (repeat' split) <;> simp_all

@[simp] theorem State.beginForcing_keeps (s : State) :
    s.beginForcing.now = s.now ∧ s.beginForcing.rstn = s.rstn ∧ s.beginForcing.pins = s.pins ∧
    s.beginForcing.sld = s.sld ∧ s.beginForcing.ptu = s.ptu ∧ s.beginForcing.ccu = s.ccu ∧
    s.beginForcing.cfw = s.cfw ∧ s.beginForcing.sdram = s.sdram ∧ s.beginForcing.ord = s.ord ∧
    s.beginForcing.upb = s.upb ∧ s.beginForcing.fresh = s.fresh ∧ s.beginForcing.pending = s.pending := by
  unfold State.beginForcing; (try dsimp only); (repeat' split) <;> simp_all

@[simp] theorem State.actOffHard_keeps (s : State) :
    s.actOffHard.2.now = s.now ∧ s.actOffHard.2.rstn = s.rstn ∧ s.actOffHard.2.pins = s.pins ∧
    s.actOffHard.2.sld = s.sld ∧ s.actOffHard.2.ptu = s.ptu ∧ s.actOffHard.2.ccu = s.ccu ∧
    s.actOffHard.2.cfw = s.cfw ∧ s.actOffHard.2.sdram = s.sdram ∧ s.actOffHard.2.ord = s.ord ∧
    s.actOffHard.2.upb = s.upb ∧ s.actOffHard.2.fresh = s.fresh ∧ s.actOffHard.2.pending = s.pending := by
  unfold State.actOffHard; (try dsimp only); (repeat' split) <;> simp_all

@[simp] theorem State.actReset_keeps (s : State) (source : Nat) :
    (s.actReset source).2.now = s.now ∧ (s.actReset source).2.rstn = s.rstn ∧ (s.actReset source).2.pins = s.pins ∧
    (s.actReset source).2.sld = s.sld ∧ (s.actReset source).2.ptu = s.ptu ∧ (s.actReset source).2.lif = s.lif ∧
    (s.actReset source).2.adm = s.adm ∧ (s.actReset source).2.cfw = s.cfw ∧ (s.actReset source).2.mctl = s.mctl ∧
    (s.actReset source).2.sdram = s.sdram ∧ (s.actReset source).2.lpm = s.lpm ∧ (s.actReset source).2.xch = s.xch ∧
    (s.actReset source).2.mfn = s.mfn ∧ (s.actReset source).2.ord = s.ord ∧ (s.actReset source).2.ntu = s.ntu ∧
    (s.actReset source).2.upb = s.upb ∧ (s.actReset source).2.fresh = s.fresh ∧
    (s.actReset source).2.pending = s.pending := by
  unfold State.actReset; (try dsimp only); (repeat' split) <;> simp_all

@[simp] theorem State.actCycle_keeps (s : State) :
    s.actCycle.2.now = s.now ∧ s.actCycle.2.rstn = s.rstn ∧ s.actCycle.2.pins = s.pins ∧ s.actCycle.2.sld = s.sld ∧
    s.actCycle.2.ptu = s.ptu ∧ s.actCycle.2.ccu = s.ccu ∧ s.actCycle.2.cfw = s.cfw ∧ s.actCycle.2.sdram = s.sdram ∧
    s.actCycle.2.ord = s.ord ∧ s.actCycle.2.upb = s.upb ∧ s.actCycle.2.fresh = s.fresh ∧
    s.actCycle.2.pending = s.pending := by
  unfold State.actCycle State.unlessMismatch; (try dsimp only); (repeat' split) <;> simp_all

@[simp] theorem State.cutRest_keeps (s : State) :
    s.cutRest.now = s.now ∧ s.cutRest.rstn = s.rstn ∧ s.cutRest.pins = s.pins ∧ s.cutRest.sld = s.sld ∧
    s.cutRest.ptu = s.ptu ∧ s.cutRest.lif = s.lif ∧ s.cutRest.adm = s.adm ∧ s.cutRest.wdu = s.wdu ∧
    s.cutRest.ccu = s.ccu ∧ s.cutRest.cfw = s.cfw ∧ s.cutRest.mctl = s.mctl ∧ s.cutRest.sdram = s.sdram ∧
    s.cutRest.lpm = s.lpm ∧ s.cutRest.xch = s.xch ∧ s.cutRest.mfn = s.mfn ∧ s.cutRest.ord = s.ord ∧
    s.cutRest.ntu = s.ntu ∧ s.cutRest.upb = s.upb ∧ s.cutRest.fresh = s.fresh ∧ s.cutRest.pending = s.pending := by
  unfold State.cutRest; (try dsimp only); (repeat' split) <;> simp_all

@[simp] theorem State.actFeedCut_keeps (s : State) :
    s.actFeedCut.2.now = s.now ∧ s.actFeedCut.2.rstn = s.rstn ∧ s.actFeedCut.2.pins = s.pins ∧
    s.actFeedCut.2.sld = s.sld ∧ s.actFeedCut.2.ptu = s.ptu ∧ s.actFeedCut.2.cfw = s.cfw ∧
    s.actFeedCut.2.sdram = s.sdram ∧ s.actFeedCut.2.ord = s.ord ∧ s.actFeedCut.2.upb = s.upb ∧
    s.actFeedCut.2.fresh = s.fresh ∧ s.actFeedCut.2.pending = s.pending := by
  unfold State.actFeedCut; (try dsimp only); (repeat' split) <;> simp_all

@[simp] theorem State.actFeedRestore_keeps (s : State) :
    s.actFeedRestore.2.now = s.now ∧ s.actFeedRestore.2.rstn = s.rstn ∧ s.actFeedRestore.2.pins = s.pins ∧
    s.actFeedRestore.2.sld = s.sld ∧ s.actFeedRestore.2.ptu = s.ptu ∧ s.actFeedRestore.2.ccu = s.ccu ∧
    s.actFeedRestore.2.cfw = s.cfw ∧ s.actFeedRestore.2.sdram = s.sdram ∧ s.actFeedRestore.2.ord = s.ord ∧
    s.actFeedRestore.2.upb = s.upb ∧ s.actFeedRestore.2.fresh = s.fresh ∧ s.actFeedRestore.2.pending = s.pending := by
  unfold State.actFeedRestore State.unlessMismatch; (try dsimp only); (repeat' split) <;> simp_all

@[simp] theorem State.actWake_keeps (s : State) :
    s.actWake.2.now = s.now ∧ s.actWake.2.rstn = s.rstn ∧ s.actWake.2.pins = s.pins ∧ s.actWake.2.sld = s.sld ∧
    s.actWake.2.ptu = s.ptu ∧ s.actWake.2.lif = s.lif ∧ s.actWake.2.adm = s.adm ∧ s.actWake.2.psq = s.psq ∧
    s.actWake.2.wdu = s.wdu ∧ s.actWake.2.ccu = s.ccu ∧ s.actWake.2.cfw = s.cfw ∧ s.actWake.2.mctl = s.mctl ∧
    s.actWake.2.sdram = s.sdram ∧ s.actWake.2.lpm = s.lpm ∧ s.actWake.2.xch = s.xch ∧ s.actWake.2.ord = s.ord ∧
    s.actWake.2.ntu = s.ntu ∧ s.actWake.2.upb = s.upb ∧ s.actWake.2.fresh = s.fresh ∧
    s.actWake.2.pending = s.pending := by
  unfold State.actWake; (try dsimp only); (repeat' split) <;> simp_all

@[simp] theorem State.startedOn_keeps (s : State) :
    s.startedOn.now = s.now ∧ s.startedOn.rstn = s.rstn ∧ s.startedOn.pins = s.pins ∧ s.startedOn.sld = s.sld ∧
    s.startedOn.ptu = s.ptu ∧ s.startedOn.cfw = s.cfw ∧ s.startedOn.sdram = s.sdram ∧ s.startedOn.ord = s.ord ∧
    s.startedOn.upb = s.upb ∧ s.startedOn.fresh = s.fresh ∧ s.startedOn.pending = s.pending := by
  unfold State.startedOn; (try dsimp only); (repeat' split) <;> simp_all

@[simp] theorem State.granted_keeps (s : State) :
    s.granted.now = s.now ∧ s.granted.rstn = s.rstn ∧ s.granted.pins = s.pins ∧ s.granted.sld = s.sld ∧
    s.granted.ptu = s.ptu ∧ s.granted.cfw = s.cfw ∧ s.granted.sdram = s.sdram ∧ s.granted.ord = s.ord ∧
    s.granted.upb = s.upb ∧ s.granted.fresh = s.fresh ∧ s.granted.pending = s.pending := by
  unfold State.granted; (try dsimp only); (repeat' split) <;> simp_all

@[simp] theorem State.slotEnded_keeps (s : State) :
    s.slotEnded.now = s.now ∧ s.slotEnded.rstn = s.rstn ∧ s.slotEnded.pins = s.pins ∧ s.slotEnded.sld = s.sld ∧
    s.slotEnded.ptu = s.ptu ∧ s.slotEnded.lif = s.lif ∧ s.slotEnded.adm = s.adm ∧ s.slotEnded.wdu = s.wdu ∧
    s.slotEnded.ccu = s.ccu ∧ s.slotEnded.cfw = s.cfw ∧ s.slotEnded.mctl = s.mctl ∧ s.slotEnded.sdram = s.sdram ∧
    s.slotEnded.lpm = s.lpm ∧ s.slotEnded.xch = s.xch ∧ s.slotEnded.mfn = s.mfn ∧ s.slotEnded.ord = s.ord ∧
    s.slotEnded.ntu = s.ntu ∧ s.slotEnded.upb = s.upb ∧ s.slotEnded.fresh = s.fresh ∧
    s.slotEnded.pending = s.pending := by
  unfold State.slotEnded; (try dsimp only); (repeat' split) <;> simp_all

@[simp] theorem State.admChange_keeps (s : State) (change : Adm → Adm) :
    (s.admChange change).now = s.now ∧ (s.admChange change).rstn = s.rstn ∧ (s.admChange change).pins = s.pins ∧
    (s.admChange change).sld = s.sld ∧ (s.admChange change).ptu = s.ptu ∧ (s.admChange change).cfw = s.cfw ∧
    (s.admChange change).sdram = s.sdram ∧ (s.admChange change).ord = s.ord ∧ (s.admChange change).upb = s.upb ∧
    (s.admChange change).fresh = s.fresh ∧ (s.admChange change).pending = s.pending := by
  unfold State.admChange; (try dsimp only); (repeat' split) <;> simp_all

@[simp] theorem State.admRemove_keeps (s : State) (x : Nat) :
    (s.admRemove x).now = s.now ∧ (s.admRemove x).rstn = s.rstn ∧ (s.admRemove x).pins = s.pins ∧
    (s.admRemove x).sld = s.sld ∧ (s.admRemove x).ptu = s.ptu ∧ (s.admRemove x).cfw = s.cfw ∧
    (s.admRemove x).sdram = s.sdram ∧ (s.admRemove x).ord = s.ord ∧ (s.admRemove x).upb = s.upb ∧
    (s.admRemove x).fresh = s.fresh ∧ (s.admRemove x).pending = s.pending := by
  unfold State.admRemove; (try dsimp only); (repeat' split) <;> simp_all

@[simp] theorem State.admitFrame_keeps (s : State) (f : LaneFrame) (kind : FrameKind) :
    (s.admitFrame f kind).now = s.now ∧ (s.admitFrame f kind).rstn = s.rstn ∧ (s.admitFrame f kind).pins = s.pins ∧
    (s.admitFrame f kind).sld = s.sld ∧ (s.admitFrame f kind).ptu = s.ptu ∧ (s.admitFrame f kind).cfw = s.cfw ∧
    (s.admitFrame f kind).sdram = s.sdram ∧ (s.admitFrame f kind).ord = s.ord ∧ (s.admitFrame f kind).upb = s.upb ∧
    (s.admitFrame f kind).fresh = s.fresh ∧ (s.admitFrame f kind).pending = s.pending := by
  unfold State.admitFrame; (try dsimp only); (repeat' split) <;> simp_all

@[simp] theorem State.repair_keeps (s : State) (x : Nat) (b : Beacon) :
    (s.repair x b).now = s.now ∧ (s.repair x b).rstn = s.rstn ∧ (s.repair x b).pins = s.pins ∧
    (s.repair x b).sld = s.sld ∧ (s.repair x b).ptu = s.ptu ∧ (s.repair x b).cfw = s.cfw ∧
    (s.repair x b).sdram = s.sdram ∧ (s.repair x b).ord = s.ord ∧ (s.repair x b).upb = s.upb ∧
    (s.repair x b).fresh = s.fresh ∧ (s.repair x b).pending = s.pending := by
  unfold State.repair; (try dsimp only); (repeat' split) <;> simp_all

@[simp] theorem State.copyLists_keeps (s : State) (b : Beacon) :
    (s.copyLists b).now = s.now ∧ (s.copyLists b).rstn = s.rstn ∧ (s.copyLists b).pins = s.pins ∧
    (s.copyLists b).sld = s.sld ∧ (s.copyLists b).ptu = s.ptu ∧ (s.copyLists b).cfw = s.cfw ∧
    (s.copyLists b).sdram = s.sdram ∧ (s.copyLists b).ord = s.ord ∧ (s.copyLists b).upb = s.upb ∧
    (s.copyLists b).fresh = s.fresh ∧ (s.copyLists b).pending = s.pending := by
  unfold State.copyLists; (try dsimp only); (repeat' split) <;> simp_all

@[simp] theorem State.admBeacon_keeps (s : State) (x : Nat) (b : Beacon) :
    (s.admBeacon x b).now = s.now ∧ (s.admBeacon x b).rstn = s.rstn ∧ (s.admBeacon x b).pins = s.pins ∧
    (s.admBeacon x b).sld = s.sld ∧ (s.admBeacon x b).ptu = s.ptu ∧ (s.admBeacon x b).cfw = s.cfw ∧
    (s.admBeacon x b).sdram = s.sdram ∧ (s.admBeacon x b).ord = s.ord ∧ (s.admBeacon x b).upb = s.upb ∧
    (s.admBeacon x b).fresh = s.fresh ∧ (s.admBeacon x b).pending = s.pending := by
  unfold State.admBeacon; (try dsimp only); (repeat' split) <;> simp_all

@[simp] theorem State.ownBack_keeps (s : State) (seq : Nat) :
    (s.ownBack seq).now = s.now ∧ (s.ownBack seq).rstn = s.rstn ∧ (s.ownBack seq).pins = s.pins ∧
    (s.ownBack seq).sld = s.sld ∧ (s.ownBack seq).ptu = s.ptu ∧ (s.ownBack seq).wdu = s.wdu ∧
    (s.ownBack seq).ccu = s.ccu ∧ (s.ownBack seq).cfw = s.cfw ∧ (s.ownBack seq).sdram = s.sdram ∧
    (s.ownBack seq).lpm = s.lpm ∧ (s.ownBack seq).xch = s.xch ∧ (s.ownBack seq).mfn = s.mfn ∧
    (s.ownBack seq).ord = s.ord ∧ (s.ownBack seq).ntu = s.ntu ∧ (s.ownBack seq).upb = s.upb ∧
    (s.ownBack seq).fresh = s.fresh ∧ (s.ownBack seq).pending = s.pending := by
  unfold State.ownBack; (try dsimp only); (repeat' split) <;> simp_all

@[simp] theorem State.ownDone_keeps (s : State) (seq : Nat) :
    (s.ownDone seq).now = s.now ∧ (s.ownDone seq).rstn = s.rstn ∧ (s.ownDone seq).pins = s.pins ∧
    (s.ownDone seq).sld = s.sld ∧ (s.ownDone seq).ptu = s.ptu ∧ (s.ownDone seq).lif = s.lif ∧
    (s.ownDone seq).wdu = s.wdu ∧ (s.ownDone seq).ccu = s.ccu ∧ (s.ownDone seq).cfw = s.cfw ∧
    (s.ownDone seq).mctl = s.mctl ∧ (s.ownDone seq).sdram = s.sdram ∧ (s.ownDone seq).lpm = s.lpm ∧
    (s.ownDone seq).xch = s.xch ∧ (s.ownDone seq).mfn = s.mfn ∧ (s.ownDone seq).ord = s.ord ∧
    (s.ownDone seq).ntu = s.ntu ∧ (s.ownDone seq).upb = s.upb ∧ (s.ownDone seq).fresh = s.fresh ∧
    (s.ownDone seq).pending = s.pending := by
  unfold State.ownDone; (try dsimp only); (repeat' split) <;> simp_all

@[simp] theorem State.ownGivenUp_keeps (s : State) (seq : Nat) :
    (s.ownGivenUp seq).now = s.now ∧ (s.ownGivenUp seq).rstn = s.rstn ∧ (s.ownGivenUp seq).pins = s.pins ∧
    (s.ownGivenUp seq).sld = s.sld ∧ (s.ownGivenUp seq).ptu = s.ptu ∧ (s.ownGivenUp seq).wdu = s.wdu ∧
    (s.ownGivenUp seq).ccu = s.ccu ∧ (s.ownGivenUp seq).cfw = s.cfw ∧ (s.ownGivenUp seq).sdram = s.sdram ∧
    (s.ownGivenUp seq).lpm = s.lpm ∧ (s.ownGivenUp seq).xch = s.xch ∧ (s.ownGivenUp seq).mfn = s.mfn ∧
    (s.ownGivenUp seq).ord = s.ord ∧ (s.ownGivenUp seq).ntu = s.ntu ∧ (s.ownGivenUp seq).upb = s.upb ∧
    (s.ownGivenUp seq).fresh = s.fresh ∧ (s.ownGivenUp seq).pending = s.pending := by
  unfold State.ownGivenUp; (try dsimp only); (repeat' split) <;> simp_all

@[simp] theorem State.selfRetract_keeps (s : State) :
    s.selfRetract.now = s.now ∧ s.selfRetract.rstn = s.rstn ∧ s.selfRetract.pins = s.pins ∧
    s.selfRetract.sld = s.sld ∧ s.selfRetract.ptu = s.ptu ∧ s.selfRetract.lif = s.lif ∧ s.selfRetract.wdu = s.wdu ∧
    s.selfRetract.ccu = s.ccu ∧ s.selfRetract.cfw = s.cfw ∧ s.selfRetract.mctl = s.mctl ∧
    s.selfRetract.sdram = s.sdram ∧ s.selfRetract.lpm = s.lpm ∧ s.selfRetract.xch = s.xch ∧
    s.selfRetract.mfn = s.mfn ∧ s.selfRetract.ord = s.ord ∧ s.selfRetract.ntu = s.ntu ∧ s.selfRetract.upb = s.upb ∧
    s.selfRetract.fresh = s.fresh ∧ s.selfRetract.pending = s.pending := by
  unfold State.selfRetract; (try dsimp only); (repeat' split) <;> simp_all

@[simp] theorem State.admSilent_keeps (s : State) :
    s.admSilent.now = s.now ∧ s.admSilent.rstn = s.rstn ∧ s.admSilent.pins = s.pins ∧ s.admSilent.sld = s.sld ∧
    s.admSilent.ptu = s.ptu ∧ s.admSilent.lif = s.lif ∧ s.admSilent.psq = s.psq ∧ s.admSilent.wdu = s.wdu ∧
    s.admSilent.ccu = s.ccu ∧ s.admSilent.cfw = s.cfw ∧ s.admSilent.mctl = s.mctl ∧ s.admSilent.sdram = s.sdram ∧
    s.admSilent.lpm = s.lpm ∧ s.admSilent.xch = s.xch ∧ s.admSilent.mfn = s.mfn ∧ s.admSilent.ord = s.ord ∧
    s.admSilent.ntu = s.ntu ∧ s.admSilent.upb = s.upb ∧ s.admSilent.fresh = s.fresh ∧
    s.admSilent.pending = s.pending := by
  unfold State.admSilent; (try dsimp only); (repeat' split) <;> simp_all

@[simp] theorem State.runDeadline_keeps (s : State) :
    s.runDeadline.now = s.now ∧ s.runDeadline.rstn = s.rstn ∧ s.runDeadline.pins = s.pins ∧
    s.runDeadline.sld = s.sld ∧ s.runDeadline.ptu = s.ptu ∧ s.runDeadline.lif = s.lif ∧ s.runDeadline.adm = s.adm ∧
    s.runDeadline.psq = s.psq ∧ s.runDeadline.ccu = s.ccu ∧ s.runDeadline.cfw = s.cfw ∧
    s.runDeadline.mctl = s.mctl ∧ s.runDeadline.sdram = s.sdram ∧ s.runDeadline.lpm = s.lpm ∧
    s.runDeadline.xch = s.xch ∧ s.runDeadline.mfn = s.mfn ∧ s.runDeadline.ord = s.ord ∧ s.runDeadline.ntu = s.ntu ∧
    s.runDeadline.upb = s.upb ∧ s.runDeadline.fresh = s.fresh ∧ s.runDeadline.pending = s.pending := by
  unfold State.runDeadline; (try dsimp only); (repeat' split) <;> simp_all

@[simp] theorem wduTakes_keeps (source action : Nat) (answer : OrderStatus × State) :
    (wduTakes source action answer).2.now = answer.2.now ∧ (wduTakes source action answer).2.rstn = answer.2.rstn ∧
    (wduTakes source action answer).2.pins = answer.2.pins ∧ (wduTakes source action answer).2.sld = answer.2.sld ∧
    (wduTakes source action answer).2.ptu = answer.2.ptu ∧ (wduTakes source action answer).2.lif = answer.2.lif ∧
    (wduTakes source action answer).2.adm = answer.2.adm ∧ (wduTakes source action answer).2.psq = answer.2.psq ∧
    (wduTakes source action answer).2.wdu = answer.2.wdu ∧ (wduTakes source action answer).2.ccu = answer.2.ccu ∧
    (wduTakes source action answer).2.cfw = answer.2.cfw ∧ (wduTakes source action answer).2.mctl = answer.2.mctl ∧
    (wduTakes source action answer).2.sdram = answer.2.sdram ∧
    (wduTakes source action answer).2.lpm = answer.2.lpm ∧ (wduTakes source action answer).2.xch = answer.2.xch ∧
    (wduTakes source action answer).2.mfn = answer.2.mfn ∧ (wduTakes source action answer).2.ord = answer.2.ord ∧
    (wduTakes source action answer).2.upb = answer.2.upb ∧
    (wduTakes source action answer).2.fresh = answer.2.fresh ∧
    (wduTakes source action answer).2.pending = answer.2.pending := by
  unfold wduTakes; (try dsimp only); (repeat' split) <;> simp_all

@[simp] theorem State.faultRequest_keeps (s : State) (source : Nat) (response : FaultAction) :
    (s.faultRequest source response).2.now = s.now ∧ (s.faultRequest source response).2.rstn = s.rstn ∧
    (s.faultRequest source response).2.pins = s.pins ∧ (s.faultRequest source response).2.sld = s.sld ∧
    (s.faultRequest source response).2.ptu = s.ptu ∧ (s.faultRequest source response).2.cfw = s.cfw ∧
    (s.faultRequest source response).2.sdram = s.sdram ∧ (s.faultRequest source response).2.ord = s.ord ∧
    (s.faultRequest source response).2.upb = s.upb ∧ (s.faultRequest source response).2.fresh = s.fresh ∧
    (s.faultRequest source response).2.pending = s.pending := by
  unfold State.faultRequest; (try dsimp only); (repeat' split) <;> simp_all

@[simp] theorem State.watchdogExpiry_keeps (s : State) (cause : Nat) :
    (s.watchdogExpiry cause).now = s.now ∧ (s.watchdogExpiry cause).rstn = s.rstn ∧
    (s.watchdogExpiry cause).pins = s.pins ∧ (s.watchdogExpiry cause).sld = s.sld ∧
    (s.watchdogExpiry cause).ptu = s.ptu ∧ (s.watchdogExpiry cause).cfw = s.cfw ∧
    (s.watchdogExpiry cause).sdram = s.sdram ∧ (s.watchdogExpiry cause).ord = s.ord ∧
    (s.watchdogExpiry cause).upb = s.upb ∧ (s.watchdogExpiry cause).fresh = s.fresh ∧
    (s.watchdogExpiry cause).pending = s.pending := by
  unfold State.watchdogExpiry; (try dsimp only); (repeat' split) <;> simp_all

@[simp] theorem State.heartbeat_keeps (s : State) (entry : Nat) :
    (s.heartbeat entry).now = s.now ∧ (s.heartbeat entry).rstn = s.rstn ∧ (s.heartbeat entry).pins = s.pins ∧
    (s.heartbeat entry).sld = s.sld ∧ (s.heartbeat entry).ptu = s.ptu ∧ (s.heartbeat entry).cfw = s.cfw ∧
    (s.heartbeat entry).sdram = s.sdram ∧ (s.heartbeat entry).ord = s.ord ∧ (s.heartbeat entry).upb = s.upb ∧
    (s.heartbeat entry).fresh = s.fresh ∧ (s.heartbeat entry).pending = s.pending := by
  unfold State.heartbeat; (try dsimp only); (repeat' split) <;> simp_all

@[simp] theorem State.panic_keeps (s : State) (entry endOffset : Nat) :
    (s.panic entry endOffset).now = s.now ∧ (s.panic entry endOffset).rstn = s.rstn ∧
    (s.panic entry endOffset).pins = s.pins ∧ (s.panic entry endOffset).sld = s.sld ∧
    (s.panic entry endOffset).ptu = s.ptu ∧ (s.panic entry endOffset).cfw = s.cfw ∧
    (s.panic entry endOffset).sdram = s.sdram ∧ (s.panic entry endOffset).ord = s.ord ∧
    (s.panic entry endOffset).upb = s.upb ∧ (s.panic entry endOffset).fresh = s.fresh ∧
    (s.panic entry endOffset).pending = s.pending := by
  unfold State.panic; (try dsimp only); (repeat' split) <;> simp_all

@[simp] theorem State.guardAsks_keeps (s : State) :
    s.guardAsks.now = s.now ∧ s.guardAsks.rstn = s.rstn ∧ s.guardAsks.pins = s.pins ∧ s.guardAsks.sld = s.sld ∧
    s.guardAsks.ptu = s.ptu ∧ s.guardAsks.ccu = s.ccu ∧ s.guardAsks.cfw = s.cfw ∧ s.guardAsks.sdram = s.sdram ∧
    s.guardAsks.ord = s.ord ∧ s.guardAsks.upb = s.upb ∧ s.guardAsks.fresh = s.fresh ∧
    s.guardAsks.pending = s.pending := by
  unfold State.guardAsks; (try dsimp only); (repeat' split) <;> simp_all

@[simp] theorem State.actArm_keeps (s : State) (timeout : Nat) (action : FaultAction) (guard : Bool) (boot : Nat) :
    (s.actArm timeout action guard boot).2.now = s.now ∧ (s.actArm timeout action guard boot).2.rstn = s.rstn ∧
    (s.actArm timeout action guard boot).2.pins = s.pins ∧ (s.actArm timeout action guard boot).2.sld = s.sld ∧
    (s.actArm timeout action guard boot).2.ptu = s.ptu ∧ (s.actArm timeout action guard boot).2.lif = s.lif ∧
    (s.actArm timeout action guard boot).2.adm = s.adm ∧ (s.actArm timeout action guard boot).2.psq = s.psq ∧
    (s.actArm timeout action guard boot).2.ccu = s.ccu ∧ (s.actArm timeout action guard boot).2.cfw = s.cfw ∧
    (s.actArm timeout action guard boot).2.mctl = s.mctl ∧ (s.actArm timeout action guard boot).2.sdram = s.sdram ∧
    (s.actArm timeout action guard boot).2.lpm = s.lpm ∧ (s.actArm timeout action guard boot).2.xch = s.xch ∧
    (s.actArm timeout action guard boot).2.mfn = s.mfn ∧ (s.actArm timeout action guard boot).2.ord = s.ord ∧
    (s.actArm timeout action guard boot).2.ntu = s.ntu ∧ (s.actArm timeout action guard boot).2.upb = s.upb ∧
    (s.actArm timeout action guard boot).2.fresh = s.fresh ∧
    (s.actArm timeout action guard boot).2.pending = s.pending := by
  unfold State.actArm; (try dsimp only); (repeat' split) <;> simp_all

@[simp] theorem State.actDisarm_keeps (s : State) :
    s.actDisarm.2.now = s.now ∧ s.actDisarm.2.rstn = s.rstn ∧ s.actDisarm.2.pins = s.pins ∧
    s.actDisarm.2.sld = s.sld ∧ s.actDisarm.2.ptu = s.ptu ∧ s.actDisarm.2.lif = s.lif ∧ s.actDisarm.2.adm = s.adm ∧
    s.actDisarm.2.psq = s.psq ∧ s.actDisarm.2.ccu = s.ccu ∧ s.actDisarm.2.cfw = s.cfw ∧
    s.actDisarm.2.mctl = s.mctl ∧ s.actDisarm.2.sdram = s.sdram ∧ s.actDisarm.2.lpm = s.lpm ∧
    s.actDisarm.2.xch = s.xch ∧ s.actDisarm.2.mfn = s.mfn ∧ s.actDisarm.2.ord = s.ord ∧ s.actDisarm.2.ntu = s.ntu ∧
    s.actDisarm.2.upb = s.upb ∧ s.actDisarm.2.fresh = s.fresh ∧ s.actDisarm.2.pending = s.pending := by
  unfold State.actDisarm; (try dsimp only); (repeat' split) <;> simp_all

@[simp] theorem State.actRetime_keeps (s : State) (timeout : Nat) :
    (s.actRetime timeout).2.now = s.now ∧ (s.actRetime timeout).2.rstn = s.rstn ∧
    (s.actRetime timeout).2.pins = s.pins ∧ (s.actRetime timeout).2.sld = s.sld ∧
    (s.actRetime timeout).2.ptu = s.ptu ∧ (s.actRetime timeout).2.lif = s.lif ∧
    (s.actRetime timeout).2.adm = s.adm ∧ (s.actRetime timeout).2.psq = s.psq ∧
    (s.actRetime timeout).2.ccu = s.ccu ∧ (s.actRetime timeout).2.cfw = s.cfw ∧
    (s.actRetime timeout).2.mctl = s.mctl ∧ (s.actRetime timeout).2.sdram = s.sdram ∧
    (s.actRetime timeout).2.lpm = s.lpm ∧ (s.actRetime timeout).2.xch = s.xch ∧
    (s.actRetime timeout).2.mfn = s.mfn ∧ (s.actRetime timeout).2.ord = s.ord ∧
    (s.actRetime timeout).2.ntu = s.ntu ∧ (s.actRetime timeout).2.upb = s.upb ∧
    (s.actRetime timeout).2.fresh = s.fresh ∧ (s.actRetime timeout).2.pending = s.pending := by
  unfold State.actRetime; (try dsimp only); (repeat' split) <;> simp_all

@[simp] theorem State.advanceGaps_keeps (s : State) :
    s.advanceGaps.now = s.now ∧ s.advanceGaps.rstn = s.rstn ∧ s.advanceGaps.pins = s.pins ∧
    s.advanceGaps.sld = s.sld ∧ s.advanceGaps.ptu = s.ptu ∧ s.advanceGaps.lif = s.lif ∧ s.advanceGaps.adm = s.adm ∧
    s.advanceGaps.psq = s.psq ∧ s.advanceGaps.wdu = s.wdu ∧ s.advanceGaps.ccu = s.ccu ∧
    s.advanceGaps.mctl = s.mctl ∧ s.advanceGaps.sdram = s.sdram ∧ s.advanceGaps.lpm = s.lpm ∧
    s.advanceGaps.xch = s.xch ∧ s.advanceGaps.mfn = s.mfn ∧ s.advanceGaps.ord = s.ord ∧ s.advanceGaps.ntu = s.ntu ∧
    s.advanceGaps.upb = s.upb ∧ s.advanceGaps.fresh = s.fresh ∧ s.advanceGaps.pending = s.pending := by
  unfold State.advanceGaps; (try dsimp only); (repeat' split) <;> simp_all

@[simp] theorem State.deliverMatch_keeps (s : State) (entry : Nat) (action : PatternAction) :
    (s.deliverMatch entry action).now = s.now ∧ (s.deliverMatch entry action).rstn = s.rstn ∧
    (s.deliverMatch entry action).pins = s.pins ∧ (s.deliverMatch entry action).sld = s.sld ∧
    (s.deliverMatch entry action).ptu = s.ptu ∧ (s.deliverMatch entry action).cfw = s.cfw ∧
    (s.deliverMatch entry action).sdram = s.sdram ∧ (s.deliverMatch entry action).ord = s.ord ∧
    (s.deliverMatch entry action).upb = s.upb ∧ (s.deliverMatch entry action).fresh = s.fresh ∧
    (s.deliverMatch entry action).pending = s.pending := by
  unfold State.deliverMatch; (try dsimp only); (repeat' split) <;> simp_all

@[simp] theorem State.foldl_deliverMatch_keeps (l : List (Nat × Pattern)) (s : State) :
    (l.foldl (fun t e => t.deliverMatch e.1 e.2.action) s).now = s.now ∧
    (l.foldl (fun t e => t.deliverMatch e.1 e.2.action) s).rstn = s.rstn ∧
    (l.foldl (fun t e => t.deliverMatch e.1 e.2.action) s).pins = s.pins ∧
    (l.foldl (fun t e => t.deliverMatch e.1 e.2.action) s).sld = s.sld ∧
    (l.foldl (fun t e => t.deliverMatch e.1 e.2.action) s).ptu = s.ptu ∧
    (l.foldl (fun t e => t.deliverMatch e.1 e.2.action) s).cfw = s.cfw ∧
    (l.foldl (fun t e => t.deliverMatch e.1 e.2.action) s).sdram = s.sdram ∧
    (l.foldl (fun t e => t.deliverMatch e.1 e.2.action) s).ord = s.ord ∧
    (l.foldl (fun t e => t.deliverMatch e.1 e.2.action) s).upb = s.upb ∧
    (l.foldl (fun t e => t.deliverMatch e.1 e.2.action) s).fresh = s.fresh ∧
    (l.foldl (fun t e => t.deliverMatch e.1 e.2.action) s).pending = s.pending := by
  induction l generalizing s <;> simp_all

@[simp] theorem State.deliverMatches_keeps (s : State) :
    s.deliverMatches.now = s.now ∧ s.deliverMatches.rstn = s.rstn ∧ s.deliverMatches.pins = s.pins ∧
    s.deliverMatches.sld = s.sld ∧ s.deliverMatches.ptu = s.ptu ∧ s.deliverMatches.cfw = s.cfw ∧
    s.deliverMatches.sdram = s.sdram ∧ s.deliverMatches.ord = s.ord ∧ s.deliverMatches.upb = s.upb ∧
    s.deliverMatches.fresh = s.fresh ∧ s.deliverMatches.pending = s.pending := by
  unfold State.deliverMatches; (try dsimp only); (repeat' split) <;> simp_all

@[simp] theorem State.goodByte_keeps (s : State) (b : Byte) :
    (s.goodByte b).now = s.now ∧ (s.goodByte b).rstn = s.rstn ∧ (s.goodByte b).pins = s.pins ∧
    (s.goodByte b).sld = s.sld ∧ (s.goodByte b).ptu = s.ptu ∧ (s.goodByte b).sdram = s.sdram ∧
    (s.goodByte b).ord = s.ord ∧ (s.goodByte b).upb = s.upb ∧ (s.goodByte b).fresh = s.fresh ∧
    (s.goodByte b).pending = s.pending := by
  unfold State.goodByte; (try dsimp only); (repeat' split) <;> simp_all

@[simp] theorem State.captureStored_keeps (s : State) (n : Nat) :
    (s.captureStored n).now = s.now ∧ (s.captureStored n).rstn = s.rstn ∧ (s.captureStored n).pins = s.pins ∧
    (s.captureStored n).sld = s.sld ∧ (s.captureStored n).ptu = s.ptu ∧ (s.captureStored n).lif = s.lif ∧
    (s.captureStored n).adm = s.adm ∧ (s.captureStored n).psq = s.psq ∧ (s.captureStored n).wdu = s.wdu ∧
    (s.captureStored n).mctl = s.mctl ∧ (s.captureStored n).lpm = s.lpm ∧ (s.captureStored n).xch = s.xch ∧
    (s.captureStored n).mfn = s.mfn ∧ (s.captureStored n).ord = s.ord ∧ (s.captureStored n).ntu = s.ntu ∧
    (s.captureStored n).upb = s.upb ∧ (s.captureStored n).fresh = s.fresh ∧ (s.captureStored n).pending = s.pending := by
  unfold State.captureStored; (try dsimp only); (repeat' split) <;> simp_all

@[simp] theorem State.clearOut_keeps (s : State) :
    s.clearOut.now = s.now ∧ s.clearOut.rstn = s.rstn ∧ s.clearOut.pins = s.pins ∧ s.clearOut.sld = s.sld ∧
    s.clearOut.ptu = s.ptu ∧ s.clearOut.lif = s.lif ∧ s.clearOut.adm = s.adm ∧ s.clearOut.psq = s.psq ∧
    s.clearOut.wdu = s.wdu ∧ s.clearOut.ccu = s.ccu ∧ s.clearOut.mctl = s.mctl ∧ s.clearOut.sdram = s.sdram ∧
    s.clearOut.lpm = s.lpm ∧ s.clearOut.xch = s.xch ∧ s.clearOut.mfn = s.mfn ∧ s.clearOut.ord = s.ord ∧
    s.clearOut.ntu = s.ntu ∧ s.clearOut.upb = s.upb ∧ s.clearOut.fresh = s.fresh ∧ s.clearOut.pending = s.pending := by
  unfold State.clearOut; (try dsimp only); (repeat' split) <;> simp_all

@[simp] theorem State.endOut_keeps (s : State) (station : Nat) :
    (s.endOut station).now = s.now ∧ (s.endOut station).rstn = s.rstn ∧ (s.endOut station).pins = s.pins ∧
    (s.endOut station).sld = s.sld ∧ (s.endOut station).ptu = s.ptu ∧ (s.endOut station).adm = s.adm ∧
    (s.endOut station).psq = s.psq ∧ (s.endOut station).wdu = s.wdu ∧ (s.endOut station).ccu = s.ccu ∧
    (s.endOut station).sdram = s.sdram ∧ (s.endOut station).lpm = s.lpm ∧ (s.endOut station).xch = s.xch ∧
    (s.endOut station).mfn = s.mfn ∧ (s.endOut station).ord = s.ord ∧ (s.endOut station).ntu = s.ntu ∧
    (s.endOut station).upb = s.upb ∧ (s.endOut station).fresh = s.fresh ∧ (s.endOut station).pending = s.pending := by
  unfold State.endOut; (try dsimp only); (repeat' split) <;> simp_all

@[simp] theorem State.dropWatcher_keeps (s : State) (station : Nat) :
    (s.dropWatcher station).now = s.now ∧ (s.dropWatcher station).rstn = s.rstn ∧
    (s.dropWatcher station).pins = s.pins ∧ (s.dropWatcher station).sld = s.sld ∧
    (s.dropWatcher station).ptu = s.ptu ∧ (s.dropWatcher station).adm = s.adm ∧
    (s.dropWatcher station).psq = s.psq ∧ (s.dropWatcher station).wdu = s.wdu ∧
    (s.dropWatcher station).ccu = s.ccu ∧ (s.dropWatcher station).sdram = s.sdram ∧
    (s.dropWatcher station).lpm = s.lpm ∧ (s.dropWatcher station).xch = s.xch ∧
    (s.dropWatcher station).mfn = s.mfn ∧ (s.dropWatcher station).ord = s.ord ∧
    (s.dropWatcher station).ntu = s.ntu ∧ (s.dropWatcher station).upb = s.upb ∧
    (s.dropWatcher station).fresh = s.fresh ∧ (s.dropWatcher station).pending = s.pending := by
  unfold State.dropWatcher; (try dsimp only); (repeat' split) <;> simp_all

@[simp] theorem State.actWatch_keeps (s : State) (station mode offset : Nat) :
    (s.actWatch station mode offset).2.2.now = s.now ∧ (s.actWatch station mode offset).2.2.rstn = s.rstn ∧
    (s.actWatch station mode offset).2.2.pins = s.pins ∧ (s.actWatch station mode offset).2.2.sld = s.sld ∧
    (s.actWatch station mode offset).2.2.ptu = s.ptu ∧ (s.actWatch station mode offset).2.2.adm = s.adm ∧
    (s.actWatch station mode offset).2.2.psq = s.psq ∧ (s.actWatch station mode offset).2.2.wdu = s.wdu ∧
    (s.actWatch station mode offset).2.2.ccu = s.ccu ∧ (s.actWatch station mode offset).2.2.sdram = s.sdram ∧
    (s.actWatch station mode offset).2.2.lpm = s.lpm ∧ (s.actWatch station mode offset).2.2.xch = s.xch ∧
    (s.actWatch station mode offset).2.2.mfn = s.mfn ∧ (s.actWatch station mode offset).2.2.ord = s.ord ∧
    (s.actWatch station mode offset).2.2.ntu = s.ntu ∧ (s.actWatch station mode offset).2.2.upb = s.upb ∧
    (s.actWatch station mode offset).2.2.fresh = s.fresh ∧ (s.actWatch station mode offset).2.2.pending = s.pending := by
  unfold State.actWatch; (try dsimp only); (repeat' split) <;> simp_all

@[simp] theorem State.actUnwatch_keeps (s : State) (station : Nat) :
    (s.actUnwatch station).2.now = s.now ∧ (s.actUnwatch station).2.rstn = s.rstn ∧
    (s.actUnwatch station).2.pins = s.pins ∧ (s.actUnwatch station).2.sld = s.sld ∧
    (s.actUnwatch station).2.ptu = s.ptu ∧ (s.actUnwatch station).2.adm = s.adm ∧
    (s.actUnwatch station).2.psq = s.psq ∧ (s.actUnwatch station).2.wdu = s.wdu ∧
    (s.actUnwatch station).2.ccu = s.ccu ∧ (s.actUnwatch station).2.sdram = s.sdram ∧
    (s.actUnwatch station).2.lpm = s.lpm ∧ (s.actUnwatch station).2.xch = s.xch ∧
    (s.actUnwatch station).2.mfn = s.mfn ∧ (s.actUnwatch station).2.ord = s.ord ∧
    (s.actUnwatch station).2.ntu = s.ntu ∧ (s.actUnwatch station).2.upb = s.upb ∧
    (s.actUnwatch station).2.fresh = s.fresh ∧ (s.actUnwatch station).2.pending = s.pending := by
  unfold State.actUnwatch; (try dsimp only); (repeat' split) <;> simp_all

@[simp] theorem State.serveWatcher_keeps (s : State) :
    s.serveWatcher.now = s.now ∧ s.serveWatcher.rstn = s.rstn ∧ s.serveWatcher.pins = s.pins ∧
    s.serveWatcher.sld = s.sld ∧ s.serveWatcher.ptu = s.ptu ∧ s.serveWatcher.lif = s.lif ∧
    s.serveWatcher.adm = s.adm ∧ s.serveWatcher.psq = s.psq ∧ s.serveWatcher.wdu = s.wdu ∧
    s.serveWatcher.ccu = s.ccu ∧ s.serveWatcher.sdram = s.sdram ∧ s.serveWatcher.lpm = s.lpm ∧
    s.serveWatcher.xch = s.xch ∧ s.serveWatcher.mfn = s.mfn ∧ s.serveWatcher.ord = s.ord ∧
    s.serveWatcher.ntu = s.ntu ∧ s.serveWatcher.upb = s.upb ∧ s.serveWatcher.fresh = s.fresh ∧
    s.serveWatcher.pending = s.pending := by
  unfold State.serveWatcher; (try dsimp only); (repeat' split) <;> simp_all

@[simp] theorem State.forwardRead_keeps (s : State) (first finish : Nat) :
    (s.forwardRead first finish).now = s.now ∧ (s.forwardRead first finish).rstn = s.rstn ∧
    (s.forwardRead first finish).pins = s.pins ∧ (s.forwardRead first finish).sld = s.sld ∧
    (s.forwardRead first finish).ptu = s.ptu ∧ (s.forwardRead first finish).lif = s.lif ∧
    (s.forwardRead first finish).adm = s.adm ∧ (s.forwardRead first finish).psq = s.psq ∧
    (s.forwardRead first finish).wdu = s.wdu ∧ (s.forwardRead first finish).ccu = s.ccu ∧
    (s.forwardRead first finish).mctl = s.mctl ∧ (s.forwardRead first finish).sdram = s.sdram ∧
    (s.forwardRead first finish).lpm = s.lpm ∧ (s.forwardRead first finish).xch = s.xch ∧
    (s.forwardRead first finish).mfn = s.mfn ∧ (s.forwardRead first finish).ord = s.ord ∧
    (s.forwardRead first finish).ntu = s.ntu ∧ (s.forwardRead first finish).upb = s.upb ∧
    (s.forwardRead first finish).fresh = s.fresh ∧ (s.forwardRead first finish).pending = s.pending := by
  unfold State.forwardRead; (try dsimp only); (repeat' split) <;> simp_all

@[simp] theorem State.outBack_keeps (s : State) (seq : Nat) :
    (s.outBack seq).now = s.now ∧ (s.outBack seq).rstn = s.rstn ∧ (s.outBack seq).pins = s.pins ∧
    (s.outBack seq).sld = s.sld ∧ (s.outBack seq).ptu = s.ptu ∧ (s.outBack seq).adm = s.adm ∧
    (s.outBack seq).psq = s.psq ∧ (s.outBack seq).wdu = s.wdu ∧ (s.outBack seq).ccu = s.ccu ∧
    (s.outBack seq).sdram = s.sdram ∧ (s.outBack seq).lpm = s.lpm ∧ (s.outBack seq).xch = s.xch ∧
    (s.outBack seq).mfn = s.mfn ∧ (s.outBack seq).ord = s.ord ∧ (s.outBack seq).ntu = s.ntu ∧
    (s.outBack seq).upb = s.upb ∧ (s.outBack seq).fresh = s.fresh ∧ (s.outBack seq).pending = s.pending := by
  unfold State.outBack; (try dsimp only); (repeat' split) <;> simp_all

@[simp] theorem State.outEnded_keeps (s : State) (seq : Nat) (change : Watcher → Watcher) :
    (s.outEnded seq change).now = s.now ∧ (s.outEnded seq change).rstn = s.rstn ∧
    (s.outEnded seq change).pins = s.pins ∧ (s.outEnded seq change).sld = s.sld ∧
    (s.outEnded seq change).ptu = s.ptu ∧ (s.outEnded seq change).lif = s.lif ∧
    (s.outEnded seq change).adm = s.adm ∧ (s.outEnded seq change).psq = s.psq ∧
    (s.outEnded seq change).wdu = s.wdu ∧ (s.outEnded seq change).ccu = s.ccu ∧
    (s.outEnded seq change).mctl = s.mctl ∧ (s.outEnded seq change).sdram = s.sdram ∧
    (s.outEnded seq change).lpm = s.lpm ∧ (s.outEnded seq change).xch = s.xch ∧
    (s.outEnded seq change).mfn = s.mfn ∧ (s.outEnded seq change).ord = s.ord ∧
    (s.outEnded seq change).ntu = s.ntu ∧ (s.outEnded seq change).upb = s.upb ∧
    (s.outEnded seq change).fresh = s.fresh ∧ (s.outEnded seq change).pending = s.pending := by
  unfold State.outEnded; (try dsimp only); (repeat' split) <;> simp_all

@[simp] theorem State.cfwSilent_keeps (s : State) :
    s.cfwSilent.now = s.now ∧ s.cfwSilent.rstn = s.rstn ∧ s.cfwSilent.pins = s.pins ∧ s.cfwSilent.sld = s.sld ∧
    s.cfwSilent.ptu = s.ptu ∧ s.cfwSilent.lif = s.lif ∧ s.cfwSilent.adm = s.adm ∧ s.cfwSilent.psq = s.psq ∧
    s.cfwSilent.wdu = s.wdu ∧ s.cfwSilent.ccu = s.ccu ∧ s.cfwSilent.sdram = s.sdram ∧ s.cfwSilent.lpm = s.lpm ∧
    s.cfwSilent.xch = s.xch ∧ s.cfwSilent.mfn = s.mfn ∧ s.cfwSilent.ord = s.ord ∧ s.cfwSilent.ntu = s.ntu ∧
    s.cfwSilent.upb = s.upb ∧ s.cfwSilent.fresh = s.fresh ∧ s.cfwSilent.pending = s.pending := by
  unfold State.cfwSilent; (try dsimp only); (repeat' split) <;> simp_all

@[simp] theorem State.actBreak_keeps (s : State) (station : Nat) :
    (s.actBreak station).2.now = s.now ∧ (s.actBreak station).2.rstn = s.rstn ∧
    (s.actBreak station).2.pins = s.pins ∧ (s.actBreak station).2.sld = s.sld ∧
    (s.actBreak station).2.ptu = s.ptu ∧ (s.actBreak station).2.lif = s.lif ∧ (s.actBreak station).2.adm = s.adm ∧
    (s.actBreak station).2.psq = s.psq ∧ (s.actBreak station).2.wdu = s.wdu ∧ (s.actBreak station).2.ccu = s.ccu ∧
    (s.actBreak station).2.mctl = s.mctl ∧ (s.actBreak station).2.sdram = s.sdram ∧
    (s.actBreak station).2.lpm = s.lpm ∧ (s.actBreak station).2.xch = s.xch ∧ (s.actBreak station).2.mfn = s.mfn ∧
    (s.actBreak station).2.ord = s.ord ∧ (s.actBreak station).2.ntu = s.ntu ∧ (s.actBreak station).2.upb = s.upb ∧
    (s.actBreak station).2.fresh = s.fresh ∧ (s.actBreak station).2.pending = s.pending := by
  unfold State.actBreak; (try dsimp only); (repeat' split) <;> simp_all

@[simp] theorem State.startInput_keeps (s : State) :
    s.startInput.now = s.now ∧ s.startInput.rstn = s.rstn ∧ s.startInput.pins = s.pins ∧ s.startInput.sld = s.sld ∧
    s.startInput.ptu = s.ptu ∧ s.startInput.lif = s.lif ∧ s.startInput.adm = s.adm ∧ s.startInput.psq = s.psq ∧
    s.startInput.wdu = s.wdu ∧ s.startInput.mctl = s.mctl ∧ s.startInput.sdram = s.sdram ∧
    s.startInput.lpm = s.lpm ∧ s.startInput.xch = s.xch ∧ s.startInput.mfn = s.mfn ∧ s.startInput.ord = s.ord ∧
    s.startInput.ntu = s.ntu ∧ s.startInput.upb = s.upb ∧ s.startInput.fresh = s.fresh ∧
    s.startInput.pending = s.pending := by
  unfold State.startInput; (try dsimp only); (repeat' split) <;> simp_all

@[simp] theorem State.evalMismatch_keeps (s : State) :
    s.evalMismatch.now = s.now ∧ s.evalMismatch.rstn = s.rstn ∧ s.evalMismatch.pins = s.pins ∧
    s.evalMismatch.sld = s.sld ∧ s.evalMismatch.lif = s.lif ∧ s.evalMismatch.adm = s.adm ∧
    s.evalMismatch.psq = s.psq ∧ s.evalMismatch.wdu = s.wdu ∧ s.evalMismatch.ccu = s.ccu ∧
    s.evalMismatch.cfw = s.cfw ∧ s.evalMismatch.mctl = s.mctl ∧ s.evalMismatch.sdram = s.sdram ∧
    s.evalMismatch.lpm = s.lpm ∧ s.evalMismatch.xch = s.xch ∧ s.evalMismatch.mfn = s.mfn ∧
    s.evalMismatch.ord = s.ord ∧ s.evalMismatch.upb = s.upb ∧ s.evalMismatch.fresh = s.fresh ∧
    s.evalMismatch.pending = s.pending := by
  unfold State.evalMismatch; (try dsimp only); (repeat' split) <;> simp_all

@[simp] theorem State.heard_keeps (s : State) (x : Nat) :
    (s.heard x).now = s.now ∧ (s.heard x).rstn = s.rstn ∧ (s.heard x).pins = s.pins ∧ (s.heard x).sld = s.sld ∧
    (s.heard x).lif = s.lif ∧ (s.heard x).adm = s.adm ∧ (s.heard x).psq = s.psq ∧ (s.heard x).wdu = s.wdu ∧
    (s.heard x).ccu = s.ccu ∧ (s.heard x).cfw = s.cfw ∧ (s.heard x).mctl = s.mctl ∧ (s.heard x).sdram = s.sdram ∧
    (s.heard x).lpm = s.lpm ∧ (s.heard x).xch = s.xch ∧ (s.heard x).mfn = s.mfn ∧ (s.heard x).ord = s.ord ∧
    (s.heard x).ntu = s.ntu ∧ (s.heard x).upb = s.upb ∧ (s.heard x).fresh = s.fresh ∧
    (s.heard x).pending = s.pending := by
  unfold State.heard; (try dsimp only); (repeat' split) <;> simp_all

@[simp] theorem State.beaconEntry_keeps (s : State) (x : Nat) (b : Beacon) :
    (s.beaconEntry x b).now = s.now ∧ (s.beaconEntry x b).rstn = s.rstn ∧ (s.beaconEntry x b).pins = s.pins ∧
    (s.beaconEntry x b).sld = s.sld ∧ (s.beaconEntry x b).lif = s.lif ∧ (s.beaconEntry x b).adm = s.adm ∧
    (s.beaconEntry x b).psq = s.psq ∧ (s.beaconEntry x b).wdu = s.wdu ∧ (s.beaconEntry x b).ccu = s.ccu ∧
    (s.beaconEntry x b).cfw = s.cfw ∧ (s.beaconEntry x b).mctl = s.mctl ∧ (s.beaconEntry x b).sdram = s.sdram ∧
    (s.beaconEntry x b).lpm = s.lpm ∧ (s.beaconEntry x b).xch = s.xch ∧ (s.beaconEntry x b).mfn = s.mfn ∧
    (s.beaconEntry x b).ord = s.ord ∧ (s.beaconEntry x b).upb = s.upb ∧ (s.beaconEntry x b).fresh = s.fresh ∧
    (s.beaconEntry x b).pending = s.pending := by
  unfold State.beaconEntry; (try dsimp only); (repeat' split) <;> simp_all

@[simp] theorem State.loseClaim_keeps (s : State) (x cause : Nat) :
    (s.loseClaim x cause).now = s.now ∧ (s.loseClaim x cause).rstn = s.rstn ∧ (s.loseClaim x cause).pins = s.pins ∧
    (s.loseClaim x cause).sld = s.sld ∧ (s.loseClaim x cause).ptu = s.ptu ∧ (s.loseClaim x cause).lif = s.lif ∧
    (s.loseClaim x cause).adm = s.adm ∧ (s.loseClaim x cause).psq = s.psq ∧ (s.loseClaim x cause).wdu = s.wdu ∧
    (s.loseClaim x cause).ccu = s.ccu ∧ (s.loseClaim x cause).cfw = s.cfw ∧ (s.loseClaim x cause).mctl = s.mctl ∧
    (s.loseClaim x cause).sdram = s.sdram ∧ (s.loseClaim x cause).lpm = s.lpm ∧ (s.loseClaim x cause).xch = s.xch ∧
    (s.loseClaim x cause).mfn = s.mfn ∧ (s.loseClaim x cause).upb = s.upb ∧ (s.loseClaim x cause).fresh = s.fresh ∧
    (s.loseClaim x cause).pending = s.pending := by
  unfold State.loseClaim; (try dsimp only); (repeat' split) <;> simp_all

@[simp] theorem State.roleReported_keeps (s : State) (x : Nat) (role : Role) :
    (s.roleReported x role).now = s.now ∧ (s.roleReported x role).rstn = s.rstn ∧
    (s.roleReported x role).pins = s.pins ∧ (s.roleReported x role).sld = s.sld ∧
    (s.roleReported x role).ptu = s.ptu ∧ (s.roleReported x role).sdram = s.sdram ∧
    (s.roleReported x role).upb = s.upb ∧ (s.roleReported x role).fresh = s.fresh ∧
    (s.roleReported x role).pending = s.pending := by
  unfold State.roleReported; (try dsimp only); (repeat' split) <;> simp_all

@[simp] theorem State.beaconSeen_keeps (s : State) (x : Nat) (b : Beacon) :
    (s.beaconSeen x b).now = s.now ∧ (s.beaconSeen x b).rstn = s.rstn ∧ (s.beaconSeen x b).pins = s.pins ∧
    (s.beaconSeen x b).sld = s.sld ∧ (s.beaconSeen x b).sdram = s.sdram ∧ (s.beaconSeen x b).upb = s.upb ∧
    (s.beaconSeen x b).fresh = s.fresh ∧ (s.beaconSeen x b).pending = s.pending := by
  unfold State.beaconSeen; (try dsimp only); (repeat' split) <;> simp_all

@[simp] theorem State.declareAbsent_keeps (s : State) (x : Nat) :
    (s.declareAbsent x).now = s.now ∧ (s.declareAbsent x).rstn = s.rstn ∧ (s.declareAbsent x).pins = s.pins ∧
    (s.declareAbsent x).sld = s.sld ∧ (s.declareAbsent x).sdram = s.sdram ∧ (s.declareAbsent x).upb = s.upb ∧
    (s.declareAbsent x).fresh = s.fresh ∧ (s.declareAbsent x).pending = s.pending := by
  unfold State.declareAbsent; (try dsimp only); (repeat' split) <;> simp_all

@[simp] theorem State.foldl_declareAbsent_keeps (l : List Nat) (s : State) :
    (l.foldl State.declareAbsent s).now = s.now ∧ (l.foldl State.declareAbsent s).rstn = s.rstn ∧
    (l.foldl State.declareAbsent s).pins = s.pins ∧ (l.foldl State.declareAbsent s).sld = s.sld ∧
    (l.foldl State.declareAbsent s).sdram = s.sdram ∧ (l.foldl State.declareAbsent s).upb = s.upb ∧
    (l.foldl State.declareAbsent s).fresh = s.fresh ∧ (l.foldl State.declareAbsent s).pending = s.pending := by
  induction l generalizing s <;> simp_all

@[simp] theorem State.agePeers_keeps (s : State) :
    s.agePeers.now = s.now ∧ s.agePeers.rstn = s.rstn ∧ s.agePeers.pins = s.pins ∧ s.agePeers.sld = s.sld ∧
    s.agePeers.sdram = s.sdram ∧ s.agePeers.upb = s.upb ∧ s.agePeers.fresh = s.fresh ∧
    s.agePeers.pending = s.pending := by
  unfold State.agePeers; (try dsimp only); (repeat' split) <;> simp_all

@[simp] theorem State.offerBeacon_keeps (s : State) :
    s.offerBeacon.now = s.now ∧ s.offerBeacon.rstn = s.rstn ∧ s.offerBeacon.pins = s.pins ∧
    s.offerBeacon.sld = s.sld ∧ s.offerBeacon.adm = s.adm ∧ s.offerBeacon.psq = s.psq ∧ s.offerBeacon.wdu = s.wdu ∧
    s.offerBeacon.ccu = s.ccu ∧ s.offerBeacon.cfw = s.cfw ∧ s.offerBeacon.sdram = s.sdram ∧
    s.offerBeacon.lpm = s.lpm ∧ s.offerBeacon.xch = s.xch ∧ s.offerBeacon.mfn = s.mfn ∧ s.offerBeacon.ord = s.ord ∧
    s.offerBeacon.ntu = s.ntu ∧ s.offerBeacon.upb = s.upb ∧ s.offerBeacon.fresh = s.fresh ∧
    s.offerBeacon.pending = s.pending := by
  unfold State.offerBeacon; (try dsimp only); (repeat' split) <;> simp_all

@[simp] theorem State.enterMember_keeps (s : State) :
    s.enterMember.now = s.now ∧ s.enterMember.rstn = s.rstn ∧ s.enterMember.pins = s.pins ∧
    s.enterMember.sld = s.sld ∧ s.enterMember.lif = s.lif ∧ s.enterMember.wdu = s.wdu ∧ s.enterMember.ccu = s.ccu ∧
    s.enterMember.cfw = s.cfw ∧ s.enterMember.mctl = s.mctl ∧ s.enterMember.sdram = s.sdram ∧
    s.enterMember.lpm = s.lpm ∧ s.enterMember.xch = s.xch ∧ s.enterMember.mfn = s.mfn ∧ s.enterMember.ord = s.ord ∧
    s.enterMember.ntu = s.ntu ∧ s.enterMember.upb = s.upb ∧ s.enterMember.fresh = s.fresh ∧
    s.enterMember.pending = s.pending := by
  unfold State.enterMember; (try dsimp only); (repeat' split) <;> simp_all

@[simp] theorem State.applyRetire_keeps (s : State) (image gen : Nat) :
    (s.applyRetire image gen).now = s.now ∧ (s.applyRetire image gen).rstn = s.rstn ∧
    (s.applyRetire image gen).pins = s.pins ∧ (s.applyRetire image gen).sld = s.sld ∧
    (s.applyRetire image gen).ptu = s.ptu ∧ (s.applyRetire image gen).adm = s.adm ∧
    (s.applyRetire image gen).psq = s.psq ∧ (s.applyRetire image gen).wdu = s.wdu ∧
    (s.applyRetire image gen).ccu = s.ccu ∧ (s.applyRetire image gen).cfw = s.cfw ∧
    (s.applyRetire image gen).sdram = s.sdram ∧ (s.applyRetire image gen).ord = s.ord ∧
    (s.applyRetire image gen).upb = s.upb ∧ (s.applyRetire image gen).fresh = s.fresh ∧
    (s.applyRetire image gen).pending = s.pending := by
  unfold State.applyRetire; (try dsimp only); (repeat' split) <;> simp_all

@[simp] theorem State.seeWant_keeps (s : State) (key : Key) :
    (s.seeWant key).now = s.now ∧ (s.seeWant key).rstn = s.rstn ∧ (s.seeWant key).pins = s.pins ∧
    (s.seeWant key).sld = s.sld ∧ (s.seeWant key).ptu = s.ptu ∧ (s.seeWant key).adm = s.adm ∧
    (s.seeWant key).psq = s.psq ∧ (s.seeWant key).wdu = s.wdu ∧ (s.seeWant key).ccu = s.ccu ∧
    (s.seeWant key).cfw = s.cfw ∧ (s.seeWant key).sdram = s.sdram ∧ (s.seeWant key).mfn = s.mfn ∧
    (s.seeWant key).ord = s.ord ∧ (s.seeWant key).ntu = s.ntu ∧ (s.seeWant key).upb = s.upb ∧
    (s.seeWant key).fresh = s.fresh ∧ (s.seeWant key).pending = s.pending := by
  unfold State.seeWant; (try dsimp only); (repeat' split) <;> simp_all

@[simp] theorem State.seeGive_keeps (s : State) (key : Key) (data : Bytes) :
    (s.seeGive key data).now = s.now ∧ (s.seeGive key data).rstn = s.rstn ∧ (s.seeGive key data).pins = s.pins ∧
    (s.seeGive key data).sld = s.sld ∧ (s.seeGive key data).ptu = s.ptu ∧ (s.seeGive key data).adm = s.adm ∧
    (s.seeGive key data).psq = s.psq ∧ (s.seeGive key data).wdu = s.wdu ∧ (s.seeGive key data).ccu = s.ccu ∧
    (s.seeGive key data).cfw = s.cfw ∧ (s.seeGive key data).sdram = s.sdram ∧ (s.seeGive key data).mfn = s.mfn ∧
    (s.seeGive key data).ord = s.ord ∧ (s.seeGive key data).ntu = s.ntu ∧ (s.seeGive key data).fresh = s.fresh ∧
    (s.seeGive key data).pending = s.pending := by
  unfold State.seeGive; (try dsimp only); (repeat' split) <;> simp_all

@[simp] theorem State.xchFrame_keeps (s : State) (f : LaneFrame) (kind : FrameKind) :
    (s.xchFrame f kind).now = s.now ∧ (s.xchFrame f kind).rstn = s.rstn ∧ (s.xchFrame f kind).pins = s.pins ∧
    (s.xchFrame f kind).sld = s.sld ∧ (s.xchFrame f kind).ptu = s.ptu ∧ (s.xchFrame f kind).adm = s.adm ∧
    (s.xchFrame f kind).psq = s.psq ∧ (s.xchFrame f kind).wdu = s.wdu ∧ (s.xchFrame f kind).ccu = s.ccu ∧
    (s.xchFrame f kind).cfw = s.cfw ∧ (s.xchFrame f kind).sdram = s.sdram ∧ (s.xchFrame f kind).ord = s.ord ∧
    (s.xchFrame f kind).fresh = s.fresh ∧ (s.xchFrame f kind).pending = s.pending := by
  unfold State.xchFrame; (try dsimp only); (repeat' split) <;> simp_all

@[simp] theorem State.presentBlocks_keeps (s : State) (f : LaneFrame) :
    (s.presentBlocks f).now = s.now ∧ (s.presentBlocks f).rstn = s.rstn ∧ (s.presentBlocks f).pins = s.pins ∧
    (s.presentBlocks f).sld = s.sld ∧ (s.presentBlocks f).ptu = s.ptu ∧ (s.presentBlocks f).cfw = s.cfw ∧
    (s.presentBlocks f).sdram = s.sdram ∧ (s.presentBlocks f).ord = s.ord ∧ (s.presentBlocks f).fresh = s.fresh ∧
    (s.presentBlocks f).pending = s.pending := by
  unfold State.presentBlocks; (try dsimp only); (repeat' split) <;> simp_all

@[simp] theorem State.present_keeps (s : State) (f : LaneFrame) :
    (s.present f).now = s.now ∧ (s.present f).rstn = s.rstn ∧ (s.present f).pins = s.pins ∧
    (s.present f).sld = s.sld ∧ (s.present f).sdram = s.sdram ∧ (s.present f).fresh = s.fresh ∧
    (s.present f).pending = s.pending := by
  unfold State.present; (try dsimp only); (repeat' split) <;> simp_all

@[simp] theorem State.reportAdm_keeps (s : State) (seq : Nat) (r : Report) :
    (s.reportAdm seq r).now = s.now ∧ (s.reportAdm seq r).rstn = s.rstn ∧ (s.reportAdm seq r).pins = s.pins ∧
    (s.reportAdm seq r).sld = s.sld ∧ (s.reportAdm seq r).ptu = s.ptu ∧ (s.reportAdm seq r).wdu = s.wdu ∧
    (s.reportAdm seq r).ccu = s.ccu ∧ (s.reportAdm seq r).cfw = s.cfw ∧ (s.reportAdm seq r).sdram = s.sdram ∧
    (s.reportAdm seq r).lpm = s.lpm ∧ (s.reportAdm seq r).xch = s.xch ∧ (s.reportAdm seq r).mfn = s.mfn ∧
    (s.reportAdm seq r).ord = s.ord ∧ (s.reportAdm seq r).ntu = s.ntu ∧ (s.reportAdm seq r).upb = s.upb ∧
    (s.reportAdm seq r).fresh = s.fresh ∧ (s.reportAdm seq r).pending = s.pending := by
  unfold State.reportAdm; (try dsimp only); (repeat' split) <;> simp_all

@[simp] theorem State.reportCfw_keeps (s : State) (seq : Nat) (r : Report) :
    (s.reportCfw seq r).now = s.now ∧ (s.reportCfw seq r).rstn = s.rstn ∧ (s.reportCfw seq r).pins = s.pins ∧
    (s.reportCfw seq r).sld = s.sld ∧ (s.reportCfw seq r).ptu = s.ptu ∧ (s.reportCfw seq r).adm = s.adm ∧
    (s.reportCfw seq r).psq = s.psq ∧ (s.reportCfw seq r).wdu = s.wdu ∧ (s.reportCfw seq r).ccu = s.ccu ∧
    (s.reportCfw seq r).sdram = s.sdram ∧ (s.reportCfw seq r).lpm = s.lpm ∧ (s.reportCfw seq r).xch = s.xch ∧
    (s.reportCfw seq r).mfn = s.mfn ∧ (s.reportCfw seq r).ord = s.ord ∧ (s.reportCfw seq r).ntu = s.ntu ∧
    (s.reportCfw seq r).upb = s.upb ∧ (s.reportCfw seq r).fresh = s.fresh ∧ (s.reportCfw seq r).pending = s.pending := by
  unfold State.reportCfw; (try dsimp only); (repeat' split) <;> simp_all

@[simp] theorem State.reportWant_keeps (s : State) (seq : Nat) (r : Report) :
    (s.reportWant seq r).now = s.now ∧ (s.reportWant seq r).rstn = s.rstn ∧ (s.reportWant seq r).pins = s.pins ∧
    (s.reportWant seq r).sld = s.sld ∧ (s.reportWant seq r).ptu = s.ptu ∧ (s.reportWant seq r).lif = s.lif ∧
    (s.reportWant seq r).adm = s.adm ∧ (s.reportWant seq r).psq = s.psq ∧ (s.reportWant seq r).wdu = s.wdu ∧
    (s.reportWant seq r).ccu = s.ccu ∧ (s.reportWant seq r).cfw = s.cfw ∧ (s.reportWant seq r).mctl = s.mctl ∧
    (s.reportWant seq r).sdram = s.sdram ∧ (s.reportWant seq r).lpm = s.lpm ∧ (s.reportWant seq r).mfn = s.mfn ∧
    (s.reportWant seq r).ord = s.ord ∧ (s.reportWant seq r).ntu = s.ntu ∧ (s.reportWant seq r).upb = s.upb ∧
    (s.reportWant seq r).fresh = s.fresh ∧ (s.reportWant seq r).pending = s.pending := by
  unfold State.reportWant; (try dsimp only); (repeat' split) <;> simp_all

@[simp] theorem State.reportGive_keeps (s : State) (seq : Nat) (r : Report) :
    (s.reportGive seq r).now = s.now ∧ (s.reportGive seq r).rstn = s.rstn ∧ (s.reportGive seq r).pins = s.pins ∧
    (s.reportGive seq r).sld = s.sld ∧ (s.reportGive seq r).ptu = s.ptu ∧ (s.reportGive seq r).adm = s.adm ∧
    (s.reportGive seq r).psq = s.psq ∧ (s.reportGive seq r).wdu = s.wdu ∧ (s.reportGive seq r).ccu = s.ccu ∧
    (s.reportGive seq r).cfw = s.cfw ∧ (s.reportGive seq r).sdram = s.sdram ∧ (s.reportGive seq r).mfn = s.mfn ∧
    (s.reportGive seq r).ord = s.ord ∧ (s.reportGive seq r).ntu = s.ntu ∧ (s.reportGive seq r).upb = s.upb ∧
    (s.reportGive seq r).fresh = s.fresh ∧ (s.reportGive seq r).pending = s.pending := by
  unfold State.reportGive; (try dsimp only); (repeat' split) <;> simp_all

@[simp] theorem State.reportUpb_keeps (s : State) (f : LaneFrame) (r : Report) :
    (s.reportUpb f r).now = s.now ∧ (s.reportUpb f r).rstn = s.rstn ∧ (s.reportUpb f r).pins = s.pins ∧
    (s.reportUpb f r).sld = s.sld ∧ (s.reportUpb f r).ptu = s.ptu ∧ (s.reportUpb f r).lif = s.lif ∧
    (s.reportUpb f r).adm = s.adm ∧ (s.reportUpb f r).psq = s.psq ∧ (s.reportUpb f r).wdu = s.wdu ∧
    (s.reportUpb f r).ccu = s.ccu ∧ (s.reportUpb f r).cfw = s.cfw ∧ (s.reportUpb f r).mctl = s.mctl ∧
    (s.reportUpb f r).sdram = s.sdram ∧ (s.reportUpb f r).lpm = s.lpm ∧ (s.reportUpb f r).xch = s.xch ∧
    (s.reportUpb f r).mfn = s.mfn ∧ (s.reportUpb f r).ord = s.ord ∧ (s.reportUpb f r).ntu = s.ntu ∧
    (s.reportUpb f r).fresh = s.fresh ∧ (s.reportUpb f r).pending = s.pending := by
  unfold State.reportUpb; (try dsimp only); (repeat' split) <;> simp_all

@[simp] theorem State.report_keeps (s : State) (e : SendEntry) (f : LaneFrame) (r : Report) :
    (s.report e f r).now = s.now ∧ (s.report e f r).rstn = s.rstn ∧ (s.report e f r).pins = s.pins ∧
    (s.report e f r).sld = s.sld ∧ (s.report e f r).wdu = s.wdu ∧ (s.report e f r).ccu = s.ccu ∧
    (s.report e f r).sdram = s.sdram ∧ (s.report e f r).mfn = s.mfn ∧ (s.report e f r).ord = s.ord ∧
    (s.report e f r).fresh = s.fresh ∧ (s.report e f r).pending = s.pending := by
  unfold State.report; (try dsimp only); (repeat' split) <;> simp_all

@[simp] theorem State.beginTenure_keeps (s : State) (e : SendEntry) (f : LaneFrame) :
    (s.beginTenure e f).now = s.now ∧ (s.beginTenure e f).rstn = s.rstn ∧
    (s.beginTenure e f).pins = s.pins ∧ (s.beginTenure e f).sld = s.sld ∧
    (s.beginTenure e f).wdu = s.wdu ∧ (s.beginTenure e f).ccu = s.ccu ∧
    (s.beginTenure e f).sdram = s.sdram ∧ (s.beginTenure e f).mfn = s.mfn ∧
    (s.beginTenure e f).ord = s.ord ∧ (s.beginTenure e f).fresh = s.fresh ∧
    (s.beginTenure e f).pending = s.pending := by
  unfold State.beginTenure; (try dsimp only); (repeat' split) <;> simp_all

@[simp] theorem State.settleEntry_keeps (s : State) (seq : Nat) (r : Report) :
    (s.settleEntry seq r).now = s.now ∧ (s.settleEntry seq r).rstn = s.rstn ∧ (s.settleEntry seq r).pins = s.pins ∧
    (s.settleEntry seq r).sld = s.sld ∧ (s.settleEntry seq r).ptu = s.ptu ∧ (s.settleEntry seq r).adm = s.adm ∧
    (s.settleEntry seq r).psq = s.psq ∧ (s.settleEntry seq r).wdu = s.wdu ∧ (s.settleEntry seq r).ccu = s.ccu ∧
    (s.settleEntry seq r).cfw = s.cfw ∧ (s.settleEntry seq r).sdram = s.sdram ∧ (s.settleEntry seq r).lpm = s.lpm ∧
    (s.settleEntry seq r).xch = s.xch ∧ (s.settleEntry seq r).mfn = s.mfn ∧ (s.settleEntry seq r).ord = s.ord ∧
    (s.settleEntry seq r).ntu = s.ntu ∧ (s.settleEntry seq r).upb = s.upb ∧ (s.settleEntry seq r).fresh = s.fresh ∧
    (s.settleEntry seq r).pending = s.pending := by
  unfold State.settleEntry; (try dsimp only); (repeat' split) <;> simp_all

@[simp] theorem State.ownNotice_keeps (s : State) (e : SendEntry) (f : LaneFrame) :
    (s.ownNotice e f).now = s.now ∧ (s.ownNotice e f).rstn = s.rstn ∧ (s.ownNotice e f).pins = s.pins ∧
    (s.ownNotice e f).sld = s.sld ∧ (s.ownNotice e f).ptu = s.ptu ∧ (s.ownNotice e f).lif = s.lif ∧
    (s.ownNotice e f).adm = s.adm ∧ (s.ownNotice e f).psq = s.psq ∧ (s.ownNotice e f).wdu = s.wdu ∧
    (s.ownNotice e f).ccu = s.ccu ∧ (s.ownNotice e f).cfw = s.cfw ∧ (s.ownNotice e f).mctl = s.mctl ∧
    (s.ownNotice e f).sdram = s.sdram ∧ (s.ownNotice e f).lpm = s.lpm ∧ (s.ownNotice e f).xch = s.xch ∧
    (s.ownNotice e f).mfn = s.mfn ∧ (s.ownNotice e f).ord = s.ord ∧ (s.ownNotice e f).ntu = s.ntu ∧
    (s.ownNotice e f).fresh = s.fresh ∧ (s.ownNotice e f).pending = s.pending := by
  unfold State.ownNotice; (try dsimp only); (repeat' split) <;> simp_all

@[simp] theorem State.endTenure_keeps (s : State) (e : SendEntry) (f : LaneFrame) (how : TenureEnd) :
    (s.endTenure e f how).now = s.now ∧ (s.endTenure e f how).rstn = s.rstn ∧ (s.endTenure e f how).pins = s.pins ∧
    (s.endTenure e f how).sld = s.sld ∧ (s.endTenure e f how).sdram = s.sdram ∧ (s.endTenure e f how).ord = s.ord ∧
    (s.endTenure e f how).fresh = s.fresh ∧ (s.endTenure e f how).pending = s.pending := by
  unfold State.endTenure; (try dsimp only); (repeat' split) <;> simp_all

@[simp] theorem State.holdTake_keeps (s : State) (f : LaneFrame) :
    (s.holdTake f).now = s.now ∧ (s.holdTake f).rstn = s.rstn ∧ (s.holdTake f).pins = s.pins ∧
    (s.holdTake f).sld = s.sld ∧ (s.holdTake f).ptu = s.ptu ∧ (s.holdTake f).adm = s.adm ∧
    (s.holdTake f).psq = s.psq ∧ (s.holdTake f).wdu = s.wdu ∧ (s.holdTake f).ccu = s.ccu ∧
    (s.holdTake f).mctl = s.mctl ∧ (s.holdTake f).sdram = s.sdram ∧ (s.holdTake f).lpm = s.lpm ∧
    (s.holdTake f).xch = s.xch ∧ (s.holdTake f).mfn = s.mfn ∧ (s.holdTake f).ord = s.ord ∧
    (s.holdTake f).ntu = s.ntu ∧ (s.holdTake f).upb = s.upb ∧ (s.holdTake f).fresh = s.fresh ∧
    (s.holdTake f).pending = s.pending := by
  unfold State.holdTake; (try dsimp only); (repeat' split) <;> simp_all

@[simp] theorem State.placeTake_keeps (s : State) :
    s.placeTake.now = s.now ∧ s.placeTake.rstn = s.rstn ∧ s.placeTake.pins = s.pins ∧ s.placeTake.sld = s.sld ∧
    s.placeTake.ptu = s.ptu ∧ s.placeTake.adm = s.adm ∧ s.placeTake.psq = s.psq ∧ s.placeTake.wdu = s.wdu ∧
    s.placeTake.ccu = s.ccu ∧ s.placeTake.cfw = s.cfw ∧ s.placeTake.mctl = s.mctl ∧ s.placeTake.sdram = s.sdram ∧
    s.placeTake.lpm = s.lpm ∧ s.placeTake.xch = s.xch ∧ s.placeTake.mfn = s.mfn ∧ s.placeTake.ord = s.ord ∧
    s.placeTake.ntu = s.ntu ∧ s.placeTake.upb = s.upb ∧ s.placeTake.fresh = s.fresh ∧
    s.placeTake.pending = s.pending := by
  unfold State.placeTake; (try dsimp only); (repeat' split) <;> simp_all

@[simp] theorem State.undoTake_keeps (s : State) :
    s.undoTake.now = s.now ∧ s.undoTake.rstn = s.rstn ∧ s.undoTake.pins = s.pins ∧ s.undoTake.sld = s.sld ∧
    s.undoTake.ptu = s.ptu ∧ s.undoTake.adm = s.adm ∧ s.undoTake.psq = s.psq ∧ s.undoTake.wdu = s.wdu ∧
    s.undoTake.ccu = s.ccu ∧ s.undoTake.mctl = s.mctl ∧ s.undoTake.sdram = s.sdram ∧ s.undoTake.lpm = s.lpm ∧
    s.undoTake.xch = s.xch ∧ s.undoTake.mfn = s.mfn ∧ s.undoTake.ord = s.ord ∧ s.undoTake.ntu = s.ntu ∧
    s.undoTake.upb = s.upb ∧ s.undoTake.fresh = s.fresh ∧ s.undoTake.pending = s.pending := by
  unfold State.undoTake; (try dsimp only); (repeat' split) <;> simp_all

@[simp] theorem State.handOver_keeps (s : State) :
    s.handOver.now = s.now ∧ s.handOver.rstn = s.rstn ∧ s.handOver.pins = s.pins ∧ s.handOver.sld = s.sld ∧
    s.handOver.ptu = s.ptu ∧ s.handOver.adm = s.adm ∧ s.handOver.psq = s.psq ∧ s.handOver.wdu = s.wdu ∧
    s.handOver.ccu = s.ccu ∧ s.handOver.mctl = s.mctl ∧ s.handOver.sdram = s.sdram ∧ s.handOver.lpm = s.lpm ∧
    s.handOver.xch = s.xch ∧ s.handOver.mfn = s.mfn ∧ s.handOver.ntu = s.ntu ∧ s.handOver.fresh = s.fresh ∧
    s.handOver.pending = s.pending := by
  unfold State.handOver; (try dsimp only); (repeat' split) <;> simp_all

@[simp] theorem State.handOvers_keeps (x0 : Nat) (s : State) :
    (State.handOvers x0 s).now = s.now ∧ (State.handOvers x0 s).rstn = s.rstn ∧
    (State.handOvers x0 s).pins = s.pins ∧ (State.handOvers x0 s).sld = s.sld ∧
    (State.handOvers x0 s).ptu = s.ptu ∧ (State.handOvers x0 s).adm = s.adm ∧ (State.handOvers x0 s).psq = s.psq ∧
    (State.handOvers x0 s).wdu = s.wdu ∧ (State.handOvers x0 s).ccu = s.ccu ∧
    (State.handOvers x0 s).mctl = s.mctl ∧ (State.handOvers x0 s).sdram = s.sdram ∧
    (State.handOvers x0 s).lpm = s.lpm ∧ (State.handOvers x0 s).xch = s.xch ∧ (State.handOvers x0 s).mfn = s.mfn ∧
    (State.handOvers x0 s).ntu = s.ntu ∧ (State.handOvers x0 s).fresh = s.fresh ∧
    (State.handOvers x0 s).pending = s.pending := by
  induction x0 generalizing s with
  | zero => simp [State.handOvers]
  | succ n ih => simp [State.handOvers, ih]

@[simp] theorem State.lifSilent_keeps (s : State) :
    s.lifSilent.now = s.now ∧ s.lifSilent.rstn = s.rstn ∧ s.lifSilent.pins = s.pins ∧ s.lifSilent.sld = s.sld ∧
    s.lifSilent.ptu = s.ptu ∧ s.lifSilent.adm = s.adm ∧ s.lifSilent.psq = s.psq ∧ s.lifSilent.wdu = s.wdu ∧
    s.lifSilent.ccu = s.ccu ∧ s.lifSilent.cfw = s.cfw ∧ s.lifSilent.sdram = s.sdram ∧ s.lifSilent.lpm = s.lpm ∧
    s.lifSilent.xch = s.xch ∧ s.lifSilent.mfn = s.mfn ∧ s.lifSilent.ord = s.ord ∧ s.lifSilent.ntu = s.ntu ∧
    s.lifSilent.upb = s.upb ∧ s.lifSilent.fresh = s.fresh ∧ s.lifSilent.pending = s.pending := by
  unfold State.lifSilent; (try dsimp only); (repeat' split) <;> simp_all

@[simp] theorem State.enterSilent_keeps (s : State) :
    s.enterSilent.now = s.now ∧ s.enterSilent.rstn = s.rstn ∧ s.enterSilent.pins = s.pins ∧
    s.enterSilent.sld = s.sld ∧ s.enterSilent.psq = s.psq ∧ s.enterSilent.wdu = s.wdu ∧ s.enterSilent.ccu = s.ccu ∧
    s.enterSilent.sdram = s.sdram ∧ s.enterSilent.mfn = s.mfn ∧ s.enterSilent.upb = s.upb ∧
    s.enterSilent.fresh = s.fresh ∧ s.enterSilent.pending = s.pending := by
  unfold State.enterSilent; (try dsimp only); (repeat' split) <;> simp_all

@[simp] theorem State.takeUnit_keeps (s : State) (dest kind : Byte) (body : Bytes) :
    (s.takeUnit dest kind body).now = s.now ∧ (s.takeUnit dest kind body).rstn = s.rstn ∧
    (s.takeUnit dest kind body).pins = s.pins ∧ (s.takeUnit dest kind body).sld = s.sld ∧
    (s.takeUnit dest kind body).ptu = s.ptu ∧ (s.takeUnit dest kind body).lif = s.lif ∧
    (s.takeUnit dest kind body).adm = s.adm ∧ (s.takeUnit dest kind body).psq = s.psq ∧
    (s.takeUnit dest kind body).wdu = s.wdu ∧ (s.takeUnit dest kind body).ccu = s.ccu ∧
    (s.takeUnit dest kind body).cfw = s.cfw ∧ (s.takeUnit dest kind body).mctl = s.mctl ∧
    (s.takeUnit dest kind body).sdram = s.sdram ∧ (s.takeUnit dest kind body).lpm = s.lpm ∧
    (s.takeUnit dest kind body).xch = s.xch ∧ (s.takeUnit dest kind body).mfn = s.mfn ∧
    (s.takeUnit dest kind body).ord = s.ord ∧ (s.takeUnit dest kind body).ntu = s.ntu ∧
    (s.takeUnit dest kind body).fresh = s.fresh ∧ (s.takeUnit dest kind body).pending = s.pending := by
  unfold State.takeUnit; (try dsimp only); (repeat' split) <;> simp_all

@[simp] theorem State.hunt_keeps (ended : Bool) (x0 : Nat) (x1 : Bytes) (s : State) :
    (State.hunt ended x0 x1 s).now = s.now ∧ (State.hunt ended x0 x1 s).rstn = s.rstn ∧
    (State.hunt ended x0 x1 s).pins = s.pins ∧ (State.hunt ended x0 x1 s).sld = s.sld ∧
    (State.hunt ended x0 x1 s).ptu = s.ptu ∧ (State.hunt ended x0 x1 s).lif = s.lif ∧
    (State.hunt ended x0 x1 s).adm = s.adm ∧ (State.hunt ended x0 x1 s).psq = s.psq ∧
    (State.hunt ended x0 x1 s).wdu = s.wdu ∧ (State.hunt ended x0 x1 s).ccu = s.ccu ∧
    (State.hunt ended x0 x1 s).cfw = s.cfw ∧ (State.hunt ended x0 x1 s).mctl = s.mctl ∧
    (State.hunt ended x0 x1 s).sdram = s.sdram ∧ (State.hunt ended x0 x1 s).lpm = s.lpm ∧
    (State.hunt ended x0 x1 s).xch = s.xch ∧ (State.hunt ended x0 x1 s).mfn = s.mfn ∧
    (State.hunt ended x0 x1 s).ord = s.ord ∧ (State.hunt ended x0 x1 s).ntu = s.ntu ∧
    (State.hunt ended x0 x1 s).fresh = s.fresh ∧ (State.hunt ended x0 x1 s).pending = s.pending := by
  induction x0 generalizing x1 s with
  | zero => simp [State.hunt]
  | succ n ih =>
    cases x1 with
    | nil => simp [State.hunt]
    | cons b bs => unfold State.hunt; (try dsimp only); (repeat' split) <;> simp_all

@[simp] theorem State.uplinkChars_keeps (s : State) (bytes : Bytes) (ended : Bool) :
    (s.uplinkChars bytes ended).now = s.now ∧ (s.uplinkChars bytes ended).rstn = s.rstn ∧
    (s.uplinkChars bytes ended).pins = s.pins ∧ (s.uplinkChars bytes ended).sld = s.sld ∧
    (s.uplinkChars bytes ended).ptu = s.ptu ∧ (s.uplinkChars bytes ended).lif = s.lif ∧
    (s.uplinkChars bytes ended).adm = s.adm ∧ (s.uplinkChars bytes ended).psq = s.psq ∧
    (s.uplinkChars bytes ended).wdu = s.wdu ∧ (s.uplinkChars bytes ended).ccu = s.ccu ∧
    (s.uplinkChars bytes ended).cfw = s.cfw ∧ (s.uplinkChars bytes ended).mctl = s.mctl ∧
    (s.uplinkChars bytes ended).sdram = s.sdram ∧ (s.uplinkChars bytes ended).lpm = s.lpm ∧
    (s.uplinkChars bytes ended).xch = s.xch ∧ (s.uplinkChars bytes ended).mfn = s.mfn ∧
    (s.uplinkChars bytes ended).ord = s.ord ∧ (s.uplinkChars bytes ended).ntu = s.ntu ∧
    (s.uplinkChars bytes ended).fresh = s.fresh ∧ (s.uplinkChars bytes ended).pending = s.pending := by
  unfold State.uplinkChars; (try dsimp only); (repeat' split) <;> simp_all

@[simp] theorem State.startUnit_keeps (s : State) :
    s.startUnit.now = s.now ∧ s.startUnit.rstn = s.rstn ∧ s.startUnit.pins = s.pins ∧ s.startUnit.sld = s.sld ∧
    s.startUnit.ptu = s.ptu ∧ s.startUnit.lif = s.lif ∧ s.startUnit.adm = s.adm ∧ s.startUnit.psq = s.psq ∧
    s.startUnit.wdu = s.wdu ∧ s.startUnit.ccu = s.ccu ∧ s.startUnit.cfw = s.cfw ∧ s.startUnit.mctl = s.mctl ∧
    s.startUnit.sdram = s.sdram ∧ s.startUnit.lpm = s.lpm ∧ s.startUnit.xch = s.xch ∧ s.startUnit.mfn = s.mfn ∧
    s.startUnit.ord = s.ord ∧ s.startUnit.ntu = s.ntu ∧ s.startUnit.fresh = s.fresh ∧
    s.startUnit.pending = s.pending := by
  unfold State.startUnit; (try dsimp only); (repeat' split) <;> simp_all

@[simp] theorem State.holdReply_keeps (s : State) (o : Order) (status : OrderStatus) (given : Bytes) (restart : Bool) :
    (s.holdReply o status given restart).now = s.now ∧ (s.holdReply o status given restart).rstn = s.rstn ∧
    (s.holdReply o status given restart).pins = s.pins ∧ (s.holdReply o status given restart).sld = s.sld ∧
    (s.holdReply o status given restart).ptu = s.ptu ∧ (s.holdReply o status given restart).lif = s.lif ∧
    (s.holdReply o status given restart).adm = s.adm ∧ (s.holdReply o status given restart).psq = s.psq ∧
    (s.holdReply o status given restart).wdu = s.wdu ∧ (s.holdReply o status given restart).ccu = s.ccu ∧
    (s.holdReply o status given restart).cfw = s.cfw ∧ (s.holdReply o status given restart).mctl = s.mctl ∧
    (s.holdReply o status given restart).sdram = s.sdram ∧ (s.holdReply o status given restart).lpm = s.lpm ∧
    (s.holdReply o status given restart).xch = s.xch ∧ (s.holdReply o status given restart).mfn = s.mfn ∧
    (s.holdReply o status given restart).ntu = s.ntu ∧ (s.holdReply o status given restart).upb = s.upb ∧
    (s.holdReply o status given restart).fresh = s.fresh ∧ (s.holdReply o status given restart).pending = s.pending := by
  unfold State.holdReply; (try dsimp only); (repeat' split) <;> simp_all

@[simp] theorem State.takeClaim_keeps (s : State) (x : Nat) :
    (s.takeClaim x).now = s.now ∧ (s.takeClaim x).rstn = s.rstn ∧ (s.takeClaim x).pins = s.pins ∧
    (s.takeClaim x).sld = s.sld ∧ (s.takeClaim x).ptu = s.ptu ∧ (s.takeClaim x).lif = s.lif ∧
    (s.takeClaim x).adm = s.adm ∧ (s.takeClaim x).psq = s.psq ∧ (s.takeClaim x).wdu = s.wdu ∧
    (s.takeClaim x).ccu = s.ccu ∧ (s.takeClaim x).cfw = s.cfw ∧ (s.takeClaim x).mctl = s.mctl ∧
    (s.takeClaim x).sdram = s.sdram ∧ (s.takeClaim x).lpm = s.lpm ∧ (s.takeClaim x).xch = s.xch ∧
    (s.takeClaim x).mfn = s.mfn ∧ (s.takeClaim x).ntu = s.ntu ∧ (s.takeClaim x).upb = s.upb ∧
    (s.takeClaim x).fresh = s.fresh ∧ (s.takeClaim x).pending = s.pending := by
  unfold State.takeClaim; (try dsimp only); (repeat' split) <;> simp_all

@[simp] theorem State.actClaim_keeps (s : State) (x : Nat) (seize : Bool) :
    (s.actClaim x seize).2.now = s.now ∧ (s.actClaim x seize).2.rstn = s.rstn ∧
    (s.actClaim x seize).2.pins = s.pins ∧ (s.actClaim x seize).2.sld = s.sld ∧
    (s.actClaim x seize).2.ptu = s.ptu ∧ (s.actClaim x seize).2.lif = s.lif ∧ (s.actClaim x seize).2.adm = s.adm ∧
    (s.actClaim x seize).2.psq = s.psq ∧ (s.actClaim x seize).2.wdu = s.wdu ∧ (s.actClaim x seize).2.ccu = s.ccu ∧
    (s.actClaim x seize).2.cfw = s.cfw ∧ (s.actClaim x seize).2.mctl = s.mctl ∧
    (s.actClaim x seize).2.sdram = s.sdram ∧ (s.actClaim x seize).2.lpm = s.lpm ∧
    (s.actClaim x seize).2.xch = s.xch ∧ (s.actClaim x seize).2.mfn = s.mfn ∧ (s.actClaim x seize).2.upb = s.upb ∧
    (s.actClaim x seize).2.fresh = s.fresh ∧ (s.actClaim x seize).2.pending = s.pending := by
  unfold State.actClaim; (try dsimp only); (repeat' split) <;> simp_all

@[simp] theorem State.actReleaseClaim_keeps (s : State) (x : Nat) :
    (s.actReleaseClaim x).2.now = s.now ∧ (s.actReleaseClaim x).2.rstn = s.rstn ∧
    (s.actReleaseClaim x).2.pins = s.pins ∧ (s.actReleaseClaim x).2.sld = s.sld ∧
    (s.actReleaseClaim x).2.ptu = s.ptu ∧ (s.actReleaseClaim x).2.lif = s.lif ∧
    (s.actReleaseClaim x).2.adm = s.adm ∧ (s.actReleaseClaim x).2.psq = s.psq ∧
    (s.actReleaseClaim x).2.wdu = s.wdu ∧ (s.actReleaseClaim x).2.ccu = s.ccu ∧
    (s.actReleaseClaim x).2.cfw = s.cfw ∧ (s.actReleaseClaim x).2.mctl = s.mctl ∧
    (s.actReleaseClaim x).2.sdram = s.sdram ∧ (s.actReleaseClaim x).2.lpm = s.lpm ∧
    (s.actReleaseClaim x).2.xch = s.xch ∧ (s.actReleaseClaim x).2.mfn = s.mfn ∧
    (s.actReleaseClaim x).2.ntu = s.ntu ∧ (s.actReleaseClaim x).2.upb = s.upb ∧
    (s.actReleaseClaim x).2.fresh = s.fresh ∧ (s.actReleaseClaim x).2.pending = s.pending := by
  unfold State.actReleaseClaim; (try dsimp only); (repeat' split) <;> simp_all

@[simp] theorem State.actStatus_keeps (s : State) :
    s.actStatus.state.now = s.now ∧ s.actStatus.state.rstn = s.rstn ∧ s.actStatus.state.pins = s.pins ∧
    s.actStatus.state.sld = s.sld ∧ s.actStatus.state.ptu = s.ptu ∧ s.actStatus.state.lif = s.lif ∧
    s.actStatus.state.adm = s.adm ∧ s.actStatus.state.psq = s.psq ∧ s.actStatus.state.wdu = s.wdu ∧
    s.actStatus.state.ccu = s.ccu ∧ s.actStatus.state.cfw = s.cfw ∧ s.actStatus.state.mctl = s.mctl ∧
    s.actStatus.state.sdram = s.sdram ∧ s.actStatus.state.lpm = s.lpm ∧ s.actStatus.state.xch = s.xch ∧
    s.actStatus.state.mfn = s.mfn ∧ s.actStatus.state.ord = s.ord ∧ s.actStatus.state.ntu = s.ntu ∧
    s.actStatus.state.upb = s.upb ∧ s.actStatus.state.pending = s.pending := by
  unfold State.actStatus; (try dsimp only); (repeat' split) <;> simp_all

@[simp] theorem State.actAttach_keeps (s : State) (image gen capacity : Nat) (mode : Mode) (bootOnce : Bool) :
    (s.actAttach image gen capacity mode bootOnce).2.now = s.now ∧
    (s.actAttach image gen capacity mode bootOnce).2.rstn = s.rstn ∧
    (s.actAttach image gen capacity mode bootOnce).2.pins = s.pins ∧
    (s.actAttach image gen capacity mode bootOnce).2.sld = s.sld ∧
    (s.actAttach image gen capacity mode bootOnce).2.ptu = s.ptu ∧
    (s.actAttach image gen capacity mode bootOnce).2.lif = s.lif ∧
    (s.actAttach image gen capacity mode bootOnce).2.adm = s.adm ∧
    (s.actAttach image gen capacity mode bootOnce).2.psq = s.psq ∧
    (s.actAttach image gen capacity mode bootOnce).2.wdu = s.wdu ∧
    (s.actAttach image gen capacity mode bootOnce).2.cfw = s.cfw ∧
    (s.actAttach image gen capacity mode bootOnce).2.mctl = s.mctl ∧
    (s.actAttach image gen capacity mode bootOnce).2.sdram = s.sdram ∧
    (s.actAttach image gen capacity mode bootOnce).2.lpm = s.lpm ∧
    (s.actAttach image gen capacity mode bootOnce).2.xch = s.xch ∧
    (s.actAttach image gen capacity mode bootOnce).2.ord = s.ord ∧
    (s.actAttach image gen capacity mode bootOnce).2.upb = s.upb ∧
    (s.actAttach image gen capacity mode bootOnce).2.fresh = s.fresh ∧
    (s.actAttach image gen capacity mode bootOnce).2.pending = s.pending := by
  unfold State.actAttach; (try dsimp only); (repeat' split) <;> simp_all

@[simp] theorem State.actDetach_keeps (s : State) :
    s.actDetach.2.now = s.now ∧ s.actDetach.2.rstn = s.rstn ∧ s.actDetach.2.pins = s.pins ∧
    s.actDetach.2.sld = s.sld ∧ s.actDetach.2.ptu = s.ptu ∧ s.actDetach.2.adm = s.adm ∧ s.actDetach.2.psq = s.psq ∧
    s.actDetach.2.wdu = s.wdu ∧ s.actDetach.2.ccu = s.ccu ∧ s.actDetach.2.cfw = s.cfw ∧
    s.actDetach.2.sdram = s.sdram ∧ s.actDetach.2.ord = s.ord ∧ s.actDetach.2.ntu = s.ntu ∧
    s.actDetach.2.upb = s.upb ∧ s.actDetach.2.fresh = s.fresh ∧ s.actDetach.2.pending = s.pending := by
  unfold State.actDetach; (try dsimp only); (repeat' split) <;> simp_all

@[simp] theorem State.actRestart_keeps (s : State) :
    s.actRestart.state.now = s.now ∧ s.actRestart.state.rstn = s.rstn ∧ s.actRestart.state.pins = s.pins ∧
    s.actRestart.state.sld = s.sld ∧ s.actRestart.state.ptu = s.ptu ∧ s.actRestart.state.lif = s.lif ∧
    s.actRestart.state.adm = s.adm ∧ s.actRestart.state.psq = s.psq ∧ s.actRestart.state.wdu = s.wdu ∧
    s.actRestart.state.ccu = s.ccu ∧ s.actRestart.state.cfw = s.cfw ∧ s.actRestart.state.mctl = s.mctl ∧
    s.actRestart.state.sdram = s.sdram ∧ s.actRestart.state.lpm = s.lpm ∧ s.actRestart.state.xch = s.xch ∧
    s.actRestart.state.mfn = s.mfn ∧ s.actRestart.state.ntu = s.ntu ∧ s.actRestart.state.upb = s.upb ∧
    s.actRestart.state.fresh = s.fresh ∧ s.actRestart.state.pending = s.pending := by
  unfold State.actRestart; (try dsimp only); (repeat' split) <;> simp_all

@[simp] theorem State.enterHalted_keeps (s : State) :
    s.enterHalted.now = s.now ∧ s.enterHalted.rstn = s.rstn ∧ s.enterHalted.pins = s.pins ∧
    s.enterHalted.adm = s.adm ∧ s.enterHalted.psq = s.psq ∧ s.enterHalted.wdu = s.wdu ∧ s.enterHalted.ccu = s.ccu ∧
    s.enterHalted.cfw = s.cfw ∧ s.enterHalted.sdram = s.sdram ∧ s.enterHalted.lpm = s.lpm ∧
    s.enterHalted.xch = s.xch ∧ s.enterHalted.mfn = s.mfn ∧ s.enterHalted.ord = s.ord ∧ s.enterHalted.ntu = s.ntu ∧
    s.enterHalted.upb = s.upb ∧ s.enterHalted.fresh = s.fresh ∧ s.enterHalted.pending = s.pending := by
  unfold State.enterHalted; (try dsimp only); (repeat' split) <;> simp_all

@[simp] theorem State.beginStart_keeps (s : State) (straps : Straps) (warm : Bool) :
    (s.beginStart straps warm).now = s.now ∧ (s.beginStart straps warm).rstn = s.rstn ∧
    (s.beginStart straps warm).pins = s.pins ∧ (s.beginStart straps warm).adm = s.adm ∧
    (s.beginStart straps warm).psq = s.psq ∧ (s.beginStart straps warm).wdu = s.wdu ∧
    (s.beginStart straps warm).ccu = s.ccu ∧ (s.beginStart straps warm).cfw = s.cfw ∧
    (s.beginStart straps warm).sdram = s.sdram ∧ (s.beginStart straps warm).lpm = s.lpm ∧
    (s.beginStart straps warm).xch = s.xch ∧ (s.beginStart straps warm).mfn = s.mfn ∧
    (s.beginStart straps warm).ord = s.ord ∧ (s.beginStart straps warm).ntu = s.ntu ∧
    (s.beginStart straps warm).upb = s.upb ∧ (s.beginStart straps warm).fresh = s.fresh ∧
    (s.beginStart straps warm).pending = s.pending := by
  unfold State.beginStart; (try dsimp only); (repeat' split) <;> simp_all

@[simp] theorem State.handOverRecord_keeps (s : State) (r : Settings) (digest : BitVec 16) :
    (s.handOverRecord r digest).now = s.now ∧ (s.handOverRecord r digest).rstn = s.rstn ∧
    (s.handOverRecord r digest).pins = s.pins ∧ (s.handOverRecord r digest).lif = s.lif ∧
    (s.handOverRecord r digest).adm = s.adm ∧ (s.handOverRecord r digest).psq = s.psq ∧
    (s.handOverRecord r digest).ccu = s.ccu ∧ (s.handOverRecord r digest).cfw = s.cfw ∧
    (s.handOverRecord r digest).sdram = s.sdram ∧ (s.handOverRecord r digest).lpm = s.lpm ∧
    (s.handOverRecord r digest).xch = s.xch ∧ (s.handOverRecord r digest).mfn = s.mfn ∧
    (s.handOverRecord r digest).ord = s.ord ∧ (s.handOverRecord r digest).ntu = s.ntu ∧
    (s.handOverRecord r digest).upb = s.upb ∧ (s.handOverRecord r digest).fresh = s.fresh ∧
    (s.handOverRecord r digest).pending = s.pending := by
  unfold State.handOverRecord; (try dsimp only); (repeat' split) <;> simp_all

@[simp] theorem State.payFault_keeps (s : State) :
    s.payFault.now = s.now ∧ s.payFault.rstn = s.rstn ∧ s.payFault.pins = s.pins ∧ s.payFault.sld = s.sld ∧
    s.payFault.ptu = s.ptu ∧ s.payFault.lif = s.lif ∧ s.payFault.adm = s.adm ∧ s.payFault.wdu = s.wdu ∧
    s.payFault.ccu = s.ccu ∧ s.payFault.cfw = s.cfw ∧ s.payFault.mctl = s.mctl ∧ s.payFault.sdram = s.sdram ∧
    s.payFault.lpm = s.lpm ∧ s.payFault.xch = s.xch ∧ s.payFault.mfn = s.mfn ∧ s.payFault.ord = s.ord ∧
    s.payFault.upb = s.upb ∧ s.payFault.fresh = s.fresh ∧ s.payFault.pending = s.pending := by
  unfold State.payFault; (try dsimp only); (repeat' split) <;> simp_all

@[simp] theorem State.enterListen_keeps (s : State) (r : Settings) :
    (s.enterListen r).now = s.now ∧ (s.enterListen r).rstn = s.rstn ∧ (s.enterListen r).pins = s.pins ∧
    (s.enterListen r).sld = s.sld ∧ (s.enterListen r).adm = s.adm ∧ (s.enterListen r).wdu = s.wdu ∧
    (s.enterListen r).cfw = s.cfw ∧ (s.enterListen r).sdram = s.sdram ∧ (s.enterListen r).xch = s.xch ∧
    (s.enterListen r).mfn = s.mfn ∧ (s.enterListen r).ord = s.ord ∧ (s.enterListen r).upb = s.upb ∧
    (s.enterListen r).fresh = s.fresh ∧ (s.enterListen r).pending = s.pending := by
  unfold State.enterListen; (try dsimp only); (repeat' split) <;> simp_all

@[simp] theorem State.derivePsq_keeps (s : State) (active : Bool) :
    (s.derivePsq active).now = s.now ∧ (s.derivePsq active).rstn = s.rstn ∧ (s.derivePsq active).pins = s.pins ∧
    (s.derivePsq active).sld = s.sld ∧ (s.derivePsq active).ptu = s.ptu ∧ (s.derivePsq active).ccu = s.ccu ∧
    (s.derivePsq active).cfw = s.cfw ∧ (s.derivePsq active).sdram = s.sdram ∧ (s.derivePsq active).ord = s.ord ∧
    (s.derivePsq active).upb = s.upb ∧ (s.derivePsq active).fresh = s.fresh ∧
    (s.derivePsq active).pending = s.pending := by
  unfold State.derivePsq; (try dsimp only); (repeat' split) <;> simp_all

@[simp] theorem State.listed_keeps (s : State) (o : Owner) (seq : Nat) :
    (s.listed o seq).now = s.now ∧ (s.listed o seq).rstn = s.rstn ∧ (s.listed o seq).pins = s.pins ∧
    (s.listed o seq).sld = s.sld ∧ (s.listed o seq).lif = s.lif ∧ (s.listed o seq).psq = s.psq ∧
    (s.listed o seq).wdu = s.wdu ∧ (s.listed o seq).ccu = s.ccu ∧ (s.listed o seq).mctl = s.mctl ∧
    (s.listed o seq).sdram = s.sdram ∧ (s.listed o seq).lpm = s.lpm ∧ (s.listed o seq).mfn = s.mfn ∧
    (s.listed o seq).fresh = s.fresh ∧ (s.listed o seq).pending = s.pending := by
  unfold State.listed; (try dsimp only); (repeat' split) <;> simp_all

@[simp] theorem State.acceptOffer_keeps (s : State) (o : Offer) :
    (s.acceptOffer o).now = s.now ∧ (s.acceptOffer o).rstn = s.rstn ∧ (s.acceptOffer o).pins = s.pins ∧
    (s.acceptOffer o).sld = s.sld ∧ (s.acceptOffer o).psq = s.psq ∧ (s.acceptOffer o).wdu = s.wdu ∧
    (s.acceptOffer o).ccu = s.ccu ∧ (s.acceptOffer o).mctl = s.mctl ∧ (s.acceptOffer o).sdram = s.sdram ∧
    (s.acceptOffer o).lpm = s.lpm ∧ (s.acceptOffer o).mfn = s.mfn ∧ (s.acceptOffer o).fresh = s.fresh ∧
    (s.acceptOffer o).pending = s.pending := by
  unfold State.acceptOffer; (try dsimp only); (repeat' split) <;> simp_all

@[simp] theorem State.takeOffer_keeps (s : State) :
    s.takeOffer.now = s.now ∧ s.takeOffer.rstn = s.rstn ∧ s.takeOffer.pins = s.pins ∧ s.takeOffer.sld = s.sld ∧
    s.takeOffer.psq = s.psq ∧ s.takeOffer.wdu = s.wdu ∧ s.takeOffer.ccu = s.ccu ∧ s.takeOffer.mctl = s.mctl ∧
    s.takeOffer.sdram = s.sdram ∧ s.takeOffer.lpm = s.lpm ∧ s.takeOffer.mfn = s.mfn ∧
    s.takeOffer.pending = s.pending := by
  unfold State.takeOffer; (try dsimp only); (repeat' split) <;> simp_all

@[simp] theorem State.takeOffers_keeps (x0 : Nat) (s : State) :
    (State.takeOffers x0 s).now = s.now ∧ (State.takeOffers x0 s).rstn = s.rstn ∧
    (State.takeOffers x0 s).pins = s.pins ∧ (State.takeOffers x0 s).sld = s.sld ∧
    (State.takeOffers x0 s).psq = s.psq ∧ (State.takeOffers x0 s).wdu = s.wdu ∧
    (State.takeOffers x0 s).ccu = s.ccu ∧ (State.takeOffers x0 s).mctl = s.mctl ∧
    (State.takeOffers x0 s).sdram = s.sdram ∧ (State.takeOffers x0 s).lpm = s.lpm ∧
    (State.takeOffers x0 s).mfn = s.mfn ∧ (State.takeOffers x0 s).pending = s.pending := by
  induction x0 generalizing s with
  | zero => simp [State.takeOffers]
  | succ n ih => simp [State.takeOffers, ih]

@[simp] theorem State.askNotice_keeps (s : State) :
    s.askNotice.now = s.now ∧ s.askNotice.rstn = s.rstn ∧ s.askNotice.pins = s.pins ∧ s.askNotice.sld = s.sld ∧
    s.askNotice.ptu = s.ptu ∧ s.askNotice.lif = s.lif ∧ s.askNotice.adm = s.adm ∧ s.askNotice.psq = s.psq ∧
    s.askNotice.wdu = s.wdu ∧ s.askNotice.ccu = s.ccu ∧ s.askNotice.cfw = s.cfw ∧ s.askNotice.mctl = s.mctl ∧
    s.askNotice.sdram = s.sdram ∧ s.askNotice.lpm = s.lpm ∧ s.askNotice.xch = s.xch ∧ s.askNotice.mfn = s.mfn ∧
    s.askNotice.ord = s.ord ∧ s.askNotice.upb = s.upb ∧ s.askNotice.fresh = s.fresh ∧
    s.askNotice.pending = s.pending := by
  unfold State.askNotice; (try dsimp only); (repeat' split) <;> simp_all

@[simp] theorem State.refuseSilent_keeps (s : State) :
    s.refuseSilent.now = s.now ∧ s.refuseSilent.rstn = s.rstn ∧ s.refuseSilent.pins = s.pins ∧
    s.refuseSilent.sld = s.sld ∧ s.refuseSilent.ptu = s.ptu ∧ s.refuseSilent.lif = s.lif ∧
    s.refuseSilent.adm = s.adm ∧ s.refuseSilent.psq = s.psq ∧ s.refuseSilent.wdu = s.wdu ∧
    s.refuseSilent.ccu = s.ccu ∧ s.refuseSilent.cfw = s.cfw ∧ s.refuseSilent.mctl = s.mctl ∧
    s.refuseSilent.sdram = s.sdram ∧ s.refuseSilent.lpm = s.lpm ∧ s.refuseSilent.mfn = s.mfn ∧
    s.refuseSilent.ntu = s.ntu ∧ s.refuseSilent.upb = s.upb ∧ s.refuseSilent.fresh = s.fresh ∧
    s.refuseSilent.pending = s.pending := by
  unfold State.refuseSilent; (try dsimp only); (repeat' split) <;> simp_all

@[simp] theorem State.settleOffers_keeps (s : State) :
    s.settleOffers.now = s.now ∧ s.settleOffers.rstn = s.rstn ∧ s.settleOffers.pins = s.pins ∧
    s.settleOffers.sld = s.sld ∧ s.settleOffers.psq = s.psq ∧ s.settleOffers.wdu = s.wdu ∧
    s.settleOffers.ccu = s.ccu ∧ s.settleOffers.mctl = s.mctl ∧ s.settleOffers.sdram = s.sdram ∧
    s.settleOffers.lpm = s.lpm ∧ s.settleOffers.mfn = s.mfn ∧ s.settleOffers.pending = s.pending := by
  unfold State.settleOffers; (try dsimp only); (repeat' split) <;> simp_all

@[simp] theorem State.askGiveRead_keeps (s : State) :
    s.askGiveRead.now = s.now ∧ s.askGiveRead.rstn = s.rstn ∧ s.askGiveRead.pins = s.pins ∧
    s.askGiveRead.sld = s.sld ∧ s.askGiveRead.ptu = s.ptu ∧ s.askGiveRead.adm = s.adm ∧ s.askGiveRead.psq = s.psq ∧
    s.askGiveRead.wdu = s.wdu ∧ s.askGiveRead.ccu = s.ccu ∧ s.askGiveRead.cfw = s.cfw ∧
    s.askGiveRead.sdram = s.sdram ∧ s.askGiveRead.lpm = s.lpm ∧ s.askGiveRead.xch = s.xch ∧
    s.askGiveRead.mfn = s.mfn ∧ s.askGiveRead.ord = s.ord ∧ s.askGiveRead.ntu = s.ntu ∧ s.askGiveRead.upb = s.upb ∧
    s.askGiveRead.fresh = s.fresh ∧ s.askGiveRead.pending = s.pending := by
  unfold State.askGiveRead; (try dsimp only); (repeat' split) <;> simp_all

end Sys2Proof.Machine
end

