-- ==== Sys2Proof/Laws/Frames.lean ====
section
/-! SUPPORT. What a raise does, and what the operations that withdraw frames, wants and media transfers leave alone. -/

namespace Sys2Proof.Machine

/-! ### Notices -/

theorem State.raise_ntu (s : State) (k : NoticeKind) (d : Bytes) :
    (s.raise k d).ntu = if s.takesRaises then s.ntu.raise s.now k d else s.ntu := by
  unfold State.raise; split <;> rfl

theorem State.raise_eq (s : State) (k : NoticeKind) (d : Bytes) : s.raise k d = { s with ntu := (s.raise k d).ntu } := by
  unfold State.raise; split <;> rfl

/-- All that a raise does (R198, R201). -/
theorem State.raise_raised (s : State) (kind : NoticeKind) (detail : Bytes) : s.Raised (s.raise kind detail) kind detail where
  refused h1 h2 h3 := by simp [State.raise, State.takesRaises, h1, h2, h3]
  clear h hk := by
    have ht : s.takesRaises = true := by simpa [State.takesRaises, or_assoc] using h
    have : s.ntu.pending.any (fun p => p.kind = kind) = false := by simpa using hk
    simp [State.raise, ht, Ntu.raise, this]
  set h hk := by
    have ht : s.takesRaises = true := by simpa [State.takesRaises, or_assoc] using h
    have : s.ntu.pending.any (fun p => p.kind = kind) = true := by simpa using hk
    simp [State.raise, ht, Ntu.raise, this]

/-- A raise reads NTU, station time and the station state alone. -/
theorem State.raise_ntu_congr {s u : State} (h1 : u.ntu = s.ntu) (h2 : u.now = s.now) (h3 : u.ptu.state = s.ptu.state)
    (kind : NoticeKind) (detail : Bytes) : (u.raise kind detail).ntu = (s.raise kind detail).ntu := by
  simp only [State.raise_ntu, State.takesRaises, h1, h2, h3]
  rfl

/-- A raise in a state with NTU, station time and station state of another. -/
theorem State.raise_as {s u : State} (kind : NoticeKind) (detail : Bytes) (h1 : u.ntu = s.ntu) (h2 : u.now = s.now)
    (h3 : u.ptu.state = s.ptu.state) : u.raise kind detail = { u with ntu := (s.raise kind detail).ntu } := by
  rw [State.raise_eq, State.raise_ntu_congr h1 h2 h3]

/-! ### Frames leave the send list -/

/-- `t` is `s` with frames withdrawn from the send list: only the list, the give buffer and the waiting read of the give
differ. -/
def State.OnlyWithdraws (s t : State) : Prop :=
  ∃ l g w, t = { s with
    lif := { s.lif with sendList := l, giveBuf := g }, mctl := { s.mctl with waitSend := w } }

theorem State.OnlyWithdraws.refl (s : State) : s.OnlyWithdraws s := ⟨_, _, _, rfl⟩

theorem State.OnlyWithdraws.trans {s t u : State} (h : s.OnlyWithdraws t) (k : t.OnlyWithdraws u) : s.OnlyWithdraws u := by
  obtain ⟨_, _, _, rfl⟩ := h
  obtain ⟨_, _, _, rfl⟩ := k
  exact ⟨_, _, _, rfl⟩

theorem State.OnlyWithdraws.foldl {α : Type} (f : State → α → State) (hf : ∀ (s : State) (a : α), s.OnlyWithdraws (f s a)) (l : List α)
    (s : State) : s.OnlyWithdraws (l.foldl f s) := by
  induction l generalizing s with
  | nil => exact .refl _
  | cons a l ih => exact (hf s a).trans (ih _)

theorem State.lifWithdraw_onlyWithdraws (s : State) (seq : Nat) : s.OnlyWithdraws (s.lifWithdraw seq) := by
  unfold State.lifWithdraw State.freeGiveBuf Lif.remove
  (repeat' split) <;> exact ⟨_, _, _, rfl⟩

theorem State.withdrawStanding_onlyWithdraws (s : State) (st : Standing) : s.OnlyWithdraws (s.withdrawStanding st) := by
  unfold State.withdrawStanding
  split
  · exact .refl _
  · exact State.lifWithdraw_onlyWithdraws _ _
  · exact State.lifWithdraw_onlyWithdraws _ _

theorem State.withdrawWants_onlyWithdraws (s : State) (ws : List Want) : s.OnlyWithdraws (s.withdrawWants ws) := by
  refine State.OnlyWithdraws.foldl _ (fun t w => ?_) _ _
  unfold State.withdrawWant
  split
  · exact State.withdrawStanding_onlyWithdraws _ _
  · exact .refl _

/-- A frame outside its tenure leaves the send list when it is withdrawn, any other stays (R168). -/
theorem State.lifWithdraw_spec (s : State) (seq : Nat) :
    (∀ e, s.lif.entry seq = some e → e.inTenure = false → (s.lifWithdraw seq).lif.entry seq = none) ∧
    (∀ q, s.lif.entry q = none → (s.lifWithdraw seq).lif.entry q = none) ∧
    (∀ q e, q ≠ seq → s.lif.entry q = some e → (s.lifWithdraw seq).lif.entry q = some e) ∧
    ∀ e ∈ s.lif.sendList, e.seq ≠ seq → e ∈ (s.lifWithdraw seq).lif.sendList := by
  have hf : ∀ t : State, (t.freeGiveBuf seq).lif.sendList = t.lif.sendList := by
    intro t; unfold State.freeGiveBuf; (repeat' split) <;> rfl
  by_cases h : ∃ e, s.lif.entry seq = some e ∧ e.inTenure = false
  · obtain ⟨e, h1, h2⟩ := h
    have hl : (s.lifWithdraw seq).lif.sendList = s.lif.sendList.filter (fun e => e.seq ≠ seq) := by
      unfold State.lifWithdraw
      rw [h1]
      simp only [h2, Bool.false_eq_true, if_false, hf, Lif.remove]
    unfold Lif.entry
    rw [hl]
    simp only [List.find?_filter]
    refine ⟨fun _ _ _ => by simp, fun q k => ?_, fun q e' k k1 => ?_, fun e' k k1 => by simp [k, k1]⟩
    · rw [List.find?_eq_none] at k ⊢
      intro x hx; have := k x hx; simp_all
    · rw [← k1]
      congr 1
      funext x
      by_cases hx : x.seq = q <;> simp [hx, k]
  · have hl : s.lifWithdraw seq = s := by
      unfold State.lifWithdraw
      split
      · rename_i e he
        rw [if_pos (by by_contra k; exact h ⟨e, he, by simpa using k⟩)]
      · rfl
    rw [hl]
    exact ⟨fun e k k1 => absurd ⟨e, k, k1⟩ h, fun _ k => k, fun _ _ _ k => k, fun _ k _ => k⟩

/-- The frame of a standing is withdrawn. -/
theorem State.withdrawStanding_spec (s : State) (st : Standing) :
    (∀ q e, st = .listed q → s.lif.entry q = some e → e.inTenure = false → (s.withdrawStanding st).lif.entry q = none) ∧
    (∀ q, s.lif.entry q = none → (s.withdrawStanding st).lif.entry q = none) ∧
    (∀ q e, st.isAt q = false → s.lif.entry q = some e → (s.withdrawStanding st).lif.entry q = some e) ∧
    ∀ e ∈ s.lif.sendList, st.isAt e.seq = false → e ∈ (s.withdrawStanding st).lif.sendList := by
  cases st with
  | held => exact ⟨fun _ _ h => by simp at h, fun _ h => h, fun _ _ _ h => h, fun _ h _ => h⟩
  | listed q =>
    obtain ⟨a, b, c, d⟩ := s.lifWithdraw_spec q
    refine ⟨fun r e h => ?_, b, fun r e h => c r e ?_, fun e h k => d e h ?_⟩
    · cases h; exact a e
    · intro hr; subst hr; simp [Standing.isAt] at h
    · intro hr; simp [Standing.isAt, hr] at k
  | inTenure q =>
    obtain ⟨a, b, c, d⟩ := s.lifWithdraw_spec q
    refine ⟨fun r e h => by simp at h, b, fun r e h => c r e ?_, fun e h k => d e h ?_⟩
    · intro hr; subst hr; simp [Standing.isAt] at h
    · intro hr; simp [Standing.isAt, hr] at k

/-- A frame in its tenure stays whatever frame is withdrawn (R168). -/
theorem State.lifWithdraw_inTenure (s : State) {seq q : Nat} {e : SendEntry} (h : s.lif.entry q = some e)
    (ht : e.inTenure = true) : (s.lifWithdraw seq).lif.entry q = some e := by
  by_cases hq : q = seq
  · subst hq
    unfold State.lifWithdraw
    rw [h]
    simpa [ht] using h
  · exact (s.lifWithdraw_spec seq).2.2.1 q e hq h

theorem State.withdrawStanding_inTenure (s : State) (st : Standing) {q : Nat} {e : SendEntry}
    (h : s.lif.entry q = some e) (ht : e.inTenure = true) : (s.withdrawStanding st).lif.entry q = some e := by
  cases st with
  | held => exact h
  | listed seq => exact s.lifWithdraw_inTenure h ht
  | inTenure seq => exact s.lifWithdraw_inTenure h ht

theorem Lif.entry_eq_none {l : Lif} {seq : Nat} : l.entry seq = none ↔ ∀ x ∈ l.sendList, x.seq ≠ seq := by
  simp [Lif.entry]

/-- What withdrawing a want's frame does to an entry of the send list: it stays, or leaves where it is the want's. -/
theorem State.withdrawWant_entry (s : State) (w : Want) (seq : Nat) :
    (s.lif.entry seq = none → (s.withdrawWant w).lif.entry seq = none) ∧
    ∀ e, s.lif.entry seq = some e →
      (s.withdrawWant w).lif.entry seq = some e ∨ (e.inTenure = false ∧ (s.withdrawWant w).lif.entry seq = none) := by
  unfold State.withdrawWant
  split
  · rename_i st _
    refine ⟨(s.withdrawStanding_spec st).2.1 seq, fun e he => ?_⟩
    cases ht : e.inTenure with
    | true => exact .inl (s.withdrawStanding_inTenure st he ht)
    | false =>
      cases hst : st.isAt seq with
      | false => exact .inl ((s.withdrawStanding_spec st).2.2.1 seq e hst he)
      | true =>
        cases st with
        | held => cases hst
        | listed q =>
          obtain rfl : q = seq := by simpa [Standing.isAt] using hst
          exact .inr ⟨rfl, (s.withdrawStanding_spec _).1 q e rfl he ht⟩
        | inTenure q =>
          obtain rfl : q = seq := by simpa [Standing.isAt] using hst
          exact .inr ⟨rfl, (s.lifWithdraw_spec q).1 e he ht⟩
  · exact ⟨id, fun e he => .inl he⟩

/-- All that withdrawing the frames of wants does to the send list (R168). -/
theorem State.withdrawWants_withdrawn (s : State) (ws : List Want) : s.lif.WantsWithdrawn (s.withdrawWants ws).lif ws := by
  have hn : ∀ (ws : List Want) (t : State) seq, t.lif.entry seq = none → (t.withdrawWants ws).lif.entry seq = none := by
    intro ws
    induction ws with
    | nil => exact fun _ _ h => h
    | cons v ws ih => exact fun t seq h => ih _ seq ((t.withdrawWant_entry v seq).1 h)
  induction ws generalizing s with
  | nil => exact ⟨fun w hw => absurd hw (by simp), fun _ _ h _ => h, fun _ h _ => h⟩
  | cons w ws ih =>
    obtain ⟨a, b, c⟩ := ih (s.withdrawWant w)
    refine ⟨fun v hv seq e hs he hx => ?_, fun seq e h k => b seq e ?_ k, fun e he h => c e ?_ ?_⟩
    · rcases (s.withdrawWant_entry w seq).2 e he with hk | hk
      · rcases List.mem_cons.mp hv with rfl | hv
        · refine Lif.entry_eq_none.mp (hn ws _ seq ?_)
          unfold State.withdrawWant
          rw [hs]
          exact (s.withdrawStanding_spec _).1 seq e rfl he hx
        · exact a v hv seq e hs hk hx
      · exact Lif.entry_eq_none.mp (hn ws _ seq hk.2)
    · rcases (s.withdrawWant_entry w seq).2 e h with hk | hk
      · exact hk
      · rw [k] at hk; cases hk.1
    · unfold State.withdrawWant
      split
      · rename_i st hst
        exact (s.withdrawStanding_spec st).2.2.2 e he (h w List.mem_cons_self st hst)
      · exact he
    · exact fun v hv => h v (List.mem_cons_of_mem _ hv)

/-! ### Lines of the pool -/

/-- `q` is `p` with other lines and another recency list. -/
def Lpm.OnlyLines (p q : Lpm) : Prop := ∃ l r, q = { p with lines := l, recency := r }

theorem Lpm.OnlyLines.refl (p : Lpm) : p.OnlyLines p := ⟨_, _, rfl⟩

theorem Lpm.OnlyLines.foldl {α : Type} (f : Lpm → α → Lpm) (hf : ∀ (p : Lpm) (a : α), p.OnlyLines (f p a)) (l : List α) (p : Lpm) :
    p.OnlyLines (l.foldl f p) := by
  induction l generalizing p with
  | nil => exact .refl _
  | cons a l ih =>
    obtain ⟨x, y, e⟩ := hf p a
    obtain ⟨z, w, e2⟩ := ih (f p a)
    refine ⟨z, w, ?_⟩
    rw [List.foldl_cons, e2, e]

theorem Lpm.unpin_onlyLines (p : Lpm) (pos : Nat) : p.OnlyLines (p.unpin pos) := by
  unfold Lpm.unpin; (repeat' split) <;> exact ⟨_, _, rfl⟩

theorem Lpm.freeFilling_onlyLines (p : Lpm) (pos : Nat) : p.OnlyLines (p.freeFilling pos) := by
  unfold Lpm.freeFilling; (repeat' split) <;> exact ⟨_, _, rfl⟩

theorem Lpm.releaseLine_onlyLines (p : Lpm) (pos : Nat) : p.OnlyLines (p.releaseLine pos) := by
  unfold Lpm.releaseLine; (repeat' split) <;> exact ⟨_, _, rfl⟩

theorem Lpm.releaseOverlay_onlyLines (p : Lpm) : p.OnlyLines p.releaseOverlay :=
  Lpm.OnlyLines.foldl _ Lpm.releaseLine_onlyLines _ _

/-! ### The teardown -/

/-- `t` is `s` with the wants of an image generation dropped. -/
theorem State.dropWants_eq (s : State) (image gen : Nat) : ∃ l g w lines recency, s.dropWants image gen = { s with
    lif := { s.lif with sendList := l, giveBuf := g }
    mctl := { s.mctl with waitSend := w }
    lpm := { s.lpm with lines := lines, recency := recency }
    xch := s.xch.voidImage image gen .dropped } := by
  unfold State.dropWants
  obtain ⟨l, g, w, e⟩ := s.withdrawWants_onlyWithdraws (s.xch.wants.filter (fun w => w.ofImage image gen))
  obtain ⟨x, y, e2⟩ := Lpm.OnlyLines.foldl _ Lpm.freeFilling_onlyLines
    ((s.xch.wants.filter (fun w => w.ofImage image gen)).map Want.line) s.lpm
  refine ⟨l, g, w, x, y, ?_⟩
  dsimp only
  rw [e, ← e2]

theorem State.withdrawMedia_eq (s : State) (p : MediaReq → Bool) : ∃ lines recency, s.withdrawMedia p = { s with
    lpm := { s.lpm with lines := lines, recency := recency }
    mctl := { s.mctl with waitMedia := s.mctl.waitMedia.filter (fun r => !p r) } } := by
  obtain ⟨x, y, e⟩ := Lpm.OnlyLines.foldl _ Lpm.unpin_onlyLines ((s.mctl.waitMedia.filter p).map MediaReq.line) s.lpm
  exact ⟨x, y, by unfold State.withdrawMedia; rw [e]⟩

theorem Xch.voidImage_none (x : Xch) (image gen : Nat) (cause : VoidCause) :
    ∀ w ∈ (x.voidImage image gen cause).wants, w.ofImage image gen = false := by
  intro w hw
  simp only [Xch.voidImage, List.mem_filterMap] at hw
  obtain ⟨v, -, hv⟩ := hw
  split at hv
  · unfold Want.voided at hv
    split at hv
    · cases hv; simp [Want.ofImage]
    · cases hv
  · cases hv; simp_all

end Sys2Proof.Machine
end

