-- ==== Sys2Proof/Laws/Pool.lean ====
section
/-! SUPPORT. The pool's records: a record put, freed or found at a position, and the bounds of the pool under each
operation. -/

namespace Sys2Proof.Machine

/-! ### Records at positions -/

theorem mem_putLine {l : List (Nat × Line)} {pos : Nat} {x : Line} {e : Nat × Line} (h : e ∈ putLine l pos x) :
    e = (pos, x) ∨ e ∈ l := by
  induction l with
  | nil => simpa [putLine] using h
  | cons a l ih =>
    obtain ⟨k, old⟩ := a
    simp only [putLine] at h
    split at h
    · simpa using h
    · split at h
      · simp only [List.mem_cons] at h ⊢; tauto
      · simp only [List.mem_cons] at h ⊢
        rcases h with h | h
        · exact Or.inr (Or.inl h)
        · rcases ih h with h | h <;> tauto

theorem putLine_rising {l : List (Nat × Line)} (h : l.Pairwise (fun a b => a.1 < b.1)) (pos : Nat) (x : Line) :
    (putLine l pos x).Pairwise (fun a b => a.1 < b.1) := by
  induction l with
  | nil => simp [putLine]
  | cons a l ih =>
    obtain ⟨k, old⟩ := a
    obtain ⟨h1, h2⟩ := List.pairwise_cons.1 h
    simp only [putLine]
    split
    · rename_i hk
      refine List.pairwise_cons.2 ⟨fun e he => ?_, h⟩
      rcases List.mem_cons.1 he with rfl | he
      · exact hk
      · exact lt_trans hk (h1 e he)
    · split
      · rename_i hk; subst hk
        exact List.pairwise_cons.2 ⟨h1, h2⟩
      · rename_i hk hne
        refine List.pairwise_cons.2 ⟨fun e he => ?_, ih h2⟩
        rcases mem_putLine he with rfl | he
        · show k < pos; omega
        · exact h1 e he

/-- In rising positions a record stands at its position. -/
theorem Lpm.line_of_mem {p : Lpm} (h : p.lines.Pairwise (fun a b => a.1 < b.1)) {e : Nat × Line} (he : e ∈ p.lines) :
    p.line e.1 = some e.2 := by
  unfold Lpm.line
  generalize p.lines = l at *
  induction l with
  | nil => cases he
  | cons a l ih =>
    obtain ⟨h1, h2⟩ := List.pairwise_cons.1 h
    rcases List.mem_cons.1 he with rfl | he
    · simp
    · have := h1 e he
      have hne : ¬ a.1 = e.1 := by omega
      simp only [List.find?_cons, hne, decide_false]
      exact ih h2 he

theorem Lpm.mem_of_line {p : Lpm} {pos : Nat} {x : Line} (h : p.line pos = some x) : (pos, x) ∈ p.lines := by
  unfold Lpm.line at h
  simp only [Option.map_eq_some_iff] at h
  obtain ⟨e, he, rfl⟩ := h
  have h1 := List.mem_of_find?_eq_some he
  have h2 := List.find?_some he
  simp only [decide_eq_true_eq] at h2
  subst h2
  exact h1

theorem Lpm.Placed.put {p : Lpm} (h : p.Placed) {pos : Nat} (hp : pos < p.poolSize) (x : Line) : (p.put pos x).Placed where
  rising := putLine_rising h.rising _ _
  below e he := by
    rcases mem_putLine he with rfl | he
    · exact hp
    · exact h.below e he
  recency := h.recency

theorem Lpm.Placed.free {p : Lpm} (h : p.Placed) (pos : Nat) : (p.free pos).Placed where
  rising := h.rising.filter _
  below e he := h.below e (List.mem_of_mem_filter he)
  recency q hq := h.recency q (List.mem_of_mem_filter hq)

theorem Lpm.Placed.line_lt {p : Lpm} (h : p.Placed) {pos : Nat} {x : Line} (hx : p.line pos = some x) : pos < p.poolSize :=
  h.below _ (Lpm.mem_of_line hx)

theorem Lpm.Placed.toTail {p : Lpm} (h : p.Placed) {pos : Nat} (hp : pos < p.poolSize) : (p.toTail pos).Placed where
  rising := h.rising
  below := h.below
  recency q hq := by
    simp only [Lpm.toTail, List.mem_append, List.mem_filter, List.mem_singleton] at hq
    rcases hq with ⟨hq, -⟩ | rfl
    · exact h.recency q hq
    · exact hp

theorem Lpm.Placed.foldl {α : Type} {f : Lpm → α → Lpm} (hf : ∀ (p : Lpm) (a : α), p.Placed → (f p a).Placed) (l : List α)
    {p : Lpm} (h : p.Placed) : (l.foldl f p).Placed := by
  induction l generalizing p with
  | nil => exact h
  | cons a l ih => exact ih (hf p a h)

theorem Lpm.Placed.unpin {p : Lpm} (h : p.Placed) (pos : Nat) : (p.unpin pos).Placed := by
  unfold Lpm.unpin
  split
  · rename_i e
    have hp := h.line_lt e
    (repeat' split)
    · exact h.free _
    · exact (h.put hp _).toTail hp
    · exact h.put hp _
  · rename_i e
    have hp := h.line_lt e
    (repeat' split)
    · exact h.free _
    · exact h.put hp _
    · exact h.put hp _
  · exact h

theorem Lpm.Placed.freeFilling {p : Lpm} (h : p.Placed) (pos : Nat) : (p.freeFilling pos).Placed := by
  unfold Lpm.freeFilling
  split
  · exact h.free _
  · rename_i e; exact h.put (h.line_lt e) _
  · exact h

theorem Lpm.Placed.releaseLine {p : Lpm} (h : p.Placed) (pos : Nat) : (p.releaseLine pos).Placed := by
  unfold Lpm.releaseLine
  split
  · rename_i e
    split
    · exact h.free _
    · exact h.put (h.line_lt e) _
  · exact h

/-! ### A line read back, unpin and retire -/

@[simp] theorem Lpm.put_poolSize (p : Lpm) (pos : Nat) (x : Line) : (p.put pos x).poolSize = p.poolSize := rfl
@[simp] theorem Lpm.put_recency (p : Lpm) (pos : Nat) (x : Line) : (p.put pos x).recency = p.recency := rfl

theorem putLine_find (l : List (Nat × Line)) (pos q : Nat) (x : Line) :
    ((putLine l pos x).find? (fun e => e.1 = q)).map Prod.snd =
      if q = pos then some x else (l.find? (fun e => e.1 = q)).map Prod.snd := by
  induction l with
  | nil => by_cases h : q = pos <;> simp [putLine, h]; exact fun e => h e.symm
  | cons a l ih =>
    obtain ⟨k, old⟩ := a
    simp only [putLine]
    split
    · by_cases h : q = pos
      · simp [h]
      · have : ¬ pos = q := fun e => h e.symm
        simp [h, this]
    · split
      · rename_i h1 h2; subst h2
        by_cases h : q = pos
        · simp [h]
        · have : ¬ pos = q := fun e => h e.symm
          simp [h, this]
      · rename_i h1 h2
        by_cases hk : k = q
        · subst hk
          have : ¬ k = pos := fun e => h2 e.symm
          simp [this]
        · simp only [List.find?_cons, hk, decide_false]; exact ih

@[simp] theorem Lpm.line_put (p : Lpm) (pos q : Nat) (x : Line) :
    (p.put pos x).line q = if q = pos then some x else p.line q := putLine_find p.lines pos q x

@[simp] theorem Lpm.line_free (p : Lpm) (pos q : Nat) : (p.free pos).line q = if q = pos then none else p.line q := by
  unfold Lpm.line Lpm.free
  by_cases h : q = pos
  · subst h; simp [List.find?_filter]
  · simp only [List.find?_filter, if_neg h]
    congr 2; funext e
    by_cases he : e.1 = q <;> simp [he, h]

@[simp] theorem Lpm.line_toTail (p : Lpm) (pos q : Nat) : (p.toTail pos).line q = p.line q := rfl

/-- An unpin does what R106 says, whatever stands at the position. -/
theorem Lpm.unpin_unpinned (p : Lpm) (pos : Nat) : p.Unpinned (p.unpin pos) pos := by
  constructor
  all_goals (unfold Lpm.unpin)
  · intro key pins h1 h2
    simp only [h1, h2, if_true, Bool.false_eq_true, if_false, Lpm.line_toTail, Lpm.line_put, true_and]
    exact rfl
  · intro key pins h1 h2; simp [h1, h2]; simp [Lpm.free]
  · intro n mask pins h1 h2; simp [h1, h2]
  · intro n mask pins h1 h2; simp [h1, h2]; simp [Lpm.free]
  · refine ⟨fun key pins doomed h1 h2 => ?_, fun n mask pins pending h1 h2 => ?_⟩ <;> simp [h1, Nat.not_le.mpr h2]
  · rintro (h | ⟨k, w, h⟩) <;> simp [h]
  · intro x hx; (repeat' split) <;> simp [hx]
  · (repeat' split) <;> simp [Lpm.put, Lpm.free, Lpm.toTail]

/-! ### Lines freed by a drop of wants and by the overlay's release -/

theorem Lpm.Frees.refl (p : Lpm) : p.Frees p := by
  refine ⟨fun _ h => h, (List.filter_eq_self.mpr fun x _ => ?_).symm⟩
  cases p.line x <;> rfl

theorem Lpm.Frees.trans {p q r : Lpm} (h : p.Frees q) (k : q.Frees r) : p.Frees r := by
  refine ⟨fun x hx => k.1 x (h.1 x hx), ?_⟩
  rw [k.2, h.2, List.filter_filter]
  congr 1; funext x
  have a := h.1 x; have b := k.1 x
  cases hp : p.line x <;> cases hq : q.line x <;> cases hr : r.line x <;> simp_all

theorem Lpm.frees_free {p : Lpm} {pos : Nat} {l : Line} (h : p.line pos = some l) : p.Frees (p.free pos) := by
  refine ⟨fun x hx => by rw [Lpm.line_free, hx]; simp, List.filter_congr fun x _ => ?_⟩
  by_cases hx : x = pos
  · subst hx; simp [h]
  · simp only [Lpm.line_free, if_neg hx]; cases p.line x <;> simp [hx]

theorem Lpm.frees_put {p : Lpm} {pos : Nat} {l m : Line} (h : p.line pos = some l) : p.Frees (p.put pos m) := by
  refine ⟨fun x hx => ?_, (List.filter_eq_self.mpr fun x _ => ?_).symm⟩
  · rw [Lpm.line_put, if_neg (by rintro rfl; simp [h] at hx), hx]
  · rw [Lpm.line_put]; split
    · simp
    · cases p.line x <;> rfl

/-- What freeing the FILLING line of a want makes of its record (R111). -/
def Line.wantFreed : Line → Option Line
  | .filling _ .none => none
  | .filling key .inFlight => some (.filling key .freePending)
  | l => some l

/-- What the release of the overlay makes of a record (R113). -/
def Line.released : Line → Option Line
  | .dirty n mask pins _ => if pins = 0 then none else some (.dirty n mask pins true)
  | l => some l

theorem Lpm.freeFilling_spec (p : Lpm) (pos : Nat) : p.Frees (p.freeFilling pos) ∧
    ∀ x, (p.freeFilling pos).line x = if x = pos then (p.line x).bind Line.wantFreed else p.line x := by
  unfold Lpm.freeFilling
  split
  · rename_i key h
    exact ⟨Lpm.frees_free h, fun x => by rw [Lpm.line_free]; split <;> simp_all [Line.wantFreed]⟩
  · rename_i key h
    exact ⟨Lpm.frees_put h, fun x => by rw [Lpm.line_put]; split <;> simp_all [Line.wantFreed]⟩
  · rename_i h1 h2
    refine ⟨.refl _, fun x => ?_⟩
    split
    · subst x
      cases h : p.line pos with
      | none => rfl
      | some l =>
        rcases l with ⟨k, w⟩ | ⟨k, pins, d⟩ | ⟨n, m, pins, pe⟩
        · cases w
          · exact absurd h (h1 k)
          · exact absurd h (h2 k)
          · rfl
        · rfl
        · rfl
    · rfl

theorem Lpm.releaseLine_spec (p : Lpm) (pos : Nat) : p.Frees (p.releaseLine pos) ∧
    ∀ x, (p.releaseLine pos).line x = if x = pos then (p.line x).bind Line.released else p.line x := by
  unfold Lpm.releaseLine
  split
  · rename_i n mask pins pe h
    split
    · exact ⟨Lpm.frees_free h, fun x => by rw [Lpm.line_free]; split <;> simp_all [Line.released]⟩
    · exact ⟨Lpm.frees_put h, fun x => by rw [Lpm.line_put]; split <;> simp_all [Line.released]⟩
  · rename_i h
    refine ⟨.refl _, fun x => ?_⟩
    split
    · subst x
      cases e : p.line pos with
      | none => rfl
      | some l =>
        rcases l with ⟨k, w⟩ | ⟨k, pins, d⟩ | ⟨n, m, pins, pe⟩
        · rfl
        · rfl
        · exact absurd e (h n m pins pe)
    · rfl

/-- A step at each of several positions, of a kind that doing twice changes nothing more. -/
theorem Lpm.foldl_steps {f : Lpm → Nat → Lpm} {g : Line → Option Line}
    (hf : ∀ p pos, p.Frees (f p pos) ∧ ∀ x, (f p pos).line x = if x = pos then (p.line x).bind g else p.line x)
    (hg : ∀ l, (g l).bind g = g l) (ps : List Nat) (p : Lpm) : p.Frees (ps.foldl f p) ∧
    ∀ x, (ps.foldl f p).line x = if x ∈ ps then (p.line x).bind g else p.line x := by
  induction ps generalizing p with
  | nil => exact ⟨.refl _, fun x => by simp⟩
  | cons a ps ih =>
    obtain ⟨h1, h2⟩ := hf p a
    obtain ⟨k1, k2⟩ := ih (f p a)
    refine ⟨h1.trans k1, fun x => ?_⟩
    rw [List.foldl_cons, k2, h2]
    by_cases ha : x = a
    · subst ha
      simp only [if_true, List.mem_cons, true_or]
      split
      · cases p.line x <;> simp [hg]
      · rfl
    · simp [ha]

/-- The lines of dropped wants are freed (R111, R147). -/
theorem Lpm.foldl_freeFilling_wantsFreed (p : Lpm) (ws : List Want) :
    p.WantsFreed ((ws.map Want.line).foldl Lpm.freeFilling p) ws := by
  obtain ⟨h1, h2⟩ := Lpm.foldl_steps Lpm.freeFilling_spec
    (fun l => by rcases l with ⟨k, w⟩ | _ | _ <;> [cases w; skip; skip] <;> rfl) (ws.map Want.line) p
  refine ⟨h1, fun x => ?_⟩
  rw [h2]
  simp only [List.mem_map]
  by_cases h : ∃ w ∈ ws, w.line = x
  · simp only [if_pos h]
    cases e : p.line x with
    | none => rfl
    | some l => rcases l with ⟨k, w⟩ | _ | _ <;> [cases w; skip; skip] <;> rfl
  · simp only [if_neg h]

/-- The overlay is released (R113). -/
theorem Lpm.releaseOverlay_released (p : Lpm) : p.OverlayReleased p.releaseOverlay := by
  obtain ⟨h1, h2⟩ := Lpm.foldl_steps Lpm.releaseLine_spec
    (fun l => by
      rcases l with _ | _ | ⟨n, m, pins, pe⟩
      · rfl
      · rfl
      · by_cases hp : pins = 0 <;> simp [Line.released, hp])
    ((p.lines.filter (fun e => e.2.isDirty)).map Prod.fst) p
  refine ⟨h1, fun x => (h2 x).trans ?_⟩
  cases e : p.line x with
  | none => split <;> rfl
  | some l =>
    rcases l with _ | _ | ⟨n, m, pins, pe⟩
    · split <;> rfl
    · split <;> rfl
    · rw [if_pos (List.mem_map.mpr ⟨_, List.mem_filter.mpr ⟨Lpm.mem_of_line e, rfl⟩, rfl⟩)]
      rfl

/-- What a retire makes of a line of the image (R112). -/
def Line.retired : Line → Option Line
  | .filling _ .none => none
  | .filling key .inFlight => some (.filling key .freePending)
  | .filling key .freePending => some (.filling key .freePending)
  | .clean key pins _ => if pins = 0 then none else some (.clean key pins true)
  | .dirty n mask pins pending => some (.dirty n mask pins pending)

theorem Lpm.line_retireLine (p : Lpm) (pos q : Nat) :
    (p.retireLine pos).line q = if q = pos then (p.line pos).bind Line.retired else p.line q := by
  unfold Lpm.retireLine
  by_cases hq : q = pos
  · subst hq
    cases h : p.line q with
    | none => simp [h]
    | some l =>
      rcases l with ⟨k, w⟩ | ⟨k, pins, d⟩ | ⟨n, m, pins, pe⟩
      · cases w <;> simp [h, Lpm.freeFilling, Line.retired]
      · by_cases hp : pins = 0 <;> simp [hp, Line.retired]
      · simp [h, Line.retired]
  · simp only [hq, if_false]
    unfold Lpm.freeFilling
    (repeat' split) <;> simp [hq]

theorem Lpm.line_retireFold (ps : List Nat) (p : Lpm) (h : ps.Nodup) (q : Nat) :
    (ps.foldl Lpm.retireLine p).line q = if q ∈ ps then (p.line q).bind Line.retired else p.line q := by
  induction ps generalizing p with
  | nil => simp
  | cons a ps ih =>
    rw [List.nodup_cons] at h
    rw [List.foldl_cons, ih _ h.2]
    by_cases hq : q = a
    · subst hq; simp [h.1, Lpm.line_retireLine]
    · simp [hq, Lpm.line_retireLine]

/-- The lines that a retire frees leave the recency list (R107, R112). -/
theorem Lpm.retireLine_frees (p : Lpm) (pos : Nat) : p.Frees (p.retireLine pos) := by
  unfold Lpm.retireLine
  split
  · exact (p.freeFilling_spec pos).1
  · rename_i h
    split
    · exact Lpm.frees_free h
    · exact Lpm.frees_put h
  · exact .refl _

theorem Lpm.retire_frees (p : Lpm) (image gen : Nat) : p.Frees (p.retire image gen) := by
  unfold Lpm.retire
  generalize (p.lines.filter (fun e => e.2.ofImage image gen)).map Prod.fst = ps
  induction ps generalizing p with
  | nil => exact .refl _
  | cons a ps ih => exact (p.retireLine_frees a).trans (ih _)

/-- A retire of an image generation, line by line (R112). -/
theorem Lpm.line_retire (p : Lpm) (image gen : Nat) (h : p.Placed) (q : Nat) :
    (p.retire image gen).line q = (p.line q).bind (fun l => if l.ofImage image gen then l.retired else some l) := by
  have nd : (((p.lines.filter (fun e => e.2.ofImage image gen)).map Prod.fst)).Nodup := by
    have := h.rising.filter (fun e => e.2.ofImage image gen)
    rw [List.nodup_iff_pairwise_ne, List.pairwise_map]
    exact this.imp (fun h => Nat.ne_of_lt h)
  rw [Lpm.retire, Lpm.line_retireFold _ _ nd]
  cases hl : p.line q with
  | none => simp
  | some l =>
    have : q ∈ ((p.lines.filter (fun e => e.2.ofImage image gen)).map Prod.fst) ↔ l.ofImage image gen = true := by
      constructor
      · intro hm
        obtain ⟨e, he, rfl⟩ := List.mem_map.mp hm
        rw [List.mem_filter] at he
        have := Lpm.line_of_mem h.rising he.1
        rw [hl] at this; cases this; exact he.2
      · intro hi
        exact List.mem_map.mpr ⟨(q, l), List.mem_filter.mpr ⟨Lpm.mem_of_line hl, hi⟩, rfl⟩
    by_cases hi : l.ofImage image gen = true <;> simp [this, hi]

end Sys2Proof.Machine
end

