-- ==== Sys2Proof/Laws/Media.lean ====
section
/-! SUPPORT. What the end of a request and the teardown of an attachment do (R131, R132, R135). -/

namespace Sys2Proof.Machine

theorem Lpm.foldl_unpin_unpinnedInTurn (l : List Nat) (p : Lpm) : p.UnpinnedInTurn l (l.foldl Lpm.unpin p) := by
  induction l generalizing p with
  | nil => exact .done _
  | cons a l ih => exact .next (Lpm.unpin_unpinned p a) (ih _)

theorem State.dropWants_placed (s : State) (image gen : Nat) (h : s.lpm.Placed) : (s.dropWants image gen).lpm.Placed := by
  obtain ⟨l, g, w, e⟩ := s.withdrawWants_onlyWithdraws (s.xch.wants.filter (fun w => w.ofImage image gen))
  unfold State.dropWants
  dsimp only
  rw [e]
  exact Lpm.Placed.foldl (fun p a hp => hp.freeFilling a) _ h

theorem State.withdrawMedia_placed (s : State) (p : MediaReq → Bool) (h : s.lpm.Placed) : (s.withdrawMedia p).lpm.Placed :=
  Lpm.Placed.foldl (fun _ a hq => hq.unpin a) _ h

theorem State.teardown_tornDown (s : State) : s.TornDown s.teardown := by
  unfold State.teardown
  dsimp only
  generalize hs1 : ({ s with mfn := { s.mfn.disconnect with state := .detaching, drain := none } } : State) = s1
  obtain ⟨l, g, w, x, y, e⟩ := State.dropWants_eq s1 s.mfn.image s.mfn.gen
  have hf : s1.lpm.WantsFreed (s1.dropWants s.mfn.image s.mfn.gen).lpm
      (s1.xch.wants.filter (fun w => w.ofImage s.mfn.image s.mfn.gen)) := by
    have : (s1.dropWants s.mfn.image s.mfn.gen).lpm = ((s1.xch.wants.filter (fun w => w.ofImage s.mfn.image s.mfn.gen)).map
        Want.line).foldl Lpm.freeFilling s1.lpm := by
      obtain ⟨_, _, _, e⟩ := s1.withdrawWants_onlyWithdraws (s1.xch.wants.filter (fun w => w.ofImage s.mfn.image s.mfn.gen))
      unfold State.dropWants; dsimp only; rw [e]
    rw [this]; exact Lpm.foldl_freeFilling_wantsFreed _ _
  generalize hs2 : s1.dropWants s.mfn.image s.mfn.gen = s2 at *
  obtain ⟨x', y', e'⟩ := State.withdrawMedia_eq s2 (fun _ => true)
  have hu : s2.lpm.UnpinnedInTurn (s2.mctl.waitMedia.map MediaReq.line) (s2.withdrawMedia (fun _ => true)).lpm := by
    have := Lpm.foldl_unpin_unpinnedInTurn (s2.mctl.waitMedia.map MediaReq.line) s2.lpm
    rw [show (s2.withdrawMedia (fun _ => true)).lpm = (s2.mctl.waitMedia.map MediaReq.line).foldl Lpm.unpin s2.lpm by
      simp [State.withdrawMedia]]
    exact this
  generalize hs3 : s2.withdrawMedia (fun _ => true) = s3 at *
  obtain ⟨x'', y'', e''⟩ := Lpm.releaseOverlay_onlyLines s3.lpm
  have hd := Lpm.releaseOverlay_released s3.lpm
  generalize hp3 : s3.lpm.releaseOverlay = p3 at *
  have hl : s1.lpm = s.lpm := by rw [← hs1]
  have hx : s1.xch = s.xch := by rw [← hs1]
  have hm : s2.mctl.waitMedia = s.mctl.waitMedia := by rw [e, ← hs1]
  have hx2 : s2.xch = s.xch.voidImage s.mfn.image s.mfn.gen .dropped := by rw [e, hx]
  have hx3 : s3.xch = s.xch.voidImage s.mfn.image s.mfn.gen .dropped := by rw [e', ← hx2]
  have hw : s2.lif = (s1.withdrawWants (s1.xch.wants.filter (fun w => w.ofImage s.mfn.image s.mfn.gen))).lif := by
    rw [← hs2]; rfl
  have hl3 : s3.lif = s2.lif := by rw [e']
  have hf1 := s1.withdrawWants_withdrawn (s1.xch.wants.filter (fun w => w.ofImage s.mfn.image s.mfn.gen))
  refine ⟨?_, ?_, ?_, ?_⟩
  · subst e''; subst e'; subst e; subst hs1
    simp [Xch.voidImage, Mfn.disconnect]
  · show s3.xch.wants = _
    rw [hx3]; rfl
  · show s.lif.WantsWithdrawn s3.lif _
    rw [hl3, hw, ← hx, show s.lif = s1.lif by rw [← hs1]]
    exact hf1
  · rw [hl, hx] at hf; rw [hm] at hu
    exact ⟨_, _, hf, hu, hd⟩

theorem Mctl.withoutReads_eq (m : Mctl) (serial : Nat) :
    ({ m with waitMedia := m.waitMedia.filter (fun r => !(r.isRead && r.request = serial)) } : Mctl).dropCurrentMedia
      (fun r => r.isRead && r.request = serial) = m.withoutReads serial := by
  unfold Mctl.dropCurrentMedia Mctl.withoutReads
  cases hc : m.current with
  | none => simp
  | some c =>
    obtain ⟨q, rep⟩ := c
    cases q <;> simp
    split <;> simp_all

/-- The end of the request in progress: its reads are withdrawn, and a draining attachment is torn down. -/
theorem State.closeRequest_eq (s : State) (r : Request) (h : s.mfn.request = some r) : ∃ lines recency,
    let s1 : State := { s with
      mfn := { s.mfn with request := none }
      mctl := s.mctl.withoutReads r.serial
      lpm := { s.lpm with lines := lines, recency := recency } }
    (s.lpm.Placed → s1.lpm.Placed) ∧ s.closeRequest = if s.mfn.draining then s1.teardown else s1 := by
  obtain ⟨x, y, e⟩ := State.withdrawMedia_eq s (fun m => m.isRead && m.request = r.serial)
  have hp := State.withdrawMedia_placed s (fun m => m.isRead && m.request = r.serial)
  refine ⟨x, y, ?_, ?_⟩
  · rw [e] at hp; exact hp
  · have hw : s.withdrawReads (fun m => m.request = r.serial) = { s with
        mctl := s.mctl.withoutReads r.serial, lpm := { s.lpm with lines := x, recency := y } } := by
      unfold State.withdrawReads
      rw [e, ← Mctl.withoutReads_eq]
    have hc : s.closeRequest = (fun s1 : State =>
        let s2 : State := { s1 with mfn := { s1.mfn with request := none } }
        if s2.mfn.draining then s2.teardown else s2) (s.withdrawReads (fun m => m.request = r.serial)) := by
      unfold State.closeRequest
      rw [h]
    rw [hc, hw]
    rfl

end Sys2Proof.Machine
end

