-- ==== Sys2Proof/Laws/Settle.lean ====
section
/-! SUPPORT. The end of a step is its run, and what each part of the run does that is one case split: the end of a
detach, the capture write, the input item, SELF-REFRESH, the notice, the refusals of SILENT, the give's read, the unit. -/

namespace Sys2Proof.Machine

/-- What the end of a step leaves alone: the state without the fields that `settle` takes from its run. -/
def State.beside (s : State) : State := { s with
    lif := { s.lif with sendList := [], nextSeq := 0, giveBuf := .free }
    adm := { s.adm with own := [] }
    ptu := { s.ptu with standing := none }
    ord := { s.ord with inbox := [], restartReply := none }
    ntu := { s.ntu with pending := [], counter := 0, standing := none, raisedAgain := false }
    ccu := { s.ccu with lost := 0, garbled := 0, marks := [], markCounter := 0, run := 0 }
    cfw := { s.cfw with watchers := [], out := none, turn := 0, tx := .idle }
    mctl := { s.mctl with
      mem := .down
      restarting := false
      retention := false
      current := none
      waitCapture := false
      waitMedia := []
      waitForward := none
      waitSend := none }
    lpm := { s.lpm with lines := [], recency := [] }
    xch := { s.xch with wants := [], gives := [] }
    mfn := { s.mfn with
      state := .none
      cause := none
      drain := none
      tracker := none
      lastCause := none
      port := .unpowered
      remoteWake := false
      request := none
      usbStatus := none }
    upb := { s.upb with outq := [], tx := none }
    fresh := 0 }

theorem settle_eq_of_beside (s : State) (h : State.beside s.settleRun = State.beside s) : settle s = s.settleRun := by
  unfold settle
  generalize s.settleRun = r at *
  dsimp only
  cases r with | mk now rstn pins sld ptu lif adm psq wdu ccu cfw mctl sdram lpm xch mfn ord ntu upb fresh pending =>
  simp only [State.beside, State.mk.injEq, Lif.mk.injEq, Adm.mk.injEq, Ptu.mk.injEq, Ord.mk.injEq, Ntu.mk.injEq, Ccu.mk.injEq, Cfw.mk.injEq, Mctl.mk.injEq, Lpm.mk.injEq, Xch.mk.injEq, Mfn.mk.injEq, Upb.mk.injEq] at h
  cases lif; cases adm; cases ptu; cases ord; cases ntu; cases ccu; cases cfw; cases mctl; cases lpm; cases xch; cases mfn; cases upb
  simp_all

theorem State.OnlyWithdraws.beside {s t : State} (h : s.OnlyWithdraws t) : State.beside t = State.beside s := by
  obtain ⟨l, g, w, rfl⟩ := h; rfl

theorem State.dropWants_beside (s : State) (i g : Nat) : State.beside (s.dropWants i g) = State.beside s := by
  obtain ⟨l, g', w, x, y, e⟩ := State.dropWants_eq s i g
  rw [e]; rfl

theorem State.withdrawMedia_beside (s : State) (p) : State.beside (s.withdrawMedia p) = State.beside s := by
  obtain ⟨x, y, e⟩ := State.withdrawMedia_eq s p
  rw [e]; rfl

theorem State.teardown_beside (s : State) : State.beside s.teardown = State.beside s := by
  have h := s.teardown_tornDown.frame
  rw [h]; rfl

theorem State.closeRequest_beside (s : State) : State.beside s.closeRequest = State.beside s := by
  cases hr : s.mfn.request with
  | none => unfold State.closeRequest; rw [hr]
  | some r =>
    obtain ⟨x, y, -, e⟩ := State.closeRequest_eq s r hr
    rw [e]; split
    · rw [State.teardown_beside]; rfl
    · rfl

theorem State.failRequest_beside (s : State) (st) : State.beside (s.failRequest st) = State.beside s := by
  unfold State.failRequest; rw [State.closeRequest_beside]; rfl

theorem State.raise_beside (s : State) (k d) : State.beside (s.raise k d) = State.beside s := by
  unfold State.raise Ntu.raise; (repeat' split) <;> rfl

theorem State.mark_beside (s : State) (k d) : State.beside (s.mark k d) = State.beside s := by
  unfold State.mark Ccu.addMark Ccu.putLosses Ccu.putLost Ccu.putGarbled; (repeat' split) <;> rfl

theorem Lpm.take_frame {p q : Lpm} {pos} (h : p.take = some (pos, q)) : q.poolSize = p.poolSize ∧ q.reserve = p.reserve := by
  unfold Lpm.take at h; (repeat' split at h) <;> simp at h <;> obtain ⟨-, rfl⟩ := h <;> simp [Lpm.free]

theorem State.xchAsk_beside (s : State) (k p) : State.beside (s.xchAsk k p).2 = State.beside s := by
  unfold State.xchAsk
  (repeat' split) <;> try rfl
  rename_i h
  unfold Lpm.allocFilling at h
  (repeat' split at h) <;> simp at h
  rename_i h2
  obtain ⟨-, rfl⟩ := h
  have := Lpm.take_frame h2
  simp [State.beside, Lpm.put, this]

theorem State.setRequest_beside (s : State) (r) : State.beside (s.setRequest r) = State.beside s := rfl

theorem State.askStep_beside (s : State) (st) : State.beside (s.askStep st) = State.beside s := by
  unfold State.askStep
  split
  · split
    · have := State.xchAsk_beside s (s.mfn.key st.line) .demand
      split <;> rename_i h <;> rw [h] at this <;> simp only at this
      · rw [State.setRequest_beside, this]
      · rw [State.setRequest_beside, this]
      · rw [State.setRequest_beside, this]
      · rw [State.failRequest_beside, State.raise_beside, this]
    · rfl
  · rfl

theorem State.foldl_beside {α} (f : State → α → State) (h : ∀ s a, State.beside (f s a) = State.beside s) (l : List α) (s : State) : State.beside (l.foldl f s) = State.beside s := by
  induction l generalizing s with
  | nil => rfl
  | cons a l ih => rw [List.foldl_cons, ih, h]

theorem State.askWants_beside (s : State) : State.beside s.askWants = State.beside s := by
  unfold State.askWants
  split
  · rw [State.foldl_beside _ State.askStep_beside]; rfl
  · rfl

theorem State.withdrawReads_beside (s : State) (p) : State.beside (s.withdrawReads p) = State.beside s := by
  unfold State.withdrawReads
  have := State.withdrawMedia_beside s (fun r => r.isRead && p r)
  generalize s.withdrawMedia (fun r => r.isRead && p r) = t at *
  rw [← this]; unfold Mctl.dropCurrentMedia; dsimp only; (repeat' split) <;> rfl

theorem State.relookStep_beside (s : State) (r st) : State.beside (s.relookStep r st) = State.beside s := by
  unfold State.relookStep; dsimp only; rw [State.setRequest_beside, State.withdrawReads_beside]

theorem State.askFetch_beside (s : State) : State.beside s.askFetch = State.beside s := by
  unfold State.askFetch
  (repeat' split) <;> try rfl
  · rename_i h
    simp only [Option.bind_eq_some_iff, Option.map_eq_some_iff] at h
    obtain ⟨a, -, p, hp, h⟩ := h
    cases h
    unfold Lpm.pin at hp
    rw [State.setRequest_beside]
    (repeat' split at hp) <;> simp at hp <;> subst hp <;> rfl
  · exact State.relookStep_beside _ _ _

theorem State.askStore_beside (s : State) : State.beside s.askStore = State.beside s := by
  unfold State.askStore
  (repeat' split) <;> try rfl
  · rename_i h
    rw [State.setRequest_beside]
    unfold Lpm.allocOverlay at h
    (repeat' split at h) <;> simp at h
    · obtain ⟨-, rfl⟩ := h; rfl
    · rename_i h2; have := Lpm.take_frame h2
      obtain ⟨-, rfl⟩ := h
      simp [State.beside, Lpm.put, this, Mctl.askMedia]
  · rw [State.failRequest_beside, State.raise_beside]
  · rw [State.failRequest_beside, State.raise_beside]

theorem State.mediaRun_beside (n) (s : State) : State.beside (State.mediaRun n s) = State.beside s := by
  induction n generalizing s with
  | zero => rfl
  | succ n ih => unfold State.mediaRun; rw [ih, State.askStore_beside, State.askFetch_beside, State.askWants_beside]

theorem State.mediaAdvance_beside (s : State) : State.beside s.mediaAdvance = State.beside s := by
  unfold State.mediaAdvance; split
  · exact State.mediaRun_beside _ _
  · rfl

theorem State.detachComplete_beside (s : State) : State.beside s.detachComplete = State.beside s := by
  unfold State.detachComplete
  (repeat' split) <;> try rfl
  rename_i c h
  have := (State.raise_beside (s.mark .mediaDetached c.markArg) .mediaDetached (c.code :: (be 2 s.mfn.image ++ be 1 s.mfn.gen))).trans (State.mark_beside _ _ _)
  generalize ((s.mark .mediaDetached c.markArg).raise .mediaDetached (c.code :: (be 2 s.mfn.image ++ be 1 s.mfn.gen))) = t at *
  rw [← this]; rfl

theorem State.askCapture_beside (s : State) : State.beside s.askCapture = State.beside s := by
  unfold State.askCapture; split <;> rfl

theorem State.startInput_beside (s : State) : State.beside s.startInput = State.beside s := by
  unfold State.startInput; (repeat' split) <;> try rfl
  rename_i st _ _
  have := State.mark_beside s .breakOut st
  generalize s.mark .breakOut st = t at *
  simp only; rw [← this]; rfl

theorem State.serveWatcher_beside (s : State) : State.beside s.serveWatcher = State.beside s := by
  unfold State.serveWatcher
  split
  · split
    · dsimp only
      split
      · rfl
      · unfold Cfw.buildFor
        generalize Watcher.build _ _ _ _ _ _ = b
        cases b <;> rfl
    · rfl
  · rfl

theorem State.enterSelfRefresh_beside (s : State) : State.beside s.enterSelfRefresh = State.beside s := by
  unfold State.enterSelfRefresh; split <;> rfl

theorem State.askNotice_beside (s : State) : State.beside s.askNotice = State.beside s := by
  unfold State.askNotice; split <;> rfl

theorem State.refuseSilent_beside (s : State) : State.beside s.refuseSilent = State.beside s := by
  unfold State.refuseSilent; split <;> rfl

theorem State.acceptOffer_beside (s : State) (o) : State.beside (s.acceptOffer o) = State.beside s := by
  unfold State.acceptOffer State.listed; dsimp only; split <;> try rfl
  · unfold Ord.replyListed; split <;> rfl
  · unfold Xch.listWant; split <;> rfl

theorem State.takeOffer_beside (s : State) : State.beside s.takeOffer = State.beside s := by
  unfold State.takeOffer; split <;> try rfl
  · exact State.acceptOffer_beside _ _
  · rw [State.acceptOffer_beside]; rfl

theorem State.takeOffers_beside (n) (s : State) : State.beside (State.takeOffers n s) = State.beside s := by
  induction n generalizing s with
  | zero => rfl
  | succ n ih => unfold State.takeOffers; rw [ih, State.takeOffer_beside]

theorem State.askGiveRead_beside (s : State) : State.beside s.askGiveRead = State.beside s := by
  unfold State.askGiveRead; (repeat' split) <;> rfl

theorem State.startUnit_beside (s : State) : State.beside s.startUnit = State.beside s := by
  unfold State.startUnit; (repeat' split) <;> rfl

/-- The end of a step is its run: the frame written in `settle` leaves out nothing that the run changes. -/
theorem settle_eq_run (s : State) : settle s = s.settleRun := by
  apply settle_eq_of_beside
  unfold State.settleRun State.settleOffers
  rw [State.startUnit_beside, State.askGiveRead_beside, State.takeOffers_beside, State.refuseSilent_beside, State.askNotice_beside, State.enterSelfRefresh_beside, State.serveWatcher_beside, State.startInput_beside, State.askCapture_beside, State.detachComplete_beside, State.mediaAdvance_beside]

/-- All that the end of a detach does (R135). -/
theorem State.detachComplete_detachEnds (s : State) : s.DetachEnds s.detachComplete := by
  constructor
  · intro c h1 h2 h3
    have hr : ∀ k d, (s.mark .mediaDetached c.markArg).raise k d =
        { s.mark .mediaDetached c.markArg with ntu := (s.raise k d).ntu } := by
      intro k d; unfold State.raise
      change (if s.takesRaises = true then _ else _) = _
      split <;> rfl
    unfold State.detachComplete
    simp only [h1, h2, h3, decide_true, Bool.and_self, if_true, hr]
    rfl
  · intro h
    unfold State.detachComplete
    rcases h with h | h | h
    · simp [h]
    · simp only [h]; split <;> rfl
    · simp [h]

/-- All that asking a capture write does (R54). -/
theorem State.askCapture_captureAsked (s : State) : s.CaptureAsked s.askCapture := by
  constructor
  · intro h1 h2
    unfold State.askCapture Mctl.captureCurrent
    cases hc : s.mctl.current with
    | none => simp [List.length_pos_iff, h1]
    | some c =>
      obtain ⟨q, r⟩ := c
      cases q <;> simp [List.length_pos_iff, h1]
      intro h3; exact absurd (h2 _ _ hc rfl) (Nat.not_lt.2 h3)
  · intro h
    unfold State.askCapture Mctl.captureCurrent
    rcases h with h | ⟨c, n, h1, h2, h3⟩
    · simp [h]
    · obtain ⟨q, r⟩ := c
      simp only at h2; subst h2
      simp only [h1]
      rw [if_neg (Nat.not_lt.2 h3)]

/-- All that beginning an input item does (R80). -/
theorem State.startInput_inputBegun (s : State) : s.InputBegun s.startInput := by
  constructor
  · intro b rest h1 h2 h3; unfold State.startInput; simp [h1, h2, h3]
  · intro x rest h1 h2 h3; unfold State.startInput; simp [h1, h2, h3, State.mark]
  · intro h; unfold State.startInput
    rcases h with h | h | h
    · simp [h]
    · simp [h]
    · simp only [h]; split <;> rfl

/-- All that the entry to SELF-REFRESH does (R101). -/
theorem State.enterSelfRefresh_entered (s : State) : s.SelfRefreshEntered s.enterSelfRefresh := by
  constructor
  · intro h1 h2 h3 h4 h5; unfold State.enterSelfRefresh; simp [*]
  · intro h; unfold State.enterSelfRefresh
    rw [if_neg]
    simp only [Bool.and_eq_true, decide_eq_true_eq, not_and, List.isEmpty_iff, Option.isNone_iff_eq_none]
    intro ⟨⟨⟨h1, h2⟩, h3⟩, h4⟩ h5
    rcases h with h | h | h | h | h
    · simp_all
    · exact h h2
    · exact h h3
    · simp_all
    · omega

/-- All that asking a NOTICE does (R199). -/
theorem State.askNotice_noticeAsked (s : State) : s.NoticeAsked s.askNotice := by
  constructor
  · intro h1 h2 h3 h4; unfold State.askNotice; simp [*]
  · intro h; unfold State.askNotice
    rw [if_neg]
    simp only [Bool.and_eq_true, not_and, Bool.not_eq_true', List.isEmpty_eq_false_iff, Option.isNone_iff_eq_none]
    intro ⟨⟨h1, h2⟩, h3⟩ h4
    rcases h with h | h | h | h <;> simp_all

/-- All that LIF's refusal in SILENT does (R154, R197). -/
theorem State.refuseSilent_silentRefused (s : State) : s.SilentRefused s.refuseSilent := by
  constructor
  · intro h
    refine ⟨if s.offerOrd.isSome then s.ord.inbox.drop 1 else s.ord.inbox, ?_, ?_, ?_, ?_⟩
    · unfold State.refuseSilent
      rw [if_pos h]
      have : (fun w : Want => w.sentSilent s.wantDue) = (fun w => if w.state = .queued .held then { w with state := .sent, timer := some (after s.now (s.setting Settings.wantTimer)) } else w) := by
        funext w; unfold Want.sentSilent Want.isHeld State.wantDue; simp
      rw [this]
    · intro o rest reply restart h1 h2; simp [State.offerOrd, h1, h2]
    · intro o rest h1 h2; simp [State.offerOrd, h1, h2]
    · intro h1; simp [State.offerOrd, h1]
  · intro h; unfold State.refuseSilent; rw [if_neg h]

/-- All that asking a give's read does (R169). -/
theorem State.askGiveRead_giveReadAsked (s : State) : s.GiveReadAsked s.askGiveRead := by
  constructor
  · intro e key line h1 h2 h3; unfold State.askGiveRead; simp [h1, h2, h3]
  · intro h; unfold State.askGiveRead
    split
    · split
      · rename_i e he _ k l hp
        rcases h with h | h
        · rw [if_neg h]
        · exact absurd hp (h _ _ _ he)
      · rfl
    · rfl

/-- All that beginning a unit does (R208). -/
theorem State.startUnit_unitBegun (s : State) : s.UnitBegun s.startUnit := by
  constructor
  · intro u rest h1 h2 h3 h4 h5; unfold State.startUnit
    rw [if_pos (by simp [h1, h2, h3]; tauto), h4]; rfl
  · intro h; unfold State.startUnit
    by_cases hc : s.upb.inq = []
    · simp only [hc]; split <;> rfl
    · rw [if_neg]
      simp only [Bool.and_eq_true, Bool.or_eq_true, decide_eq_true_eq, not_and, Bool.not_eq_true', Option.isNone_iff_eq_none]
      intro ⟨⟨h1, h2⟩, h3⟩ h4
      rcases h with h | h | h | h | h | h <;> simp_all

end Sys2Proof.Machine
end

