-- ==== Sys2Proof/Laws/Watchers.lean ====
section
/-! SUPPORT. Whose turn it is among the watchers, and what serving it does (R72 to R75). -/

namespace Sys2Proof.Machine

/-- The marks from a number onward, by their places in the history. -/
theorem Ccu.mem_marksFrom_iff (c : Ccu) (n : BitVec 32) (m : Mark) :
    m ∈ c.marksFrom n ↔ ∃ i, c.marks[i]? = some m ∧ c.FromNumber n i := by
  unfold Ccu.marksFrom Ccu.FromNumber
  by_cases h0 : n = c.markCounter
  · simp [h0]
  rw [if_neg h0]
  by_cases h1 : c.marks.any (fun m => m.number = n) = true
  · rw [if_pos h1]
    simp only [ne_eq, h0, not_false_eq_true, true_and]
    generalize c.marks = l at *
    clear h0
    induction l with
    | nil => simp at h1
    | cons a l ih =>
      by_cases ha : a.number = n
      · have : List.dropWhile (fun m : Mark => decide ¬m.number = n) (a :: l) = a :: l := by simp [List.dropWhile, ha]
        rw [this]
        constructor
        · intro hm
          obtain ⟨i, hi, e⟩ := List.getElem_of_mem hm
          refine ⟨i, by rw [List.getElem?_eq_getElem hi, e], ?_⟩
          intro j x hj hx hno
          rcases j with _ | j
          · omega
          · exact absurd ha (hno 0 (by omega) a (by simp))
        · rintro ⟨i, hi, -⟩
          exact List.mem_of_getElem? hi
      · have hd : List.dropWhile (fun m : Mark => decide ¬m.number = n) (a :: l) = List.dropWhile (fun m => decide ¬m.number = n) l := by
          simp [List.dropWhile, ha]
        have h1' : (l.any fun m => decide (m.number = n)) = true := by simpa [ha] using h1
        rw [hd, ih h1']
        constructor
        · rintro ⟨i, hi, hf⟩
          refine ⟨i+1, by simpa using hi, ?_⟩
          intro j x hj hx hno
          rcases j with _ | j
          · omega
          · have := hf j x (by simpa using hj) hx (fun k hk y hy => hno (k+1) (by omega) y (by simpa using hy))
            omega
        · rintro ⟨i, hi, hf⟩
          rcases i with _ | i
          · exfalso
            -- there is a first place with number n, which is ≥ 1
            have hex : ∃ j : Nat, ∃ x : Mark, l[j]? = some x ∧ x.number = n := by
              simp only [List.any_eq_true, decide_eq_true_eq] at h1'
              obtain ⟨x, hx, e⟩ := h1'
              obtain ⟨j, hj, e2⟩ := List.getElem_of_mem hx
              exact ⟨j, x, by rw [List.getElem?_eq_getElem hj, e2], e⟩
            classical
            let j := Nat.find hex
            obtain ⟨x, hx, e⟩ := Nat.find_spec hex
            have := hf (j+1) x (by simpa using hx) e (by
              intro k hk y hy hyn
              rcases k with _ | k
              · simp at hy; subst hy; exact ha hyn
              · exact Nat.find_min hex (show k < j by omega) ⟨y, by simpa using hy, hyn⟩)
            omega
          · refine ⟨i, by simpa using hi, ?_⟩
            intro j x hj hx hno
            have := hf (j+1) x (by simpa using hj) hx (by
              intro k hk y hy
              rcases k with _ | k
              · simp at hy; subst hy; exact ha
              · exact hno k (by omega) y (by simpa using hy))
            omega
  · rw [if_neg h1]
    simp only [List.any_eq_true, decide_eq_true_eq, not_exists, not_and] at h1
    constructor
    · intro hm
      obtain ⟨i, hi, e⟩ := List.getElem_of_mem hm
      refine ⟨i, by rw [List.getElem?_eq_getElem hi, e], h0, ?_⟩
      intro j x hj hx; exact absurd hx (h1 x (List.mem_of_getElem? hj))
    · rintro ⟨i, hi, -⟩; exact List.mem_of_getElem? hi

theorem Watcher.ready_iff (w : Watcher) (c : Ccu) (now : Time) : w.Ready c now ↔ w.isReady c now = true := by
  unfold Watcher.isReady Watcher.readable Watcher.waited
  simp only [Bool.and_eq_true, Bool.or_eq_true, Option.isNone_iff_eq_none, decide_eq_true_eq, List.any_eq_true, Ccu.mem_marksFrom_iff]
  constructor
  · rintro ⟨h1, h2, h3⟩
    refine ⟨⟨h1, h2⟩, ?_⟩
    rcases h3 with h | ⟨h, st, e, r⟩ | ⟨i, m, hi, hf, ho⟩
    · left; left; omega
    · left; right; exact ⟨by omega, by rw [e]; exact r⟩
    · right; exact ⟨m, ⟨i, hi, hf⟩, ho⟩
  · rintro ⟨⟨h1, h2⟩, h3⟩
    refine ⟨h1, h2, ?_⟩
    rcases h3 with (h | ⟨h, r⟩) | ⟨m, ⟨i, hi, hf⟩, ho⟩
    · left; omega
    · right; left
      refine ⟨by omega, ?_⟩
      cases e : w.waitStart with
      | none => rw [e] at r; simp at r
      | some st => rw [e] at r; exact ⟨st, rfl, r⟩
    · right; right; exact ⟨i, m, hi, hf, ho⟩

theorem findSome?_first {α β} (f : α → Option β) : ∀ (l : List α) (b : β), l.findSome? f = some b →
    ∃ (i : Nat) (a : α), l[i]? = some a ∧ f a = some b ∧ ∀ k < i, ∀ x : α, l[k]? = some x → f x = none := by
  intro l
  induction l with
  | nil => intro b h; simp at h
  | cons a l ih =>
    intro b h
    rw [List.findSome?_cons] at h
    cases e : f a with
    | some c => rw [e] at h; simp at h; subst h; exact ⟨0, a, by simp, e, by omega⟩
    | none =>
      rw [e] at h
      obtain ⟨i, x, h1, h2, h3⟩ := ih b h
      refine ⟨i+1, x, by simpa using h1, h2, ?_⟩
      intro k hk y hy
      rcases k with _ | k
      · simp at hy; subst hy; exact e
      · exact h3 k (by omega) y (by simpa using hy)

/-- The watcher whose turn it is, by the search `Cfw.pick` makes. -/
theorem State.turn_iff_pick (s : State) (j : Nat) (w : Watcher) (h0 : s.cfw.out = none) :
    s.Turn j w ↔ s.cfw.pick s.ccu s.now = some (j, w) := by
  unfold Cfw.pick
  dsimp only
  set n := s.cfw.watchers.length with hn
  set start := if s.cfw.turn < n then s.cfw.turn else 0 with hs
  set f : Nat → Option (Nat × Watcher) := (fun j => match s.cfw.watchers[j]? with
    | some w => if w.isReady s.ccu s.now = true then some (j, w) else none
    | none => none) with hf
  have fsome : ∀ a b v, f a = some (b, v) ↔ a = b ∧ s.cfw.watchers[a]? = some v ∧ v.isReady s.ccu s.now = true := by
    intro a b v
    simp only [hf]
    cases e : s.cfw.watchers[a]? with
    | none => simp
    | some x =>
      by_cases hr : x.isReady s.ccu s.now = true
      · simp only [hr, if_true, Option.some.injEq, Prod.mk.injEq]
        constructor
        · rintro ⟨rfl, rfl⟩; exact ⟨rfl, rfl, hr⟩
        · rintro ⟨rfl, rfl, -⟩; exact ⟨rfl, rfl⟩
      · simp only [hr, Bool.false_eq_true, if_false]
        constructor
        · intro h; cases h
        · rintro ⟨rfl, h, h2⟩; cases h; exact absurd h2 hr
  have fnone : ∀ a v, s.cfw.watchers[a]? = some v → (f a = none ↔ ¬ v.isReady s.ccu s.now = true) := by
    intro a v hv
    simp only [hf, hv]
    by_cases hr : v.isReady s.ccu s.now = true <;> simp [hr]
  have hstart : n ≠ 0 → start < n := by intro h; simp only [hs]; split <;> omega
  constructor
  · rintro ⟨-, hp, hr, hfirst⟩
    rw [Watcher.ready_iff] at hr
    have hjn : j < n := by
      by_contra hge
      rw [List.getElem?_eq_none (by omega)] at hp; cases hp
    have hst := hstart (by omega)
    -- index of j in cyclic order
    obtain ⟨i, hi, hij⟩ : ∃ i < n, (start + i) % n = j := by
      by_cases hle : start ≤ j
      · exact ⟨j - start, by omega, by rw [show start + (j - start) = j by omega]; exact Nat.mod_eq_of_lt hjn⟩
      · refine ⟨n - start + j, by omega, ?_⟩
        rw [show start + (n - start + j) = j + n by omega, Nat.add_mod_right]; exact Nat.mod_eq_of_lt hjn
    rw [List.findSome?_map]
    -- show the first success is at i
    have key : ∀ m, i < m → (List.range m).findSome? (f ∘ fun i => (start + i) % n) = some (j, w) := by
      intro m hm
      induction m with
      | zero => omega
      | succ m ih =>
        rw [List.range_succ, List.findSome?_append]
        by_cases him : i < m
        · rw [ih him]; rfl
        · have : i = m := by omega
          subst this
          have hnone : (List.range i).findSome? (f ∘ fun i => (start + i) % n) = none := by
            rw [List.findSome?_eq_none_iff]
            intro k hk
            rw [List.mem_range] at hk
            have hlt : (start + k) % n < n := Nat.mod_lt _ (by omega)
            have hv : s.cfw.watchers[(start + k) % n]? = some (s.cfw.watchers[(start + k) % n]) := List.getElem?_eq_getElem _
            have inj : ∀ a < n, ∀ b < n, (start + a) % n = (start + b) % n → a = b := by
              intro a ha b hb e
              have := Nat.ModEq.add_left_cancel' start (show start + a ≡ start + b [MOD n] from e)
              exact Nat.ModEq.eq_of_lt_of_lt this ha hb
            have := hfirst k _ (fun q hq e => by
              have := inj q (by omega) i hi (e.trans hij.symm)
              omega) hv
            rw [Watcher.ready_iff] at this
            exact (fnone _ _ hv).2 this
          rw [hnone]
          simp only [Option.none_or, List.findSome?_cons, List.findSome?_nil, Function.comp_apply]
          rw [(fsome _ j w).2 ⟨hij, by rw [hij]; exact hp, hr⟩]
    exact key n hi
  · intro h
    rw [List.findSome?_map] at h
    obtain ⟨i, a, h1, h2, h3⟩ := findSome?_first _ _ _ h
    have hin : i < n := by
      by_contra hge
      rw [List.getElem?_eq_none (by simp; omega)] at h1; cases h1
    rw [List.getElem?_range hin] at h1
    simp only [Option.some.injEq] at h1
    subst h1
    simp only [Function.comp_apply] at h2
    obtain ⟨e, hp, hr⟩ := (fsome _ j w).1 h2
    refine ⟨h0, by rw [← e]; exact hp, (Watcher.ready_iff _ _ _).2 hr, ?_⟩
    intro n1 start1 q v hq hv
    rw [Watcher.ready_iff]
    have hqi : q < i := by
      by_contra hge
      exact hq i (by omega) e
    have := h3 q hqi q (by rw [List.getElem?_range (by omega)])
    exact (fnone _ _ hv).1 this

theorem State.Turn.unique {s : State} {j k w v} (h : s.Turn j w) (h' : s.Turn k v) : j = k ∧ w = v := by
  have a := (State.turn_iff_pick s j w h.absent).1 h
  have b := (State.turn_iff_pick s k v h.absent).1 h'
  rw [a] at b; cases b; exact ⟨rfl, rfl⟩

theorem State.Turn.serveWatcher_eq (s : State) {j w} (h : s.Turn j w) : s.serveWatcher =
      (let finish := min s.ccu.stored (w.sendPtr + 256)
      let c1 : Cfw := { s.cfw with turn := j + 1 }
      if w.sendPtr < finish then
        { s with
          mctl := { s.mctl with waitForward := some (w.sendPtr, finish) }
          cfw := { c1 with out := some { station := w.station, standing := .reading, first := w.sendPtr, last := finish } } }
      else { s with cfw := c1.buildFor s.ccu s.now w w.sendPtr finish [] }) := by
  unfold State.serveWatcher
  rw [h.absent, (State.turn_iff_pick s j w h.absent).1 h]; rfl

/-- All that serving a watcher does (R72 to R75). -/
theorem State.serveWatcher_watcherServed (s : State) : s.WatcherServed s.serveWatcher := by
  constructor
  · intro j w h hlt
    rw [State.Turn.serveWatcher_eq s h]
    dsimp only
    rw [if_pos (by omega)]
  · intro j w h heq
    rw [State.Turn.serveWatcher_eq s h]
    have hmin : min s.ccu.stored (w.sendPtr + 256) = w.sendPtr := by omega
    dsimp only
    rw [hmin, if_neg (Nat.lt_irrefl _)]
    unfold Cfw.buildFor Watcher.build
    rw [if_neg (Nat.lt_irrefl _)]
    have hnext : w.normalMark s.ccu = (if w.nextMark = s.ccu.markCounter ∨ (∃ m ∈ s.ccu.marks, m.number = w.nextMark) then w.nextMark
      else ((s.ccu.marks.head?).map Mark.number).getD s.ccu.markCounter) := by
      unfold Watcher.normalMark Ccu.oldestMark
      simp only [Bool.or_eq_true, decide_eq_true_eq, List.any_eq_true]
    rw [← hnext]
    set next := w.normalMark s.ccu with hn
    have hfrom : s.ccu.marksFrom next = (if next = s.ccu.markCounter then [] else s.ccu.marks.dropWhile (fun m => m.number ≠ next)) := by
      unfold Ccu.marksFrom
      split
      · rfl
      · rename_i hne
        split
        · rfl
        · rename_i hany
          exfalso
          rw [hnext] at hne hany
          simp only [List.any_eq_true, decide_eq_true_eq, not_exists, not_and] at hany
          split at hne <;> rename_i hc
          · rw [if_pos hc] at hany
            rcases hc with hc | ⟨m, hm, e⟩
            · exact hne hc
            · exact hany m hm e
          · rw [if_neg hc] at hany
            cases hh : s.ccu.marks with
            | nil => rw [hh] at hne; exact hne rfl
            | cons a l => rw [hh] at hany; exact hany a (by simp) rfl
    rw [← hfrom]
    have hdue : ∀ m ∈ (s.ccu.marksFrom next).takeWhile (fun m => m.offset ≤ w.sendPtr), m.offset ≤ w.sendPtr := by
      intro m hm; simpa using List.mem_takeWhile_imp hm
    dsimp only
    generalize (s.ccu.marksFrom next).takeWhile (fun m => m.offset ≤ w.sendPtr) = due at *
    have hcut : (match due[8]? with
      | some m => if m.offset < w.sendPtr then m.offset else w.sendPtr
      | none => w.sendPtr) = ((due[8]?).map Mark.offset).getD w.sendPtr := by
      cases h8 : due[8]? with
      | none => rfl
      | some m =>
        have := hdue _ (List.mem_of_getElem? h8)
        simp only [Option.map_some, Option.getD_some]
        split <;> omega
    have hb : (Mark.bytes : Mark → Bytes) = (fun m => be 8 m.offset ++ be 4 m.number.toNat ++ [m.kind.code] ++ be 4 m.time.toNat ++ be 4 m.arg) := by
      funext m; simp [Mark.bytes, List.append_assoc]
    cases h8 : due[8]? with
    | none => simp [List.flatMap, hb, Cfw.setWatcher]
    | some m =>
      have := hdue _ (List.mem_of_getElem? h8)
      have hc : (if m.offset < w.sendPtr then m.offset else w.sendPtr) = m.offset := by split <;> omega
      simp [List.flatMap, hb, Cfw.setWatcher, hc]
  · intro j w h hlt
    rw [State.Turn.serveWatcher_eq s h]
    have hmin : min s.ccu.stored (w.sendPtr + 256) = s.ccu.stored := by omega
    dsimp only
    rw [hmin, if_neg (by omega)]
    unfold Cfw.buildFor Watcher.build
    rw [if_pos (by omega)]
    dsimp only
    rw [← h.absent]
  · intro h
    unfold State.serveWatcher
    cases hout : s.cfw.out with
    | some o => simp
    | none =>
      cases hp : s.cfw.pick s.ccu s.now with
      | none => simp
      | some x => exact absurd ((State.turn_iff_pick s x.1 x.2 hout).2 hp) (h _ _)

end Sys2Proof.Machine
end

