-- ==== Sys2Proof/Laws/Offers.lean ====
section
/-! SUPPORT. Which offers LIF takes, what each owner does with its own, and that they are taken until none is left (R166). -/

namespace Sys2Proof.Machine

theorem find?_split {α} (p : α → Bool) : ∀ (l : List α) (a : α), l.find? p = some a →
    ∃ b r, l = b ++ a :: r ∧ p a = true ∧ ∀ x ∈ b, p x = false := by
  intro l
  induction l with
  | nil => intro a h; simp at h
  | cons x l ih =>
    intro a h
    rw [List.find?_cons] at h
    cases hx : p x with
    | true => rw [hx] at h; simp at h; subst h; exact ⟨[], l, rfl, hx, by simp⟩
    | false =>
      rw [hx] at h
      obtain ⟨b, r, rfl, h2, h3⟩ := ih a h
      refine ⟨x :: b, r, rfl, h2, ?_⟩
      intro y hy
      rcases List.mem_cons.1 hy with rfl | hy
      · exact hx
      · exact h3 y hy

theorem find?_of_split {α} (p : α → Bool) (b r : List α) (a : α) (h : p a = true) (hb : ∀ x ∈ b, p x = false) :
    (b ++ a :: r).find? p = some a := by
  induction b with
  | nil => simp [h]
  | cons x b ih =>
    rw [List.cons_append, List.find?_cons, hb x (by simp)]
    exact ih (fun y hy => hb y (by simp [hy]))

/-- The offers that LIF accepts (R161, R166, R174). -/
theorem State.acceptable_iff (s : State) (o : Offer) : s.acceptable o = true ↔ s.TakesOffer o.cls o.dest o.payload := by
  unfold State.acceptable State.TakesOffer State.lifAccepts Lif.hasPlace offerValid
  simp only [Bool.and_eq_true, Bool.or_eq_true, decide_eq_true_eq, ne_eq, decide_not, Bool.not_eq_true', decide_eq_false_iff_not]
  constructor
  · rintro ⟨⟨h1, h2⟩, h3, h4⟩
    refine ⟨by tauto, h2, h3, ?_⟩
    intro body e; rw [e] at h4; simpa using h4
  · rintro ⟨h1, h2, h3, h4⟩
    refine ⟨⟨by tauto, h2⟩, h3, ?_⟩
    cases e : o.payload with
    | body b => simpa using h4 b e
    | _ => simp

theorem listOwn_split (q : Nat) (b r : List OwnFrame) (f : OwnFrame) (hb : ∀ g ∈ b, g.standing ≠ .held) (hf : f.standing = .held) :
    listOwn q (b ++ f :: r) = b ++ { f with standing := .listed q } :: r := by
  induction b with
  | nil => simp [listOwn, OwnFrame.isHeld, hf]
  | cons x b ih =>
    have := hb x (by simp)
    simp [listOwn, OwnFrame.isHeld, this]
    exact ih (fun g hg => hb g (by simp [hg]))

theorem listGive_split (q : Nat) (b r : List Give) (f : Give) (hb : ∀ g ∈ b, g.standing ≠ .held) (hf : f.standing = .held) :
    listGive q (b ++ f :: r) = b ++ { f with standing := .listed q } :: r := by
  induction b with
  | nil => simp [listGive, hf]
  | cons x b ih =>
    have := hb x (by simp)
    simp [listGive, this]
    exact ih (fun g hg => hb g (by simp [hg]))

theorem Xch.nextWant_split {x : Xch} {w : Want} (h : x.nextWant = some w) : ∃ b r, x.wants = b ++ w :: r ∧ w.state = .queued .held ∧
    (∀ v ∈ b, v.state = .queued .held → w.purpose = .demand ∧ v.purpose = .readahead) ∧
    (∀ v ∈ r, v.state = .queued .held → v.purpose = .demand → w.purpose = .demand) := by
  unfold Xch.nextWant at h
  split at h
  · rename_i v hv
    cases h
    obtain ⟨b, r, e, h1, h2⟩ := find?_split _ _ _ hv
    simp only [Bool.and_eq_true, decide_eq_true_eq, Want.isHeld] at h1
    refine ⟨b, r, e, h1.1, ?_, fun _ _ _ _ => h1.2⟩
    intro v hv hs
    have := h2 v hv
    simp only [Want.isHeld, hs, decide_true, Bool.true_and, decide_eq_false_iff_not] at this
    refine ⟨h1.2, ?_⟩
    cases hp : v.purpose <;> simp_all
  · rename_i hn
    obtain ⟨b, r, e, h1, h2⟩ := find?_split _ _ _ h
    simp only [decide_eq_true_eq, Want.isHeld] at h1
    refine ⟨b, r, e, h1, ?_, ?_⟩
    · intro v hv hs
      have := h2 v hv
      simp [Want.isHeld, hs] at this
    · intro v hv hs hp
      have this := hn
      rw [List.find?_eq_none] at this
      have := this v (by rw [e]; simp [hv])
      simp [Want.isHeld, hs, hp] at this

theorem Xch.nextWant_of_split {x : Xch} {b r} {w : Want} (e : x.wants = b ++ w :: r) (h : w.state = .queued .held)
    (h1 : ∀ v ∈ b, v.state = .queued .held → w.purpose = .demand ∧ v.purpose = .readahead)
    (h2 : ∀ v ∈ r, v.state = .queued .held → v.purpose = .demand → w.purpose = .demand) : x.nextWant = some w := by
  unfold Xch.nextWant
  rw [e]
  cases hp : w.purpose with
  | demand =>
    rw [find?_of_split]
    · simp [Want.isHeld, h, hp]
    · intro v hv
      by_cases hs : v.state = .queued .held
      · simp [(h1 v hv hs).2]
      · simp [Want.isHeld, hs]
  | readahead =>
    have hb : ∀ v ∈ b, v.state ≠ .queued .held := by
      intro v hv hs; have := (h1 v hv hs).1; rw [hp] at this; cases this
    have : (b ++ w :: r).find? (fun w => w.isHeld && w.purpose = .demand) = none := by
      rw [List.find?_eq_none]
      intro v hv
      simp only [Want.isHeld, Bool.and_eq_true, decide_eq_true_eq, not_and]
      intro hs hpv
      simp only [List.mem_append, List.mem_cons] at hv
      rcases hv with hv | rfl | hv
      · exact hb v hv hs
      · rw [hp] at hpv; cases hpv
      · have := h2 v hv hs hpv; rw [hp] at this; cases this
    rw [this]
    dsimp only
    exact find?_of_split _ _ _ _ (by simp [Want.isHeld, h]) (fun v hv => by simp [Want.isHeld, hb v hv])

/-- An offer made and accepted is listed as its owner's rule says. -/
theorem State.acceptOffer_listed (s : State) (n : Nat) (o : Offer) (h : o ∈ s.offers) :
    s.OfferListed (({ s with fresh := n } : State).acceptOffer o) := by
  unfold State.offers at h
  rw [List.mem_filter] at h
  obtain ⟨h, hacc⟩ := h
  rw [State.acceptable_iff] at hacc
  simp only [List.mem_filterMap, List.mem_cons, List.not_mem_nil, or_false, id_eq, exists_eq_right] at h
  have h' : s.offerAdm = some o ∨ s.offerPtu = some o ∨ s.offerOrd = some o ∨ s.offerNtu = some o ∨ s.offerCfw = some o ∨
      s.offerXch = some o ∨ s.offerUpb = some o := by
    rcases h with h | h | h | h | h | h | h <;> simp [h]
  rcases h' with h | h | h | h | h | h | h
  · unfold State.offerAdm at h
    rw [Option.map_eq_some_iff] at h
    obtain ⟨f, hf, rfl⟩ := h
    obtain ⟨b, r, e, h1, h2⟩ := find?_split _ _ _ hf
    simp only [OwnFrame.isHeld, decide_eq_true_eq, decide_eq_false_iff_not] at h1 h2
    have := State.OfferListed.adm b r f f.kind.frame.1 f.kind.frame.2 n e h2 h1 (by
      unfold OwnKind.frame; cases f.kind with
      | claim st => cases st <;> rfl
      | _ => rfl) hacc
    refine Eq.mp ?_ this
    congr 1
    unfold State.acceptOffer State.listed Lif.accept Lif.withOffer
    simp only [e, listOwn_split _ b r f h2 h1]
  · unfold State.offerPtu at h
    split at h <;> cases h
    rename_i hp
    exact State.OfferListed.ptu n hp hacc
  · unfold State.offerOrd at h
    split at h
    · rename_i hd rest e
      split at h <;> cases h
      rename_i reply restart e2
      have := State.OfferListed.ord hd rest reply restart n e e2 hacc
      refine Eq.mp ?_ this
      congr 1
      unfold State.acceptOffer State.listed Lif.accept Lif.withOffer Ord.replyListed
      simp only [e, e2]
      cases restart <;> rfl
    · cases h
  · unfold State.offerNtu at h
    split at h <;> cases h
    rename_i hp
    exact State.OfferListed.ntu n hp hacc
  · unfold State.offerCfw at h
    split at h
    · rename_i f e
      split at h <;> cases h
      rename_i hs
      have := State.OfferListed.cfw f n e hs hacc
      refine Eq.mp ?_ this
      congr 1
      unfold State.acceptOffer State.listed Lif.accept Lif.withOffer
      simp only [e]; rfl
    · cases h
  · unfold State.offerXch at h
    split at h
    · rename_i g hg
      cases h
      obtain ⟨b, r, e, h1, h2⟩ := find?_split _ _ _ hg
      simp only [decide_eq_true_eq, decide_eq_false_iff_not] at h1 h2
      have := State.OfferListed.give b r g n e h2 h1 hacc
      refine Eq.mp ?_ this
      congr 1
      unfold State.acceptOffer State.listed Lif.accept Lif.withOffer
      simp only [e, listGive_split _ b r g h2 h1]
    · rename_i hg
      rw [Option.map_eq_some_iff] at h
      obtain ⟨w, hw, rfl⟩ := h
      obtain ⟨b, r, e, h1, h2, h3⟩ := Xch.nextWant_split hw
      rw [List.find?_eq_none] at hg
      have := State.OfferListed.want b r w n (fun g hg' => by have := hg g hg'; simpa using this) e h1 h2 h3 hacc
      refine Eq.mp ?_ this
      congr 1
      unfold State.acceptOffer State.listed Lif.accept Lif.withOffer Xch.listWant
      simp only [hw, Want.isHeld, Bool.and_eq_true, decide_eq_true_eq]
  · unfold State.offerUpb at h
    split at h
    · rename_i hc
      simp only [Bool.and_eq_true, Bool.not_eq_true', Bool.or_eq_true, decide_eq_true_eq] at hc
      rw [Option.map_eq_some_iff] at h
      obtain ⟨f, hf, rfl⟩ := h
      rw [List.head?_eq_some_iff] at hf
      obtain ⟨r, e⟩ := hf
      have := State.OfferListed.upb f r n hc.1.1.1 hc.2 hc.1.1.2 hc.1.2 e hacc
      refine Eq.mp ?_ this
      congr 1
      unfold State.acceptOffer State.listed Lif.accept Lif.withOffer
      simp only [e]; rfl
    · cases h

theorem State.OfferListed.offers_ne_nil {s t : State} (h : s.OfferListed t) : s.offers ≠ [] := by
  intro hn
  unfold State.offers at hn
  rw [List.filter_eq_nil_iff] at hn
  simp only [List.mem_filterMap, List.mem_cons, List.not_mem_nil, or_false, id_eq, exists_eq_right] at hn
  cases h with
  | adm b r f k body n e h1 h2 h3 h4 =>
    refine hn { owner := .adm, cls := 0, dest := toAll, kind := f.kind.frame.1, payload := .body f.kind.frame.2 } (Or.inl ?_) ?_
    · unfold State.offerAdm
      rw [e, find?_of_split _ _ _ _ (by simp [OwnFrame.isHeld, h2]) (fun x hx => by simp [OwnFrame.isHeld, h1 x hx])]; rfl
    · rw [State.acceptable_iff]
      have : f.kind.frame.2 = body := by
        have := congrArg Prod.snd h3
        simp only at this; rw [this]
        unfold OwnKind.frame; cases f.kind with
        | claim st => cases st <;> rfl
        | _ => rfl
      rw [this]; exact h4
  | ptu n h1 h2 =>
    refine hn { owner := .ptu, cls := s.ptu.beaconClass, dest := toAll, kind := .beacon, payload := .atTenure } (Or.inr (Or.inl ?_)) ?_
    · unfold State.offerPtu; simp [h1]
    · rw [State.acceptable_iff]; exact h2
  | ord o r reply restart n e e2 h3 =>
    refine hn { owner := .ord, cls := 1, dest := byte o.sender, kind := .reply, payload := .body reply } (Or.inr (Or.inr (Or.inl ?_))) ?_
    · unfold State.offerOrd; simp [e, e2]
    · rw [State.acceptable_iff]; exact h3
  | ntu n h1 h2 =>
    refine hn { owner := .ntu, cls := 1, dest := toAll, kind := .notice, payload := .atTenure } (Or.inr (Or.inr (Or.inr (Or.inl ?_)))) ?_
    · unfold State.offerNtu; simp [h1]
    · rw [State.acceptable_iff]; exact h2
  | cfw o n e h1 h2 =>
    refine hn { owner := .cfw, cls := 2, dest := byte o.station, kind := .consoleOut, payload := .body o.body } (Or.inr (Or.inr (Or.inr (Or.inr (Or.inl ?_))))) ?_
    · unfold State.offerCfw; simp [e, h1]
    · rw [State.acceptable_iff]; exact h2
  | give b r g n e h1 h2 h3 =>
    refine hn { owner := .xchGive, cls := 3, dest := toAll, kind := .lineGive, payload := .give g.key g.line } (Or.inr (Or.inr (Or.inr (Or.inr (Or.inr (Or.inl ?_)))))) ?_
    · unfold State.offerXch
      rw [e, find?_of_split _ _ _ _ (by simp [h2]) (fun x hx => by simp [h1 x hx])]
    · rw [State.acceptable_iff]; exact h3
  | want b r w n h0 e h1 h2 h3 h4 =>
    refine hn { owner := .xchWant, cls := 3, dest := toAll, kind := .lineWant, payload := .body w.key.bytes } (Or.inr (Or.inr (Or.inr (Or.inr (Or.inr (Or.inl ?_)))))) ?_
    · unfold State.offerXch
      have : s.xch.gives.find? (fun g => g.standing = .held) = none := by
        rw [List.find?_eq_none]; intro g hg; simp [h0 g hg]
      rw [this, Xch.nextWant_of_split e h1 h2 h3]; rfl
    · rw [State.acceptable_iff]; exact h4
  | upb f r n h1 h2 h3 h4 e h5 =>
    refine hn { owner := .upb, cls := f.kind.uplinkClass, dest := f.dest, kind := f.kind, payload := .body f.body } (Or.inr (Or.inr (Or.inr (Or.inr (Or.inr (Or.inr ?_)))))) ?_
    · unfold State.offerUpb
      rw [if_pos (by simp [h1, h3, h4]; exact h2), e]; rfl
    · rw [State.acceptable_iff]; exact h5

theorem State.takeOffer_listed (s : State) (h : s.offers ≠ []) : s.OfferListed s.takeOffer := by
  unfold State.takeOffer
  split
  · rename_i e; exact absurd e h
  · rename_i o e
    have := State.acceptOffer_listed s s.fresh o (by rw [e]; simp)
    exact this
  · rename_i o os hne e
    refine State.acceptOffer_listed s (s.fresh + 1) _ ?_
    rw [e]
    have hlt : Config.offerPick s.fresh % (os.length + 1) < (o :: os).length := by
      simp only [List.length_cons]; exact Nat.mod_lt _ (Nat.succ_pos _)
    rw [List.getD_eq_getElem _ _ hlt]
    exact List.getElem_mem _

theorem State.OfferListed.length {s t : State} (h : s.OfferListed t) : t.lif.sendList.length = s.lif.sendList.length + 1 ∧ s.lif.sendList.length < 24 := by
  have hlt : ∀ c d p, s.TakesOffer c d p → s.lif.sendList.length < 24 := by
    intro c d p h; have := h.2.1; split at this <;> omega
  cases h <;> refine ⟨by simp [Lif.withOffer], ?_⟩ <;> (apply hlt; assumption)

theorem State.takeOffers_rest (n : Nat) (s : State) (h : 24 < n + s.lif.sendList.length) :
    s.OffersListed (State.takeOffers n s) := by
  induction n generalizing s with
  | zero =>
    refine ⟨.refl, fun v hv => ?_⟩
    have := (State.OfferListed.length hv).2
    simp only [State.takeOffers] at this
    omega
  | succ n ih =>
    unfold State.takeOffers
    by_cases ho : s.offers = []
    · have hs : s.takeOffer = s := by unfold State.takeOffer; rw [ho]
      rw [hs]
      have : ∀ m, State.takeOffers m s = s := by
        intro m; induction m with
        | zero => rfl
        | succ m ihm => unfold State.takeOffers; rw [hs, ihm]
      rw [this]
      exact ⟨.refl, fun v hv => State.OfferListed.offers_ne_nil hv ho⟩
    · have hl := State.takeOffer_listed s ho
      have := (State.OfferListed.length hl).1
      obtain ⟨h1, h2⟩ := ih s.takeOffer (by omega)
      exact ⟨.head hl h1, h2⟩

/-- The offers are listed one after another until none can be (R166). -/
theorem State.takeOffers_listed (s : State) : s.OffersListed (State.takeOffers 25 s) :=
  State.takeOffers_rest 25 s (by omega)

end Sys2Proof.Machine
end

