-- ==== Sys2Proof/Laws/Advance.lean ====
section
/-! SUPPORT. What MFN asks at the end of a step: its wants, its reads, its writes (R109, R112, R113, R126 to R131, R141). -/

set_option linter.unusedTactic false
set_option linter.unreachableTactic false

namespace Sys2Proof.Machine

theorem lowestFree_some {size : Nat} : ∀ (l : List (Nat × Line)) (a pos : Nat), lowestFree size a l = some pos →
    l.Pairwise (fun a b => a.1 < b.1) → (∀ e ∈ l, a ≤ e.1) →
    a ≤ pos ∧ pos < size ∧ (∀ e ∈ l, e.1 ≠ pos) ∧ ∀ x, a ≤ x → x < pos → ∃ e ∈ l, e.1 = x := by
  intro l
  induction l with
  | nil =>
    intro a pos h _ _
    simp only [lowestFree] at h; split at h <;> simp at h; subst h
    exact ⟨le_rfl, by assumption, by simp, by intro x h1 h2; omega⟩
  | cons c l ih =>
    intro a pos h hr hge
    obtain ⟨k, v⟩ := c
    obtain ⟨h1, h2⟩ := List.pairwise_cons.1 hr
    simp only [lowestFree] at h
    split at h
    · rename_i hk
      split at h <;> simp at h; subst h
      refine ⟨le_rfl, by assumption, ?_, by intro x h3 h4; omega⟩
      intro e he
      rcases List.mem_cons.1 he with rfl | he
      · simp only; omega
      · have := h1 e he; simp only at this; omega
    · rename_i hk
      have hka : k = a := by have := hge (k, v) (by simp); simp only at this; omega
      obtain ⟨b1, b2, b3, b4⟩ := ih (a+1) pos h h2 (by intro e he; have := h1 e he; simp only at this; omega)
      refine ⟨by omega, b2, ?_, ?_⟩
      · intro e he
        rcases List.mem_cons.1 he with rfl | he
        · simp only; omega
        · exact b3 e he
      · intro x hx1 hx2
        by_cases hxa : x = a
        · exact ⟨(k, v), by simp, by simp only; omega⟩
        · obtain ⟨e, he, e2⟩ := b4 x (by omega) hx2
          exact ⟨e, by simp [he], e2⟩

theorem lowestFree_none {size : Nat} : ∀ (l : List (Nat × Line)) (a : Nat), lowestFree size a l = none →
    l.Pairwise (fun a b => a.1 < b.1) → (∀ e ∈ l, a ≤ e.1) → ∀ x, a ≤ x → x < size → ∃ e ∈ l, e.1 = x := by
  intro l
  induction l with
  | nil =>
    intro a h _ _ x h1 h2
    simp only [lowestFree] at h; split at h <;> simp at h; omega
  | cons c l ih =>
    intro a h hr hge x hx1 hx2
    obtain ⟨k, v⟩ := c
    obtain ⟨h1, h2⟩ := List.pairwise_cons.1 hr
    simp only [lowestFree] at h
    split at h
    · split at h <;> simp at h; omega
    · have hka : k = a := by have := hge (k, v) (by simp); simp only at this; omega
      by_cases hxa : x = a
      · exact ⟨(k, v), by simp, by simp only; omega⟩
      · obtain ⟨e, he, e2⟩ := ih (a+1) h h2 (by intro e he; have := h1 e he; simp only at this; omega) x (by omega) hx2
        exact ⟨e, by simp [he], e2⟩

theorem Lpm.line_eq_none_iff (p : Lpm) (x : Nat) : p.line x = none ↔ ∀ e ∈ p.lines, e.1 ≠ x := by
  unfold Lpm.line
  simp [List.find?_eq_none]

theorem Lpm.take_given {p q : Lpm} {pos : Nat} (h : p.Placed) (ht : p.take = some (pos, q)) (l : Line) :
    p.Given (q.put pos l) pos l ∧ (q.put pos l).Placed := by
  unfold Lpm.take at ht
  split at ht
  · rename_i x hx
    simp only [Option.some.injEq, Prod.mk.injEq] at ht
    obtain ⟨rfl, rfl⟩ := ht
    obtain ⟨-, b2, b3, b4⟩ := lowestFree_some _ _ _ hx h.rising (by simp)
    refine ⟨⟨Or.inl ⟨b2, (Lpm.line_eq_none_iff _ _).2 b3, ?_, rfl⟩, by simp, ?_, rfl, rfl⟩, h.put b2 l⟩
    · intro x hx hn
      obtain ⟨e, he, e2⟩ := b4 x (by omega) hx
      exact (Lpm.line_eq_none_iff _ _).1 hn e he e2
    · intro x hx; simp [hx]
  · rename_i hx
    split at ht
    · rename_i x rest hr
      simp only [Option.some.injEq, Prod.mk.injEq] at ht
      obtain ⟨rfl, rfl⟩ := ht
      have hlt : x < p.poolSize := h.recency x (by rw [hr]; simp)
      refine ⟨⟨Or.inr ⟨?_, ⟨rest, hr⟩, rfl⟩, by simp, ?_, rfl, rfl⟩, (h.free x).put hlt l⟩
      · intro y hy hn
        obtain ⟨e, he, e2⟩ := lowestFree_none _ _ hx h.rising (by simp) y (by omega) hy
        exact (Lpm.line_eq_none_iff _ _).1 hn e he e2
      · intro y hy; simp [hy]
    · cases ht

theorem Lpm.take_none {p : Lpm} (h : p.Placed) (ht : p.take = none) : (∀ x < p.poolSize, p.line x ≠ none) ∧ p.recency = [] := by
  unfold Lpm.take at ht
  split at ht
  · cases ht
  · rename_i hx
    split at ht
    · cases ht
    · rename_i hr
      refine ⟨?_, hr⟩
      intro y hy hn
      obtain ⟨e, he, e2⟩ := lowestFree_none _ _ hx h.rising (by simp) y (by omega) hy
      exact (Lpm.line_eq_none_iff _ _).1 hn e he e2

/-- A FILLING line cannot be given exactly where no line is free or evictable (R112). -/
theorem Lpm.noLine_iff {p : Lpm} (h : p.Placed) (key : Key) : p.NoLine ↔ p.allocFilling key = none := by
  unfold Lpm.allocFilling Lpm.NoLine
  by_cases h0 : p.poolSize = 0
  · simp [h0]
  · simp only [h0, false_or, if_false]
    constructor
    · rintro ⟨h1, h2⟩
      split
      · rename_i pos q ht
        exfalso
        obtain ⟨hg, -⟩ := Lpm.take_given h ht (.filling key .none)
        rcases hg.choice with ⟨a, b, -, -⟩ | ⟨-, ⟨r, b⟩, -⟩
        · exact h1 _ a b
        · rw [h2] at b; cases b
      · rfl
    · intro hh
      split at hh
      · cases hh
      · rename_i ht; exact Lpm.take_none h ht

/-- All that asking a want does (R141): its answer, its line and the list. -/
theorem State.xchAsk_wantAsked (s : State) (key : Key) (purpose : Purpose) (h : s.lpm.Placed) :
    WantAsked key purpose s.lpm s.xch.wants (s.xchAsk key purpose).1 (s.xchAsk key purpose).2.lpm (s.xchAsk key purpose).2.xch.wants ∧
    (s.xchAsk key purpose).2 = { s with
      lpm := (s.xchAsk key purpose).2.lpm, xch := { s.xch with wants := (s.xchAsk key purpose).2.xch.wants } } ∧
    (s.xchAsk key purpose).2.lpm.Placed ∧ ((s.xchAsk key purpose).1 ≠ .created → (s.xchAsk key purpose).2 = s) := by
  have hany : (s.xch.wants.any (fun w => w.isFor key) = true) ↔ ∃ w ∈ s.xch.wants, w.isFor key = true := by simp
  have hnot : (∀ w ∈ s.xch.wants, w.isFor key = false) ↔ ¬ ∃ w ∈ s.xch.wants, w.isFor key = true := by
    simp
  unfold State.xchAsk
  split
  · rename_i h1
    rw [hany] at h1
    refine ⟨⟨fun _ => ⟨rfl, rfl, ?_⟩, ?_, ?_, ?_, ?_⟩, rfl, h, by simp⟩
    · simp [Xch.demand]
    all_goals (intro h2; exact absurd h1 (hnot.1 h2))
  · rename_i h1
    rw [hany] at h1
    split
    · rename_i h2
      refine ⟨⟨fun x => absurd x h1, fun _ _ => ⟨rfl, rfl, rfl⟩, ?_, ?_, ?_⟩, rfl, h, fun _ => rfl⟩
      all_goals (intro _ h3; rw [h3] at h2; cases h2)
    · rename_i h2
      have hf : s.lpm.find key = none := by cases hc : s.lpm.find key <;> simp_all
      split
      · rename_i h3
        refine ⟨⟨fun x => absurd x h1, fun _ x => absurd x h2, fun _ _ _ => ⟨rfl, rfl, rfl⟩, ?_, ?_⟩, rfl, h, fun _ => rfl⟩
        all_goals (intro _ _ h4; omega)
      · rename_i h3
        split
        · rename_i pos q ha
          have ha0 := ha
          unfold Lpm.allocFilling at ha
          split at ha
          · cases ha
          · split at ha
            · rename_i pos' q' ht
              simp only [Option.some.injEq, Prod.mk.injEq] at ha
              obtain ⟨rfl, rfl⟩ := ha
              obtain ⟨hg, hp⟩ := Lpm.take_given h ht (.filling key .none)
              refine ⟨⟨fun x => absurd x h1, fun _ x => absurd x h2, fun _ _ x => absurd x h3, ?_, ?_⟩, rfl, hp, by simp⟩
              · intro _ _ _ hn; rw [Lpm.noLine_iff h key, ha0] at hn; cases hn
              · intro _ _ _ _; exact ⟨rfl, _, hg, rfl⟩
            · cases ha
        · rename_i ha
          refine ⟨⟨fun x => absurd x h1, fun _ x => absurd x h2, fun _ _ x => absurd x h3, fun _ _ _ _ => ⟨rfl, rfl, rfl⟩, ?_⟩, rfl, h, fun _ => rfl⟩
          intro _ _ _ hn; exact absurd ((Lpm.noLine_iff h key).2 ha) hn

/-- All that ending a request does (R131). -/
theorem State.closeRequest_requestEnded (s : State) : s.RequestEnded s.closeRequest := by
  constructor
  · intro h; unfold State.closeRequest; rw [h]
  · intro r hr
    obtain ⟨x, y, e⟩ := State.withdrawMedia_eq s (fun m => m.isRead && m.request = r.serial)
    have hl : (s.withdrawMedia (fun m => m.isRead && m.request = r.serial)).lpm =
      ((s.mctl.waitMedia.filter (fun x => x.isRead && x.request = r.serial)).map MediaReq.line).foldl Lpm.unpin s.lpm := rfl
    refine ⟨x, y, ?_, ?_, ?_⟩
    · have : ({ s.lpm with lines := x, recency := y } : Lpm) = (s.withdrawMedia (fun m => m.isRead && m.request = r.serial)).lpm := by rw [e]
      dsimp only
      rw [this, hl]; exact Lpm.foldl_unpin_unpinnedInTurn _ _
    all_goals
      have hw : s.withdrawReads (fun m => m.request = r.serial) = { s with
          mctl := s.mctl.withoutReads r.serial, lpm := { s.lpm with lines := x, recency := y } } := by
        unfold State.withdrawReads
        rw [e, ← Mctl.withoutReads_eq]
      have hc : s.closeRequest = (fun s1 : State =>
          let s2 : State := { s1 with mfn := { s1.mfn with request := none } }
          if s2.mfn.draining then s2.teardown else s2) (s.withdrawReads (fun m => m.request = r.serial)) := by
        unfold State.closeRequest
        rw [hr]
      rw [hc, hw]
      intro hd
      dsimp only
      rw [show (Mfn.draining { s.mfn with request := none }) = s.mfn.draining from rfl, hd]
    · rfl
    · exact State.teardown_tornDown _

theorem State.closeRequest_placed {s : State} (h : s.lpm.Placed) : s.closeRequest.lpm.Placed := by
  cases hr : s.mfn.request with
  | none => unfold State.closeRequest; rw [hr]; exact h
  | some r =>
    obtain ⟨x, y, hp, e⟩ := State.closeRequest_eq s r hr
    rw [e]
    split
    · unfold State.teardown
      dsimp only
      have h1 := State.dropWants_placed ({ s with mfn := Mfn.disconnect { s.mfn with request := none } } : State)
      refine Lpm.Placed.foldl (fun p a hp => hp.releaseLine a) _ ?_
      refine State.withdrawMedia_placed _ _ ?_
      refine State.dropWants_placed _ _ _ ?_
      exact hp h
    · exact hp h

/-- All that a want's failure does to MFN (R128, R131): wants are held back no more, and the first step that waited on the
key fails the request with MEDIUM-ERROR and MEDIA-FAILURE. -/
theorem State.wantEnded_failed (s : State) (key : Key) :
    (s.mfn.request = none → s.wantEnded key false = s) ∧
    ∀ r, s.mfn.request = some r →
      let waits := fun (st : XferStep) => st.state = .waiting ∧ s.mfn.key st.line = key
      let open_ : State := { s with mfn := { s.mfn with request := some { r with blocked := false } } }
      ((∀ st ∈ r.steps, ¬ waits st) → s.wantEnded key false = open_) ∧
      (∀ before st rest, r.steps = before ++ st :: rest → (∀ x ∈ before, ¬ waits x) → waits st →
        ({ open_ with
          mfn := { open_.mfn with usbStatus := some .mediumError }
          ntu := (s.raise .mediaFailure (be 4 st.line ++ be 2 s.mfn.image ++ be 1 s.mfn.gen)).ntu } : State).RequestEnded
            (s.wantEnded key false)) := by
  refine ⟨fun h => by unfold State.wantEnded; rw [h], fun r h => ?_⟩
  intro waits open_
  have hw : ∀ x : XferStep, (Decidable.decide (x.state = .waiting) && Decidable.decide (s.mfn.key x.line = key)) = true ↔ waits x := fun x => by simp [waits]
  have he : s.wantEnded key false =
      match r.steps.find? (fun x => Decidable.decide (x.state = .waiting) && Decidable.decide (s.mfn.key x.line = key)) with
      | some st =>
        ((s.setRequest { r with blocked := false }).raise .mediaFailure
          (be 4 st.line ++ be 2 s.mfn.image ++ be 1 s.mfn.gen)).failRequest .mediumError
      | none => s.setRequest { r with blocked := false } := by
    unfold State.wantEnded; rw [h]; rfl
  constructor
  · intro hn
    rw [he, List.find?_eq_none.mpr (fun x hx => by rw [hw]; exact hn x hx)]
    rfl
  · intro before st rest hs hb hst
    have : r.steps.find? (fun x => Decidable.decide (x.state = .waiting) && Decidable.decide (s.mfn.key x.line = key)) = some st := by
      rw [hs, List.find?_append, List.find?_eq_none.mpr (fun x hx => by rw [hw]; exact hb x hx), Option.none_or,
        List.find?_cons]
      simp only [(hw st).mpr hst]
    rw [he, this]
    dsimp only
    unfold State.failRequest
    have hr : ((s.setRequest { r with blocked := false }).raise .mediaFailure
        (be 4 st.line ++ be 2 s.mfn.image ++ be 1 s.mfn.gen)) = { open_ with
          ntu := (s.raise .mediaFailure (be 4 st.line ++ be 2 s.mfn.image ++ be 1 s.mfn.gen)).ntu } := by
      exact State.raise_as _ _ rfl rfl rfl
    rw [hr]
    exact State.closeRequest_requestEnded _

/-- SPACE-EXHAUSTED ends a request and is raised (R113, R127, R130). -/
theorem State.failRequest_spaceExhausted (s : State) (kind : ReqKind) (line reason : Nat) :
    s.SpaceExhausted ((s.raise .spaceExhausted (spaceDetail kind line reason)).failRequest .spaceExhausted)
      (if kind = .read then 1 else 2) line reason := by
  unfold State.SpaceExhausted State.failRequest
  have : ({ (s.raise .spaceExhausted (spaceDetail kind line reason)) with mfn := { (s.raise .spaceExhausted (spaceDetail kind line reason)).mfn with usbStatus := some .spaceExhausted } } : State) =
    { s with
      mfn := { s.mfn with usbStatus := some .spaceExhausted }
      ntu := (s.raise .spaceExhausted (byte (if kind = .read then 1 else 2) :: (be 4 line ++ [byte reason]))).ntu } := by
    have hd : spaceDetail kind line reason = byte (if kind = .read then 1 else 2) :: (be 4 line ++ [byte reason]) := by
      unfold spaceDetail; split <;> rfl
    rw [hd]; unfold State.raise; split <;> rfl
  rw [this]
  exact State.closeRequest_requestEnded _

theorem State.raise_lpm (s : State) (k d) : (s.raise k d).lpm = s.lpm := by unfold State.raise; split <;> rfl

/-- All that looking a step up says of it (R126). -/
theorem State.lookupStep_lookedUpAgain (s : State) (st : XferStep) : s.LookedUpAgain st (s.lookupStep st) := by
  have hl : (s.lookupStep st).line = st.line ∧ (s.lookupStep st).first = st.first ∧ (s.lookupStep st).last = st.last := by
    unfold State.lookupStep; (repeat' split) <;> simp
  refine ⟨?_, hl.1, hl.2.1, hl.2.2⟩
  obtain ⟨l1, l2, l3⟩ := hl
  have base : (s.baseBlocks st = []) ↔ ∀ b, st.first ≤ b → b ≤ st.last → b < 4 → (s.lpm.overlayMask st.line).getLsbD b = true := by
    simp [State.baseBlocks, XferStep.blocks, List.filter_eq_nil_iff]
    constructor
    · intro h b h1 h2 h3; by_contra hc; simp at hc; have := h b h3 hc h1; omega
    · intro h b h1 hc h2; by_contra h3; have := h b h2 (by omega) h1; simp_all
  have ov : (s.overlayBlocks st = []) ↔ ∀ b, st.first ≤ b → b ≤ st.last → b < 4 → (s.lpm.overlayMask st.line).getLsbD b = false := by
    simp only [State.overlayBlocks, XferStep.blocks, List.filter_eq_nil_iff, List.mem_filter, List.mem_range, Bool.and_eq_true, decide_eq_true_eq, Bool.not_eq_true]
    constructor
    · intro h b h1 h2 h3; exact h b ⟨h3, h1, h2⟩
    · rintro h b ⟨h1, h2, h3⟩; exact h b h2 h3 h1
  have nb : (∃ b < 4, st.first ≤ b ∧ b ≤ st.last ∧ (s.lpm.overlayMask st.line).getLsbD b = false) → s.baseBlocks st ≠ [] := by
    rintro ⟨b, h1, h2, h3, h4⟩ h5
    rw [base] at h5
    simp [h5 b h2 h3 h1] at h4
  constructor <;> rw [l1, l2, l3]
  · intro h; rw [← base] at h; simp [State.lookupStep, h]
  · intro pos key pins h1 h2 h3
    have := nb h1
    simp only [State.lookupStep, this, h2, h3, if_true, if_false, true_and]
    constructor
    · rintro ⟨b, a1, a2, a3, a4⟩
      rw [if_neg]
      rw [ov]; intro hh; rw [hh b a2 a3 a1] at a4; cases a4
    · intro hh; rw [if_pos]; rw [ov]; intro b a1 a2 a3; exact hh b a3 a1 a2
  · intro pos key pins h0 h1 h2 h3
    have : s.baseBlocks st ≠ [] := by
      intro h; rw [base] at h
      have := h st.first le_rfl h0 (by omega)
      simp [Lpm.overlayMask, h2] at this
    simp [State.lookupStep, this, h2, h3]
  · intro pos key w h1 h2
    have := nb h1
    simp [State.lookupStep, this, h2]
  · intro h1 h2
    have := nb h1
    simp [State.lookupStep, this, h2]

/-- All that asking for a step's line does (R127). -/
theorem State.askStep_stepAsked (s : State) (st : XferStep) (h : s.lpm.Placed) : s.StepAsked st (s.askStep st) ∧ (s.askStep st).lpm.Placed := by
  obtain ⟨hw, he, hp, hs⟩ := State.xchAsk_wantAsked s (s.mfn.key st.line) .demand h
  cases hr : s.mfn.request with
  | none =>
    have : s.askStep st = s := by unfold State.askStep; rw [hr]
    rw [this]
    refine ⟨⟨fun _ => rfl, ?_⟩, h⟩
    intro r h1; rw [hr] at h1; cases h1
  | some r =>
    by_cases hc : (r.kind = .read && !r.blocked && r.steps.any (fun x => x.line = st.line && x.state = .pending)) = true
    · have e : s.askStep st = (match s.xchAsk (s.mfn.key st.line) .demand with
        | (.created, s1) => s1.setRequest (r.setStep { st with source := .fetchThenMerge, state := .waiting, todo := [] })
        | (.ready, s1) => s1.setRequest (r.setStep (s1.lookupStep st))
        | (.full, s1) => s1.setRequest { r with blocked := true }
        | (.noLine, s1) => (s1.raise .spaceExhausted (spaceDetail .read st.line 1)).failRequest .spaceExhausted) := by
        unfold State.askStep; rw [hr]; simp only; rw [if_pos hc]
        all_goals
          generalize s.xchAsk (s.mfn.key st.line) .demand = res
          obtain ⟨a, s1⟩ := res
          cases a <;> rfl
      have hc' := hc
      simp only [Bool.and_eq_true, decide_eq_true_eq, Bool.not_eq_true', List.any_eq_true] at hc
      obtain ⟨⟨c1, c2⟩, x, c3, c4, c5⟩ := hc
      generalize hq : s.xchAsk (s.mfn.key st.line) .demand = res at *
      obtain ⟨ans, s1⟩ := res
      simp only at hw he hp hs
      refine ⟨⟨?_, ?_⟩, ?_⟩
      · intro hh
        rcases hh r hr with h1 | h1 | h1
        · exact absurd c1 h1
        · rw [c2] at h1; cases h1
        · exact absurd c5 (h1 x c3 c4)
      · intro r' hr' _ _ _
        rw [hr] at hr'; cases hr'
        refine ⟨ans, _, _, hw, ?_, ?_, ?_, ?_⟩
        · rintro rfl; rw [e]; dsimp only; rw [he]; rfl
        · rintro rfl; rw [e]; dsimp only; rw [hs (by simp)]; exact ⟨_, State.lookupStep_lookedUpAgain s st, rfl⟩
        · rintro rfl; rw [e]; dsimp only; rw [hs (by simp)]; rfl
        · rintro rfl; rw [e]; dsimp only; rw [hs (by simp)]; exact State.failRequest_spaceExhausted s .read st.line 1
      · rw [e]
        cases ans
        · exact hp
        · exact hp
        · exact hp
        · unfold State.failRequest; apply State.closeRequest_placed; dsimp only; rw [State.raise_lpm]; exact hp
    · have e : s.askStep st = s := by
        unfold State.askStep; rw [hr]; simp only; rw [if_neg hc]
      rw [e]
      refine ⟨⟨fun _ => rfl, ?_⟩, h⟩
      intro r' hr' h1 h2 ⟨x, h3, h4, h5⟩
      rw [hr] at hr'; cases hr'
      exfalso; apply hc
      simp only [Bool.and_eq_true, decide_eq_true_eq, Bool.not_eq_true', List.any_eq_true]
      exact ⟨⟨h1, h2⟩, x, h3, h4, h5⟩

theorem State.foldl_askStep_stepsAsked (l : List XferStep) (s : State) (h : s.lpm.Placed) :
    s.StepsAsked l (l.foldl State.askStep s) ∧ (l.foldl State.askStep s).lpm.Placed := by
  induction l generalizing s with
  | nil => exact ⟨.done s, h⟩
  | cons a l ih =>
    obtain ⟨h1, h2⟩ := State.askStep_stepAsked s a h
    obtain ⟨h3, h4⟩ := ih _ h2
    exact ⟨.next h1 h3, h4⟩

theorem State.askWants_wantsAsked (s : State) (h : s.lpm.Placed) : s.WantsAsked s.askWants ∧ s.askWants.lpm.Placed := by
  cases hr : s.mfn.request with
  | none =>
    have : s.askWants = s := by unfold State.askWants; rw [hr]
    rw [this]; exact ⟨⟨fun _ => rfl, fun r h1 => by rw [hr] at h1; cases h1⟩, h⟩
  | some r =>
    have e : s.askWants = (r.steps.filter (fun x => x.state = .pending)).foldl State.askStep (s.needWaited r) := by
      unfold State.askWants; rw [hr]
    obtain ⟨h1, h2⟩ := State.foldl_askStep_stepsAsked (r.steps.filter (fun x => x.state = .pending)) (s.needWaited r) h
    rw [e]
    refine ⟨⟨fun h3 => (by rw [hr] at h3; cases h3), ?_⟩, h2⟩
    intro r' hr'; rw [hr] at hr'; cases hr'
    exact h1

theorem nextFetch_some {l : List XferStep} {st} (h : nextFetch l = some st) : NextFetch l st := by
  induction l with
  | nil => cases h
  | cons a l ih =>
    simp only [nextFetch] at h
    split at h
    · rename_i hs
      split at h
      · rename_i ht
        obtain ⟨b, r, e, h1, h2, h3⟩ := ih h
        refine ⟨a :: b, r, by rw [e]; rfl, h1, h2, ?_⟩
        intro x hx; rcases List.mem_cons.1 hx with rfl | hx
        · right; exact ⟨hs, by simpa using ht⟩
        · exact h3 x hx
      · rename_i ht
        cases h
        exact ⟨[], l, rfl, hs, by simpa using ht, by simp⟩
    · rename_i hs
      obtain ⟨b, r, e, h1, h2, h3⟩ := ih h
      refine ⟨a :: b, r, by rw [e]; rfl, h1, h2, ?_⟩
      intro x hx; rcases List.mem_cons.1 hx with rfl | hx
      · exact Or.inl hs
      · exact h3 x hx
    · cases h

theorem NextFetch.eq_some {l : List XferStep} {st} (h : NextFetch l st) : nextFetch l = some st := by
  obtain ⟨b, r, e, h1, h2, h3⟩ := h
  subst e
  induction b with
  | nil => simp [nextFetch, h1, h2]
  | cons a b ih =>
    have := h3 a (by simp)
    have ih := ih (fun x hx => h3 x (by simp [hx]))
    rcases this with h | ⟨h, h'⟩
    · simp [nextFetch, h, ih]
    · simp [nextFetch, h, h', ih]

theorem Lpm.pin_pinned {p q : Lpm} {pos : Nat} (h : p.pin pos = some q) : p.Pinned q pos := by
  unfold Lpm.pin at h
  split at h
  · rename_i key pins hl
    cases h
    exact ⟨Or.inl ⟨key, pins, hl, by show (p.put pos _).line pos = _; simp, rfl⟩, fun x hx => by show (p.put pos _).line x = _; simp [hx], rfl, rfl⟩
  · rename_i n mask pins hl
    cases h
    exact ⟨Or.inr ⟨n, mask, pins, hl, by simp, rfl⟩, fun x hx => by simp [hx], rfl, rfl⟩
  · cases h

theorem Lpm.pin_isSome_iff (p : Lpm) (pos : Nat) : (∃ q, p.pin pos = some q) ↔ ∃ q, p.Pinned q pos := by
  constructor
  · rintro ⟨q, h⟩; exact ⟨q, Lpm.pin_pinned h⟩
  · rintro ⟨q, ⟨hl | hl, -, -⟩⟩
    · obtain ⟨key, pins, h, -⟩ := hl; simp [Lpm.pin, h]
    · obtain ⟨n, mask, pins, h, -⟩ := hl; simp [Lpm.pin, h]

theorem Lpm.pin_placed {p q : Lpm} {pos : Nat} (hp : p.Placed) (h : p.pin pos = some q) : q.Placed := by
  unfold Lpm.pin at h
  split at h
  · rename_i key pins hl
    cases h
    have := hp.put (hp.line_lt hl) (.clean key (pins + 1) false)
    exact ⟨this.rising, this.below, fun x hx => hp.recency x (List.mem_of_mem_filter hx)⟩
  · rename_i n mask pins hl
    cases h; exact hp.put (hp.line_lt hl) _
  · cases h

theorem State.hasFetchLine_iff (s : State) (st : XferStep) (f : Fetch) (pos : Nat) : s.HasFetchLine st f pos ↔ s.fetchLine st f = some pos := by
  unfold State.HasFetchLine State.fetchLine
  cases f <;> simp only [Option.map_eq_some_iff, Prod.exists, exists_and_right, exists_eq_right]

theorem State.fetchBlocks_eq (s : State) (st : XferStep) (f : Fetch) : s.fetchBlocks st f =
    (List.range 4).filter (fun b => Decidable.decide (st.first ≤ b ∧ b ≤ st.last) &&
             ((s.lpm.overlayMask st.line).getLsbD b == Decidable.decide (f = .overlay))) := by
  unfold State.fetchBlocks
  cases f
  all_goals
    simp only [State.overlayBlocks, State.baseBlocks, XferStep.blocks, List.filter_filter]
    congr 1; funext b
    cases (s.lpm.overlayMask st.line).getLsbD b <;> simp

/-- All that asking the next read does (R129). -/
theorem State.askFetch_fetchAsked (s : State) (h : s.lpm.Placed) : s.FetchAsked s.askFetch ∧ s.askFetch.lpm.Placed := by
  cases hr : s.mfn.request with
  | none =>
    have e : s.askFetch = s := by unfold State.askFetch; rw [hr]
    rw [e]
    refine ⟨⟨fun _ => rfl, ?_, ?_⟩, h⟩
    · intro r st f more pos q h1; rw [hr] at h1; cases h1
    · intro r st f more h1; rw [hr] at h1; cases h1
  | some r =>
    by_cases hc : (r.kind = .read && s.mctl.mediaOutstanding < 2) = true
    · simp only [Bool.and_eq_true, decide_eq_true_eq] at hc
      cases hn : nextFetch r.steps with
      | none =>
        have e : s.askFetch = s := by unfold State.askFetch; rw [hr]; simp [hn]
        rw [e]
        refine ⟨⟨fun _ => rfl, ?_, ?_⟩, h⟩
        · intro r' st f more pos q h1 _ _ h2; rw [hr] at h1; cases h1; rw [NextFetch.eq_some h2] at hn; cases hn
        · intro r' st f more h1 _ _ h2; rw [hr] at h1; cases h1; rw [NextFetch.eq_some h2] at hn; cases hn
      | some st =>
        have hnf := nextFetch_some hn
        cases htodo : st.todo with
        | nil => obtain ⟨_, _, _, _, h2, _⟩ := hnf; exact absurd htodo h2
        | cons f more =>
          have hrest : ¬ (∀ r', s.mfn.request = some r' → r'.kind ≠ .read ∨ 2 ≤ s.mctl.mediaOutstanding ∨ ∀ st, ¬ NextFetch r'.steps st) := by
            intro hh
            rcases hh r hr with a | a | a
            · exact a hc.1
            · omega
            · exact a st hnf
          have uniq : ∀ st', NextFetch r.steps st' → st' = st := by
            intro st' h'; have := NextFetch.eq_some h'; rw [hn] at this; cases this; rfl
          cases hb : (s.fetchLine st f).bind (fun pos => (s.lpm.pin pos).map (fun p => (pos, p))) with
          | some x =>
            obtain ⟨pos, p⟩ := x
            have e : s.askFetch = ({ s with lpm := p, mctl := s.mctl.askMedia { line := pos, isRead := true, blocks := s.fetchBlocks st f, lineNo := st.line, request := r.serial } } : State).setRequest (r.setStep { st with todo := more }) := by
              unfold State.askFetch; rw [hr]; simp [hc.1, hc.2, hn, htodo, hb]
            simp only [Option.bind_eq_some_iff, Option.map_eq_some_iff, Prod.mk.injEq] at hb
            obtain ⟨pos', hl, p', hp, rfl, rfl⟩ := hb
            rw [e]
            refine ⟨⟨fun hh => absurd hh hrest, ?_, ?_⟩, Lpm.pin_placed h hp⟩
            · intro r' st' f' more' pos q h1 _ _ h2 h3 h4 h5
              rw [hr] at h1; cases h1
              obtain rfl := uniq st' h2
              rw [htodo] at h3; cases h3
              rw [State.hasFetchLine_iff, hl] at h4; cases h4
              refine ⟨p', Lpm.pin_pinned hp, ?_⟩
              rw [State.fetchBlocks_eq]; rfl
            · intro r' st' f' more' h1 _ _ h2 h3 h4
              rw [hr] at h1; cases h1
              obtain rfl := uniq st' h2
              rw [htodo] at h3; cases h3
              exact absurd (Lpm.pin_pinned hp) (h4 pos' p' ((State.hasFetchLine_iff _ _ _ _).2 hl))
          | none =>
            have e : s.askFetch = s.relookStep r st := by
              unfold State.askFetch; rw [hr]; simp [hc.1, hc.2, hn, htodo, hb]
            have hno : ∀ pos q, s.HasFetchLine st f pos → ¬ s.lpm.Pinned q pos := by
              intro pos q h1 h2
              rw [State.hasFetchLine_iff] at h1
              obtain ⟨q', h3⟩ := (Lpm.pin_isSome_iff s.lpm pos).2 ⟨q, h2⟩
              rw [h1] at hb; simp [h3] at hb
            rw [e]
            obtain ⟨x, y, ew⟩ := State.withdrawMedia_eq s (fun m => m.isRead && (m.request = r.serial && m.lineNo = st.line))
            have hwp := State.withdrawMedia_placed s (fun m => m.isRead && (m.request = r.serial && m.lineNo = st.line)) h
            refine ⟨⟨fun hh => absurd hh hrest, ?_, ?_⟩, ?_⟩
            · intro r' st' f' more' pos q h1 _ _ h2 h3 h4 h5
              rw [hr] at h1; cases h1
              obtain rfl := uniq st' h2
              rw [htodo] at h3; cases h3
              exact absurd h5 (hno pos q h4)
            · intro r' st' f' more' h1 _ _ h2 h3 _
              rw [hr] at h1; cases h1
              obtain rfl := uniq st' h2
              refine ⟨(s.withdrawMedia (fun m => m.isRead && (m.request = r.serial && m.lineNo = st'.line))).lpm,
                ({ s with lpm := (s.withdrawMedia (fun m => m.isRead && (m.request = r.serial && m.lineNo = st'.line))).lpm } : State).lookupStep st', Lpm.foldl_unpin_unpinnedInTurn _ _, State.lookupStep_lookedUpAgain _ _, ?_⟩
              unfold State.relookStep State.withdrawReads
              dsimp only
              rw [ew]
              unfold State.setRequest Mctl.dropCurrentMedia
              dsimp only
              cases hcur : s.mctl.current with
              | none => rfl
              | some c =>
                obtain ⟨q, rep⟩ := c
                cases q <;> try rfl
                dsimp only [Option.map]
                split <;> rfl
            · unfold State.relookStep State.withdrawReads State.setRequest
              exact hwp
    · have e : s.askFetch = s := by
        unfold State.askFetch; rw [hr]; simp only; rw [if_neg hc]
      rw [e]
      simp only [Bool.and_eq_true, decide_eq_true_eq, not_and] at hc
      refine ⟨⟨fun _ => rfl, ?_, ?_⟩, h⟩
      · intro r' st f more pos q h1 h2 h3; rw [hr] at h1; cases h1; exact absurd h3 (hc h2)
      · intro r' st f more h1 h2 h3; rw [hr] at h1; cases h1; exact absurd h3 (hc h2)

theorem getLsbD_maskOf (st : XferStep) (b : Nat) (hb : b < 4) : (maskOf st.blocks).getLsbD b = true ↔ st.first ≤ b ∧ b ≤ st.last := by
  have : ∀ (l : List Nat) (m : BitVec 4), (l.foldl (fun m b => m ||| (1#4 <<< b)) m).getLsbD b = true ↔ m.getLsbD b = true ∨ b ∈ l := by
    intro l
    induction l with
    | nil => simp
    | cons a l ih =>
      intro m
      rw [List.foldl_cons, ih]
      simp only [BitVec.getLsbD_or, BitVec.getLsbD_shiftLeft, Bool.or_eq_true, List.mem_cons]
      have : (decide (b < 4) && !decide (b < a) && (1#4).getLsbD (b - a)) = true ↔ b = a := by
        simp only [hb, decide_true, Bool.true_and, Bool.and_eq_true, Bool.not_eq_true', decide_eq_false_iff_not, BitVec.getLsbD_one]
        simp
        omega
      rw [this]; tauto
  unfold maskOf
  rw [this]
  simp [XferStep.blocks, hb]

theorem Lpm.findOverlay_dirty {p : Lpm} {n pos l} (h : p.findOverlay n = some (pos, l)) : ∃ m old pins pending, l = .dirty m old pins pending := by
  unfold Lpm.findOverlay at h
  have := List.find?_some h
  cases l with
  | dirty m old pins pending => exact ⟨_, _, _, _, rfl⟩
  | _ => simp [Line.hasOverlay] at this

/-- All that asking an overlay line answers (R113). -/
theorem Lpm.allocOverlay_spec (p : Lpm) (n : Nat) (mask : BitVec 4) (h : p.Placed) :
    (∀ pos q, p.allocOverlay n mask = .given pos q → p.OverlayGiven q n mask pos ∧ q.Placed) ∧
    (p.allocOverlay n mask = .dirtyLimit → p.poolSize ≠ 0 ∧ p.findOverlay n = none ∧ p.poolSize - p.reserve ≤ p.dirtyCount) ∧
    (p.allocOverlay n mask = .noLine → p.poolSize = 0 ∨ ((p.poolSize ≠ 0 ∧ p.findOverlay n = none) ∧ ¬ p.poolSize - p.reserve ≤ p.dirtyCount ∧ p.NoLine)) := by
  unfold Lpm.allocOverlay
  by_cases h0 : p.poolSize = 0
  · simp [h0]
  rw [if_neg h0]
  split
  · rename_i pos m old pins pending hf
    refine ⟨?_, by simp, by simp⟩
    intro pos' q e
    simp only [OverlayAnswer.given.injEq] at e
    obtain ⟨rfl, rfl⟩ := e
    have hlt : pos < p.poolSize := by
      unfold Lpm.findOverlay at hf
      exact h.below _ (List.mem_of_find?_eq_some hf)
    exact ⟨⟨h0, Or.inl ⟨m, old, pins, pending, hf, by simp, rfl, fun x hx => by simp [hx], rfl, rfl⟩⟩, h.put hlt _⟩
  · rename_i hno
    have hf : p.findOverlay n = none := by
      cases hc : p.findOverlay n with
      | none => rfl
      | some x =>
        obtain ⟨pos, l⟩ := x
        obtain ⟨m, old, pins, pending, rfl⟩ := Lpm.findOverlay_dirty hc
        exact absurd hc (hno _ _ _ _ _)
    split
    · rename_i hl
      exact ⟨by simp, fun _ => ⟨h0, hf, hl⟩, by simp⟩
    · rename_i hl
      split
      · rename_i pos q ht
        refine ⟨?_, by simp, by simp⟩
        intro pos' q' e
        simp only [OverlayAnswer.given.injEq] at e
        obtain ⟨rfl, rfl⟩ := e
        obtain ⟨hg, hp⟩ := Lpm.take_given h ht (.dirty n mask 1 false)
        exact ⟨⟨h0, Or.inr ⟨hf, by omega, hg⟩⟩, hp⟩
      · rename_i ht
        refine ⟨by simp, by simp, fun _ => Or.inr ⟨⟨h0, hf⟩, hl, Or.inr (Lpm.take_none h ht)⟩⟩

/-- All that asking the buffered step's write does (R130). -/
theorem State.askStore_storeAsked (s : State) (h : s.lpm.Placed) : s.StoreAsked s.askStore ∧ s.askStore.lpm.Placed := by
  cases hr : s.mfn.request with
  | none =>
    have e : s.askStore = s := by unfold State.askStore; rw [hr]
    rw [e]
    refine ⟨⟨fun _ => rfl, ?_⟩, h⟩
    intro r line data b st rest h1; rw [hr] at h1; cases h1
  | some r =>
    cases hb : r.buffer with
    | none =>
      have e : s.askStore = s := by unfold State.askStore; rw [hr]; simp [hb]
      rw [e]
      refine ⟨⟨fun _ => rfl, ?_⟩, h⟩
      intro r' line data b st rest h1 h2; rw [hr] at h1; cases h1; rw [hb] at h2; cases h2
    | some x =>
      obtain ⟨line, data⟩ := x
      cases hf : r.steps.find? (fun st => !st.isDone) with
      | none =>
        have e : s.askStore = s := by unfold State.askStore; rw [hr]; simp only [hb, hf]
        rw [e]
        refine ⟨⟨fun _ => rfl, ?_⟩, h⟩
        intro r' line' data' b st rest h1 h2 h3 h4 h5; rw [hr] at h1; cases h1
        rw [List.find?_eq_none] at hf
        have := hf st (by rw [h3]; simp)
        simp [XferStep.isDone, h5] at this
      | some st =>
        obtain ⟨b0, r0, e0, p0, q0⟩ := find?_split _ _ _ hf
        simp only [XferStep.isDone, Bool.not_eq_true', decide_eq_false_iff_not, Bool.not_eq_false', decide_eq_true_eq] at p0 q0
        have uniq : ∀ b st' rest, r.steps = b ++ st' :: rest → (∀ x ∈ b, x.state = .done) → st'.state ≠ .done → st' = st := by
          intro b st' rest h3 h4 h5
          have : r.steps.find? (fun st => !st.isDone) = some st' := by
            rw [h3]
            exact find?_of_split _ _ _ _ (by simp [XferStep.isDone, h5]) (fun x hx => by simp [XferStep.isDone, h4 x hx])
          rw [hf] at this; cases this; rfl
        by_cases hm : s.mctl.mediaOutstanding < 2
        · have hrest : ¬ (∀ r', s.mfn.request = some r' → r'.buffer = none ∨ (∀ st ∈ r'.steps, st.state = .done) ∨ 2 ≤ s.mctl.mediaOutstanding) := by
            intro hh
            rcases hh r hr with a | a | a
            · rw [hb] at a; cases a
            · exact p0 (a st (by rw [e0]; simp))
            · omega
          have e : s.askStore = (match s.lpm.allocOverlay line (maskOf st.blocks) with
            | .given pos p => ({ s with lpm := p, mctl := s.mctl.askMedia { line := pos, isRead := false, blocks := st.blocks, data := data, lineNo := line, request := r.serial } } : State).setRequest (Request.setStep { r with buffer := none } { st with state := .ready })
            | .dirtyLimit => (s.raise .spaceExhausted (spaceDetail .write line 2)).failRequest .spaceExhausted
            | .noLine => (s.raise .spaceExhausted (spaceDetail .write line 1)).failRequest .spaceExhausted) := by
            unfold State.askStore; rw [hr]; simp only [hb, hf, hm, if_true]
            all_goals
              generalize s.lpm.allocOverlay line (maskOf st.blocks) = a
              cases a <;> rfl
          have hblocks : st.blocks = (List.range 4).filter (fun b => Decidable.decide (st.first ≤ b ∧ b ≤ st.last)) := by
            unfold XferStep.blocks; congr 1; funext b; simp
          obtain ⟨a1, a2, a3⟩ := Lpm.allocOverlay_spec s.lpm line (maskOf st.blocks) h
          have excl : ∀ pos q, s.lpm.OverlayGiven q line (maskOf st.blocks) pos → ∃ pos' q', s.lpm.allocOverlay line (maskOf st.blocks) = .given pos' q' := by
            intro pos q ⟨g0, g⟩
            cases ha : s.lpm.allocOverlay line (maskOf st.blocks) with
            | given pos' q' => exact ⟨_, _, rfl⟩
            | dirtyLimit =>
              obtain ⟨b1, b2, b3⟩ := a2 ha
              rcases g with ⟨m, old, pins, pending, g, -⟩ | ⟨g, g2, -⟩
              · rw [b2] at g; cases g
              · omega
            | noLine =>
              rcases a3 ha with b | ⟨⟨b1, b2⟩, b3, b4⟩
              · exact absurd b g0
              · rcases g with ⟨m, old, pins, pending, g, -⟩ | ⟨g, g2, g3⟩
                · rw [b2] at g; cases g
                · exfalso
                  rcases b4 with b4 | ⟨b4, b5⟩
                  · exact g0 b4
                  · rcases g3.choice with ⟨c1, c2, -, -⟩ | ⟨-, ⟨rr, c2⟩, -⟩
                    · exact b4 _ c1 c2
                    · rw [b5] at c2; cases c2
          refine ⟨⟨fun hh => absurd hh hrest, ?_⟩, ?_⟩
          · intro r' line' data' b st' rest h1 h2 h3 h4 h5 _
            rw [hr] at h1; cases h1
            rw [hb] at h2; cases h2
            obtain rfl := uniq b st' rest h3 h4 h5
            refine ⟨maskOf st'.blocks, fun b hb => getLsbD_maskOf st' b hb, ?_, ?_, ?_⟩
            · rintro ⟨pos, q, hg⟩
              obtain ⟨pos', q', ha⟩ := excl pos q hg
              refine ⟨pos', q', (a1 _ _ ha).1, ?_⟩
              rw [e, ha, ← hblocks]; rfl
            · rintro ⟨f1, f2⟩ hl
              have ha : s.lpm.allocOverlay line (maskOf st'.blocks) = .dirtyLimit := by
                unfold Lpm.allocOverlay; simp [f1, f2, hl]
              rw [e, ha]; exact State.failRequest_spaceExhausted s .write line 2
            · intro hh
              have ha : s.lpm.allocOverlay line (maskOf st'.blocks) = .noLine := by
                cases ha : s.lpm.allocOverlay line (maskOf st'.blocks) with
                | given pos q =>
                  exfalso
                  obtain ⟨⟨g0, g⟩, -⟩ := a1 _ _ ha
                  rcases hh with hh | ⟨⟨f1, f2⟩, f3, f4⟩
                  · exact g0 hh
                  · rcases g with ⟨m, old, pins, pending, g, -⟩ | ⟨g, g2, g3⟩
                    · rw [f2] at g; cases g
                    · rcases f4 with b4 | ⟨b4, b5⟩
                      · exact g0 b4
                      · rcases g3.choice with ⟨c1, c2, -, -⟩ | ⟨-, ⟨rr, c2⟩, -⟩
                        · exact b4 _ c1 c2
                        · rw [b5] at c2; cases c2
                | dirtyLimit =>
                  exfalso
                  obtain ⟨b1, b2, b3⟩ := a2 ha
                  rcases hh with hh | ⟨⟨f1, f2⟩, f3, f4⟩
                  · exact b1 hh
                  · exact f3 b3
                | noLine => rfl
              rw [e, ha]; exact State.failRequest_spaceExhausted s .write line 1
          · rw [e]
            cases ha : s.lpm.allocOverlay line (maskOf st.blocks) with
            | given pos q => exact (a1 _ _ ha).2
            | dirtyLimit => unfold State.failRequest; apply State.closeRequest_placed; dsimp only; rw [State.raise_lpm]; exact h
            | noLine => unfold State.failRequest; apply State.closeRequest_placed; dsimp only; rw [State.raise_lpm]; exact h
        · have e : s.askStore = s := by unfold State.askStore; rw [hr]; simp [hb, hf, hm]
          rw [e]
          refine ⟨⟨fun _ => rfl, ?_⟩, h⟩
          intro r' line' data' b st' rest h1 h2 h3 h4 h5 h6; exact absurd h6 hm

theorem State.mediaRun_eq_iterate (n : Nat) (s : State) : State.mediaRun n s = (fun t : State => t.askWants.askFetch.askStore)^[n] s := by
  induction n generalizing s with
  | zero => rfl
  | succ n ih => unfold State.mediaRun; rw [ih, Function.iterate_succ_apply]

/-- All that MFN asks at the end of a step (R127, R129, R130). -/
theorem State.mediaAdvance_mediaAdvanced (s : State) (h : s.mfn.request.isSome → s.lpm.Placed) : s.MediaAdvanced s.mediaAdvance := by
  constructor
  · intro hn; unfold State.mediaAdvance; simp [hn]
  · intro hs
    have h := h hs
    refine ⟨fun i => (fun t : State => t.askWants.askFetch.askStore)^[i] s, rfl, ?_, ?_⟩
    · unfold State.mediaAdvance; rw [if_pos hs, State.mediaRun_eq_iterate]
    · intro i _
      have hp : ∀ i, ((fun t : State => t.askWants.askFetch.askStore)^[i] s).lpm.Placed := by
        intro i
        induction i with
        | zero => exact h
        | succ i ih =>
          rw [Function.iterate_succ_apply']
          exact (State.askStore_storeAsked _ (State.askFetch_fetchAsked _ (State.askWants_wantsAsked _ ih).2).2).2
      have h1 := State.askWants_wantsAsked _ (hp i)
      have h2 := State.askFetch_fetchAsked _ h1.2
      have h3 := State.askStore_storeAsked _ h2.2
      refine ⟨_, _, h1.1, h2.1, ?_⟩
      simp only [Function.iterate_succ_apply']
      exact h3.1

/-- All that readahead asks (R133): the wants of its candidate lines in turn, and nothing else. -/
theorem State.readahead_readaheadAsked (lines : List Nat) (s : State) (h : s.lpm.Placed) :
    ReadaheadAsked s.mfn lines s.lpm s.xch.wants (s.readahead lines).lpm (s.readahead lines).xch.wants ∧
    s.readahead lines = { s with
      lpm := (s.readahead lines).lpm, xch := { s.xch with wants := (s.readahead lines).xch.wants } } := by
  induction lines generalizing s with
  | nil => exact ⟨.done _ _, rfl⟩
  | cons line rest ih =>
    unfold State.readahead
    split
    · rename_i hheld
      rw [Bool.or_eq_true] at hheld
      exact ⟨.held hheld (ih s h).1, (ih s h).2⟩
    · rename_i hfree
      have ho : s.lpm.findOverlay line = none := by cases hc : s.lpm.findOverlay line <;> simp_all
      have hi : s.lpm.find (s.mfn.key line) = none := by cases hc : s.lpm.find (s.mfn.key line) <;> simp_all
      obtain ⟨hasked, hframe, hplaced, -⟩ := s.xchAsk_wantAsked (s.mfn.key line) .readahead h
      generalize s.xchAsk (s.mfn.key line) .readahead = res at *
      obtain ⟨answer, t⟩ := res
      dsimp only at hasked hframe hplaced
      have hmfn : t.mfn = s.mfn := by rw [hframe]
      have htail : answer ≠ .full → ReadaheadAsked s.mfn (line :: rest) s.lpm s.xch.wants (t.readahead rest).lpm
          (t.readahead rest).xch.wants ∧ t.readahead rest = { s with
            lpm := (t.readahead rest).lpm, xch := { s.xch with wants := (t.readahead rest).xch.wants } } := by
        intro hne
        obtain ⟨hrest, hf⟩ := ih t hplaced
        rw [hmfn] at hrest
        refine ⟨.asked ho hi hasked hne hrest, ?_⟩
        rw [hf]
        generalize (t.readahead rest).lpm = lpm
        generalize (t.readahead rest).xch.wants = wants
        rw [hframe]
      cases answer
      · exact htail (by simp)
      · exact htail (by simp)
      · exact ⟨.full ho hi hasked, hframe⟩
      · exact htail (by simp)

end Sys2Proof.Machine
end

