-- ==== Sys2Proof/Laws/Exchange.lean ====
section
/-! SUPPORT. What XCH's frames do to the send list and the pool: a LINE-WANT, a LINE-GIVE, an IMAGE-RETIRE (R143, R144,
R149 to R153). -/

namespace Sys2Proof.Machine

/-! ### Frames that leave the send list -/

/-- A LINE-WANT seen withdraws the frames of the wants that ride on it, and no other (R143, R149). -/
theorem State.seeWant_frames (s : State) (key : Key) :
    s.lif.WantsWithdrawn (s.seeWant key).lif (s.xch.wants.filter (fun w => w.isFor key)) := by
  have h := s.withdrawWants_withdrawn (s.xch.wants.filter (fun w => w.isFor key))
  have : (s.seeWant key).lif = (s.withdrawWants (s.xch.wants.filter (fun w => w.isFor key))).lif := by
    unfold State.seeWant State.queueGive State.rideWants
    dsimp only
    (repeat' split) <;> rfl
  rw [this]; exact h

/-- Gives that leave the list: frames in tenure and other frames stay, and the lines are unpinned in turn (R150, R151). -/
theorem State.dropGives_frames (s : State) (out : Give → Bool) :
    (∀ seq e, s.lif.entry seq = some e → e.inTenure = true → (s.dropGives out).lif.entry seq = some e) ∧
    (∀ e ∈ s.lif.sendList, (∀ g ∈ s.xch.gives, out g = true → g.standing.isAt e.seq = false) → e ∈ (s.dropGives out).lif.sendList) ∧
    s.lpm.UnpinnedInTurn ((s.xch.gives.filter out).map Give.line) (s.dropGives out).lpm := by
  have key : ∀ (l : List Standing) (t : State),
    (∀ seq e, t.lif.entry seq = some e → e.inTenure = true → (l.foldl State.withdrawStanding t).lif.entry seq = some e) ∧
    (∀ e ∈ t.lif.sendList, (∀ st ∈ l, st.isAt e.seq = false) → e ∈ (l.foldl State.withdrawStanding t).lif.sendList) := by
    intro l
    induction l with
    | nil => exact fun t => ⟨fun _ _ h _ => h, fun _ h _ => h⟩
    | cons a l ih =>
      intro t
      obtain ⟨h1, h2⟩ := ih (t.withdrawStanding a)
      refine ⟨fun seq e h k => h1 seq e (t.withdrawStanding_inTenure a h k) k, fun e he h => h2 e ?_ ?_⟩
      · exact (t.withdrawStanding_spec a).2.2.2 e he (h a List.mem_cons_self)
      · exact fun st hst => h st (List.mem_cons_of_mem _ hst)
  obtain ⟨h1, h2⟩ := key ((s.xch.gives.filter out).map Give.standing) s
  refine ⟨h1, fun e he h => h2 e he ?_, ?_⟩
  · intro st hst
    obtain ⟨g, hg, rfl⟩ := List.mem_map.mp hst
    exact h g (List.mem_of_mem_filter hg) (List.mem_filter.mp hg).2
  · have : ((s.xch.gives.filter out).map Give.standing |>.foldl State.withdrawStanding s).lpm = s.lpm := by
      obtain ⟨l, g, w, e⟩ := State.OnlyWithdraws.foldl _ State.withdrawStanding_onlyWithdraws ((s.xch.gives.filter out).map Give.standing) s
      rw [e]
    show s.lpm.UnpinnedInTurn _ (((s.xch.gives.filter out).map Give.line).foldl Lpm.unpin _)
    rw [this]
    exact Lpm.foldl_unpin_unpinnedInTurn _ _

/-- A fill withdraws the frame of the want it fills, and no other; with no want to fill or no free buffer it does nothing
(R144). -/
theorem State.fillWants_frames (s : State) (key : Key) (data : Bytes) :
    let filling := fun (w : Want) => w.isFor key = true ∧ (w.state = .sent ∨ w.state = .riding ∨ ∃ st, w.state = .queued st)
    let unfilled := (∀ w ∈ s.xch.wants, ¬ filling w) ∨ ∀ i, ¬ s.xch.fillBufs.get i = none
    (unfilled → s.fillWants key data = s) ∧
    (∀ seq e, s.lif.entry seq = some e → e.inTenure = true → (s.fillWants key data).lif.entry seq = some e) ∧
    (∀ e ∈ s.lif.sendList, (∀ w ∈ s.xch.wants, filling w → ∀ st, w.state = .queued st → st.isAt e.seq = false) →
      e ∈ (s.fillWants key data).lif.sendList) := by
  intro filling unfilled
  have hf : ∀ w : Want, (w.isFor key && w.fillable) = true ↔ filling w := by
    intro w
    simp only [filling, Bool.and_eq_true]
    refine and_congr_right fun _ => ?_
    cases h : w.state <;> simp [Want.fillable, h]
  cases hw : s.xch.wants.find? (fun w => w.isFor key && w.fillable) with
  | none =>
    have : s.fillWants key data = s := by unfold State.fillWants; rw [hw]
    rw [this]; exact ⟨fun _ => rfl, fun _ _ h _ => h, fun _ h _ => h⟩
  | some w =>
    have hm := List.mem_of_find?_eq_some hw
    have hw2 := (hf w).mp (List.find?_some (p := fun w : Want => w.isFor key && w.fillable) hw)
    cases hb : s.xch.freeBuffer with
    | none =>
      have : s.fillWants key data = s := by unfold State.fillWants; rw [hw, hb]
      rw [this]; exact ⟨fun _ => rfl, fun _ _ h _ => h, fun _ h _ => h⟩
    | some buf =>
      have hfree : s.xch.fillBufs.get buf = none := by
        have := List.find?_some hb
        simpa using this
      have hno : ¬ unfilled := by
        rintro (h | h)
        · exact h w hm hw2
        · exact h buf hfree
      have hl : (s.fillWants key data).lif = s.lif ∨ (s.fillWants key data).lif = (s.withdrawWants [w]).lif := by
        unfold State.fillWants
        rw [hw, hb]
        dsimp only
        split
        · exact .inr rfl
        · exact .inl rfl
      refine ⟨fun h => absurd h hno, ?_⟩
      rcases hl with hl | hl
      · rw [hl]; exact ⟨fun _ _ h _ => h, fun _ h _ => h⟩
      · rw [hl]
        have h := s.withdrawWants_withdrawn [w]
        refine ⟨h.tenure, fun e he k => h.stays e he fun v hv st hst => ?_⟩
        simp only [List.mem_singleton] at hv; subst hv
        exact k _ hm hw2 st hst

/-- The computer's gives of a key leave the send list outside tenure, and no other frame (R152). -/
theorem State.suppressComputerGives_frames (s : State) (key : Key) :
    (∀ seq e, s.lif.entry seq = some e → e.inTenure = true → (s.suppressComputerGives key).lif.entry seq = some e) ∧
    (∀ e ∈ s.lif.sendList, s.serving = true ∨ e.isComputerGive key = false → e ∈ (s.suppressComputerGives key).lif.sendList) := by
  unfold State.suppressComputerGives
  split
  · exact ⟨fun _ _ h _ => h, fun _ h _ => h⟩
  · rename_i hs
    refine ⟨fun seq e h k => ?_, fun e he h => List.mem_filter.mpr ⟨he, by simpa [hs] using h⟩⟩
    unfold Lif.entry at h ⊢
    dsimp only
    obtain ⟨hp, as, bs, e1, hn⟩ := List.find?_eq_some_iff_append.mp h
    rw [e1, List.filter_append, List.find?_append, List.filter_cons, if_pos (by simp [SendEntry.isComputerGive, k]),
      List.find?_eq_none.mpr (fun x hx => by simpa using hn x (List.mem_of_mem_filter hx)), Option.none_or, List.find?_cons, hp]

theorem SendEntry.isComputerGive_iff (e : SendEntry) (key : Key) : e.isComputerGive key = true ↔
    (e.owner = .upb ∧ e.inTenure = false ∧ e.kind = .lineGive ∧ ∃ b, e.payload = .body b ∧ keyOf b = key) := by
  unfold SendEntry.isComputerGive isGiveOf
  cases h : e.payload <;> simp [and_assoc]

/-! ### Retire -/

/-- A request that has ended is in progress no more (R131). -/
theorem State.RequestEnded.request_none {s t : State} (h : s.RequestEnded t) : t.mfn.request = none := by
  cases hr : s.mfn.request with
  | none => rw [h.idle hr]; exact hr
  | some r =>
    obtain ⟨x, y, -, h1, h2⟩ := h.ends r hr
    cases hd : s.mfn.draining with
    | false => rw [h1 hd]
    | true => rw [(h2 hd).frame]

/-- The reports of several wants failed, in order (R128, R153). -/
theorem State.wantsFailed_spec (s : State) (keys : List Key) :
    let waits := fun (r : Request) (k : Key) => ∃ st ∈ r.steps, st.state = .waiting ∧ s.mfn.key st.line = k
    (s.mfn.request = none → s.wantsFailed keys = s) ∧
    (∀ r, s.mfn.request = some r → (∀ k ∈ keys, ¬ waits r k) →
      s.wantsFailed keys = { s with mfn := { s.mfn with request := some { r with blocked := r.blocked && keys.isEmpty } } }) ∧
    (∀ r before k rest, s.mfn.request = some r → keys = before ++ k :: rest → (∀ j ∈ before, ¬ waits r j) → waits r k →
      ({ s with
        mfn := { s.mfn with request := some { r with blocked := false }, usbStatus := some .mediumError }
        ntu := (s.raise .mediaFailure (be 4 k.line ++ be 2 k.image ++ be 1 k.gen)).ntu } : State).RequestEnded
          (s.wantsFailed keys)) := by
  intro waits
  induction keys generalizing s with
  | nil =>
    refine ⟨fun _ => rfl, fun r h _ => ?_, fun r before k rest _ h => absurd h (by simp)⟩
    have hb : some { r with blocked := r.blocked && ([] : List Key).isEmpty } = s.mfn.request := by
      rw [h, List.isEmpty_nil, Bool.and_true]
    rw [hb]
    rfl
  | cons a keys ih =>
    have hstep : s.wantsFailed (a :: keys) = (s.wantEnded a false).wantsFailed keys := rfl
    obtain ⟨h0, h1⟩ := s.wantEnded_failed a
    rw [hstep]
    refine ⟨fun h => ?_, fun r h hn => ?_, fun r before k rest h hk hb hw => ?_⟩
    · rw [h0 h]; exact (ih s).1 h
    · have hx : s.wantEnded a false = _ := (h1 r h).1 (fun st hst hs => hn a List.mem_cons_self ⟨st, hst, hs⟩)
      rw [hx]
      have := (ih { s with mfn := { s.mfn with request := some { r with blocked := false } } }).2.1 _ rfl
        (fun k hk => hn k (List.mem_cons_of_mem _ hk))
      rw [this]
      simp
    · cases before with
      | nil =>
        obtain ⟨rfl, rfl⟩ : a = k ∧ keys = rest := by simpa using hk
        obtain ⟨st, hst, hs⟩ := hw
        obtain ⟨b4, y, z, hp, hq, hr⟩ : ∃ b4 y z, r.steps = b4 ++ y :: z ∧ (y.state = .waiting ∧ s.mfn.key y.line = a) ∧
            ∀ x ∈ b4, ¬ (x.state = .waiting ∧ s.mfn.key x.line = a) := by
          cases hf : r.steps.find? (fun x => Decidable.decide (x.state = .waiting ∧ s.mfn.key x.line = a)) with
          | none => exact absurd (List.find?_eq_none.mp hf st hst) (by simp [hs])
          | some y =>
            obtain ⟨b, as, bs, e, n⟩ := List.find?_eq_some_iff_append.mp hf
            exact ⟨as, y, bs, e, of_decide_eq_true b, fun x hx => by simpa [imp_iff_not_or] using n x hx⟩
        have he := (h1 r h).2 b4 y z hp hr hq
        have hz := (ih (s.wantEnded a false)).1 he.request_none
        rw [hz]
        have hkey := hq.2
        subst hkey
        exact he
      | cons b before =>
        obtain ⟨rfl, rfl⟩ : a = b ∧ keys = before ++ k :: rest := by simpa using hk
        have hx : s.wantEnded a false = _ := (h1 r h).1 (fun st hst hs => hb a List.mem_cons_self ⟨st, hst, hs⟩)
        rw [hx]
        have := (ih { s with mfn := { s.mfn with request := some { r with blocked := false } } }).2.2 _ before k rest rfl rfl
          (fun j hj => hb j (List.mem_cons_of_mem _ hj)) hw
        rw [State.raise_ntu_congr (s := s) (by rfl) (by rfl) (by rfl)] at this
        exact this

/-- LPM and XCH retire an image generation (R112, R153). -/
theorem State.retireImage_retired (s : State) (image gen : Nat) (h : s.lpm.Placed) :
    s.PoolRetired (s.retireImage image gen) image gen := by
  obtain ⟨l, g, w, e⟩ := s.withdrawWants_onlyWithdraws (s.xch.wants.filter (fun w => w.ofImage image gen))
  have hw := s.withdrawWants_withdrawn (s.xch.wants.filter (fun w => w.ofImage image gen))
  have hl : (s.retireImage image gen).lpm = s.lpm.retire image gen := by
    unfold State.retireImage; dsimp only; rw [e]
  obtain ⟨x, y, hx⟩ : s.lpm.OnlyLines (s.lpm.retire image gen) := by
    refine Lpm.OnlyLines.foldl _ (fun p a => ?_) _ _
    unfold Lpm.retireLine
    (repeat' split) <;> first | exact p.freeFilling_onlyLines a | exact ⟨_, _, rfl⟩
  refine ⟨?_, fun pos => ?_, ?_, ?_, hw⟩
  · unfold State.retireImage
    dsimp only
    rw [e, hx]
    rfl
  · rw [hl, Lpm.line_retire _ _ _ h]
    congr 1
    funext l
    rcases l with ⟨k, w⟩ | ⟨k, pins, d⟩ | ⟨n, m, pins, pe⟩
    · cases w <;> by_cases hk : k.image = image ∧ k.gen = gen <;>
        simp [Line.ofImage, Line.afterRetire, Line.retired, hk]
    · cases d <;> by_cases hk : k.image = image ∧ k.gen = gen <;>
        simp [Line.ofImage, Line.afterRetire, Line.retired, hk]
    · rfl
  · rw [hl]; exact Lpm.retire_frees _ _ _
  · unfold State.retireImage
    dsimp only
    rw [e]
    rfl

/-- All that an IMAGE-RETIRE applied does (R112, R128, R136, R153). -/
theorem State.applyRetire_retired (s : State) (image gen : Nat) (h : s.lpm.Placed) :
    s.ImageRetired (s.applyRetire image gen) image gen := by
  have hv := s.retireImage_retired image gen h
  generalize hve : s.retireImage image gen = v at hv
  have hm : v.mfn = s.mfn := by rw [hv.frame]
  obtain ⟨h1, h2, h3⟩ := v.wantsFailed_spec (s.xch.retiredKeys image gen)
  have hd : s.applyRetire image gen =
      if (v.wantsFailed (s.xch.retiredKeys image gen)).mfn.image = image &&
        (v.wantsFailed (s.xch.retiredKeys image gen)).mfn.gen = gen then
        (v.wantsFailed (s.xch.retiredKeys image gen)).detachTrigger .retired
      else v.wantsFailed (s.xch.retiredKeys image gen) := by
    unfold State.applyRetire; rw [hve]
  refine ⟨v, v.wantsFailed (s.xch.retiredKeys image gen), hv, ?_, ?_, ?_, ?_⟩
  · rw [hd]
    generalize v.wantsFailed (s.xch.retiredKeys image gen) = q
    refine ⟨fun a b c d => ⟨fun hr => ?_, fun hr => ?_⟩, fun hn => ?_⟩
    · rw [if_pos (by simp [c, d])]
      unfold State.detachTrigger
      rw [if_pos (by simp [a, b])]
      dsimp only
      rw [if_neg (by simpa using Option.isSome_iff_ne_none.mp hr)]
    · rw [if_pos (by simp [c, d])]
      unfold State.detachTrigger
      rw [if_pos (by simp [a, b])]
      dsimp only
      rw [if_pos (by simp [hr])]
      exact State.teardown_tornDown _
    · split
      · rename_i hc
        simp only [Bool.and_eq_true, decide_eq_true_eq] at hc
        unfold State.detachTrigger
        rw [if_neg]
        rcases hn with hn | hn | hn | hn
        · simp [hn]
        · simp [Option.isNone_iff_eq_none, Option.isSome_iff_ne_none.mp hn]
        · exact absurd hc.1 hn
        · exact absurd hc.2 hn
      · rfl
  · intro hr; exact h1 (by rw [hm]; exact hr)
  · intro r hr hn
    have := h2 r (by rw [hm]; exact hr) (by rw [hm]; exact hn)
    rw [this, hm]; rfl
  · intro r before k rest hr hk hb hw
    have := h3 r before k rest (by rw [hm]; exact hr) hk (by rw [hm]; exact hb) (by rw [hm]; exact hw)
    have hmem : k ∈ s.xch.retiredKeys image gen := by
      show k ∈ (s.xch.wants.filter _).map Want.key
      rw [hk]; simp
    obtain ⟨w, hw1, rfl⟩ := List.mem_map.mp hmem
    have hi := (List.mem_filter.mp hw1).2
    simp only [Want.ofImage, Bool.and_eq_true, decide_eq_true_eq] at hi
    rw [hi.1.1.1, hi.1.1.2, hm, State.raise_ntu_congr (s := s) (u := v) (by rw [hv.frame]) (by rw [hv.frame]) (by rw [hv.frame])] at this
    exact this

/-- An IMAGE-RETIRE frame is applied where it passes R139's tests, and ignored else. -/
theorem State.xchFrame_retire (s : State) (f : LaneFrame) :
    s.xchFrame f .imageRetire =
      if ((s.ptu.state = .listen ∨ s.ptu.state = .member) ∧ f.dest = toAll ∧ f.body.length = 3 ∧
          1 ≤ field f.body 0 2 ∧ field f.body 0 2 ≤ 65534) ∧ s.roleOf f.sender.toNat = some .uplink then
        s.applyRetire (field f.body 0 2) (field f.body 2 1)
      else s := by
  unfold State.xchFrame imageLegal
  by_cases h1 : (s.ptu.state = .listen ∨ s.ptu.state = .member) ∧ f.dest = toAll ∧ 1 ≤ field f.body 0 2 ∧
      field f.body 0 2 ≤ 65534
  · rw [if_pos (by simpa [and_assoc] using h1)]
    dsimp only
    by_cases h2 : f.body.length = 3 ∧ s.roleOf f.sender.toNat = some .uplink
    · rw [if_pos (by simpa using h2), if_pos]
      tauto
    · rw [if_neg (by simpa using h2), if_neg]
      tauto
  · rw [if_neg (by simpa [and_assoc] using h1), if_neg]
    tauto

end Sys2Proof.Machine
end

