-- ==== Sys2Proof/Laws/State.lean ====
section
/-! SUPPORT. What the end of a step leaves as it was, field by field; the answer of a command; one step. -/

namespace Sys2Proof.Machine

/-! ### The end of a step -/

@[simp] theorem settle_now (s : State) : (settle s).now = s.now := by simp only [settle]
@[simp] theorem settle_rstn (s : State) : (settle s).rstn = s.rstn := by simp only [settle]
@[simp] theorem settle_pins (s : State) : (settle s).pins = s.pins := by simp only [settle]
@[simp] theorem settle_sld (s : State) : (settle s).sld = s.sld := by simp only [settle]
@[simp] theorem settle_psq (s : State) : (settle s).psq = s.psq := by simp only [settle]
@[simp] theorem settle_wdu (s : State) : (settle s).wdu = s.wdu := by simp only [settle]
@[simp] theorem settle_sdram (s : State) : (settle s).sdram = s.sdram := by simp only [settle]
@[simp] theorem settle_pending (s : State) : (settle s).pending = s.pending := by simp only [settle]

@[simp] theorem settle_ptu_state (s : State) : (settle s).ptu.state = s.ptu.state := by simp only [settle]
@[simp] theorem settle_ptu_peers (s : State) : (settle s).ptu.peers = s.ptu.peers := by simp only [settle]
@[simp] theorem settle_ptu_boundary (s : State) : (settle s).ptu.boundary = s.ptu.boundary := by simp only [settle]
@[simp] theorem settle_ptu_debt (s : State) : (settle s).ptu.debt = s.ptu.debt := by simp only [settle]
@[simp] theorem settle_ptu_beaconClass (s : State) : (settle s).ptu.beaconClass = s.ptu.beaconClass := by simp only [settle]
@[simp] theorem settle_ptu_digest (s : State) : (settle s).ptu.digest = s.ptu.digest := by simp only [settle]
@[simp] theorem settle_ptu_mismatch (s : State) : (settle s).ptu.mismatch = s.ptu.mismatch := by simp only [settle]

@[simp] theorem settle_adm_roster (s : State) : (settle s).adm.roster = s.adm.roster := by simp only [settle]
@[simp] theorem settle_adm_waiting (s : State) : (settle s).adm.waiting = s.adm.waiting := by simp only [settle]
@[simp] theorem settle_adm_expired (s : State) : (settle s).adm.expired = s.adm.expired := by simp only [settle]
@[simp] theorem settle_adm_copied (s : State) : (settle s).adm.copied = s.adm.copied := by simp only [settle]
@[simp] theorem settle_adm_kept (s : State) : (settle s).adm.kept = s.adm.kept := by simp only [settle]

@[simp] theorem settle_lif_engine (s : State) : (settle s).lif.engine = s.lif.engine := by simp only [settle]
@[simp] theorem settle_lif_quiet (s : State) : (settle s).lif.quiet = s.lif.quiet := by simp only [settle]
@[simp] theorem settle_lif_sitOut (s : State) : (settle s).lif.sitOut = s.lif.sitOut := by simp only [settle]
@[simp] theorem settle_lif_recvQueue (s : State) : (settle s).lif.recvQueue = s.lif.recvQueue := by simp only [settle]
@[simp] theorem settle_lif_takeHeld (s : State) : (settle s).lif.takeHeld = s.lif.takeHeld := by simp only [settle]
@[simp] theorem settle_lif_tenure (s : State) : (settle s).lif.tenure = s.lif.tenure := by simp only [settle]
@[simp] theorem settle_lif_drove (s : State) : (settle s).lif.drove = s.lif.drove := by simp only [settle]
@[simp] theorem settle_lif_ltx (s : State) : (settle s).lif.ltx = s.lif.ltx := by simp only [settle]
@[simp] theorem settle_lif_stat (s : State) : (settle s).lif.stat = s.lif.stat := by simp only [settle]

@[simp] theorem settle_ccu_rx (s : State) : (settle s).ccu.rx = s.ccu.rx := by simp only [settle]
@[simp] theorem settle_ccu_running (s : State) : (settle s).ccu.running = s.ccu.running := by simp only [settle]
@[simp] theorem settle_ccu_ringSize (s : State) : (settle s).ccu.ringSize = s.ccu.ringSize := by simp only [settle]
@[simp] theorem settle_ccu_captured (s : State) : (settle s).ccu.captured = s.ccu.captured := by simp only [settle]
@[simp] theorem settle_ccu_buffer (s : State) : (settle s).ccu.buffer = s.ccu.buffer := by simp only [settle]
@[simp] theorem settle_ccu_lossOrder (s : State) : (settle s).ccu.lossOrder = s.ccu.lossOrder := by simp only [settle]
@[simp] theorem settle_ccu_window (s : State) : (settle s).ccu.window = s.ccu.window := by simp only [settle]

@[simp] theorem settle_cfw_queue (s : State) : (settle s).cfw.queue = s.cfw.queue := by simp only [settle]
@[simp] theorem settle_cfw_reserved (s : State) : (settle s).cfw.reserved = s.cfw.reserved := by simp only [settle]

@[simp] theorem settle_mctl_geometry (s : State) : (settle s).mctl.geometry = s.mctl.geometry := by simp only [settle]
@[simp] theorem settle_mctl_debt (s : State) : (settle s).mctl.debt = s.mctl.debt := by simp only [settle]
@[simp] theorem settle_mctl_leaving (s : State) : (settle s).mctl.leaving = s.mctl.leaving := by simp only [settle]
@[simp] theorem settle_mctl_waitRecv (s : State) : (settle s).mctl.waitRecv = s.mctl.waitRecv := by simp only [settle]

@[simp] theorem settle_lpm_poolSize (s : State) : (settle s).lpm.poolSize = s.lpm.poolSize := by simp only [settle]
@[simp] theorem settle_lpm_reserve (s : State) : (settle s).lpm.reserve = s.lpm.reserve := by simp only [settle]

@[simp] theorem settle_xch_fillBufs (s : State) : (settle s).xch.fillBufs = s.xch.fillBufs := by simp only [settle]

@[simp] theorem settle_mfn_image (s : State) : (settle s).mfn.image = s.mfn.image := by simp only [settle]
@[simp] theorem settle_mfn_gen (s : State) : (settle s).mfn.gen = s.mfn.gen := by simp only [settle]
@[simp] theorem settle_mfn_capacity (s : State) : (settle s).mfn.capacity = s.mfn.capacity := by simp only [settle]
@[simp] theorem settle_mfn_mode (s : State) : (settle s).mfn.mode = s.mfn.mode := by simp only [settle]
@[simp] theorem settle_mfn_bootOnce (s : State) : (settle s).mfn.bootOnce = s.mfn.bootOnce := by simp only [settle]
@[simp] theorem settle_mfn_changed (s : State) : (settle s).mfn.changed = s.mfn.changed := by simp only [settle]
@[simp] theorem settle_mfn_remembered (s : State) : (settle s).mfn.remembered = s.mfn.remembered := by simp only [settle]
@[simp] theorem settle_mfn_resume (s : State) : (settle s).mfn.resume = s.mfn.resume := by simp only [settle]
@[simp] theorem settle_mfn_address (s : State) : (settle s).mfn.address = s.mfn.address := by simp only [settle]
@[simp] theorem settle_mfn_nextRequest (s : State) : (settle s).mfn.nextRequest = s.mfn.nextRequest := by simp only [settle]
@[simp] theorem settle_mfn_usbData (s : State) : (settle s).mfn.usbData = s.mfn.usbData := by simp only [settle]
@[simp] theorem settle_mfn_usbControl (s : State) : (settle s).mfn.usbControl = s.mfn.usbControl := by simp only [settle]

@[simp] theorem settle_ord_holder (s : State) : (settle s).ord.holder = s.ord.holder := by simp only [settle]
@[simp] theorem settle_ord_holdTime (s : State) : (settle s).ord.holdTime = s.ord.holdTime := by simp only [settle]
@[simp] theorem settle_ord_restartPending (s : State) : (settle s).ord.restartPending = s.ord.restartPending := by simp only [settle]

@[simp] theorem settle_ntu_inTenure (s : State) : (settle s).ntu.inTenure = s.ntu.inTenure := by simp only [settle]
@[simp] theorem settle_ntu_pause (s : State) : (settle s).ntu.pause = s.ntu.pause := by simp only [settle]

@[simp] theorem settle_upb_inq (s : State) : (settle s).upb.inq = s.upb.inq := by simp only [settle]
@[simp] theorem settle_upb_rx (s : State) : (settle s).upb.rx = s.upb.rx := by simp only [settle]

/-! ### The answer of a command -/

/-- With RSTN released a command answers its effect with the end of the step. -/
theorem ends_released (s : State) (effect : State → State) (h : s.rstn = false) :
    ends s effect = .next (settle (effect s)) := by simp [ends, runs, h]

/-- While RSTN is asserted a command changes nothing. -/
theorem ends_held (s : State) (effect : State → State) (h : s.rstn = true) : ends s effect = .next s := by
  simp [ends, runs, h]

/-- A memory completion that fits the device, with RSTN released. -/
theorem completes_fits (s : State) (effect : State → State) (h : s.rstn = false) :
    completes s true effect = .next (settle (effect s)) := by simp [completes, h]

/-- A memory completion that reaches past the device, with RSTN released. -/
theorem completes_outside (s : State) (effect : State → State) (h : s.rstn = false) :
    completes s false effect = .fault .noSuchAddress := by simp [completes, h]

/-- An expiry of a running timer: station time comes to its end, and its event follows. -/
theorem State.expires_some (s : State) (due : Time) (event : State → State) :
    s.expires (some due) event = event (s.timeTo due) := rfl

/-- A stopped timer runs out never. -/
theorem State.expires_none (s : State) (event : State → State) : s.expires none event = s := rfl

/-- An event of the receiver in its state. -/
theorem State.inRx_of_eq (s : State) (rx : RxState) (event : State → State) (h : s.ccu.rx = rx) :
    s.inRx rx event = event s := by simp [State.inRx, h]

/-- Time that stands at or past the run-out stays; else it comes to it. -/
theorem State.timeTo_now (s : State) (due : Time) :
    (s.timeTo due).now = if reached due s.now then s.now else due := rfl

/-! ### One step -/

/-- A step takes the front command. -/
theorem step_front (s : State) (c : Instr) (rest : List Instr) (h : s.pending = c :: rest) :
    step s = exec c { s with pending := rest } := by simp [step, h]

/-- A step of an empty queue. -/
theorem step_empty (s : State) (h : s.pending = []) : step s = .next s.tick := by simp [step, h]

end Sys2Proof.Machine
end

