-- ==== Sys2Proof/Laws/Lane.lean ====
section
/-! SUPPORT. LIF but its send list and give buffer, and what leaves that part of LIF alone; small lemmas of the engine, of a
tenure's end and of the own-frame list. -/

set_option linter.unusedTactic false
set_option linter.unnecessarySeqFocus false

namespace Sys2Proof.Machine

/-- LIF with its send list empty and its give buffer free: what withdrawing and offering frames leaves alone. -/
def Lif.core (l : Lif) : Lif := { l with sendList := [], giveBuf := .free }

theorem Lif.core_eq_iff (l m : Lif) :
    l.core = m.core ↔ l = { m with sendList := l.sendList, giveBuf := l.giveBuf } := by
  cases l; cases m; simp [Lif.core]

@[simp] theorem Lif.core_remove (l : Lif) (seq : Nat) : (l.remove seq).core = l.core := rfl

@[simp] theorem Lif.core_setTenure (l : Lif) (seq : Nat) (on : Bool) : (l.setTenure seq on).core = l.core := rfl

@[simp] theorem State.freeGiveBuf_laneCore (s : State) (seq : Nat) :
    (s.freeGiveBuf seq).lif.core = s.lif.core := by
  unfold State.freeGiveBuf; (try dsimp only); (repeat' split) <;> simp_all [Lif.core]

@[simp] theorem State.lifWithdraw_laneCore (s : State) (seq : Nat) :
    (s.lifWithdraw seq).lif.core = s.lif.core := by
  unfold State.lifWithdraw; (try dsimp only); (repeat' split) <;> simp_all

@[simp] theorem State.withdrawStanding_laneCore (s : State) (x0 : Standing) :
    (s.withdrawStanding x0).lif.core = s.lif.core := by
  unfold State.withdrawStanding; (try dsimp only); (repeat' split) <;> simp_all

@[simp] theorem State.foldl_withdrawStanding_laneCore (l : List Standing) (s : State) :
    (l.foldl State.withdrawStanding s).lif.core = s.lif.core := by
  induction l generalizing s <;> simp_all

@[simp] theorem State.withdrawWant_laneCore (s : State) (w : Want) :
    (s.withdrawWant w).lif.core = s.lif.core := by
  unfold State.withdrawWant; (try dsimp only); (repeat' split) <;> simp_all

@[simp] theorem State.foldl_withdrawWant_laneCore (l : List Want) (s : State) :
    (l.foldl State.withdrawWant s).lif.core = s.lif.core := by
  induction l generalizing s <;> simp_all

@[simp] theorem State.withdrawWants_laneCore (s : State) (ws : List Want) :
    (s.withdrawWants ws).lif.core = s.lif.core := by
  unfold State.withdrawWants; (try dsimp only); (repeat' split) <;> simp_all

@[simp] theorem State.rideWants_laneCore (s : State) (key : Key) :
    (s.rideWants key).lif.core = s.lif.core := by
  unfold State.rideWants; (try dsimp only); (repeat' split) <;> simp_all

@[simp] theorem State.fillWants_laneCore (s : State) (key : Key) (data : Bytes) :
    (s.fillWants key data).lif.core = s.lif.core := by
  unfold State.fillWants; (try dsimp only); (repeat' split) <;> simp_all

@[simp] theorem State.dropWants_laneCore (s : State) (image gen : Nat) :
    (s.dropWants image gen).lif.core = s.lif.core := by
  unfold State.dropWants; (try dsimp only); (repeat' split) <;> simp_all

@[simp] theorem State.retireImage_laneCore (s : State) (image gen : Nat) :
    (s.retireImage image gen).lif.core = s.lif.core := by
  unfold State.retireImage; (try dsimp only); (repeat' split) <;> simp_all

@[simp] theorem State.dropGives_laneCore (s : State) (out : Give → Bool) :
    (s.dropGives out).lif.core = s.lif.core := by
  unfold State.dropGives; (try dsimp only); (repeat' split) <;> simp_all

@[simp] theorem State.suppressGives_laneCore (s : State) (key : Key) :
    (s.suppressGives key).lif.core = s.lif.core := by
  unfold State.suppressGives; (try dsimp only); (repeat' split) <;> simp_all

@[simp] theorem State.giveEnded_laneCore (s : State) (seq : Nat) :
    (s.giveEnded seq).lif.core = s.lif.core := by
  unfold State.giveEnded; (try dsimp only); (repeat' split) <;> simp_all

@[simp] theorem State.suppressComputerGives_laneCore (s : State) (key : Key) :
    (s.suppressComputerGives key).lif.core = s.lif.core := by
  unfold State.suppressComputerGives; (try dsimp only); (repeat' split) <;> simp_all [Lif.core]

@[simp] theorem State.teardown_laneCore (s : State) :
    s.teardown.lif.core = s.lif.core := by
  unfold State.teardown; (try dsimp only); (repeat' split) <;> simp_all

@[simp] theorem State.closeRequest_laneCore (s : State) :
    s.closeRequest.lif.core = s.lif.core := by
  unfold State.closeRequest; (try dsimp only); (repeat' split) <;> simp_all

@[simp] theorem State.failRequest_laneCore (s : State) (status : UsbStatus) :
    (s.failRequest status).lif.core = s.lif.core := by
  unfold State.failRequest; (try dsimp only); (repeat' split) <;> simp_all

@[simp] theorem State.detachTrigger_laneCore (s : State) (cause : DetachCause) :
    (s.detachTrigger cause).lif.core = s.lif.core := by
  unfold State.detachTrigger; (try dsimp only); (repeat' split) <;> simp_all

@[simp] theorem State.bootOnceTrigger_laneCore (s : State) (cause : DetachCause) :
    (s.bootOnceTrigger cause).lif.core = s.lif.core := by
  unfold State.bootOnceTrigger; (try dsimp only); (repeat' split) <;> simp_all

@[simp] theorem State.askStep_laneCore (s : State) (st : XferStep) :
    (s.askStep st).lif.core = s.lif.core := by
  unfold State.askStep
  have hk := State.xchAsk_keeps s (s.mfn.key st.line) .demand
  split
  · split
    · split <;> (rename_i h; rw [h] at hk; simp_all)
    · simp
  · simp

@[simp] theorem State.foldl_askStep_laneCore (l : List XferStep) (s : State) :
    (l.foldl State.askStep s).lif.core = s.lif.core := by
  induction l generalizing s <;> simp_all

@[simp] theorem State.askWants_laneCore (s : State) :
    s.askWants.lif.core = s.lif.core := by
  unfold State.askWants; (try dsimp only); (repeat' split) <;> simp_all

@[simp] theorem State.wantEnded_laneCore (s : State) (key : Key) (filled : Bool) :
    (s.wantEnded key filled).lif.core = s.lif.core := by
  unfold State.wantEnded; (try dsimp only); (repeat' split) <;> simp_all

@[simp] theorem State.foldl_wantEnded_laneCore (l : List Key) (s : State) :
    (l.foldl (fun t k => t.wantEnded k false) s).lif.core = s.lif.core := by
  induction l generalizing s <;> simp_all

@[simp] theorem State.wantsFailed_laneCore (s : State) (keys : List Key) :
    (s.wantsFailed keys).lif.core = s.lif.core := by
  unfold State.wantsFailed; (try dsimp only); (repeat' split) <;> simp_all

@[simp] theorem State.askStore_laneCore (s : State) :
    s.askStore.lif.core = s.lif.core := by
  unfold State.askStore; (try dsimp only); (repeat' split) <;> simp_all

@[simp] theorem State.mediaRun_laneCore (x0 : Nat) (s : State) :
    (State.mediaRun x0 s).lif.core = s.lif.core := by
  induction x0 generalizing s with
  | zero => simp [State.mediaRun]
  | succ n ih => simp [State.mediaRun, ih]

@[simp] theorem State.mediaAdvance_laneCore (s : State) :
    s.mediaAdvance.lif.core = s.lif.core := by
  unfold State.mediaAdvance; (try dsimp only); (repeat' split) <;> simp_all

@[simp] theorem State.readComplete_laneCore (s : State) (r : Request) :
    (s.readComplete r).lif.core = s.lif.core := by
  unfold State.readComplete; (try dsimp only); (repeat' split) <;> simp_all

@[simp] theorem State.readArrived_laneCore (s : State) (m : MediaReq) (blocks : List (Nat × Bytes)) :
    (s.readArrived m blocks).lif.core = s.lif.core := by
  unfold State.readArrived; (try dsimp only); (repeat' split) <;> simp_all

@[simp] theorem State.writeArrived_laneCore (s : State) (m : MediaReq) :
    (s.writeArrived m).lif.core = s.lif.core := by
  unfold State.writeArrived; (try dsimp only); (repeat' split) <;> simp_all

@[simp] theorem State.cancelClaim_laneCore (s : State) :
    s.cancelClaim.lif.core = s.lif.core := by
  unfold State.cancelClaim; (try dsimp only); (repeat' split) <;> simp_all

@[simp] theorem State.askRetract_laneCore (s : State) (kind : OwnKind) :
    (s.askRetract kind).lif.core = s.lif.core := by
  unfold State.askRetract; (try dsimp only); (repeat' split) <;> simp_all

@[simp] theorem State.releaseSlot_laneCore (s : State) :
    s.releaseSlot.lif.core = s.lif.core := by
  unfold State.releaseSlot; (try dsimp only); (repeat' split) <;> simp_all

@[simp] theorem State.withdrawClaim_laneCore (s : State) :
    s.withdrawClaim.lif.core = s.lif.core := by
  unfold State.withdrawClaim; (try dsimp only); (repeat' split) <;> simp_all

@[simp] theorem State.tellMfn_laneCore (s : State) (old : Option SeqState) (st : SeqState) :
    (s.tellMfn old st).lif.core = s.lif.core := by
  unfold State.tellMfn; (try dsimp only); (repeat' split) <;> simp_all

@[simp] theorem State.psqEnter_laneCore (s : State) (st : SeqState) (var : Variant) (start : Bool) :
    (s.psqEnter st var start).lif.core = s.lif.core := by
  unfold State.psqEnter; (try dsimp only); (repeat' split) <;> simp_all

@[simp] theorem State.offAwaiting_laneCore (s : State) :
    s.offAwaiting.lif.core = s.lif.core := by
  unfold State.offAwaiting; (try dsimp only); (repeat' split) <;> simp_all

@[simp] theorem State.actOn_laneCore (s : State) :
    s.actOn.2.lif.core = s.lif.core := by
  unfold State.actOn State.unlessMismatch; (try dsimp only); (repeat' split) <;> simp_all

@[simp] theorem State.beginStopping_laneCore (s : State) (var : Variant) :
    (s.beginStopping var).lif.core = s.lif.core := by
  unfold State.beginStopping; (try dsimp only); (repeat' split) <;> simp_all

@[simp] theorem State.actOffSoft_laneCore (s : State) (thenHard : Bool) :
    (s.actOffSoft thenHard).2.lif.core = s.lif.core := by
  unfold State.actOffSoft; (try dsimp only); (repeat' split) <;> simp_all

@[simp] theorem State.beginForcing_laneCore (s : State) :
    s.beginForcing.lif.core = s.lif.core := by
  unfold State.beginForcing; (try dsimp only); (repeat' split) <;> simp_all

@[simp] theorem State.actOffHard_laneCore (s : State) :
    s.actOffHard.2.lif.core = s.lif.core := by
  unfold State.actOffHard; (try dsimp only); (repeat' split) <;> simp_all

@[simp] theorem State.actCycle_laneCore (s : State) :
    s.actCycle.2.lif.core = s.lif.core := by
  unfold State.actCycle State.unlessMismatch; (try dsimp only); (repeat' split) <;> simp_all

@[simp] theorem State.actFeedCut_laneCore (s : State) :
    s.actFeedCut.2.lif.core = s.lif.core := by
  unfold State.actFeedCut; (try dsimp only); (repeat' split) <;> simp_all

@[simp] theorem State.actFeedRestore_laneCore (s : State) :
    s.actFeedRestore.2.lif.core = s.lif.core := by
  unfold State.actFeedRestore State.unlessMismatch; (try dsimp only); (repeat' split) <;> simp_all

@[simp] theorem State.startedOn_laneCore (s : State) :
    s.startedOn.lif.core = s.lif.core := by
  unfold State.startedOn; (try dsimp only); (repeat' split) <;> simp_all

@[simp] theorem State.granted_laneCore (s : State) :
    s.granted.lif.core = s.lif.core := by
  unfold State.granted; (try dsimp only); (repeat' split) <;> simp_all

@[simp] theorem State.admChange_laneCore (s : State) (change : Adm → Adm) :
    (s.admChange change).lif.core = s.lif.core := by
  unfold State.admChange; (try dsimp only); (repeat' split) <;> simp_all

@[simp] theorem State.admRemove_laneCore (s : State) (x : Nat) :
    (s.admRemove x).lif.core = s.lif.core := by
  unfold State.admRemove; (try dsimp only); (repeat' split) <;> simp_all

@[simp] theorem State.admitFrame_laneCore (s : State) (f : LaneFrame) (kind : FrameKind) :
    (s.admitFrame f kind).lif.core = s.lif.core := by
  unfold State.admitFrame; (try dsimp only); (repeat' split) <;> simp_all

@[simp] theorem State.repair_laneCore (s : State) (x : Nat) (b : Beacon) :
    (s.repair x b).lif.core = s.lif.core := by
  unfold State.repair; (try dsimp only); (repeat' split) <;> simp_all

@[simp] theorem State.copyLists_laneCore (s : State) (b : Beacon) :
    (s.copyLists b).lif.core = s.lif.core := by
  unfold State.copyLists; (try dsimp only); (repeat' split) <;> simp_all

@[simp] theorem State.admBeacon_laneCore (s : State) (x : Nat) (b : Beacon) :
    (s.admBeacon x b).lif.core = s.lif.core := by
  unfold State.admBeacon; (try dsimp only); (repeat' split) <;> simp_all

@[simp] theorem State.ownBack_laneCore (s : State) (seq : Nat) :
    (s.ownBack seq).lif.core = s.lif.core := by
  unfold State.ownBack; (try dsimp only); (repeat' split) <;> simp_all

@[simp] theorem State.ownGivenUp_laneCore (s : State) (seq : Nat) :
    (s.ownGivenUp seq).lif.core = s.lif.core := by
  unfold State.ownGivenUp; (try dsimp only); (repeat' split) <;> simp_all

@[simp] theorem State.faultRequest_laneCore (s : State) (source : Nat) (response : FaultAction) :
    (s.faultRequest source response).2.lif.core = s.lif.core := by
  unfold State.faultRequest; (try dsimp only); (repeat' split) <;> simp_all

@[simp] theorem State.watchdogExpiry_laneCore (s : State) (cause : Nat) :
    (s.watchdogExpiry cause).lif.core = s.lif.core := by
  unfold State.watchdogExpiry; (try dsimp only); (repeat' split) <;> simp_all

@[simp] theorem State.heartbeat_laneCore (s : State) (entry : Nat) :
    (s.heartbeat entry).lif.core = s.lif.core := by
  unfold State.heartbeat; (try dsimp only); (repeat' split) <;> simp_all

@[simp] theorem State.panic_laneCore (s : State) (entry endOffset : Nat) :
    (s.panic entry endOffset).lif.core = s.lif.core := by
  unfold State.panic; (try dsimp only); (repeat' split) <;> simp_all

@[simp] theorem State.guardAsks_laneCore (s : State) :
    s.guardAsks.lif.core = s.lif.core := by
  unfold State.guardAsks; (try dsimp only); (repeat' split) <;> simp_all

@[simp] theorem State.deliverMatch_laneCore (s : State) (entry : Nat) (action : PatternAction) :
    (s.deliverMatch entry action).lif.core = s.lif.core := by
  unfold State.deliverMatch; (try dsimp only); (repeat' split) <;> simp_all

@[simp] theorem State.foldl_deliverMatch_laneCore (l : List (Nat × Pattern)) (s : State) :
    (l.foldl (fun t e => t.deliverMatch e.1 e.2.action) s).lif.core = s.lif.core := by
  induction l generalizing s <;> simp_all

@[simp] theorem State.deliverMatches_laneCore (s : State) :
    s.deliverMatches.lif.core = s.lif.core := by
  unfold State.deliverMatches; (try dsimp only); (repeat' split) <;> simp_all

@[simp] theorem State.goodByte_laneCore (s : State) (b : Byte) :
    (s.goodByte b).lif.core = s.lif.core := by
  unfold State.goodByte; (try dsimp only); (repeat' split) <;> simp_all

@[simp] theorem State.endOut_laneCore (s : State) (station : Nat) :
    (s.endOut station).lif.core = s.lif.core := by
  unfold State.endOut; (try dsimp only); (repeat' split) <;> simp_all

@[simp] theorem State.dropWatcher_laneCore (s : State) (station : Nat) :
    (s.dropWatcher station).lif.core = s.lif.core := by
  unfold State.dropWatcher; (try dsimp only); (repeat' split) <;> simp_all

@[simp] theorem State.actWatch_laneCore (s : State) (station mode offset : Nat) :
    (s.actWatch station mode offset).2.2.lif.core = s.lif.core := by
  unfold State.actWatch; (try dsimp only); (repeat' split) <;> simp_all

@[simp] theorem State.actUnwatch_laneCore (s : State) (station : Nat) :
    (s.actUnwatch station).2.lif.core = s.lif.core := by
  unfold State.actUnwatch; (try dsimp only); (repeat' split) <;> simp_all

@[simp] theorem State.outBack_laneCore (s : State) (seq : Nat) :
    (s.outBack seq).lif.core = s.lif.core := by
  unfold State.outBack; (try dsimp only); (repeat' split) <;> simp_all

@[simp] theorem State.roleReported_laneCore (s : State) (x : Nat) (role : Role) :
    (s.roleReported x role).lif.core = s.lif.core := by
  unfold State.roleReported; (try dsimp only); (repeat' split) <;> simp_all

@[simp] theorem State.beaconSeen_laneCore (s : State) (x : Nat) (b : Beacon) :
    (s.beaconSeen x b).lif.core = s.lif.core := by
  unfold State.beaconSeen; (try dsimp only); (repeat' split) <;> simp_all

@[simp] theorem State.declareAbsent_laneCore (s : State) (x : Nat) :
    (s.declareAbsent x).lif.core = s.lif.core := by
  unfold State.declareAbsent; (try dsimp only); (repeat' split) <;> simp_all

@[simp] theorem State.foldl_declareAbsent_laneCore (l : List Nat) (s : State) :
    (l.foldl State.declareAbsent s).lif.core = s.lif.core := by
  induction l generalizing s <;> simp_all

@[simp] theorem State.agePeers_laneCore (s : State) :
    s.agePeers.lif.core = s.lif.core := by
  unfold State.agePeers; (try dsimp only); (repeat' split) <;> simp_all

@[simp] theorem State.offerBeacon_laneCore (s : State) :
    s.offerBeacon.lif.core = s.lif.core := by
  unfold State.offerBeacon; (try dsimp only); (repeat' split) <;> simp_all

@[simp] theorem State.applyRetire_laneCore (s : State) (image gen : Nat) :
    (s.applyRetire image gen).lif.core = s.lif.core := by
  unfold State.applyRetire; (try dsimp only); (repeat' split) <;> simp_all

@[simp] theorem State.seeWant_laneCore (s : State) (key : Key) :
    (s.seeWant key).lif.core = s.lif.core := by
  unfold State.seeWant; (try dsimp only); (repeat' split) <;> simp_all

@[simp] theorem State.seeGive_laneCore (s : State) (key : Key) (data : Bytes) :
    (s.seeGive key data).lif.core = s.lif.core := by
  unfold State.seeGive; (try dsimp only); (repeat' split) <;> simp_all

@[simp] theorem State.xchFrame_laneCore (s : State) (f : LaneFrame) (kind : FrameKind) :
    (s.xchFrame f kind).lif.core = s.lif.core := by
  unfold State.xchFrame; (try dsimp only); (repeat' split) <;> simp_all

@[simp] theorem State.presentBlocks_laneCore (s : State) (f : LaneFrame) :
    (s.presentBlocks f).lif.core = s.lif.core := by
  unfold State.presentBlocks; (try dsimp only); (repeat' split) <;> simp_all

@[simp] theorem State.present_laneCore (s : State) (f : LaneFrame) :
    (s.present f).lif.core = s.lif.core := by
  unfold State.present; (try dsimp only); (repeat' split) <;> simp_all

@[simp] theorem State.reportAdm_laneCore (s : State) (seq : Nat) (r : Report) :
    (s.reportAdm seq r).lif.core = s.lif.core := by
  unfold State.reportAdm; (try dsimp only); (repeat' split) <;> simp_all

@[simp] theorem State.reportCfw_laneCore (s : State) (seq : Nat) (r : Report) :
    (s.reportCfw seq r).lif.core = s.lif.core := by
  unfold State.reportCfw; (try dsimp only); (repeat' split) <;> simp_all

@[simp] theorem State.reportGive_laneCore (s : State) (seq : Nat) (r : Report) :
    (s.reportGive seq r).lif.core = s.lif.core := by
  unfold State.reportGive; (try dsimp only); (repeat' split) <;> simp_all

@[simp] theorem State.report_laneCore (s : State) (e : SendEntry) (f : LaneFrame) (r : Report) :
    (s.report e f r).lif.core = s.lif.core := by
  unfold State.report; (try dsimp only); (repeat' split) <;> simp_all

@[simp] theorem State.actDetach_laneCore (s : State) :
    s.actDetach.2.lif.core = s.lif.core := by
  unfold State.actDetach; (try dsimp only); (repeat' split) <;> simp_all

@[simp] theorem State.derivePsq_laneCore (s : State) (active : Bool) :
    (s.derivePsq active).lif.core = s.lif.core := by
  unfold State.derivePsq; (try dsimp only); (repeat' split) <;> simp_all

/-! ### The end of a tenure -/

@[simp] theorem State.settleEntry_laneCore (s : State) (seq : Nat) (r : Report) :
    (s.settleEntry seq r).lif.core = s.lif.core := by
  unfold State.settleEntry; split
  · rfl
  · simp

/-- Of LIF but its list and give buffer, the end of a tenure changes what `Lif.endTenure` says. -/
@[simp] theorem State.endTenure_laneCore (s : State) (e : SendEntry) (f : LaneFrame) (how : TenureEnd) :
    (s.endTenure e f how).lif.core = (s.lif.endTenure how).core := by
  unfold State.endTenure; dsimp only; split <;> simp

/-- A sender that read its slots is in QUIET after its tenure. -/
theorem Lif.endTenure_slots (l : Lif) (spoil take : Bool) (h : l.isSending = true) :
    l.endTenure (.slots spoil take) = { l with
      engine := .quiet, quiet := 0, sitOut := true, ltx := false, drove := .nothing, tenure := none } := by
  have : l.engine = .bidding ∨ l.engine = .sending := by simpa [Lif.isSending] using h
  rcases this with h | h <;> simp [Lif.endTenure, h, Engine.run, Engine.next]

/-- A sender that has stopped, or stops within the command, waits in DISCARDING after its tenure, having driven what R162
has it drive. -/
theorem State.tenureRest_stopped (s : State) (error : RxError) (tail : Bool)
    (h : s.lif.isSending = true ∨ s.lif.engine = .receiving) :
    ((s.tenureRest (.stopped error tail)).lif.endTenure (.stopped error tail)).engine = .discarding ∧
    ((s.tenureRest (.stopped error tail)).lif.endTenure (.stopped error tail)).drove = s.errorDrive error tail := by
  have : s.lif.engine = .bidding ∨ s.lif.engine = .sending ∨ s.lif.engine = .receiving := by
    simpa [Lif.isSending, or_assoc] using h
  rcases this with h | h | h <;>
    simp [State.tenureRest, State.stopSending, State.mismatch, Lif.becomesReceiver, State.receiveError, Lif.isSending,
      Lif.reads, Lif.endTenure, h, Engine.run, Engine.next, State.errorDrive]

/-! ### A frame of another station -/

/-- LIF between tenures is LIF after a frame that the station took no part in. -/
theorem Lif.passed_eq (l : Lif) (h : l.reads = true) : l.passed = { l with engine := .quiet, quiet := 0, sitOut := false, ltx := false } := by
  have : l.engine = .quiet ∨ l.engine = .receiving := by simpa [Lif.reads] using h
  rcases this with h | h <;> simp [Lif.passed, h, Engine.run, Engine.next]

theorem State.Reads.reads {s : State} {f : LaneFrame} (h : s.Reads f) : s.lif.reads = true := by
  simpa [Lif.reads] using h.engine

theorem State.Reads.notDuplicate {s : State} {f : LaneFrame} (h : s.Reads f) : s.isDuplicate f = false := by
  simp [State.isDuplicate, h.other]

/-- The sender of a frame that is read is a peer of every state with this station's number. -/
theorem State.Reads.isPeer {s t : State} {f : LaneFrame} (h : s.Reads f) (ht : t.sld = s.sld) :
    t.isPeer f.sender.toNat = true := by
  have := h.other
  simp [State.own] at this
  simp [State.isPeer, h.legal, State.own, ht, this]

/-- What hearing the sender of a frame that is read does. -/
theorem State.Reads.heard {s t : State} {f : LaneFrame} (h : s.Reads f) (ht : t.sld = s.sld) (hp : t.ptu = s.ptu) :
    t.heard f.sender.toNat = { t with ptu := s.hearing f.sender.toNat } := by
  simp [State.heard, h.isPeer ht, State.hearing, hp]

/-- The peer table with the entry of a station replaced. -/
theorem Ptu.peer_setPeer (p : Ptu) {x : Nat} (e : Peer) (h1 : 1 ≤ x) (h2 : x ≤ 62) (y : Nat) (hy : 1 ≤ y) :
    (p.setPeer x e).peer y = if y = x then e else p.peer y := by
  have hlen : p.peers.toArray.size = 62 := p.peers.size_toArray
  simp only [Ptu.setPeer, Ptu.peer, h1, hy, if_true]
  by_cases h : y = x
  · subst h
    have : y - 1 < 62 := by omega
    simp [List.getD_eq_getElem?_getD, Vector.toList, hlen, this]
  · rw [if_neg h]
    simp [List.getD_eq_getElem?_getD, List.getElem?_set, Vector.toList, hlen]
    rw [if_neg (by omega)]

theorem State.hearing_peer (s : State) {x : Nat} (h1 : 1 ≤ x) (h2 : x ≤ 62) :
    (s.hearing x).peer x = { s.ptu.peer x with present := true, missed := 0 } := by
  unfold State.hearing
  rw [Ptu.peer_setPeer _ _ h1 h2 _ h1, if_pos rfl]

@[simp] theorem State.hearing_state (s : State) (x : Nat) : (s.hearing x).state = s.ptu.state := by
  unfold State.hearing Ptu.setPeer; split <;> rfl

/-- A frame of another station completes: taken or not, presented, handed over. -/
theorem State.Reads.exec {s : State} {f : LaneFrame} (h : s.Reads f) (handovers : Nat) :
    exec (.frameCompleteUnspoiled f handovers) s = .next (settle (State.handOvers handovers
      (((({ s with lif := s.lif.passed } : State).holdTake f).placeTake).present f))) := by
  simp [Machine.exec, execFrameCompleteUnspoiled, ends_released _ _ h.released, State.frameComplete, h.reads,
    LaneFrame.wellFormed, h.body, h.notDuplicate, h.tenure]

/-- A frame that the station does not take is presented, and nothing else. -/
theorem State.Reads.exec_untaken {s : State} {f : LaneFrame} (h : s.Reads f) (ht : s.lif.takeHeld = none)
    (hd : ({ s with lif := s.lif.passed } : State).decidesTake f = false) :
    Machine.exec (.frameCompleteUnspoiled f 0) s = .next (settle (({ s with lif := s.lif.afterFrame } : State).present f)) := by
  rw [h.exec]
  simp only [State.handOvers]
  congr 3
  simp only [State.holdTake, hd]
  simp [State.placeTake, Lif.passed_eq _ h.reads, ht, Lif.afterFrame]

/-- A kind that the role does not take is not taken (R170). -/
theorem State.decidesTake_kind {s : State} {f : LaneFrame} {kind : FrameKind} (hk : FrameKind.ofCode f.kind = some kind)
    (h : s.takesKind f kind = false) : s.decidesTake f = false := by
  simp [State.decidesTake, hk, h]

/-! ### The own-frame list (log 47) -/

theorem Adm.ownWith_length (a : Adm) (entries : List OwnFrame) : (a.ownWith entries).length ≤ 4 := by
  simp [Adm.ownWith]

theorem Adm.ownWith_room (a : Adm) (entries : List OwnFrame) (h : a.own.length + entries.length ≤ 4) :
    a.ownWith entries = a.own ++ entries := by
  simp [Adm.ownWith, h]

end Sys2Proof.Machine
end

