-- ==== Sys2Proof/Laws/StepKeeps.lean ====
section
/-! SUPPORT. For each operation that one command alone uses, the blocks of the state that it leaves as it was. -/

set_option linter.unusedTactic false
set_option linter.unnecessarySeqFocus false

namespace Sys2Proof.Machine

@[simp] theorem State.drivesBus_keeps (s : State) (items : List BusItem) :
    (s.drivesBus items).now = s.now ∧ (s.drivesBus items).rstn = s.rstn ∧ (s.drivesBus items).pins = s.pins ∧
    (s.drivesBus items).ptu = s.ptu ∧ (s.drivesBus items).lif = s.lif ∧ (s.drivesBus items).adm = s.adm ∧
    (s.drivesBus items).psq = s.psq ∧ (s.drivesBus items).wdu = s.wdu ∧ (s.drivesBus items).ccu = s.ccu ∧
    (s.drivesBus items).cfw = s.cfw ∧ (s.drivesBus items).mctl = s.mctl ∧ (s.drivesBus items).sdram = s.sdram ∧
    (s.drivesBus items).lpm = s.lpm ∧ (s.drivesBus items).xch = s.xch ∧ (s.drivesBus items).mfn = s.mfn ∧
    (s.drivesBus items).ord = s.ord ∧ (s.drivesBus items).ntu = s.ntu ∧ (s.drivesBus items).upb = s.upb ∧
    (s.drivesBus items).fresh = s.fresh ∧ (s.drivesBus items).pending = s.pending := by
  unfold State.drivesBus; (try dsimp only); (repeat' split) <;> simp_all

@[simp] theorem State.attemptComplete_keeps (s : State) (bytes : Bytes) :
    (s.attemptComplete bytes).now = s.now ∧ (s.attemptComplete bytes).rstn = s.rstn ∧
    (s.attemptComplete bytes).pins = s.pins ∧ (s.attemptComplete bytes).adm = s.adm ∧
    (s.attemptComplete bytes).psq = s.psq ∧ (s.attemptComplete bytes).wdu = s.wdu ∧
    (s.attemptComplete bytes).ccu = s.ccu ∧ (s.attemptComplete bytes).cfw = s.cfw ∧
    (s.attemptComplete bytes).sdram = s.sdram ∧ (s.attemptComplete bytes).lpm = s.lpm ∧
    (s.attemptComplete bytes).xch = s.xch ∧ (s.attemptComplete bytes).mfn = s.mfn ∧
    (s.attemptComplete bytes).ord = s.ord ∧ (s.attemptComplete bytes).ntu = s.ntu ∧
    (s.attemptComplete bytes).upb = s.upb ∧ (s.attemptComplete bytes).fresh = s.fresh ∧
    (s.attemptComplete bytes).pending = s.pending := by
  unfold State.attemptComplete; (try dsimp only); (repeat' split) <;> simp_all

@[simp] theorem State.attemptFailed_keeps (s : State) :
    s.attemptFailed.now = s.now ∧ s.attemptFailed.rstn = s.rstn ∧
    s.attemptFailed.pins = s.pins ∧ s.attemptFailed.adm = s.adm ∧
    s.attemptFailed.psq = s.psq ∧ s.attemptFailed.wdu = s.wdu ∧ s.attemptFailed.ccu = s.ccu ∧
    s.attemptFailed.cfw = s.cfw ∧ s.attemptFailed.sdram = s.sdram ∧
    s.attemptFailed.lpm = s.lpm ∧ s.attemptFailed.xch = s.xch ∧ s.attemptFailed.mfn = s.mfn ∧
    s.attemptFailed.ord = s.ord ∧ s.attemptFailed.ntu = s.ntu ∧ s.attemptFailed.upb = s.upb ∧
    s.attemptFailed.pending = s.pending := by
  unfold State.attemptFailed; (try dsimp only); (repeat' split) <;> simp_all

@[simp] theorem State.retryAttempt_keeps (s : State) :
    s.retryAttempt.rstn = s.rstn ∧ s.retryAttempt.pins = s.pins ∧ s.retryAttempt.ptu = s.ptu ∧
    s.retryAttempt.lif = s.lif ∧ s.retryAttempt.adm = s.adm ∧ s.retryAttempt.psq = s.psq ∧
    s.retryAttempt.wdu = s.wdu ∧ s.retryAttempt.ccu = s.ccu ∧ s.retryAttempt.cfw = s.cfw ∧
    s.retryAttempt.mctl = s.mctl ∧ s.retryAttempt.sdram = s.sdram ∧ s.retryAttempt.lpm = s.lpm ∧
    s.retryAttempt.xch = s.xch ∧ s.retryAttempt.mfn = s.mfn ∧ s.retryAttempt.ord = s.ord ∧
    s.retryAttempt.ntu = s.ntu ∧ s.retryAttempt.upb = s.upb ∧ s.retryAttempt.fresh = s.fresh ∧
    s.retryAttempt.pending = s.pending := by
  unfold State.retryAttempt; (try dsimp only); (repeat' split) <;> simp_all

@[simp] theorem State.handOverSettings_keeps (s : State) :
    s.handOverSettings.now = s.now ∧ s.handOverSettings.rstn = s.rstn ∧ s.handOverSettings.pins = s.pins ∧
    s.handOverSettings.lif = s.lif ∧ s.handOverSettings.adm = s.adm ∧ s.handOverSettings.psq = s.psq ∧
    s.handOverSettings.ccu = s.ccu ∧ s.handOverSettings.cfw = s.cfw ∧ s.handOverSettings.sdram = s.sdram ∧
    s.handOverSettings.lpm = s.lpm ∧ s.handOverSettings.xch = s.xch ∧ s.handOverSettings.mfn = s.mfn ∧
    s.handOverSettings.ord = s.ord ∧ s.handOverSettings.ntu = s.ntu ∧ s.handOverSettings.upb = s.upb ∧
    s.handOverSettings.fresh = s.fresh ∧ s.handOverSettings.pending = s.pending := by
  unfold State.handOverSettings; (try dsimp only); (repeat' split) <;> simp_all

@[simp] theorem State.memoryUp_keeps (s : State) :
    s.memoryUp.now = s.now ∧ s.memoryUp.rstn = s.rstn ∧ s.memoryUp.pins = s.pins ∧ s.memoryUp.sld = s.sld ∧
    s.memoryUp.adm = s.adm ∧ s.memoryUp.wdu = s.wdu ∧ s.memoryUp.cfw = s.cfw ∧ s.memoryUp.sdram = s.sdram ∧
    s.memoryUp.xch = s.xch ∧ s.memoryUp.mfn = s.mfn ∧ s.memoryUp.ord = s.ord ∧ s.memoryUp.upb = s.upb ∧
    s.memoryUp.fresh = s.fresh ∧ s.memoryUp.pending = s.pending := by
  unfold State.memoryUp; (try dsimp only); (repeat' split) <;> simp_all

@[simp] theorem State.deriveFromPin_keeps (s : State) (pinHigh : Bool) :
    (s.deriveFromPin pinHigh).now = s.now ∧ (s.deriveFromPin pinHigh).rstn = s.rstn ∧
    (s.deriveFromPin pinHigh).pins = s.pins ∧ (s.deriveFromPin pinHigh).sld = s.sld ∧
    (s.deriveFromPin pinHigh).ptu = s.ptu ∧ (s.deriveFromPin pinHigh).ccu = s.ccu ∧
    (s.deriveFromPin pinHigh).cfw = s.cfw ∧ (s.deriveFromPin pinHigh).sdram = s.sdram ∧
    (s.deriveFromPin pinHigh).ord = s.ord ∧ (s.deriveFromPin pinHigh).upb = s.upb ∧
    (s.deriveFromPin pinHigh).fresh = s.fresh ∧ (s.deriveFromPin pinHigh).pending = s.pending := by
  unfold State.deriveFromPin; (try dsimp only); (repeat' split) <;> simp_all

@[simp] theorem State.boundary_keeps (s : State) :
    s.boundary.rstn = s.rstn ∧ s.boundary.pins = s.pins ∧ s.boundary.sld = s.sld ∧ s.boundary.sdram = s.sdram ∧
    s.boundary.upb = s.upb ∧ s.boundary.fresh = s.fresh ∧ s.boundary.pending = s.pending := by
  unfold State.boundary; (try dsimp only); (repeat' split) <;> simp_all

@[simp] theorem State.syncQuiet_keeps (s : State) :
    s.syncQuiet.now = s.now ∧ s.syncQuiet.rstn = s.rstn ∧ s.syncQuiet.pins = s.pins ∧ s.syncQuiet.sld = s.sld ∧
    s.syncQuiet.ptu = s.ptu ∧ s.syncQuiet.adm = s.adm ∧ s.syncQuiet.psq = s.psq ∧ s.syncQuiet.wdu = s.wdu ∧
    s.syncQuiet.ccu = s.ccu ∧ s.syncQuiet.cfw = s.cfw ∧ s.syncQuiet.mctl = s.mctl ∧ s.syncQuiet.sdram = s.sdram ∧
    s.syncQuiet.lpm = s.lpm ∧ s.syncQuiet.xch = s.xch ∧ s.syncQuiet.mfn = s.mfn ∧ s.syncQuiet.ord = s.ord ∧
    s.syncQuiet.ntu = s.ntu ∧ s.syncQuiet.upb = s.upb ∧ s.syncQuiet.fresh = s.fresh ∧
    s.syncQuiet.pending = s.pending := by
  unfold State.syncQuiet; (try dsimp only); (repeat' split) <;> simp_all

@[simp] theorem State.clearSitOut_keeps (s : State) :
    s.clearSitOut.now = s.now ∧ s.clearSitOut.rstn = s.rstn ∧ s.clearSitOut.pins = s.pins ∧
    s.clearSitOut.sld = s.sld ∧ s.clearSitOut.ptu = s.ptu ∧ s.clearSitOut.adm = s.adm ∧ s.clearSitOut.psq = s.psq ∧
    s.clearSitOut.wdu = s.wdu ∧ s.clearSitOut.ccu = s.ccu ∧ s.clearSitOut.cfw = s.cfw ∧
    s.clearSitOut.mctl = s.mctl ∧ s.clearSitOut.sdram = s.sdram ∧ s.clearSitOut.lpm = s.lpm ∧
    s.clearSitOut.xch = s.xch ∧ s.clearSitOut.mfn = s.mfn ∧ s.clearSitOut.ord = s.ord ∧ s.clearSitOut.ntu = s.ntu ∧
    s.clearSitOut.upb = s.upb ∧ s.clearSitOut.fresh = s.fresh ∧ s.clearSitOut.pending = s.pending := by
  unfold State.clearSitOut; (try dsimp only); (repeat' split) <;> simp_all

@[simp] theorem State.bidBegin_keeps (s : State) :
    s.bidBegin.now = s.now ∧ s.bidBegin.rstn = s.rstn ∧
    s.bidBegin.pins = s.pins ∧ s.bidBegin.sld = s.sld ∧
    s.bidBegin.wdu = s.wdu ∧ s.bidBegin.ccu = s.ccu ∧
    s.bidBegin.sdram = s.sdram ∧ s.bidBegin.mfn = s.mfn ∧
    s.bidBegin.ord = s.ord ∧ s.bidBegin.fresh = s.fresh ∧
    s.bidBegin.pending = s.pending := by
  unfold State.bidBegin; (try dsimp only); (repeat' split) <;> simp_all

@[simp] theorem State.withdrawBid_keeps (s : State) :
    s.withdrawBid.now = s.now ∧ s.withdrawBid.rstn = s.rstn ∧ s.withdrawBid.pins = s.pins ∧
    s.withdrawBid.sld = s.sld ∧ s.withdrawBid.wdu = s.wdu ∧ s.withdrawBid.ccu = s.ccu ∧
    s.withdrawBid.sdram = s.sdram ∧ s.withdrawBid.mfn = s.mfn ∧ s.withdrawBid.ord = s.ord ∧
    s.withdrawBid.fresh = s.fresh ∧ s.withdrawBid.pending = s.pending := by
  unfold State.withdrawBid; (try dsimp only); (repeat' split) <;> simp_all

@[simp] theorem State.mismatch_keeps (s : State) :
    s.mismatch.now = s.now ∧ s.mismatch.rstn = s.rstn ∧ s.mismatch.pins = s.pins ∧ s.mismatch.sld = s.sld ∧
    s.mismatch.ptu = s.ptu ∧ s.mismatch.adm = s.adm ∧ s.mismatch.psq = s.psq ∧ s.mismatch.wdu = s.wdu ∧
    s.mismatch.ccu = s.ccu ∧ s.mismatch.cfw = s.cfw ∧ s.mismatch.mctl = s.mctl ∧ s.mismatch.sdram = s.sdram ∧
    s.mismatch.lpm = s.lpm ∧ s.mismatch.xch = s.xch ∧ s.mismatch.mfn = s.mfn ∧ s.mismatch.ord = s.ord ∧
    s.mismatch.ntu = s.ntu ∧ s.mismatch.upb = s.upb ∧ s.mismatch.fresh = s.fresh ∧
    s.mismatch.pending = s.pending := by
  unfold State.mismatch; (try dsimp only); (repeat' split) <;> simp_all

@[simp] theorem State.loseBid_keeps (s : State) :
    s.loseBid.now = s.now ∧ s.loseBid.rstn = s.rstn ∧ s.loseBid.pins = s.pins ∧ s.loseBid.sld = s.sld ∧
    s.loseBid.wdu = s.wdu ∧ s.loseBid.ccu = s.ccu ∧ s.loseBid.sdram = s.sdram ∧ s.loseBid.mfn = s.mfn ∧
    s.loseBid.ord = s.ord ∧ s.loseBid.fresh = s.fresh ∧ s.loseBid.pending = s.pending := by
  unfold State.loseBid; (try dsimp only); (repeat' split) <;> simp_all

@[simp] theorem State.receiveError_keeps (s : State) (error : RxError) (tailRemains : Bool) :
    (s.receiveError error tailRemains).now = s.now ∧ (s.receiveError error tailRemains).rstn = s.rstn ∧
    (s.receiveError error tailRemains).pins = s.pins ∧ (s.receiveError error tailRemains).sld = s.sld ∧
    (s.receiveError error tailRemains).ptu = s.ptu ∧ (s.receiveError error tailRemains).adm = s.adm ∧
    (s.receiveError error tailRemains).psq = s.psq ∧ (s.receiveError error tailRemains).wdu = s.wdu ∧
    (s.receiveError error tailRemains).ccu = s.ccu ∧ (s.receiveError error tailRemains).cfw = s.cfw ∧
    (s.receiveError error tailRemains).mctl = s.mctl ∧ (s.receiveError error tailRemains).sdram = s.sdram ∧
    (s.receiveError error tailRemains).lpm = s.lpm ∧ (s.receiveError error tailRemains).xch = s.xch ∧
    (s.receiveError error tailRemains).mfn = s.mfn ∧ (s.receiveError error tailRemains).ord = s.ord ∧
    (s.receiveError error tailRemains).ntu = s.ntu ∧ (s.receiveError error tailRemains).upb = s.upb ∧
    (s.receiveError error tailRemains).fresh = s.fresh ∧ (s.receiveError error tailRemains).pending = s.pending := by
  unfold State.receiveError; (try dsimp only); (repeat' split) <;> simp_all

@[simp] theorem State.stopSending_keeps (s : State) :
    s.stopSending.now = s.now ∧ s.stopSending.rstn = s.rstn ∧ s.stopSending.pins = s.pins ∧
    s.stopSending.sld = s.sld ∧ s.stopSending.ptu = s.ptu ∧ s.stopSending.adm = s.adm ∧ s.stopSending.psq = s.psq ∧
    s.stopSending.wdu = s.wdu ∧ s.stopSending.ccu = s.ccu ∧ s.stopSending.cfw = s.cfw ∧ s.stopSending.mctl = s.mctl ∧
    s.stopSending.sdram = s.sdram ∧ s.stopSending.lpm = s.lpm ∧ s.stopSending.xch = s.xch ∧
    s.stopSending.mfn = s.mfn ∧ s.stopSending.ord = s.ord ∧ s.stopSending.ntu = s.ntu ∧ s.stopSending.upb = s.upb ∧
    s.stopSending.fresh = s.fresh ∧ s.stopSending.pending = s.pending := by
  unfold State.stopSending; (try dsimp only); (repeat' split) <;> simp_all

@[simp] theorem State.tenureRest_keeps (s : State) (how : TenureEnd) :
    (s.tenureRest how).now = s.now ∧ (s.tenureRest how).rstn = s.rstn ∧ (s.tenureRest how).pins = s.pins ∧
    (s.tenureRest how).sld = s.sld ∧ (s.tenureRest how).ptu = s.ptu ∧ (s.tenureRest how).adm = s.adm ∧
    (s.tenureRest how).psq = s.psq ∧ (s.tenureRest how).wdu = s.wdu ∧ (s.tenureRest how).ccu = s.ccu ∧
    (s.tenureRest how).cfw = s.cfw ∧ (s.tenureRest how).mctl = s.mctl ∧ (s.tenureRest how).sdram = s.sdram ∧
    (s.tenureRest how).lpm = s.lpm ∧ (s.tenureRest how).xch = s.xch ∧ (s.tenureRest how).mfn = s.mfn ∧
    (s.tenureRest how).ord = s.ord ∧ (s.tenureRest how).ntu = s.ntu ∧ (s.tenureRest how).upb = s.upb ∧
    (s.tenureRest how).fresh = s.fresh ∧ (s.tenureRest how).pending = s.pending := by
  unfold State.tenureRest; (try dsimp only); (repeat' split) <;> simp_all

@[simp] theorem State.frameComplete_keeps (s : State) (f : LaneFrame) (handovers : Nat) :
    (s.frameComplete f handovers).now = s.now ∧ (s.frameComplete f handovers).rstn = s.rstn ∧
    (s.frameComplete f handovers).pins = s.pins ∧ (s.frameComplete f handovers).sld = s.sld ∧
    (s.frameComplete f handovers).sdram = s.sdram ∧ (s.frameComplete f handovers).fresh = s.fresh ∧
    (s.frameComplete f handovers).pending = s.pending := by
  unfold State.frameComplete; (try dsimp only); (repeat' split) <;> simp_all

@[simp] theorem State.frameSpoiled_keeps (s : State) (f : LaneFrame) :
    (s.frameSpoiled f).now = s.now ∧ (s.frameSpoiled f).rstn = s.rstn ∧ (s.frameSpoiled f).pins = s.pins ∧
    (s.frameSpoiled f).sld = s.sld ∧ (s.frameSpoiled f).psq = s.psq ∧ (s.frameSpoiled f).wdu = s.wdu ∧
    (s.frameSpoiled f).ccu = s.ccu ∧ (s.frameSpoiled f).sdram = s.sdram ∧ (s.frameSpoiled f).mfn = s.mfn ∧
    (s.frameSpoiled f).upb = s.upb ∧ (s.frameSpoiled f).fresh = s.fresh ∧ (s.frameSpoiled f).pending = s.pending := by
  unfold State.frameSpoiled; (try dsimp only); (repeat' split) <;> simp_all

@[simp] theorem State.duplicate_keeps (s : State) :
    s.duplicate.now = s.now ∧ s.duplicate.rstn = s.rstn ∧ s.duplicate.pins = s.pins ∧ s.duplicate.sld = s.sld ∧
    s.duplicate.psq = s.psq ∧ s.duplicate.wdu = s.wdu ∧ s.duplicate.ccu = s.ccu ∧ s.duplicate.sdram = s.sdram ∧
    s.duplicate.mfn = s.mfn ∧ s.duplicate.upb = s.upb ∧ s.duplicate.fresh = s.fresh ∧
    s.duplicate.pending = s.pending := by
  unfold State.duplicate; (try dsimp only); (repeat' split) <;> simp_all

@[simp] theorem State.expire_keeps (s : State) (x : Nat) :
    (s.expire x).now = s.now ∧ (s.expire x).rstn = s.rstn ∧ (s.expire x).pins = s.pins ∧ (s.expire x).sld = s.sld ∧
    (s.expire x).ptu = s.ptu ∧ (s.expire x).lif = s.lif ∧ (s.expire x).psq = s.psq ∧ (s.expire x).wdu = s.wdu ∧
    (s.expire x).ccu = s.ccu ∧ (s.expire x).cfw = s.cfw ∧ (s.expire x).mctl = s.mctl ∧
    (s.expire x).sdram = s.sdram ∧ (s.expire x).lpm = s.lpm ∧ (s.expire x).xch = s.xch ∧ (s.expire x).mfn = s.mfn ∧
    (s.expire x).ord = s.ord ∧ (s.expire x).ntu = s.ntu ∧ (s.expire x).upb = s.upb ∧ (s.expire x).fresh = s.fresh ∧
    (s.expire x).pending = s.pending := by
  unfold State.expire; (try dsimp only); (repeat' split) <;> simp_all

@[simp] theorem State.holdLimitReached_keeps (s : State) (x : Nat) :
    (s.holdLimitReached x).rstn = s.rstn ∧ (s.holdLimitReached x).pins = s.pins ∧
    (s.holdLimitReached x).sld = s.sld ∧ (s.holdLimitReached x).ptu = s.ptu ∧ (s.holdLimitReached x).cfw = s.cfw ∧
    (s.holdLimitReached x).sdram = s.sdram ∧ (s.holdLimitReached x).ord = s.ord ∧
    (s.holdLimitReached x).upb = s.upb ∧ (s.holdLimitReached x).fresh = s.fresh ∧
    (s.holdLimitReached x).pending = s.pending := by
  unfold State.holdLimitReached; (try dsimp only); (repeat' split) <;> simp_all

@[simp] theorem State.expiredOver_keeps (s : State) (x : Nat) :
    (s.expiredOver x).rstn = s.rstn ∧ (s.expiredOver x).pins = s.pins ∧ (s.expiredOver x).sld = s.sld ∧
    (s.expiredOver x).ptu = s.ptu ∧ (s.expiredOver x).lif = s.lif ∧ (s.expiredOver x).psq = s.psq ∧
    (s.expiredOver x).wdu = s.wdu ∧ (s.expiredOver x).ccu = s.ccu ∧ (s.expiredOver x).cfw = s.cfw ∧
    (s.expiredOver x).mctl = s.mctl ∧ (s.expiredOver x).sdram = s.sdram ∧ (s.expiredOver x).lpm = s.lpm ∧
    (s.expiredOver x).xch = s.xch ∧ (s.expiredOver x).mfn = s.mfn ∧ (s.expiredOver x).ord = s.ord ∧
    (s.expiredOver x).ntu = s.ntu ∧ (s.expiredOver x).upb = s.upb ∧ (s.expiredOver x).fresh = s.fresh ∧
    (s.expiredOver x).pending = s.pending := by
  unfold State.expiredOver; (try dsimp only); (repeat' split) <;> simp_all

@[simp] theorem State.arbiterGrants_keeps (s : State) :
    s.arbiterGrants.now = s.now ∧ s.arbiterGrants.rstn = s.rstn ∧ s.arbiterGrants.pins = s.pins ∧
    s.arbiterGrants.sld = s.sld ∧ s.arbiterGrants.ptu = s.ptu ∧ s.arbiterGrants.lif = s.lif ∧
    s.arbiterGrants.adm = s.adm ∧ s.arbiterGrants.psq = s.psq ∧ s.arbiterGrants.wdu = s.wdu ∧
    s.arbiterGrants.ccu = s.ccu ∧ s.arbiterGrants.cfw = s.cfw ∧ s.arbiterGrants.sdram = s.sdram ∧
    s.arbiterGrants.lpm = s.lpm ∧ s.arbiterGrants.xch = s.xch ∧ s.arbiterGrants.mfn = s.mfn ∧
    s.arbiterGrants.ord = s.ord ∧ s.arbiterGrants.ntu = s.ntu ∧ s.arbiterGrants.upb = s.upb ∧
    s.arbiterGrants.fresh = s.fresh ∧ s.arbiterGrants.pending = s.pending := by
  unfold State.arbiterGrants; (try dsimp only); (repeat' split) <;> simp_all

@[simp] theorem State.refreshOwed_keeps (s : State) :
    s.refreshOwed.now = s.now ∧ s.refreshOwed.rstn = s.rstn ∧ s.refreshOwed.pins = s.pins ∧
    s.refreshOwed.sld = s.sld ∧ s.refreshOwed.ptu = s.ptu ∧ s.refreshOwed.lif = s.lif ∧ s.refreshOwed.adm = s.adm ∧
    s.refreshOwed.psq = s.psq ∧ s.refreshOwed.wdu = s.wdu ∧ s.refreshOwed.ccu = s.ccu ∧ s.refreshOwed.cfw = s.cfw ∧
    s.refreshOwed.sdram = s.sdram ∧ s.refreshOwed.lpm = s.lpm ∧ s.refreshOwed.xch = s.xch ∧
    s.refreshOwed.mfn = s.mfn ∧ s.refreshOwed.ord = s.ord ∧ s.refreshOwed.ntu = s.ntu ∧ s.refreshOwed.upb = s.upb ∧
    s.refreshOwed.fresh = s.fresh ∧ s.refreshOwed.pending = s.pending := by
  unfold State.refreshOwed; (try dsimp only); (repeat' split) <;> simp_all

@[simp] theorem State.refreshGiven_keeps (s : State) :
    s.refreshGiven.now = s.now ∧ s.refreshGiven.rstn = s.rstn ∧ s.refreshGiven.pins = s.pins ∧
    s.refreshGiven.sld = s.sld ∧ s.refreshGiven.ptu = s.ptu ∧ s.refreshGiven.lif = s.lif ∧
    s.refreshGiven.adm = s.adm ∧ s.refreshGiven.psq = s.psq ∧ s.refreshGiven.wdu = s.wdu ∧
    s.refreshGiven.ccu = s.ccu ∧ s.refreshGiven.cfw = s.cfw ∧ s.refreshGiven.sdram = s.sdram ∧
    s.refreshGiven.lpm = s.lpm ∧ s.refreshGiven.xch = s.xch ∧ s.refreshGiven.mfn = s.mfn ∧
    s.refreshGiven.ord = s.ord ∧ s.refreshGiven.ntu = s.ntu ∧ s.refreshGiven.upb = s.upb ∧
    s.refreshGiven.fresh = s.fresh ∧ s.refreshGiven.pending = s.pending := by
  unfold State.refreshGiven; (try dsimp only); (repeat' split) <;> simp_all

@[simp] theorem State.requestOver_keeps (s : State) :
    s.requestOver.now = s.now ∧ s.requestOver.rstn = s.rstn ∧ s.requestOver.pins = s.pins ∧
    s.requestOver.sld = s.sld ∧ s.requestOver.ptu = s.ptu ∧ s.requestOver.lif = s.lif ∧ s.requestOver.adm = s.adm ∧
    s.requestOver.psq = s.psq ∧ s.requestOver.wdu = s.wdu ∧ s.requestOver.ccu = s.ccu ∧ s.requestOver.cfw = s.cfw ∧
    s.requestOver.sdram = s.sdram ∧ s.requestOver.lpm = s.lpm ∧ s.requestOver.xch = s.xch ∧
    s.requestOver.mfn = s.mfn ∧ s.requestOver.ord = s.ord ∧ s.requestOver.ntu = s.ntu ∧ s.requestOver.upb = s.upb ∧
    s.requestOver.fresh = s.fresh ∧ s.requestOver.pending = s.pending := by
  unfold State.requestOver; (try dsimp only); (repeat' split) <;> simp_all

@[simp] theorem State.fillEnded_keeps (s : State) (pos : Nat) :
    (s.fillEnded pos).now = s.now ∧ (s.fillEnded pos).rstn = s.rstn ∧ (s.fillEnded pos).pins = s.pins ∧
    (s.fillEnded pos).sld = s.sld ∧ (s.fillEnded pos).ptu = s.ptu ∧ (s.fillEnded pos).adm = s.adm ∧
    (s.fillEnded pos).psq = s.psq ∧ (s.fillEnded pos).wdu = s.wdu ∧ (s.fillEnded pos).ccu = s.ccu ∧
    (s.fillEnded pos).cfw = s.cfw ∧ (s.fillEnded pos).sdram = s.sdram ∧ (s.fillEnded pos).ord = s.ord ∧
    (s.fillEnded pos).upb = s.upb ∧ (s.fillEnded pos).fresh = s.fresh ∧ (s.fillEnded pos).pending = s.pending := by
  unfold State.fillEnded; (try dsimp only); (repeat' split) <;> simp_all

@[simp] theorem State.mediaDone_keeps (s : State) (m : MediaReq) (reported : Bool) :
    (s.mediaDone m reported).now = s.now ∧ (s.mediaDone m reported).rstn = s.rstn ∧
    (s.mediaDone m reported).pins = s.pins ∧ (s.mediaDone m reported).sld = s.sld ∧
    (s.mediaDone m reported).ptu = s.ptu ∧ (s.mediaDone m reported).adm = s.adm ∧
    (s.mediaDone m reported).psq = s.psq ∧ (s.mediaDone m reported).wdu = s.wdu ∧
    (s.mediaDone m reported).ccu = s.ccu ∧ (s.mediaDone m reported).cfw = s.cfw ∧
    (s.mediaDone m reported).ord = s.ord ∧ (s.mediaDone m reported).ntu = s.ntu ∧
    (s.mediaDone m reported).upb = s.upb ∧ (s.mediaDone m reported).fresh = s.fresh ∧
    (s.mediaDone m reported).pending = s.pending := by
  unfold State.mediaDone; (try dsimp only); (repeat' split) <;> simp_all

@[simp] theorem State.setPgood_keeps (s : State) (active : Bool) :
    (s.setPgood active).now = s.now ∧ (s.setPgood active).rstn = s.rstn ∧ (s.setPgood active).pins = s.pins ∧
    (s.setPgood active).sld = s.sld ∧ (s.setPgood active).ptu = s.ptu ∧ (s.setPgood active).lif = s.lif ∧
    (s.setPgood active).adm = s.adm ∧ (s.setPgood active).wdu = s.wdu ∧ (s.setPgood active).ccu = s.ccu ∧
    (s.setPgood active).cfw = s.cfw ∧ (s.setPgood active).mctl = s.mctl ∧ (s.setPgood active).sdram = s.sdram ∧
    (s.setPgood active).lpm = s.lpm ∧ (s.setPgood active).xch = s.xch ∧ (s.setPgood active).mfn = s.mfn ∧
    (s.setPgood active).ord = s.ord ∧ (s.setPgood active).ntu = s.ntu ∧ (s.setPgood active).upb = s.upb ∧
    (s.setPgood active).fresh = s.fresh ∧ (s.setPgood active).pending = s.pending := by
  unfold State.setPgood; (try dsimp only); (repeat' split) <;> simp_all

@[simp] theorem State.unadmittedStart_keeps (s : State) :
    s.unadmittedStart.now = s.now ∧ s.unadmittedStart.rstn = s.rstn ∧ s.unadmittedStart.pins = s.pins ∧
    s.unadmittedStart.sld = s.sld ∧ s.unadmittedStart.ptu = s.ptu ∧ s.unadmittedStart.cfw = s.cfw ∧
    s.unadmittedStart.sdram = s.sdram ∧ s.unadmittedStart.ord = s.ord ∧ s.unadmittedStart.upb = s.upb ∧
    s.unadmittedStart.fresh = s.fresh ∧ s.unadmittedStart.pending = s.pending := by
  unfold State.unadmittedStart; (try dsimp only); (repeat' split) <;> simp_all

@[simp] theorem State.feedFault_keeps (s : State) :
    s.feedFault.now = s.now ∧ s.feedFault.rstn = s.rstn ∧ s.feedFault.pins = s.pins ∧ s.feedFault.sld = s.sld ∧
    s.feedFault.ptu = s.ptu ∧ s.feedFault.lif = s.lif ∧ s.feedFault.adm = s.adm ∧ s.feedFault.wdu = s.wdu ∧
    s.feedFault.ccu = s.ccu ∧ s.feedFault.cfw = s.cfw ∧ s.feedFault.mctl = s.mctl ∧ s.feedFault.sdram = s.sdram ∧
    s.feedFault.lpm = s.lpm ∧ s.feedFault.xch = s.xch ∧ s.feedFault.mfn = s.mfn ∧ s.feedFault.ord = s.ord ∧
    s.feedFault.upb = s.upb ∧ s.feedFault.fresh = s.fresh ∧ s.feedFault.pending = s.pending := by
  unfold State.feedFault; (try dsimp only); (repeat' split) <;> simp_all

@[simp] theorem State.pgoodRises_keeps (s : State) :
    s.pgoodRises.now = s.now ∧ s.pgoodRises.rstn = s.rstn ∧ s.pgoodRises.pins = s.pins ∧ s.pgoodRises.sld = s.sld ∧
    s.pgoodRises.ptu = s.ptu ∧ s.pgoodRises.cfw = s.cfw ∧ s.pgoodRises.sdram = s.sdram ∧ s.pgoodRises.ord = s.ord ∧
    s.pgoodRises.upb = s.upb ∧ s.pgoodRises.fresh = s.fresh ∧ s.pgoodRises.pending = s.pending := by
  unfold State.pgoodRises; (try dsimp only); (repeat' split) <;> simp_all

@[simp] theorem State.toResting_keeps (s : State) :
    s.toResting.now = s.now ∧ s.toResting.rstn = s.rstn ∧ s.toResting.pins = s.pins ∧ s.toResting.sld = s.sld ∧
    s.toResting.ptu = s.ptu ∧ s.toResting.ccu = s.ccu ∧ s.toResting.cfw = s.cfw ∧ s.toResting.sdram = s.sdram ∧
    s.toResting.ord = s.ord ∧ s.toResting.upb = s.upb ∧ s.toResting.fresh = s.fresh ∧
    s.toResting.pending = s.pending := by
  unfold State.toResting; (try dsimp only); (repeat' split) <;> simp_all

@[simp] theorem State.wentOff_keeps (s : State) (arg : Nat) :
    (s.wentOff arg).now = s.now ∧ (s.wentOff arg).rstn = s.rstn ∧ (s.wentOff arg).pins = s.pins ∧
    (s.wentOff arg).sld = s.sld ∧ (s.wentOff arg).ptu = s.ptu ∧ (s.wentOff arg).cfw = s.cfw ∧
    (s.wentOff arg).sdram = s.sdram ∧ (s.wentOff arg).ord = s.ord ∧ (s.wentOff arg).upb = s.upb ∧
    (s.wentOff arg).fresh = s.fresh ∧ (s.wentOff arg).pending = s.pending := by
  unfold State.wentOff; (try dsimp only); (repeat' split) <;> simp_all

@[simp] theorem State.powerLost_keeps (s : State) :
    s.powerLost.now = s.now ∧ s.powerLost.rstn = s.rstn ∧ s.powerLost.pins = s.pins ∧ s.powerLost.sld = s.sld ∧
    s.powerLost.ptu = s.ptu ∧ s.powerLost.cfw = s.cfw ∧ s.powerLost.sdram = s.sdram ∧ s.powerLost.ord = s.ord ∧
    s.powerLost.upb = s.upb ∧ s.powerLost.fresh = s.fresh ∧ s.powerLost.pending = s.pending := by
  unfold State.powerLost; (try dsimp only); (repeat' split) <;> simp_all

@[simp] theorem State.fellAwaited_keeps (s : State) (arg : Nat) :
    (s.fellAwaited arg).now = s.now ∧ (s.fellAwaited arg).rstn = s.rstn ∧ (s.fellAwaited arg).pins = s.pins ∧
    (s.fellAwaited arg).sld = s.sld ∧ (s.fellAwaited arg).ptu = s.ptu ∧ (s.fellAwaited arg).lif = s.lif ∧
    (s.fellAwaited arg).adm = s.adm ∧ (s.fellAwaited arg).wdu = s.wdu ∧ (s.fellAwaited arg).cfw = s.cfw ∧
    (s.fellAwaited arg).mctl = s.mctl ∧ (s.fellAwaited arg).sdram = s.sdram ∧ (s.fellAwaited arg).lpm = s.lpm ∧
    (s.fellAwaited arg).xch = s.xch ∧ (s.fellAwaited arg).mfn = s.mfn ∧ (s.fellAwaited arg).ord = s.ord ∧
    (s.fellAwaited arg).ntu = s.ntu ∧ (s.fellAwaited arg).upb = s.upb ∧ (s.fellAwaited arg).fresh = s.fresh ∧
    (s.fellAwaited arg).pending = s.pending := by
  unfold State.fellAwaited; (try dsimp only); (repeat' split) <;> simp_all

@[simp] theorem State.stopForce_keeps (s : State) :
    s.stopForce.now = s.now ∧ s.stopForce.rstn = s.rstn ∧ s.stopForce.pins = s.pins ∧ s.stopForce.sld = s.sld ∧
    s.stopForce.ptu = s.ptu ∧ s.stopForce.lif = s.lif ∧ s.stopForce.adm = s.adm ∧ s.stopForce.wdu = s.wdu ∧
    s.stopForce.ccu = s.ccu ∧ s.stopForce.cfw = s.cfw ∧ s.stopForce.mctl = s.mctl ∧ s.stopForce.sdram = s.sdram ∧
    s.stopForce.lpm = s.lpm ∧ s.stopForce.xch = s.xch ∧ s.stopForce.mfn = s.mfn ∧ s.stopForce.ord = s.ord ∧
    s.stopForce.ntu = s.ntu ∧ s.stopForce.upb = s.upb ∧ s.stopForce.fresh = s.fresh ∧
    s.stopForce.pending = s.pending := by
  unfold State.stopForce; (try dsimp only); (repeat' split) <;> simp_all

@[simp] theorem State.pgoodFalls_keeps (s : State) :
    s.pgoodFalls.now = s.now ∧ s.pgoodFalls.rstn = s.rstn ∧ s.pgoodFalls.pins = s.pins ∧ s.pgoodFalls.sld = s.sld ∧
    s.pgoodFalls.ptu = s.ptu ∧ s.pgoodFalls.cfw = s.cfw ∧ s.pgoodFalls.sdram = s.sdram ∧ s.pgoodFalls.ord = s.ord ∧
    s.pgoodFalls.upb = s.upb ∧ s.pgoodFalls.fresh = s.fresh ∧ s.pgoodFalls.pending = s.pending := by
  unfold State.pgoodFalls; (try dsimp only); (repeat' split) <;> simp_all

@[simp] theorem State.startFailed_keeps (s : State) :
    s.startFailed.now = s.now ∧ s.startFailed.rstn = s.rstn ∧ s.startFailed.pins = s.pins ∧
    s.startFailed.sld = s.sld ∧ s.startFailed.ptu = s.ptu ∧ s.startFailed.ccu = s.ccu ∧ s.startFailed.cfw = s.cfw ∧
    s.startFailed.sdram = s.sdram ∧ s.startFailed.ord = s.ord ∧ s.startFailed.upb = s.upb ∧
    s.startFailed.fresh = s.fresh ∧ s.startFailed.pending = s.pending := by
  unfold State.startFailed; (try dsimp only); (repeat' split) <;> simp_all

@[simp] theorem State.settled_keeps (s : State) :
    s.settled.now = s.now ∧ s.settled.rstn = s.rstn ∧ s.settled.pins = s.pins ∧ s.settled.sld = s.sld ∧
    s.settled.ptu = s.ptu ∧ s.settled.wdu = s.wdu ∧ s.settled.ccu = s.ccu ∧ s.settled.cfw = s.cfw ∧
    s.settled.sdram = s.sdram ∧ s.settled.lpm = s.lpm ∧ s.settled.xch = s.xch ∧ s.settled.mfn = s.mfn ∧
    s.settled.ord = s.ord ∧ s.settled.ntu = s.ntu ∧ s.settled.upb = s.upb ∧ s.settled.fresh = s.fresh ∧
    s.settled.pending = s.pending := by
  unfold State.settled; (try dsimp only); (repeat' split) <;> simp_all

@[simp] theorem State.youngOver_keeps (s : State) :
    s.youngOver.now = s.now ∧ s.youngOver.rstn = s.rstn ∧ s.youngOver.pins = s.pins ∧ s.youngOver.sld = s.sld ∧
    s.youngOver.ptu = s.ptu ∧ s.youngOver.ccu = s.ccu ∧ s.youngOver.cfw = s.cfw ∧ s.youngOver.sdram = s.sdram ∧
    s.youngOver.ord = s.ord ∧ s.youngOver.upb = s.upb ∧ s.youngOver.fresh = s.fresh ∧
    s.youngOver.pending = s.pending := by
  unfold State.youngOver; (try dsimp only); (repeat' split) <;> simp_all

@[simp] theorem State.graceOver_keeps (s : State) :
    s.graceOver.now = s.now ∧ s.graceOver.rstn = s.rstn ∧ s.graceOver.pins = s.pins ∧ s.graceOver.sld = s.sld ∧
    s.graceOver.ptu = s.ptu ∧ s.graceOver.ccu = s.ccu ∧ s.graceOver.cfw = s.cfw ∧ s.graceOver.sdram = s.sdram ∧
    s.graceOver.ord = s.ord ∧ s.graceOver.upb = s.upb ∧ s.graceOver.fresh = s.fresh ∧
    s.graceOver.pending = s.pending := by
  unfold State.graceOver; (try dsimp only); (repeat' split) <;> simp_all

@[simp] theorem State.bounce_keeps (s : State) :
    s.bounce.now = s.now ∧ s.bounce.rstn = s.rstn ∧ s.bounce.pins = s.pins ∧ s.bounce.sld = s.sld ∧
    s.bounce.ptu = s.ptu ∧ s.bounce.cfw = s.cfw ∧ s.bounce.sdram = s.sdram ∧ s.bounce.ord = s.ord ∧
    s.bounce.upb = s.upb ∧ s.bounce.fresh = s.fresh ∧ s.bounce.pending = s.pending := by
  unfold State.bounce; (try dsimp only); (repeat' split) <;> simp_all

@[simp] theorem State.forceOver_keeps (s : State) :
    s.forceOver.now = s.now ∧ s.forceOver.rstn = s.rstn ∧ s.forceOver.pins = s.pins ∧ s.forceOver.sld = s.sld ∧
    s.forceOver.ptu = s.ptu ∧ s.forceOver.cfw = s.cfw ∧ s.forceOver.sdram = s.sdram ∧ s.forceOver.ord = s.ord ∧
    s.forceOver.upb = s.upb ∧ s.forceOver.fresh = s.fresh ∧ s.forceOver.pending = s.pending := by
  unfold State.forceOver; (try dsimp only); (repeat' split) <;> simp_all

@[simp] theorem State.restOver_keeps (s : State) :
    s.restOver.now = s.now ∧ s.restOver.rstn = s.rstn ∧ s.restOver.pins = s.pins ∧ s.restOver.sld = s.sld ∧
    s.restOver.ptu = s.ptu ∧ s.restOver.ccu = s.ccu ∧ s.restOver.cfw = s.cfw ∧ s.restOver.sdram = s.sdram ∧
    s.restOver.ord = s.ord ∧ s.restOver.upb = s.upb ∧ s.restOver.fresh = s.fresh ∧ s.restOver.pending = s.pending := by
  unfold State.restOver; (try dsimp only); (repeat' split) <;> simp_all

@[simp] theorem State.releaseReset_keeps (s : State) :
    s.releaseReset.now = s.now ∧ s.releaseReset.rstn = s.rstn ∧ s.releaseReset.pins = s.pins ∧
    s.releaseReset.sld = s.sld ∧ s.releaseReset.ptu = s.ptu ∧ s.releaseReset.lif = s.lif ∧
    s.releaseReset.adm = s.adm ∧ s.releaseReset.wdu = s.wdu ∧ s.releaseReset.ccu = s.ccu ∧
    s.releaseReset.cfw = s.cfw ∧ s.releaseReset.mctl = s.mctl ∧ s.releaseReset.sdram = s.sdram ∧
    s.releaseReset.lpm = s.lpm ∧ s.releaseReset.xch = s.xch ∧ s.releaseReset.mfn = s.mfn ∧
    s.releaseReset.ord = s.ord ∧ s.releaseReset.ntu = s.ntu ∧ s.releaseReset.upb = s.upb ∧
    s.releaseReset.fresh = s.fresh ∧ s.releaseReset.pending = s.pending := by
  unfold State.releaseReset; (try dsimp only); (repeat' split) <;> simp_all

@[simp] theorem State.setRx_keeps (s : State) (rx : RxState) :
    (s.setRx rx).now = s.now ∧ (s.setRx rx).rstn = s.rstn ∧ (s.setRx rx).pins = s.pins ∧ (s.setRx rx).sld = s.sld ∧
    (s.setRx rx).ptu = s.ptu ∧ (s.setRx rx).lif = s.lif ∧ (s.setRx rx).adm = s.adm ∧ (s.setRx rx).psq = s.psq ∧
    (s.setRx rx).wdu = s.wdu ∧ (s.setRx rx).cfw = s.cfw ∧ (s.setRx rx).mctl = s.mctl ∧
    (s.setRx rx).sdram = s.sdram ∧ (s.setRx rx).lpm = s.lpm ∧ (s.setRx rx).xch = s.xch ∧ (s.setRx rx).mfn = s.mfn ∧
    (s.setRx rx).ord = s.ord ∧ (s.setRx rx).ntu = s.ntu ∧ (s.setRx rx).upb = s.upb ∧ (s.setRx rx).fresh = s.fresh ∧
    (s.setRx rx).pending = s.pending := by
  unfold State.setRx; (try dsimp only); (repeat' split) <;> simp_all

@[simp] theorem State.textSent_keeps (s : State) :
    s.textSent.now = s.now ∧ s.textSent.rstn = s.rstn ∧ s.textSent.pins = s.pins ∧ s.textSent.sld = s.sld ∧
    s.textSent.ptu = s.ptu ∧ s.textSent.lif = s.lif ∧ s.textSent.adm = s.adm ∧ s.textSent.psq = s.psq ∧
    s.textSent.wdu = s.wdu ∧ s.textSent.ccu = s.ccu ∧ s.textSent.mctl = s.mctl ∧ s.textSent.sdram = s.sdram ∧
    s.textSent.lpm = s.lpm ∧ s.textSent.xch = s.xch ∧ s.textSent.mfn = s.mfn ∧ s.textSent.ord = s.ord ∧
    s.textSent.ntu = s.ntu ∧ s.textSent.upb = s.upb ∧ s.textSent.fresh = s.fresh ∧ s.textSent.pending = s.pending := by
  unfold State.textSent; (try dsimp only); (repeat' split) <;> simp_all

@[simp] theorem State.breakOutOver_keeps (s : State) :
    s.breakOutOver.rstn = s.rstn ∧ s.breakOutOver.pins = s.pins ∧ s.breakOutOver.sld = s.sld ∧
    s.breakOutOver.ptu = s.ptu ∧ s.breakOutOver.lif = s.lif ∧ s.breakOutOver.adm = s.adm ∧
    s.breakOutOver.psq = s.psq ∧ s.breakOutOver.wdu = s.wdu ∧ s.breakOutOver.ccu = s.ccu ∧
    s.breakOutOver.mctl = s.mctl ∧ s.breakOutOver.sdram = s.sdram ∧ s.breakOutOver.lpm = s.lpm ∧
    s.breakOutOver.xch = s.xch ∧ s.breakOutOver.mfn = s.mfn ∧ s.breakOutOver.ord = s.ord ∧
    s.breakOutOver.ntu = s.ntu ∧ s.breakOutOver.upb = s.upb ∧ s.breakOutOver.fresh = s.fresh ∧
    s.breakOutOver.pending = s.pending := by
  unfold State.breakOutOver; (try dsimp only); (repeat' split) <;> simp_all

@[simp] theorem State.guardOver_keeps (s : State) :
    s.guardOver.now = s.now ∧ s.guardOver.rstn = s.rstn ∧ s.guardOver.pins = s.pins ∧ s.guardOver.sld = s.sld ∧
    s.guardOver.ptu = s.ptu ∧ s.guardOver.lif = s.lif ∧ s.guardOver.adm = s.adm ∧ s.guardOver.psq = s.psq ∧
    s.guardOver.wdu = s.wdu ∧ s.guardOver.ccu = s.ccu ∧ s.guardOver.mctl = s.mctl ∧ s.guardOver.sdram = s.sdram ∧
    s.guardOver.lpm = s.lpm ∧ s.guardOver.xch = s.xch ∧ s.guardOver.mfn = s.mfn ∧ s.guardOver.ord = s.ord ∧
    s.guardOver.ntu = s.ntu ∧ s.guardOver.upb = s.upb ∧ s.guardOver.fresh = s.fresh ∧
    s.guardOver.pending = s.pending := by
  unfold State.guardOver; (try dsimp only); (repeat' split) <;> simp_all

@[simp] theorem State.pauseOver_keeps (s : State) (station : Nat) :
    (s.pauseOver station).now = s.now ∧ (s.pauseOver station).rstn = s.rstn ∧ (s.pauseOver station).pins = s.pins ∧
    (s.pauseOver station).sld = s.sld ∧ (s.pauseOver station).ptu = s.ptu ∧ (s.pauseOver station).lif = s.lif ∧
    (s.pauseOver station).adm = s.adm ∧ (s.pauseOver station).psq = s.psq ∧ (s.pauseOver station).wdu = s.wdu ∧
    (s.pauseOver station).ccu = s.ccu ∧ (s.pauseOver station).mctl = s.mctl ∧
    (s.pauseOver station).sdram = s.sdram ∧ (s.pauseOver station).lpm = s.lpm ∧ (s.pauseOver station).xch = s.xch ∧
    (s.pauseOver station).mfn = s.mfn ∧ (s.pauseOver station).ord = s.ord ∧ (s.pauseOver station).ntu = s.ntu ∧
    (s.pauseOver station).upb = s.upb ∧ (s.pauseOver station).fresh = s.fresh ∧
    (s.pauseOver station).pending = s.pending := by
  unfold State.pauseOver; (try dsimp only); (repeat' split) <;> simp_all

@[simp] theorem State.deadlineReached_keeps (s : State) :
    s.deadlineReached.now = s.now ∧ s.deadlineReached.rstn = s.rstn ∧ s.deadlineReached.pins = s.pins ∧
    s.deadlineReached.sld = s.sld ∧ s.deadlineReached.ptu = s.ptu ∧ s.deadlineReached.cfw = s.cfw ∧
    s.deadlineReached.sdram = s.sdram ∧ s.deadlineReached.ord = s.ord ∧ s.deadlineReached.upb = s.upb ∧
    s.deadlineReached.fresh = s.fresh ∧ s.deadlineReached.pending = s.pending := by
  unfold State.deadlineReached; (try dsimp only); (repeat' split) <;> simp_all

@[simp] theorem State.wantExpired_keeps (s : State) (w : Want) :
    (s.wantExpired w).now = s.now ∧ (s.wantExpired w).rstn = s.rstn ∧ (s.wantExpired w).pins = s.pins ∧
    (s.wantExpired w).sld = s.sld ∧ (s.wantExpired w).ptu = s.ptu ∧ (s.wantExpired w).adm = s.adm ∧
    (s.wantExpired w).psq = s.psq ∧ (s.wantExpired w).wdu = s.wdu ∧ (s.wantExpired w).ccu = s.ccu ∧
    (s.wantExpired w).cfw = s.cfw ∧ (s.wantExpired w).sdram = s.sdram ∧ (s.wantExpired w).ord = s.ord ∧
    (s.wantExpired w).upb = s.upb ∧ (s.wantExpired w).fresh = s.fresh ∧ (s.wantExpired w).pending = s.pending := by
  unfold State.wantExpired; (try dsimp only); (repeat' split) <;> simp_all

@[simp] theorem State.stepData_keeps (s : State) (data : Bytes) :
    (s.stepData data).now = s.now ∧ (s.stepData data).rstn = s.rstn ∧ (s.stepData data).pins = s.pins ∧
    (s.stepData data).sld = s.sld ∧ (s.stepData data).ptu = s.ptu ∧ (s.stepData data).lif = s.lif ∧
    (s.stepData data).adm = s.adm ∧ (s.stepData data).psq = s.psq ∧ (s.stepData data).wdu = s.wdu ∧
    (s.stepData data).ccu = s.ccu ∧ (s.stepData data).cfw = s.cfw ∧ (s.stepData data).mctl = s.mctl ∧
    (s.stepData data).sdram = s.sdram ∧ (s.stepData data).lpm = s.lpm ∧ (s.stepData data).xch = s.xch ∧
    (s.stepData data).ord = s.ord ∧ (s.stepData data).ntu = s.ntu ∧ (s.stepData data).upb = s.upb ∧
    (s.stepData data).fresh = s.fresh ∧ (s.stepData data).pending = s.pending := by
  unfold State.stepData; (try dsimp only); (repeat' split) <;> simp_all

@[simp] theorem State.answerGood_keeps (s : State) :
    s.answerGood.now = s.now ∧ s.answerGood.rstn = s.rstn ∧ s.answerGood.pins = s.pins ∧ s.answerGood.sld = s.sld ∧
    s.answerGood.ptu = s.ptu ∧ s.answerGood.lif = s.lif ∧ s.answerGood.adm = s.adm ∧ s.answerGood.psq = s.psq ∧
    s.answerGood.wdu = s.wdu ∧ s.answerGood.ccu = s.ccu ∧ s.answerGood.cfw = s.cfw ∧ s.answerGood.mctl = s.mctl ∧
    s.answerGood.sdram = s.sdram ∧ s.answerGood.lpm = s.lpm ∧ s.answerGood.xch = s.xch ∧ s.answerGood.ord = s.ord ∧
    s.answerGood.ntu = s.ntu ∧ s.answerGood.upb = s.upb ∧ s.answerGood.fresh = s.fresh ∧
    s.answerGood.pending = s.pending := by
  unfold State.answerGood; (try dsimp only); (repeat' split) <;> simp_all

@[simp] theorem State.setPort_keeps (s : State) (port : Port) :
    (s.setPort port).now = s.now ∧ (s.setPort port).rstn = s.rstn ∧ (s.setPort port).pins = s.pins ∧
    (s.setPort port).sld = s.sld ∧ (s.setPort port).ptu = s.ptu ∧ (s.setPort port).lif = s.lif ∧
    (s.setPort port).adm = s.adm ∧ (s.setPort port).psq = s.psq ∧ (s.setPort port).wdu = s.wdu ∧
    (s.setPort port).ccu = s.ccu ∧ (s.setPort port).cfw = s.cfw ∧ (s.setPort port).mctl = s.mctl ∧
    (s.setPort port).sdram = s.sdram ∧ (s.setPort port).lpm = s.lpm ∧ (s.setPort port).xch = s.xch ∧
    (s.setPort port).ord = s.ord ∧ (s.setPort port).ntu = s.ntu ∧ (s.setPort port).upb = s.upb ∧
    (s.setPort port).fresh = s.fresh ∧ (s.setPort port).pending = s.pending := by
  unfold State.setPort; (try dsimp only); (repeat' split) <;> simp_all

@[simp] theorem State.resumePort_keeps (s : State) :
    s.resumePort.now = s.now ∧ s.resumePort.rstn = s.rstn ∧ s.resumePort.pins = s.pins ∧ s.resumePort.sld = s.sld ∧
    s.resumePort.ptu = s.ptu ∧ s.resumePort.lif = s.lif ∧ s.resumePort.adm = s.adm ∧ s.resumePort.psq = s.psq ∧
    s.resumePort.wdu = s.wdu ∧ s.resumePort.ccu = s.ccu ∧ s.resumePort.cfw = s.cfw ∧ s.resumePort.mctl = s.mctl ∧
    s.resumePort.sdram = s.sdram ∧ s.resumePort.lpm = s.lpm ∧ s.resumePort.xch = s.xch ∧ s.resumePort.ord = s.ord ∧
    s.resumePort.ntu = s.ntu ∧ s.resumePort.upb = s.upb ∧ s.resumePort.fresh = s.fresh ∧
    s.resumePort.pending = s.pending := by
  unfold State.resumePort; (try dsimp only); (repeat' split) <;> simp_all

@[simp] theorem State.setRemoteWake_keeps (s : State) (on : Bool) :
    (s.setRemoteWake on).now = s.now ∧ (s.setRemoteWake on).rstn = s.rstn ∧ (s.setRemoteWake on).pins = s.pins ∧
    (s.setRemoteWake on).sld = s.sld ∧ (s.setRemoteWake on).ptu = s.ptu ∧ (s.setRemoteWake on).lif = s.lif ∧
    (s.setRemoteWake on).adm = s.adm ∧ (s.setRemoteWake on).psq = s.psq ∧ (s.setRemoteWake on).wdu = s.wdu ∧
    (s.setRemoteWake on).ccu = s.ccu ∧ (s.setRemoteWake on).cfw = s.cfw ∧ (s.setRemoteWake on).mctl = s.mctl ∧
    (s.setRemoteWake on).sdram = s.sdram ∧ (s.setRemoteWake on).lpm = s.lpm ∧ (s.setRemoteWake on).xch = s.xch ∧
    (s.setRemoteWake on).ord = s.ord ∧ (s.setRemoteWake on).ntu = s.ntu ∧ (s.setRemoteWake on).upb = s.upb ∧
    (s.setRemoteWake on).fresh = s.fresh ∧ (s.setRemoteWake on).pending = s.pending := by
  unfold State.setRemoteWake; (try dsimp only); (repeat' split) <;> simp_all

@[simp] theorem State.setVbsense_keeps (s : State) (high : Bool) :
    (s.setVbsense high).now = s.now ∧ (s.setVbsense high).rstn = s.rstn ∧ (s.setVbsense high).sld = s.sld ∧
    (s.setVbsense high).ptu = s.ptu ∧ (s.setVbsense high).lif = s.lif ∧ (s.setVbsense high).adm = s.adm ∧
    (s.setVbsense high).psq = s.psq ∧ (s.setVbsense high).wdu = s.wdu ∧ (s.setVbsense high).ccu = s.ccu ∧
    (s.setVbsense high).cfw = s.cfw ∧ (s.setVbsense high).mctl = s.mctl ∧ (s.setVbsense high).sdram = s.sdram ∧
    (s.setVbsense high).lpm = s.lpm ∧ (s.setVbsense high).xch = s.xch ∧ (s.setVbsense high).mfn = s.mfn ∧
    (s.setVbsense high).ord = s.ord ∧ (s.setVbsense high).ntu = s.ntu ∧ (s.setVbsense high).upb = s.upb ∧
    (s.setVbsense high).fresh = s.fresh ∧ (s.setVbsense high).pending = s.pending := by
  unfold State.setVbsense; (try dsimp only); (repeat' split) <;> simp_all

@[simp] theorem State.vbusRises_keeps (s : State) :
    s.vbusRises.now = s.now ∧ s.vbusRises.rstn = s.rstn ∧ s.vbusRises.pins = s.pins ∧ s.vbusRises.sld = s.sld ∧
    s.vbusRises.ptu = s.ptu ∧ s.vbusRises.lif = s.lif ∧ s.vbusRises.adm = s.adm ∧ s.vbusRises.psq = s.psq ∧
    s.vbusRises.wdu = s.wdu ∧ s.vbusRises.ccu = s.ccu ∧ s.vbusRises.cfw = s.cfw ∧ s.vbusRises.mctl = s.mctl ∧
    s.vbusRises.sdram = s.sdram ∧ s.vbusRises.lpm = s.lpm ∧ s.vbusRises.xch = s.xch ∧ s.vbusRises.ord = s.ord ∧
    s.vbusRises.ntu = s.ntu ∧ s.vbusRises.upb = s.upb ∧ s.vbusRises.fresh = s.fresh ∧
    s.vbusRises.pending = s.pending := by
  unfold State.vbusRises; (try dsimp only); (repeat' split) <;> simp_all

@[simp] theorem State.unitSent_keeps (s : State) :
    s.unitSent.now = s.now ∧ s.unitSent.rstn = s.rstn ∧ s.unitSent.pins = s.pins ∧ s.unitSent.sld = s.sld ∧
    s.unitSent.ptu = s.ptu ∧ s.unitSent.lif = s.lif ∧ s.unitSent.adm = s.adm ∧ s.unitSent.psq = s.psq ∧
    s.unitSent.wdu = s.wdu ∧ s.unitSent.ccu = s.ccu ∧ s.unitSent.cfw = s.cfw ∧ s.unitSent.mctl = s.mctl ∧
    s.unitSent.sdram = s.sdram ∧ s.unitSent.lpm = s.lpm ∧ s.unitSent.xch = s.xch ∧ s.unitSent.mfn = s.mfn ∧
    s.unitSent.ord = s.ord ∧ s.unitSent.ntu = s.ntu ∧ s.unitSent.fresh = s.fresh ∧ s.unitSent.pending = s.pending := by
  unfold State.unitSent; (try dsimp only); (repeat' split) <;> simp_all

@[simp] theorem State.setUrts_keeps (s : State) (on : Bool) :
    (s.setUrts on).now = s.now ∧ (s.setUrts on).rstn = s.rstn ∧ (s.setUrts on).sld = s.sld ∧
    (s.setUrts on).ptu = s.ptu ∧ (s.setUrts on).lif = s.lif ∧ (s.setUrts on).adm = s.adm ∧
    (s.setUrts on).psq = s.psq ∧ (s.setUrts on).wdu = s.wdu ∧ (s.setUrts on).ccu = s.ccu ∧
    (s.setUrts on).cfw = s.cfw ∧ (s.setUrts on).mctl = s.mctl ∧ (s.setUrts on).sdram = s.sdram ∧
    (s.setUrts on).lpm = s.lpm ∧ (s.setUrts on).xch = s.xch ∧ (s.setUrts on).mfn = s.mfn ∧
    (s.setUrts on).ord = s.ord ∧ (s.setUrts on).ntu = s.ntu ∧ (s.setUrts on).upb = s.upb ∧
    (s.setUrts on).fresh = s.fresh ∧ (s.setUrts on).pending = s.pending := by
  unfold State.setUrts; (try dsimp only); (repeat' split) <;> simp_all

end Sys2Proof.Machine
end

