-- ==== Sys2Proof/Laws/Sequencer.lean ====
section
/-! SUPPORT. What entry to a sequencer state does to PSQ's record, what ADM's part of it may change, and what a power event
leaves alone (R4 to R6), and everything a grant does (R16, R17). -/

namespace Sys2Proof.Machine

/-! ### ADM's part -/

/-- `q` is `p` after ADM's part: the retract count moved, and claim asked kept, cleared, or set in AWAITING-SLOT. -/
def Psq.AskedFrom (p q : Psq) : Prop :=
  ∃ r c, q = { p with retract := r, claimAsked := c } ∧ (c = true → p.claimAsked = true ∨ p.state = some .awaitingSlot)

theorem Psq.AskedFrom.refl (p : Psq) : p.AskedFrom p := ⟨p.retract, p.claimAsked, rfl, Or.inl⟩

theorem Psq.AskedFrom.trans {p q r : Psq} (h : p.AskedFrom q) (k : q.AskedFrom r) : p.AskedFrom r := by
  obtain ⟨a, c, rfl, hc⟩ := h
  obtain ⟨b, d, rfl, hd⟩ := k
  refine ⟨b, d, rfl, fun hh => ?_⟩
  rcases hd hh with h1 | h1
  · exact hc h1
  · exact Or.inr h1

theorem State.askClaim_asked (s : State) : s.psq.AskedFrom s.askClaim.psq := by
  unfold State.askClaim
  split
  · exact ⟨s.psq.retract, true, by simp, by simp_all⟩
  · exact .refl _

theorem State.retractSettled_asked (s : State) : s.psq.AskedFrom s.retractSettled.psq := by
  unfold State.retractSettled
  exact .trans ⟨s.psq.retract - 1, s.psq.claimAsked, rfl, Or.inl⟩ (State.askClaim_asked _)

theorem State.cancelClaim_asked (s : State) : s.psq.AskedFrom s.cancelClaim.psq := by
  unfold State.cancelClaim
  split
  · refine .trans (q := _) ?_ (State.retractSettled_asked _)
    simp; exact .refl _
  · exact .refl _

theorem State.askRetract_asked (s : State) (k : OwnKind) : s.psq.AskedFrom (s.askRetract k).psq := by
  unfold State.askRetract
  split
  · exact .refl _
  · dsimp only
    split
    · refine .trans (q := { s.psq with retract := s.psq.retract + 1 }) ⟨_, _, rfl, Or.inl⟩ ?_
      have := State.cancelClaim_asked (({ s with psq := { s.psq with retract := s.psq.retract + 1 } } : State).addOwn k)
      simpa using this
    · exact ⟨_, _, rfl, Or.inl⟩

/-- The slot given up. -/
def Psq.slotGone (p : Psq) : Psq := if p.slotHeld then { p with slotHeld := false, settleT := none } else p

theorem State.releaseSlot_asked (s : State) : s.psq.slotGone.AskedFrom s.releaseSlot.psq := by
  unfold State.releaseSlot Psq.slotGone
  split
  · exact State.askRetract_asked _ _
  · exact .refl _

theorem State.withdrawClaim_asked (s : State) :
    Psq.AskedFrom { s.psq with claimAsked := false } s.withdrawClaim.psq := by
  unfold State.withdrawClaim
  split
  · exact State.askRetract_asked _ _
  · rename_i h
    have : s.psq = { s.psq with claimAsked := false } := by
      rcases hp : s.psq with ⟨⟩
      simp_all
    rw [← this]; exact .refl _

/-- PSQ's record as entry to a state makes it, ADM's part apart. -/
def State.entered (s : State) (st : SeqState) (var : Variant) : Psq :=
  let p1 : Psq := { ({ s with psq := (s.psq.leave.restOnEntry st) } : State).entryTimer st with state := some st, variant := var }
  let p2 := if st.isOff && (s.psq.state.any SeqState.isRunning || s.psq.state = some .starting) then p1.slotGone else p1
  if s.psq.state = some .awaitingSlot then { p2 with claimAsked := false } else p2

theorem Psq.AskedFrom.claimOff {p q : Psq} (h : p.AskedFrom q) :
    Psq.AskedFrom { p with claimAsked := false } { q with claimAsked := false } := by
  obtain ⟨a, c, rfl, hc⟩ := h
  exact ⟨a, false, rfl, by simp⟩

theorem State.psqEnter_asked (s : State) (st : SeqState) (var : Variant) (b : Bool) :
    (s.entered st var).AskedFrom (s.psqEnter st var b).psq := by
  unfold State.psqEnter State.entered
  simp only [State.raise_keeps, State.tellWdu_keeps, State.tellMfn_keeps]
  refine .trans ?_ (State.askClaim_asked _)
  by_cases hoff : (st.isOff && (s.psq.state.any SeqState.isRunning || Decidable.decide (s.psq.state = some .starting))) = true
  · simp only [hoff, if_true]
    by_cases haw : s.psq.state = some .awaitingSlot
    · simp only [haw, if_true]
      cases b
      · simp only [Bool.false_eq_true, if_false]
        exact .trans (.claimOff (State.releaseSlot_asked _)) (State.withdrawClaim_asked _)
      · simp only [if_true]
        exact .claimOff (State.releaseSlot_asked _)
    · simp only [haw, if_false]
      exact State.releaseSlot_asked _
  · simp only [hoff]
    by_cases haw : s.psq.state = some .awaitingSlot
    · simp only [haw, if_true]
      cases b
      · exact State.withdrawClaim_asked _
      · exact .refl _
    · simp only [haw, if_false]
      exact .refl _

@[simp] theorem Psq.slotGone_state (p : Psq) : p.slotGone.state = p.state := by unfold Psq.slotGone; split <;> rfl

@[simp] theorem State.entered_state (s : State) (st var) : (s.entered st var).state = some st := by
  unfold State.entered; dsimp only; (repeat' split) <;> simp

theorem Psq.AskedFrom.state {p q : Psq} (h : p.AskedFrom q) : q.state = p.state := by
  obtain ⟨a, c, rfl, -⟩ := h; rfl

@[simp] theorem State.psqEnter_state (s : State) (st var b) : (s.psqEnter st var b).psq.state = some st := by
  rw [(s.psqEnter_asked st var b).state, State.entered_state]

/-! ### What a power event leaves alone -/

/-- `t` is `s` with what a power event may touch. -/
def State.OnlyPower (s t : State) : Prop :=
  ∃ psq wdu ccu ntu mfn own kept l g wm ws lines recency wants now, t = { s with
    now := now
    psq := psq
    wdu := wdu
    ccu := ccu
    ntu := ntu
    mfn := mfn
    adm := { s.adm with own := own, kept := kept }
    lif := { s.lif with sendList := l, giveBuf := g }
    mctl := { s.mctl with waitMedia := wm, waitSend := ws }
    lpm := { s.lpm with lines := lines, recency := recency }
    xch := { s.xch with wants := wants } }

theorem State.OnlyPower.refl (s : State) : s.OnlyPower s := ⟨_, _, _, _, _, _, _, _, _, _, _, _, _, _, _, rfl⟩

theorem State.OnlyPower.trans {s t u : State} (h : s.OnlyPower t) (k : t.OnlyPower u) : s.OnlyPower u := by
  obtain ⟨_, _, _, _, _, _, _, _, _, _, _, _, _, _, _, rfl⟩ := h
  obtain ⟨_, _, _, _, _, _, _, _, _, _, _, _, _, _, _, rfl⟩ := k
  exact ⟨_, _, _, _, _, _, _, _, _, _, _, _, _, _, _, rfl⟩

theorem State.OnlyPower.frame {s t : State} (h : s.OnlyPower t) : s.PowerFrame t := by
  obtain ⟨_, _, _, _, _, _, _, _, _, _, _, _, _, _, _, rfl⟩ := h
  rfl

theorem State.onlyPower_psq (s : State) (p : Psq) : s.OnlyPower { s with psq := p } :=
  ⟨_, _, _, _, _, _, _, _, _, _, _, _, _, _, _, rfl⟩

theorem State.onlyPower_now (s : State) (due : Time) : s.OnlyPower (s.timeTo due) :=
  ⟨_, _, _, _, _, _, _, _, _, _, _, _, _, _, _, rfl⟩

theorem State.onlyPower_wdu (s : State) (w : Wdu) : s.OnlyPower { s with wdu := w } :=
  ⟨_, _, _, _, _, _, _, _, _, _, _, _, _, _, _, rfl⟩

theorem State.onlyPower_own (s : State) (own : List OwnFrame) : s.OnlyPower { s with adm := { s.adm with own := own } } :=
  ⟨_, _, _, _, _, _, _, _, _, _, _, _, _, _, _, rfl⟩

theorem State.onlyPower_mfn (s : State) (m : Mfn) : s.OnlyPower { s with mfn := m } :=
  ⟨_, _, _, _, _, _, _, _, _, _, _, _, _, _, _, rfl⟩

theorem State.raise_onlyPower (s : State) (k : NoticeKind) (d : Bytes) : s.OnlyPower (s.raise k d) := by
  unfold State.raise
  split
  · exact ⟨_, _, _, _, _, _, _, _, _, _, _, _, _, _, _, rfl⟩
  · exact .refl _

theorem State.mark_onlyPower (s : State) (k : MarkKind) (arg : Nat) : s.OnlyPower (s.mark k arg) :=
  ⟨_, _, _, _, _, _, _, _, _, _, _, _, _, _, _, rfl⟩

theorem State.addOwn_onlyPower (s : State) (k : OwnKind) : s.OnlyPower (s.addOwn k) :=
  ⟨_, _, _, _, _, _, _, _, _, _, _, _, _, _, _, rfl⟩

theorem State.OnlyWithdraws.onlyPower {s t : State} (h : s.OnlyWithdraws t) : s.OnlyPower t := by
  obtain ⟨_, _, _, rfl⟩ := h
  exact ⟨_, _, _, _, _, _, _, _, _, _, _, _, _, _, _, rfl⟩

theorem State.askClaim_onlyPower (s : State) : s.OnlyPower s.askClaim := by
  unfold State.askClaim
  split
  · exact (State.onlyPower_psq _ _).trans (State.addOwn_onlyPower _ _)
  · exact .refl _

theorem State.cancelClaim_onlyPower (s : State) : s.OnlyPower s.cancelClaim := by
  unfold State.cancelClaim
  split
  · rename_i c w rest _
    exact (((State.onlyPower_own s rest).trans (State.withdrawStanding_onlyWithdraws _ _).onlyPower).trans
      (State.withdrawStanding_onlyWithdraws _ _).onlyPower).trans
      ((State.onlyPower_psq _ _).trans (State.askClaim_onlyPower _))
  · exact .refl _

theorem State.askRetract_onlyPower (s : State) (k : OwnKind) : s.OnlyPower (s.askRetract k) := by
  unfold State.askRetract
  split
  · exact .refl _
  · dsimp only
    split
    · exact ((State.onlyPower_psq _ _).trans (State.addOwn_onlyPower _ _)).trans (State.cancelClaim_onlyPower _)
    · exact ⟨_, _, _, _, _, _, _, _, _, _, _, _, _, _, _, rfl⟩

theorem State.releaseSlot_onlyPower (s : State) : s.OnlyPower s.releaseSlot := by
  unfold State.releaseSlot
  split
  · exact (State.onlyPower_psq _ _).trans (State.askRetract_onlyPower _ _)
  · exact .refl _

theorem State.withdrawClaim_onlyPower (s : State) : s.OnlyPower s.withdrawClaim := by
  unfold State.withdrawClaim
  split
  · exact (State.onlyPower_psq _ _).trans (State.askRetract_onlyPower _ _)
  · exact .refl _

theorem State.TornDown.onlyPower {s t : State} (h : s.TornDown t) : s.OnlyPower t := by
  rw [h.frame]
  exact ⟨_, _, _, _, _, _, _, _, _, _, _, _, _, _, _, rfl⟩

theorem State.bootOnceTrigger_onlyPower (s : State) (c : DetachCause) : s.OnlyPower (s.bootOnceTrigger c) := by
  unfold State.bootOnceTrigger State.detachTrigger
  split
  · split
    · dsimp only
      split
      · exact (State.onlyPower_mfn s _).trans (State.teardown_tornDown _).onlyPower
      · exact State.onlyPower_mfn s _
    · exact .refl _
  · exact .refl _

theorem State.tellMfn_onlyPower (s : State) (old : Option SeqState) (st : SeqState) : s.OnlyPower (s.tellMfn old st) := by
  unfold State.tellMfn
  split
  · exact State.bootOnceTrigger_onlyPower _ _
  · exact .refl _

theorem State.tellWdu_onlyPower (s : State) (old : Option SeqState) (st : SeqState) : s.OnlyPower (s.tellWdu old st) := by
  unfold State.tellWdu State.wduEntersOn State.wduLeavesOn State.bootDeadline
  (repeat' split) <;> exact State.onlyPower_wdu _ _

theorem State.psqEnter_onlyPower (s : State) (st : SeqState) (var : Variant) (start : Bool) :
    s.OnlyPower (s.psqEnter st var start) := by
  unfold State.psqEnter
  refine ((((?_ : s.OnlyPower _).trans (State.askClaim_onlyPower _)).trans (State.tellMfn_onlyPower _ _ _)).trans
    (State.tellWdu_onlyPower _ _ _)).trans (State.raise_onlyPower _ _ _)
  have release : ∀ (b : Bool) (p : Psq), s.OnlyPower
      (if b = true then ({ s with psq := p } : State).releaseSlot else { s with psq := p }) := by
    intro b p
    split
    · exact (State.onlyPower_psq s p).trans (State.releaseSlot_onlyPower _)
    · exact State.onlyPower_psq s p
  split
  · split
    · exact (release _ _).trans (State.onlyPower_psq _ _)
    · exact (release _ _).trans (State.withdrawClaim_onlyPower _)
  · exact release _ _

/-! ### A retract asked -/

/-- ADM queues a retract of a sequencer that does not await a slot. -/
theorem State.askRetract_retractAsked (s : State) (k : OwnKind) (h : s.psq.state ≠ some .awaitingSlot) :
    s.RetractAsked (s.askRetract k) k where
  silent hs := by simp [State.askRetract, hs]
  member hm hc := by
    unfold State.askRetract
    rw [if_neg (by simp [hm])]
    dsimp only
    rw [if_pos hm]
    unfold State.cancelClaim
    simp [State.addOwn, hc]
  cancel c w rest hm hc := by
    unfold State.askRetract
    rw [if_neg (by simp [hm])]
    dsimp only
    rw [if_pos hm]
    unfold State.cancelClaim
    simp only [State.addOwn, hc]
    simp [State.retractSettled, State.askClaim, h]
  other h1 h2 := by
    unfold State.askRetract
    rw [if_neg h1]
    dsimp only
    rw [if_neg h2]
    simp

theorem State.RetractAsked.congr {s s' t t' : State} {k : OwnKind} (h : s.RetractAsked t k)
    (h1 : t'.psq.retract = t.psq.retract) (h2 : t'.adm = t.adm) (h3 : s'.psq.retract = s.psq.retract)
    (h4 : s'.adm = s.adm) (h5 : s'.ptu = s.ptu) : s'.RetractAsked t' k where
  silent := by rw [h1, h2, h3, h4, h5]; exact h.silent
  member := by rw [h1, h2, h3, h4, h5]; exact h.member
  cancel := by rw [h1, h2, h3, h4, h5]; exact h.cancel
  other  := by rw [h1, h2, h3, h4, h5]; exact h.other

theorem State.SlotReleased.congr {s s' t t' : State} (h : s.SlotReleased t) (h1 : t'.psq.retract = t.psq.retract)
    (h2 : t'.adm = t.adm) (h3 : s'.psq.retract = s.psq.retract) (h4 : s'.adm = s.adm) (h5 : s'.ptu = s.ptu)
    (h6 : s'.psq.slotHeld = s.psq.slotHeld) : s'.SlotReleased t' :=
  ⟨fun k => (h.1 (h6 ▸ k)).congr h1 h2 h3 h4 h5, fun k => by rw [h1, h2, h3, h4]; exact h.2 (h6 ▸ k)⟩

theorem State.askClaim_off (s : State) (h : s.psq.state ≠ some .awaitingSlot) : s.askClaim = s := by
  simp [State.askClaim, h]

/-- Outside AWAITING-SLOT a retract changes PSQ's retract count, ADM's own frames and kept retracts, and the send list. -/
theorem State.askRetract_eq (s : State) (k : OwnKind) (h : s.psq.state ≠ some .awaitingSlot) : ∃ r own kept l g w,
    s.askRetract k = { s with
      psq := { s.psq with retract := r }
      adm := { s.adm with own := own, kept := kept }
      lif := { s.lif with sendList := l, giveBuf := g }
      mctl := { s.mctl with waitSend := w } } := by
  unfold State.askRetract
  split
  · exact ⟨_, _, _, _, _, _, rfl⟩
  · dsimp only
    split
    · unfold State.cancelClaim
      split
      · rename_i c w rest _
        unfold State.retractSettled
        rw [State.askClaim_off]
        · obtain ⟨a, b, d, e1⟩ := State.withdrawStanding_onlyWithdraws ({ (({ s with psq := { s.psq with
            retract := s.psq.retract + 1 } } : State).addOwn k) with adm := { (({ s with psq := { s.psq with
            retract := s.psq.retract + 1 } } : State).addOwn k).adm with own := rest } } : State) c.standing
          obtain ⟨a', b', d', e2⟩ := State.withdrawStanding_onlyWithdraws (({ (({ s with psq := { s.psq with
            retract := s.psq.retract + 1 } } : State).addOwn k) with adm := { (({ s with psq := { s.psq with
            retract := s.psq.retract + 1 } } : State).addOwn k).adm with own := rest } } : State).withdrawStanding
            c.standing) w.standing
          rw [e2, e1]
          exact ⟨_, _, _, _, _, _, rfl⟩
        · simp [State.addOwn, h]
      · exact ⟨_, _, _, _, _, _, rfl⟩
    · exact ⟨_, _, _, _, _, _, rfl⟩

/-- The release of the slot outside AWAITING-SLOT. -/
theorem State.releaseSlot_eq (s : State) (h : s.psq.state ≠ some .awaitingSlot)
    (hs : s.psq.settleT.isSome → s.psq.slotHeld = true) : ∃ r own kept l g w,
    s.releaseSlot = { s with
      psq := { s.psq with slotHeld := false, settleT := none, retract := r }
      adm := { s.adm with own := own, kept := kept }
      lif := { s.lif with sendList := l, giveBuf := g }
      mctl := { s.mctl with waitSend := w } } ∧ s.SlotReleased s.releaseSlot := by
  unfold State.releaseSlot
  split
  · rename_i hh
    obtain ⟨r, own, kept, l, g, w, e⟩ :=
      State.askRetract_eq ({ s with psq := { s.psq with slotHeld := false, settleT := none } } : State) .release h
    refine ⟨r, own, kept, l, g, w, e, fun _ => ?_, fun k => absurd hh (by simp [k])⟩
    have a := State.askRetract_retractAsked ({ s with psq := { s.psq with slotHeld := false, settleT := none } } : State)
      .release h
    exact ⟨a.silent, a.member, a.cancel, a.other⟩
  · rename_i hh
    have h1 : s.psq.settleT = none := by
      cases e : s.psq.settleT with
      | none => rfl
      | some t => exact absurd (hs (by simp [e])) hh
    refine ⟨s.psq.retract, s.adm.own, s.adm.kept, s.lif.sendList, s.lif.giveBuf, s.mctl.waitSend, ?_, fun k => absurd k hh,
      fun _ => ⟨rfl, rfl⟩⟩
    simp only [Bool.not_eq_true] at hh
    rw [← h1, ← hh]

/-- The withdraw of the claim on leaving AWAITING-SLOT. -/
theorem State.withdrawClaim_eq (s : State) (h : s.psq.state ≠ some .awaitingSlot) : ∃ r own kept l g w,
    s.withdrawClaim = { s with
      psq := { s.psq with claimAsked := false, retract := r }
      adm := { s.adm with own := own, kept := kept }
      lif := { s.lif with sendList := l, giveBuf := g }
      mctl := { s.mctl with waitSend := w } } ∧
    (s.psq.claimAsked = true → s.RetractAsked s.withdrawClaim .withdraw) ∧
    (s.psq.claimAsked = false → s.withdrawClaim.psq.retract = s.psq.retract ∧ s.withdrawClaim.adm = s.adm) := by
  unfold State.withdrawClaim
  split
  · rename_i hh
    obtain ⟨r, own, kept, l, g, w, e⟩ :=
      State.askRetract_eq ({ s with psq := { s.psq with claimAsked := false } } : State) .withdraw h
    refine ⟨r, own, kept, l, g, w, e, fun _ => ?_, fun k => absurd hh (by simp [k])⟩
    have a := State.askRetract_retractAsked ({ s with psq := { s.psq with claimAsked := false } } : State) .withdraw h
    exact ⟨a.silent, a.member, a.cancel, a.other⟩
  · rename_i hh
    refine ⟨s.psq.retract, s.adm.own, s.adm.kept, s.lif.sendList, s.lif.giveBuf, s.mctl.waitSend, ?_, fun k => absurd k hh,
      fun _ => ⟨rfl, rfl⟩⟩
    simp only [Bool.not_eq_true] at hh
    rw [← hh]

/-- MFN's part in the server's going off. -/
theorem State.bootOnceTrigger_ends (s : State) : s.BootOnceEnds (s.bootOnceTrigger .powerOff) := by
  unfold State.bootOnceTrigger State.detachTrigger
  dsimp only
  refine ⟨fun ⟨h1, h2, h3⟩ hr => ?_, fun ⟨h1, h2, h3⟩ hr => ?_, fun h => ?_⟩
  · rw [if_pos h1, if_pos (by simp [h2, h3]), if_neg (by simpa using Option.isSome_iff_ne_none.mp hr)]
    exact ⟨rfl, rfl, rfl, rfl⟩
  · rw [if_pos h1, if_pos (by simp [h2, h3]), if_pos (by simp [hr])]
    refine ⟨_, ?_, rfl, rfl, rfl, rfl⟩
    have hn : ∀ t : State, t.teardown.now = t.now := fun t => by rw [(State.teardown_tornDown t).frame]
    simp only [hn]
    exact State.teardown_tornDown _
  · split
    · rename_i h1
      rw [if_neg (by simpa using fun h2 h3 => h ⟨h1, h2, h3⟩)]
      exact ⟨rfl, rfl, rfl, rfl⟩
    · exact ⟨rfl, rfl, rfl, rfl⟩

/-- A teardown reads and leaves MFN, the pool, the wants and the waiting transfers, whatever the other blocks hold. -/
theorem State.TornDown.congr {s s' v : State} (h : s.TornDown v) (h1 : s'.mfn = s.mfn) (h2 : s'.lpm = s.lpm)
    (h3 : s'.xch = s.xch) (h4 : s'.mctl.waitMedia = s.mctl.waitMedia) :
    ∃ v', s'.TornDown v' ∧ v'.mfn = v.mfn ∧ v'.lpm = v.lpm ∧ v'.xch = v.xch ∧
      v'.mctl.waitMedia = v.mctl.waitMedia := by
  have hw := s'.withdrawWants_withdrawn (s'.xch.wants.filter (fun w => w.ofImage s'.mfn.image s'.mfn.gen))
  obtain ⟨l, g, x, e⟩ := s'.withdrawWants_onlyWithdraws (s'.xch.wants.filter (fun w => w.ofImage s'.mfn.image s'.mfn.gen))
  rw [e] at hw
  refine ⟨{ s' with
    lif := { s'.lif with sendList := l, giveBuf := g }
    mfn := v.mfn, lpm := v.lpm, xch := v.xch
    mctl := { s'.mctl with waitMedia := v.mctl.waitMedia, waitSend := x } }, ⟨?_, ?_, hw, ?_⟩, rfl, rfl, rfl, rfl⟩
  · have := h.frame; rw [h1, h2, h3]; rw [this]
  · rw [h1, h3]; exact h.wants
  · rw [h1, h2, h3, h4]; exact h.lines

theorem State.BootOnceEnds.congr {s s' t t' : State} (h : s.BootOnceEnds t) (h1 : s'.mfn = s.mfn) (h2 : s'.lpm = s.lpm)
    (h3 : s'.xch = s.xch) (h4 : s'.mctl.waitMedia = s.mctl.waitMedia) (k0 : t'.now = t.now) (k1 : t'.mfn = t.mfn)
    (k2 : t'.lpm = t.lpm) (k3 : t'.xch = t.xch) (k4 : t'.mctl.waitMedia = t.mctl.waitMedia) : s'.BootOnceEnds t' := by
  obtain ⟨a, b, c⟩ := h
  refine ⟨fun hd hr => ?_, fun hd hr => ?_, fun hd => ?_⟩
  · obtain ⟨e1, e2, e3, e4⟩ := a (by rw [← h1]; exact hd) (by rw [← h1]; exact hr)
    exact ⟨by rw [k0, k1, e1, h1], by rw [k2, e2, h2], by rw [k3, e3, h3], by rw [k4, e4, h4]⟩
  · obtain ⟨v, ht, e1, e2, e3, e4⟩ := b (by rw [← h1]; exact hd) (by rw [← h1]; exact hr)
    obtain ⟨v', hv, f1, f2, f3, f4⟩ := ht.congr
      (s' := { s' with now := t'.now, mfn := { s'.mfn with cause := some .powerOff, drain := some (after t'.now 2000) } })
      (by rw [k0, h1]) h2 h3 h4
    exact ⟨v', hv, by rw [k1, e1, f1], by rw [k2, e2, f2], by rw [k3, e3, f3], by rw [k4, e4, f4]⟩
  · obtain ⟨e1, e2, e3, e4⟩ := c (by rw [← h1]; exact hd)
    exact ⟨by rw [k1, e1, h1], by rw [k2, e2, h2], by rw [k3, e3, h3], by rw [k4, e4, h4]⟩

theorem State.wduEntersOn_eq (s : State) : s.wduEntersOn = { s with wdu := { s.wdu with
    early := 0
    lastBeat := none
    holdoff := false
    deadline := if s.wdu.armed then some (after s.now (sec s.wdu.bootAllowance)) else s.wdu.deadline
    phase := if s.wdu.armed then .boot else s.wdu.phase } } := by
  unfold State.wduEntersOn State.bootDeadline
  by_cases h : s.wdu.armed = true <;> simp [h]

/-! ### Entry to a state -/

/-- PSQ's record on entry to a state, ADM's part apart. -/
def State.entering (s : State) (st : SeqState) (var : Variant) : Psq :=
  { ({ s with psq := (s.psq.leave.restOnEntry st) } : State).entryTimer st with state := some st, variant := var }

@[simp] theorem State.entering_keeps (s : State) (st : SeqState) (var : Variant) :
    (s.entering st var).state = some st ∧ (s.entering st var).variant = var ∧
    (s.entering st var).pendingAct = s.psq.pendingAct ∧ (s.entering st var).slotHeld = s.psq.slotHeld ∧
    (s.entering st var).claimAsked = s.psq.claimAsked ∧ (s.entering st var).retract = s.psq.retract ∧
    (s.entering st var).settleT = s.psq.settleT ∧ (s.entering st var).resetPulse = s.psq.resetPulse ∧
    (s.entering st var).press = s.psq.press ∧ (s.entering st var).feedClosed = s.psq.feedClosed ∧
    (s.entering st var).pgood = s.psq.pgood := by
  unfold State.entering State.entryTimer Psq.restOnEntry Psq.leave
  (repeat' split) <;> simp

/-- The server goes off: from STARTING, ON, STOPPING or FORCING to a state without power, the slot is released. -/
theorem State.psqEnter_goesOff (s : State) (old st : SeqState) (var : Variant) (start : Bool)
    (hold : s.psq.state = some old) (hr : old.isRunning = true ∨ old = .starting) (hoff : st.isOff = true)
    (hne : st ≠ .awaitingSlot) (hs : s.psq.settleT.isSome → s.psq.slotHeld = true) : ∃ r own kept l g w,
    let t : State := { s with
      psq := { s.entering st var with slotHeld := false, settleT := none, retract := r }
      adm := { s.adm with own := own, kept := kept }
      lif := { s.lif with sendList := l, giveBuf := g }
      mctl := { s.mctl with waitSend := w } }
    s.SlotReleased t ∧ s.psqEnter st var start =
      ((t.tellMfn (some old) st).tellWdu (some old) st).raise .powerState [st.code, var.code, s.psq.pendingAct.code, 0] := by
  obtain ⟨r, own, kept, l, g, w, e, hrel⟩ := State.releaseSlot_eq ({ s with psq := s.entering st var } : State)
    (by simp [hne]) (by simpa using hs)
  have ha : old ≠ .awaitingSlot := by rintro rfl; simp [SeqState.isRunning] at hr
  have e2 : s.psqEnter st var start =
      (((({ s with psq := s.entering st var } : State).releaseSlot.tellMfn (some old) st).tellWdu (some old) st).raise
        .powerState (({ s with psq := s.entering st var } : State).releaseSlot.tellMfn (some old) st).psq.bytes) := by
    unfold State.psqEnter
    have h1 : (st.isOff && ((some old).any SeqState.isRunning || Decidable.decide (some old = some SeqState.starting))) = true := by
      rcases hr with hr | hr <;> simp [hoff, hr]
    simp only [hold, h1, if_true]
    rw [if_neg (by simp [ha])]
    rw [State.askClaim_off _ (by
      have := (State.releaseSlot_asked ({ s with psq := s.entering st var } : State)).state
      show (({ s with psq := s.entering st var } : State).releaseSlot).psq.state ≠ _
      rw [this]; simp [hne])]
    simp only [State.tellWdu_keeps]
    rfl
  rw [e2, e]
  refine ⟨r, own, kept, l, g, w, ⟨fun h => ?_, fun h => ?_⟩, ?_⟩
  · have a := hrel.1 (by simpa using h)
    rw [e] at a
    exact ⟨by simpa using a.silent, by simpa using a.member, by simpa using a.cancel, by simpa using a.other⟩
  · have a := hrel.2 (by simpa using h)
    rw [e] at a
    simpa using a
  · simp [Psq.bytes, seqCode, flag]

/-- PSQ leaves AWAITING-SLOT without a grant: the claim is withdrawn. -/
theorem State.psqEnter_leavesAwaiting (s : State) (st : SeqState) (var : Variant) (hold : s.psq.state = some .awaitingSlot)
    (hne : st ≠ .awaitingSlot) : ∃ r own kept l g w,
    let t : State := { s with
      psq := { s.entering st var with claimAsked := false, retract := r }
      adm := { s.adm with own := own, kept := kept }
      lif := { s.lif with sendList := l, giveBuf := g }
      mctl := { s.mctl with waitSend := w } }
    (s.psq.claimAsked = true → s.RetractAsked t .withdraw) ∧
    (s.psq.claimAsked = false → t.psq.retract = s.psq.retract ∧ t.adm = s.adm) ∧
    s.psqEnter st var = (t.tellWdu (some .awaitingSlot) st).raise .powerState
      [st.code, var.code, s.psq.pendingAct.code, flag s.psq.slotHeld] := by
  obtain ⟨r, own, kept, l, g, w, e, h1, h2⟩ := State.withdrawClaim_eq ({ s with psq := s.entering st var } : State)
    (by simp [hne])
  have e2 : s.psqEnter st var = (({ s with psq := s.entering st var } : State).withdrawClaim.tellWdu
      (some .awaitingSlot) st).raise .powerState ({ s with psq := s.entering st var } : State).withdrawClaim.psq.bytes := by
    unfold State.psqEnter
    have h0 : (st.isOff && ((some SeqState.awaitingSlot).any SeqState.isRunning ||
        Decidable.decide (some SeqState.awaitingSlot = some SeqState.starting))) = false := by simp [SeqState.isRunning]
    simp only [hold, h0, Bool.false_eq_true, if_false, if_true]
    have hst : (({ s with psq := s.entering st var } : State).withdrawClaim).psq.state ≠ some .awaitingSlot := by
      rw [e]; simp [hne]
    rw [State.askClaim_off _ (by
      show (({ s with psq := s.entering st var } : State).withdrawClaim).psq.state ≠ _
      exact hst)]
    have hm : ∀ t : State, t.tellMfn (some .awaitingSlot) st = t := by
      intro t; simp [State.tellMfn, SeqState.isRunning]
    rw [hm]
    simp only [State.tellWdu_keeps]
    rfl
  rw [e2, e]
  refine ⟨r, own, kept, l, g, w, fun h => ?_, fun h => ?_, ?_⟩
  · have a := h1 (by simpa using h)
    rw [e] at a
    exact ⟨by simpa using a.silent, by simpa using a.member, by simpa using a.cancel, by simpa using a.other⟩
  · have a := h2 (by simpa using h)
    rw [e] at a
    simpa using a
  · simp [Psq.bytes, seqCode]

/-- Entry to a state other than AWAITING-SLOT that neither gives up a slot nor leaves AWAITING-SLOT. -/
theorem State.psqEnter_plain (s : State) (st : SeqState) (var : Variant) (start : Bool)
    (hold : s.psq.state ≠ some .awaitingSlot) (hne : st ≠ .awaitingSlot)
    (hr : (st.isOff && (s.psq.state.any SeqState.isRunning || Decidable.decide (s.psq.state = some .starting))) = false) :
    s.psqEnter st var start = (({ s with psq := s.entering st var } : State).tellWdu s.psq.state st).raise .powerState
      [st.code, var.code, s.psq.pendingAct.code, flag s.psq.slotHeld] := by
  unfold State.psqEnter
  simp only [hr]
  rw [if_neg hold, if_neg (by simp)]
  rw [State.askClaim_off _ (by simp [hne])]
  have hm : ∀ t : State, t.tellMfn s.psq.state st = t := by
    intro t; unfold State.tellMfn; rw [if_neg]; revert hr; cases st.isOff <;> simp; tauto
  rw [hm]
  simp only [State.tellWdu_keeps]
  show State.raise _ _ (s.entering st var).bytes = _
  simp [Psq.bytes, seqCode]
  rfl

/-! ### The grant (R16, R17) -/

/-- A retract asked in MEMBER that cancels no claim: the entry joins the list and the count goes up (R5, R43). -/
theorem State.askRetract_member (s : State) (k : OwnKind) (hm : s.ptu.state = .member)
    (hc : cancelPair (s.adm.ownWith [{ kind := k }]) = none) :
    s.askRetract k = { s with
      psq := { s.psq with retract := s.psq.retract + 1 }, adm := { s.adm with own := s.adm.ownWith [{ kind := k }] } } := by
  have : cancelPair (List.take 4 (s.adm.own ++ [{ kind := k }])) = none := hc
  simp [State.askRetract, hm, State.addOwn, State.cancelClaim, Adm.ownWith, this]

/-- A claim of the POWER-ON variant granted in MEMBER: the slot is held and a press pulse begins the start. -/
theorem State.granted_powerOn (s : State) (hm : s.ptu.state = .member) (h1 : s.psq.state = some .awaitingSlot)
    (h2 : s.psq.claimAsked = true) (h3 : s.psq.variant ≠ .feedRestore) :
    s.granted = { s with
      psq := { s.psq with
        state := some .starting, slotHeld := true, claimAsked := false, variant := .powerOn
        press := .pulse (after s.now 200), startT := some (after s.now (1000 * s.setting Settings.startLimit)) }
      ntu := s.ntu.raise s.now .powerState [6, 1, s.psq.pendingAct.code, 1] } := by
  simp [State.granted, h1, h2, h3, State.pressPulse, State.psqEnter, Psq.leave, Psq.restOnEntry, State.entryTimer,
    SeqState.isOff, State.askClaim, State.tellMfn, State.tellWdu, State.raise, State.takesRaises, hm, Psq.bytes,
    State.setting, sec, seqCode, SeqState.code, Variant.code, flag]

/-- PSQ in STARTING of the FEED-RESTORE variant, as its grant leaves it before PGOOD is looked at. -/
def State.restoring (s : State) : State := { s with
  psq := { s.psq with
    state := some .starting, slotHeld := true, claimAsked := false, feedClosed := true
    startT := some (after s.now (1000 * s.setting Settings.startLimit)) }
  ccu := s.ccu.addMark s.now .feedRestored 0
  ntu := s.ntu.raise s.now .powerState [6, 2, s.psq.pendingAct.code, 1] }

/-- A claim of the FEED-RESTORE variant granted in MEMBER: the feed is closed, and the start is over where PGOOD is
already active. -/
theorem State.granted_restore (s : State) (hm : s.ptu.state = .member) (h1 : s.psq.state = some .awaitingSlot)
    (h2 : s.psq.claimAsked = true) (h3 : s.psq.variant = .feedRestore) :
    s.granted = if s.psq.pgood then s.restoring.startedOn else s.restoring := by
  have e : ∀ a b : State, a = b → (if a.psq.pgood then a.startedOn else a) = if b.psq.pgood then b.startedOn else b :=
    fun a b h => by rw [h]
  have : s.restoring.psq.pgood = s.psq.pgood := rfl
  rw [← this]
  simp only [State.granted, h1, h2, h3, decide_true, Bool.and_self, if_true]
  refine e _ _ ?_
  simp [State.restoring, h3, State.setFeed, State.mark, State.psqEnter, Psq.leave, Psq.restOnEntry, State.entryTimer,
    SeqState.isOff, State.askClaim, State.tellMfn, State.tellWdu, State.raise, State.takesRaises, hm, Psq.bytes,
    State.setting, sec, seqCode, SeqState.code, Variant.code, flag]

/-- The admitted start of a restored feed ends at once, its settle timer running or its slot released (R17). -/
theorem State.restoring_startedOn (s : State) (hm : s.ptu.state = .member)
    (hc : s.setting Settings.settle = 0 → cancelPair (s.adm.ownWith [{ kind := .release }]) = none) :
    s.restoring.startedOn = { s with
      adm := { s.adm with
        own := if s.setting Settings.settle = 0 then s.adm.ownWith [{ kind := .release }] else s.adm.own }
      psq := { s.psq with
        state := some .on, variant := .none, pendingAct := .none, claimAsked := false, feedClosed := true, startT := none
        young := true, youngT := some (after s.now (1000 * s.setting Settings.young)), restPhase := .none, restT := none
        slotHeld := s.setting Settings.settle ≠ 0
        settleT :=
          if s.setting Settings.settle = 0 then none else some (after s.now (1000 * s.setting Settings.settle))
        retract := if s.setting Settings.settle = 0 then s.psq.retract + 1 else s.psq.retract }
      ntu := (s.ntu.raise s.now .powerState [6, 2, s.psq.pendingAct.code, 1]).raise s.now .powerState [7, 0, 0, 1]
      ccu := (s.ccu.addMark s.now .feedRestored 0).addMark s.now .powerOn 0
      wdu := { s.wdu with
        early := 0, lastBeat := none, holdoff := false
        deadline := if s.wdu.armed then some (after s.now (1000 * s.wdu.bootAllowance)) else s.wdu.deadline
        phase := if s.wdu.armed then .boot else s.wdu.phase } } := by
  have hc' : s.setting Settings.settle = 0 → cancelPair (List.take 4 (s.adm.own ++ [{ kind := OwnKind.release }])) = none := hc
  by_cases hz : s.setting Settings.settle = 0
  all_goals
    first | have hk := hc' hz | skip
    simp only [State.setting] at hz
    simp [State.restoring, State.startedOn, State.setPending, State.mark, State.psqEnter, Psq.leave, Psq.restOnEntry,
      State.entryTimer, SeqState.isOff, State.askClaim, State.tellMfn, State.tellWdu, State.wduEntersOn,
      State.bootDeadline, State.raise, State.takesRaises, Psq.bytes, State.setting, sec, seqCode, SeqState.code,
      Variant.code, PendingAct.code, flag, State.startYoung, State.releaseSlot, State.askRetract, State.addOwn,
      Adm.ownWith, State.cancelClaim, *]
    split <;> simp

/-- A grant in any other condition asks a release (R16). -/
theorem State.granted_refused (s : State) (h : ¬ (s.psq.state = some .awaitingSlot ∧ s.psq.claimAsked = true)) :
    s.granted = s.askRetract .release := by
  unfold State.granted
  rw [if_neg (by simpa using h)]

/-- Everything a grant does in MEMBER where the release it may ask cancels no claim. -/
theorem State.granted_taken (s : State) (hm : s.ptu.state = .member)
    (hc : s.grantReleases = true → cancelPair (s.adm.ownWith [{ kind := .release }]) = none) :
    s.GrantTaken s.granted ∧ s.granted = { s with
      adm := { s.adm with own := if s.grantReleases then s.adm.ownWith [{ kind := .release }] else s.adm.own }
      psq := s.granted.psq, wdu := s.granted.wdu, ccu := s.granted.ccu, ntu := s.granted.ntu } := by
  by_cases ha : s.psq.state = some .awaitingSlot ∧ s.psq.claimAsked = true
  · obtain ⟨a1, a2⟩ := ha
    have hno : ¬ (s.psq.state ≠ some .awaitingSlot ∨ s.psq.claimAsked = false) := by simp [a1, a2]
    by_cases hv : s.psq.variant = .feedRestore
    · cases hp : s.psq.pgood
      · have hg : s.grantReleases = false := by simp [State.grantReleases, a1, a2, hv, hp]
        have he : s.granted = s.restoring := by simp [s.granted_restore hm a1 a2 hv, hp]
        refine ⟨⟨fun _ _ h => by simp [hv] at h, fun _ _ _ _ => ?_, fun _ _ _ h => by simp [hp] at h,
          fun h => absurd h hno⟩, ?_⟩
        · rw [he]; simp [State.restoring, State.raise, State.takesRaises, hm]
        · rw [he]; simp [State.restoring, hg]
      · have hg : s.grantReleases = Decidable.decide (s.setting Settings.settle = 0) := by
          simp [State.grantReleases, a1, a2, hv, hp]
        have he := s.restoring_startedOn hm (fun h => hc (by simp [hg, h]))
        have hr : s.granted = s.restoring.startedOn := by simp [s.granted_restore hm a1 a2 hv, hp]
        rw [← hr] at he
        refine ⟨⟨fun _ _ h => by simp [hv] at h, fun _ _ _ h => by simp [hp] at h, fun _ _ _ _ _ => ?_,
          fun h => absurd h hno⟩, ?_⟩
        · rw [he]; simp [State.raise, State.takesRaises, hm]
        · rw [he]; simp [hg]
    · have hg : s.grantReleases = false := by simp [State.grantReleases, a1, a2, hv]
      have he := s.granted_powerOn hm a1 a2 hv
      refine ⟨⟨fun _ _ h => ?_, fun _ _ h => absurd h hv, fun _ _ h => absurd h hv, fun h => absurd h hno⟩, ?_⟩
      · rw [he]; simp [State.raise, State.takesRaises, hm, h]
      · rw [he]; simp [hg]
  · have hg : s.grantReleases = true := by
      by_cases a1 : s.psq.state = some .awaitingSlot
      · have : s.psq.claimAsked = false := by simpa [a1] using ha
        simp [State.grantReleases, this]
      · simp [State.grantReleases, a1]
    have he : s.granted = _ := (s.granted_refused ha).trans (s.askRetract_member .release hm (hc hg))
    refine ⟨⟨fun h1 h2 => absurd ⟨h1, h2⟩ ha, fun h1 h2 => absurd ⟨h1, h2⟩ ha, fun h1 h2 => absurd ⟨h1, h2⟩ ha,
      fun _ _ => ?_⟩, ?_⟩
    · rw [he]; simp
    · rw [he]; simp [hg]

end Sys2Proof.Machine
end

