-- ==== Sys2Proof/Laws/Matches.lean ====
section
/-! SUPPORT. All that a mark, a captured byte, a watchdog expiry and the delivery of a match do (R52 to R66, R88 to R94,
R117). -/

namespace Sys2Proof.Machine

/-! ### Marks -/

/-- The newest 64 of a list whose newest 64 are extended. -/
theorem newest_append {α : Type} (l k : List α) :
    ((l.drop (l.length - 64)) ++ k).drop (((l.drop (l.length - 64)) ++ k).length - 64) =
      (l ++ k).drop ((l ++ k).length - 64) := by
  have h1 : (l.drop (l.length - 64)) ++ k = (l ++ k).drop (l.length - 64) :=
    (List.drop_append_of_le_length (by omega)).symm
  rw [h1, List.drop_drop]
  refine congrArg (fun n => List.drop n (l ++ k)) ?_
  rw [List.length_drop, List.length_append]
  generalize l.length = a, k.length = b
  omega

theorem Ccu.marksWith_length (c : Ccu) (l : List Mark) : (c.marksWith l).length ≤ 64 := by
  unfold Ccu.marksWith; rw [List.length_drop]; omega

theorem Ccu.marksWith_nil (c : Ccu) (h : c.marks.length ≤ 64) : c.marksWith [] = c.marks := by
  unfold Ccu.marksWith
  rw [List.append_nil, Nat.sub_eq_zero_of_le h, List.drop_zero]

/-- A mark added to at most 64 (R58). -/
theorem Ccu.putMark_eq (c : Ccu) (now : Time) (kind : MarkKind) (arg : Nat) (h : c.marks.length ≤ 64) :
    c.putMark now kind arg = { c with
      marks := c.marksWith [{ offset := c.captured, number := c.markCounter, kind := kind, time := now, arg := arg }]
      markCounter := c.markCounter + 1
      run := if kind = .breakIn ∨ kind = .lost ∨ kind = .started then 0 else c.run } := by
  have hm : ∀ a : Mark, (if c.marks.length < 64 then c.marks else c.marks.drop 1) ++ [a] = c.marksWith [a] := by
    intro a
    unfold Ccu.marksWith
    split
    · rw [Nat.sub_eq_zero_of_le (by simp only [List.length_append, List.length_singleton]; omega), List.drop_zero]
    · rw [show (c.marks ++ [a]).length - 64 = 1 by simp only [List.length_append, List.length_singleton]; omega,
        List.drop_append_of_le_length (by omega)]
  unfold Ccu.putMark
  rw [hm]
  congr 1
  simp only [Bool.or_eq_true, decide_eq_true_eq, or_assoc]

theorem Ccu.putLost_eq (c : Ccu) (now : Time) (h : c.marks.length ≤ 64) (hl : c.lost ≠ 0) : c.putLost now = { c with
    marks := c.marksWith [{ offset := c.captured, number := c.markCounter, kind := .lost, time := now, arg := c.lost }]
    markCounter := c.markCounter + 1, lost := 0, run := 0 } := by
  rw [Ccu.putLost, if_neg hl, Ccu.putMark_eq _ _ _ _ h]
  simp

theorem Ccu.putGarbled_eq (c : Ccu) (now : Time) (h : c.marks.length ≤ 64) (hl : c.garbled ≠ 0) : c.putGarbled now = { c with
    marks := c.marksWith [{ offset := c.captured, number := c.markCounter, kind := .garbled, time := now, arg := c.garbled }]
    markCounter := c.markCounter + 1, garbled := 0 } := by
  rw [Ccu.putGarbled, if_neg hl, Ccu.putMark_eq _ _ _ _ h]
  simp

/-- The loss marks as they are written (R53): the list's newest 64, the counts 0, the run cleared by a LOST mark. -/
theorem Ccu.putLosses_eq (c : Ccu) (now : Time) (h : c.marks.length ≤ 64) : c.putLosses now = { c with
    marks := c.marksWith (c.owedMarks now)
    markCounter := c.markCounter + BitVec.ofNat 32 (c.owedMarks now).length
    lost := 0, garbled := 0, run := if c.lost = 0 then c.run else 0 } := by
  have add2 : c.markCounter + 1#32 + 1#32 = c.markCounter + 2#32 := by rw [BitVec.add_assoc]; rfl
  have hz := c.marksWith_nil h
  unfold Ccu.putLosses
  by_cases hl : c.lost = 0 <;> by_cases hg : c.garbled = 0 <;> cases ho : c.lossOrder
  · have : (c.putLost now).putGarbled now = c := by simp [Ccu.putLost, Ccu.putGarbled, hl, hg]
    dsimp only; rw [this]; rcases c with ⟨⟩; simp_all [Ccu.owedMarks]
  · have : (c.putGarbled now).putLost now = c := by simp [Ccu.putLost, Ccu.putGarbled, hl, hg]
    dsimp only; rw [this]; rcases c with ⟨⟩; simp_all [Ccu.owedMarks]
  · have : c.putLost now = c := by simp [Ccu.putLost, hl]
    dsimp only; rw [this, c.putGarbled_eq now h hg]; simp [Ccu.owedMarks, hl, hg, ho]
  · dsimp only; rw [c.putGarbled_eq now h hg]; simp [Ccu.owedMarks, Ccu.putLost, hl, hg, ho]
  · dsimp only; rw [c.putLost_eq now h hl]; simp [Ccu.owedMarks, Ccu.putGarbled, hl, hg, ho]
  · have : c.putGarbled now = c := by simp [Ccu.putGarbled, hg]
    dsimp only; rw [this, c.putLost_eq now h hl]; simp [Ccu.owedMarks, hl, hg, ho]
  · dsimp only
    rw [c.putLost_eq now h hl, Ccu.putGarbled_eq _ now (c.marksWith_length _) (by exact hg)]
    simp only [Ccu.marksWith, newest_append, List.append_assoc]
    simp [Ccu.owedMarks, hl, hg, ho, add2]
  · dsimp only
    rw [c.putGarbled_eq now h hg, Ccu.putLost_eq _ now (c.marksWith_length _) (by exact hl)]
    simp only [Ccu.marksWith, newest_append, List.append_assoc]
    simp [Ccu.owedMarks, hl, hg, ho, add2]

/-- All that asking a mark does (R57, R58, R65). -/
theorem Ccu.addMark_marked (c : Ccu) (now : Time) (kind : MarkKind) (arg : Nat) : c.Marked (c.addMark now kind arg) now kind arg where
  stopped h := by simp [Ccu.addMark, h]
  added h hm := by
    have hc : (c.putLosses now).captured = c.captured := by rw [c.putLosses_eq now hm]
    rw [Ccu.addMark, if_pos h, c.putLosses_eq now hm, Ccu.putMark_eq _ _ _ _ (c.marksWith_length _)]
    simp only [Ccu.marksWith, newest_append, List.append_assoc]
    congr 1
    by_cases hl : c.lost = 0 <;> simp [hl]

/-! ### A byte captured -/

/-- A good byte with room in the buffer: captured, and its matches delivered (R52). -/
theorem State.goodByte_eq (s : State) (b : Byte) (hb : s.ccu.buffer.length < 64) (hm : s.ccu.marks.length ≤ 64) :
    s.goodByte b = (s.withByte b).deliverMatches := by
  rw [State.goodByte, if_pos hb, Ccu.putLosses_eq _ _ hm]
  congr 1

/-- The entries that match at a byte just captured are those whose match it completes (R64). -/
theorem State.matchesEntry_iff (s : State) (b : Byte) (k : Nat) (p : Pattern) :
    (s.withByte b).patterns[k]? = some p ∧ (s.withByte b).ccu.matchesEntry p = true ↔ s.CompletesMatch b k p := by
  have hp : (s.withByte b).patterns = s.patterns := rfl
  have hr : (s.withByte b).ccu.run = min 32 ((if s.ccu.lost = 0 then s.ccu.run else 0) + 1) := rfl
  have hw : (s.withByte b).ccu.window = (s.ccu.window ++ [b]).drop ((s.ccu.window ++ [b]).length - 32) := rfl
  rw [hp]
  unfold State.CompletesMatch Ccu.matchesEntry
  rw [hr, hw]
  generalize s.ccu.window ++ [b] = w
  generalize (if s.ccu.lost = 0 then s.ccu.run else 0) + 1 = r
  refine and_congr_right fun _ => ?_
  simp only [Bool.and_eq_true, decide_eq_true_eq, and_assoc, List.length_pos_iff]
  refine and_congr_right fun _ => and_congr_right fun hl => ?_
  have h32 : p.text.length ≤ 32 := hl.trans (Nat.min_le_left _ _)
  constructor
  · intro h
    have h1 : w.drop (w.length - 32) <:+ w := List.drop_suffix _ _
    have h2 : p.text <:+ w.drop (w.length - 32) := by
      conv => lhs; rw [← h]
      exact List.drop_suffix _ _
    exact h2.trans h1
  · intro h
    have hle := h.length_le
    rw [List.drop_drop]
    have : w.length - 32 + ((w.drop (w.length - 32)).length - p.text.length) = w.length - p.text.length := by
      rw [List.length_drop]; omega
    rw [this]
    exact (List.suffix_iff_eq_drop.mp h).symm

/-! ### The watchdog -/

/-- PSQ enters FORCING from ON with POWER-ON pending: the CYCLE that WDU asks (R12, R94). -/
theorem State.cycleOn_eq (s : State) (h : s.psq.state = some .on) : (s.setPending .powerOn).beginForcing = { s with
    psq := { s.psq with
      state := some .forcing, variant := .none, pendingAct := .powerOn, press := .long (after s.now 6000)
      forceT := some (after s.now (1000 * s.setting Settings.force))
      young := false, youngT := none, deferred := .none, restPhase := .none, restT := none }
    wdu := { s.wdu with deadline := none }
    ntu := (s.raise .powerState [9, 0, 1, flag s.psq.slotHeld]).ntu } := by
  unfold State.beginForcing
  rw [State.psqEnter_plain _ _ _ _ (by simp [State.longPress, State.setPending, h]) (by simp) (by rfl), State.raise_eq]
  simp [State.longPress, State.setPending, State.entering, h, Psq.leave, Psq.restOnEntry, State.entryTimer, State.tellWdu,
    State.wduLeavesOn, State.raise_ntu, State.takesRaises, State.setting, sec, SeqState.code, Variant.code, PendingAct.code]

/-- An expiry up to its request (R90, steps 1 to 3). -/
def State.expiryNoted (s : State) (cause : Nat) (response : Nat) : State :=
  let count := min 2 (s.wdu.expiry + 1)
  { s with
    wdu := { s.wdu with expiry := count }
    ccu := s.ccu.addMark s.now .watchdog (3 * (cause - 1) + response - 1)
    ntu := (s.raise .watchdogExpired [byte cause, byte response, byte count]).ntu }

theorem State.watchdogExpiry_eq (s : State) (cause : Nat) (response : FaultAction)
    (h : ({ s.wdu with expiry := min 2 (s.wdu.expiry + 1) } : Wdu).response = response) :
    s.watchdogExpiry cause =
      let answer := (s.expiryNoted cause response.code.toNat).faultRequest 1 response
      if answer.1 then answer.2 else answer.2.runDeadline := by
  unfold State.watchdogExpiry
  simp only [h]
  have : ((({ s with wdu := { s.wdu with expiry := min 2 (s.wdu.expiry + 1) } } : State).mark .watchdog
      (3 * (cause - 1) + (response.code.toNat - 1))).raise .watchdogExpired
        [byte cause, response.code, byte (min 2 (s.wdu.expiry + 1))]) = s.expiryNoted cause response.code.toNat := by
    rw [State.raise_eq]
    have hb : byte response.code.toNat = response.code := by cases response <;> rfl
    have h1 : 3 * (cause - 1) + (response.code.toNat - 1) = 3 * (cause - 1) + response.code.toNat - 1 := by
      cases response <;> simp [FaultAction.code]
    simp only [State.expiryNoted, State.mark, State.raise_ntu, State.takesRaises, h1, hb]
    rfl
  rw [this]

theorem State.expiryNoted_raise (s : State) (cause response : Nat) (k : NoticeKind) (d : Bytes) :
    ((s.expiryNoted cause response).raise k d).ntu =
      ((s.raise .watchdogExpired [byte cause, byte response, byte (min 2 (s.wdu.expiry + 1))]).raise k d).ntu :=
  State.raise_ntu_congr (s := s.raise _ _) (u := s.expiryNoted cause response) rfl (by rw [State.raise_eq]; rfl)
    (by rw [State.raise_eq]; rfl) k d

/-- All that a watchdog expiry does in ARMED and ON (R90, R91, R94). -/
theorem State.watchdogExpiry_expires (s : State) (cause : Nat) (ha : s.wdu.armed = true) (h : s.psq.state = some .on) :
    s.WatchdogExpires cause (s.watchdogExpiry cause) := by
  have hc : (s.wdu.action = .cycle || (s.wdu.action = .reset && min 2 (s.wdu.expiry + 1) = 2)) = true →
      ({ s.wdu with expiry := min 2 (s.wdu.expiry + 1) } : Wdu).response = .cycle := by
    intro hh
    simp only [Bool.or_eq_true, Bool.and_eq_true, decide_eq_true_eq] at hh
    rcases hh with hh | ⟨h1, h2⟩
    · simp [Wdu.response, hh]
    · simp only [Wdu.response, h1, h2]; rfl
  refine ⟨fun e => ?_, fun e e1 er => ?_, fun e e1 er => ?_, fun e em => ?_, fun e em => ?_⟩
  · rw [s.watchdogExpiry_eq cause .notice (by simp [Wdu.response, e])]
    simp [State.faultRequest, State.runDeadline, State.expiryNoted, Wdu.timeoutMs, sec, FaultAction.code]
  · rw [s.watchdogExpiry_eq cause .reset (by simp [Wdu.response, e, e1])]
    simp [State.faultRequest, State.actReset, State.expiryNoted, h, er, wduTakes, State.mark, State.startYoung,
      State.wduResetPulse, State.bootDeadline, ha, sec, e1, FaultAction.code, State.setting]
  · rw [s.watchdogExpiry_eq cause .reset (by simp [Wdu.response, e, e1])]
    have hn : s.psq.resetPulse.isNone = false := by simpa using er
    have ha : (s.expiryNoted cause FaultAction.reset.code.toNat).actReset 1 =
        (.busy, s.expiryNoted cause FaultAction.reset.code.toNat) := by
      simp [State.actReset, State.expiryNoted, h, hn]
    simp only [State.faultRequest, ha, wduTakes, Bool.false_eq_true, if_false]
    rw [State.raise_eq, State.expiryNoted_raise]
    rfl
  · rw [s.watchdogExpiry_eq cause .cycle (hc e)]
    have ha : (s.expiryNoted cause FaultAction.cycle.code.toNat).actCycle =
        (.mismatch, s.expiryNoted cause FaultAction.cycle.code.toNat) := by
      simp [State.actCycle, State.expiryNoted, h, State.unlessMismatch, em]
    simp only [State.faultRequest, ha, wduTakes, Bool.false_eq_true, if_false]
    rw [State.raise_eq, State.expiryNoted_raise]
    rfl
  · rw [s.watchdogExpiry_eq cause .cycle (hc e)]
    have ha : (s.expiryNoted cause FaultAction.cycle.code.toNat).actCycle =
        (.accepted, ((s.expiryNoted cause FaultAction.cycle.code.toNat).setPending .powerOn).beginForcing) := by
      simp [State.actCycle, State.expiryNoted, h, State.unlessMismatch, em]
    simp only [State.faultRequest, ha, wduTakes, if_true]
    rw [State.cycleOn_eq (s.expiryNoted cause FaultAction.cycle.code.toNat) h, State.expiryNoted_raise]
    rfl

/-! ### Delivery -/

/-- What a panic notes before its request (R93). -/
def State.panicNoted (s : State) (entry : Nat) (response : Byte) : State :=
  { s with
    wdu := { s.wdu with holdoff := true }
    ccu := s.ccu.addMark s.now .panic entry
    ntu := (s.raise .panicSeen (byte entry :: (be 8 s.ccu.captured ++ [response]))).ntu }

theorem State.panicNoted_raise (s : State) (entry : Nat) (response : Byte) (k : NoticeKind) (d : Bytes) :
    ((s.panicNoted entry response).raise k d).ntu =
      ((s.raise .panicSeen (byte entry :: (be 8 s.ccu.captured ++ [response]))).raise k d).ntu :=
  State.raise_ntu_congr (s := s.raise _ _) (u := s.panicNoted entry response) rfl (by rw [State.raise_eq]; rfl)
    (by rw [State.raise_eq]; rfl) k d

theorem State.panic_first (s : State) (k : Nat) (h : s.psq.state = some .on) (hh : s.wdu.holdoff = false) :
    s.panic k s.ccu.captured = ((s.panicNoted k s.panicResponse.code).faultRequest 2 s.panicResponse).2 := by
  unfold State.panic
  rw [if_pos (by simp [h, hh])]
  dsimp only
  rw [State.raise_as (s := s)] <;> rfl

/-- A heartbeat counted as early (R89). -/
def State.beatCounted (s : State) (entry : Nat) : State :=
  { s with
    wdu := { s.wdu with early := s.wdu.early + 1, lastBeat := some s.now }
    ntu := (s.raise .earlyHeartbeats [byte (s.wdu.early + 1), byte entry]).ntu }

theorem Wdu.isEarly_iff (w : Wdu) (now : Time) :
    w.isEarly now = true ↔ ∃ last, w.lastBeat = some last ∧ 8 * (now - last).toNat < 1000 * w.timeout.getD 0 := by
  unfold Wdu.isEarly
  cases w.lastBeat with
  | none => simp
  | some last =>
    simp only [Option.any_some, elapsed, Wdu.timeoutMs, sec, Option.some.injEq, exists_eq_left']
    exact decide_eq_true_iff

/-- A raise after a teardown reads what stood before it. -/
theorem State.TornDown.raises {s v t : State} (h : v.TornDown t) (h1 : v.ntu = s.ntu) (h2 : v.now = s.now)
    (h3 : v.ptu.state = s.ptu.state) (kind : NoticeKind) (detail : Bytes) :
    ({ v with ntu := (s.raise kind detail).ntu } : State).TornDown (t.raise kind detail) := by
  have hf := h.frame
  rw [State.raise_as (s := s) (u := t) _ _ (by rw [hf]; exact h1) (by rw [hf]; exact h2) (by rw [hf]; exact h3)]
  exact ⟨congrArg (fun u : State => { u with ntu := (s.raise kind detail).ntu }) hf, h.wants, h.frames, h.lines⟩

/-- All that the delivery of a match does (R66, R88 to R93, R117). -/
theorem State.deliverMatch_delivered (s : State) (k : Nat) (action : PatternAction) :
    s.MatchDelivered k action (s.deliverMatch k action) := by
  refine ⟨?_, ?_, ?_, ?_⟩
  · rintro rfl
    exact State.raise_eq _ _ _
  · rintro rfl
    refine ⟨fun h => ?_, fun h1 h2 h3 => ?_⟩
    · have : s.bootOnceTrigger .bootDone = s := by
        unfold State.bootOnceTrigger State.detachTrigger
        rcases h with h | h | h
        · simp [h]
        · simp [h]
        · have : s.mfn.cause.isNone = false := by cases e : s.mfn.cause <;> simp_all
          simp [this]
      simp only [State.deliverMatch, this]
      exact State.raise_eq _ _ _
    · have hb : s.bootOnceTrigger .bootDone = if s.mfn.request.isNone then
          ({ s with mfn := { s.mfn with cause := some .bootDone, drain := some (after s.now 2000) } } : State).teardown
          else { s with mfn := { s.mfn with cause := some .bootDone, drain := some (after s.now 2000) } } := by
        unfold State.bootOnceTrigger State.detachTrigger
        rw [if_pos h1, if_pos (by simp [h2, h3])]
      simp only [State.deliverMatch, hb]
      refine ⟨fun hr => ?_, fun hr => ?_⟩
      · rw [if_neg (by simpa using Option.isSome_iff_ne_none.mp hr)]
        exact State.raise_as _ _ rfl rfl rfl
      · rw [if_pos (by simp [hr])]
        exact State.TornDown.raises (s := s)
          (v := { s with mfn := { s.mfn with cause := some .bootDone, drain := some (after s.now 2000) } })
          (State.teardown_tornDown _) rfl rfl rfl _ _
  · rintro rfl
    refine ⟨fun h => ?_, fun h he timeout ht => ?_, fun h he => ?_⟩
    · have : (s.wdu.armed && s.psq.state = some .on) = false := by
        cases ha : s.wdu.armed
        · rfl
        · simp only [Bool.true_and, decide_eq_false_iff_not]; exact fun ho => h ⟨ha, ho⟩
      simp only [State.deliverMatch, State.heartbeat, this, Bool.false_eq_true, if_false]
    · rw [← Wdu.isEarly_iff, Bool.not_eq_true] at he
      simp only [State.deliverMatch, State.heartbeat, h.1, h.2, he, decide_true, Bool.and_self, if_true, Bool.false_eq_true,
        if_false]
      cases hp : s.wdu.pendingTimeout <;> simp [State.runDeadline, Wdu.timeoutMs, sec, ht]
    · rw [← Wdu.isEarly_iff] at he
      have hn : (({ s with wdu := { s.wdu with early := s.wdu.early + 1, lastBeat := some s.now } } : State).raise
          .earlyHeartbeats [byte (s.wdu.early + 1), byte k]) = s.beatCounted k := by
        exact State.raise_as _ _ rfl rfl rfl
      have hd : s.deliverMatch k .heartbeat = if 3 ≤ s.wdu.early + 1 then
          { (s.beatCounted k).watchdogExpiry 2 with wdu := { ((s.beatCounted k).watchdogExpiry 2).wdu with early := 0 } }
          else s.beatCounted k := by
        rw [State.deliverMatch, State.heartbeat, if_pos (by simp [h]), if_pos he]
        dsimp only
        rw [hn]
      rw [hd]
      refine ⟨fun hc => ?_, fun hc => ?_⟩
      · rw [if_neg (by omega)]; rfl
      · rw [if_pos hc]
        exact ⟨_, State.watchdogExpiry_expires (s.beatCounted k) 2 h.1 h.2, rfl⟩
  · rintro rfl
    refine ⟨fun h => ?_, fun h hh => ⟨fun e => ?_, fun e er => ?_, fun e er => ?_, fun e em => ?_, fun e em => ?_⟩⟩
    · have : (s.psq.state = some .on && !s.wdu.holdoff) = false := by
        rcases h with h | h
        · simp [h]
        · simp [h]
      simp only [State.deliverMatch, State.panic, this, Bool.false_eq_true, if_false]
      exact State.raise_eq _ _ _
    · rw [State.deliverMatch, s.panic_first k h hh, e]
      rfl
    · rw [State.deliverMatch, s.panic_first k h hh, e]
      cases ha : s.wdu.armed <;> simp [State.faultRequest, State.actReset, State.panicNoted, h, er, wduTakes, State.mark,
        State.startYoung, State.wduResetPulse, State.bootDeadline, sec, FaultAction.code, State.setting, ha]
    · rw [State.deliverMatch, s.panic_first k h hh, e]
      have hn : s.psq.resetPulse.isNone = false := by simpa using er
      have ha : (s.panicNoted k FaultAction.reset.code).actReset 2 = (.busy, s.panicNoted k FaultAction.reset.code) := by
        simp [State.actReset, State.panicNoted, h, hn]
      simp only [State.faultRequest, ha, wduTakes]
      rw [State.raise_eq, State.panicNoted_raise]
      rfl
    · rw [State.deliverMatch, s.panic_first k h hh, e]
      have ha : (s.panicNoted k FaultAction.cycle.code).actCycle = (.mismatch, s.panicNoted k FaultAction.cycle.code) := by
        simp [State.actCycle, State.panicNoted, h, State.unlessMismatch, em]
      simp only [State.faultRequest, ha, wduTakes]
      rw [State.raise_eq, State.panicNoted_raise]
      rfl
    · rw [State.deliverMatch, s.panic_first k h hh, e]
      have ha : (s.panicNoted k FaultAction.cycle.code).actCycle =
          (.accepted, ((s.panicNoted k FaultAction.cycle.code).setPending .powerOn).beginForcing) := by
        simp [State.actCycle, State.panicNoted, h, State.unlessMismatch, em]
      simp only [State.faultRequest, ha, wduTakes]
      rw [State.cycleOn_eq (s.panicNoted k FaultAction.cycle.code) h, State.panicNoted_raise]
      rfl

/-- Matches delivered in turn (R66). -/
theorem State.foldl_deliver_matchesDelivered (l : List (Nat × Pattern)) (s : State) :
    s.MatchesDelivered (l.map (fun e => (e.1, e.2.action))) (l.foldl (fun t e => t.deliverMatch e.1 e.2.action) s) := by
  induction l generalizing s with
  | nil => exact .done _
  | cons e l ih => exact .next (State.deliverMatch_delivered _ _ _) (ih _)

/-- The entries that match at a byte just captured, with their actions, in ascending index (R64, R66). -/
theorem State.matchedEntries_spec (s : State) (b : Byte) :
    (((s.withByte b).matchedEntries.map (fun e => (e.1, e.2.action))).map Prod.fst).Pairwise (· < ·) ∧
    ∀ k action, (k, action) ∈ (s.withByte b).matchedEntries.map (fun e => (e.1, e.2.action)) ↔
      ∃ p, s.CompletesMatch b k p ∧ p.action = action := by
  have hz : ∀ (l : List Pattern) (e : Nat × Pattern), e ∈ (List.range l.length).zip l ↔ l[e.1]? = some e.2 := by
    intro l e
    constructor
    · intro h
      obtain ⟨i, hi, h⟩ := List.mem_iff_getElem.mp h
      rw [← h]; simp
    · intro h
      obtain ⟨hi, h⟩ := List.getElem?_eq_some_iff.mp h
      refine List.mem_iff_getElem.mpr ⟨e.1, by simpa using hi, ?_⟩
      simp [h]
  constructor
  · rw [List.map_map]
    have h1 : ((List.range (s.withByte b).patterns.length).zip (s.withByte b).patterns).map Prod.fst =
        List.range (s.withByte b).patterns.length := by
      rw [List.map_fst_zip]; simp
    have h2 : (List.range (s.withByte b).patterns.length).Pairwise (· < ·) := List.pairwise_lt_range
    rw [← h1, List.pairwise_map] at h2
    rw [List.pairwise_map]
    exact h2.filter _
  · intro k action
    simp only [List.mem_map, State.matchedEntries, List.mem_filter, Prod.mk.injEq]
    constructor
    · rintro ⟨e, ⟨he, hm⟩, h1, h2⟩
      rw [hz] at he
      subst h1
      exact ⟨e.2, (s.matchesEntry_iff b e.1 e.2).mp ⟨he, hm⟩, h2⟩
    · rintro ⟨p, hp, h2⟩
      obtain ⟨he, hm⟩ := (s.matchesEntry_iff b k p).mpr hp
      exact ⟨(k, p), ⟨(hz _ _).mpr he, hm⟩, rfl, h2⟩

end Sys2Proof.Machine
end

