-- ==== Sys2Proof/Laws/Memory.lean ====
section
/-! SUPPORT. The SDRAM: every write keeps the canonical form, and a read after a write gives the byte written at its
address and the former byte elsewhere. -/

namespace Sys2Proof.Machine

/-- A write leaves the addresses that stood above another address above it. -/
theorem Memory.write_above (m : Memory) (a lo : Nat) (v : Byte) (ha : lo < a) (h : ∀ c ∈ m, lo < c.1) :
    ∀ c ∈ m.write a v, lo < c.1 := by
  induction m with
  | nil => unfold Memory.write; split <;> simp_all
  | cons c m ih =>
    obtain ⟨k, w⟩ := c
    unfold Memory.write
    (repeat' split) <;> simp_all <;> grind

/-- A write keeps the canonical form. -/
theorem Memory.write_wf (m : Memory) (a : Nat) (v : Byte) (h : Memory.wf m) : Memory.wf (m.write a v) := by
  induction m with
  | nil => unfold Memory.write; split <;> simp_all [Memory.wf]
  | cons c m ih =>
    obtain ⟨k, w⟩ := c
    obtain ⟨hp, hn⟩ := h
    rw [List.pairwise_cons] at hp
    have ht : Memory.wf m := ⟨hp.2, fun c hc => hn c (List.mem_cons_of_mem _ hc)⟩
    unfold Memory.write
    split
    · split
      · exact ⟨List.pairwise_cons.2 hp, hn⟩
      · rename_i hlt hv
        refine ⟨List.pairwise_cons.2 ⟨?_, List.pairwise_cons.2 hp⟩, ?_⟩
        · intro c hc
          rcases List.mem_cons.1 hc with rfl | hc
          · exact hlt
          · exact lt_trans hlt (hp.1 c hc)
        · intro c hc
          rcases List.mem_cons.1 hc with rfl | hc
          · exact hv
          · exact hn c hc
    · split
      · split
        · exact ht
        · rename_i hk hv
          refine ⟨List.pairwise_cons.2 ⟨?_, hp.2⟩, ?_⟩
          · intro c hc
            have := hp.1 c hc
            simp only at this ⊢
            omega
          · intro c hc
            rcases List.mem_cons.1 hc with rfl | hc
            · exact hv
            · exact ht.2 c hc
      · rename_i h1 h2
        have hi := ih ht
        refine ⟨List.pairwise_cons.2 ⟨?_, hi.1⟩, ?_⟩
        · exact Memory.write_above m a k v (by omega) hp.1
        · intro c hc
          rcases List.mem_cons.1 hc with rfl | hc
          · exact hn _ (by simp)
          · exact hi.2 c hc

/-- No address above all listed addresses is listed. -/
theorem Memory.read_above (m : Memory) (a : Nat) (h : ∀ c ∈ m, a < c.1) : m.read a = Memory.unlisted := by
  induction m with
  | nil => rfl
  | cons c m ih =>
    obtain ⟨k, w⟩ := c
    have hk : a < k := h (k, w) (by simp)
    unfold Memory.read
    rw [if_neg (by omega)]
    exact ih (fun c hc => h c (List.mem_cons_of_mem _ hc))

/-- A byte read after a write. -/
theorem Memory.read_write (m : Memory) (a b : Nat) (v : Byte) (h : Memory.wf m) :
    (m.write a v).read b = if b = a then v else m.read b := by
  induction m with
  | nil =>
    unfold Memory.write
    split
    · rename_i hv; split <;> simp_all [Memory.read]
    · unfold Memory.read; split <;> simp_all [Memory.read]
  | cons c m ih =>
    obtain ⟨k, w⟩ := c
    obtain ⟨hp, hn⟩ := h
    rw [List.pairwise_cons] at hp
    have ht : Memory.wf m := ⟨hp.2, fun c hc => hn c (List.mem_cons_of_mem _ hc)⟩
    have hi := ih ht
    unfold Memory.write
    split
    · rename_i hlt
      split
      · rename_i hv
        split
        · subst b
          rw [Memory.read_above _ a]
          · exact hv.symm
          · intro c hc
            rcases List.mem_cons.1 hc with rfl | hc
            · exact hlt
            · exact lt_trans hlt (hp.1 c hc)
        · rfl
      · conv_lhs => unfold Memory.read
    · split
      · rename_i hk
        subst hk
        split
        · rename_i hv
          split
          · subst b
            rw [Memory.read_above _ a (by intro c hc; exact hp.1 c hc)]
            exact hv.symm
          · rename_i hb
            conv_rhs => unfold Memory.read
            rw [if_neg hb]
        · conv_lhs => unfold Memory.read
          split
          · rfl
          · rename_i hb
            conv_rhs => unfold Memory.read
            rw [if_neg hb]
      · rename_i h1 h2
        conv_lhs => unfold Memory.read
        rw [hi]
        split
        · rename_i hb
          rw [if_neg (by omega)]
          conv_rhs => unfold Memory.read
          rw [if_pos hb]
        · rename_i hb
          split
          · rfl
          · conv_rhs => unfold Memory.read
            rw [if_neg hb]

/-- A byte string written keeps the canonical form. -/
theorem Memory.writeBytes_wf (bs : Bytes) (m : Memory) (a : Nat) (h : Memory.wf m) :
    Memory.wf (Memory.writeBytes m a bs) := by
  induction bs generalizing m a with
  | nil => exact h
  | cons b bs ih => exact ih _ _ (Memory.write_wf m a b h)

/-- Bytes written into the ring keep the canonical form. -/
theorem Memory.writeRing_wf (bs : Bytes) (m : Memory) (ring offset : Nat) (h : Memory.wf m) :
    Memory.wf (Memory.writeRing m ring offset bs) := by
  induction bs generalizing m offset with
  | nil => exact h
  | cons b bs ih => exact ih _ _ (Memory.write_wf m _ b h)

/-- Blocks written into a line keep the canonical form. -/
theorem Memory.writeBlocks_wf (blocks : List Nat) (m : Memory) (base : Nat) (data : Bytes) (h : Memory.wf m) :
    Memory.wf (Memory.writeBlocks m base blocks data) := by
  induction blocks generalizing m data with
  | nil => exact h
  | cons b bs ih => exact ih _ _ (Memory.writeBytes_wf _ m _ h)

/-- A byte read after a byte string has been written. -/
theorem Memory.read_writeBytes (bs : Bytes) (m : Memory) (a b : Nat) (h : Memory.wf m) :
    (Memory.writeBytes m a bs).read b =
      if a ≤ b ∧ b < a + bs.length then bs.getD (b - a) 0 else m.read b := by
  induction bs generalizing m a with
  | nil => rw [if_neg (by simp)]; rfl
  | cons v bs ih =>
    unfold Memory.writeBytes
    rw [ih _ _ (Memory.write_wf m a v h), Memory.read_write m a b v h]
    by_cases hb : b = a
    · subst hb
      rw [if_neg (by omega), if_pos rfl, if_pos (by simp)]
      simp
    · by_cases hlt : a + 1 ≤ b ∧ b < a + 1 + bs.length
      · rw [if_pos hlt, if_pos (by simp only [List.length_cons]; omega)]
        have he : b - a = (b - (a + 1)) + 1 := by omega
        rw [he, List.getD_cons_succ]
      · rw [if_neg hlt, if_neg hb, if_neg (by simp only [List.length_cons]; omega)]

/-- A byte outside the positions of the ring is as it was after bytes were written into the ring. -/
theorem Memory.read_writeRing_outside (bs : Bytes) (m : Memory) (ring offset b : Nat) (h : Memory.wf m)
    (hb : ∀ i < bs.length, b ≠ (offset + i) % ring) :
    (Memory.writeRing m ring offset bs).read b = m.read b := by
  induction bs generalizing m offset with
  | nil => rfl
  | cons v bs ih =>
    unfold Memory.writeRing
    rw [ih _ _ (Memory.write_wf m _ v h), Memory.read_write m _ b v h]
    · rw [if_neg]
      have := hb 0 (by simp)
      simpa using this
    · intro i hi
      have := hb (i + 1) (by simp only [List.length_cons]; omega)
      rwa [show offset + 1 + i = offset + (i + 1) by omega]

/-- The memory right after reset has the canonical form. -/
theorem reset_memory_wf : Memory.wf State.reset.sdram := by simp [Memory.wf, State.reset]

/-- CAPTURE_WRITE_COMPLETE keeps the canonical form. -/
theorem State.captureStored_wf (s : State) (n : Nat) (h : Memory.wf s.sdram) : Memory.wf (s.captureStored n).sdram :=
  Memory.writeRing_wf _ _ _ _ h

end Sys2Proof.Machine
end

