-- ==== Sys2Proof/Laws/Retract.lean ====
section
/-! SUPPORT. All that a settled retract and a cancelled CLAIM do (R5, R42, R44). -/

namespace Sys2Proof.Machine

/-- A retract settled: the count goes down, and the claim that waited for it is asked (R5, R42). -/
theorem State.retractSettled_settles (s : State) : s.RetractSettles s.retractSettled s.adm.own := by
  have hk : s.psq.variant.startKind = if s.psq.variant = .feedRestore then .feedRestore else .powerOn := by
    cases s.psq.variant <;> rfl
  unfold State.RetractSettles State.retractSettled State.askClaim
  dsimp only
  rw [hk]
  by_cases h : s.psq.state = some .awaitingSlot ∧ s.psq.retract ≤ 1 ∧ s.psq.claimAsked = false ∧ s.ptu.state = .member
  · have hz : s.psq.retract - 1 = 0 := by omega
    rw [if_pos (by simp [h, hz]), decide_eq_true h]
    exact ⟨by rw [Bool.or_true]; rfl, rfl⟩
  · rw [if_neg (by
      simp only [Bool.and_eq_true, decide_eq_true_eq, Bool.not_eq_true', not_and, and_imp]
      intro h1 h2 h3 h4
      exact h ⟨h1, by omega, h3, h4⟩), decide_eq_false h]
    exact ⟨by rw [Bool.or_false], rfl⟩

/-- Settling is read off PSQ's record, ADM's lists and the station state. -/
theorem State.RetractSettles.congr {s s' u : State} {own : List OwnFrame} (h : s.RetractSettles u own) (h1 : s'.psq = s.psq)
    (h2 : { s'.adm with own := [] } = { s.adm with own := [] }) (h3 : s'.ptu.state = s.ptu.state) : s'.RetractSettles u own := by
  unfold State.RetractSettles at *
  have h4 : ∀ r w o, ({ s'.adm with roster := r, waiting := w, own := o } : Adm) =
      { s.adm with roster := r, waiting := w, own := o } := fun r w o =>
    congrArg (fun a : Adm => { a with roster := r, waiting := w, own := o }) h2
  obtain ⟨a, b⟩ := h
  refine ⟨by rw [h1, h3]; exact a, ?_⟩
  rw [h1, h3]
  exact b.trans (h4 _ _ _).symm

/-- The CLAIM of a pair that cancels is not in tenure (R44). -/
theorem cancelPair_claim {l rest : List OwnFrame} {c w : OwnFrame} (h : cancelPair l = some (c, w, rest)) :
    c.isInTenure = false := by
  induction l generalizing rest with
  | nil => cases h
  | cons f l ih =>
    unfold cancelPair at h
    split at h
    · rename_i hf
      obtain ⟨r, _, hr⟩ := Option.map_eq_some_iff.mp h
      cases hr
      simpa using (Bool.and_eq_true_iff.mp hf).2
    · obtain ⟨r, h1, hr⟩ := Option.map_eq_some_iff.mp h
      cases hr
      exact ih h1

/-- A CLAIM with a WITHDRAW behind it is cancelled: both entries and their frames go, and the withdraw is settled; else
nothing changes (R44). -/
theorem State.cancelClaim_cancels (s : State) :
    (cancelPair s.adm.own = none → s.cancelClaim = s) ∧
    ∀ c w rest, cancelPair s.adm.own = some (c, w, rest) →
      s.RetractSettles s.cancelClaim rest ∧ s.lif.PairCancelled s.cancelClaim.lif c w ∧
      s.cancelClaim = { s with
        lif := { s.lif with sendList := s.cancelClaim.lif.sendList, giveBuf := s.cancelClaim.lif.giveBuf }
        mctl := { s.mctl with waitSend := s.cancelClaim.mctl.waitSend }
        adm := { s.adm with own := s.cancelClaim.adm.own }
        psq := s.cancelClaim.psq } := by
  refine ⟨fun h => by unfold State.cancelClaim; rw [h], fun c w rest h => ?_⟩
  have hc : s.cancelClaim = (((({ s with adm := { s.adm with own := rest } } : State).withdrawStanding
      c.standing).withdrawStanding w.standing).retractSettled) := by
    unfold State.cancelClaim; rw [h]
  rw [hc]
  generalize ht : ({ s with adm := { s.adm with own := rest } } : State) = t
  have hl : (((t.withdrawStanding c.standing).withdrawStanding w.standing).retractSettled).lif =
      ((t.withdrawStanding c.standing).withdrawStanding w.standing).lif := by simp
  refine ⟨?_, ?_, ?_⟩
  · have := ((t.withdrawStanding c.standing).withdrawStanding w.standing).retractSettled_settles
    simp only [State.withdrawStanding_keeps, ← ht] at this
    rw [← ht]
    exact this.congr (by simp) (by simp) (by simp)
  · rw [hl]
    obtain ⟨a1, b1, c1, d1⟩ := t.withdrawStanding_spec c.standing
    obtain ⟨a2, b2, c2, d2⟩ := (t.withdrawStanding c.standing).withdrawStanding_spec w.standing
    have hs : t.lif = s.lif := by rw [← ht]
    rw [hs] at a1 b1 c1 d1
    refine ⟨fun q x hq he hx => ?_, fun x hx h1 h2 => d2 x (d1 x hx h1) h2⟩
    rcases hq with hq | hq
    · exact b2 q (a1 q x hq he hx)
    · cases hn : (t.withdrawStanding c.standing).lif.entry q with
      | none => exact b2 q hn
      | some y =>
        by_cases hk : c.standing.isAt q = true
        · by_cases hcl : c.standing = .listed q
          · rw [a1 q x hcl he hx] at hn; cases hn
          · have := cancelPair_claim h
            simp only [Standing.isAt, Bool.or_eq_true, decide_eq_true_eq] at hk
            rcases hk with hk | hk
            · exact absurd hk hcl
            · simp [OwnFrame.isInTenure, hk] at this
        · rw [c1 q x (by simpa using hk) he] at hn
          cases hn
          exact a2 q x hq (c1 q x (by simpa using hk) he) hx
  · obtain ⟨l, g, m, e⟩ := (t.withdrawStanding_onlyWithdraws c.standing).trans
      ((t.withdrawStanding c.standing).withdrawStanding_onlyWithdraws w.standing)
    rw [e, ← ht]
    unfold State.retractSettled State.askClaim
    split <;> rfl

end Sys2Proof.Machine
end

