-- ==== Sys2Proof/Laws/Roster.lean ====
section
/-! SUPPORT. ADM's copy at join, said once: the lists that a beacon's rosters and waiting numbers make (R46; log 26). -/

namespace Sys2Proof.Machine

/-- The station numbers of a list as a copy takes them: 1 to 62. -/
def legalNumbers (l : List Nat) : List Nat := l.filter (fun y => 1 ≤ y && y ≤ 62)

theorem legalNumbers_snoc (l : List Nat) (x : Nat) :
    legalNumbers (l ++ [x]) = if 1 ≤ x ∧ x ≤ 62 then legalNumbers l ++ [x] else legalNumbers l := by
  unfold legalNumbers
  rw [List.filter_append]
  by_cases k : 1 ≤ x ∧ x ≤ 62
  · simp [k]
  · rw [if_neg k]; simp; omega

theorem eraseDups_snoc (l : List Nat) (x : Nat) :
    (l ++ [x]).eraseDups = if x ∈ l then l.eraseDups else l.eraseDups ++ [x] := by
  rw [List.eraseDups_append]
  by_cases h : x ∈ l
  · simp [List.removeAll, h]
  · simp [List.removeAll, h, List.eraseDups_cons]

/-- The copy of a beacon's roster into an empty one: each legal number once, up to the slot count. -/
theorem copyRoster_foldl (slots : Nat) (now : Time) (a : Adm) (h : a.roster = []) (b : List Nat) :
    b.foldl (copyRoster slots now) a =
      { a with roster := ((legalNumbers b).eraseDups.take slots).map (fun y => (y, now)) } := by
  rw [← b.reverse_reverse]
  induction b.reverse with
  | nil => simp [legalNumbers, h.symm]
  | cons x t ih =>
    rw [List.reverse_cons, List.foldl_append, ih, List.foldl_cons, List.foldl_nil, legalNumbers_snoc]
    generalize legalNumbers t.reverse = l
    unfold copyRoster
    by_cases k : 1 ≤ x ∧ x ≤ 62
    · simp only [k, and_self, if_true, eraseDups_snoc, decide_true, Bool.true_and]
      by_cases d : l.eraseDups.length < slots
      · rw [List.take_of_length_le (l := l.eraseDups) (by omega)]
        by_cases c : x ∈ l
        · rw [if_pos c, if_neg, List.take_of_length_le (by omega)]
          simp [c, Adm.inRoster]
        · rw [if_neg c, if_pos, List.take_of_length_le (by simp; omega)]
          · simp [Adm.joinRoster]
          · simp only [Adm.inRoster, List.length_map, d, decide_true, Bool.and_true, Bool.not_eq_true', List.any_map,
              List.any_eq_false, Function.comp, decide_eq_true_eq, List.mem_eraseDups]
            exact fun y hy hx => c (hx.subst hy)
      · rw [if_neg (by simp; omega)]
        by_cases c : x ∈ l
        · rw [if_pos c]
        · rw [if_neg c, List.take_append_of_le_length (by omega)]
    · rw [if_neg (by simp; omega), if_neg k]

/-- The copy of a beacon's waiting numbers into an empty list: each legal number once that the roster does not hold. -/
theorem copyWaiting_foldl (a : Adm) (hw : a.waiting = []) (b c : List Nat) (now : Time)
    (h : a.roster = c.map (fun y => (y, now))) :
    b.foldl copyWaiting a = { a with waiting := ((legalNumbers b).filter (fun y => !c.contains y)).eraseDups } := by
  rw [← b.reverse_reverse]
  induction b.reverse with
  | nil => rw [List.reverse_nil, List.foldl_nil]; cases a; simp_all [legalNumbers]
  | cons x t ih =>
    rw [List.reverse_cons, List.foldl_append, ih, List.foldl_cons, List.foldl_nil, legalNumbers_snoc]
    generalize legalNumbers t.reverse = l
    unfold copyWaiting
    by_cases k : 1 ≤ x ∧ x ≤ 62
    · simp only [k, and_self, if_true, List.filter_append, decide_true, Bool.true_and]
      by_cases d : x ∈ c
      · simp [d, Adm.inRoster, h]
      · have : List.filter (fun y => !c.contains y) [x] = [x] := by simp [d]
        rw [this, eraseDups_snoc]
        by_cases e : x ∈ l <;> simp [d, e, Adm.isWaiting, Adm.joinWaiting, Adm.inRoster, h]
    · rw [if_neg (by simp; omega), if_neg k]

end Sys2Proof.Machine
end

