-- ==== Sys2Proof/Tests/Slice0.lean ====
section
/-! SUPPORT. The model's own tests: the well-formedness checks refuse what is ill-formed, single steps on small states, and
for each statement with hypotheses a state and operands that meet them, at the boundary values of its clauses. -/

namespace Sys2Proof.Tests
open Sys2Proof Sys2Proof.Machine

set_option Elab.async false

/-! ### Small states -/

/-- A record within the legal ranges (12.3). -/
def record : Settings :=
  { slotCount := 2, presenceMs := 1000, retryLimit := 4, startLimit := 10, settle := 5, consoleRate := 5, historyLog := 16
    sdramCode := 1, rowWidth := 13, colWidth := 9, refreshInterval := 78, rest := 5, young := 10, grace := 60, force := 10
    bootAllowance := 300, pgoodHigh := true, reserve := 64, readahead := 2, wantTimer := 200, panicResponse := .notice
    patterns := List.replicate 8 { action := .note, text := [] } }

/-- A station numbered 5 in MEMBER with its memory up, its lane quiet and peer 9 an uplink that holds the claim. -/
def station (role : Role) : State :=
  { State.reset with
    rstn := false
    sld := { role := role, snum := 5, phase := .handedOver, settings := some record }
    ptu := ({ state := .member, boundary := some 1000, digest := some 7 } : Ptu).setPeer 9 { present := true, role := some .uplink }
    lif := { engine := .quiet }
    psq := { state := some .off, restPhase := .satisfied }
    ccu := { rx := .idle, running := true, ringSize := 65536 }
    mctl := { mem := .up, geometry := some record.geometry }
    lpm := { poolSize := 16, reserve := 8 }
    ord := { holder := some 9 } }

/-- The serving station. -/
def server : State := station .serving

/-- The serving station with a sequencer record. -/
def withPsq (psq : Psq) : State := { server with psq := psq }

/-- The serving station with an order of station 9 at the head of its inbox. -/
def withOrder (s : State) (body : Bytes) : State := { s with ord := { s.ord with inbox := [{ sender := 9, body := body }] } }

/-- A watcher of station 9 at an offset. -/
def watcher (ptr : Nat) : Watcher := { station := 9, sendPtr := ptr, nextMark := 0 }

/-- A server that is on. -/
def onPsq : Psq := { state := some .on, pgood := true }

/-- A frame of station 9. -/
def frame (dest kind : Byte) (body : Bytes) : LaneFrame := { cls := 1, sender := 9, dest := dest, kind := kind, body := body }

/-- The first 303 bytes of a parameter record: the fields of `record` and eight unused patterns. -/
def recordContent : Bytes :=
  [0x6C, 0x2E, 1, 1, 49, 2] ++ be 2 1000 ++ [4, 10, 5, 5, 16, 1, 13, 9, 78, 5, 10] ++ be 2 60 ++ [10] ++
    be 2 300 ++ [1] ++ be 2 64 ++ [2] ++ be 2 200 ++ [1] ++ List.replicate 272 0

/-- A record of 512 bytes with a check. -/
def withCheck (check : BitVec 16) : Bytes := recordContent ++ be 2 check.toNat ++ List.replicate 207 0

/-- The record's bytes with their own check. -/
def recordBytes : Bytes := withCheck (crc16 recordContent)

/-- A step answered a next state with a property. -/
def gives (o : Host.Outcome State Fault Refusal) (p : State → Bool) : Bool :=
  match o with
  | .next t => p t
  | _ => false

/-- What OrderAtHead asks, checked. -/
theorem orderAtHead_of {s : State} {o : Order} {rest : List Order} {row : OrderRow}
    (h : s.rstn = false ∧ s.serving = true ∧ s.ptu.state = .member ∧ s.ord.restartPending = false ∧
      s.ord.inbox = o :: rest ∧ o.standing = .waiting ∧ o.row = row ∧ (s.ptu.peer o.sender).role = some .uplink ∧
      s.ord.holder = some o.sender ∧ paramsValid (o.name.getD 0) o.params = true) : OrderAtHead s o rest row := by
  obtain ⟨h1, h2, h3, h4, h5, h6, h7, h8, h9, h10⟩ := h
  refine ⟨h1, h2, h3, h4, h5, h6, h7, h8, fun _ _ _ => h9, fun n hn => ?_⟩
  rw [hn] at h10
  exact h10

/-! ### Well-formedness -/

theorem test_wellFormed_refuses_short_record : (Instr.eepromAttemptComplete [1]).wellFormed = false := by decide
theorem test_wellFormed_refuses_long_frame_body :
    (Instr.frameCompleteUnspoiled (frame 5 5 (List.replicate 2065 0)) 0).wellFormed = false := by decide +kernel
theorem test_wellFormed_refuses_long_spoiled_body :
    (Instr.receivedFrameSpoiled (frame 5 5 (List.replicate 2065 0))).wellFormed = false := by decide +kernel
theorem test_wellFormed_refuses_read_counts :
    (Instr.read 0 0).wellFormed = false ∧ (Instr.read 0 257).wellFormed = false ∧ (Instr.read 0 256).wellFormed = true := by
  decide
theorem test_wellFormed_refuses_write_counts :
    (Instr.write 0 0).wellFormed = false ∧ (Instr.write 0 257).wellFormed = false ∧ (Instr.write 0 1).wellFormed = true := by
  decide
theorem test_wellFormed_refuses_step_data :
    (Instr.writeStepDataReceived []).wellFormed = false ∧
    (Instr.writeStepDataReceived (List.replicate 100 0)).wellFormed = false ∧
    (Instr.writeStepDataReceived (List.replicate 2560 0)).wellFormed = false ∧
    (Instr.writeStepDataReceived (List.replicate 2048 0)).wellFormed = true := by decide +kernel
theorem test_ill_formed_frame_changes_nothing :
    gives (exec (.frameCompleteUnspoiled (frame 5 5 (List.replicate 2065 0)) 0) server) (fun t => t = settle server) = true := by
  decide +kernel

/-! ### The record and the CRC -/

theorem test_crc16_of_123456789 : crc16 [0x31, 0x32, 0x33, 0x34, 0x35, 0x36, 0x37, 0x38, 0x39] = 0x29B1 := by decide +kernel

theorem content_length : recordContent.length = 303 := by decide +kernel


theorem withCheck_take (c : BitVec 16) : (withCheck c).take 303 = recordContent := by
  rw [withCheck, List.append_assoc, ← content_length, List.take_left']
  rfl

theorem withCheck_field (c : BitVec 16) (i n : Nat) (h : i + n ≤ 303) : field (withCheck c) i n = field recordContent i n := by
  have : ((withCheck c).drop i).take n = (recordContent.drop i).take n := by
    rw [withCheck, List.append_assoc, List.drop_append_of_le_length (by rw [content_length]; omega), List.take_append_of_le_length]
    rw [List.length_drop, content_length]; omega
  rw [field, field, this]

theorem withCheck_check (c : BitVec 16) : field (withCheck c) 303 2 = c.toNat := by
  have h : ((withCheck c).drop 303).take 2 = be 2 c.toNat := by
    rw [withCheck, List.append_assoc, ← content_length, List.drop_left', List.take_left']
    · rfl
    · rfl
  rw [field, h]
  have := c.isLt
  simp [fromBe, be]
  omega

theorem record_framed : recordFramed (withCheck (crc16 recordContent)) = true := by
  rw [recordFramed, withCheck_check, withCheck_take, withCheck_field _ _ _ (by decide), withCheck_field _ _ _ (by decide),
    withCheck_field _ _ _ (by decide)]
  have h : (field recordContent 0 2 = 0x6C2E ∧ field recordContent 2 1 = 1) ∧ field recordContent 3 2 = 305 := by decide +kernel
  simp [h.1.1, h.1.2, h.2]

theorem settings_read (c : BitVec 16) (a : FaultAction) (p : List Pattern) :
    settingsOf (withCheck c) a p = settingsOf recordContent a p := by
  simp [settingsOf, withCheck_field]

theorem patterns_read (c : BitVec 16) : patternsOf (withCheck c) = some (List.replicate 8 { action := .note, text := [] }) := by
  have h : ∀ i ∈ [0, 1, 2, 3, 4, 5, 6, 7], field recordContent (31 + 34 * i) 1 = 0 := by decide +kernel
  have g : ∀ i, i ∈ [0, 1, 2, 3, 4, 5, 6, 7] → patternOf (withCheck c) i = some { action := .note, text := [] } := by
    intro i hi
    have hi' : 31 + 34 * i + 1 ≤ 303 := by simp at hi; omega
    simp [patternOf, withCheck_field _ _ _ hi', h i hi]
  simp [patternsOf, g]

theorem test_record_is_read : recordOf recordBytes = some (record, crc16 ((recordBytes.drop 5).take 6)) := by
  have h : field recordContent 24 1 ≤ 1 ∧ FaultAction.ofCode (field recordContent 30 1) = some .notice ∧
      settingsOf recordContent .notice (List.replicate 8 { action := .note, text := [] }) = record ∧
      record.legal = true := by decide +kernel
  rw [recordBytes, recordOf, record_framed, withCheck_field _ 24 1 (by decide), withCheck_field _ 30 1 (by decide), patterns_read, h.2.1]
  simp only [h.1, settings_read, h.2.2.1, h.2.2.2, decide_true, Bool.and_self, if_true]

theorem test_zeros_are_no_record : recordOf (List.replicate 512 0) = none := by
  have h : recordFramed (List.replicate 512 0) = false := by decide +kernel
  rw [recordOf, h]; rfl

/-! ### Steps, reset and invariants -/

theorem test_step_runs_the_front_command : gives (step (server.push .rstnAsserted)) (fun t => t.rstn) = true := by decide
theorem test_empty_queue_lets_a_millisecond_pass :
    server.pending = [] ∧ gives (step server) (fun t => t.now = 1) = true ∧
    State.reset.pending = [] ∧ gives (step State.reset) (fun t => t = State.reset) = true := by decide +kernel

/-- Reset with RSTN released: nothing is due. -/
def still : State := { State.reset with rstn := false }

theorem test_nothing_is_due : still.NothingDue :=
  { request := by decide
    detach := by decide
    capture := by decide
    input := by decide
    watcher := by intro _ w hw; exact absurd hw (List.not_mem_nil)
    refresh := by decide
    notice := by decide
    silent := by decide
    offers := by decide
    give := by intro e he; exact absurd he (by decide +revert)
    unit := by decide }

theorem test_legal_station_is_within_every_invariant :
    server.psq.Legal ∧ AdmissionOrdered server ∧ WithinCapacities server ∧ PoolWithinBounds server.lpm ∧
    Memory.wf server.sdram := by
  refine ⟨?_, ?_, ?_, ⟨?_, by decide⟩, by decide⟩ <;> constructor <;> decide

theorem test_invariants_have_a_next_step :
    gives (step (server.push .laneSyncQuiet)) (fun _ => true) = true ∧ gives (exec .ready server) (fun _ => true) = true := by
  decide +kernel

/-! ### Starts -/

theorem test_strap_numbers : (1 : BitVec 6).toNat = 1 ∧ (62 : BitVec 6).toNat = 62 ∧ (0 : BitVec 6) = 0 ∧ (63 : BitVec 6) = 63 ∧
    gives (exec (.coldStart { role := .uplink, snum := 62 }) server) (fun t => t.sld.phase = .reading 1) = true ∧
    gives (exec (.coldStart { role := .uplink, snum := 63 }) server) (fun t => t.ptu.state = .haltedSetup) = true := by
  decide +kernel
theorem test_rstn_holds : State.reset.rstn = true := by decide

/-- A station in SETUP whose start sequence is at a phase. -/
def starting (phase : SldPhase) : State := { still with sld := { snum := 5, phase := phase } }

theorem test_eeprom_attempts :
    (∃ r d, recordBytes.length = 512 ∧ recordOf recordBytes = some (r, d)) ∧
    ((List.replicate 512 (0 : Byte)).length = 512 ∧ recordOf (List.replicate 512 0) = none) ∧
    (starting (.reading 2)).sld.phase = .reading 2 ∧ (starting (.reading 3)).sld.phase = .reading 3 ∧
    (starting (.retryWait 2 5)).sld.phase = .retryWait 2 5 ∧
    gives (exec .eepromAttemptFailed (starting (.reading 2))) (fun t => t.sld.phase = .retryWait 2 5) = true ∧
    gives (exec .eepromAttemptFailed (starting (.reading 3))) (fun t => t.sld.phase = .halted) = true := by
  refine ⟨⟨_, _, ?_, test_record_is_read⟩, ⟨by decide +kernel, test_zeros_are_no_record⟩, ?_⟩
  · rw [recordBytes, withCheck, List.length_append, List.length_append, content_length, List.length_replicate]; rfl
  · decide +kernel

theorem test_eeprom_bus :
    EepromFault.all.length = 6 ∧ EepromFault.all.Nodup ∧
    failedBus (.sdaLow false) = [.stop] ∧ failedBus (.noAck 0) = [.start, .device 0x53 false, .stop] ∧
    failedBus (.noAck 1) = [.start, .device 0x53 false, .word 0, .stop] ∧
    failedBus (.noAck 2) = [.start, .device 0x53 false, .word 0, .word 0, .stop] ∧
    failedBus (.sdaLow true) = [.start, .device 0x53 false, .word 0, .word 0, .stop] ∧
    failedBus (.noAck 3) = [.start, .device 0x53 false, .word 0, .word 0, .start, .device 0x53 true, .stop] := by decide

/-- A station whose record is validated. -/
def validated (mem : MemState) (geometry : Option Geometry) (warm : Bool) : State :=
  { starting (.validated record 7) with
    sld := { snum := 5, phase := .validated record 7, warm := warm }, mctl := { mem := mem, geometry := geometry } }

theorem test_hand_over :
    (validated .down none false).sld.phase = .validated record 7 ∧ (validated .down none false).mctl.mem ≠ .selfRefresh ∧
    (validated .selfRefresh (some record.geometry) true).mctl.geometry = some record.geometry ∧
    (validated .selfRefresh none true).mctl.geometry ≠ some record.geometry ∧
    gives (exec .settingRecordHandover (validated .down none false)) (fun t => t.mctl.mem = .bringingUp) = true ∧
    gives (exec .settingRecordHandover (validated .selfRefresh (some record.geometry) true)) (fun t => t.mctl.leaving) = true ∧
    gives (exec .settingRecordHandover (validated .up none true)) (fun t => t.sld.phase = .validated record 7) = true := by
  decide +kernel

/-- A station in SETUP whose memory is being brought up. -/
def bringing : State :=
  { still with
    sld := { snum := 5, phase := .handedOver, settings := some record }
    mctl := { mem := .bringingUp, geometry := some record.geometry } }

theorem test_memory_up :
    bringing.sld.settings = some record ∧ bringing.ptu.state = .setup ∧ bringing.mctl.mem = .bringingUp ∧
    gives (exec .memoryBringupComplete bringing) (fun t =>
      t.ptu.state = .listen && t.ccu.rx = .seekingIdle && t.lpm.poolSize = record.poolSize &&
      t.ntu.pending.map PendingNotice.kind = [.started]) = true ∧
    gives (exec .memoryBringupComplete
      { bringing with sld := { bringing.sld with role := .uplink, warm := true }, mctl := { bringing.mctl with leaving := true } })
      (fun t => t.ccu = {} && t.ntu.pending.map PendingNotice.detail = [[2]]) = true := by decide +kernel

theorem test_psq_derives :
    bringing.sld.settings = some record ∧ bringing.serving = true ∧ bringing.psq.state = none ∧
    bringing.psq.feedClosed = true ∧ ({ bringing with psq := { feedClosed := false } } : State).psq.feedClosed = false ∧
    gives (exec (.psqStateDerived true) bringing) (fun t => t.psq.state = some .on) = true ∧
    gives (exec (.psqStateDerived false) bringing) (fun t => t.psq.state = some .resting) = true ∧
    gives (exec (.psqStateDerived true) { bringing with psq := { feedClosed := false } })
      (fun t => t.psq.state = some .feedCut && t.psq.faultOwed) = true := by decide +kernel

/-! ### Membership and the lane -/

/-- The station with peer 9 at a missed count, its beacon waiting. -/
def missing (missed debt : Nat) : State :=
  let ptu : Ptu := { server.ptu with standing := some .held, debt := debt }
  { server with ptu := ptu.setPeer 9 { present := true, role := some .uplink, missed := missed } }

theorem test_boundary :
    server.ptu.boundary = some 1000 ∧ ((missing 1 0).ptu.peer 9).present = true ∧ (missing 2 2).legalNumber = true ∧
    (missing 2 2).ptu.standing = some .held ∧
    gives (exec .presenceBoundary (missing 1 0)) (fun t => (t.ptu.peer 9).missed = 2 && t.ptu.debt = 1) = true ∧
    gives (exec .presenceBoundary (missing 2 2)) (fun t =>
      !(t.ptu.peer 9).present && t.ord.holder = none && t.ptu.debt = 2 && t.ptu.beaconClass = 0) = true := by decide +kernel

/-- A beacon of this station in its send list. -/
def beaconEntry (retry : Nat) (inTenure : Bool) : SendEntry :=
  { seq := 3, cls := 3, dest := toAll, kind := .beacon, payload := .atTenure, owner := .ptu, retry := retry
    inTenure := inTenure }

/-- The station in LISTEN with its copy made, peer 9 at a missed count, and no room in its send list. -/
def listenEnds (role : Role) (roster waiting : List Nat) (kept missed : Nat) (psq : Psq) : State :=
  { station role with
    ptu := ({ state := .listen, boundary := some 1000 } : Ptu).setPeer 9 { present := true, missed := missed }
    lif := { engine := .quiet, sendList := List.replicate 24 (beaconEntry 0 false) }
    adm := { roster := roster.map (fun x => (x, 0)), waiting := waiting, copied := true, kept := kept }
    ntu := { pause := some 9 }
    psq := psq }

/-- PSQ in AWAITING-SLOT, its claim not yet asked. -/
def unclaimed (retract : Nat) : Psq := { state := some .awaitingSlot, restPhase := .satisfied, retract := retract }

/-- What the end of LISTEN makes of the own-frame list and of PSQ. -/
def listenLeaves (s : State) (own : List OwnKind) (retract : Nat) (asked : Bool) : Bool :=
  gives (exec .presenceBoundary s) (fun t => t.ptu.state = .member && t.adm.own.map OwnFrame.kind = own && t.adm.kept = 0 &&
    t.psq.retract = retract && t.psq.claimAsked = asked)

theorem test_listen_ends :
    ((listenEnds .serving [5] [] 0 0 {}).ptu.peer 5).present = false ∧ (listenEnds .serving [5] [] 0 0 {}).own = 5 ∧
    listenLeaves (listenEnds .serving [5] [] 0 0 server.psq) [.release] 1 false = true ∧
    listenLeaves (listenEnds .serving [7, 8] [5] 0 1 server.psq) [.withdraw] 1 false = true ∧
    listenLeaves (listenEnds .serving [7] [] 1 0 { server.psq with retract := 1 }) [.release] 1 false = true ∧
    listenLeaves (listenEnds .serving [9, 8] [5] 0 2 server.psq) [.release, .release] 2 false = true ∧
    listenLeaves (listenEnds .serving [7] [] 0 0 (unclaimed 0)) [.claim .powerOn] 0 true = true ∧
    listenLeaves (listenEnds .serving [5] [] 0 0 (unclaimed 0)) [.release] 1 false = true ∧
    listenLeaves (listenEnds .serving [] [] 1 0 (unclaimed 1)) [.release] 1 false = true ∧
    listenLeaves (listenEnds .uplink [5] [] 0 0 {}) [] 0 false = true := by decide +kernel

theorem test_boundary_without_absence :
    ((missing 1 0).ptu.peer 9).missed < 2 ∧ (missing 1 0).ptu.state ≠ .listen ∧
    gives (exec .presenceBoundary { missing 1 0 with adm := { roster := [(9, 0)], waiting := [7], kept := 1 } }) (fun t =>
      t.adm.roster = [(9, 0)] && t.adm.waiting = [7] && t.adm.kept = 1 && t.psq = server.psq) = true := by decide +kernel

/-- PSQ waiting for its slot, its claim asked. -/
def claimingPsq (v : Variant) (pgood : Bool) : Psq :=
  { state := some .awaitingSlot, variant := v, claimAsked := true, restPhase := .satisfied, pgood := pgood
    feedClosed := v ≠ .feedRestore }

/-- The detail of a pending notice. -/
def told (t : State) (kind : NoticeKind) : Option Bytes := (t.ntu.pending.find? (fun p => p.kind = kind)).map PendingNotice.detail

/-- Peer 9 about to be absent, serving, with no match of the rack digest, in the roster ahead of station 5. -/
def leaving (mismatch : Bool) (psq : Psq) : State :=
  { server with
    ptu := ({ server.ptu with mismatch := mismatch } : Ptu).setPeer 9
      { present := true, missed := 2, role := some .serving, digestMatch := if mismatch then .no else .yes }
    adm := { roster := [(7, 0), (9, 0)], waiting := [5, 10], copied := true }
    psq := psq
    lif := { engine := .quiet, sendList := List.replicate 24 (beaconEntry 0 false) }
    ntu := { pause := some 9 } }

theorem test_boundary_with_absence :
    AdmissionOrdered (leaving true (claimingPsq .powerOn false)) ∧
    gives (exec .presenceBoundary (leaving true server.psq)) (fun t => told t .claimLost = some [9, 0, 2] &&
      told t .rackMismatch = some [0, 0, 0] && !t.ptu.mismatch && t.ord.holder = none) = true ∧
    gives (exec .presenceBoundary { leaving false server.psq with ord := {} }) (fun t =>
      told t .claimLost = none && told t .rackMismatch = none && t.adm.roster.map Prod.fst = [7, 5]) = true ∧
    gives (exec .presenceBoundary
      { leaving true server.psq with ptu := (leaving true server.psq).ptu.setPeer 8 { present := true, digestMatch := .no } })
      (fun t => t.ptu.mismatch && told t .rackMismatch = none) = true ∧
    gives (exec .presenceBoundary (leaving false (claimingPsq .powerOn false))) (fun t =>
      t.adm.roster.map Prod.fst = [7, 5] && t.psq.state = some .starting && t.psq.slotHeld &&
      told t .powerState = some [6, 1, 0, 1]) = true ∧
    gives (exec .presenceBoundary (leaving false server.psq)) (fun t =>
      t.psq.retract = 1 && t.adm.own.map OwnFrame.kind = [.release]) = true := by
  refine ⟨by constructor <;> decide, by decide +kernel⟩

/-- The station with its engine in a state. -/
def engine (e : Engine) (sitOut : Bool) : State := { server with lif := { engine := e, sitOut := sitOut } }

theorem test_engine_events :
    (engine .syncing false).lif.engine = .syncing ∧ (engine .quiet true).lif.sitOut = true ∧
    (frame 5 5 []).sender.toNat ≠ server.own ∧ (engine .receiving false).lif.takeHeld = none ∧
    gives (exec .laneSyncQuiet (engine .discarding false)) (fun t => t.lif.engine = .quiet) = true ∧
    gives (exec .sitOutClear (engine .quiet true)) (fun t => !t.lif.sitOut) = true ∧
    gives (exec (.receiveError .badCheck false) (engine .receiving false)) (fun t => t.lif.drove = .spoilSlot) = true ∧
    gives (exec (.receivedFrameSpoiled (frame 5 5 [])) (engine .quiet false)) (fun t => t.lif.recvQueue = []) = true := by
  decide +kernel

/-- The station bidding with its beacon. -/
def bidding (retry : Nat) : State :=
  { server with
    lif := { engine := .bidding, ltx := true, sendList := [beaconEntry retry true], nextSeq := 4
             tenure := some { seq := 3, frame := frame 63 1 [], bytes := [] } }
    ptu := { server.ptu with standing := some (.inTenure 3), debt := 1 } }

/-- The station with its beacon listed. -/
def listed : State :=
  { server with
    lif := { engine := .quiet, sendList := [beaconEntry 0 false], nextSeq := 4 }
    ptu := { server.ptu with standing := some (.listed 3) } }

/-- The engine after a bid is begun with the quiet count last known and the sit-out flag so. -/
def bids (sitOut : Bool) (quiet : Nat) (e : Engine) : Bool :=
  gives (exec .laneBidBegin { listed with lif := { listed.lif with quiet := quiet, sitOut := sitOut } })
    (fun t => t.lif.engine = e)

theorem test_bid :
    listed.lif.engine = .quiet ∧ listed.legalNumber = true ∧ listed.lif.head = some (beaconEntry 0 false) ∧
    (listed.tenureBody (beaconEntry 0 false)).isSome = true ∧
    bids false 0 .bidding = true ∧ bids true 0 .quiet = true ∧ bids true 47 .quiet = true ∧ bids true 48 .bidding = true ∧
    gives (exec .sitOutClear { listed with lif := { listed.lif with sitOut := true } }) (fun t =>
      !t.lif.sitOut && gives (exec .laneBidBegin t) (fun u => u.lif.engine = .bidding)) = true ∧
    gives (exec .laneBidBegin listed) (fun t =>
      t.lif.ltx && t.ptu.standing = some (.inTenure 3) &&
      gives (step t) (fun u => u.lif.engine = .sending && u.now = t.now + 1)) = true := by
  decide +kernel

/-- A frame of an owner with two retries behind it, in the send list. -/
def ownedEntry (owner : Owner) (kind : FrameKind) (dest : Byte) (inTenure : Bool) : SendEntry :=
  { seq := 3, cls := 1, dest := dest, kind := kind, payload := .body [1], owner := owner, retry := 2, inTenure := inTenure }

/-- Each owner but PTU with a frame of its own at place 3, listed or in tenure. -/
def owned (owner : Owner) (standing : Standing) : State :=
  let quiet : State := { server with ntu := { pause := some 9 } }
  match owner with
  | .adm => { quiet with psq := { server.psq with retract := 2 }, adm := { own := [{ kind := .release, standing := standing }] } }
  | .ntu =>
    { server with ntu :=
      { standing := some standing, inTenure := some .started, counter := 1
        pending := [{ kind := .started, detail := [0], time := 0, raise := 0 }] } }
  | .cfw =>
    { quiet with
      ccu := { server.ccu with captured := 70000 }
      cfw := { watchers := [{ watcher 5000 with gap := 7, inFlight := some { start := 4000, finish := 5000, gap := 7, resume := 2 } }]
               out := some { station := 9, standing := .frame standing, first := 4000, last := 5000 } } }
  | .xchWant =>
    { quiet with xch := { wants :=
      [{ key := { image := 1, gen := 0, line := 6 }, purpose := .demand, state := .queued standing, line := 3 }] } }
  | .xchGive =>
    { quiet with
      lpm := { poolSize := 16, reserve := 8, lines := [(3, .clean { image := 1, gen := 0, line := 6 } 1 false)] }
      xch := { gives := [{ key := { image := 1, gen := 0, line := 6 }, line := 3, standing := standing }] } }
  | _ => quiet

/-- The owner's frame on the lane. -/
def onLane (s : State) (owner : Owner) (kind : FrameKind) (dest : Byte) (e : Engine) : State :=
  let f : LaneFrame := { cls := 1, sender := 5, dest := dest, kind := kind.code, body := if kind = .admitRelease then [] else [1] }
  { s with lif :=
    { engine := e, ltx := true, nextSeq := 4, sendList := [ownedEntry owner kind dest true]
      tenure := some { seq := 3, frame := f, bytes := [] } } }

/-- What an owner's frame that begins its tenure makes of the state. -/
def begins (owner : Owner) (kind : FrameKind) (p : State → Bool) : Bool :=
  gives (exec .laneBidBegin
    { owned owner (.listed 3) with lif := { engine := .quiet, nextSeq := 4, sendList := [ownedEntry owner kind 63 false] } }) p

/-- The body of the frame on the lane once a bid has begun. -/
def sends (s : State) (body : Bytes) : Bool :=
  gives (exec .laneBidBegin s) (fun t => t.lif.engine = .bidding && t.lif.tenure.any (fun q => q.frame.body = body))

/-- A LINE-GIVE of line 3 in the send list, with the give buffer so. -/
def giving (buf : GiveBuf) : State :=
  let give : SendEntry := { ownedEntry .xchGive .lineGive 63 false with payload := .give { image := 1, gen := 2, line := 6 } 3 }
  { owned .xchGive (.listed 3) with lif := { engine := .quiet, nextSeq := 4, sendList := [give], giveBuf := buf } }

/-- Three notices pending, one of the lowest group and two of the highest, with a NOTICE in the send list. -/
def noticing : State :=
  { server with
    lif := { engine := .quiet, nextSeq := 4, sendList := [{ ownedEntry .ntu .notice 63 false with payload := .atTenure }] }
    ntu :=
      { standing := some (.listed 3), counter := 3
        pending := [{ kind := .started, detail := [0], time := 0, raise := 0 }, { kind := .powerState, detail := [1], time := 7, raise := 2 },
                    { kind := .feedFault, detail := [2], time := 256, raise := 1 }] } }

theorem test_bid_bodies :
    sends listed [1, 3, 0, 7, 4, 0, 0, 0, 0, 0, 0, 0, 0, 9] = true ∧
    sends { listed with sld := { listed.sld with role := .uplink }, adm := { roster := [(7, 0)], waiting := [8, 6] },
                        mfn := { state := .attached, image := 258, gen := 3 } }
      [2, 3, 0, 7, 4, 0, 0, 0, 1, 2, 3, 1, 7, 2, 8, 6, 0] = true ∧
    sends { listed with ptu := { listed.ptu with state := .haltedSetup } } [1, 4, 0, 0, 0, 0, 0, 0, 0, 0, 0, 0, 0, 0] = true ∧
    noticing.ntu.pending ≠ [] ∧ sends noticing [NoticeKind.feedFault.code, 3, 0, 0, 1, 0, 2] = true ∧
    gives (exec .laneBidBegin noticing) (fun t => t.ntu.inTenure = some .feedFault) = true ∧
    sends (giving (.loaded 3 (List.replicate 2048 7))) ([0, 1, 2, 0, 0, 0, 6] ++ List.replicate 2048 7) = true ∧
    (giving .free).lif.head.isSome = true ∧
    gives (exec .laneBidBegin (giving .free)) (fun t => t.lif.engine = .quiet && t.lif.giveBuf = .reading 3) = true ∧
    gives (exec .laneBidBegin { server with lif := { engine := .quiet } }) (fun t => t.lif.engine = .quiet) = true := by
  decide +kernel

theorem test_raises :
    (server.raise .feedFault [1]).ntu.pending = [{ kind := .feedFault, detail := [1], time := 0, raise := 0 }] ∧
    (server.raise .feedFault [1]).ntu.counter = 1 ∧ (server.raise .feedFault [1]).ntu.raisedAgain = false ∧
    (noticing.raise .feedFault [9]).ntu.pending.map (fun p => (p.kind, p.detail, p.raise)) =
      [(.started, [0], 0), (.powerState, [1], 2), (.feedFault, [9], 1)] ∧
    (noticing.raise .feedFault [9]).ntu.counter = 3 ∧
    (({ noticing with ntu := { noticing.ntu with inTenure := some .feedFault } } : State).raise .feedFault [9]).ntu.raisedAgain = true ∧
    still.raise .feedFault [1] = still := by decide +kernel

theorem test_bid_tells_each_owner :
    begins .adm .admitRelease (fun t => t.adm.own.map OwnFrame.standing = [.inTenure 3]) = true ∧
    begins .ntu .notice (fun t => t.ntu.standing = some (.inTenure 3)) = true ∧
    begins .cfw .consoleOut (fun t => t.cfw.out.any (fun o => o.standing = .frame (.inTenure 3))) = true ∧
    begins .xchWant .lineWant (fun t => t.xch.wants.map Want.state = [.queued (.inTenure 3)]) = true ∧
    begins .xchGive .lineGive (fun t => t.xch.gives.map Give.standing = [.inTenure 3]) = true ∧
    begins .ord .reply (fun t => t.lif.engine = .bidding) = true := by decide +kernel

/-- What a lost bid of an owner's frame makes of the state. -/
def loses (owner : Owner) (kind : FrameKind) (p : State → Bool) : Bool :=
  gives (exec .bidLost (onLane (owned owner (.inTenure 3)) owner kind 63 .bidding)) (fun t => t.lif.engine = .receiving && p t)

/-- The CONSOLE-OUT frame on the lane, its watcher gone. -/
def orphan (e : Engine) : State :=
  let s := onLane (owned .cfw (.inTenure 3)) .cfw .consoleOut 9 e
  { s with cfw := { s.cfw with out := s.cfw.out.map (fun o => { o with orphaned := true }) } }

/-- A CLAIM on the lane with its WITHDRAW behind it. -/
def claimWithdrawn : State :=
  let s := onLane (owned .adm (.inTenure 3)) .adm .admitClaim 63 .bidding
  { s with adm := { own := [{ kind := .claim .powerOn, standing := .inTenure 3 }, { kind := .withdraw }] } }

/-- The own frames and PSQ's record once a retract has settled with the sequencer waiting for a slot. -/
def settled (t : State) (own : List OwnKind) (retract : Nat) (asked : Bool) : Bool :=
  t.adm.own.map OwnFrame.kind = own && t.psq.retract = retract && t.psq.claimAsked = asked

/-- The CLAIM and its WITHDRAW with so many retracts counted, the sequencer waiting for a slot, and a beacon in the list. -/
def claimDropped (retract : Nat) : State :=
  { claimWithdrawn with
    psq := unclaimed retract
    lif := { claimWithdrawn.lif with sendList := claimWithdrawn.lif.sendList ++ [{ beaconEntry 0 false with seq := 2 }] } }

theorem test_lost_bid_cancels_a_claim :
    (cancelPair ((claimDropped 1).adm.restand 3 (.listed 3)).own).isSome = true ∧
    gives (exec .bidLost (claimDropped 1)) (fun t => settled t [.claim .powerOn] 0 true &&
      t.lif.sendList.any (fun x => x.kind = .beacon && x.seq = 2) && t.lif.sendList.all (fun x => x.seq ≠ 3)) = true ∧
    gives (exec .bidLost (claimDropped 2)) (fun t => settled t [] 1 false) = true ∧
    gives (exec .bidLost { claimDropped 1 with psq := { unclaimed 1 with variant := .feedRestore } })
      (fun t => settled t [.claim .feedRestore] 0 true) = true ∧
    gives (exec .bidLost { claimDropped 1 with psq := { unclaimed 1 with claimAsked := true } })
      (fun t => settled t [] 0 true) = true ∧
    gives (exec .bidLost { claimDropped 1 with ptu := { server.ptu with state := .listen } })
      (fun t => settled t [] 0 false) = true := by decide +kernel

theorem test_lost_bid_tells_each_owner :
    (onLane (owned .adm (.inTenure 3)) .adm .admitRelease 63 .bidding).lif.entry 3 = some (ownedEntry .adm .admitRelease 63 true) ∧
    gives (exec .bidLost (bidding 0)) (fun t => t.ptu.standing = some (.listed 3) && t.lif.engine = .receiving) = true ∧
    loses .adm .admitRelease (fun t => t.adm.own.map OwnFrame.standing = [.listed 3]) = true ∧
    loses .ntu .notice (fun t => t.ntu.standing = some (.listed 3) && t.ntu.inTenure = none) = true ∧
    loses .cfw .consoleOut (fun t => t.cfw.out.any (fun o => o.standing = .frame (.listed 3))) = true ∧
    loses .xchWant .lineWant (fun t => t.xch.wants.map Want.state = [.queued (.listed 3)]) = true ∧
    loses .xchGive .lineGive (fun t => t.xch.gives.map Give.standing = [.listed 3]) = true ∧
    loses .ord .reply (fun t => t.lif.sendList.map SendEntry.retry = [2]) = true ∧
    gives (exec .bidLost (orphan .bidding)) (fun t => t.cfw.out = none && t.lif.sendList = []) = true ∧
    gives (exec .bidLost claimWithdrawn) (fun t => t.adm.own = [] && t.lif.sendList = []) = true ∧
    gives (exec .bidLost (orphan .sending)) (fun t =>
      t.lif.engine = .receiving && t.lif.tenure.any Tenure.stopped && !t.lif.ltx) = true := by decide +kernel

/-- The end of a tenure. -/
def tenureEnds (s : State) (how : TenureEnd) (p : State → Bool) : Bool :=
  gives (exec (.senderTenureEnd how { role := .serving, snum := 5 }) s) p

/-- The station that stopped sending its beacon, in a state of its engine. -/
def stopped (e : Engine) (drove : Drove) : State :=
  { bidding 3 with lif := { (bidding 3).lif with
    engine := e, drove := drove, ltx := false, tenure := some { seq := 3, frame := frame 63 1 [], bytes := [], stopped := true } } }

theorem test_tenure_end :
    (bidding 3).lif.tenure.isSome = true ∧ (bidding 3).lif.entry 3 = some (beaconEntry 3 true) ∧
    (bidding 3).ord.restartReply ≠ some 3 ∧ (stopped .discarding .spoilSlot).lif.isStopped = true ∧
    tenureEnds (bidding 0) (.slots false false) (fun t => t.lif.sendList = [] && t.ptu.debt = 0 && t.lif.sitOut) = true ∧
    tenureEnds (bidding 2) (.slots true false) (fun t => t.lif.sendList.map SendEntry.retry = [3]) = true ∧
    tenureEnds (bidding 3) (.stopped .tailDominant true) (fun t =>
      t.lif.sendList.length = 0 && t.ptu.debt = 2 && t.lif.engine = .discarding && t.lif.drove = .nothing) = true ∧
    tenureEnds (stopped .receiving .nothing) (.stopped .overLength true) (fun t =>
      t.lif.engine = .discarding && t.lif.drove = .tailBit) = true ∧
    tenureEnds (stopped .discarding .tailBit) (.stopped .badCheck false) (fun t => t.lif.drove = .tailBit) = true ∧
    tenureEnds (onLane (owned .ord .held) .ord .reply 9 .sending) (.slots false true) (fun t => t.lif.sendList = []) = true ∧
    tenureEnds (onLane (owned .ord .held) .ord .reply 9 .sending) (.slots false false) (fun t =>
      t.lif.sendList.map SendEntry.retry = [3]) = true := by decide +kernel

/-- The end of the tenure of an owner's frame at its third sending, sent to all or to station 9. -/
def ends_ (owner : Owner) (kind : FrameKind) (dest : Byte) (how : TenureEnd) (p : State → Bool) : Bool :=
  tenureEnds (onLane (owned owner (.inTenure 3)) owner kind dest .sending) how p

/-- A frame of the computer at its last sending. -/
def computers : State :=
  let s := onLane { station .uplink with ntu := { pause := some 9 } } .upb .order 9 .sending
  { s with lif := { s.lif with sendList := [{ ownedEntry .upb .order 9 true with retry := 3 }] } }

theorem test_outcomes_reach_each_owner :
    (onLane (owned .adm (.inTenure 3)) .adm .admitRelease 63 .sending).lif.endsAs (.slots false false) = true ∧
    (onLane (owned .adm (.inTenure 3)) .adm .admitRelease 63 .sending).lif.endsAs (.stopped .badCheck true) = true ∧
    ends_ .adm .admitRelease 63 (.slots true false) (fun t => t.adm.own.map OwnFrame.standing = [.listed 3]) = true ∧
    ends_ .adm .admitRelease 63 (.slots false false) (fun t => t.adm.own = [] && t.psq.retract = 1) = true ∧
    ends_ .ntu .notice 63 (.slots false true) (fun t => t.ntu.pending = [] && t.ntu.standing = none) = true ∧
    ends_ .ntu .notice 63 (.slots true false) (fun t => t.ntu.standing = some (.listed 3)) = true ∧
    ends_ .ntu .notice 63 (.slots false false) (fun t => t.ntu.pause = some 1000) = true ∧
    ends_ .cfw .consoleOut 9 (.slots true false) (fun t => t.cfw.out.any (fun o => o.standing = .frame (.listed 3))) = true ∧
    ends_ .cfw .consoleOut 9 (.slots false true) (fun t =>
      t.cfw.watchers = [{ watcher 5000 with nextMark := 2, waitStart := none }]) = true ∧
    tenureEnds (orphan .sending) (.slots true false) (fun t => t.cfw.out = none && t.lif.sendList = []) = true ∧
    tenureEnds (orphan .sending) (.slots false true) (fun t => t.cfw.watchers = (orphan .sending).cfw.watchers) = true ∧
    ends_ .xchWant .lineWant 63 (.slots false false) (fun t =>
      t.xch.wants.map (fun w => (w.state, w.timer)) = [(.sent, some 200)]) = true ∧
    ends_ .xchWant .lineWant 63 (.slots true false) (fun t => t.xch.wants.map Want.state = [.queued (.listed 3)]) = true ∧
    ends_ .xchGive .lineGive 63 (.slots false false) (fun t => t.xch.gives = [] &&
      t.lpm.line 3 = some (.clean { image := 1, gen := 0, line := 6 } 0 false) && t.lpm.recency = [3]) = true ∧
    ends_ .xchGive .lineGive 63 (.slots true false) (fun t => t.xch.gives.map Give.standing = [.listed 3]) = true ∧
    tenureEnds computers (.slots false false) (fun t => t.upb.inq = [{ sender := 5, dest := 9, kind := 0x85, body := [1] }]) = true ∧
    tenureEnds computers (.slots false true) (fun t => t.upb.inq = []) = true := by decide +kernel

/-- The station whose retract of a kind is on the lane, with these lists. -/
def retracting (kind : OwnKind) (frameKind : FrameKind) (roster waiting : List Nat) : State :=
  let s := onLane (owned .adm (.inTenure 3)) .adm frameKind 63 .sending
  let f : LaneFrame := { cls := 1, sender := 5, dest := 63, kind := frameKind.code, body := [] }
  { s with
    lif := { s.lif with tenure := some { seq := 3, frame := f, bytes := [] } }
    adm := { own := [{ kind := kind, standing := .inTenure 3 }], roster := roster.map (fun x => (x, 0)), waiting := waiting } }

theorem test_retracts_complete :
    AdmissionOrdered (retracting .withdraw .admitWithdraw [7, 8] [5, 10]) ∧ (retracting .withdraw .admitWithdraw [] []).psq.retract = 2 ∧
    tenureEnds (retracting .withdraw .admitWithdraw [7, 8] [5, 10]) (.slots false false) (fun t => t.adm.own = [] &&
      t.psq.retract = 1 && t.adm.roster.map Prod.fst = [7, 8] && t.adm.waiting = [10]) = true ∧
    tenureEnds (retracting .withdraw .admitWithdraw [7, 5] []) (.slots false true) (fun t => t.adm.own = [] &&
      t.psq.retract = 1 && t.adm.roster.map Prod.fst = [7]) = true ∧
    tenureEnds (retracting .release .admitRelease [5, 8] [10]) (.slots false true) (fun t => t.adm.own = [] &&
      t.psq.retract = 1 && t.adm.roster.map Prod.fst = [8, 10] && t.adm.waiting = []) = true := by
  refine ⟨by constructor <;> decide, by decide +kernel⟩

/-- An owner's frame on the lane at its last sending. -/
def lastSending (owner : Owner) (kind : FrameKind) (dest : Byte) : State :=
  let s := onLane (owned owner (.inTenure 3)) owner kind dest .sending
  { s with lif := { s.lif with sendList := [{ ownedEntry owner kind dest true with retry := 3 }] } }

/-- The sequencer waiting for a slot. -/
def awaiting (s : State) (retract : Nat) : State := { s with psq := unclaimed retract }

/-- The CLAIM on the lane at a sending, a WITHDRAW behind it, the sequencer waiting for a slot. -/
def claimSent (retry : Nat) : State :=
  { claimDropped 1 with lif := { (claimDropped 1).lif with
    engine := .sending, sendList := [{ ownedEntry .adm .admitClaim 63 true with retry := retry }] } }

theorem test_settled_retracts_ask_the_claim :
    tenureEnds (awaiting (retracting .release .admitRelease [5, 8] [10]) 1) (.slots false true) (fun t =>
      settled t [.claim .powerOn] 0 true && t.adm.roster.map Prod.fst = [8, 10]) = true ∧
    tenureEnds (awaiting (retracting .withdraw .admitWithdraw [7, 8] [5, 10]) 1) (.slots false false) (fun t =>
      settled t [.claim .powerOn] 0 true && t.adm.waiting = [10]) = true ∧
    tenureEnds (awaiting (retracting .release .admitRelease [5] []) 2) (.slots false true) (fun t => settled t [] 1 false) = true ∧
    tenureEnds (claimSent 2) (.slots true false) (fun t => settled t [.claim .powerOn] 0 true) = true ∧
    tenureEnds (claimSent 3) (.slots true false) (fun t => settled t [.claim .powerOn] 0 true) = true ∧
    tenureEnds { lastSending .adm .admitRelease 63 with
        adm := { own := [{ kind := .release, standing := .inTenure 3 }, { kind := .claim .powerOn, standing := .listed 4 }] }
        ntu := { pause := some 9 }
        lif := { (lastSending .adm .admitRelease 63).lif with
          nextSeq := 5
          sendList := [{ ownedEntry .adm .admitRelease 63 true with retry := 3 }, { ownedEntry .adm .admitClaim 63 false with seq := 4 }] } }
      (.slots true false) (fun t => t.adm.own.map OwnFrame.standing = [.listed 5, .listed 6] &&
        t.lif.sendList.all (fun x => x.seq ≠ 4)) = true := by decide +kernel

/-- The uplink station whose NOTICE is on the lane, with so many units for the computer. -/
def uplinkNotice (units : Nat) : State :=
  let s := onLane (owned .ntu (.inTenure 3)) .ntu .notice 63 .sending
  { s with
    sld := { s.sld with role := .uplink }
    upb := { inq := List.replicate units { sender := 9, dest := 5, kind := 6, body := [] } } }

theorem test_own_notice_reaches_the_computer :
    (uplinkNotice 31).serving = false ∧ (uplinkNotice 31).upbFree = 1 ∧ (uplinkNotice 32).upbFree = 0 ∧
    (∀ x ∈ (uplinkNotice 31).lif.sendList, x.owner = .upb → x.seq ≠ 3) ∧
    tenureEnds (uplinkNotice 31) (.slots false false) (fun t =>
      t.upb.inq.drop 31 = [{ sender := 5, dest := 63, kind := 7, body := [1] }]) = true ∧
    tenureEnds (uplinkNotice 32) (.slots false true) (fun t => t.upb.inq.length = 32 && t.ntu.pending = []) = true ∧
    tenureEnds (uplinkNotice 0) (.slots true false) (fun t => t.upb.inq = []) = true ∧
    ends_ .ntu .notice 63 (.slots false true) (fun t => t.upb.inq = []) = true := by decide +kernel

theorem test_frames_given_up :
    tenureEnds (lastSending .adm .admitRelease 63) (.slots true false) (fun t =>
      t.adm.own.map OwnFrame.standing = [.listed 4] && t.psq.retract = 2) = true ∧
    tenureEnds (lastSending .cfw .consoleOut 9) (.slots false false) (fun t =>
      t.cfw.watchers.map (fun w => (w.sendPtr, w.gap, w.pause)) = [(4464, 471, some 100)]) = true := by decide +kernel

theorem test_orphaned_console_frame_given_up :
    (orphan .sending).cfw.out.any (fun o => o.isAt 3 && o.orphaned) = true ∧
    tenureEnds { orphan .sending with lif := (lastSending .cfw .consoleOut 9).lif } (.slots true false) (fun t =>
      t.cfw = { (orphan .sending).cfw with out := none } && t.lif.sendList = []) = true := by decide +kernel

/-- The station sending the REPLY to RESTART. -/
def restarting : State :=
  { server with
    lif := { engine := .bidding, nextSeq := 4
             sendList := [{ seq := 3, cls := 1, dest := 9, kind := .reply, payload := .body [0, 0], owner := .ord, inTenure := true }]
             tenure := some { seq := 3, frame := frame 9 6 [0, 0], bytes := [] } }
    ord := { holder := some 9, restartPending := true, restartReply := some 3 } }

theorem test_warm_restart :
    restarting.ord.restartReply = some 3 ∧ restarting.lif.engine = .bidding ∧ (restarting.lif.entry 3).isSome = true ∧
    TenureEnd.outcome (.slots false true) = .taken ∧ 1 ≤ (62 : BitVec 6).toNat ∧ (62 : BitVec 6).toNat ≤ 62 ∧
    gives (exec (.senderTenureEnd (.slots false true) { role := .uplink, snum := 62 }) restarting) (fun t =>
      t.sld.warm && t.sld.phase = .reading 1 && t.now = 0 && t.ord.holder = none) = true ∧
    (∀ n ∈ ([0, 63] : List (BitVec 6)),
      gives (exec (.senderTenureEnd (.slots false true) { role := .serving, snum := n }) restarting) (fun t =>
        t.sld.warm && t.sld.phase = .halted && t.ptu.state = .haltedSetup && t.ptu.boundary = some 1000 &&
        t.lif.engine = .syncing && t.lif.sendList = [] && t.mctl.retention) = true) := by decide +kernel

/-- What State.Reads asks of a frame of station 9. -/
theorem reads_of {s : State} {f : LaneFrame}
    (h : s.rstn = false ∧ (s.lif.engine = .quiet ∨ s.lif.engine = .receiving) ∧ s.lif.tenure = none ∧ f.body.length ≤ 2064 ∧
      f.sender.toNat ≠ s.own ∧ 1 ≤ f.sender.toNat ∧ f.sender.toNat ≤ 62) : s.Reads f :=
  ⟨h.1, h.2.1, h.2.2.1, h.2.2.2.1, h.2.2.2.2.1, h.2.2.2.2.2⟩

/-- What a frame makes of a state, the part handing over so many. -/
def takes (s : State) (f : LaneFrame) (handovers : Nat) (p : State → Bool) : Bool :=
  gives (exec (.frameCompleteUnspoiled f handovers) s) p

/-- The station in HALTED-SETUP. -/
def halted : State := { server with ptu := { server.ptu with state := .haltedSetup } }

theorem test_frames_taken :
    server.Reads (frame 5 5 [3, 1]) ∧ ({ server with lif := { engine := .receiving } } : State).Reads (frame 63 1 []) ∧
    server.lif.takeHeld = none ∧ halted.legalNumber = true ∧
    takes server (frame 5 5 [3, 1]) 1 (fun t => t.ord.inbox = [{ sender := 9, body := [3, 1] }]) = true ∧
    takes server (frame 5 5 [3, 1]) 0 (fun t => t.lif.recvQueue.length = 1 && t.lif.drove = .takeSlot) = true ∧
    takes halted (frame 5 5 [3, 1]) 0 (fun t => t.lif.recvQueue.length = 1) = true ∧
    takes { server with ord := { inbox := List.replicate 4 { sender := 9, body := [] }, restartPending := true } }
      (frame 5 5 [3, 1]) 0 (fun t => t.lif.recvQueue = [] && t.lif.drove = .nothing) = true ∧
    takes server (frame 6 5 [3, 1]) 0 (fun t => t.lif.recvQueue = []) = true ∧
    takes server (frame 5 FrameKind.consoleIn.code [65]) 1 (fun t => t.cfw.queue = [.text 65] && t.cfw.reserved = 0) = true ∧
    takes server (frame 5 FrameKind.consoleIn.code (List.replicate 256 65)) 0 (fun t => t.cfw.reserved = 256) = true ∧
    takes server (frame 5 FrameKind.consoleIn.code []) 0 (fun t => t.lif.recvQueue = []) = true ∧
    takes { server with cfw := { reserved := 257 } } (frame 5 FrameKind.consoleIn.code (List.replicate 256 65)) 0
      (fun t => t.cfw.reserved = 257) = true ∧
    takes { server with ord := {} } (frame 5 FrameKind.consoleIn.code [65]) 0 (fun t => t.lif.recvQueue = []) = true ∧
    takes halted (frame 5 FrameKind.consoleIn.code [65]) 0 (fun t => t.lif.recvQueue = []) = true := by
  refine ⟨reads_of (by decide), reads_of (by decide), by decide +kernel⟩

/-- The station with admission lists and peer 9 serving, at a digest match. -/
def admitting (roster : List (Nat × Time)) (waiting : List Nat) (same : DigestMatch) : State :=
  { server with
    adm := { roster := roster, waiting := waiting, copied := true }
    ptu := server.ptu.setPeer 9 { present := true, role := some .serving, digestMatch := same } }

theorem test_admission_frames :
    AdmissionOrdered (admitting [(7, 0), (8, 0)] [9, 10] .yes) ∧ AdmissionOrdered (admitting [(7, 0)] [] .yes) ∧
    (frame 63 FrameKind.admitClaim.code [1]).dest = toAll ∧
    ((admitting [(7, 0)] [] .yes).ptu.peer 9).role ≠ some .uplink ∧
    ((admitting [(7, 0)] [] .no).ptu.peer 9).digestMatch = .no ∧
    gives (exec (.frameCompleteUnspoiled (frame 63 2 [1]) 0) (admitting [(7, 0)] [] .yes)) (fun t =>
      t.adm.roster.map Prod.fst = [7, 9]) = true ∧
    gives (exec (.frameCompleteUnspoiled (frame 63 2 [2]) 0) (admitting [(7, 0), (8, 0)] [10] .yes)) (fun t =>
      t.adm.waiting = [10, 9]) = true ∧
    gives (exec (.frameCompleteUnspoiled (frame 63 4 []) 0) (admitting [(7, 0), (9, 0)] [10] .yes)) (fun t =>
      t.adm.roster.map Prod.fst = [7, 10] && t.adm.waiting = []) = true ∧
    gives (exec (.frameCompleteUnspoiled (frame 63 2 [1]) 0) (admitting [(7, 0)] [] .no)) (fun t =>
      t.adm.roster.map Prod.fst = [7]) = true := by
  refine ⟨?_, ?_, ?_⟩
  · constructor <;> decide
  · constructor <;> decide
  · decide +kernel

/-- An admission frame leaves both lists of a station as they were. -/
def unmoved (s : State) (f : LaneFrame) : Bool :=
  takes s f 0 (fun t => t.adm.roster = s.adm.roster && t.adm.waiting = s.adm.waiting && t.psq = s.psq)

/-- The station in another state with peer 9 in its roster, its copy made or not. -/
def elsewhere (state : StationState) (copied : Bool) : State :=
  let s := admitting [(7, 0), (9, 0)] [10] .yes
  { s with ptu := { s.ptu with state := state }, adm := { s.adm with copied := copied } }

theorem test_admission_frames_that_fail_a_test :
    unmoved (admitting [(7, 0)] [] .yes) (frame 9 2 [1]) = true ∧ unmoved (admitting [(7, 0)] [] .yes) (frame 63 2 []) = true ∧
    unmoved (admitting [(7, 0)] [] .yes) (frame 63 2 [3]) = true ∧
    unmoved (admitting [(7, 0), (9, 0)] [10] .yes) (frame 63 3 [1]) = true ∧
    unmoved (admitting [(7, 0), (9, 0)] [10] .yes) (frame 63 4 [1]) = true ∧
    unmoved (admitting [(7, 0), (9, 0)] [10] .no) (frame 63 4 []) = true ∧
    unmoved { server with adm := { roster := [(7, 0)], copied := true } } (frame 63 2 [1]) = true ∧
    unmoved (admitting [(7, 0)] [] .yes) { frame 63 2 [1] with sender := 0 } = true ∧
    unmoved (admitting [(7, 0)] [] .yes) { frame 63 2 [1] with sender := 63 } = true ∧
    (∀ state ∈ [StationState.setup, .silent, .haltedSetup], unmoved (elsewhere state true) (frame 63 4 []) = true) ∧
    unmoved (elsewhere .listen false) (frame 63 4 []) = true ∧
    takes (elsewhere .listen true) (frame 63 4 []) 0 (fun t =>
      t.adm.roster.map Prod.fst = [7, 10] && t.adm.waiting = []) = true := by decide +kernel

/-- The station with its own claim on the lane. -/
def claiming (psq : Psq) : State :=
  let f : LaneFrame := { cls := 0, sender := 5, dest := 63, kind := 2, body := [1] }
  { withPsq psq with
    adm := { own := [{ kind := .claim .powerOn, standing := .inTenure 3 }], roster := [(7, 0)], copied := true }
    ntu := { pause := some 9 }
    lif := { engine := .sending, ltx := true, nextSeq := 4, sendList := [ownedEntry .adm .admitClaim 63 true]
             tenure := some { seq := 3, frame := f, bytes := [] } } }

/-- The station waiting behind stations 7 and 9. -/
def promoted (psq : Psq) : State :=
  { admitting [(7, 0), (9, 0)] [5, 10] .yes with psq := psq, ntu := { pause := some 9 } }

/-- The record with no settle time. -/
def unsettled (s : State) : State := { s with sld := { s.sld with settings := some { record with settle := 0 } } }

theorem test_grant :
    AdmissionOrdered (claiming (claimingPsq .powerOn false)) ∧ AdmissionOrdered (promoted (claimingPsq .powerOn false)) ∧
    (promoted (claimingPsq .powerOn false)).Reads (frame 63 4 []) ∧
    (claiming (claimingPsq .powerOn false)).lif.entry 3 = some (ownedEntry .adm .admitClaim 63 true) ∧
    cancelPair ((claiming server.psq).adm.ownWith [{ kind := .release }]) = none ∧
    5 ∈ (promoted server.psq).adm.waiting.take (2 - 1) ∧ (claiming server.psq).grantReleases = true ∧
    (unsettled (claiming (claimingPsq .feedRestore true))).grantReleases = true ∧
    tenureEnds (claiming (claimingPsq .powerOn false)) (.slots false false) (fun t => t.psq.state = some .starting &&
      t.psq.slotHeld && t.psq.press = .pulse 200 && t.adm.roster.map Prod.fst = [7, 5] && t.adm.own = []) = true ∧
    tenureEnds (claiming (claimingPsq .feedRestore false)) (.slots false true) (fun t => t.psq.state = some .starting &&
      t.psq.feedClosed && t.ccu.marks.map Mark.kind = [.feedRestored]) = true ∧
    tenureEnds (claiming (claimingPsq .feedRestore true)) (.slots false false) (fun t => t.psq.state = some .on &&
      t.psq.slotHeld && t.psq.settleT = some 5000) = true ∧
    tenureEnds (unsettled (claiming (claimingPsq .feedRestore true))) (.slots false false) (fun t =>
      t.psq.state = some .on && !t.psq.slotHeld && t.psq.retract = 1) = true ∧
    tenureEnds (claiming server.psq) (.slots false false) (fun t => t.psq.state = some .off && t.psq.retract = 1 &&
      t.adm.own.map OwnFrame.kind = [.release]) = true ∧
    takes (promoted (claimingPsq .powerOn false)) (frame 63 4 []) 0 (fun t =>
      t.psq.state = some .starting && t.adm.roster.map Prod.fst = [7, 5] && t.adm.waiting = [10]) = true ∧
    takes (promoted (claimingPsq .powerOn false)) (frame 63 3 []) 0 (fun t =>
      t.psq.state = some .starting && t.adm.roster.map Prod.fst = [7, 5] && t.adm.waiting = [10]) = true ∧
    takes (promoted server.psq) (frame 63 4 []) 0 (fun t =>
      t.psq.retract = 1 && t.adm.own.map OwnFrame.kind = [.release]) = true := by
  refine ⟨by constructor <;> decide, by constructor <;> decide, reads_of (by decide), ?_⟩
  decide +kernel

/-- The station with its own claim on the lane and the roster full. -/
def crowded (psq : Psq) : State :=
  let s := claiming psq
  { s with adm := { s.adm with roster := [(7, 0), (8, 0)], waiting := [10] } }

theorem test_claim_with_the_roster_full :
    AdmissionOrdered (crowded (claimingPsq .powerOn false)) ∧
    (crowded server.psq).setting Settings.slotCount ≤ (crowded server.psq).adm.roster.length ∧
    tenureEnds (crowded (claimingPsq .powerOn false)) (.slots false false) (fun t => t.adm.own = [] &&
      t.adm.waiting = [10, 5] && t.adm.roster.map Prod.fst = [7, 8] && t.psq = claimingPsq .powerOn false) = true := by
  refine ⟨by constructor <;> decide, by decide +kernel⟩

/-- A beacon of station 9 in MEMBER with this station's digest. -/
def beacon (role : Role) (roster waiting : List Nat) : Beacon :=
  { role := role, state := .member, digest := 7, seq := { state := 4, variant := 0, pendingAct := 0, slotHeld := 0 }
    attach := (1, 2), roster := roster, waiting := waiting, holder := 0 }

/-- What a beacon of station 9 makes of the station with these lists. -/
def hears (s : State) (b : Beacon) (p : State → Bool) : Bool := takes s (frame 63 1 b.bytes) 0 p

/-- The lists after a beacon of station 9 in MEMBER. -/
def repairs (roster : List Nat) (waiting : List Nat) (b : Beacon) (after : List Nat) (behind : List Nat) : Bool :=
  hears { admitting (roster.map (fun x => (x, 0))) waiting .yes with ntu := { pause := some 9 } } b
    (fun t => t.adm.roster.map Prod.fst = after && t.adm.waiting = behind)

/-- The station in LISTEN before its copy. -/
def listening : State :=
  { server with
    ptu := { state := .listen, boundary := some 1000, digest := some 7 }, adm := {}, ntu := { pause := some 9 } }

theorem test_beacon_lists :
    beaconOf (frame 63 1 (beacon .serving [9, 8] [6]).bytes) = some (beacon .serving [9, 8] [6]) ∧
    (beacon .serving [9] [6]).Fits ∧ listening.Reads (frame 63 1 []) ∧
    repairs [9] [7] (beacon .serving [9] []) [9] [7] = true ∧ repairs [7, 8] [9] (beacon .serving [9] []) [7, 8] [9] = true ∧
    repairs [7] [] (beacon .serving [9] []) [7, 9] [] = true ∧ repairs [7, 8] [] (beacon .serving [9] []) [7, 8] [] = true ∧
    repairs [9, 7] [8] (beacon .serving [] [9]) [7, 8] [9] = true ∧ repairs [7, 8] [9] (beacon .serving [] [9]) [7, 8] [9] = true ∧
    repairs [7, 8] [] (beacon .serving [] [9]) [7, 8] [9] = true ∧ repairs [9, 7] [8] (beacon .serving [] []) [7, 8] [] = true ∧
    repairs [7, 8] [9] (beacon .serving [] []) [7, 8] [] = true ∧ repairs [7, 8] [] (beacon .serving [] []) [7, 8] [] = true ∧
    repairs [9, 7] [8] (beacon .uplink [] []) [7, 8] [] = true ∧
    hears listening (beacon .serving [9, 62] [1, 6]) (fun t =>
      t.adm.copied && t.adm.roster.map Prod.fst = [9, 62] && t.adm.waiting = [1, 6]) = true ∧
    hears listening (beacon .serving [] [1, 6, 8]) (fun t =>
      t.adm.roster.map Prod.fst = [1, 6] && t.adm.waiting = [8]) = true := by
  refine ⟨by decide +kernel, ?_, reads_of (by decide), by decide +kernel⟩
  constructor <;> decide

theorem test_beacon_lists_copied_over_long_or_from_an_uplink :
    (beacon .uplink [9] []).Fits ∧ listening.serving = true ∧
    hears listening (beacon .serving [9, 9, 0, 63, 62, 7] [62, 1, 7, 1]) (fun t =>
      t.adm.copied && t.adm.roster.map Prod.fst = [9, 62] && t.adm.waiting = [1, 7]) = true ∧
    hears listening (beacon .uplink [9, 7] [6]) (fun t =>
      t.adm.copied && t.adm.roster.map Prod.fst = [7, 6] && t.adm.waiting = []) = true ∧
    hears { admitting [(7, 0), (8, 0)] [9] .yes with ntu := { pause := some 9 } } (beacon .uplink [9] []) (fun t =>
      t.adm.roster.map Prod.fst = [7, 8] && t.adm.waiting = [] && told t .rosterConflict = some [9]) = true ∧
    hears (promoted (claimingPsq .powerOn false)) (beacon .uplink [] []) (fun t =>
      t.psq.state = some .starting && t.adm.roster.map Prod.fst = [7, 5] && told t .powerState = some [6, 1, 0, 1]) = true := by
  refine ⟨?_, by decide +kernel⟩
  constructor <;> decide

theorem test_repair_promotes :
    AdmissionOrdered (promoted (claimingPsq .powerOn false)) ∧ (promoted server.psq).ptu.state = .member ∧
    hears (promoted (claimingPsq .powerOn false)) (beacon .serving [] []) (fun t =>
      t.psq.state = some .starting && t.adm.roster.map Prod.fst = [7, 5] && told t .powerState = some [6, 1, 0, 1]) = true ∧
    hears (promoted (claimingPsq .powerOn false)) (beacon .serving [] [9]) (fun t =>
      t.psq.state = some .starting && t.adm.waiting = [10, 9]) = true ∧
    hears (promoted server.psq) (beacon .serving [] []) (fun t =>
      t.psq.retract = 1 && t.adm.own.map OwnFrame.kind = [.release]) = true := by
  refine ⟨by constructor <;> decide, by decide, by decide +kernel⟩

theorem test_beacon_content :
    hears { server with ntu := { pause := some 9 } } (beacon .serving [] []) (fun t =>
      (t.ptu.peer 9).digestMatch = .yes && (t.ptu.peer 9).lastAttach = some (1, 2) && t.ord.holder = none &&
      t.ntu.pending.map PendingNotice.detail = [[9, 0, 3]]) = true ∧
    hears { server with ntu := { pause := some 9 } } { beacon .uplink [] [] with digest := 8 } (fun t =>
      t.ptu.mismatch && t.ord.holder = some 9 && t.ntu.pending.map PendingNotice.detail = [[1, 1, 9]]) = true ∧
    hears server { beacon .uplink [] [] with state := .haltedSetup, digest := 8 } (fun t =>
      (t.ptu.peer 9).digestMatch = .notKnown && !t.ptu.mismatch) = true ∧
    hears { admitting [(7, 0), (8, 0)] [9] .yes with ntu := { pause := some 9 } } (beacon .serving [9] []) (fun t =>
      t.ntu.pending.map PendingNotice.kind = [.rosterConflict, .claimLost]) = true ∧
    hears { server with cfw := { watchers := [watcher 0] }, ntu := { pause := some 9 } } (beacon .serving [] []) (fun t =>
      t.cfw.watchers = []) = true ∧
    takes server (frame 5 1 (beacon .serving [] []).bytes) 0 (fun t => t.ord.holder = some 9 &&
      (t.ptu.peer 9).lastSeq = none) = true ∧
    takes server (frame 63 1 ((beacon .serving [] []).bytes.take 13)) 0 (fun t => t.ord.holder = some 9) = true := by
  decide +kernel

theorem test_duplicate_number :
    server.legalNumber = true ∧ server.ptu.state = .member ∧ ({ frame 5 5 [] with sender := 5 } : LaneFrame).sender.toNat = server.own ∧
    gives (exec .duplicateStationNumber (bidding 0)) (fun t => t.ptu.state = .silent && t.lif.stat) = true ∧
    gives (exec .duplicateStationNumber (withOrder server [3, 1])) (fun t => t.ord.inbox.length = 1) = true ∧
    gives (exec .duplicateStationNumber { server with ord := { holder := some 9, inbox :=
      [{ sender := 9, body := [3, 1], standing := .replyHeld [1, 0] false }, { sender := 9, body := [3, 2] }] } }) (fun t =>
      t.ord.inbox = [{ sender := 9, body := [3, 2] }] && t.ord.holder = some 9) = true ∧
    gives (exec (.frameCompleteUnspoiled { frame 5 5 [] with sender := 5 } 0) server) (fun t => t.ptu.state = .silent) = true := by
  decide +kernel

/-- The sit-out flag after a frame of the own number. -/
def sitsOut (s : State) (sitOut : Bool) : Bool :=
  gives (exec .duplicateStationNumber s) (fun t => t.ptu.state = .silent && t.lif.sitOut = sitOut)

theorem test_duplicate_sits_out :
    sitsOut (bidding 0) false = true ∧ sitsOut server false = true ∧
    sitsOut { bidding 0 with lif := { (bidding 0).lif with engine := .sending } } true = true ∧
    sitsOut (stopped .receiving .nothing) true = true ∧
    gives (exec (.frameCompleteUnspoiled { frame 5 5 [] with sender := 5 } 0) (stopped .receiving .nothing)) (fun t =>
      t.ptu.state = .silent && t.lif.sitOut) = true := by decide +kernel

theorem test_hold_limit :
    AdmissionOrdered (admitting [(9, 0), (5, 0)] [10] .yes) ∧
    ((9 : BitVec 6).toNat, (0 : Time)) ∈ (admitting [(9, 0), (5, 0)] [10] .yes).adm.roster ∧
    ({ server with adm := { expired := [(9, 4)] } } : State).adm.expired.find? (fun e => e.1 = (9 : BitVec 6).toNat) = some (9, 4) ∧
    gives (exec (.entryHoldLimit 9) (admitting [(9, 0), (5, 0)] [10] .yes)) (fun t =>
      t.adm.roster.map Prod.fst = [5, 10] && t.adm.expired = [(9, 18000)]) = true ∧
    gives (exec (.entryHoldLimit 5)
      { admitting [(7, 0), (5, 0)] [10] .yes with psq := { onPsq with slotHeld := true, settleT := some 9 } }) (fun t =>
      !t.psq.slotHeld && t.psq.settleT = none && t.psq.state = some .on && t.adm.roster.map Prod.fst = [7, 10] &&
      t.adm.expired = [(5, 18000)]) = true ∧
    gives (exec (.entryHoldLimit 9) (promoted (claimingPsq .powerOn false))) (fun t =>
      t.psq.state = some .starting && t.psq.slotHeld && t.adm.roster = [(7, 0), (5, 17000)]) = true ∧
    gives (exec (.entryHoldLimit 9) (promoted server.psq)) (fun t =>
      t.psq.retract = 1 && t.adm.own.map OwnFrame.kind = [.release]) = true ∧
    gives (exec (.expiredSetTimeout 9) { server with adm := { expired := [(9, 4)] } }) (fun t => t.adm.expired = []) = true := by
  refine ⟨?_, ?_⟩
  · constructor <;> decide
  · decide +kernel

/-! ### Memory -/

/-- The station with its memory controller as given, its geometry that of the record. -/
def withMctl (m : Mctl) : State := { server with mctl := { m with mem := .up, geometry := some record.geometry } }

/-- The station with a request in progress. -/
def serving (req : MemReq) : State := withMctl { current := some { req := req } }

/-- A read of one block. -/
def readReq : MediaReq := { line := 0, isRead := true, blocks := [1], lineNo := 0, request := 0 }

theorem test_arbiter :
    (withMctl { debt := 8, waitCapture := true }).mctl.mem = .up ∧ (withMctl { debt := 8 }).mctl.current = none ∧
    gives (exec .arbiterGrant (withMctl { debt := 8, waitCapture := true })) (fun t =>
      t.mctl.current = some { req := .refresh }) = true ∧
    gives (exec .arbiterGrant (withMctl { debt := 7, waitCapture := true })) (fun t =>
      t.mctl.current = some { req := .capture 0 }) = true ∧
    gives (exec .arbiterGrant (withMctl { waitRecv := [(3, [])], waitMedia := [readReq] })) (fun t =>
      t.mctl.current = some { req := .receive 3 [] }) = true ∧
    gives (exec .arbiterGrant (withMctl { waitMedia := [readReq], waitForward := some (0, 4) })) (fun t =>
      t.mctl.current = some { req := .media readReq }) = true ∧
    gives (exec .arbiterGrant (withMctl { waitForward := some (0, 4), waitSend := some (1, 2) })) (fun t =>
      t.mctl.current = some { req := .forward 0 4 }) = true ∧
    gives (exec .arbiterGrant (withMctl { waitSend := some (1, 2) })) (fun t =>
      t.mctl.current = some { req := .send 1 2 }) = true ∧
    gives (exec .arbiterGrant (withMctl { debt := -7 })) (fun t => t.mctl.current = some { req := .refresh }) = true ∧
    gives (exec .arbiterGrant (withMctl { debt := -8 })) (fun t => t.mctl.current = none) = true ∧
    gives (exec .arbiterGrant (serving .refresh)) (fun t => t.mctl.current = some { req := .refresh }) = true := by
  decide +kernel

theorem test_refresh_debt :
    (withMctl { debt := 8 }).mctl.mem = .up ∧ still.mctl.mem ≠ .up ∧ (serving .refresh).mctl.current.isSome = true ∧
    (serving (.capture 0)).mctl.debt < 8 ∧
    gives (exec .refreshIntervalExpiry (withMctl { debt := 8 })) (fun t => t.mctl.debt = 8) = true ∧
    gives (exec .refreshGiven (serving .refresh)) (fun t => t.mctl.debt = -1 && t.mctl.current = none) = true ∧
    gives (exec .refreshGiven (withMctl { debt := 8, current := some { req := .capture 0 } })) (fun t =>
      t.mctl.debt = 7 && t.mctl.current.isSome) = true := by decide +kernel

/-- The station with two bytes in its buffer at the end of the ring and their write in progress. -/
def capturing : State :=
  { serving (.capture 2) with ccu := { rx := .idle, running := true, ringSize := 65536, captured := 65537, buffer := [65, 66] } }

theorem test_capture_write :
    capturing.mctl.current = some { req := .capture 2 } ∧ capturing.ccu.ringSize ≤ capturing.mctl.size ∧
    Memory.wf capturing.sdram ∧ (capturing.ccu.buffer.take 2).length ≤ capturing.ccu.ringSize ∧
    ({ capturing with mctl := { capturing.mctl with geometry := none } } : State).mctl.size < capturing.ccu.ringSize ∧
    gives (exec .captureWriteComplete capturing) (fun t =>
      Memory.read t.sdram 65535 = 65 && Memory.read t.sdram 0 = 66 && t.ccu.buffer = []) = true := by decide +kernel

/-- A forwarding read of two bytes in progress for the watcher. -/
def forwarding : State :=
  { serving (.forward 0 2) with
    ccu := { rx := .idle, running := true, ringSize := 65536, captured := 2 }
    sdram := [(0, 65), (1, 66)]
    cfw := { watchers := [watcher 0], out := some { station := 9, standing := .reading, first := 0, last := 2 } } }

/-- The read of a LINE-GIVE in progress. -/
def giveRead (pos : Nat) : State := { serving (.send pos 7) with lif := { engine := .quiet, giveBuf := .reading 7 } }

theorem test_reads :
    forwarding.mctl.current = some { req := .forward (watcher 0).sendPtr 2 } ∧
    forwarding.ccu.ringSize ≤ forwarding.mctl.size ∧
    forwarding.cfw.watchers.find? (fun v => v.station = 9) = some (watcher 0) ∧
    (giveRead 0).ccu.ringSize + 2048 * 0 + 2048 ≤ (giveRead 0).mctl.size ∧ (giveRead 0).lif.giveBuf = .reading 7 ∧
    (giveRead 100000).mctl.size < (giveRead 100000).ccu.ringSize + 2048 * 100000 + 2048 ∧
    gives (exec .consoleForwardReadComplete forwarding) (fun t => t.cfw.out.any (fun o =>
      o.body = be 8 0 ++ be 4 0 ++ [0, 65, 66])) = true ∧
    gives (exec .consoleForwardReadComplete
      { forwarding with mctl := { forwarding.mctl with current := some { req := .forward 0 2, reported := false } } })
      (fun t => t.cfw.out.any (fun o => o.body = [])) = true ∧
    gives (exec .laneSendReadComplete (giveRead 0)) (fun t =>
      t.lif.giveBuf = .loaded 7 (List.replicate 2048 0)) = true := by decide +kernel

theorem test_reads_that_load_nothing :
    gives (exec .laneSendReadComplete
      { giveRead 0 with mctl := { (giveRead 0).mctl with current := some { req := .send 0 7, reported := false } } })
      (fun t => t.lif.giveBuf = .reading 7 && t.mctl.current = none) = true ∧
    gives (exec .laneSendReadComplete { giveRead 0 with lif := { engine := .quiet, giveBuf := .discarding } }) (fun t =>
      t.lif.giveBuf = .free) = true := by decide +kernel

/-- A mark at an offset. -/
def markAt (number : BitVec 32) (offset : Nat) : Mark := { offset := offset, number := number, kind := .reset, time := 3, arg := 4 }

/-- The forwarding read with ten marks, eight of them at offset 1, and the send pointer at `ptr`. -/
def marked (ptr : Nat) : State :=
  { forwarding with
    ccu := { forwarding.ccu with
      markCounter := 10
      marks := [markAt 0 0] ++ ([1, 2, 3, 4, 5, 6, 7, 8] : List (BitVec 32)).map (fun n => markAt n 1) ++ [markAt 9 2] }
    cfw := { forwarding.cfw with watchers := [watcher ptr] } }

/-- The 21 bytes of a mark. -/
def markBytes (number offset : Nat) : Bytes := be 8 offset ++ be 4 number ++ [MarkKind.reset.code] ++ be 4 3 ++ be 4 4

theorem test_reads_with_marks :
    (marked 0).cfw.watchers.find? (fun v => v.station = 9) = some (watcher 0) ∧ (marked 0).cfw.out.isSome = true ∧
    gives (exec .consoleForwardReadComplete (marked 0)) (fun t => t.cfw.out.any (fun o =>
      o.body = be 8 0 ++ be 4 0 ++ [8] ++ markBytes 0 0 ++ ([1, 2, 3, 4, 5, 6, 7].flatMap (fun n => markBytes n 1)) ++ [65]) &&
      t.cfw.watchers.map Watcher.sendPtr = [1]) = true ∧
    gives (exec .consoleForwardReadComplete { marked 1 with cfw := { (marked 1).cfw with watchers := [{ watcher 1 with nextMark := 9 }] } })
      (fun t => t.cfw.out.any (fun o => o.body = be 8 1 ++ be 4 0 ++ [1] ++ markBytes 9 2 ++ [66]) &&
        t.cfw.watchers.map (fun w => w.inFlight.map InFlight.resume) = [some 10]) = true ∧
    gives (exec .consoleForwardReadComplete { marked 1 with cfw := { (marked 1).cfw with watchers := [{ watcher 1 with nextMark := 10 }] } })
      (fun t => t.cfw.out.any (fun o => o.body = be 8 1 ++ be 4 0 ++ [0, 66])) = true ∧
    gives (exec .consoleForwardReadComplete (marked 3)) (fun t => t.cfw.out = none) = true := by decide +kernel

/-- The fill of line 3 landing. -/
def landing : State :=
  { serving (.receive 3 (List.replicate 2048 7)) with
    lpm := { poolSize := 16, reserve := 8, lines := [(3, .filling { image := 1, gen := 0, line := 6 } .inFlight)] }
    xch := { wants := [{ key := { image := 1, gen := 0, line := 6 }, purpose := .demand, state := .landing 0, line := 3 }] } }

theorem test_receive_write :
    landing.ccu.ringSize + 2048 * 3 + 2048 ≤ landing.mctl.size ∧ Memory.wf landing.sdram ∧
    landing.lpm.line 3 = some (.filling { image := 1, gen := 0, line := 6 } .inFlight) ∧ landing.mfn.request = none ∧
    (landing.xch.wants.find? (fun v => v.line = 3)).isSome = true ∧
    gives (exec .laneReceiveWriteComplete landing) (fun t =>
      t.lpm.line 3 = some (.clean { image := 1, gen := 0, line := 6 } 0 false) && t.xch.wants = []) = true := by
  decide +kernel

/-- The attachment of image 1 with a READ of block 25 whose step stands so. -/
def needing (state : StepState) : Mfn :=
  { state := .attached, image := 1, capacity := 64, changed := true, port := .configured
    request := some { serial := 0, kind := .read, first := 25, count := 1, delivery := 25, blocked := true
                      steps := [{ line := 6, first := 1, last := 1, source := .fetchThenMerge, state := state }] } }

/-- The fill of line 3, its want VOID for a cause. -/
def voided (cause : VoidCause) (mfn : Mfn) : State :=
  { landing with
    lpm := { poolSize := 16, reserve := 8, lines := [(3, .filling { image := 1, gen := 0, line := 6 } .freePending)] }
    xch := { wants := [{ key := { image := 1, gen := 0, line := 6 }, purpose := .demand, state := .void 0 cause, line := 3 }] }
    mfn := mfn
    ntu := { pause := some 9 } }

theorem test_receive_write_reports :
    gives (exec .laneReceiveWriteComplete { landing with mfn := needing .waiting }) (fun t => t.mctl.waitMedia.length = 1 &&
      t.mfn.request.any (fun r => !r.blocked && r.steps.map XferStep.state = [.ready])) = true ∧
    gives (exec .laneReceiveWriteComplete { landing with mfn := needing .ready }) (fun t => t.mctl.waitMedia.length = 0 &&
      t.mfn.request.any (fun r => !r.blocked && r.steps.map XferStep.state = [.ready])) = true ∧
    gives (exec .laneReceiveWriteComplete (voided .dropped {})) (fun t => t.lpm.lines = [] && t.xch.wants = []) = true ∧
    gives (exec .laneReceiveWriteComplete (voided .retired {})) (fun t => t.lpm.lines = [] && t.mfn = {}) = true ∧
    gives (exec .laneReceiveWriteComplete (voided .retired (needing .waiting))) (fun t => t.mfn.request = none &&
      t.mfn.usbStatus = some .mediumError && t.ntu.pending.map PendingNotice.kind = [.mediaFailure]) = true ∧
    gives (exec .laneReceiveWriteComplete (voided .retired (needing .ready))) (fun t =>
      t.mfn.request.any (fun r => !r.blocked)) = true := by decide +kernel

/-- A step over block 1 of line 0. -/
def oneBlock (source : Source) : XferStep := { line := 0, first := 1, last := 1, source := source, state := .ready }

/-- A media transfer of block 1 in progress for a request. -/
def transferring (isRead : Bool) : State :=
  { serving (.media { readReq with isRead := isRead, data := if isRead then [] else List.replicate 512 7 }) with
    lpm := { poolSize := 16, reserve := 8
             lines := [(0, if isRead then .clean { image := 1, gen := 0, line := 0 } 1 false else .dirty 0 15 1 false)] }
    mfn := { state := .attached, image := 1, capacity := 8, mode := .overlay, changed := true, port := .configured
             request := some { serial := 0, kind := if isRead then .read else .write, first := 1, count := 1
                               steps := [oneBlock (if isRead then .cache else .overlay)], delivery := 1 } } }

theorem test_media_transfer :
    (transferring false).ccu.ringSize + 2048 * 0 + 2048 ≤ (transferring false).mctl.size ∧
    Memory.wf (transferring false).sdram ∧ (transferring false).mfn.draining = false ∧
    (oneBlock .overlay).blocks = readReq.blocks ∧ (transferring true).mfn.tracker = none ∧
    (List.replicate 512 (7 : Byte)).length = 512 * 1 ∧
    gives (exec .mediaTransferComplete (transferring false)) (fun t =>
      t.mfn.usbStatus = some .good && t.mfn.request = none) = true ∧
    gives (exec .mediaTransferComplete (transferring true)) (fun t =>
      t.mfn.usbStatus = some .good && t.mfn.tracker = some 1) = true := by
  decide +kernel

/-- A media transfer in progress for a request over blocks 3 and 4, its second step still to come. -/
def firstOfTwo (isRead : Bool) : State :=
  let second : XferStep := { line := 1, first := 0, last := 0, source := .overlay, state := .waiting }
  let first : XferStep := { line := 0, first := 3, last := 3, source := .cache, state := .ready }
  let m : MediaReq := { readReq with isRead := isRead, blocks := [3], data := if isRead then [] else List.replicate 512 7 }
  let request : Request :=
    { serial := 0, kind := if isRead then .read else .write, first := 3, count := 2, steps := [first, second], delivery := 3 }
  { transferring isRead with
    mctl := { (transferring isRead).mctl with current := some { req := .media m } }
    mfn := { (transferring isRead).mfn with request := some request } }

/-- The READ in progress right behind a READ, with the tracker at the block before it. -/
def following : State :=
  { transferring true with mfn := { (transferring true).mfn with tracker := some 0 } }

/-- The transfer, its request over. -/
def unserved : State := { transferring true with mfn := { (transferring true).mfn with request := none } }

theorem test_media_steps :
    (∀ x ∈ (firstOfTwo true).mctl.waitMedia, x.isRead = true → x.request ≠ 0) ∧
    gives (exec .mediaTransferComplete (firstOfTwo true)) (fun t => t.mfn.usbStatus = none &&
      t.mfn.request.any (fun r => r.delivery = 4 && r.steps.map XferStep.state = [.done, .waiting]) &&
      t.mfn.usbData.length = 512 && t.lpm.line 0 = some (.clean { image := 1, gen := 0, line := 0 } 0 false)) = true ∧
    gives (exec .mediaTransferComplete (firstOfTwo false)) (fun t => t.mfn.usbStatus = none &&
      t.mfn.request.any (fun r => r.steps.map XferStep.state = [.done, .waiting]) &&
      t.lpm.line 0 = some (.dirty 0 15 0 false)) = true ∧
    gives (exec .mediaTransferComplete following) (fun t => t.mfn.tracker = some 1 &&
      t.xch.wants.map (fun w => (w.key.line, w.purpose)) = [(1, .readahead)]) = true ∧
    gives (exec .mediaTransferComplete unserved) (fun t => t.mfn.usbData = [] && t.mctl.current = none &&
      t.lpm.recency = [0]) = true := by decide +kernel

/-- The transfer of a WRITE, its request ended. -/
def abortedWrite (reported : Bool) : State :=
  { transferring false with
    mctl := { (transferring false).mctl with
      current := (transferring false).mctl.current.map (fun c => { c with reported := reported }) }
    mfn := { (transferring false).mfn with request := none } }

theorem test_write_of_an_ended_request_completes :
    Memory.wf (abortedWrite true).sdram ∧ [1].Pairwise (· < ·) ∧
    gives (exec .mediaTransferComplete (abortedWrite true)) (fun t => t.lpm.line 0 = some (.dirty 0 15 0 false) &&
      t.mctl.current = none && t.mfn = (abortedWrite true).mfn) = true ∧
    gives (exec .mediaTransferComplete (abortedWrite false)) (fun t => t.lpm = (abortedWrite false).lpm &&
      t.mctl.current = none) = true := by decide +kernel

/-- The last transfer of a READ or WRITE in progress as the attachment drains, the READ right behind a READ. -/
def lastOf (isRead : Bool) : State :=
  let s := if isRead then following else transferring false
  { s with
    mfn := { s.mfn with cause := some .order, drain := some 9 }
    mctl := { s.mctl with waitMedia := [{ readReq with line := 2, request := 7 }] }
    lpm := { s.lpm with lines := s.lpm.lines ++ [(2, .clean { image := 1, gen := 0, line := 5 } 1 false), (3, .dirty 3 1 0 false)] } }

theorem test_media_ends_as_it_drains :
    (lastOf true).mfn.draining = true ∧ (lastOf false).mfn.draining = true ∧
    gives (exec .mediaTransferComplete (lastOf true)) (fun t => t.mfn.usbStatus = some .good && t.mfn.request = none &&
      t.mfn.state = .none && t.mfn.lastCause = some .order && t.xch.wants = [] && t.mctl.waitMedia = [] &&
      t.lpm.line 2 = some (.clean { image := 1, gen := 0, line := 5 } 0 false) && t.lpm.line 3 = none &&
      t.lpm.recency = [0, 2]) = true ∧
    gives (exec .mediaTransferComplete (lastOf false)) (fun t => t.mfn.usbStatus = some .good && t.mfn.request = none &&
      t.mfn.state = .none && t.lpm.dirtyCount = 0) = true := by decide +kernel

/-- The READ right behind a READ, over an image of 64 blocks, with these lines and wants beside its own. -/
def followed (lines : List (Nat × Line)) (wants : List Want) : State :=
  { following with
    lpm := { following.lpm with lines := following.lpm.lines ++ lines }
    xch := { wants := wants }
    mfn := { following.mfn with capacity := 64 } }

/-- What readahead asks: the lines of the wants after the READ, with its purpose. -/
def readsAhead (lines : List (Nat × Line)) (wants : List Want) (asked : List Nat) : Bool :=
  gives (exec .mediaTransferComplete (followed lines wants)) (fun t =>
    (t.xch.wants.drop wants.length).map (fun w => (w.key.line, w.purpose)) = asked.map (fun x => (x, .readahead)))

/-- A want SENT of a line of another image. -/
def sentWant (line : Nat) : Want :=
  { key := { image := 9, gen := 0, line := line }, purpose := .demand, state := .sent, line := line + 1, timer := some 99 }

theorem test_readahead :
    (followed [] []).lpm.Placed ∧ (followed [] []).setting Settings.readahead = 2 ∧ (followed [] []).mfn.tracker = some 0 ∧
    readsAhead [] [] [1, 2] = true ∧ readsAhead [(1, .clean { image := 1, gen := 0, line := 1 } 0 false)] [] [2] = true ∧
    readsAhead [(1, .dirty 2 15 0 false)] [] [1] = true ∧
    readsAhead [] ((List.range 7).map sentWant) [1] = true ∧ readsAhead [] ((List.range 8).map sentWant) [] = true := by
  refine ⟨by constructor <;> decide, by decide +kernel⟩

/-! ### Power -/

/-- Records of the sequencer in each state, as R4 admits them. -/
def startingPsq : Psq :=
  { state := some .starting, variant := .powerOn, slotHeld := true, startT := some 10000, restPhase := .satisfied }
def feedStarting (act : PendingAct) : Psq := { startingPsq with variant := .feedRestore, pendingAct := act }
def stoppingPsq (v : Variant) : Psq := { state := some .stopping, variant := v, graceT := some 60000, pgood := true }
def forcingPsq (pgood : Bool) : Psq :=
  { state := some .forcing, pendingAct := .powerOn, forceT := some 10000, pgood := pgood, press := .long 6000 }
def restingPsq (act : PendingAct) : Psq :=
  { state := some .resting, pendingAct := act, restPhase := .running, restT := some 5000 }
def bouncePsq (phase : RestPhase) (pgood : Bool) : Psq :=
  { state := some .feedBounce, feedClosed := false, restPhase := phase, pgood := pgood
    restT := if phase = .running then some 5000 else none, forceT := if phase = .running then none else some 10000 }
def cutPsq (phase : RestPhase) (pgood : Bool) (act : PendingAct) : Psq :=
  { state := some .feedCut, feedClosed := false, restPhase := phase, pgood := pgood, pendingAct := act
    restT := if phase = .running then some 5000 else none }
def awaitingPsq (v : Variant) : Psq :=
  { state := some .awaitingSlot, variant := v, claimAsked := true, restPhase := .satisfied
    feedClosed := v ≠ .feedRestore }
def youngPsq (d : Deferred) : Psq := { onPsq with young := true, youngT := some 10000, deferred := d }
def settlingPsq : Psq := { onPsq with slotHeld := true, settleT := some 5000 }

theorem test_sequencer_records_are_legal :
    ∀ p ∈ [onPsq, startingPsq, feedStarting .none, feedStarting .powerOn, stoppingPsq .soft, stoppingPsq .softThenHard,
      forcingPsq true, forcingPsq false, restingPsq .none, restingPsq .powerOn, bouncePsq .running false,
      bouncePsq .awaitingFall true, cutPsq .running false .none, cutPsq .running false .feedRestore,
      cutPsq .satisfied false .none, cutPsq .awaitingFall true .none, awaitingPsq .powerOn, awaitingPsq .feedRestore,
      youngPsq .none, youngPsq .soft, youngPsq .softThenHard, settlingPsq, server.psq], p.Legal := by
  intro p hp
  simp only [List.mem_cons, List.not_mem_nil, or_false] at hp
  rcases hp with rfl | rfl | rfl | rfl | rfl | rfl | rfl | rfl | rfl | rfl | rfl | rfl | rfl | rfl | rfl | rfl | rfl | rfl |
    rfl | rfl | rfl | rfl | rfl <;> (constructor <;> decide)

/-- What a command makes of the sequencer's state. -/
def leadsTo (c : Instr) (p : Psq) (st : SeqState) : Bool := gives (exec c (withPsq p)) (fun t => t.psq.state = some st)

theorem test_pgood_active :
    server.rstn = false ∧ startingPsq.pgood = false ∧ ({ server with sld := {} } : State).setting Settings.settle = 0 ∧
    leadsTo .pgoodActive startingPsq .on = true ∧ leadsTo .pgoodActive (restingPsq .powerOn) .on = true ∧
    leadsTo .pgoodActive (awaitingPsq .powerOn) .on = true ∧
    leadsTo .pgoodActive (awaitingPsq .feedRestore) .awaitingSlot = true ∧
    leadsTo .pgoodActive (bouncePsq .running false) .feedBounce = true ∧
    leadsTo .pgoodActive (forcingPsq false) .forcing = true := by decide +kernel

theorem test_pgood_inactive :
    leadsTo .pgoodInactive (stoppingPsq .soft) .resting = true ∧ leadsTo .pgoodInactive (forcingPsq true) .resting = true ∧
    leadsTo .pgoodInactive onPsq .resting = true ∧ leadsTo .pgoodInactive (cutPsq .awaitingFall true .none) .feedCut = true ∧
    leadsTo .pgoodInactive (bouncePsq .awaitingFall true) .feedBounce = true ∧
    gives (exec .pgoodInactive { withPsq onPsq with wdu := { armed := true, guard := true, timeout := some 60 } }) (fun t =>
      t.psq.pendingAct = .powerOn) = true := by decide +kernel

/-- A server with a boot-once attachment, a request in progress or not. -/
def bootOnce (psq : Psq) (request : Option Request) : State :=
  { withPsq psq with
    mfn := { state := .attached, image := 1, capacity := 8, bootOnce := true, port := .configured, request := request }
    ntu := { pause := some 9 } }

/-- A READ in progress that waits for nothing more. -/
def reading : Request :=
  { serial := 0, kind := .read, first := 1, count := 1, steps := [{ oneBlock .cache with todo := [] }], delivery := 1 }

/-- A boot-once attachment drains with cause POWER-OFF when the server goes off, or has ended at once. -/
def bootEnds (c : Instr) (s : Option Request → State) (due : Time) : Bool :=
  gives (exec c (s (some reading))) (fun t => t.mfn.cause = some .powerOff && t.mfn.drain = some due && t.mfn.state = .attached) &&
  gives (exec c (s none)) (fun t => t.mfn.lastCause = some .powerOff && t.mfn.state = .none)

theorem test_power_off_ends_boot_once :
    bootEnds .pgoodInactive (bootOnce onPsq) 2000 = true ∧
    gives (exec .startTimerExpiry (bootOnce startingPsq none)) (fun t => t.mfn.state = .attached) = true ∧
    bootEnds .forceTimerExpiry (bootOnce (forcingPsq false)) 12000 = true ∧
    bootEnds .forceTimerExpiry (bootOnce (forcingPsq true)) 12000 = true ∧
    bootEnds .powerFeedCut (fun r => withOrder (bootOnce onPsq r) [6, 1, 7]) 2000 = true ∧
    gives (exec .pgoodInactive { bootOnce onPsq none with mfn := { (bootOnce onPsq none).mfn with bootOnce := false } })
      (fun t => t.mfn.state = .attached && t.mfn.cause = none) = true := by decide +kernel

theorem test_power_timers :
    startingPsq.startT = some 10000 ∧ cancelPair (server.adm.ownWith [{ kind := .release }]) = none ∧
    leadsTo .startTimerExpiry startingPsq .resting = true ∧ leadsTo .startTimerExpiry (feedStarting .none) .off = true ∧
    leadsTo .startTimerExpiry (feedStarting .powerOn) .awaitingSlot = true ∧
    gives (exec .settleTimerExpiry (withPsq settlingPsq)) (fun t => !t.psq.slotHeld && t.psq.retract = 1) = true ∧
    leadsTo .youngTimerExpiry (youngPsq .none) .on = true ∧ leadsTo .youngTimerExpiry (youngPsq .soft) .stopping = true ∧
    leadsTo .youngTimerExpiry (youngPsq .softThenHard) .stopping = true ∧
    leadsTo .graceTimerExpiry (stoppingPsq .soft) .on = true ∧
    leadsTo .graceTimerExpiry (stoppingPsq .softThenHard) .forcing = true ∧
    leadsTo .forceTimerExpiry (forcingPsq true) .feedBounce = true ∧
    leadsTo .forceTimerExpiry (forcingPsq false) .resting = true ∧
    leadsTo .forceTimerExpiry (bouncePsq .awaitingFall true) .feedBounce = true ∧
    leadsTo .restTimerExpiry (restingPsq .none) .off = true ∧
    leadsTo .restTimerExpiry (restingPsq .powerOn) .awaitingSlot = true ∧
    leadsTo .restTimerExpiry (bouncePsq .running false) .awaitingSlot = true ∧
    leadsTo .restTimerExpiry (cutPsq .running false .feedRestore) .awaitingSlot = true ∧
    leadsTo .restTimerExpiry (cutPsq .running false .none) .feedCut = true := by decide +kernel

theorem test_short_timers :
    gives (exec .pressPulseEnd (withPsq { onPsq with press := .pulse 200 })) (fun t => t.psq.press = .released) = true ∧
    gives (exec .longPressEnd (withPsq (forcingPsq true))) (fun t => t.psq.press = .released && t.now = 6000) = true ∧
    gives (exec .resetPulseEnd (withPsq { onPsq with resetPulse := some 200 })) (fun t => t.psq.resetPulse = none) = true ∧
    gives (exec (.watcherWaitExpiry 9) { server with cfw := { watchers := [{ watcher 0 with waitStart := some 0 }] } })
      (fun t => t.now = 20) = true ∧
    gives (exec (.watcherPauseExpiry 9) { server with cfw := { watchers := [{ watcher 0 with pause := some 9 }] } })
      (fun t => t.cfw.watchers = [watcher 0]) = true ∧
    gives (exec .noticePauseExpiry { server with ntu := { pause := some 9 } }) (fun t => t.ntu.pause = none) = true := by
  decide +kernel

/-! ### Console, watchdog and timers -/

/-- The station's console as given. -/
def withCcu (ccu : Ccu) : State := { server with ccu := { ccu with ringSize := 65536 } }

theorem test_receiver :
    gives (exec .consoleLineIdle (withCcu { rx := .seekingIdle })) (fun t => t.ccu.rx = .idle) = true ∧
    gives (exec .consoleFramingError (withCcu { rx := .idle, garbled := 4294967295 })) (fun t =>
      t.ccu.garbled = 4294967295) = true ∧
    gives (exec .consoleBreakStart (withCcu { rx := .idle })) (fun t => t.ccu.rx = .brk) = true ∧
    gives (exec (.consoleBreakEnd 3) (withCcu { rx := .brk, running := true, lost := 2 })) (fun t =>
      t.ccu.marks.map (fun m => (m.kind, m.arg, m.number)) = [(.lost, 2, 0), (.breakIn, 3, 1)] && t.ccu.lost = 0 &&
      t.ccu.markCounter = 2 && t.ccu.run = 0) = true ∧
    gives (exec (.consoleBreakEnd 3)
      (withCcu { rx := .brk, running := true, lost := 2, garbled := 1, lossOrder := .garbledFirst, markCounter := 64
                 marks := (List.range 64).map (fun n => markAt (BitVec.ofNat 32 n) 0) }))
      (fun t => t.ccu.marks.length = 64 && t.ccu.markCounter = 67 &&
        (t.ccu.marks.drop 61).map (fun m => (m.kind, m.arg, m.number)) =
          [(.garbled, 1, 64), (.lost, 2, 65), (.breakIn, 3, 66)]) = true ∧
    gives (exec (.consoleBreakEnd 3) (withCcu { rx := .brk })) (fun t => t.ccu.marks = []) = true := by decide +kernel

/-- The console with `n` bytes in its buffer. -/
def buffered (n : Nat) : State :=
  withCcu { rx := .idle, running := true, captured := n, buffer := List.replicate n 65, window := [64], run := 1 }

theorem test_good_byte :
    (buffered 63).ccu.buffer.length < 64 ∧ 64 ≤ (buffered 64).ccu.buffer.length ∧
    (∀ p ∈ (buffered 63).patterns, p.text = []) ∧
    gives (exec (.consoleGoodByte 66) (buffered 64)) (fun t => t.ccu.lost = 1 && t.ccu.captured = 64) = true ∧
    gives (exec (.consoleGoodByte 66) (buffered 63)) (fun t => t.ccu.captured = 64 && t.ccu.window = [64, 66]) = true := by
  decide +kernel

/-- The console in a ring of 4 bytes with 64 marks and both losses owed, a watcher at offset 60. -/
def losing (order : LossOrder) : State :=
  let s := buffered 63
  { s with
    ccu := { s.ccu with
      ringSize := 4, lost := 2, garbled := 3, lossOrder := order, markCounter := 64
      marks := (List.range 64).map (fun n => markAt (BitVec.ofNat 32 n) n) }
    cfw := { watchers := [watcher 59] } }

/-- The marks after a good byte: number, offset, kind and argument. -/
def losses (order : LossOrder) (marks : List (Nat × Nat × MarkKind × Nat)) : Bool :=
  gives (exec (.consoleGoodByte 66) (losing order)) (fun t =>
    t.ccu.marks.map (fun m => (m.number.toNat, m.offset, m.kind, m.arg)) = marks && t.ccu.markCounter = 66 && t.ccu.run = 1 &&
    t.cfw.watchers.map (fun w => (w.sendPtr, w.gap)) = [(60, 1)])

theorem test_good_byte_after_losses :
    (losing .lostFirst).ccu.marks.length = 64 ∧ (losing .lostFirst).ccu.buffer.length = 63 ∧
    losses .lostFirst [(60, 60, .reset, 4), (61, 61, .reset, 4), (62, 62, .reset, 4), (63, 63, .reset, 4),
      (64, 63, .lost, 2), (65, 63, .garbled, 3)] = true ∧
    losses .garbledFirst [(60, 60, .reset, 4), (61, 61, .reset, 4), (62, 62, .reset, 4), (63, 63, .reset, 4),
      (64, 63, .garbled, 3), (65, 63, .lost, 2)] = true := by decide +kernel

/-- The console one byte short of a match of pattern 1, "@B", with an action, on a server that is on. -/
def matching (action : PatternAction) (panic : FaultAction) : State :=
  let unused : Pattern := { action := .note, text := [] }
  let patterned : Settings :=
    { record with panicResponse := panic, patterns := [unused, { action := action, text := [64, 66] }, unused] }
  { buffered 1 with
    psq := onPsq
    wdu := { armed := true, timeout := some 60, lastBeat := some 0, early := 2 }
    mfn := { state := .attached, bootOnce := true, image := 1, capacity := 8 }
    sld := { snum := 5, phase := .handedOver, settings := some patterned } }

/-- The byte that completes the match makes of the state. -/
def matched (action : PatternAction) (panic : FaultAction) (p : State → Bool) : Bool :=
  gives (exec (.consoleGoodByte 66) (matching action panic)) p

theorem test_matches :
    (matching .note .notice).ccu.lost = 0 ∧ (matching .note .notice).ccu.garbled = 0 ∧
    (matching .note .notice).patterns[1]? = some { action := .note, text := [64, 66] } ∧
    [(64 : Byte), 66] <:+ (matching .note .notice).ccu.window ++ [66] ∧
    (∀ j q, (matching .note .notice).patterns[j]? = some q → j ≠ 1 → q.text = []) ∧
    matched .note .notice (fun t => t.ntu.pending.map PendingNotice.kind = [.patternNote]) = true ∧
    matched .bootDone .notice (fun t => t.mfn.lastCause = some .bootDone) = true ∧
    matched .heartbeat .notice (fun t => t.wdu.expiry = 1 && t.wdu.early = 0) = true ∧
    matched .panic .notice (fun t => t.wdu.holdoff && t.psq.state = some .on) = true ∧
    matched .panic .reset (fun t => t.wdu.holdoff && t.psq.resetPulse = some 200) = true ∧
    matched .panic .cycle (fun t => t.psq.state = some .forcing) = true := by
  refine ⟨by decide, by decide, by decide, ⟨[], by decide⟩, ?_, by decide +kernel⟩
  intro j q h hj
  have hlt : j < 3 := by
    by_contra k
    have : (matching .note .notice).patterns.length ≤ j := by
      have e : (matching .note .notice).patterns.length = 3 := by decide
      omega
    rw [List.getElem?_eq_none this] at h
    exact absurd h (by simp)
  have : j = 0 ∨ j = 2 := by omega
  rcases this with rfl | rfl <;> (cases h; rfl)

/-- The console with several patterns in use, on a server that is on: "@B", "B", "C" and "B" again. -/
def patterned (wdu : Wdu) (actions : List PatternAction) : State :=
  let texts : List Bytes := [[64, 66], [66], [67], [66]]
  let patterns : List Pattern := (actions.zip texts).map (fun p => { action := p.1, text := p.2 })
  { buffered 1 with
    psq := onPsq
    wdu := wdu
    ntu := { pause := some 9 }
    sld := { snum := 5, phase := .handedOver, settings := some { record with patterns := patterns } } }

/-- An armed record of the watchdog with so many early heartbeats and expiries. -/
def beating (action : FaultAction) (early expiry : Nat) : Wdu :=
  { armed := true, timeout := some 60, action := action, lastBeat := some 0, early := early, expiry := expiry, bootAllowance := 300 }

theorem test_matches_in_turn :
    (patterned {} [.note, .note, .note, .note]).ccu.buffer.length < 64 ∧
    gives (exec (.consoleGoodByte 68) (patterned {} [.note, .note, .note, .note])) (fun t =>
      t.ccu.captured = 2 && t.ntu.pending = []) = true ∧
    gives (exec (.consoleGoodByte 67) (patterned {} [.note, .note, .note, .note])) (fun t =>
      t.ntu.pending.map (fun p => (p.kind, p.detail)) = [(.patternNote, 2 :: be 8 2)]) = true ∧
    gives (exec (.consoleGoodByte 66) (patterned {} [.note, .bootDone, .note, .panic])) (fun t =>
      t.ntu.pending.map (fun p => (p.kind, p.detail)) =
        [(.patternNote, 0 :: be 8 2), (.bootDone, 1 :: be 8 2), (.panicSeen, 3 :: (be 8 2 ++ [1]))]) = true ∧
    gives (exec (.consoleGoodByte 66) (patterned {} [.note, .note, .note, .note])) (fun t =>
      t.ntu.pending.map (fun p => (p.kind, p.detail, p.raise)) = [(.patternNote, 3 :: be 8 2, 0)]) = true ∧
    gives (exec (.consoleGoodByte 66) (patterned (beating .reset 0 0) [.heartbeat, .heartbeat, .note, .heartbeat])) (fun t =>
      t.wdu.early = 0 && t.wdu.expiry = 1 && t.psq.resetPulse = some 200 &&
      t.ntu.pending.map (fun p => (p.kind, p.detail)) = [(.earlyHeartbeats, [3, 3]), (.watchdogExpired, [2, 2, 1])]) = true := by
  decide +kernel

/-- What a heartbeat makes of a server that is on, with a record of the watchdog. -/
def beats (wdu : Wdu) (p : State → Bool) : Bool :=
  gives (exec (.consoleGoodByte 67) { patterned wdu [.note, .note, .heartbeat] with ptu := { server.ptu with state := .member } }) p

theorem test_heartbeats :
    beats { beating .reset 2 1 with lastBeat := none, pendingTimeout := some 30 } (fun t => t.wdu.early = 0 && t.wdu.expiry = 0 &&
      t.wdu.timeout = some 30 && t.wdu.deadline = some 30000 && t.wdu.lastBeat = some 0) = true ∧
    beats (beating .reset 1 0) (fun t => t.wdu.early = 2 && t.wdu.expiry = 0 && t.psq.resetPulse = none) = true ∧
    beats (beating .reset 2 0) (fun t => t.wdu.early = 0 && t.wdu.expiry = 1 && t.psq.resetPulse = some 200 &&
      t.wdu.deadline = some 300000 && t.ccu.marks.map (fun m => (m.kind, m.arg)) = [(.watchdog, 4), (.reset, 1)]) = true ∧
    beats (beating .reset 2 1) (fun t => t.wdu.expiry = 2 && t.psq.state = some .forcing && t.psq.pendingAct = .powerOn &&
      t.ccu.marks.map (fun m => (m.kind, m.arg)) = [(.watchdog, 5)]) = true ∧
    beats (beating .cycle 2 0) (fun t => t.psq.state = some .forcing && told t .watchdogExpired = some [2, 3, 1]) = true ∧
    gives (exec (.consoleGoodByte 67)
      { patterned (beating .cycle 2 0) [.note, .note, .heartbeat] with ptu := { server.ptu with mismatch := true } })
      (fun t => told t .faultRefused = some [1, 6, 4] && t.wdu.deadline = some 60000 && t.psq.state = some .on) = true ∧
    gives (exec (.consoleGoodByte 67)
      { patterned (beating .reset 2 0) [.note, .note, .heartbeat] with psq := { onPsq with resetPulse := some 9 } })
      (fun t => told t .faultRefused = some [1, 5, 3] && t.wdu.deadline = some 60000 && t.wdu.early = 0) = true ∧
    beats { beating .reset 2 0 with armed := false } (fun t => t.wdu = { beating .reset 2 0 with armed := false }) = true ∧
    gives (exec (.consoleGoodByte 67) { patterned (beating .reset 2 0) [.note, .note, .heartbeat] with psq := server.psq })
      (fun t => t.wdu = beating .reset 2 0) = true := by decide +kernel

theorem test_input_items :
    gives (exec .consoleTextByteSent { server with cfw := { queue := [.text 65], tx := .char 65 } }) (fun t =>
      t.cfw.queue = []) = true ∧
    gives (exec .consoleBreakOutEnd { server with cfw := { queue := [.brk 9], tx := .breakLow 300 } }) (fun t =>
      t.cfw.queue = [] && t.cfw.tx = .guardHigh) = true ∧
    gives (exec .consoleBreakGuardEnd { server with cfw := { queue := [.text 65], tx := .guardHigh } }) (fun t =>
      t.cfw.tx = .char 65) = true ∧
    server.inputDrains = true ∧ server.cfw.tx = .idle ∧ ({ server with cfw := { queue := [.brk 9] } } : State).startInput.cfw.tx =
      .breakLow 300 := by decide +kernel

/-- The server on with an armed watchdog whose deadline is set. -/
def guarded (action : FaultAction) (expiry : Nat) (pulse : Option Time) : State :=
  { withPsq { onPsq with resetPulse := pulse } with
    wdu := { armed := true, timeout := some 60, action := action, expiry := expiry, deadline := some 60000 } }

theorem test_deadline :
    (guarded .reset 0 none).psq.Legal ∧ (guarded .reset 0 none).wdu.deadline = some 60000 ∧
    gives (exec .watchdogDeadlineExpiry (guarded .notice 2 none)) (fun t => t.wdu.deadline = some 120000 && t.wdu.expiry = 2) = true ∧
    gives (exec .watchdogDeadlineExpiry (guarded .reset 0 none)) (fun t => t.psq.resetPulse = some 60200) = true ∧
    gives (exec .watchdogDeadlineExpiry (guarded .reset 0 (some 9))) (fun t =>
      t.ntu.pending.map PendingNotice.kind = [.watchdogExpired, .faultRefused]) = true ∧
    gives (exec .watchdogDeadlineExpiry (guarded .reset 1 none)) (fun t => t.psq.state = some .forcing) = true ∧
    gives (exec .watchdogDeadlineExpiry
      { guarded .cycle 0 none with ptu := { server.ptu with mismatch := true } }) (fun t => t.psq.state = some .on) = true := by
  refine ⟨by constructor <;> decide, by decide +kernel⟩

/-- The station with a want at a number of tries. -/
def wanting (tries : Nat) : State :=
  { server with
    lpm := { poolSize := 16, reserve := 8, lines := [(3, .filling { image := 1, gen := 0, line := 6 } .none)] }
    xch := { wants := [{ key := { image := 1, gen := 0, line := 6 }, purpose := .demand, state := .sent, tries := tries
                         timer := some 200, line := 3 }] } }

theorem test_want_timer :
    (wanting 3).lpm.line 3 = some (.filling { image := 1, gen := 0, line := 6 } .none) ∧ (wanting 3).mfn.request = none ∧
    gives (exec (.wantTimerExpiry 0) (wanting 2)) (fun t => t.xch.wants.map Want.tries = [3]) = true ∧
    gives (exec (.wantTimerExpiry 0) (wanting 3)) (fun t => t.xch.wants = [] && t.lpm.lines = []) = true := by
  decide +kernel

theorem test_want_fails_with_a_request :
    (wanting 3).xch.wants[0]?.map Want.timer = some (some 200) ∧
    gives (exec (.wantTimerExpiry 0) { wanting 3 with mfn := needing .waiting, ntu := { pause := some 9 } }) (fun t =>
      t.mfn.request = none && t.mfn.usbStatus = some .mediumError && t.xch.wants = [] && t.lpm.lines = [] &&
      told t .mediaFailure = some [0, 0, 0, 6, 0, 1, 0]) = true ∧
    gives (exec (.wantTimerExpiry 0) { wanting 3 with mfn := needing .ready }) (fun t =>
      t.mfn.request.any (fun r => !r.blocked) && t.mfn.usbStatus = none && t.xch.wants = []) = true ∧
    gives (exec (.wantTimerExpiry 0)
      { wanting 3 with mfn := { needing .waiting with cause := some .order, drain := some 999 }, ntu := { pause := some 9 } })
      (fun t => t.mfn.request = none && t.mfn.state = .none && t.mfn.lastCause = some .order) = true := by decide +kernel

/-- The key of line 6. -/
def key6 : Key := { image := 1, gen := 0, line := 6 }

/-- The station with its want of line 6 in a state and its line FILLING. -/
def wants6 (st : WantState) (entry : List SendEntry) : State :=
  { wanting 0 with
    ntu := { pause := some 9 }
    lif := { engine := .quiet, nextSeq := 4, sendList := entry }
    xch := { wants := [{ key := key6, purpose := .demand, state := st, line := 3 }] } }

/-- The station holding line 6 CLEAN, with gives of it. -/
def holds6 (pins : Nat) (given : List Give) : State :=
  { server with
    ntu := { pause := some 9 }
    lpm := { poolSize := 16, reserve := 8, lines := [(3, .clean key6 pins false)], recency := if pins = 0 then [3] else [] }
    xch := { gives := given } }

/-- The want's state and timer after a LINE-WANT or LINE-GIVE of its key. -/
def wantAfter (kind : FrameKind) (body : Bytes) (st : WantState) (after : WantState) (timer : Option Time) : Bool :=
  takes (wants6 st [ownedEntry .xchWant .lineWant 63 false]) (frame 63 kind.code body) 0 (fun t =>
    t.xch.wants.map (fun w => (w.state, w.timer)) = [(after, timer)])

theorem test_line_want :
    (wants6 (.queued (.listed 3)) []).Reads (frame 63 FrameKind.lineWant.code key6.bytes) ∧
    field (be 2 65534) 0 2 = 65534 ∧ (holds6 0 []).lpm.find key6 = some (3, .clean key6 0 false) ∧
    wantAfter .lineWant key6.bytes (.queued (.listed 3)) .riding (some 200) = true ∧
    wantAfter .lineWant key6.bytes .sent .sent none = true ∧
    takes (wants6 (.queued (.listed 3)) [ownedEntry .xchWant .lineWant 63 false]) (frame 63 FrameKind.lineWant.code key6.bytes) 0
      (fun t => t.lif.sendList = []) = true ∧
    takes (holds6 0 []) (frame 63 FrameKind.lineWant.code key6.bytes) 0 (fun t => t.xch.gives.map Give.key = [key6] &&
      t.lpm.line 3 = some (.clean key6 1 false) && t.lpm.recency = []) = true ∧
    takes { holds6 0 [] with ptu := { server.ptu with state := .listen } } (frame 63 FrameKind.lineWant.code key6.bytes) 0
      (fun t => t.xch.gives = []) = true ∧
    takes (holds6 1 [{ key := key6, line := 3 }]) (frame 63 FrameKind.lineWant.code key6.bytes) 0
      (fun t => t.xch.gives.length = 1 && t.lpm.line 3 = some (.clean key6 1 false)) = true := by
  refine ⟨reads_of (by decide), by decide +kernel⟩

/-- The body of a LINE-GIVE of line 6. -/
def give6 : Bytes := key6.bytes ++ List.replicate 2048 7

/-- The uplink with two gives of the computer, one short. -/
def relaying : State :=
  { station .uplink with
    ntu := { pause := some 9 }
    upb := { outq := [{ dest := 63, kind := .lineGive, body := key6.bytes }, { dest := 63, kind := .lineGive, body := [0, 1] }] }
    lif := { engine := .quiet, nextSeq := 4, sendList :=
      [{ ownedEntry .upb .lineGive 63 false with payload := .body give6 }, { ownedEntry .upb .order 9 false with seq := 2 }] } }

theorem test_line_give :
    give6.length = 2055 ∧ (wants6 .sent []).xch.fillBufs.get 0 = none ∧
    (wants6 .sent []).lpm.line 3 = some (.filling key6 .none) ∧
    wantAfter .lineGive give6 .sent (.landing 0) none = true ∧ wantAfter .lineGive give6 .riding (.landing 0) none = true ∧
    takes (wants6 (.queued (.listed 3)) [ownedEntry .xchWant .lineWant 63 false]) (frame 63 FrameKind.lineGive.code give6) 0
      (fun t => t.lif.sendList = [] && t.mctl.waitRecv = [(3, List.replicate 2048 7)] &&
        t.lpm.line 3 = some (.filling key6 .inFlight)) = true ∧
    takes { wants6 .sent [] with xch := { (wants6 .sent []).xch with fillBufs := Vector.replicate 4 (some []) } }
      (frame 63 FrameKind.lineGive.code give6) 0 (fun t => t.xch.wants.map Want.state = [.sent]) = true ∧
    takes (holds6 1 [{ key := key6, line := 3 }]) (frame 63 FrameKind.lineGive.code give6) 0 (fun t => t.xch.gives = [] &&
      t.lpm.line 3 = some (.clean key6 0 false)) = true ∧
    takes { holds6 1 [{ key := key6, line := 3, standing := .inTenure 3 }] with lif := { engine := .receiving } }
      (frame 63 FrameKind.lineGive.code give6) 0 (fun t => t.xch.gives.length = 1) = true ∧
    takes relaying (frame 63 FrameKind.lineGive.code give6) 0 (fun t =>
      t.lif.sendList.map SendEntry.payload = [.body [1], .body [0, 1]]) = true := by
  decide +kernel

/-- A frame of the exchange leaves a station's wants, gives and lines as they were. -/
def ignores (s : State) (f : LaneFrame) : Bool := takes s f 0 (fun t => t.xch = s.xch && t.lpm = s.lpm && t.mfn = s.mfn)

/-- A kind's frame is ignored by a station where it fails a test, and where the station is not in LISTEN or MEMBER. -/
def ignoresAll (s : State) (kind : FrameKind) (body : Bytes) : Bool :=
  let rest := body.drop 2
  let at_ := fun (state : StationState) => ({ s with ptu := { s.ptu with state := state } } : State)
  ignores s (frame 9 kind.code body) && ignores s (frame 63 kind.code (body ++ [0])) &&
  ignores s (frame 63 kind.code (body.take (body.length - 1))) && ignores s (frame 63 kind.code (0 :: 0 :: rest)) &&
  ignores s (frame 63 kind.code (255 :: 255 :: rest)) && ignores (at_ .haltedSetup) (frame 63 kind.code body) &&
  ignores (at_ .silent) (frame 63 kind.code body) && !ignores s (frame 63 kind.code body)

theorem test_exchange_frames_that_fail_a_test :
    ignoresAll (holds6 0 []) .lineWant key6.bytes = true ∧
    ignoresAll { holds6 1 [{ key := key6, line := 3 }] with
        lif := { engine := .quiet, sendList := List.replicate 24 (beaconEntry 0 false) } } .lineGive give6 = true ∧
    ignoresAll { holds6 0 [] with mfn := { needing .ready with gen := 0 } } .imageRetire [0, 1, 0] = true ∧
    ignores { holds6 0 [] with ptu := server.ptu.setPeer 9 { present := true, role := some .serving } }
      (frame 63 FrameKind.imageRetire.code [0, 1, 0]) = true ∧
    field ([255, 254] : Bytes) 0 2 = 65534 := by decide +kernel

/-- The station with lines and wants of image 1, the attachment of that image, and a request that waits for a line. -/
def retiring (waitsFor : Option Nat) : State :=
  let key : Nat → Key := fun n => { image := 1, gen := 0, line := n }
  let step : Nat → XferStep := fun n => { line := n, first := 0, last := 0, source := .fetchThenMerge, state := .waiting }
  { server with
    ntu := { pause := some 9 }
    lpm := { poolSize := 16, reserve := 8
             lines := [(0, .filling (key 0) .none), (1, .filling (key 1) .inFlight), (2, .clean (key 2) 0 false),
               (3, .clean (key 3) 1 false), (4, .dirty 4 1 0 false), (5, .clean { key 2 with gen := 1 } 0 false)] }
    xch := { wants := [{ key := key 0, purpose := .demand, state := .sent, line := 0 },
                       { key := key 1, purpose := .demand, state := .landing 2, line := 1 }] }
    mfn := { state := .attached, image := 1, capacity := 8, port := .configured, changed := true
             request := waitsFor.map (fun n =>
               { serial := 0, kind := .read, first := 4 * n, count := 1, steps := [step n], delivery := 4 * n }) } }

/-- What an IMAGE-RETIRE of image 1, generation 0, makes of it. -/
def retires (waitsFor : Option Nat) (p : State → Bool) : Bool :=
  takes (retiring waitsFor) (frame 63 FrameKind.imageRetire.code [0, 1, 0]) 0 p

theorem test_image_retire :
    (retiring none).lpm.Placed ∧ ((retiring none).ptu.peer 9).role = some .uplink ∧
    (retiring (some 1)).mfn.cause = none ∧
    retires none (fun t => t.lpm.lines = [(1, .filling { key6 with line := 1 } .freePending), (3, .clean { key6 with line := 3 } 1 true),
      (5, .clean { image := 1, gen := 1, line := 2 } 0 false)] &&
      t.xch.wants.map Want.state = [.void 2 .retired] && t.mfn.lastCause = some .retired) = true ∧
    retires (some 1) (fun t => t.mfn.state = .attached && t.mfn.cause = some .retired && t.mfn.drain = some 2000 &&
      t.mfn.request.isSome) = true ∧
    retires (some 0) (fun t => t.mfn.usbStatus = some .mediumError && t.mfn.request = none &&
      (t.ntu.pending.find? (fun n => n.kind = .mediaFailure)).map PendingNotice.detail = some [0, 0, 0, 0, 0, 1, 0]) = true ∧
    takes { retiring (some 0) with mfn := { (retiring (some 0)).mfn with cause := some .order, drain := some 9 } }
      (frame 63 FrameKind.imageRetire.code [0, 1, 0]) 0 (fun t => t.mfn.state = .none && t.mfn.lastCause = some .order &&
        t.mfn.usbStatus = some .mediumError && t.lpm.dirtyCount = 0) = true ∧
    takes { retiring none with ptu := { server.ptu with peers := State.reset.ptu.peers } }
      (frame 63 FrameKind.imageRetire.code [0, 1, 0]) 0 (fun t => t.lpm = (retiring none).lpm && t.mfn.cause = none) = true := by
  refine ⟨by constructor <;> decide, by decide +kernel⟩

/-- The uplink station with an IMAGE-RETIRE of its computer on the lane. -/
def retiringItself : State :=
  let s : State := { retiring (some 0) with sld := (station .uplink).sld }
  let f : LaneFrame := { cls := 1, sender := 5, dest := 63, kind := FrameKind.imageRetire.code, body := [0, 1, 0] }
  { s with lif := { engine := .sending, ltx := true, nextSeq := 4, sendList := [ownedEntry .upb .imageRetire 63 true]
                    tenure := some { seq := 3, frame := f, bytes := [] } } }

theorem test_image_retire_in_uplink_role :
    retiringItself.serving = false ∧ retiringItself.lif.entry 3 = some (ownedEntry .upb .imageRetire 63 true) ∧
    retiringItself.lpm.Placed ∧
    tenureEnds retiringItself (.slots false false) (fun t => t.mfn.usbStatus = some .mediumError && t.mfn.request = none &&
      t.lpm.line 0 = none && t.lpm.line 2 = none && t.lif.sendList = []) = true ∧
    takes { retiring none with sld := (station .uplink).sld } (frame 63 FrameKind.imageRetire.code [0, 1, 0]) 0 (fun t =>
      t.lpm.line 0 = none && t.xch.wants.map Want.state = [.void 2 .retired] && t.mfn.lastCause = some .retired) = true := by
  refine ⟨by decide, by decide, by constructor <;> decide, by decide +kernel⟩

/-! ### Orders -/

/-- An order of station 9 stands at the head with its tests passed. -/
def atHead (s : State) (body : Bytes) (row : OrderRow) : Prop := OrderAtHead (withOrder s body) { sender := 9, body := body } [] row

/-- The status of the REPLY listed for station 9, where one is. -/
def answered (c : Instr) (s : State) (body : Bytes) (status : Byte) : Bool :=
  gives (exec c (withOrder s body)) (fun t => t.lif.sendList.any (fun e =>
    e.dest = 9 && e.kind = .reply && (match e.payload with
      | .body b => byteAt b 1 = status
      | _ => false)))

theorem test_failed_orders :
    answered .orderNameInvalid server [14, 1] OrderStatus.invalid.code = true ∧
    answered .orderNameInvalid server [] OrderStatus.invalid.code = true ∧
    answered .unwatch { server with ptu := server.ptu.setPeer 9 {} } [5, 1] OrderStatus.notUplink.code = true ∧
    answered .unwatch { server with ptu := { server.ptu with state := .haltedSetup } } [5, 1]
      OrderStatus.notMember.code = true ∧
    answered .powerOn { server with ord := {} } [6, 1, 1] OrderStatus.notHolder.code = true ∧
    answered .unwatch server [5, 1, 0] OrderStatus.invalid.code = true ∧
    gives (exec .watch (withOrder server [5, 1])) (fun t => t.lif.sendList = []) = true := by decide +kernel

theorem test_orders_at_head :
    (∀ a ∈ [1, 2, 3, 4, 5, 6, 7, 8, 9], atHead server [6, 1, BitVec.ofNat 8 a] (powerRow [BitVec.ofNat 8 a])) ∧
    atHead server [1, 1, 0] .claim ∧ atHead server [1, 1, 1] .claim ∧ atHead server [2, 1] .releaseClaim ∧
    atHead server [3, 1] .status ∧ atHead server [4, 1, 0] .watch ∧ atHead server [4, 1, 1] .watch ∧
    atHead server ([4, 1, 2] ++ be 8 0) .watch ∧ atHead server [5, 1] .unwatch ∧
    atHead server ([7, 1] ++ be 2 10 ++ [2, 1] ++ be 2 30) .watchdogArm ∧
    atHead server ([7, 1] ++ be 2 3601 ++ [2, 1] ++ be 2 0) .watchdogArm ∧ atHead server [8, 1] .watchdogDisarm ∧
    atHead server ([9, 1] ++ be 2 9) .watchdogRetime ∧
    atHead server ([10, 1] ++ be 2 65534 ++ be 1 0 ++ be 4 1 ++ [1, 0]) .attach ∧ atHead server [11, 1] .detach ∧
    atHead server [12, 1] .breakOrder ∧ atHead server [13, 1] .restart := by
  refine ⟨?_, ?_, ?_, ?_, ?_, ?_, ?_, ?_, ?_, ?_, ?_, ?_, ?_, ?_, ?_, ?_, ?_⟩
  · intro a ha
    simp only [List.mem_cons, List.not_mem_nil, or_false] at ha
    rcases ha with rfl | rfl | rfl | rfl | rfl | rfl | rfl | rfl | rfl <;> exact orderAtHead_of (by decide +kernel)
  all_goals exact orderAtHead_of (by decide +kernel)

theorem test_power_orders :
    leadsTo .powerOn { state := some .off, restPhase := .satisfied } .off = true ∧
    gives (exec .powerOn (withOrder server [6, 1, 1])) (fun t => t.psq.state = some .awaitingSlot && t.psq.claimAsked) = true ∧
    gives (exec .powerOffSoft (withOrder (withPsq onPsq) [6, 1, 2])) (fun t => t.psq.state = some .stopping) = true ∧
    gives (exec .powerOffSoftThenHard (withOrder (withPsq (youngPsq .none)) [6, 1, 3])) (fun t =>
      t.psq.deferred = .softThenHard) = true ∧
    gives (exec .powerOffHard (withOrder (withPsq startingPsq) [6, 1, 4])) (fun t => t.psq.state = some .forcing) = true ∧
    gives (exec .powerReset (withOrder (withPsq onPsq) [6, 1, 5])) (fun t => t.psq.resetPulse = some 200) = true ∧
    gives (exec .powerCycle (withOrder (withPsq onPsq) [6, 1, 6])) (fun t => t.psq.pendingAct = .powerOn) = true ∧
    gives (exec .powerFeedCut (withOrder (withPsq onPsq) [6, 1, 7])) (fun t => !t.psq.feedClosed) = true ∧
    gives (exec .powerFeedRestore (withOrder (withPsq (cutPsq .satisfied false .none)) [6, 1, 8])) (fun t =>
      t.psq.state = some .awaitingSlot) = true ∧
    gives (exec .powerWake (withOrder { withPsq onPsq with mfn := { port := .suspended, remoteWake := true } } [6, 1, 9]))
      (fun t => t.mfn.resume = some 10) = true := by decide +kernel

/-- The station whose send list takes no further frame, with a sequencer record and an order of station 9. -/
def ordered (psq : Psq) (body : Bytes) : State :=
  { withOrder (withPsq psq) body with
    ntu := { pause := some 9 }, lif := { engine := .quiet, sendList := List.replicate 24 (beaconEntry 0 false) } }

theorem test_power_orders_refused_and_given_up :
    gives (exec .powerOn (ordered startingPsq [6, 1, 1])) (fun t => t.psq = startingPsq && t.ntu = { pause := some 9 } &&
      t.adm = server.adm) = true ∧
    gives (exec .powerOffHard (ordered startingPsq [6, 1, 4])) (fun t =>
      told t .powerState = some [9, 0, 0, 0] && t.psq.retract = 1 && !t.psq.slotHeld) = true ∧
    (∀ v ∈ [Variant.powerOn, .feedRestore],
      gives (exec .powerOffSoft (ordered (awaitingPsq v) [6, 1, 2])) (fun t =>
        told t .powerState = some [if v = .feedRestore then 1 else 4, 0, 0, 0] && !t.psq.claimAsked) = true) := by
  decide +kernel

theorem test_claim_orders :
    answered .claim { server with ord := {} } [1, 1, 0] OrderStatus.done.code = true ∧
    answered .claim server [1, 1, 0] OrderStatus.already.code = true ∧
    answered .claim { server with ord := { holder := some 8 } } [1, 1, 0] OrderStatus.held.code = true ∧
    answered .releaseClaim server [2, 1] OrderStatus.done.code = true ∧
    answered .releaseClaim { server with ord := {} } [2, 1] OrderStatus.notHolder.code = true ∧
    gives (exec .claim (withOrder { server with ord := { holder := some 8 } } [1, 1, 1])) (fun t =>
      t.ord.holder = some 9) = true := by decide +kernel

theorem test_status_order :
    (withOrder server [3, 1]).ord.inbox = [{ sender := 9, body := [3, 1] }] ∧
    ({ sender := 9, body := [3, 1] } : Order).params = [] ∧ (server.ptu.peer 9).role = some .uplink ∧
    answered .status server [3, 1] OrderStatus.done.code = true := by decide +kernel

theorem test_forwarding_orders :
    answered .watch server ([4, 1, 2] ++ be 8 1) OrderStatus.invalid.code = true ∧
    answered .watch { server with cfw := { watchers := [1, 2, 3, 4].map (fun x => { watcher 0 with station := x }) } }
      [4, 1, 0] OrderStatus.full.code = true ∧
    gives (exec .watch (withOrder server [4, 1, 0])) (fun t => t.cfw.watchers = [watcher 0]) = true ∧
    gives (exec .unwatch (withOrder { server with cfw := { watchers := [watcher 0] } } [5, 1])) (fun t =>
      t.cfw.watchers = []) = true ∧
    answered .unwatch server [5, 1] OrderStatus.already.code = true ∧
    gives (exec .breakOrder (withOrder { server with cfw := { tx := .guardHigh } } [12, 1])) (fun t =>
      t.cfw.queue = [.brk 9]) = true := by decide +kernel

theorem test_watchdog_orders :
    gives (exec .watchdogArm (withOrder (withPsq onPsq) ([7, 1] ++ be 2 10 ++ [2, 1] ++ be 2 0))) (fun t =>
      t.wdu.armed && t.wdu.deadline = some 10000 && t.wdu.bootAllowance = 300) = true ∧
    answered .watchdogArm server ([7, 1] ++ be 2 3601 ++ [2, 1] ++ be 2 0) OrderStatus.invalid.code = true ∧
    answered .watchdogArm server ([7, 1] ++ be 2 60 ++ [4, 1] ++ be 2 0) OrderStatus.invalid.code = true ∧
    answered .watchdogDisarm server [8, 1] OrderStatus.already.code = true ∧
    answered .watchdogRetime server ([9, 1] ++ be 2 9) OrderStatus.invalid.code = true ∧
    gives (exec .watchdogRetime (withOrder (guarded .notice 0 none) ([9, 1] ++ be 2 3600))) (fun t =>
      t.wdu.pendingTimeout = some 3600) = true := by decide +kernel

theorem test_media_and_restart_orders :
    gives (exec .attach (withOrder { server with ntu := { pause := some 9 } }
      ([10, 1] ++ be 2 65534 ++ be 1 0 ++ be 4 1 ++ [2, 1]))) (fun t =>
      t.mfn.state = .attached && t.mfn.mode = .overlay && t.mfn.bootOnce) = true ∧
    answered .attach server ([10, 1] ++ be 2 65535 ++ be 1 0 ++ be 4 1 ++ [1, 0]) OrderStatus.invalid.code = true ∧
    answered .detach server [11, 1] OrderStatus.already.code = true ∧
    gives (exec .detach (withOrder
      { server with mfn := { state := .attached, image := 1, capacity := 8 }, ntu := { pause := some 9 } } [11, 1]))
      (fun t => t.mfn.state = .none && t.mfn.lastCause = some .order) = true ∧
    gives (exec .restart (withOrder server [13, 1])) (fun t => t.ord.restartPending && t.ord.restartReply = some 0) = true := by
  decide +kernel

/-! ### Media -/

/-- An attachment that the server has configured. -/
def media (mode : Mode) (changed : Bool) : State :=
  { server with
    mfn := { state := .attached, image := 1, capacity := 8, mode := mode, changed := changed, port := .configured } }

/-- The status a command leaves with the server. -/
def says_ (c : Instr) (s : State) (status : Option UsbStatus) : Bool := gives (exec c s) (fun t => t.mfn.usbStatus = status)

/-- The attachment with a detach cause. -/
def ending : State :=
  let mfn : Mfn := { (media .readOnly true).mfn with cause := some .order, drain := some 9 }
  { server with mfn := mfn }

/-- A WRITE of block 1 that waits for its data. -/
def writing : State :=
  let request : Request :=
    { serial := 0, kind := .write, first := 1, count := 1, delivery := 1
      steps := [{ oneBlock .overlay with state := .pending }] }
  let mfn : Mfn := { (media .overlay true).mfn with request := some request }
  { server with mfn := mfn }

theorem test_requests :
    (media .overlay true).mfn.port = .configured ∧ (media .overlay true).mfn.request = none ∧
    blockRequest (.read 7 1) = some (false, some (7, 1)) ∧ blockRequest (.write 0 256) = some (true, some (0, 256)) ∧
    7 + 1 ≤ (media .overlay true).mfn.capacity ∧
    says_ .ready (media .readOnly false) (some .mediumChanged) = true ∧
    says_ (.write 0 1) (media .readOnly true) (some .writeProtected) = true ∧
    says_ (.read 8 1) (media .readOnly true) (some .outOfRange) = true ∧
    says_ .ready ending (some .notReady) = true ∧ says_ .capacity (media .readOnly true) (some .good) = true ∧
    says_ .ready (media .readOnly true) (some .good) = true := by decide +kernel

theorem test_transfers_begin :
    gives (exec .eject (media .readOnly true)) (fun t => t.mfn.state = .none && t.mfn.lastCause = some .eject) = true ∧
    gives (exec (.read 7 1) (media .readOnly true)) (fun t => t.xch.wants.any (fun w => w.key.line = 1)) = true ∧
    gives (exec (.writeStepDataReceived (List.replicate 512 7)) writing) (fun t => t.lpm.dirtyCount = 1) = true := by
  decide +kernel

/-- The port in a state, with a request in progress or not. -/
def port (p : Port) (request : Option Request) : State :=
  { server with mfn := { state := .attached, image := 1, capacity := 8, port := p, resume := some 10, request := request } }

theorem test_port :
    gives (exec (.usbStandardRequest (.setAddress 5)) (port .connected none)) (fun t => t.mfn.address = 5) = true ∧
    gives (exec .usbSetConfiguration (port .connected none)) (fun t => t.mfn.port = .configured) = true ∧
    gives (exec .usbBusIdleSuspend (port .configured none)) (fun t => t.mfn.port = .suspended) = true ∧
    gives (exec .usbSetRemoteWake (port .connected none)) (fun t => t.mfn.remoteWake) = true ∧
    gives (exec .usbClearRemoteWake (port .connected none)) (fun t => !t.mfn.remoteWake) = true ∧
    gives (exec .usbBusActivityResume (port .suspended none)) (fun t => t.mfn.port = .connected) = true ∧
    gives (exec .usbResumeSignallingEnd (port .suspended none)) (fun t => t.mfn.resume = none) = true ∧
    gives (exec .vbsenseHigh (port .unpowered none)) (fun t => t.mfn.port = .connected) = true ∧
    gives (exec .usbSetConfiguration (port .unpowered none)) (fun t => t.mfn.port = .unpowered) = true := by decide +kernel

/-- The READ in progress as an attachment drains. -/
def draining : State :=
  let mfn : Mfn := { (port .configured (some reading)).mfn with cause := some .order, drain := some 2000 }
  { server with mfn := mfn }

theorem test_abort_withdraws_reads :
    (∀ c ∈ [Instr.usbClearConfiguration, .usbBusReset, .vbsenseLow], gives (exec c
      { withMctl { waitMedia := [readReq, { readReq with line := 2, request := 7 }] } with
        mfn := (port .configured (some reading)).mfn
        lpm := { poolSize := 16, reserve := 8
                 lines := [(0, .clean { image := 1, gen := 0, line := 0 } 1 false), (2, .clean { image := 1, gen := 0, line := 5 } 1 false)] } })
      (fun t => t.mfn.request = none && t.mfn.usbStatus = none && t.mctl.waitMedia.map MediaReq.line = [2] &&
        t.lpm.line 0 = some (.clean { image := 1, gen := 0, line := 0 } 0 false) && t.lpm.recency = [0] &&
        t.lpm.line 2 = some (.clean { image := 1, gen := 0, line := 5 } 1 false)) = true) := by decide +kernel

theorem test_aborts :
    (port .configured (some reading)).mfn.draining = false ∧ draining.mfn.draining = true ∧
    gives (exec .usbClearConfiguration (port .configured (some reading))) (fun t =>
      t.mfn.request = none && t.mfn.port = .connected) = true ∧
    gives (exec .usbBusReset (port .suspended none)) (fun t => t.mfn.port = .connected && t.mfn.resume = none) = true ∧
    gives (exec .vbsenseLow (port .configured (some reading))) (fun t => t.mfn.request = none && t.mfn.port = .unpowered) = true ∧
    gives (exec .drainTimerExpiry draining) (fun t => t.mfn.state = .none && t.now = 2000) = true := by decide +kernel

/-! ### Uplink -/

/-- The uplink station with characters received. -/
def uplink (rx : Bytes) : State := { station .uplink with upb := { rx := rx } }

/-- A unit with a check over its content. -/
def unit (content : Bytes) : Bytes := 165 :: (content ++ be 2 (crc16 content).toNat)

theorem test_uplink :
    (uplink []).serving = false ∧ (uplink []).ptu.state ≠ .haltedSetup ∧ (9 : Byte).toNat ≠ (uplink []).own ∧
    165 ∉ ([9, 5, 0, 2] : Bytes) ∧ field [9, 5, 0, 2] 2 2 = 2 ∧ field [9, 5, 9, 0] 2 2 = 2304 ∧
    gives (exec (.uplinkUnitReceived (unit ([9, 5] ++ be 2 2 ++ [5, 1]))) (uplink [])) (fun t =>
      t.lif.sendList.map SendEntry.kind = [.order] && t.upb.rx = []) = true ∧
    gives (exec (.uplinkUnitReceived (unit ([5, 5] ++ be 2 0))) (uplink [])) (fun t =>
      t.lif.sendList.length = 0 && t.upb.outq.length = 0) = true ∧
    gives (exec (.uplinkUnitReceived [5, 0, 2]) (uplink [165, 9])) (fun t => t.upb.rx = [165, 9, 5, 0, 2]) = true ∧
    gives (exec (.uplinkUnitReceived [5, 9, 0]) (uplink [165, 9])) (fun t => t.upb.rx = []) = true ∧
    gives (exec (.uplinkUnitReceived [5, 0, 0, 1, 2]) (uplink [165, 9])) (fun t => t.upb.rx = []) = true ∧
    gives (exec (.uplinkUnitReceived [5, 8, 16]) (uplink [165, 9])) (fun t => t.upb.rx = [165, 9, 5, 8, 16]) = true ∧
    gives (exec (.uplinkUnitReceived [5, 8, 17]) (uplink [165, 9])) (fun t => t.upb.rx = []) = true ∧
    gives (exec (.uplinkCharacterTimeout [5]) (uplink [165, 9])) (fun t => t.upb.rx = []) = true ∧
    gives (exec (.uplinkCharacterFramingError [5]) (uplink [165, 9])) (fun t => t.upb.rx = []) = true ∧
    gives (exec .uplinkUnitSent { uplink [] with upb := { tx := some [165], inq := [{ sender := 9, dest := 5, kind := 6, body := [] }] } })
      (fun t => t.upb.inq = [] && t.upb.tx = none) = true ∧
    gives (exec .urtsAsserted { uplink [] with upb := { inq := [{ sender := 9, dest := 5, kind := 6, body := [] }] } })
      (fun t => t.pins.urts && t.upb.tx = some (unit ([9, 5, 6] ++ be 2 0))) = true ∧
    gives (exec .urtsDeasserted { uplink [] with pins := { urts := true } }) (fun t => !t.pins.urts) = true := by
  decide +kernel

/-- The uplink station with so many units for the computer and frames in its receive queue. -/
def forComputer (units frames : Nat) : State :=
  { uplink [] with
    upb := { inq := List.replicate units { sender := 9, dest := 5, kind := 6, body := [] } }
    lif := { engine := .quiet, recvQueue := List.replicate frames (frame 5 5 []) } }

theorem test_lane_frames_reach_the_computer :
    (forComputer 31 0).Reads (frame 5 5 [3, 1]) ∧ (forComputer 31 0).lif.takeHeld = none ∧
    takes (forComputer 31 0) (frame 5 5 [3, 1]) 1 (fun t => t.lif.drove = .takeSlot && t.lif.recvQueue = [] &&
      t.upb.inq.drop 31 = [{ sender := 9, dest := 5, kind := 5, body := [3, 1] }]) = true ∧
    takes (forComputer 24 7) (frame 63 FrameKind.imageRetire.code []) 0 (fun t =>
      t.lif.drove = .takeSlot && t.lif.recvQueue.length = 8) = true ∧
    takes (forComputer 32 0) (frame 5 5 [3, 1]) 0 (fun t => t.lif.drove = .nothing) = true ∧
    takes (forComputer 0 8) (frame 5 5 [3, 1]) 8 (fun t => t.lif.drove = .nothing && t.upb.inq.length = 8) = true ∧
    takes (forComputer 0 0) (frame 63 FrameKind.lineGive.code []) 0 (fun t => t.lif.drove = .nothing) = true ∧
    takes (forComputer 0 0) (frame 63 5 []) 0 (fun t => t.lif.drove = .nothing) = true ∧
    takes (forComputer 0 0) (frame 5 7 []) 0 (fun t => t.lif.drove = .nothing) = true ∧
    takes { forComputer 0 0 with ptu := { (forComputer 0 0).ptu with state := .listen } } (frame 5 5 []) 0 (fun t =>
      t.lif.drove = .nothing) = true := by
  refine ⟨reads_of (by decide), by decide +kernel⟩

/-- The frames the uplink station has from a unit for a destination. -/
def relays (dest kind : Byte) (frames : Nat) : Bool :=
  gives (exec (.uplinkUnitReceived (unit ([dest, kind] ++ be 2 0))) (uplink [])) (fun t =>
    t.lif.sendList.length + t.upb.outq.length = frames)

theorem test_uplink_destinations :
    (List.replicate 2064 (0 : Byte)).length ≤ 2064 ∧ (uplink []).upb.outq.length < 16 ∧
    relays 0 5 0 = true ∧ relays 1 5 1 = true ∧ relays 62 5 1 = true ∧ relays 63 8 1 = true ∧ relays 64 5 0 = true ∧
    relays 9 1 0 = true ∧ relays 9 0 0 = true := by decide +kernel

/-! ### The end of a step -/

/-- What the end of a step makes of a state with no notice to offer. -/
def settles (s : State) (p : State → Bool) : Bool := p (settle { s with ntu := { s.ntu with pause := some 9 } })

/-- The station with memory up and a READ whose step stands so, with these wants. -/
def readStands (state : StepState) (wants : List Want) : State :=
  { withMctl {} with mfn := needing state, xch := { wants := wants } }

/-- The READ not held back. -/
def asking (state : StepState) : State :=
  { readStands state [] with mfn := { needing state with request := (needing state).request.map (fun r => { r with blocked := false }) } }

/-- The want of the READ's line, asked as readahead. -/
def aheadWant : Want := { key := { image := 1, gen := 0, line := 6 }, purpose := .readahead, state := .sent, line := 3, timer := some 99 }

theorem test_end_of_step_asks :
    (asking .pending).mfn.request.isSome = true ∧ (asking .pending).lpm.Placed ∧
    settles (asking .pending) (fun t => t.xch.wants.map Want.purpose = [.demand] &&
      t.mfn.request.any (fun r => r.steps.map XferStep.state = [.waiting])) = true ∧
    settles (readStands .pending []) (fun t => t.xch.wants = []) = true ∧
    settles (readStands .waiting [aheadWant]) (fun t => t.xch.wants.map Want.purpose = [.demand]) = true ∧
    settles (readStands .ready [aheadWant]) (fun t => t.xch.wants.map Want.purpose = [.readahead]) = true ∧
    settles { server with ccu := { server.ccu with buffer := [65] } } (fun t => t.mctl.waitCapture) = true ∧
    settles { server with cfw := { queue := [.text 65] } } (fun t => t.cfw.tx = .char 65) = true ∧
    settles { server with cfw := { watchers := [watcher 0] }, ccu := { server.ccu with captured := 300 } } (fun t =>
      t.mctl.waitForward = some (0, 256) && t.cfw.out.any (fun o => o.standing = .reading)) = true ∧
    settles (withMctl { restarting := true }) (fun t => t.mctl.mem = .selfRefresh && t.mctl.retention) = true ∧
    settles { server with mfn := { state := .detaching, cause := some .eject, image := 1 } } (fun t =>
      t.mfn.state = .none && t.mfn.lastCause = some .eject) = true := by
  refine ⟨by decide, by constructor <;> decide, by decide +kernel⟩

end Sys2Proof.Tests
end

/-! ## The power sequencer: the soft-off grace (R21) -/

namespace Sys2Proof.Machine

/-- R4's row of STOPPING: no minimum on time runs or defers an off, no rest runs and no action is pending. -/
theorem stopping_of_legal {p : Psq} (legal : p.Legal) (h : p.state = some .stopping) :
    p.young = false ∧ p.deferred = .none ∧ p.restT = none ∧ p.pendingAct = .none := by
  have young : p.young ≠ true := fun hy => by simpa [h] using legal.young hy
  have deferred : ¬ p.deferred ≠ .none := fun hd => by simpa [h] using legal.deferred hd
  have rest : ¬ p.restT.isSome := fun hr => by simpa [h] using legal.rest hr
  exact ⟨by simpa using young, by simpa using deferred, by simpa using rest, legal.noAct (.inr (.inr h))⟩

/-- A raise reads nothing of PSQ. -/
theorem State.raise_ntu_psq (s : State) (p : Psq) (kind : NoticeKind) (detail : Bytes) :
    (({ s with psq := p } : State).raise kind detail).ntu = (s.raise kind detail).ntu :=
  State.raise_ntu_congr (s := s) (u := { s with psq := p }) rfl rfl rfl kind detail

/-- PSQ returns to ON from STOPPING: the slot and its settle timer are carried, and WDU is told of the entry (R4, R6, R87). -/
theorem State.psqEnter_on_of_stopping (s : State) (h : s.psq.state = some .stopping) :
    s.psqEnter .on .none = { s with
      psq := { s.psq with state := some .on, variant := .none, graceT := none, restPhase := .none, restT := none }
      wdu := s.wduEntersOn.wdu
      ntu := (s.raise .powerState [7, 0, s.psq.pendingAct.code, flag s.psq.slotHeld]).ntu } := by
  have plain := s.psqEnter_plain .on .none false (by simp [h]) (by simp) rfl
  rw [plain, State.raise_as (s := s) _ _ (by simp) (by simp) (by simp)]
  simp [State.entering, h, Psq.leave, Psq.restOnEntry, State.entryTimer, State.tellWdu, State.wduEntersOn_eq,
    SeqState.code, Variant.code]

/-- PSQ enters FORCING from STOPPING with a long press and the force timer (R10, R21). -/
theorem State.beginForcing_of_stopping (s : State) (h : s.psq.state = some .stopping) :
    s.beginForcing = { s with
      psq := { s.psq with
        state := some .forcing, variant := .none, graceT := none, press := .long (after s.now 6000)
        forceT := some (after s.now (1000 * s.setting Settings.force)), restPhase := .none, restT := none }
      ntu := (s.raise .powerState [9, 0, s.psq.pendingAct.code, flag s.psq.slotHeld]).ntu } := by
  have pressed : s.longPress.psq.state = some .stopping := h
  have plain := s.longPress.psqEnter_plain .forcing .none false (by simp [pressed]) (by simp) rfl
  rw [State.beginForcing, plain, State.raise_as (s := s) _ _ (by simp) (by simp) (by simp)]
  simp [State.longPress, State.entering, h, Psq.leave, Psq.restOnEntry, State.entryTimer, State.tellWdu, State.setting,
    sec, SeqState.code, Variant.code]

/-- The grace of a SOFT off is over: the server is taken to have ignored it, and PSQ is in ON again (R21). -/
theorem State.graceOver_soft (s : State) (legal : s.psq.Legal) (h : s.psq.state = some .stopping)
    (hv : s.psq.variant = .soft) :
    s.graceOver = { s with
      psq := { s.psq with
        state := some .on, variant := .none, graceT := none, young := false, deferred := .none, restPhase := .none }
      wdu := s.wduEntersOn.wdu
      ntu := ((s.raise .powerState [7, 0, 0, flag s.psq.slotHeld]).raise .softOffIgnored
        (be 2 (s.setting Settings.grace))).ntu } := by
  obtain ⟨young, deferred, rest, pending⟩ := stopping_of_legal legal h
  rw [State.graceOver, if_pos h, if_neg (by simp [hv]), State.psqEnter_on_of_stopping _ (by exact h)]
  rw [State.raise_as (s := s.raise .powerState [7, 0, 0, flag s.psq.slotHeld]) _ _
    (by simp [State.raise_ntu_psq, pending, PendingAct.code]) (by simp) (by simp)]
  simp [State.wduEntersOn_eq, young, deferred, rest]

/-- The grace of a SOFT-THEN-HARD off is over: PSQ forces the off (R21). -/
theorem State.graceOver_softThenHard (s : State) (legal : s.psq.Legal) (h : s.psq.state = some .stopping)
    (hv : s.psq.variant = .softThenHard) :
    s.graceOver = { s with
      psq := { s.psq with
        state := some .forcing, variant := .none, graceT := none, press := .long (after s.now 6000)
        forceT := some (after s.now (1000 * s.setting Settings.force)), restPhase := .none }
      ntu := (s.raise .powerState [9, 0, 0, flag s.psq.slotHeld]).ntu } := by
  obtain ⟨-, -, rest, pending⟩ := stopping_of_legal legal h
  rw [State.graceOver, if_pos h, if_pos hv, State.beginForcing_of_stopping _ (by exact h)]
  simp [State.raise_ntu_psq, rest, pending, PendingAct.code, State.setting]

/-- GRACE_TIMER_EXPIRY with the grace timer running: station time comes to its end, and its event follows (log 4). -/
theorem exec_graceTimerExpiry_running (s : State) (due : Time) (released : s.rstn = false)
    (running : s.psq.graceT = some due) :
    exec .graceTimerExpiry s = .next (settle (s.timeTo due).graceOver) := by
  change ends s (fun t => t.expires t.psq.graceT State.graceOver) = _
  rw [ends_released _ _ released, running, State.expires_some]

/-- Settles O37: the timer runs in STOPPING alone, and each variant of STOPPING has its own end of the grace. -/
theorem graceEndsInOnOrForcing : Obligations.GraceEndsInOnOrForcing := by
  unfold Obligations.GraceEndsInOnOrForcing
  intro s due released legal running
  have stopping : s.psq.state = some .stopping := legal.grace (by simp [running])
  refine ⟨(s.timeTo due).now, fun reached => by rw [State.timeTo_now, if_pos reached], fun soft => ?_, fun hard => ?_⟩
  · rw [exec_graceTimerExpiry_running s due released running,
      State.graceOver_soft (s.timeTo due) legal stopping soft, State.wduEntersOn_eq]
    rfl
  · rw [exec_graceTimerExpiry_running s due released running,
      State.graceOver_softThenHard (s.timeTo due) legal stopping hard]
    rfl

end Sys2Proof.Machine

/-! ## Numbers in byte strings (9.3, R191) -/

namespace Sys2Proof.Machine

/-- Reading on over the bytes of a number appends its digits to what was read before. -/
theorem foldl_be (n v acc : Nat) :
    (be n v).foldl (fun acc b => acc * 256 + b.toNat) acc = acc * 256 ^ n + v % 256 ^ n := by
  induction n generalizing acc with
  | zero => simp [be, Nat.mod_one]
  | succ n ih =>
    rw [be, List.foldl_cons, ih, BitVec.toNat_ofNat, Nat.mod_pow_succ (x := v) (b := 256)]
    ring

/-- A number that fits its bytes is read back from them. -/
theorem fromBe_be {n v : Nat} (h : v < 256 ^ n) : fromBe (be n v) = v := by
  rw [fromBe, foldl_be, Nat.mod_eq_of_lt h]
  omega

/-- A single byte is read as itself. -/
theorem fromBe_singleton (b : Byte) : fromBe [b] = b.toNat := by simp [fromBe]

end Sys2Proof.Machine

/-! ## The decision of the order at the head of the inbox (R190, R192) -/

namespace Sys2Proof.Machine

/-- The order with other parameters: its name, tag, sender and standing stay. -/
def Order.withParams (o : Order) (params : Bytes) : Order := { o with body := o.body.take 2 ++ params }

/-- A named order has a body of at least the name and the tag. -/
theorem Order.body_of_named {o : Order} {n : Nat} (named : o.name = some n) : 2 ≤ o.body.length := by
  by_contra short
  simp [Order.name, Nat.lt_of_not_le short] at named

theorem Order.withParams_name {o : Order} {n : Nat} (named : o.name = some n) (params : Bytes) :
    (o.withParams params).name = some n := by
  obtain ⟨name, tag, tail, body⟩ : ∃ name tag tail, o.body = name :: tag :: tail := by
    match h : o.body, Order.body_of_named named with
    | name :: tag :: tail, _ => exact ⟨name, tag, tail, rfl⟩
  rw [← named]
  simp [Order.name, Order.withParams, body, byteAt]

theorem Order.withParams_params {o : Order} {n : Nat} (named : o.name = some n) (params : Bytes) :
    (o.withParams params).params = params := by
  have two : (o.body.take 2).length = 2 := by simp [Order.body_of_named named]
  rw [Order.params, Order.withParams, List.drop_left' two]

/-- The name whose orders a row decides (R191): POWER's for its nine actions, none for the row of malformed orders. -/
def OrderRow.orderName : OrderRow → Option Nat
  | .claim => some 1
  | .releaseClaim => some 2
  | .status => some 3
  | .watch => some 4
  | .unwatch => some 5
  | .powerOn | .powerOffSoft | .powerOffSoftThenHard | .powerOffHard | .powerReset | .powerCycle | .powerFeedCut
  | .powerFeedRestore | .powerWake => some 6
  | .watchdogArm => some 7
  | .watchdogDisarm => some 8
  | .watchdogRetime => some 9
  | .attach => some 10
  | .detach => some 11
  | .breakOrder => some 12
  | .restart => some 13
  | .invalid => none

theorem powerRow_orderName {params : Bytes} (wellFormed : powerRow params ≠ .invalid) :
    (powerRow params).orderName = some 6 := by
  unfold powerRow at *
  split <;> simp_all [OrderRow.orderName]

/-- An order decided by another row than that of malformed orders has that row's name (R191). -/
theorem Order.name_of_row {o : Order} (wellFormed : o.row ≠ .invalid) : o.name = o.row.orderName := by
  unfold Order.row at *
  split
  case h_6 named => simp_all [powerRow_orderName]
  all_goals simp_all [OrderRow.orderName]

variable {s : State} {o : Order} {rest : List Order} {row : OrderRow} {n : Nat}

/-- The order at the head has the name of its row. -/
theorem OrderAtHead.name (h : OrderAtHead s o rest row) (wellFormed : row ≠ .invalid) : o.name = row.orderName := by
  rw [← h.row] at wellFormed ⊢
  exact Order.name_of_row wellFormed

/-- The inbox of an order at the head, written out. -/
theorem OrderAtHead.withInbox_self (h : OrderAtHead s o rest row) : s.withInbox (o :: rest) = s := by
  rw [← h.head]
  rfl

/-- A WAITING order put in the place of one at the head can be decided. -/
theorem OrderAtHead.deciding_withInbox (h : OrderAtHead s o rest row) {o' : Order} (waiting : o'.standing = .waiting) :
    (s.withInbox (o' :: rest)).deciding = some o' := by
  have serving : (s.withInbox (o' :: rest)).serving = true := h.serving
  have noRestart : (s.withInbox (o' :: rest)).ord.restartPending = false := h.noRestart
  have member : (s.withInbox (o' :: rest)).ptu.state = .member := h.member
  have head : (s.withInbox (o' :: rest)).ord.inbox = o' :: rest := rfl
  simp [State.deciding, serving, noRestart, member, head, waiting]

/-- Of the tests of R190, an order of a name and a sender that pass at the head can fail the parameters' alone. -/
theorem OrderAtHead.orderTest_named (h : OrderAtHead s o rest row) (named : o.name = some n) {o' : Order}
    (sender : o'.sender = o.sender) (named' : o'.name = some n) :
    s.orderTest o' = if paramsValid n o'.params then none else some .invalid := by
  have uplink : ¬ (s.ptu.peer o'.sender).role ≠ some .uplink := by simp [sender, h.uplink]
  have member : ¬ (s.ptu.state ≠ .member ∧ n ≠ 3) := by simp [h.member]
  have claim : ¬ (needsClaim n = true ∧ s.ord.holder ≠ some o'.sender) := fun ⟨needs, other⟩ =>
    other (sender ▸ h.claim n named (of_decide_eq_true needs))
  cases valid : paramsValid n o'.params <;> simp [State.orderTest, named', uplink, member, claim, valid]

/-- Outside POWER and CLAIM a REPLY's detail is what the block gave (R192). -/
theorem State.replyDetail_given (s : State) (named : o.name = some n) (plain : n ≠ 1 ∧ n ≠ 6) (given : Bytes) :
    s.replyDetail o given = given := by
  rw [State.replyDetail, named]
  split <;> simp_all

/-- The head of the inbox holds its REPLY (R190, R192). -/
theorem State.holdReply_head (head : s.ord.inbox = o :: rest) (named : o.name = some n) (plain : n ≠ 1 ∧ n ≠ 6)
    (status : OrderStatus) (given : Bytes) (restart : Bool) :
    s.holdReply o status given restart = s.withInbox (o.replied status given restart :: rest) := by
  rw [State.holdReply, s.replyDetail_given named plain, head]
  rfl

/-- An order at the head reaches its block, whose status its REPLY carries (R190). -/
theorem OrderAtHead.ends_decide (h : OrderAtHead s o rest row) (named : o.name = some n) (plain : n ≠ 1 ∧ n ≠ 6)
    {act : Order → State → OrderStatus × State} {status : OrderStatus} {v : State} (acts : act o s = (status, v))
    (keeps : v.ord = s.ord) :
    ends s (fun t => t.decide row (fun o u => .plain (act o u))) =
      .next (settle (v.withInbox (o.replied status [] :: rest))) := by
  have deciding : s.deciding = some o := by simpa [h.withInbox_self] using h.deciding_withInbox h.waiting
  have passes : s.orderTest o = none := by simp [h.orderTest_named named rfl named, h.params n named]
  have decides : s.decide row (fun o u => .plain (act o u)) = v.withInbox (o.replied status [] :: rest) := by
    simp only [State.decide, deciding, h.row, passes, if_true, Answer.plain, acts]
    exact State.holdReply_head (by rw [keeps, h.head]) named plain _ _ _
  rw [ends_released _ _ h.released, decides]

/-- An order at the head whose parameters are replaced by ones of a wrong form is answered INVALID and reaches no block
(R190, test 5). -/
theorem OrderAtHead.ends_decide_withParams (h : OrderAtHead s o rest row) (named : o.name = some n)
    (plain : n ≠ 1 ∧ n ≠ 6) {params : Bytes} (sameRow : (o.withParams params).row = row)
    (malformed : paramsValid n params = false) (block : Order → State → Answer) :
    ends (s.withInbox (o.withParams params :: rest)) (fun t => t.decide row block) =
      .next (settle (s.withInbox ((o.withParams params).replied .invalid [] :: rest))) := by
  have named' := Order.withParams_name named params
  have fails : (s.withInbox (o.withParams params :: rest)).orderTest (o.withParams params) = some .invalid := by
    change s.orderTest (o.withParams params) = some .invalid
    simp [h.orderTest_named named (o' := o.withParams params) rfl named', Order.withParams_params named, malformed]
  have decides : (s.withInbox (o.withParams params :: rest)).decide row block =
      s.withInbox ((o.withParams params).replied .invalid [] :: rest) := by
    simp only [State.decide, h.deciding_withInbox (o' := o.withParams params) h.waiting, sameRow, fails, if_true]
    exact State.holdReply_head rfl named' plain _ _ _
  have released : (s.withInbox (o.withParams params :: rest)).rstn = false := h.released
  rw [ends_released _ _ released, decides]

end Sys2Proof.Machine

/-! ## The watchdog orders (R84 to R86) -/

namespace Sys2Proof.Machine

/-! ### What each order asks of WDU -/

theorem armValid_iff (timeout boot : Nat) :
    armValid timeout boot = true ↔ 10 ≤ timeout ∧ timeout ≤ 3600 ∧ (boot = 0 ∨ 30 ≤ boot ∧ boot ≤ 3600) := by
  simp [armValid, within, and_assoc]

/-- WDU's record after a WATCHDOG-ARM whose numbers lie in their ranges (R84). -/
def State.armedWdu (s : State) (timeout : Nat) (action : FaultAction) (guard : Bool) (boot : Nat) : Wdu :=
  { s.wdu with
    armed := true, timeout := some timeout, action := action, guard := guard
    bootAllowance := if boot = 0 then s.setting Settings.bootAllowance else boot
    pendingTimeout := none, lastBeat := none, early := 0, expiry := 0
    deadline := if s.psq.state = some .on then some (after s.now (1000 * timeout)) else s.wdu.deadline
    phase := if s.psq.state = some .on then .running else s.wdu.phase }

theorem State.actArm_invalid (s : State) {timeout boot : Nat} (outside : ¬ armValid timeout boot = true)
    (action : FaultAction) (guard : Bool) : s.actArm timeout action guard boot = (.invalid, s) := by
  rw [State.actArm, if_neg outside]

theorem State.actArm_valid (s : State) {timeout boot : Nat} (inside : armValid timeout boot = true)
    (action : FaultAction) (guard : Bool) :
    s.actArm timeout action guard boot = (.done, { s with wdu := s.armedWdu timeout action guard boot }) := by
  rw [State.actArm, if_pos inside]
  by_cases on : s.psq.state = some .on
  · simp [State.armedWdu, on, State.runDeadline, Wdu.timeoutMs, sec]
  · simp [State.armedWdu, on]

theorem State.actDisarm_armed (s : State) (armed : s.wdu.armed = true) :
    s.actDisarm = (.done, { s with wdu := { s.wdu with
      armed := false, deadline := none, pendingTimeout := none, lastBeat := none, early := 0, expiry := 0 } }) := by
  rw [State.actDisarm, if_pos armed]

theorem State.actDisarm_disarmed (s : State) (disarmed : s.wdu.armed = false) : s.actDisarm = (.already, s) := by
  simp [State.actDisarm, disarmed]

theorem State.actRetime_outside (s : State) {timeout : Nat} (outside : timeout < 10 ∨ 3600 < timeout) :
    s.actRetime timeout = (.invalid, s) := by
  have : within 10 timeout 3600 = false := by
    simp only [within, Bool.and_eq_false_iff, decide_eq_false_iff_not]
    omega
  simp [State.actRetime, this]

theorem State.actRetime_disarmed (s : State) {timeout : Nat} (low : 10 ≤ timeout) (high : timeout ≤ 3600)
    (disarmed : s.wdu.armed = false) : s.actRetime timeout = (.busy, s) := by
  simp [State.actRetime, within, low, high, disarmed]

theorem State.actRetime_armed (s : State) {timeout : Nat} (low : 10 ≤ timeout) (high : timeout ≤ 3600)
    (armed : s.wdu.armed = true) :
    s.actRetime timeout = (.done, { s with wdu := { s.wdu with pendingTimeout := some timeout } }) := by
  simp [State.actRetime, within, low, high, armed]

/-! ### The parameters of WATCHDOG-ARM (R191) -/

/-- The parameters of a WATCHDOG-ARM, with any byte in the action's place. -/
def armParams (timeout : Nat) (action : Byte) (guard : Bool) (boot : Nat) : Bytes :=
  be 2 timeout ++ [action, flag guard] ++ be 2 boot

theorem FaultAction.ofCode_code (a : FaultAction) : FaultAction.ofCode a.code.toNat = some a := by
  cases a <;> rfl

theorem FaultAction.ofCode_outside {code : Nat} (outside : code = 0 ∨ 3 < code) : FaultAction.ofCode code = none := by
  simp only [FaultAction.ofCode]
  grind

theorem armParams_timeout {timeout : Nat} (fits : timeout < 65536) (action : Byte) (guard : Bool) (boot : Nat) :
    field (armParams timeout action guard boot) 0 2 = timeout := fromBe_be (n := 2) fits

theorem armParams_action (timeout : Nat) (action : Byte) (guard : Bool) (boot : Nat) :
    field (armParams timeout action guard boot) 2 1 = action.toNat := fromBe_singleton action

theorem armParams_guard (timeout : Nat) (action : Byte) (guard : Bool) (boot : Nat) :
    decide (field (armParams timeout action guard boot) 3 1 = 1) = guard := by
  have : field (armParams timeout action guard boot) 3 1 = (flag guard).toNat := fromBe_singleton _
  cases guard <;> simp [this, flag]

theorem armParams_boot (timeout : Nat) (action : Byte) (guard : Bool) {boot : Nat} (fits : boot < 65536) :
    field (armParams timeout action guard boot) 4 2 = boot := fromBe_be (n := 2) fits

/-- An action outside the three makes the parameters malformed (R190, test 5). -/
theorem armParams_malformed (timeout : Nat) {action : Byte} (guard : Bool) (boot : Nat)
    (outside : action = 0 ∨ 3 < action.toNat) : paramsValid 7 (armParams timeout action guard boot) = false := by
  have unknown : FaultAction.ofCode action.toNat = none :=
    FaultAction.ofCode_outside (outside.imp_left fun zero => by rw [zero]; rfl)
  simp [paramsValid, armParams_action, unknown]

/-! ### The orders at the head of the inbox -/

section

variable {s : State} {o : Order} {rest : List Order}

/-- WATCHDOG-ARM hands WDU the four values of its parameters. -/
theorem exec_watchdogArm_atHead (h : OrderAtHead s o rest .watchdogArm) {timeout boot : Nat} {action : FaultAction}
    {guard : Bool} (timeoutFits : timeout < 65536) (bootFits : boot < 65536)
    (params : o.params = armParams timeout action.code guard boot) {status : OrderStatus} {v : State}
    (acts : s.actArm timeout action guard boot = (status, v)) (keeps : v.ord = s.ord) :
    exec .watchdogArm s = .next (settle (v.withInbox (o.replied status [] :: rest))) := by
  refine h.ends_decide (n := 7) (h.name (by decide)) (by decide)
    (act := fun o u => u.actArm (field o.params 0 2) o.armAction (field o.params 3 1 = 1) (field o.params 4 2)) ?_ keeps
  simp only [Order.armAction, params, armParams_timeout timeoutFits, armParams_action, armParams_guard,
    armParams_boot _ _ _ bootFits, FaultAction.ofCode_code, Option.getD_some, acts]

/-- A WATCHDOG-ARM of an action outside the three is answered INVALID (R190, test 5). -/
theorem exec_watchdogArm_malformed (h : OrderAtHead s o rest .watchdogArm) (timeout : Nat) {action : Byte}
    (guard : Bool) (boot : Nat) (outside : action = 0 ∨ 3 < action.toNat) :
    exec .watchdogArm (s.withInbox (o.withParams (armParams timeout action guard boot) :: rest)) =
      .next (settle (s.withInbox
        ((o.withParams (armParams timeout action guard boot)).replied .invalid [] :: rest))) := by
  have named : o.name = some 7 := h.name (by decide)
  have sameRow : (o.withParams (armParams timeout action guard boot)).row = .watchdogArm := by
    simp only [Order.row, Order.withParams_name named]
  exact h.ends_decide_withParams named (by decide) sameRow (armParams_malformed timeout guard boot outside) _

theorem exec_watchdogDisarm_atHead (h : OrderAtHead s o rest .watchdogDisarm) {status : OrderStatus} {v : State}
    (acts : s.actDisarm = (status, v)) (keeps : v.ord = s.ord) :
    exec .watchdogDisarm s = .next (settle (v.withInbox (o.replied status [] :: rest))) :=
  h.ends_decide (n := 8) (h.name (by decide)) (by decide) (act := fun _ u => u.actDisarm) acts keeps

/-- WATCHDOG-RETIME hands WDU the number of its parameters. -/
theorem exec_watchdogRetime_atHead (h : OrderAtHead s o rest .watchdogRetime) {timeout : Nat} (fits : timeout < 65536)
    (params : o.params = be 2 timeout) {status : OrderStatus} {v : State} (acts : s.actRetime timeout = (status, v))
    (keeps : v.ord = s.ord) :
    exec .watchdogRetime s = .next (settle (v.withInbox (o.replied status [] :: rest))) := by
  have number : field o.params 0 2 = timeout := by
    rw [params]
    exact fromBe_be (n := 2) fits
  refine h.ends_decide (n := 9) (h.name (by decide)) (by decide)
    (act := fun o u => u.actRetime (field o.params 0 2)) ?_ keeps
  simp only [number, acts]

end

/-- Settles O54: each order at the head reaches WDU with the values of its parameters, and each case of WDU's action is
one clause; an action outside the three fails the test of the parameters. -/
theorem watchdogOrdersSetTheRecord : Obligations.WatchdogOrdersSetTheRecord := by
  unfold Obligations.WatchdogOrdersSetTheRecord
  intro s o rest
  refine ⟨fun h t action guard boot timeoutFits bootFits params => ⟨fun outside => ?_, fun other unknown => ?_,
    fun valid => ?_⟩, fun h => ⟨fun armed => ?_, fun disarmed => ?_⟩, fun h t fits params =>
    ⟨fun outside _ => ?_, fun low high disarmed => ?_, fun low high armed => ?_⟩⟩
  · exact exec_watchdogArm_atHead h timeoutFits bootFits params
      (s.actArm_invalid (outside ∘ (armValid_iff t boot).1) action guard) rfl
  · simpa only [Order.withParams, armParams, List.append_assoc] using
      exec_watchdogArm_malformed h t guard boot unknown
  · exact exec_watchdogArm_atHead h timeoutFits bootFits params
      (s.actArm_valid ((armValid_iff t boot).2 valid) action guard) rfl
  · exact exec_watchdogDisarm_atHead h (s.actDisarm_armed armed) rfl
  · exact exec_watchdogDisarm_atHead h (s.actDisarm_disarmed disarmed) rfl
  · exact exec_watchdogRetime_atHead h fits params (s.actRetime_outside outside) rfl
  · exact exec_watchdogRetime_atHead h fits params (s.actRetime_disarmed low high disarmed) rfl
  · exact exec_watchdogRetime_atHead h fits params (s.actRetime_armed low high armed) rfl

end Sys2Proof.Machine


/-! ## One step, told by its command's effect -/

namespace Sys2Proof

open Machine

/-- What a command does to a part whose RSTN is released, before the end of the step; COLD_START and RSTN_ASSERTED apart. -/
def Instr.effect (c : Instr) (t : State) : State :=
  match c with
  | .coldStart _ | .rstnAsserted => t
  | .eepromAttemptComplete bytes => t.attemptComplete bytes
  | .eepromAttemptFailed => t.attemptFailed
  | .eepromRetryWaitExpiry => t.retryAttempt
  | .settingRecordHandover => t.handOverSettings
  | .memoryBringupComplete => t.memoryUp
  | .psqStateDerived pinHigh => t.deriveFromPin pinHigh
  | .presenceBoundary => t.boundary
  | .laneSyncQuiet => t.syncQuiet
  | .sitOutClear => t.clearSitOut
  | .laneBidBegin => t.bidBegin
  | .bidLost => t.loseBid
  | .senderTenureEnd how straps => t.tenureEnds how straps
  | .receiveError error tailRemains => t.receiveError error tailRemains
  | .frameCompleteUnspoiled frame handovers => t.frameComplete frame handovers
  | .receivedFrameSpoiled frame => t.frameSpoiled frame
  | .duplicateStationNumber => t.duplicate
  | .entryHoldLimit station => t.holdLimitReached station.toNat
  | .expiredSetTimeout station => t.expiredOver station.toNat
  | .arbiterGrant => t.arbiterGrants
  | .refreshIntervalExpiry => t.refreshOwed
  | .refreshGiven => t.refreshGiven
  | .captureWriteComplete =>
    match t.mctl.current with
    | some { req := .capture n, reported := _ } => t.requestOver.captureStored n
    | _ => t
  | .consoleForwardReadComplete =>
    match t.mctl.current with
    | some { req := .forward first finish, reported := rep } =>
      if rep then t.requestOver.forwardRead first finish else t.requestOver
    | _ => t
  | .laneReceiveWriteComplete =>
    match t.mctl.current with
    | some { req := .receive pos data, reported := rep } =>
      let t1 : State := { t.requestOver with sdram := Memory.writeBytes t.sdram (t.lineAt pos) (data.take 2048) }
      if rep then t1.fillEnded pos else t1
    | _ => t
  | .mediaTransferComplete =>
    match t.mctl.current with
    | some { req := .media m, reported := rep } => t.mediaDone m rep
    | _ => t
  | .laneSendReadComplete =>
    match t.mctl.current with
    | some { req := .send pos seq, reported := rep } =>
      let t1 := t.requestOver
      let data := Memory.readBytes t1.sdram (t1.lineAt pos) 2048
      if rep then { t1 with lif := { t1.lif with giveBuf := t1.lif.giveBuf.arrived seq data } } else t1
    | _ => t
  | .pgoodActive => if t.psq.state.isSome && !t.psq.pgood then (t.setPgood true).pgoodRises else t
  | .pgoodInactive => if t.psq.state.isSome && t.psq.pgood then (t.setPgood false).pgoodFalls else t
  | .startTimerExpiry => t.expires t.psq.startT State.startFailed
  | .settleTimerExpiry => t.expires t.psq.settleT State.settled
  | .youngTimerExpiry => t.expires t.psq.youngT State.youngOver
  | .graceTimerExpiry => t.expires t.psq.graceT State.graceOver
  | .forceTimerExpiry => t.expires t.psq.forceT State.forceOver
  | .restTimerExpiry => t.expires t.psq.restT State.restOver
  | .pressPulseEnd => t.expires t.psq.pulseEnd State.releasePress
  | .longPressEnd => t.expires t.psq.longEnd State.releasePress
  | .resetPulseEnd => t.expires t.psq.resetPulse State.releaseReset
  | .consoleLineIdle => t.inRx .seekingIdle (fun u => u.setRx .idle)
  | .consoleGoodByte b => t.inRx .idle (fun u => u.goodByte b)
  | .consoleFramingError => t.inRx .idle (fun u => { u with ccu := u.ccu.countGarbled })
  | .consoleBreakStart => t.inRx .idle (fun u => u.setRx .brk)
  | .consoleBreakEnd lengthMs => t.inRx .brk (fun u => (u.mark .breakIn (sat32 lengthMs)).setRx .idle)
  | .consoleTextByteSent => t.textSent
  | .consoleBreakOutEnd => t.breakOutOver
  | .consoleBreakGuardEnd => t.guardOver
  | .watcherWaitExpiry station =>
    t.expires (((t.cfw.watcher station.toNat).bind Watcher.waitStart).map (fun start => after start 20)) id
  | .watcherPauseExpiry station =>
    t.expires ((t.cfw.watcher station.toNat).bind Watcher.pause) (fun u => u.pauseOver station.toNat)
  | .watchdogDeadlineExpiry => t.expires t.wdu.deadline State.deadlineReached
  | .wantTimerExpiry place =>
    match t.xch.timedWant place with
    | some w => t.expires w.timer (fun u => u.wantExpired w)
    | none => t
  | .noticePauseExpiry => t.expires t.ntu.pause (fun u => { u with ntu := { u.ntu with pause := none } })
  | .claim => t.decide .claim (fun o u => .plain (u.actClaim o.sender (field o.params 0 1 = 1)))
  | .releaseClaim => t.decide .releaseClaim (fun o u => .plain (u.actReleaseClaim o.sender))
  | .status => t.decide .status (fun _ u => u.actStatus)
  | .watch => t.decide .watch (fun o u =>
      let a := u.actWatch o.sender (field o.params 0 1) (field o.params 1 8)
      { status := a.1, detail := a.2.1, state := a.2.2 })
  | .unwatch => t.decide .unwatch (fun o u => .plain (u.actUnwatch o.sender))
  | .powerOn => t.decide .powerOn (fun _ u => .plain u.actOn)
  | .powerOffSoft => t.decide .powerOffSoft (fun _ u => .plain (u.actOffSoft false))
  | .powerOffSoftThenHard => t.decide .powerOffSoftThenHard (fun _ u => .plain (u.actOffSoft true))
  | .powerOffHard => t.decide .powerOffHard (fun _ u => .plain u.actOffHard)
  | .powerReset => t.decide .powerReset (fun _ u => .plain (u.actReset 0))
  | .powerCycle => t.decide .powerCycle (fun _ u => .plain u.actCycle)
  | .powerFeedCut => t.decide .powerFeedCut (fun _ u => .plain u.actFeedCut)
  | .powerFeedRestore => t.decide .powerFeedRestore (fun _ u => .plain u.actFeedRestore)
  | .powerWake => t.decide .powerWake (fun _ u => .plain u.actWake)
  | .watchdogArm => t.decide .watchdogArm (fun o u =>
      .plain (u.actArm (field o.params 0 2) o.armAction (field o.params 3 1 = 1) (field o.params 4 2)))
  | .watchdogDisarm => t.decide .watchdogDisarm (fun _ u => .plain u.actDisarm)
  | .watchdogRetime => t.decide .watchdogRetime (fun o u => .plain (u.actRetime (field o.params 0 2)))
  | .attach => t.decide .attach (fun o u =>
      .plain (u.actAttach (field o.params 0 2) (field o.params 2 1) (field o.params 3 4) o.attachMode
        (field o.params 8 1 = 1)))
  | .detach => t.decide .detach (fun _ u => .plain u.actDetach)
  | .breakOrder => t.decide .breakOrder (fun o u => .plain (u.actBreak o.sender))
  | .restart => t.decide .restart (fun _ u => u.actRestart)
  | .orderNameInvalid => t.decide .invalid (fun _ u => { status := .invalid, state := u })
  | .drainTimerExpiry => t.expires t.mfn.drain State.closeRequest
  | .read first count =>
    if countWellFormed count then
      t.serverRequest false (some (first.toNat, count)) (fun u => u.beginRequest .read first.toNat count)
    else t
  | .write first count =>
    if countWellFormed count then
      t.serverRequest true (some (first.toNat, count)) (fun u => u.beginRequest .write first.toNat count)
    else t
  | .writeStepDataReceived data => if stepDataWellFormed data then t.stepData data else t
  | .capacity => t.serverRequest false none (fun u =>
      { u with mfn := { u.mfn with usbData := be 4 u.mfn.capacity, usbStatus := some .good } })
  | .ready => t.serverRequest false none State.answerGood
  | .eject => t.serverRequest false none (fun u => u.answerGood.detachTrigger .eject)
  | .usbStandardRequest request => if t.mfn.onBus then { t with mfn := t.mfn.standard request } else t
  | .usbSetConfiguration => if t.mfn.port = .connected then t.setPort .configured else t
  | .usbClearConfiguration => if t.mfn.port = .configured then (t.setPort .connected).closeRequest else t
  | .usbBusReset =>
    if t.mfn.attachedToBus then ({ t with mfn := t.mfn.portLost .connected } : State).closeRequest else t
  | .usbBusIdleSuspend =>
    if t.mfn.onBus then { t with mfn := { t.mfn with port := .suspended, remembered := t.mfn.port } } else t
  | .usbBusActivityResume => t.resumePort
  | .usbResumeSignallingEnd =>
    t.expires t.mfn.resume (fun u => ({ u with mfn := { u.mfn with resume := none } } : State).resumePort)
  | .usbSetRemoteWake => t.setRemoteWake true
  | .usbClearRemoteWake => t.setRemoteWake false
  | .vbsenseHigh => (t.setVbsense true).vbusRises
  | .vbsenseLow =>
    ({ t.setVbsense false with mfn := (t.setVbsense false).mfn.portLost .unpowered } : State).closeRequest
  | .uplinkUnitReceived bytes => t.uplinkChars bytes false
  | .uplinkCharacterTimeout bytes => t.uplinkChars bytes true
  | .uplinkCharacterFramingError bytes => t.uplinkChars bytes true
  | .uplinkUnitSent => t.unitSent
  | .urtsAsserted => t.setUrts true
  | .urtsDeasserted => t.setUrts false

/-- The level that a command gives the two input pins the part goes by. -/
def Instr.pinsAfter (c : Instr) (p : Pins) : Pins :=
  match c with
  | .vbsenseHigh => { p with vbsense := true }
  | .vbsenseLow => { p with vbsense := false }
  | .urtsAsserted => { p with urts := true }
  | .urtsDeasserted => { p with urts := false }
  | _ => p

/-- COLD_START and RSTN_ASSERTED, which act while RSTN is asserted too. -/
def Instr.isStart : Instr → Bool
  | .coldStart _ | .rstnAsserted => true
  | _ => false

/-- The commands that act by their effect alone: the starts, the memory completions and the reports of the input pins
apart. -/
def Instr.isPlain : Instr → Bool
  | .coldStart _ | .rstnAsserted | .captureWriteComplete | .consoleForwardReadComplete | .laneReceiveWriteComplete
  | .mediaTransferComplete | .laneSendReadComplete | .vbsenseHigh | .vbsenseLow | .urtsAsserted | .urtsDeasserted => false
  | _ => true

end Sys2Proof

namespace Sys2Proof.Machine

theorem exec_coldStart (straps : Straps) (s : State) :
    exec (.coldStart straps) s = .next (settle (({ s.coldState with rstn := false } : State).beginStart straps false)) := rfl

theorem exec_rstnAsserted (s : State) : exec .rstnAsserted s = .next { s.coldState with rstn := true } := rfl

/-- A command that is neither a start, nor a memory completion, nor the report of an input pin ends its effect's step. -/
theorem exec_plain {c : Instr} (plain : c.isPlain = true) (s : State) : exec c s = ends s c.effect := by
  cases c
  case coldStart | rstnAsserted | captureWriteComplete | consoleForwardReadComplete | laneReceiveWriteComplete |
      mediaTransferComplete | laneSendReadComplete | vbsenseHigh | vbsenseLow | urtsAsserted | urtsDeasserted => cases plain
  all_goals rfl

/-- While RSTN is asserted a memory completion changes nothing. -/
theorem completes_held {s : State} (fits : Bool) (effect : State → State) (held : s.rstn = true) :
    completes s fits effect = .next s := by simp [completes, held]

/-- A memory completion that answers with a next state, RSTN being released, answers its effect with the end of the step. -/
theorem completes_next {s t : State} {fits : Bool} {effect : State → State} (released : s.rstn = false)
    (h : completes s fits effect = .next t) : t = settle (effect s) := by
  cases fits <;> simp_all [completes]

/-- A command's effect with the end of the step, RSTN being released. -/
theorem ends_next {s t : State} {effect : State → State} (released : s.rstn = false) (h : ends s effect = .next t) :
    t = settle (effect s) := by
  rw [ends_released _ _ released] at h
  exact (Host.Outcome.next.inj h).symm

/-- While RSTN is asserted a command moves the input pins at most (R202; log 10). -/
theorem exec_held (c : Instr) (s : State) (held : s.rstn = true) (noStart : c.isStart = false) :
    exec c s = .next { s with pins := c.pinsAfter s.pins } := by
  cases c
  case coldStart | rstnAsserted => cases noStart
  case captureWriteComplete =>
    change execCaptureWriteComplete s = _
    unfold execCaptureWriteComplete
    split
    · exact completes_held _ _ held
    · exact ends_held _ _ held
  case consoleForwardReadComplete =>
    change execConsoleForwardReadComplete s = _
    unfold execConsoleForwardReadComplete
    split
    · exact completes_held _ _ held
    · exact ends_held _ _ held
  case laneReceiveWriteComplete =>
    change execLaneReceiveWriteComplete s = _
    unfold execLaneReceiveWriteComplete
    split
    · exact completes_held _ _ held
    · exact ends_held _ _ held
  case mediaTransferComplete =>
    change execMediaTransferComplete s = _
    unfold execMediaTransferComplete
    split
    · exact completes_held _ _ held
    · exact ends_held _ _ held
  case laneSendReadComplete =>
    change execLaneSendReadComplete s = _
    unfold execLaneSendReadComplete
    split
    · exact completes_held _ _ held
    · exact ends_held _ _ held
  case vbsenseHigh => exact ends_held (s.setVbsense true) State.vbusRises held
  case vbsenseLow =>
    exact ends_held (s.setVbsense false)
      (fun t => ({ t with mfn := t.mfn.portLost .unpowered } : State).closeRequest) held
  case urtsAsserted => exact ends_held (s.setUrts true) id held
  case urtsDeasserted => exact ends_held (s.setUrts false) id held
  all_goals
    rw [exec_plain rfl, ends_held _ _ held]
    rfl

/-- With RSTN released a command that answers with a next state answers its effect with the end of the step. -/
theorem exec_released {c : Instr} {s t : State} (released : s.rstn = false) (noStart : c.isStart = false)
    (h : exec c s = .next t) : t = settle (c.effect s) := by
  cases c
  case coldStart | rstnAsserted => cases noStart
  case captureWriteComplete =>
    change execCaptureWriteComplete s = _ at h
    unfold execCaptureWriteComplete at h
    split at h
    · simpa [Instr.effect, *] using completes_next released h
    · simpa [Instr.effect, *] using ends_next released h
  case consoleForwardReadComplete =>
    change execConsoleForwardReadComplete s = _ at h
    unfold execConsoleForwardReadComplete at h
    split at h
    · simpa [Instr.effect, *] using completes_next released h
    · simpa [Instr.effect, *] using ends_next released h
  case laneReceiveWriteComplete =>
    change execLaneReceiveWriteComplete s = _ at h
    unfold execLaneReceiveWriteComplete at h
    split at h
    · simpa [Instr.effect, *] using completes_next released h
    · simpa [Instr.effect, *] using ends_next released h
  case mediaTransferComplete =>
    change execMediaTransferComplete s = _ at h
    unfold execMediaTransferComplete at h
    split at h
    · simpa [Instr.effect, *] using completes_next released h
    · simpa [Instr.effect, *] using ends_next released h
  case laneSendReadComplete =>
    change execLaneSendReadComplete s = _ at h
    unfold execLaneSendReadComplete at h
    split at h
    · simpa [Instr.effect, *] using completes_next released h
    · simpa [Instr.effect, *] using ends_next released h
  case vbsenseHigh => exact ends_next (s := s.setVbsense true) (effect := State.vbusRises) released h
  case vbsenseLow =>
    exact ends_next (s := s.setVbsense false)
      (effect := fun t => ({ t with mfn := t.mfn.portLost .unpowered } : State).closeRequest) released h
  case urtsAsserted => exact ends_next (s := s.setUrts true) (effect := id) released h
  case urtsDeasserted => exact ends_next (s := s.setUrts false) (effect := id) released h
  all_goals
    rw [exec_plain rfl] at h
    exact ends_next released h

/-- All that a command can answer: a start's state, the state held with its pins followed, or the command's effect with the
end of the step. -/
theorem exec_cases {c : Instr} {s t : State} (h : exec c s = .next t) :
    (∃ straps, c = .coldStart straps ∧
      t = settle (({ s.coldState with rstn := false } : State).beginStart straps false)) ∨
    (c = .rstnAsserted ∧ t = { s.coldState with rstn := true }) ∨
    (c.isStart = false ∧ t = { s with pins := c.pinsAfter s.pins }) ∨
    (c.isStart = false ∧ s.rstn = false ∧ t = settle (c.effect s)) := by
  cases start : c.isStart
  · rcases Bool.eq_false_or_eq_true s.rstn with held | released
    · rw [exec_held c s held start] at h
      exact .inr (.inr (.inl ⟨rfl, (Host.Outcome.next.inj h).symm⟩))
    · exact .inr (.inr (.inr ⟨rfl, released, exec_released released start h⟩))
  · cases c
    case coldStart straps => exact .inl ⟨straps, rfl, (Host.Outcome.next.inj h).symm⟩
    case rstnAsserted => exact .inr (.inl ⟨rfl, (Host.Outcome.next.inj h).symm⟩)
    all_goals cases start

/-- An invariant that the passing of a millisecond, the starts, the pins, every command's effect and the end of a step keep
is kept by every step. -/
theorem step_keeps {P : State → Prop}
    (pending : ∀ s q, P s → P { s with pending := q })
    (tick : ∀ s, P s → P s.tick)
    (cold : ∀ s straps, P s → P (({ s.coldState with rstn := false } : State).beginStart straps false))
    (reset : ∀ s, P s → P { s.coldState with rstn := true })
    (pins : ∀ s p, P s → P { s with pins := p })
    (effect : ∀ c s, P s → P (Instr.effect c s))
    (rests : ∀ s, P s → P (settle s)) {s t : State} (h : P s) (stepped : step s = .next t) : P t := by
  match queue : s.pending with
  | [] =>
    rw [step_empty s queue] at stepped
    exact Host.Outcome.next.inj stepped ▸ tick s h
  | c :: rest =>
    rw [step_front s c rest queue] at stepped
    have h := pending s rest h
    rcases exec_cases stepped with ⟨straps, -, rfl⟩ | ⟨-, rfl⟩ | ⟨-, rfl⟩ | ⟨-, -, rfl⟩
    · exact rests _ (cold _ straps h)
    · exact reset _ h
    · exact pins _ _ h
    · exact rests _ (effect c _ h)

end Sys2Proof.Machine


/-! ## What a command's frame keeps: a timer's run-out, an event of the receiver, a decision, a server's request -/

namespace Sys2Proof.Machine

theorem State.expires_keeps {P : State → Prop} {s : State} {event : State → State} (timer : Option Time) (h : P s)
    (comes : ∀ due, P (s.timeTo due)) (acts : ∀ u, P u → P (event u)) : P (s.expires timer event) := by
  cases timer with
  | none => exact h
  | some due => exact acts _ (comes due)

theorem State.inRx_keeps {P : State → Prop} {s : State} {event : State → State} (rx : RxState) (h : P s)
    (acts : P (event s)) : P (s.inRx rx event) := by
  unfold State.inRx
  split
  · exact acts
  · exact h

theorem State.decide_keeps {P : State → Prop} {s : State} {row : OrderRow} {block : Order → State → Answer} (h : P s)
    (acts : ∀ o, P (block o s).state) (holds : ∀ u o status given restart, P u → P (u.holdReply o status given restart)) :
    P (s.decide row block) := by
  unfold State.decide
  split
  · split
    · split
      · exact holds _ _ _ _ _ h
      · exact holds _ _ _ _ _ (acts _)
    · exact h
  · exact h

theorem State.serverRequest_keeps {P : State → Prop} {s : State} {execute : State → State} (isWrite : Bool)
    (range : Option (Nat × Nat)) (h : P s) (answers : ∀ data status changed,
      P { s with mfn := { s.mfn with usbData := data, usbStatus := status, changed := changed } })
    (executes : ∀ u, P u → P (execute u)) : P (s.serverRequest isWrite range execute) := by
  unfold State.serverRequest
  split
  · dsimp only
    split
    · exact answers _ _ _
    · exact answers _ _ _
    · exact executes _ (answers _ _ _)
  · exact h

end Sys2Proof.Machine

/-! ## The SDRAM over a step (R54, R96, R110, R130) -/

namespace Sys2Proof.Machine

/-- The three commands that store into the SDRAM. -/
def storesToSdram : Instr → Bool
  | .captureWriteComplete | .laneReceiveWriteComplete | .mediaTransferComplete => true
  | _ => false

@[simp] theorem State.tenureEnds_sdram (s : State) (how : TenureEnd) (straps : Straps) :
    (s.tenureEnds how straps).sdram = s.sdram := by
  unfold State.tenureEnds State.warmRestart
  (repeat' split) <;> simp [State.warmState]

/-- No other command's effect changes the SDRAM. -/
theorem effect_sdram {c : Instr} (other : storesToSdram c = false) (s : State) : (c.effect s).sdram = s.sdram := by
  cases c
  case captureWriteComplete | laneReceiveWriteComplete | mediaTransferComplete => cases other
  case coldStart | rstnAsserted => rfl
  case claim | releaseClaim | status | watch | unwatch | powerOn | powerOffSoft | powerOffSoftThenHard |
      powerOffHard | powerReset | powerCycle | powerFeedCut | powerFeedRestore | powerWake | watchdogArm | watchdogDisarm |
      watchdogRetime | attach | detach | breakOrder | restart | orderNameInvalid =>
    exact State.decide_keeps (P := fun u => u.sdram = s.sdram) rfl (fun o => by simp [Answer.plain]) (by simp)
  case startTimerExpiry | settleTimerExpiry | youngTimerExpiry | graceTimerExpiry | forceTimerExpiry | restTimerExpiry |
      pressPulseEnd | longPressEnd | resetPulseEnd | watcherWaitExpiry | watcherPauseExpiry | watchdogDeadlineExpiry |
      noticePauseExpiry | drainTimerExpiry | usbResumeSignallingEnd =>
    exact State.expires_keeps (P := fun u => u.sdram = s.sdram) _ rfl (by simp) (by simp)
  case consoleLineIdle | consoleGoodByte | consoleFramingError | consoleBreakStart | consoleBreakEnd =>
    exact State.inRx_keeps (P := fun u => u.sdram = s.sdram) _ rfl (by simp)
  case wantTimerExpiry =>
    simp only [Instr.effect]
    split
    · exact State.expires_keeps (P := fun u => u.sdram = s.sdram) _ rfl (by simp) (by simp)
    · rfl
  case read | write =>
    simp only [Instr.effect]
    split
    · exact State.serverRequest_keeps (P := fun u => u.sdram = s.sdram) _ _ rfl (fun _ _ _ => rfl) (by simp)
    · rfl
  case capacity | ready | eject =>
    exact State.serverRequest_keeps (P := fun u => u.sdram = s.sdram) _ _ rfl (fun _ _ _ => rfl) (by simp)
  all_goals
    simp only [Instr.effect]
    (repeat' split) <;> simp

/-- The three storing commands and the starts apart, an answer leaves every byte of the SDRAM as it was. -/
theorem exec_sdram {c : Instr} {s t : State} (h : exec c s = .next t) (noStart : c.isStart = false)
    (other : storesToSdram c = false) : t.sdram = s.sdram := by
  rcases exec_cases h with ⟨_, rfl, -⟩ | ⟨rfl, -⟩ | ⟨-, rfl⟩ | ⟨-, -, rfl⟩
  · cases noStart
  · cases noStart
  · rfl
  · rw [settle_sdram, effect_sdram other]

theorem State.fillEnded_sdram (s : State) (pos : Nat) : (s.fillEnded pos).sdram = s.sdram := by simp

theorem State.mediaDone_wf {s : State} (m : MediaReq) (reported : Bool) (h : Memory.wf s.sdram) :
    Memory.wf (s.mediaDone m reported).sdram := by
  have written := Memory.writeBlocks_wf m.blocks s.sdram (s.requestOver.lineAt m.line) m.data h
  have moved : (s.mediaDone m reported).sdram = if m.isRead then s.sdram else
      Memory.writeBlocks s.sdram (s.requestOver.lineAt m.line) m.blocks m.data := by
    unfold State.mediaDone
    cases m.isRead <;> cases reported <;> simp
  rw [moved]
  split
  · exact h
  · exact written

/-- A storing command keeps the canonical form: what it writes goes through `Memory.write`. -/
theorem effect_memory_wf (c : Instr) {s : State} (h : Memory.wf s.sdram) : Memory.wf (c.effect s).sdram := by
  cases other : storesToSdram c
  · rwa [effect_sdram other]
  · cases c
    case captureWriteComplete =>
      simp only [Instr.effect]
      split
      · exact State.captureStored_wf _ _ (by simpa using h)
      · exact h
    case laneReceiveWriteComplete =>
      simp only [Instr.effect]
      split
      · rename_i pos data rep _
        have written := Memory.writeBytes_wf (data.take 2048) s.sdram (s.lineAt pos) h
        split
        · rwa [(State.fillEnded_sdram _ _)]
        · exact written
      · exact h
    case mediaTransferComplete =>
      simp only [Instr.effect]
      split
      · exact State.mediaDone_wf _ _ h
      · exact h
    all_goals cases other

/-- Settles O6: every command's effect keeps the canonical form, and no other part of a step writes the SDRAM. -/
theorem everyStepKeepsMemoryCanonical : Obligations.EveryStepKeepsMemoryCanonical := by
  intro s t h stepped
  have tick : ∀ u : State, u.tick.sdram = u.sdram := fun u => by unfold State.tick; split <;> rfl
  refine step_keeps (P := fun u => Memory.wf u.sdram) (fun _ _ h => h) (fun u hu => ?_) (fun u straps _ => ?_)
    (fun u _ => reset_memory_wf) (fun _ _ h => h) (fun c u hu => effect_memory_wf c hu) (fun u hu => ?_) h stepped
  · rwa [tick]
  · simpa [State.coldState] using reset_memory_wf
  · rwa [settle_sdram]

/-- Settles O11: the commands that store are three, and the starts leave nothing listed (log 7). -/
theorem onlyStoringCommandsChangeSdram : Obligations.OnlyStoringCommandsChangeSdram := by
  intro c s t h
  cases c
  case coldStart straps =>
    obtain rfl := Host.Outcome.next.inj h
    simp [State.coldState, State.reset]
  case rstnAsserted =>
    obtain rfl := Host.Outcome.next.inj h
    rfl
  case captureWriteComplete | laneReceiveWriteComplete | mediaTransferComplete => trivial
  all_goals
    intro a
    rw [exec_sdram h rfl rfl]

end Sys2Proof.Machine


/-! ## The sequencer's record within R4's table (R4 to R26) -/

namespace Sys2Proof.Machine

/-! ### R4's table, row by row -/

/-- The slot, its settle timer and the start limit of a state that holds no slot. -/
@[simp] def Psq.noSlot (p : Psq) : Prop := p.slotHeld = false ∧ p.settleT = none

/-- A settle timer runs with the slot alone. -/
@[simp] def Psq.settleWithSlot (p : Psq) : Prop := p.settleT.isSome → p.slotHeld = true

/-- The minimum on time and the off it defers are ON's alone. -/
@[simp] def Psq.noYoung (p : Psq) : Prop := p.youngT = none ∧ p.young = false ∧ p.deferred = .none

/-- R4's row of a state: what a record in it may hold. -/
@[simp] def Psq.row (p : Psq) : Option SeqState → Prop
  | none => p.noSlot ∧ p.claimAsked = false ∧ p.noYoung ∧ p.startT = none ∧ p.graceT = none ∧ p.forceT = none ∧
      p.restT = none ∧ p.pendingAct = .none
  | some .feedCut => p.noSlot ∧ p.claimAsked = false ∧ p.noYoung ∧ p.startT = none ∧ p.graceT = none ∧
      p.forceT = none ∧ p.feedClosed = false ∧ p.pendingAct ≠ .powerOn ∧
      (p.pendingAct = .feedRestore → p.restPhase ≠ .satisfied)
  | some .feedBounce => p.noSlot ∧ p.claimAsked = false ∧ p.noYoung ∧ p.startT = none ∧ p.graceT = none ∧
      (p.restT.isSome → p.forceT = none) ∧ p.feedClosed = false ∧ p.pendingAct ≠ .feedRestore
  | some .resting => p.noSlot ∧ p.claimAsked = false ∧ p.noYoung ∧ p.startT = none ∧ p.graceT = none ∧
      p.forceT = none ∧ p.feedClosed = true ∧ p.pendingAct ≠ .feedRestore
  | some .off => p.noSlot ∧ p.claimAsked = false ∧ p.noYoung ∧ p.startT = none ∧ p.graceT = none ∧ p.forceT = none ∧
      p.restT = none ∧ p.feedClosed = true ∧ p.pendingAct = .none
  | some .awaitingSlot => p.noSlot ∧ p.noYoung ∧ p.startT = none ∧ p.graceT = none ∧ p.forceT = none ∧
      p.restT = none ∧ p.pendingAct ≠ .feedRestore ∧
      (p.variant = .powerOn ∧ p.pendingAct = .none ∧ p.feedClosed = true ∨
        p.variant = .feedRestore ∧ p.feedClosed = false)
  | some .starting => p.settleWithSlot ∧ p.claimAsked = false ∧ p.noYoung ∧ p.graceT = none ∧ p.forceT = none ∧
      p.restT = none ∧ p.feedClosed = true ∧ p.pendingAct ≠ .feedRestore ∧
      (p.variant = .powerOn ∧ p.pendingAct = .none ∨ p.variant = .feedRestore)
  | some .on => p.settleWithSlot ∧ p.claimAsked = false ∧ p.startT = none ∧ p.graceT = none ∧ p.forceT = none ∧
      p.restT = none ∧ p.feedClosed = true ∧ p.pendingAct = .none
  | some .stopping => p.settleWithSlot ∧ p.claimAsked = false ∧ p.noYoung ∧ p.startT = none ∧ p.forceT = none ∧
      p.restT = none ∧ p.feedClosed = true ∧ p.pendingAct = .none ∧ (p.variant = .soft ∨ p.variant = .softThenHard)
  | some .forcing => p.settleWithSlot ∧ p.claimAsked = false ∧ p.noYoung ∧ p.startT = none ∧ p.graceT = none ∧
      p.restT = none ∧ p.feedClosed = true ∧ p.pendingAct ≠ .feedRestore

/-- A record is legal exactly when it is in its state's row. -/
theorem Psq.legal_iff (p : Psq) : p.Legal ↔ p.row p.state := by
  constructor
  · rintro ⟨h1, h2, h3, h4, h5, h6, h7, h8, h9, h10, h11, h12, h13, h14, h15, h16, h17, h18, h19, h20⟩
    rcases known : p.state with _ | st
    · simp_all
    · cases st <;> simp_all
      all_goals grind
  · intro row
    rcases known : p.state with _ | st
    · simp only [known, Psq.row, Psq.noSlot, Psq.noYoung] at row
      constructor <;> simp_all
    · cases st <;> simp only [known, Psq.row, Psq.noSlot, Psq.noYoung, Psq.settleWithSlot] at row <;>
        constructor <;> simp_all
      all_goals grind

/-- A record of a known state is legal exactly when it is in that state's row. -/
theorem Psq.legal_of_state {p : Psq} {st : Option SeqState} (known : p.state = st) : p.Legal ↔ p.row st := by
  rw [Psq.legal_iff, known]

/-- What R4 says nothing of: PWR_PRESS, PWR_RESET, PGOOD, the retract count and a fault owed. -/
theorem Psq.Legal.beside {p : Psq} (h : p.Legal) (press : Press) (pulse : Option Time) (pgood owed : Bool)
    (retract : Nat) : Psq.Legal { p with
      press := press, resetPulse := pulse, pgood := pgood, faultOwed := owed, retract := retract } :=
  { h with }

theorem Psq.Legal.of_asked {p q : Psq} (h : p.Legal) (asked : p.AskedFrom q) : q.Legal := by
  obtain ⟨r, c, rfl, claims⟩ := asked
  exact { h with claim := fun claimed => (claims claimed).elim h.claim id }

@[simp] theorem Psq.slotGone_slotHeld (p : Psq) : p.slotGone.slotHeld = false := by
  unfold Psq.slotGone
  split
  · rfl
  · simp_all

@[simp] theorem Psq.slotGone_settleT {p : Psq} (h : p.settleT.isSome → p.slotHeld = true) : p.slotGone.settleT = none := by
  unfold Psq.slotGone
  split
  · rfl
  · simp_all

@[simp] theorem Psq.slotGone_keeps (p : Psq) :
    p.slotGone.variant = p.variant ∧ p.slotGone.pendingAct = p.pendingAct ∧ p.slotGone.claimAsked = p.claimAsked ∧
    p.slotGone.youngT = p.youngT ∧ p.slotGone.young = p.young ∧ p.slotGone.deferred = p.deferred ∧
    p.slotGone.startT = p.startT ∧ p.slotGone.graceT = p.graceT ∧ p.slotGone.forceT = p.forceT ∧
    p.slotGone.restT = p.restT ∧ p.slotGone.restPhase = p.restPhase ∧ p.slotGone.feedClosed = p.feedClosed := by
  unfold Psq.slotGone
  split <;> simp

/-- A slot given up leaves a legal record. -/
theorem Psq.Legal.slotGone {p : Psq} (h : p.Legal) : p.slotGone.Legal := by
  unfold Psq.slotGone
  split
  · exact { h with slot := nofun, settle := nofun }
  · exact h

theorem Psq.Legal.claimOff {p : Psq} (h : p.Legal) : Psq.Legal { p with claimAsked := false } := { h with claim := nofun }

/-! ### Entry to a state -/

@[simp] theorem State.setPending_psq (s : State) (a : PendingAct) :
    (s.setPending a).psq = { s.psq with pendingAct := a } := rfl

@[simp] theorem State.pressPulse_psq (s : State) :
    s.pressPulse.psq = { s.psq with press := .pulse (after s.now 200) } := rfl

@[simp] theorem State.longPress_psq (s : State) :
    s.longPress.psq = { s.psq with press := .long (after s.now 6000) } := rfl

@[simp] theorem State.releasePress_psq (s : State) : s.releasePress.psq = { s.psq with press := .released } := rfl

@[simp] theorem State.setFeed_psq (s : State) (closed : Bool) :
    (s.setFeed closed).psq = { s.psq with feedClosed := closed } := rfl

@[simp] theorem State.startRest_psq (s : State) : s.startRest.psq = { s.psq with
    restPhase := .running, restT := some (after s.now (sec (s.setting Settings.rest))) } := rfl

@[simp] theorem State.startYoung_psq (s : State) : s.startYoung.psq = { s.psq with
    young := true, youngT := some (after s.now (sec (s.setting Settings.young))) } := rfl

@[simp] theorem State.stopForce_psq (s : State) : s.stopForce.psq = { s.psq with forceT := none } := rfl

@[simp] theorem State.setPgood_psq (s : State) (active : Bool) :
    (s.setPgood active).psq = { s.psq with pgood := active } := rfl

/-- Entry to a state leaves a legal record where the record entered is in that state's row. -/
theorem State.psqEnter_legal {s : State} {st : SeqState} {var : Variant} (start : Bool)
    (h : (s.entered st var).row (some st)) : (s.psqEnter st var start).psq.Legal :=
  ((Psq.legal_of_state (by simp)).2 h).of_asked (s.psqEnter_asked st var start)

/-! ### The power actions (R7 to R15) -/

section

variable {s : State}

theorem State.offAwaiting_legal (h : s.psq.Legal) (awaits : s.psq.state = some .awaitingSlot) : s.offAwaiting.psq.Legal := by
  have row := (Psq.legal_of_state awaits).1 h
  unfold State.offAwaiting
  dsimp only
  split
  all_goals
    apply State.psqEnter_legal
    simp_all [State.entered, Psq.leave, Psq.restOnEntry, State.entryTimer, SeqState.isRunning]

theorem State.cancelPending_legal (h : s.psq.Legal) : s.cancelPending.2.psq.Legal := by
  unfold State.cancelPending
  split
  · exact { h with
      none := fun _ => rfl, noAct := fun _ => rfl, cutAct := fun _ => nofun, cutRest := nofun, powerAct := fun _ => nofun
      startAct := fun _ _ => rfl }
  · exact h

/-- A start asked in OFF awaits its slot (R5, R8). -/
theorem State.claimFromOff_legal (h : s.psq.Legal) (off : s.psq.state = some .off) :
    (s.psqEnter .awaitingSlot .powerOn).psq.Legal := by
  have row := (Psq.legal_of_state off).1 h
  apply State.psqEnter_legal
  simp_all [State.entered, Psq.leave, Psq.restOnEntry, State.entryTimer, SeqState.isRunning, SeqState.isOff]

theorem State.actOn_legal (h : s.psq.Legal) : s.actOn.2.psq.Legal := by
  unfold State.actOn State.unlessMismatch
  split
  case h_1 off =>
    split
    · exact h
    · exact State.claimFromOff_legal h off
  case h_2 resting =>
    split
    · exact h
    · rw [Psq.legal_of_state resting] at h
      rw [Psq.legal_of_state (by exact resting)]
      simp_all
  case h_3 known | h_4 known =>
    split
    · split
      · exact h
      · rw [Psq.legal_of_state known] at h
        rw [Psq.legal_of_state (by exact known)]
        simp_all
    · exact h
  all_goals exact h

theorem State.beginStopping_legal {var : Variant} (h : s.psq.Legal) (on : s.psq.state = some .on)
    (soft : var = .soft ∨ var = .softThenHard) : (s.beginStopping var).psq.Legal := by
  have row := (Psq.legal_of_state on).1 h
  apply State.psqEnter_legal
  simp_all [State.entered, Psq.leave, Psq.restOnEntry, State.entryTimer, SeqState.isRunning, SeqState.isOff]

theorem State.actOffSoft_legal (thenHard : Bool) (h : s.psq.Legal) : (s.actOffSoft thenHard).2.psq.Legal := by
  unfold State.actOffSoft
  split
  case h_1 on =>
    split
    · exact { h with deferred := fun _ => on }
    · exact State.beginStopping_legal h on (by cases thenHard <;> simp)
  case h_2 awaits => exact State.offAwaiting_legal h awaits
  case h_3 stopping =>
    split
    · rw [Psq.legal_of_state stopping] at h
      rw [Psq.legal_of_state (by exact stopping)]
      simp_all
    · exact h
  case h_4 | h_5 | h_6 => exact State.cancelPending_legal h
  all_goals exact h

/-- A forced off from STARTING, ON or STOPPING, with the pending action set (R10, R12). -/
theorem State.beginForcing_legal {a : PendingAct} (h : s.psq.Legal)
    (running : s.psq.state = some .on ∨ s.psq.state = some .stopping ∨ s.psq.state = some .starting)
    (act : a ≠ .feedRestore) : (s.setPending a).beginForcing.psq.Legal := by
  apply State.psqEnter_legal
  rcases running with known | known | known
  all_goals
    have row := (Psq.legal_of_state known).1 h
    simp_all [State.entered, Psq.leave, Psq.restOnEntry, State.entryTimer, SeqState.isRunning, SeqState.isOff]

/-- A forced off that leaves the pending action as it was (R10, R21). -/
theorem State.beginForcing_legal_keeping (h : s.psq.Legal)
    (running : s.psq.state = some .on ∨ s.psq.state = some .stopping ∨ s.psq.state = some .starting)
    (act : s.psq.pendingAct ≠ .feedRestore) : s.beginForcing.psq.Legal :=
  State.beginForcing_legal (a := s.psq.pendingAct) h running act

theorem State.releaseSlot_legal (h : s.psq.Legal) : s.releaseSlot.psq.Legal :=
  h.slotGone.of_asked s.releaseSlot_asked

theorem State.releaseSlot_state (s : State) : s.releaseSlot.psq.state = s.psq.state := by
  rw [s.releaseSlot_asked.state, Psq.slotGone_state]

theorem State.actOffHard_legal (h : s.psq.Legal) : s.actOffHard.2.psq.Legal := by
  unfold State.actOffHard
  split
  case h_1 on =>
    exact State.beginForcing_legal_keeping h (.inl on) (by simp [h.noAct (.inr (.inl on))])
  case h_2 stopping =>
    exact State.beginForcing_legal_keeping h (.inr (.inl stopping))
      (by simp [h.noAct (.inr (.inr stopping))])
  case h_3 starting =>
    exact State.beginForcing_legal (State.releaseSlot_legal h) (.inr (.inr (by rwa [State.releaseSlot_state]))) nofun
  case h_4 awaits => exact State.offAwaiting_legal h awaits
  case h_5 | h_6 | h_7 => exact State.cancelPending_legal h
  all_goals exact h

theorem State.actReset_legal (source : Nat) (h : s.psq.Legal) : (s.actReset source).2.psq.Legal := by
  unfold State.actReset
  split
  · rename_i may
    have on : s.psq.state = some .on := by simp_all
    simp only [State.wduResetPulse_keeps, State.startYoung_psq, State.mark_keeps]
    exact { h with youngT := fun _ => on, young := fun _ => on }
  · exact h

theorem State.actCycle_legal (h : s.psq.Legal) : s.actCycle.2.psq.Legal := by
  unfold State.actCycle State.unlessMismatch
  split
  case h_1 on =>
    split
    · exact h
    · exact State.beginForcing_legal h (.inl on) nofun
  case h_2 stopping =>
    split
    · exact h
    · exact State.beginForcing_legal h (.inr (.inl stopping)) nofun
  case h_3 | h_4 => exact State.actOn_legal h
  all_goals exact h

/-- The rest phase of a feed cut belongs to FEED-CUT whatever state is left (R13). -/
theorem State.cutRest_psq (s : State) : ∃ phase due, s.cutRest.psq = { s.psq with restPhase := phase, restT := due } := by
  unfold State.cutRest
  (repeat' split) <;> exact ⟨_, _, rfl⟩

theorem State.actFeedCut_legal (h : s.psq.Legal) : s.actFeedCut.2.psq.Legal := by
  unfold State.actFeedCut
  split
  case h_3 st _ known =>
    obtain ⟨phase, due, rest⟩ := (((s.setFeed false).releasePress).mark .feedCut 0).cutRest_psq
    have row := (Psq.legal_of_state known).1 h
    apply State.psqEnter_legal
    cases st <;>
      simp_all [State.entered, Psq.leave, Psq.restOnEntry, State.entryTimer, SeqState.isRunning, SeqState.isOff]
  all_goals exact h

theorem State.actFeedRestore_legal (h : s.psq.Legal) : s.actFeedRestore.2.psq.Legal := by
  unfold State.actFeedRestore State.unlessMismatch
  split
  case h_2 cut =>
    have row := (Psq.legal_of_state cut).1 h
    split
    · split
      · exact h
      · apply State.psqEnter_legal
        rcases act : s.psq.pendingAct <;>
          simp_all [State.entered, Psq.leave, Psq.restOnEntry, State.entryTimer, SeqState.isRunning, SeqState.isOff]
    · split
      · exact h
      · rw [Psq.legal_of_state (by exact cut)]
        simp_all
  all_goals exact h

/-! ### PGOOD and the grant (R16, R17, R20, R24, R25) -/

theorem State.startedOn_legal (h : s.psq.Legal) (starting : s.psq.state = some .starting) : s.startedOn.psq.Legal := by
  have row := (Psq.legal_of_state starting).1 h
  have entered : (((s.setPending .none).mark .powerOn 0).psqEnter .on .none).psq.Legal := by
    apply State.psqEnter_legal
    simp_all [State.entered, Psq.leave, Psq.restOnEntry, State.entryTimer, SeqState.isRunning, SeqState.isOff]
  have young : (((s.setPending .none).mark .powerOn 0).psqEnter .on .none).startYoung.psq.Legal :=
    { entered with youngT := fun _ => by simp, young := fun _ => by simp }
  unfold State.startedOn
  dsimp only
  split
  · rename_i held
    split
    · exact State.releaseSlot_legal young
    · exact { young with settle := fun _ => held }
  · exact young

theorem State.slotEnded_legal (h : s.psq.Legal) : s.slotEnded.psq.Legal := { h with slot := nofun, settle := nofun }

theorem State.askRetract_legal (kind : OwnKind) (h : s.psq.Legal) : (s.askRetract kind).psq.Legal :=
  h.of_asked (s.askRetract_asked kind)

theorem State.granted_legal (h : s.psq.Legal) : s.granted.psq.Legal := by
  unfold State.granted
  split
  · rename_i claimed
    have awaits : s.psq.state = some .awaitingSlot := by simp_all
    have row := (Psq.legal_of_state awaits).1 h
    dsimp only
    split
    · have starting : ((({ s with psq := { s.psq with slotHeld := true } } : State).setFeed true).mark .feedRestored 0
          |>.psqEnter .starting .feedRestore true).psq.Legal := by
        apply State.psqEnter_legal
        simp_all [State.entered, Psq.leave, Psq.restOnEntry, State.entryTimer, SeqState.isRunning, SeqState.isOff]
      split
      · exact State.startedOn_legal starting (by simp)
      · exact starting
    · apply State.psqEnter_legal
      simp_all [State.entered, Psq.leave, Psq.restOnEntry, State.entryTimer, SeqState.isRunning, SeqState.isOff]
  · exact State.askRetract_legal _ h

theorem State.unadmittedStart_legal (h : s.psq.Legal)
    (may : s.psq.state = some .off ∨ s.psq.state = some .resting ∨
      s.psq.state = some .awaitingSlot ∧ s.psq.variant ≠ .feedRestore) : s.unadmittedStart.psq.Legal := by
  have entered : ((s.setPending .none).psqEnter .on .none).psq.Legal := by
    apply State.psqEnter_legal
    rcases may with known | known | ⟨known, _⟩
    all_goals
      have row := (Psq.legal_of_state known).1 h
      simp_all [State.entered, Psq.leave, Psq.restOnEntry, State.entryTimer, SeqState.isRunning, SeqState.isOff]
  simp only [State.unadmittedStart, State.raise_keeps, State.mark_keeps, State.startYoung_psq]
  exact { entered with youngT := fun _ => by simp, young := fun _ => by simp }

theorem State.feedFault_legal (h : s.psq.Legal) : s.feedFault.psq.Legal := by
  simp only [State.feedFault, State.raise_keeps]
  split
  · rename_i bouncing
    have bounce : s.psq.state = some .feedBounce := by simp_all
    rw [Psq.legal_of_state bounce] at h
    rw [Psq.legal_of_state (by exact bounce)]
    simp_all
  · exact h

theorem State.setPgood_legal (active : Bool) (h : s.psq.Legal) : (s.setPgood active).psq.Legal := { h with }

theorem State.pgoodRises_legal (h : s.psq.Legal) : s.pgoodRises.psq.Legal := by
  unfold State.pgoodRises
  split
  case h_1 starting => exact State.startedOn_legal h starting
  case h_2 off => exact State.unadmittedStart_legal h (.inl off)
  case h_3 resting => exact State.unadmittedStart_legal h (.inr (.inl resting))
  case h_4 awaits =>
    split
    · exact State.feedFault_legal h
    · exact State.unadmittedStart_legal h (.inr (.inr ⟨awaits, by assumption⟩))
  case h_5 | h_6 => exact State.feedFault_legal h
  all_goals exact h

/-- The server has gone off, or was never up: PSQ rests (R18, R20, R22). -/
theorem State.toResting_legal (h : s.psq.Legal)
    (may : s.psq.state = some .on ∨ s.psq.state = some .stopping ∨ s.psq.state = some .forcing ∨
      s.psq.state = some .starting ∧ s.psq.variant ≠ .feedRestore) : s.toResting.psq.Legal := by
  apply State.psqEnter_legal
  rcases may with known | known | known | ⟨known, _⟩
  all_goals
    have row := (Psq.legal_of_state known).1 h
    simp_all [State.entered, Psq.leave, Psq.restOnEntry, State.entryTimer, SeqState.isRunning, SeqState.isOff]

theorem State.mark_legal (kind : MarkKind) (arg : Nat) (h : s.psq.Legal) : (s.mark kind arg).psq.Legal := by simpa using h

theorem State.raise_legal (kind : NoticeKind) (detail : Bytes) (h : s.psq.Legal) : (s.raise kind detail).psq.Legal := by
  simpa using h

theorem State.releasePress_legal (h : s.psq.Legal) : s.releasePress.psq.Legal := { h with }

theorem State.releaseReset_legal (h : s.psq.Legal) : s.releaseReset.psq.Legal := { h with }

theorem State.stopForce_legal (h : s.psq.Legal) : s.stopForce.psq.Legal :=
  { h with force := nofun, bounce := fun _ _ => rfl }

theorem State.wduTakes_legal (source action : Nat) {answer : OrderStatus × State} (h : answer.2.psq.Legal) :
    (wduTakes source action answer).2.psq.Legal := by simpa using h

theorem State.guardAsks_legal (h : s.psq.Legal) : s.guardAsks.psq.Legal := by
  unfold State.guardAsks
  split
  · exact State.wduTakes_legal _ _ (State.actOn_legal h)
  · exact h

theorem State.fellAwaited_psq (s : State) (arg : Nat) : (s.fellAwaited arg).psq =
    if s.psq.restPhase = .awaitingFall then (s.mark .powerOff arg).startRest.psq else s.psq := by
  unfold State.fellAwaited
  split <;> rfl

theorem State.pgoodFalls_legal (h : s.psq.Legal) : s.pgoodFalls.psq.Legal := by
  unfold State.pgoodFalls
  split
  case h_1 stopping =>
    exact State.toResting_legal (State.mark_legal _ _ (State.releasePress_legal h)) (.inr (.inl (by simpa using stopping)))
  case h_2 forcing =>
    exact State.toResting_legal (State.mark_legal _ _ (State.releasePress_legal h))
      (.inr (.inr (.inl (by simpa using forcing))))
  case h_3 on =>
    exact State.guardAsks_legal (State.toResting_legal (State.raise_legal _ _ (State.mark_legal _ _ h))
      (.inl (by simpa using on)))
  case h_4 cut =>
    rw [State.fellAwaited_psq]
    split
    · rw [Psq.legal_of_state cut] at h
      rw [Psq.legal_of_state (by simpa using cut)]
      simp_all
    · exact h
  case h_5 bouncing =>
    split
    · rw [Psq.legal_of_state bouncing] at h
      rw [Psq.legal_of_state (st := some .feedBounce) (by simp [State.fellAwaited_psq, *])]
      simp_all [State.fellAwaited_psq]
    · exact h
  all_goals exact h

/-! ### The power timers (R18 to R23) -/

theorem State.startFailed_legal (h : s.psq.Legal) : s.startFailed.psq.Legal := by
  have stopped : Psq.Legal { s.psq with startT := none } := { h with start := nofun }
  unfold State.startFailed
  dsimp only
  split
  · rename_i starting
    have row := (Psq.legal_of_state starting).1 h
    split
    · have off : Psq.row { (({ s with psq := { s.psq with startT := none } } : State).psqEnter .off .none).psq with
          pendingAct := .none } (some .off) := by
        obtain ⟨retract, claimed, entered, claims⟩ :=
          ({ s with psq := { s.psq with startT := none } } : State).psqEnter_asked .off .none false
        rw [entered]
        simp_all [State.entered, Psq.leave, Psq.restOnEntry, State.entryTimer, SeqState.isRunning, SeqState.isOff]
      split
      · exact State.claimFromOff_legal ((Psq.legal_of_state (by simp)).2 off) (by simp)
      · apply State.psqEnter_legal
        rcases act : s.psq.pendingAct <;> simp_all [State.entered, Psq.leave, Psq.restOnEntry, State.entryTimer, SeqState.isRunning, SeqState.isOff]
    · exact State.raise_legal _ _ (State.toResting_legal stopped (.inr (.inr (.inr ⟨starting, by assumption⟩))))
  · exact stopped

theorem State.settled_legal (h : s.psq.Legal) : s.settled.psq.Legal :=
  State.releaseSlot_legal { h with settle := nofun }

theorem State.youngOver_legal (h : s.psq.Legal) : s.youngOver.psq.Legal := by
  have stopped : Psq.Legal { s.psq with young := false, youngT := none } := { h with youngT := nofun, young := nofun }
  unfold State.youngOver
  dsimp only
  split
  · rename_i on
    split
    · exact stopped
    · exact State.beginStopping_legal stopped on (.inl rfl)
    · exact State.beginStopping_legal stopped on (.inr rfl)
  · exact stopped

theorem State.graceOver_legal (h : s.psq.Legal) : s.graceOver.psq.Legal := by
  have stopped : Psq.Legal { s.psq with graceT := none } := { h with grace := nofun }
  unfold State.graceOver
  dsimp only
  split
  · rename_i stopping
    have row := (Psq.legal_of_state stopping).1 h
    split
    · exact State.beginForcing_legal_keeping stopped (.inr (.inl stopping)) (by simp_all)
    · apply State.raise_legal
      apply State.psqEnter_legal
      simp_all [State.entered, Psq.leave, Psq.restOnEntry, State.entryTimer, SeqState.isRunning, SeqState.isOff]
  · exact stopped

theorem State.forceOver_legal (h : s.psq.Legal) : s.forceOver.psq.Legal := by
  have stopped := State.stopForce_legal h
  unfold State.forceOver
  dsimp only
  split
  · rename_i forcing
    split
    · have row := (Psq.legal_of_state forcing).1 h
      apply State.psqEnter_legal
      simp_all [State.entered, Psq.leave, Psq.restOnEntry, State.entryTimer, SeqState.isRunning, SeqState.isOff]
    · exact State.toResting_legal stopped (.inr (.inr (.inl forcing)))
  · split
    · exact State.raise_legal _ _ stopped
    · exact stopped
  · exact stopped

/-- The rest timer runs out in the states that it runs in. -/
theorem State.restOver_legal (h : s.psq.Legal) (ran : s.psq.restT.isSome) : s.restOver.psq.Legal := by
  unfold State.restOver
  dsimp only
  split
  case h_1 resting =>
    have row := (Psq.legal_of_state resting).1 h
    split
    · apply State.psqEnter_legal
      simp_all [State.entered, Psq.leave, Psq.restOnEntry, State.entryTimer, SeqState.isRunning, SeqState.isOff]
    · apply State.psqEnter_legal
      rcases act : s.psq.pendingAct <;> simp_all [State.entered, Psq.leave, Psq.restOnEntry, State.entryTimer, SeqState.isRunning, SeqState.isOff]
  case h_2 bouncing =>
    have row := (Psq.legal_of_state bouncing).1 h
    apply State.psqEnter_legal
    simp_all [State.entered, Psq.leave, Psq.restOnEntry, State.entryTimer, SeqState.isRunning, SeqState.isOff]
  case h_3 cut =>
    have row := (Psq.legal_of_state cut).1 h
    split
    · apply State.psqEnter_legal
      simp_all [State.entered, Psq.leave, Psq.restOnEntry, State.entryTimer, SeqState.isRunning, SeqState.isOff]
    · rw [Psq.legal_of_state (by exact cut)]
      simp_all
  case h_4 notResting notBouncing notCut =>
    rcases h.rest ran with known | known | known
    · exact absurd known notCut
    · exact absurd known notBouncing
    · exact absurd known notResting

/-! ### The watchdog's and the panic's requests (R90 to R94) -/

theorem State.faultRequest_legal (source : Nat) (response : FaultAction) (h : s.psq.Legal) :
    (s.faultRequest source response).2.psq.Legal := by
  cases response
  · exact h
  · exact State.wduTakes_legal _ _ (State.actReset_legal _ h)
  · exact State.wduTakes_legal _ _ (State.actCycle_legal h)

theorem State.watchdogExpiry_legal (cause : Nat) (h : s.psq.Legal) : (s.watchdogExpiry cause).psq.Legal := by
  unfold State.watchdogExpiry
  dsimp only
  split
  · exact State.faultRequest_legal _ _ (State.raise_legal _ _ (State.mark_legal _ _ h))
  · exact State.faultRequest_legal _ _ (State.raise_legal _ _ (State.mark_legal _ _ h))

theorem State.heartbeat_legal (entry : Nat) (h : s.psq.Legal) : (s.heartbeat entry).psq.Legal := by
  unfold State.heartbeat
  dsimp only
  split
  · split
    · split
      · exact State.watchdogExpiry_legal _ (State.raise_legal _ _ h)
      · exact State.raise_legal _ _ h
    · exact h
  · exact h

theorem State.panic_legal (entry endOffset : Nat) (h : s.psq.Legal) : (s.panic entry endOffset).psq.Legal := by
  unfold State.panic
  dsimp only
  split
  · exact State.faultRequest_legal _ _ (State.raise_legal _ _ (State.mark_legal _ _ h))
  · exact State.raise_legal _ _ h

theorem State.deliverMatch_legal (entry : Nat) (action : PatternAction) (h : s.psq.Legal) :
    (s.deliverMatch entry action).psq.Legal := by
  cases action
  · exact State.heartbeat_legal _ h
  · simpa [State.deliverMatch] using h
  · exact State.panic_legal _ _ h
  · exact State.raise_legal _ _ h

theorem State.goodByte_legal (b : Byte) (h : s.psq.Legal) : (s.goodByte b).psq.Legal := by
  have delivered : ∀ (l : List (Nat × Pattern)) (t : State), t.psq.Legal →
      (l.foldl (fun t e => t.deliverMatch e.1 e.2.action) t).psq.Legal := by
    intro l
    induction l with
    | nil => exact fun _ ht => ht
    | cons e l ih => exact fun t ht => ih _ (State.deliverMatch_legal _ _ ht)
  unfold State.goodByte
  split
  · exact delivered _ _ (by simpa using h)
  · exact h

/-! ### ADM's grants and reports (R29 to R47) -/

theorem State.admChange_legal (change : Adm → Adm) (h : s.psq.Legal) : (s.admChange change).psq.Legal := by
  unfold State.admChange
  dsimp only
  split
  · exact State.granted_legal h
  · exact h

theorem State.admitFrame_legal (f : LaneFrame) (kind : FrameKind) (h : s.psq.Legal) : (s.admitFrame f kind).psq.Legal := by
  unfold State.admitFrame
  dsimp only
  split
  · split
    · exact State.admChange_legal _ h
    · exact State.admChange_legal _ h
    · exact State.admChange_legal _ h
    · exact h
  · exact h

theorem State.repair_legal (x : Nat) (b : Beacon) (h : s.psq.Legal) : (s.repair x b).psq.Legal := by
  have changed : ∀ change, (s.admChange change).psq.Legal := fun change => State.admChange_legal change h
  have raised := State.raise_legal .rosterConflict [byte x] h
  unfold State.repair
  dsimp only
  (repeat' split) <;> simp only [changed, raised, h]

theorem State.admBeacon_legal (x : Nat) (b : Beacon) (h : s.psq.Legal) : (s.admBeacon x b).psq.Legal := by
  unfold State.admBeacon
  split
  · split
    · exact State.repair_legal _ _ h
    · split
      · exact State.admChange_legal _ h
      · exact h
  · exact h

theorem State.beaconSeen_legal (x : Nat) (b : Beacon) (h : s.psq.Legal) : (s.beaconSeen x b).psq.Legal := by
  have taken : ((s.beaconEntry x b).admBeacon x b).psq.Legal := State.admBeacon_legal _ _ (by simpa using h)
  unfold State.beaconSeen State.roleReported
  cases b.role
  · simpa using taken
  · have removed : (((s.beaconEntry x b).admBeacon x b).admRemove x).psq.Legal := State.admChange_legal _ taken
    exact removed

theorem State.presentBlocks_legal (f : LaneFrame) (h : s.psq.Legal) : (s.presentBlocks f).psq.Legal := by
  unfold State.presentBlocks
  split
  case h_1 | h_2 | h_3 => exact State.admitFrame_legal _ _ h
  case h_4 | h_5 | h_6 => simpa using h
  case h_7 => exact h

theorem State.present_legal (f : LaneFrame) (h : s.psq.Legal) : (s.present f).psq.Legal := by
  have heard : (s.heard f.sender.toNat).psq.Legal := by simpa using h
  unfold State.present
  dsimp only
  split
  · split
    · split
      · exact State.beaconSeen_legal _ _ heard
      · exact heard
    · exact heard
  · exact State.presentBlocks_legal _ heard

theorem State.agePeers_legal (h : s.psq.Legal) : s.agePeers.psq.Legal := by
  have absent : ∀ (xs : List Nat) (t : State), t.psq.Legal → (xs.foldl State.declareAbsent t).psq.Legal := by
    intro xs
    induction xs with
    | nil => exact fun _ ht => ht
    | cons x xs ih =>
      refine fun t ht => ih _ ?_
      have removed : (({ t with ptu := t.ptu.setPeer x {} } : State).admRemove x).psq.Legal := State.admChange_legal _ ht
      simpa [State.declareAbsent] using removed
  exact absent _ _ h

theorem State.askClaim_legal (h : s.psq.Legal) : s.askClaim.psq.Legal := h.of_asked s.askClaim_asked

theorem State.boundary_legal (h : s.psq.Legal) : s.boundary.psq.Legal := by
  unfold State.boundary
  split
  · rename_i due _
    have aged : (({ s.timeTo due with ptu := { (s.timeTo due).ptu with boundary := some (after due s.period) } } :
        State).agePeers).psq.Legal := State.agePeers_legal h
    simp only [State.offerBeacon_keeps]
    split
    · exact State.askClaim_legal { aged with }
    · exact aged
  · exact h

theorem State.retractSettled_legal (h : s.psq.Legal) : s.retractSettled.psq.Legal := h.of_asked s.retractSettled_asked

theorem State.cancelClaim_legal (h : s.psq.Legal) : s.cancelClaim.psq.Legal := h.of_asked s.cancelClaim_asked

theorem State.report_legal (e : SendEntry) (f : LaneFrame) (r : Report) (h : s.psq.Legal) :
    (s.report e f r).psq.Legal := by
  unfold State.report
  split
  case h_1 =>
    cases r
    · exact h
    · exact State.cancelClaim_legal h
    · exact State.cancelClaim_legal h
    all_goals
      simp only [State.reportAdm, State.ownDone, State.ownGivenUp]
    case taken | notTaken =>
      split
      · split
        · exact h
        · exact State.retractSettled_legal h
      · exact h
    case givenUp => exact State.cancelClaim_legal (by simpa using h)
  all_goals simpa using h

theorem State.endTenure_legal (e : SendEntry) (f : LaneFrame) (how : TenureEnd) (h : s.psq.Legal) :
    (s.endTenure e f how).psq.Legal := by
  unfold State.endTenure
  dsimp only
  apply State.report_legal
  split
  · simpa using State.presentBlocks_legal f (s := ({ s with lif := s.lif.endTenure how } : State).settleEntry e.seq _)
      (by simpa using h)
  · simpa using h

theorem State.tenureEnds_legal (how : TenureEnd) (straps : Straps) (h : s.psq.Legal) :
    (s.tenureEnds how straps).psq.Legal := by
  unfold State.tenureEnds
  split
  · split
    · split
      · simp only [State.warmRestart, State.beginStart_keeps, State.warmState]
        exact (Psq.legal_of_state rfl).2 (by simp)
      · exact State.endTenure_legal _ _ _ (by simpa using h)
    · exact h
  · exact h

theorem State.frameComplete_legal (f : LaneFrame) (handovers : Nat) (h : s.psq.Legal) :
    (s.frameComplete f handovers).psq.Legal := by
  unfold State.frameComplete
  split
  · split
    · simpa using h
    · split
      · exact h
      · simp only [State.handOvers_keeps]
        exact State.present_legal _ (by simpa using h)
  · exact h

theorem State.holdLimitReached_legal (x : Nat) (h : s.psq.Legal) : (s.holdLimitReached x).psq.Legal := by
  unfold State.holdLimitReached
  split
  · rename_i start _
    have changed : (((s.timeTo (after start s.holdLimit)).expire x).admChange (fun a => a.release x)).psq.Legal :=
      State.admChange_legal _ h
    dsimp only
    split
    · exact State.slotEnded_legal changed
    · exact changed
  · exact h

/-! ### The starts (R26, R27) -/

theorem State.payFault_legal (h : s.psq.Legal) : s.payFault.psq.Legal := by
  unfold State.payFault
  split
  · exact State.raise_legal _ _ { h with }
  · exact h

theorem State.derivePsq_legal (active : Bool) : (s.derivePsq active).psq.Legal := by
  unfold State.derivePsq
  dsimp only
  split
  · split
    all_goals
      apply State.psqEnter_legal
      simp_all [State.entered, Psq.leave, Psq.restOnEntry, State.entryTimer, SeqState.isOff]
  · split
    · have cut : (({ s with psq :=
          { feedClosed := s.psq.feedClosed, pgood := active, restPhase := .awaitingFall, faultOwed := true } } :
          State).psqEnter .feedCut .none).psq.Legal := by
        apply State.psqEnter_legal
        simp_all [State.entered, Psq.leave, Psq.restOnEntry, State.entryTimer, SeqState.isOff]
      split
      · exact State.payFault_legal cut
      · exact cut
    · apply State.psqEnter_legal
      simp_all [State.entered, Psq.leave, Psq.restOnEntry, State.entryTimer, SeqState.isOff]

theorem State.memoryUp_legal (h : s.psq.Legal) : s.memoryUp.psq.Legal := by
  unfold State.memoryUp
  split
  · split
    · exact State.payFault_legal (State.raise_legal _ _ h)
    · exact h
  · exact h

theorem State.deriveFromPin_legal (pinHigh : Bool) (h : s.psq.Legal) : (s.deriveFromPin pinHigh).psq.Legal := by
  unfold State.deriveFromPin
  split
  · split
    · exact State.derivePsq_legal _
    · exact h
  · exact h

/-! ### Every command -/

/-- Every command's effect keeps R4's table. -/
theorem effect_legal (c : Instr) (h : s.psq.Legal) : (c.effect s).psq.Legal := by
  have timed : ∀ (timer : Option Time) (event : State → State), (∀ u : State, u.psq.Legal → (event u).psq.Legal) →
      (s.expires timer event).psq.Legal := fun timer event acts =>
    State.expires_keeps (P := fun u => u.psq.Legal) timer h (fun _ => h) acts
  have decided : ∀ (row : OrderRow) (block : Order → State → Answer), (∀ o, (block o s).state.psq.Legal) →
      (s.decide row block).psq.Legal := fun row block acts =>
    State.decide_keeps (P := fun u => u.psq.Legal) h acts (fun _ _ _ _ _ hu => hu)
  cases c
  case pgoodActive =>
    simp only [Instr.effect]
    split
    · exact State.pgoodRises_legal (State.setPgood_legal _ h)
    · exact h
  case pgoodInactive =>
    simp only [Instr.effect]
    split
    · exact State.pgoodFalls_legal (State.setPgood_legal _ h)
    · exact h
  case startTimerExpiry => exact timed _ _ fun _ => State.startFailed_legal
  case settleTimerExpiry => exact timed _ _ fun _ => State.settled_legal
  case youngTimerExpiry => exact timed _ _ fun _ => State.youngOver_legal
  case graceTimerExpiry => exact timed _ _ fun _ => State.graceOver_legal
  case forceTimerExpiry => exact timed _ _ fun _ => State.forceOver_legal
  case restTimerExpiry =>
    simp only [Instr.effect]
    cases ran : s.psq.restT with
    | none => exact h
    | some due => exact State.restOver_legal (s := s.timeTo due) h (by simp [ran])
  case pressPulseEnd | longPressEnd => exact timed _ _ fun _ => State.releasePress_legal
  case resetPulseEnd => exact timed _ _ fun _ => State.releaseReset_legal
  case watchdogDeadlineExpiry =>
    refine timed _ _ fun u hu => ?_
    unfold State.deadlineReached
    split
    · exact State.watchdogExpiry_legal _ hu
    · exact hu
  case consoleGoodByte => exact State.inRx_keeps (P := fun u => u.psq.Legal) _ h (State.goodByte_legal _ h)
  case powerOn => exact decided _ _ fun _ => State.actOn_legal h
  case powerOffSoft | powerOffSoftThenHard => exact decided _ _ fun _ => State.actOffSoft_legal _ h
  case powerOffHard => exact decided _ _ fun _ => State.actOffHard_legal h
  case powerReset => exact decided _ _ fun _ => State.actReset_legal _ h
  case powerCycle => exact decided _ _ fun _ => State.actCycle_legal h
  case powerFeedCut => exact decided _ _ fun _ => State.actFeedCut_legal h
  case powerFeedRestore => exact decided _ _ fun _ => State.actFeedRestore_legal h
  case presenceBoundary => exact State.boundary_legal h
  case laneBidBegin =>
    simp only [Instr.effect, State.bidBegin]
    (repeat' split) <;> try exact h
    exact State.report_legal _ _ _ h
  case bidLost =>
    simp only [Instr.effect, State.loseBid, State.withdrawBid, State.mismatch]
    (repeat' split) <;> try exact h
    exact State.report_legal _ _ _ h
  case senderTenureEnd => exact State.tenureEnds_legal _ _ h
  case frameCompleteUnspoiled => exact State.frameComplete_legal _ _ h
  case entryHoldLimit => exact State.holdLimitReached_legal _ h
  case memoryBringupComplete => exact State.memoryUp_legal h
  case psqStateDerived => exact State.deriveFromPin_legal _ h
  case claim | releaseClaim | status | watch | unwatch | powerWake | watchdogArm | watchdogDisarm | watchdogRetime | attach |
      detach | breakOrder | restart | orderNameInvalid =>
    exact decided _ _ fun o => by simpa [Answer.plain] using h
  case watcherWaitExpiry | watcherPauseExpiry | noticePauseExpiry | drainTimerExpiry | usbResumeSignallingEnd =>
    exact timed _ _ fun u hu => by simpa using hu
  case consoleLineIdle | consoleFramingError | consoleBreakStart | consoleBreakEnd =>
    exact State.inRx_keeps (P := fun u => u.psq.Legal) _ h (by simpa using h)
  case wantTimerExpiry =>
    simp only [Instr.effect]
    split
    · exact timed _ _ fun u hu => by simpa using hu
    · exact h
  case read | write =>
    simp only [Instr.effect]
    split
    · exact State.serverRequest_keeps (P := fun u => u.psq.Legal) _ _ h (fun _ _ _ => h) (fun u hu => by simpa using hu)
    · exact h
  case capacity | ready | eject =>
    exact State.serverRequest_keeps (P := fun u => u.psq.Legal) _ _ h (fun _ _ _ => h) (fun u hu => by simpa using hu)
  all_goals
    simp only [Instr.effect]
    (repeat' split) <;> simpa using h

end

theorem reset_legal : State.reset.psq.Legal := (Psq.legal_of_state rfl).2 (by simp [State.reset])

/-- Settles O7: every command's effect keeps R4's table, and no other part of a step writes PSQ's record. -/
theorem everyStepKeepsSequencerRecordLegal : Obligations.EveryStepKeepsSequencerRecordLegal := by
  intro s t h stepped
  have tick : ∀ u : State, u.tick.psq = u.psq := fun u => by unfold State.tick; split <;> rfl
  refine step_keeps (P := fun u => u.psq.Legal) (fun _ _ h => h) (fun u hu => ?_) (fun u straps _ => ?_)
    (fun u _ => reset_legal) (fun _ _ h => h) (fun c u hu => effect_legal c hu) (fun u hu => ?_) h stepped
  · rwa [tick]
  · simpa [State.coldState] using reset_legal
  · rwa [settle_psq]

end Sys2Proof.Machine


/-! ## LPM's operations keep the pool within its bounds (R103 to R113) -/

namespace Sys2Proof.Machine

/-! ### The DIRTY count of a record put or removed -/

/-- The DIRTY records of a list. -/
def dirtyIn (l : List (Nat × Line)) : Nat := (l.filter (fun e => e.2.isDirty)).length

theorem Lpm.dirtyCount_eq (p : Lpm) : p.dirtyCount = dirtyIn p.lines := rfl

theorem dirtyIn_cons (e : Nat × Line) (l : List (Nat × Line)) :
    dirtyIn (e :: l) = (if e.2.isDirty then 1 else 0) + dirtyIn l := by
  by_cases dirty : e.2.isDirty = true <;> simp [dirtyIn, dirty]
  omega

/-- A record put adds at most one DIRTY record, and none where it is not DIRTY itself. -/
theorem dirtyIn_putLine (l : List (Nat × Line)) (pos : Nat) (x : Line) :
    dirtyIn (putLine l pos x) ≤ dirtyIn l + (if x.isDirty then 1 else 0) := by
  induction l with
  | nil =>
    have none : dirtyIn [] = 0 := rfl
    simp [putLine, dirtyIn_cons, none]
  | cons a l ih =>
    simp only [putLine]
    split
    · simp only [dirtyIn_cons]
      omega
    · split
      · simp only [dirtyIn_cons]
        omega
      · simp only [dirtyIn_cons]
        omega

/-- A record put in the place of a DIRTY one adds none. -/
theorem dirtyIn_putLine_dirty {l : List (Nat × Line)} (rising : l.Pairwise (fun a b => a.1 < b.1)) {pos : Nat} {old : Line}
    (stands : (pos, old) ∈ l) (dirty : old.isDirty = true) (x : Line) : dirtyIn (putLine l pos x) ≤ dirtyIn l := by
  induction l with
  | nil => cases stands
  | cons a l ih =>
    obtain ⟨first, rest⟩ := List.pairwise_cons.1 rising
    simp only [putLine]
    rcases List.mem_cons.1 stands with rfl | inRest
    · rw [if_neg (lt_irrefl _), if_pos rfl]
      simp only [dirtyIn_cons, dirty, if_true]
      split <;> omega
    · have above := first _ inRest
      simp only at above
      rw [if_neg (by omega), if_neg (by omega)]
      have := ih rest inRest
      simp only [dirtyIn_cons]
      omega

/-! ### The operations -/

section

variable {p : Lpm} (h : PoolWithinBounds p)
include h

theorem PoolWithinBounds.free (pos : Nat) : PoolWithinBounds (p.free pos) where
  placed := h.placed.free pos
  dirty := (List.Sublist.length_le (List.filter_sublist.filter _)).trans h.dirty

/-- A record that is not DIRTY put at a position of the pool. -/
theorem PoolWithinBounds.put {pos : Nat} (below : pos < p.poolSize) {x : Line} (clean : x.isDirty = false) :
    PoolWithinBounds (p.put pos x) where
  placed := h.placed.put below x
  dirty := by
    have added := dirtyIn_putLine p.lines pos x
    rw [clean] at added
    exact added.trans h.dirty

/-- A DIRTY record replaced. -/
theorem PoolWithinBounds.put_dirty {pos n : Nat} {mask : BitVec 4} {pins : Nat} {pending : Bool}
    (stands : p.line pos = some (.dirty n mask pins pending)) (x : Line) : PoolWithinBounds (p.put pos x) where
  placed := h.placed.put (h.placed.line_lt stands) x
  dirty := (dirtyIn_putLine_dirty h.placed.rising (Lpm.mem_of_line stands) rfl x).trans h.dirty

theorem PoolWithinBounds.toTail {pos : Nat} (below : pos < p.poolSize) : PoolWithinBounds (p.toTail pos) where
  placed := h.placed.toTail below
  dirty := h.dirty

theorem PoolWithinBounds.recency {l : List Nat} (less : ∀ q ∈ l, q ∈ p.recency) :
    PoolWithinBounds { p with recency := l } where
  placed := ⟨h.placed.rising, h.placed.below, fun q hq => h.placed.recency q (less q hq)⟩
  dirty := h.dirty

theorem PoolWithinBounds.unpin (pos : Nat) : PoolWithinBounds (p.unpin pos) := by
  unfold Lpm.unpin
  split
  · rename_i stands
    have below := h.placed.line_lt stands
    split
    · split
      · exact h.free pos
      · exact (h.put below rfl).toTail below
    · exact h.put below rfl
  · rename_i stands
    split
    · split
      · exact h.free pos
      · exact h.put_dirty stands _
    · exact h.put_dirty stands _
  · exact h

theorem PoolWithinBounds.pin {pos : Nat} {q : Lpm} (pinned : p.pin pos = some q) : PoolWithinBounds q := by
  unfold Lpm.pin at pinned
  split at pinned
  · rename_i stands
    cases pinned
    exact (h.put (h.placed.line_lt stands) rfl).recency fun _ => List.mem_of_mem_filter
  · rename_i stands
    cases pinned
    exact h.put_dirty stands _
  · cases pinned

theorem PoolWithinBounds.fill {pos : Nat} {q : Lpm} (filled : p.fill pos = some q) : PoolWithinBounds q := by
  unfold Lpm.fill at filled
  split at filled
  · rename_i stands
    cases filled
    exact h.put (h.placed.line_lt stands) rfl
  · cases filled

theorem PoolWithinBounds.fillDone (pos : Nat) : PoolWithinBounds (p.fillDone pos).2 := by
  unfold Lpm.fillDone
  split
  · rename_i stands
    exact (h.put (h.placed.line_lt stands) rfl).toTail (h.placed.line_lt stands)
  · exact h.free pos
  · exact h

theorem PoolWithinBounds.freeFilling (pos : Nat) : PoolWithinBounds (p.freeFilling pos) := by
  unfold Lpm.freeFilling
  split
  · exact h.free pos
  · rename_i stands
    exact h.put (h.placed.line_lt stands) rfl
  · exact h

theorem PoolWithinBounds.retireLine (pos : Nat) : PoolWithinBounds (p.retireLine pos) := by
  unfold Lpm.retireLine
  split
  · exact h.freeFilling pos
  · rename_i stands
    split
    · exact h.free pos
    · exact h.put (h.placed.line_lt stands) rfl
  · exact h

theorem PoolWithinBounds.releaseLine (pos : Nat) : PoolWithinBounds (p.releaseLine pos) := by
  unfold Lpm.releaseLine
  split
  · rename_i stands
    split
    · exact h.free pos
    · exact h.put_dirty stands _
  · exact h

theorem PoolWithinBounds.foldl {f : Lpm → Nat → Lpm} (keeps : ∀ {q : Lpm}, PoolWithinBounds q → ∀ pos, PoolWithinBounds (f q pos))
    (l : List Nat) : PoolWithinBounds (l.foldl f p) := by
  induction l generalizing p with
  | nil => exact h
  | cons pos l ih => exact ih (keeps h pos)

theorem PoolWithinBounds.retire (image gen : Nat) : PoolWithinBounds (p.retire image gen) :=
  h.foldl (fun hq => hq.retireLine) _

theorem PoolWithinBounds.releaseOverlay : PoolWithinBounds p.releaseOverlay := h.foldl (fun hq => hq.releaseLine) _

/-- The line taken lies in the pool, and taking it leaves no more DIRTY records. -/
theorem PoolWithinBounds.take {pos : Nat} {q : Lpm} (taken : p.take = some (pos, q)) :
    PoolWithinBounds q ∧ pos < q.poolSize ∧ q.dirtyCount ≤ p.dirtyCount := by
  obtain ⟨size, -⟩ := Lpm.take_frame taken
  have below : pos < q.poolSize := by
    have placed := (Lpm.take_given h.placed taken (.filling ⟨0, 0, 0⟩ .none)).2
    exact placed.line_lt (x := .filling ⟨0, 0, 0⟩ .none) (by simp)
  unfold Lpm.take at taken
  split at taken
  · cases taken
    exact ⟨h, below, le_refl _⟩
  · split at taken
    · cases taken
      exact ⟨h.free _, below, List.Sublist.length_le (List.filter_sublist.filter _)⟩
    · cases taken

theorem PoolWithinBounds.allocFilling {key : Key} {pos : Nat} {q : Lpm} (given : p.allocFilling key = some (pos, q)) :
    PoolWithinBounds q := by
  unfold Lpm.allocFilling at given
  split at given
  · cases given
  · split at given
    · rename_i taken
      obtain ⟨bounds, below, -⟩ := h.take taken
      cases given
      exact bounds.put below rfl
    · cases given

/-- Overlay space keeps the DIRTY count within the pool less the reserve (R109). -/
theorem PoolWithinBounds.allocOverlay {n : Nat} {mask : BitVec 4} {pos : Nat} {q : Lpm}
    (given : p.allocOverlay n mask = .given pos q) : PoolWithinBounds q := by
  unfold Lpm.allocOverlay at given
  split at given
  · cases given
  · split at given
    · rename_i found
      cases given
      have inPool := List.mem_of_find?_eq_some found
      exact h.put_dirty (Lpm.line_of_mem h.placed.rising inPool) _
    · split at given
      · cases given
      · rename_i room
        split at given
        · rename_i taken
          obtain ⟨bounds, below, fewer⟩ := h.take taken
          obtain ⟨size, reserve⟩ := Lpm.take_frame taken
          cases given
          refine ⟨bounds.placed.put below _, ?_⟩
          have added := fun q : Lpm => dirtyIn_putLine q.lines pos (.dirty n mask 1 false)
          rw [Lpm.dirtyCount_eq]
          refine (added _).trans ?_
          rw [← Lpm.dirtyCount_eq]
          simp only [Lpm.put, Line.isDirty, if_true, size, reserve]
          omega
        · cases given

end

/-- An empty pool. -/
theorem PoolWithinBounds.empty {p : Lpm} (lines : p.lines = []) (recency : p.recency = []) : PoolWithinBounds p where
  placed := ⟨by simp [lines], by simp [lines], by simp [recency]⟩
  dirty := by simp [Lpm.dirtyCount, lines]

end Sys2Proof.Machine


/-! ## What keeps the pool within its bounds and the queues within their capacities -/

namespace Sys2Proof.Machine

/-- The places of UPB's inbound queue that are taken or reserved (R208). -/
def State.inboundLoad (s : State) : Nat := s.upb.inq.length + s.lif.recvQueue.length + s.upbListed

/-- `t` holds the bounds of the pool and of the queues where `s` holds them, and no more places of UPB's inbound queue are
taken in it. -/
structure State.KeepsBounds (s t : State) : Prop where
  pool       : PoolWithinBounds s.lpm → PoolWithinBounds t.lpm
  capacities : WithinCapacities s → WithinCapacities t
  load       : t.inboundLoad ≤ s.inboundLoad

theorem State.KeepsBounds.refl (s : State) : s.KeepsBounds s := ⟨id, id, le_refl _⟩

theorem State.KeepsBounds.trans {s t u : State} (first : s.KeepsBounds t) (second : t.KeepsBounds u) : s.KeepsBounds u :=
  ⟨second.pool ∘ first.pool, second.capacities ∘ first.capacities, second.load.trans first.load⟩

theorem State.serving_of_role {s t : State} (role : t.sld.role = s.sld.role) : t.serving = s.serving := by
  simp only [State.serving, role]

/-- The bounds stand where no queue grows past its own, and what two queues share only shrinks. -/
theorem State.KeepsBounds.shrink {s t : State}
    (pool : PoolWithinBounds s.lpm → PoolWithinBounds t.lpm := by simp)
    (role : t.sld.role = s.sld.role := by simp)
    (own : s.adm.own.length ≤ 4 → t.adm.own.length ≤ 4 := by simp)
    (sends : t.lif.sendList.length ≤ s.lif.sendList.length := by simp)
    (listed : t.upbListed ≤ s.upbListed := by simp [State.upbListed])
    (queue : t.lif.recvQueue = s.lif.recvQueue := by simp)
    (held : s.lif.takeHeld = none → t.lif.takeHeld = none := by simp)
    (inbox : t.ord.inbox.length ≤ s.ord.inbox.length := by simp)
    (wants : s.xch.wants.length ≤ 8 → t.xch.wants.length ≤ 8 := by simp)
    (gives : s.xch.gives.length ≤ 4 → t.xch.gives.length ≤ 4 := by simp)
    (watchers : s.cfw.watchers.length ≤ 4 → t.cfw.watchers.length ≤ 4 := by simp)
    (marks : s.ccu.marks.length ≤ 64 → t.ccu.marks.length ≤ 64 := by simp)
    (buffer : s.ccu.buffer.length ≤ 64 → t.ccu.buffer.length ≤ 64 := by simp)
    (breaks : s.cfw.breakCount ≤ 8 → t.cfw.breakCount ≤ 8 := by simp)
    (text : t.cfw.textCount ≤ s.cfw.textCount := by simp)
    (reserved : t.cfw.reserved = s.cfw.reserved := by simp)
    (outbound : s.upb.outq.length ≤ 16 → t.upb.outq.length ≤ 16 := by simp)
    (inbound : t.upb.inq.length ≤ s.upb.inq.length := by simp) : s.KeepsBounds t := by
  have serving := State.serving_of_role role
  have orders : t.lif.ordersHeld = s.lif.ordersHeld := by simp only [Lif.ordersHeld, queue]
  have texts : t.lif.textHeld = s.lif.textHeld := by simp only [Lif.textHeld, queue]
  have load : t.inboundLoad ≤ s.inboundLoad := by
    unfold State.inboundLoad
    rw [queue]
    omega
  refine ⟨pool, fun h => ?_, load⟩
  exact {
    own := own h.own
    sendList := sends.trans h.sendList
    recvQueue := queue ▸ h.recvQueue
    takeHeld := held h.takeHeld
    inbox := fun serves => by have := h.inbox (serving ▸ serves); omega
    wants := wants h.wants
    gives := gives h.gives
    watchers := watchers h.watchers
    marks := marks h.marks
    buffer := buffer h.buffer
    breaks := breaks h.breaks
    text := fun serves => by have := h.text (serving ▸ serves); omega
    reserved := fun serves => by rw [reserved, texts]; exact h.reserved (serving ▸ serves)
    outbound := outbound h.outbound
    inbound := fun uplink => load.trans (h.inbound (serving ▸ uplink)) }

section

variable (s : State)

/-! ### Notices, marks and own frames -/

theorem State.keepsBounds_psq (p : Psq) : s.KeepsBounds { s with psq := p } := .shrink

theorem State.keepsBounds_now (due : Time) : s.KeepsBounds (s.timeTo due) := .shrink

theorem State.keepsBounds_wdu (w : Wdu) : s.KeepsBounds { s with wdu := w } := .shrink

theorem State.keepsBounds_mfn (m : Mfn) : s.KeepsBounds { s with mfn := m } := .shrink

theorem State.raise_keepsBounds (kind : NoticeKind) (detail : Bytes) : s.KeepsBounds (s.raise kind detail) :=
  .shrink

theorem Ccu.putMark_marks_length (c : Ccu) (now : Time) (kind : MarkKind) (arg : Nat) (h : c.marks.length ≤ 64) :
    (c.putMark now kind arg).marks.length ≤ 64 := by
  simp only [Ccu.putMark]
  split
  · simp
    omega
  · simp
    omega

theorem Ccu.putLosses_marks_length (c : Ccu) (now : Time) (h : c.marks.length ≤ 64) :
    (c.putLosses now).marks.length ≤ 64 := by
  have lost : ∀ d : Ccu, d.marks.length ≤ 64 → (d.putLost now).marks.length ≤ 64 := fun d hd => by
    unfold Ccu.putLost
    split
    · exact hd
    · exact d.putMark_marks_length now _ _ hd
  have garbled : ∀ d : Ccu, d.marks.length ≤ 64 → (d.putGarbled now).marks.length ≤ 64 := fun d hd => by
    unfold Ccu.putGarbled
    split
    · exact hd
    · exact d.putMark_marks_length now _ _ hd
  unfold Ccu.putLosses
  split
  · exact garbled _ (lost _ h)
  · exact lost _ (garbled _ h)

theorem Ccu.putLosses_buffer (c : Ccu) (now : Time) : (c.putLosses now).buffer = c.buffer := by
  unfold Ccu.putLosses Ccu.putLost Ccu.putGarbled Ccu.putMark
  (repeat' split) <;> rfl

theorem State.mark_keepsBounds (kind : MarkKind) (arg : Nat) : s.KeepsBounds (s.mark kind arg) := by
  have marks (h : s.ccu.marks.length ≤ 64) : (s.mark kind arg).ccu.marks.length ≤ 64 := by
    simp only [State.mark, Ccu.addMark]
    split
    · exact Ccu.putMark_marks_length _ _ _ _ (Ccu.putLosses_marks_length _ _ h)
    · exact h
  have buffer : (s.mark kind arg).ccu.buffer = s.ccu.buffer := by
    simp only [State.mark, Ccu.addMark]
    split
    · exact Ccu.putLosses_buffer _ _
    · rfl
  exact .shrink (marks := marks) (buffer := by simp [buffer])

/-- The own-frame list has four places (R28). -/
theorem State.keepsBounds_ownWith (entries : List OwnFrame) (kept : Nat) :
    s.KeepsBounds { s with adm := { s.adm with own := s.adm.ownWith entries, kept := kept } } :=
  .shrink (own := fun _ => by simp [Adm.ownWith])

theorem State.addOwn_keepsBounds (kind : OwnKind) : s.KeepsBounds (s.addOwn kind) :=
  s.keepsBounds_ownWith [{ kind := kind }] s.adm.kept

/-! ### Frames withdrawn (R168) -/

theorem State.freeGiveBuf_sendList (seq : Nat) : (s.freeGiveBuf seq).lif.sendList = s.lif.sendList := by
  unfold State.freeGiveBuf
  (repeat' split) <;> rfl

theorem State.lifWithdraw_sendList (seq : Nat) : (s.lifWithdraw seq).lif.sendList.Sublist s.lif.sendList := by
  unfold State.lifWithdraw
  split
  · split
    · exact .refl _
    · rw [State.freeGiveBuf_sendList]
      exact List.filter_sublist
  · exact .refl _

theorem State.upbListed_le {s t : State} (fewer : t.lif.sendList.Sublist s.lif.sendList) : t.upbListed ≤ s.upbListed :=
  (fewer.filter _).length_le

theorem State.lifWithdraw_keepsBounds (seq : Nat) : s.KeepsBounds (s.lifWithdraw seq) := by
  have fewer := s.lifWithdraw_sendList seq
  obtain ⟨_, _, _, frame⟩ := s.lifWithdraw_onlyWithdraws seq
  exact .shrink (sends := fewer.length_le) (listed := State.upbListed_le fewer)
    (queue := by rw [frame]) (held := by
      rw [frame]
      exact id)

theorem State.withdrawStanding_keepsBounds (st : Standing) : s.KeepsBounds (s.withdrawStanding st) := by
  cases st
  · exact .refl s
  · exact s.lifWithdraw_keepsBounds _
  · exact s.lifWithdraw_keepsBounds _

theorem State.KeepsBounds.foldl {α : Type} {f : State → α → State} (each : ∀ (t : State) (a : α), t.KeepsBounds (f t a))
    (l : List α) (t : State) : t.KeepsBounds (l.foldl f t) := by
  induction l generalizing t with
  | nil => exact .refl t
  | cons a l ih => exact (each t a).trans (ih _)

theorem State.withdrawWant_keepsBounds (w : Want) : s.KeepsBounds (s.withdrawWant w) := by
  unfold State.withdrawWant
  split
  · exact s.withdrawStanding_keepsBounds _
  · exact .refl s

theorem State.withdrawWants_keepsBounds (ws : List Want) : s.KeepsBounds (s.withdrawWants ws) :=
  .foldl State.withdrawWant_keepsBounds ws s

/-! ### The end of an attachment (R134, R135) -/

/-- Changes of the pool within its bounds, and of the want list within its places. -/
theorem State.keepsBounds_pool {q : Lpm} {ws : List Want} (pool : PoolWithinBounds s.lpm → PoolWithinBounds q)
    (wants : s.xch.wants.length ≤ 8 → ws.length ≤ 8) :
    s.KeepsBounds { s with lpm := q, xch := { s.xch with wants := ws } } :=
  .shrink (pool := pool) (wants := wants)

theorem State.keepsBounds_lpm {q : Lpm} (pool : PoolWithinBounds s.lpm → PoolWithinBounds q) :
    s.KeepsBounds { s with lpm := q } := .shrink (pool := pool)

theorem Xch.voidImage_length (x : Xch) (image gen : Nat) (cause : VoidCause) (h : x.wants.length ≤ 8) :
    (x.voidImage image gen cause).wants.length ≤ 8 := (List.length_filterMap_le _ _).trans h

theorem State.dropWants_keepsBounds (image gen : Nat) : s.KeepsBounds (s.dropWants image gen) := by
  refine (s.withdrawWants_keepsBounds _).trans (State.keepsBounds_pool _ (fun h => ?_) fun h => ?_)
  · exact h.foldl (fun hq => hq.freeFilling) _
  · exact Xch.voidImage_length _ _ _ _ (by simpa using h)

theorem State.withdrawMedia_keepsBounds (p : MediaReq → Bool) : s.KeepsBounds (s.withdrawMedia p) :=
  .shrink (pool := fun h => h.foldl (fun hq => hq.unpin) _)

theorem State.teardown_keepsBounds : s.KeepsBounds s.teardown := by
  have disconnected := s.keepsBounds_mfn { s.mfn.disconnect with state := .detaching, drain := none }
  exact ((disconnected.trans (State.dropWants_keepsBounds _ _ _)).trans (State.withdrawMedia_keepsBounds _ _)).trans
    (State.keepsBounds_lpm _ fun h => h.releaseOverlay)

theorem State.detachTrigger_keepsBounds (cause : DetachCause) : s.KeepsBounds (s.detachTrigger cause) := by
  unfold State.detachTrigger
  split
  · dsimp only
    split
    · exact (s.keepsBounds_mfn _).trans (State.teardown_keepsBounds _)
    · exact s.keepsBounds_mfn _
  · exact .refl s

end

end Sys2Proof.Machine

/-! ## Power events touch a power event's part of the state alone, and keep its bounds -/

namespace Sys2Proof.Machine

/-- `t` is `s` after a power event: no other part is touched, and the bounds are kept. -/
structure State.PowerMoves (s t : State) : Prop where
  only   : s.OnlyPower t
  bounds : s.KeepsBounds t

theorem State.PowerMoves.refl (s : State) : s.PowerMoves s := ⟨.refl s, .refl s⟩

theorem State.PowerMoves.trans {s t u : State} (first : s.PowerMoves t) (second : t.PowerMoves u) : s.PowerMoves u :=
  ⟨first.only.trans second.only, first.bounds.trans second.bounds⟩

section

variable (s : State)

theorem State.powerMoves_psq (p : Psq) : s.PowerMoves { s with psq := p } := ⟨s.onlyPower_psq p, s.keepsBounds_psq p⟩

theorem State.powerMoves_now (due : Time) : s.PowerMoves (s.timeTo due) := ⟨s.onlyPower_now due, s.keepsBounds_now due⟩

theorem State.powerMoves_wdu (w : Wdu) : s.PowerMoves { s with wdu := w } := ⟨s.onlyPower_wdu w, s.keepsBounds_wdu w⟩

theorem State.raise_powerMoves (k : NoticeKind) (d : Bytes) : s.PowerMoves (s.raise k d) :=
  ⟨s.raise_onlyPower k d, s.raise_keepsBounds k d⟩

theorem State.mark_powerMoves (k : MarkKind) (arg : Nat) : s.PowerMoves (s.mark k arg) :=
  ⟨s.mark_onlyPower k arg, s.mark_keepsBounds k arg⟩

theorem State.addOwn_powerMoves (k : OwnKind) : s.PowerMoves (s.addOwn k) := ⟨s.addOwn_onlyPower k, s.addOwn_keepsBounds k⟩

theorem State.withdrawStanding_powerMoves (st : Standing) : s.PowerMoves (s.withdrawStanding st) :=
  ⟨(s.withdrawStanding_onlyWithdraws st).onlyPower, s.withdrawStanding_keepsBounds st⟩

theorem State.bootOnceTrigger_powerMoves (c : DetachCause) : s.PowerMoves (s.bootOnceTrigger c) := by
  refine ⟨s.bootOnceTrigger_onlyPower c, ?_⟩
  unfold State.bootOnceTrigger
  split
  · exact s.detachTrigger_keepsBounds c
  · exact .refl s

theorem takeWithdraw_length {l rest : List OwnFrame} {w : OwnFrame} (taken : takeWithdraw l = some (w, rest)) :
    rest.length ≤ l.length := by
  induction l generalizing rest with
  | nil => cases taken
  | cons f l ih =>
    unfold takeWithdraw at taken
    split at taken
    · cases taken
      simp
    · obtain ⟨⟨v, later⟩, found, pair⟩ := Option.map_eq_some_iff.1 taken
      cases pair
      have := ih found
      simpa using this

theorem cancelPair_length {l rest : List OwnFrame} {c w : OwnFrame} (found : cancelPair l = some (c, w, rest)) :
    rest.length ≤ l.length := by
  induction l generalizing rest with
  | nil => cases found
  | cons f l ih =>
    unfold cancelPair at found
    split at found
    · obtain ⟨⟨v, later⟩, taken, pair⟩ := Option.map_eq_some_iff.1 found
      cases pair
      have := takeWithdraw_length taken
      simp
      omega
    · obtain ⟨⟨v, u, later⟩, taken, pair⟩ := Option.map_eq_some_iff.1 found
      cases pair
      have := ih taken
      simpa using this

theorem State.askClaim_powerMoves : s.PowerMoves s.askClaim := by
  unfold State.askClaim
  split
  · exact (s.powerMoves_psq _).trans (State.addOwn_powerMoves _ _)
  · exact .refl s

theorem State.retractSettled_powerMoves : s.PowerMoves s.retractSettled :=
  (s.powerMoves_psq _).trans (State.askClaim_powerMoves _)

theorem State.cancelClaim_powerMoves : s.PowerMoves s.cancelClaim := by
  unfold State.cancelClaim
  split
  · rename_i c w rest found
    have fewer := cancelPair_length found
    have cancelled : s.PowerMoves { s with adm := { s.adm with own := rest } } :=
      ⟨s.onlyPower_own rest, .shrink (own := fewer.trans)⟩
    exact ((cancelled.trans (State.withdrawStanding_powerMoves _ _)).trans (State.withdrawStanding_powerMoves _ _)).trans
      (State.retractSettled_powerMoves _)
  · exact .refl s

theorem State.askRetract_powerMoves (k : OwnKind) : s.PowerMoves (s.askRetract k) := by
  refine ⟨s.askRetract_onlyPower k, ?_⟩
  unfold State.askRetract
  split
  · exact .refl s
  · dsimp only
    split
    · exact ((s.keepsBounds_psq _).trans (State.addOwn_keepsBounds _ _)).trans (State.cancelClaim_powerMoves _).bounds
    · exact .shrink

theorem State.releaseSlot_powerMoves : s.PowerMoves s.releaseSlot := by
  unfold State.releaseSlot
  split
  · exact (s.powerMoves_psq _).trans (State.askRetract_powerMoves _ _)
  · exact .refl s

theorem State.withdrawClaim_powerMoves : s.PowerMoves s.withdrawClaim := by
  unfold State.withdrawClaim
  split
  · exact (s.powerMoves_psq _).trans (State.askRetract_powerMoves _ _)
  · exact .refl s

theorem State.tellMfn_powerMoves (old : Option SeqState) (st : SeqState) : s.PowerMoves (s.tellMfn old st) := by
  unfold State.tellMfn
  split
  · exact s.bootOnceTrigger_powerMoves _
  · exact .refl s

theorem State.tellWdu_powerMoves (old : Option SeqState) (st : SeqState) : s.PowerMoves (s.tellWdu old st) := by
  unfold State.tellWdu State.wduEntersOn State.wduLeavesOn State.bootDeadline
  split
  · exact s.powerMoves_wdu _
  · split
    · exact s.powerMoves_wdu _
    · exact .refl s

theorem State.psqEnter_powerMoves (st : SeqState) (var : Variant) (start : Bool) :
    s.PowerMoves (s.psqEnter st var start) := by
  have entered := (s.powerMoves_psq (s.psq.leave.restOnEntry st)).trans (State.powerMoves_psq _
    { ({ s with psq := s.psq.leave.restOnEntry st } : State).entryTimer st with state := some st, variant := var })
  have released : ∀ (u : State) (b : Bool), u.PowerMoves (if b = true then u.releaseSlot else u) := by
    intro u b
    split
    · exact u.releaseSlot_powerMoves
    · exact .refl u
  have told := entered.trans (released _ (st.isOff && (s.psq.state.any SeqState.isRunning || s.psq.state = some .starting)))
  unfold State.psqEnter
  refine ((((?_ : s.PowerMoves _).trans (State.askClaim_powerMoves _)).trans (State.tellMfn_powerMoves _ _ _)).trans
    (State.tellWdu_powerMoves _ _ _)).trans (State.raise_powerMoves _ _ _)
  split
  · split
    · exact told.trans (State.powerMoves_psq _ _)
    · exact told.trans (State.withdrawClaim_powerMoves _)
  · exact told

theorem State.wduResetPulse_powerMoves : s.PowerMoves s.wduResetPulse := by
  unfold State.wduResetPulse State.bootDeadline
  exact State.powerMoves_wdu _ _

theorem State.unlessMismatch_powerMoves {t : State} (h : s.PowerMoves t) : s.PowerMoves (s.unlessMismatch t).2 := by
  unfold State.unlessMismatch
  split
  · exact .refl _
  · exact h

theorem State.cancelPending_powerMoves : s.PowerMoves s.cancelPending.2 := by
  unfold State.cancelPending
  split
  · exact State.powerMoves_psq _ _
  · exact .refl _

theorem State.offAwaiting_powerMoves : s.PowerMoves s.offAwaiting := by
  have pending : s.PowerMoves (s.setPending .none) := State.powerMoves_psq _ _
  unfold State.offAwaiting
  dsimp only
  split
  · exact (pending.trans (State.powerMoves_psq _ _)).trans (State.psqEnter_powerMoves _ _ _ _)
  · exact pending.trans (State.psqEnter_powerMoves _ _ _ _)

theorem State.actOn_powerMoves : s.PowerMoves s.actOn.2 := by
  unfold State.actOn
  split
  · exact s.unlessMismatch_powerMoves (State.psqEnter_powerMoves _ _ _ _)
  · exact s.unlessMismatch_powerMoves (State.powerMoves_psq _ _)
  case h_3 | h_4 =>
    split
    · exact s.unlessMismatch_powerMoves (State.powerMoves_psq _ _)
    · exact .refl _
  all_goals exact .refl _

theorem State.beginStopping_powerMoves (var : Variant) : s.PowerMoves (s.beginStopping var) :=
  (State.powerMoves_psq _ _).trans (State.psqEnter_powerMoves _ _ _ _)

theorem State.beginForcing_powerMoves : s.PowerMoves s.beginForcing :=
  (State.powerMoves_psq _ _).trans (State.psqEnter_powerMoves _ _ _ _)

theorem State.actOffSoft_powerMoves (thenHard : Bool) : s.PowerMoves (s.actOffSoft thenHard).2 := by
  unfold State.actOffSoft
  split
  case h_1 =>
    split
    · exact State.powerMoves_psq _ _
    · exact s.beginStopping_powerMoves _
  case h_2 => exact s.offAwaiting_powerMoves
  case h_3 =>
    split
    · exact State.powerMoves_psq _ _
    · exact .refl _
  case h_4 | h_5 | h_6 => exact s.cancelPending_powerMoves
  all_goals exact .refl _

theorem State.actOffHard_powerMoves : s.PowerMoves s.actOffHard.2 := by
  unfold State.actOffHard
  split
  case h_1 | h_2 => exact s.beginForcing_powerMoves
  case h_3 =>
    exact (s.releaseSlot_powerMoves.trans (State.powerMoves_psq _ _)).trans (State.beginForcing_powerMoves _)
  case h_4 => exact s.offAwaiting_powerMoves
  case h_5 | h_6 | h_7 => exact s.cancelPending_powerMoves
  all_goals exact .refl _

theorem State.actReset_powerMoves (source : Nat) : s.PowerMoves (s.actReset source).2 := by
  unfold State.actReset
  split
  · exact (((State.powerMoves_psq s _).trans (State.mark_powerMoves _ _ _)).trans (State.powerMoves_psq _ _)).trans
      (State.wduResetPulse_powerMoves _)
  · exact .refl _

theorem State.actCycle_powerMoves : s.PowerMoves s.actCycle.2 := by
  unfold State.actCycle
  split
  case h_1 | h_2 =>
    exact s.unlessMismatch_powerMoves ((State.powerMoves_psq _ _).trans (State.beginForcing_powerMoves _))
  case h_3 | h_4 => exact s.actOn_powerMoves
  all_goals exact .refl _

theorem State.actFeedCut_powerMoves : s.PowerMoves s.actFeedCut.2 := by
  have marked : s.PowerMoves (((s.setFeed false).releasePress).mark .feedCut 0) :=
    ((State.powerMoves_psq s _).trans (State.powerMoves_psq _ _)).trans (State.mark_powerMoves _ _ _)
  have rested : ∀ t : State, t.PowerMoves t.cutRest := fun t => by
    unfold State.cutRest State.startRest
    (repeat' split) <;> exact State.powerMoves_psq _ _
  unfold State.actFeedCut
  split
  case h_3 => exact ((marked.trans (rested _)).trans (State.powerMoves_psq _ _)).trans (State.psqEnter_powerMoves _ _ _ _)
  all_goals exact .refl _

theorem State.actFeedRestore_powerMoves : s.PowerMoves s.actFeedRestore.2 := by
  unfold State.actFeedRestore
  split
  case h_2 =>
    split
    · exact s.unlessMismatch_powerMoves (State.psqEnter_powerMoves _ _ _ _)
    · exact s.unlessMismatch_powerMoves (State.powerMoves_psq _ _)
  all_goals exact .refl _

theorem State.startedOn_powerMoves : s.PowerMoves s.startedOn := by
  have young : s.PowerMoves (((s.setPending .none).mark .powerOn 0).psqEnter .on .none).startYoung :=
    (((State.powerMoves_psq s _).trans (State.mark_powerMoves _ _ _)).trans (State.psqEnter_powerMoves _ _ _ _)).trans
      (State.powerMoves_psq _ _)
  unfold State.startedOn
  dsimp only
  split
  · split
    · exact young.trans (State.releaseSlot_powerMoves _)
    · exact young.trans (State.powerMoves_psq _ _)
  · exact young

theorem State.granted_powerMoves : s.PowerMoves s.granted := by
  unfold State.granted
  split
  · dsimp only
    split
    · have starting := (((State.powerMoves_psq s { s.psq with slotHeld := true }).trans
        (State.powerMoves_psq _ { s.psq with slotHeld := true, feedClosed := true })).trans
        (State.mark_powerMoves _ .feedRestored 0)).trans (State.psqEnter_powerMoves _ .starting .feedRestore true)
      split
      · exact starting.trans (State.startedOn_powerMoves _)
      · exact starting
    · exact ((State.powerMoves_psq _ _).trans (State.powerMoves_psq _ _)).trans (State.psqEnter_powerMoves _ _ _ _)
  · exact s.askRetract_powerMoves _

theorem State.wduTakes_powerMoves (source action : Nat) {answer : OrderStatus × State} (h : s.PowerMoves answer.2) :
    s.PowerMoves (wduTakes source action answer).2 := by
  obtain ⟨status, t⟩ := answer
  cases status
  case done | accepted => exact h
  all_goals exact h.trans (State.raise_powerMoves _ _ _)

theorem State.guardAsks_powerMoves : s.PowerMoves s.guardAsks := by
  unfold State.guardAsks
  split
  · exact s.wduTakes_powerMoves _ _ s.actOn_powerMoves
  · exact .refl _

theorem State.toResting_powerMoves : s.PowerMoves s.toResting :=
  (State.powerMoves_psq _ _).trans (State.psqEnter_powerMoves _ _ _ _)

theorem State.wentOff_powerMoves (arg : Nat) : s.PowerMoves (s.wentOff arg) :=
  ((State.powerMoves_psq _ _).trans (State.mark_powerMoves _ _ _)).trans (State.toResting_powerMoves _)

theorem State.fellAwaited_powerMoves (arg : Nat) : s.PowerMoves (s.fellAwaited arg) := by
  unfold State.fellAwaited
  split
  · exact (State.mark_powerMoves _ _ _).trans (State.powerMoves_psq _ _)
  · exact .refl _

theorem State.pgoodFalls_powerMoves : s.PowerMoves s.pgoodFalls := by
  unfold State.pgoodFalls
  split
  case h_1 | h_2 => exact s.wentOff_powerMoves _
  case h_3 =>
    exact (((State.mark_powerMoves _ _ _).trans (State.raise_powerMoves _ _ _)).trans (State.toResting_powerMoves _)).trans
      (State.guardAsks_powerMoves _)
  case h_4 => exact s.fellAwaited_powerMoves _
  case h_5 =>
    split
    · exact (s.fellAwaited_powerMoves _).trans (State.powerMoves_psq _ _)
    · exact .refl _
  all_goals exact .refl _

theorem State.unadmittedStart_powerMoves : s.PowerMoves s.unadmittedStart :=
  ((((State.powerMoves_psq _ _).trans (State.psqEnter_powerMoves _ _ _ _)).trans (State.powerMoves_psq _ _)).trans
    (State.mark_powerMoves _ _ _)).trans (State.raise_powerMoves _ _ _)

theorem State.feedFault_powerMoves : s.PowerMoves s.feedFault := by
  unfold State.feedFault
  dsimp only
  split
  · exact (State.powerMoves_psq _ _).trans (State.raise_powerMoves _ _ _)
  · exact State.raise_powerMoves _ _ _

theorem State.pgoodRises_powerMoves : s.PowerMoves s.pgoodRises := by
  unfold State.pgoodRises
  split
  case h_1 => exact s.startedOn_powerMoves
  case h_2 | h_3 => exact s.unadmittedStart_powerMoves
  case h_4 =>
    split
    · exact s.feedFault_powerMoves
    · exact s.unadmittedStart_powerMoves
  case h_5 | h_6 => exact s.feedFault_powerMoves
  all_goals exact .refl _

theorem State.startFailed_powerMoves : s.PowerMoves s.startFailed := by
  have stopped : s.PowerMoves { s with psq := { s.psq with startT := none } } := State.powerMoves_psq _ _
  unfold State.startFailed
  dsimp only
  split
  · split
    · split
      · exact ((stopped.trans (State.psqEnter_powerMoves _ _ _ _)).trans (State.powerMoves_psq _ _)).trans
          (State.psqEnter_powerMoves _ _ _ _)
      · exact stopped.trans (State.psqEnter_powerMoves _ _ _ _)
    · exact (stopped.trans (State.toResting_powerMoves _)).trans (State.raise_powerMoves _ _ _)
  · exact stopped

theorem State.settled_powerMoves : s.PowerMoves s.settled :=
  (State.powerMoves_psq _ _).trans (State.releaseSlot_powerMoves _)

theorem State.youngOver_powerMoves : s.PowerMoves s.youngOver := by
  have stopped : s.PowerMoves { s with psq := { s.psq with young := false, youngT := none } } := State.powerMoves_psq _ _
  unfold State.youngOver
  dsimp only
  split
  · split
    · exact stopped
    · exact stopped.trans (State.beginStopping_powerMoves _ _)
    · exact stopped.trans (State.beginStopping_powerMoves _ _)
  · exact stopped

theorem State.graceOver_powerMoves : s.PowerMoves s.graceOver := by
  have stopped : s.PowerMoves { s with psq := { s.psq with graceT := none } } := State.powerMoves_psq _ _
  unfold State.graceOver
  dsimp only
  split
  · split
    · exact stopped.trans (State.beginForcing_powerMoves _)
    · exact (stopped.trans (State.psqEnter_powerMoves _ _ _ _)).trans (State.raise_powerMoves _ _ _)
  · exact stopped

theorem State.forceOver_powerMoves : s.PowerMoves s.forceOver := by
  have stopped : s.PowerMoves s.stopForce := State.powerMoves_psq _ _
  unfold State.forceOver
  dsimp only
  split
  · split
    · exact ((((stopped.trans (State.powerMoves_psq _ _)).trans (State.powerMoves_psq _ _)).trans
        (State.mark_powerMoves _ _ _)).trans (State.powerMoves_psq _ _)).trans (State.psqEnter_powerMoves _ _ _ _)
    · exact stopped.trans (State.toResting_powerMoves _)
  · split
    · exact stopped.trans (State.raise_powerMoves _ _ _)
    · exact stopped
  · exact stopped

theorem State.restOver_powerMoves : s.PowerMoves s.restOver := by
  have stopped : s.PowerMoves { s with psq := { s.psq with restPhase := .satisfied, restT := none } } :=
    State.powerMoves_psq _ _
  unfold State.restOver
  dsimp only
  split
  · split
    · exact (stopped.trans (State.powerMoves_psq _ _)).trans (State.psqEnter_powerMoves _ _ _ _)
    · exact stopped.trans (State.psqEnter_powerMoves _ _ _ _)
  · exact stopped.trans (State.psqEnter_powerMoves _ _ _ _)
  · split
    · exact (stopped.trans (State.powerMoves_psq _ _)).trans (State.psqEnter_powerMoves _ _ _ _)
    · exact stopped
  · exact stopped

/-! ### The watchdog, the panic and the matches -/

theorem State.faultRequest_powerMoves (source : Nat) (response : FaultAction) :
    s.PowerMoves (s.faultRequest source response).2 := by
  cases response
  · exact .refl _
  · exact s.wduTakes_powerMoves _ _ (s.actReset_powerMoves _)
  · exact s.wduTakes_powerMoves _ _ s.actCycle_powerMoves

theorem State.watchdogExpiry_powerMoves (cause : Nat) : s.PowerMoves (s.watchdogExpiry cause) := by
  unfold State.watchdogExpiry
  dsimp only
  have noted := fun (w : Wdu) (mark : Nat) (detail : Bytes) =>
    ((State.powerMoves_wdu s w).trans (State.mark_powerMoves _ .watchdog mark)).trans
      (State.raise_powerMoves _ .watchdogExpired detail)
  split
  · exact (noted _ _ _).trans (State.faultRequest_powerMoves _ _ _)
  · exact ((noted _ _ _).trans (State.faultRequest_powerMoves _ _ _)).trans (State.powerMoves_wdu _ _)

theorem State.heartbeat_powerMoves (entry : Nat) : s.PowerMoves (s.heartbeat entry) := by
  unfold State.heartbeat
  dsimp only
  split
  · split
    · have raised := (State.powerMoves_wdu s { s.wdu with early := s.wdu.early + 1, lastBeat := some s.now }).trans
        (State.raise_powerMoves _ .earlyHeartbeats [byte (s.wdu.early + 1), byte entry])
      split
      · exact (raised.trans (State.watchdogExpiry_powerMoves _ _)).trans (State.powerMoves_wdu _ _)
      · exact raised
    · exact ((State.powerMoves_wdu _ _).trans (State.powerMoves_wdu _ _)).trans (State.powerMoves_wdu _ _)
  · exact .refl _

theorem State.panic_powerMoves (entry endOffset : Nat) : s.PowerMoves (s.panic entry endOffset) := by
  unfold State.panic
  dsimp only
  split
  · exact (((State.powerMoves_wdu _ _).trans (State.mark_powerMoves _ _ _)).trans (State.raise_powerMoves _ _ _)).trans
      (State.faultRequest_powerMoves _ _ _)
  · exact State.raise_powerMoves _ _ _

theorem State.deliverMatch_powerMoves (entry : Nat) (action : PatternAction) : s.PowerMoves (s.deliverMatch entry action) := by
  cases action
  · exact s.heartbeat_powerMoves _
  · exact (s.bootOnceTrigger_powerMoves _).trans (State.raise_powerMoves _ _ _)
  · exact s.panic_powerMoves _ _
  · exact State.raise_powerMoves _ _ _

theorem State.deliverMatches_powerMoves : s.PowerMoves s.deliverMatches := by
  have delivered : ∀ (l : List (Nat × Pattern)) (t : State),
      t.PowerMoves (l.foldl (fun t e => t.deliverMatch e.1 e.2.action) t) := by
    intro l
    induction l with
    | nil => exact fun t => .refl t
    | cons e l ih => exact fun t => (t.deliverMatch_powerMoves _ _).trans (ih _)
  exact delivered _ _

/-! ### The derivation (R26, R27) -/

theorem State.payFault_powerMoves : s.PowerMoves s.payFault := by
  unfold State.payFault
  split
  · exact (State.powerMoves_psq _ _).trans (State.raise_powerMoves _ _ _)
  · exact .refl _

theorem State.derivePsq_powerMoves (active : Bool) : s.PowerMoves (s.derivePsq active) := by
  have fresh : s.PowerMoves { s with psq := { feedClosed := s.psq.feedClosed, pgood := active } } := State.powerMoves_psq _ _
  unfold State.derivePsq
  dsimp only
  split
  · split
    · exact fresh.trans (State.psqEnter_powerMoves _ _ _ _)
    · exact (fresh.trans (State.powerMoves_psq _ _)).trans (State.psqEnter_powerMoves _ _ _ _)
  · split
    · have cut := (fresh.trans (State.powerMoves_psq _
        { feedClosed := s.psq.feedClosed, pgood := active, restPhase := .awaitingFall, faultOwed := true })).trans
        (State.psqEnter_powerMoves _ .feedCut .none false)
      split
      · exact cut.trans (State.payFault_powerMoves _)
      · exact cut
    · exact (fresh.trans (State.powerMoves_psq _ _)).trans (State.psqEnter_powerMoves _ _ _ _)

end

end Sys2Proof.Machine


/-! ## The admission lists over a step (R28 to R48) -/

namespace Sys2Proof.Machine

/-! ### The lists themselves -/

/-- The roster within a number of slots, and no station number twice in it, in the waiting list or in both (R28). -/
structure Adm.Ordered (a : Adm) (slots : Nat) : Prop where
  rosterDistinct  : (a.roster.map Prod.fst).Nodup
  waitingDistinct : a.waiting.Nodup
  disjoint        : ∀ x ∈ a.waiting, x ∉ a.roster.map Prod.fst
  bounded         : a.roster.length ≤ slots

theorem admissionOrdered_iff (s : State) : AdmissionOrdered s ↔
    s.adm.Ordered (s.setting Settings.slotCount) ∧ (s.sld.settings.isSome → s.sld.phase = .handedOver) :=
  ⟨fun ⟨r, w, d, b, h⟩ => ⟨⟨r, w, d, b⟩, h⟩, fun ⟨⟨r, w, d, b⟩, h⟩ => ⟨r, w, d, b, h⟩⟩

theorem Adm.inRoster_iff (a : Adm) (x : Nat) : a.inRoster x = true ↔ x ∈ a.roster.map Prod.fst := by
  simp [Adm.inRoster]

theorem Adm.isWaiting_iff (a : Adm) (x : Nat) : a.isWaiting x = true ↔ x ∈ a.waiting := by
  simp [Adm.isWaiting]

section

variable {a : Adm} {slots x : Nat} (h : a.Ordered slots)
include h

theorem Adm.Ordered.congr {b : Adm} (roster : b.roster = a.roster) (waiting : b.waiting = a.waiting) : b.Ordered slots := by
  obtain ⟨r, w, d, l⟩ := h
  exact ⟨by rwa [roster], by rwa [waiting], by rwa [roster, waiting], by rwa [roster]⟩

/-- Fewer entries of each list in their order. -/
theorem Adm.Ordered.sublist {b : Adm} (roster : b.roster.Sublist a.roster) (waiting : b.waiting.Sublist a.waiting) :
    b.Ordered slots where
  rosterDistinct := h.rosterDistinct.sublist (roster.map _)
  waitingDistinct := h.waitingDistinct.sublist waiting
  disjoint y hy hr := h.disjoint y (waiting.subset hy) ((roster.map _).subset hr)
  bounded := roster.length_le.trans h.bounded

theorem Adm.Ordered.dropRoster (x : Nat) : (a.dropRoster x).Ordered slots := h.sublist List.filter_sublist (.refl _)

theorem Adm.Ordered.dropWaiting (x : Nat) : (a.dropWaiting x).Ordered slots := h.sublist (.refl _) List.filter_sublist

theorem Adm.Ordered.joinRoster (now : Time) (notIn : a.inRoster x = false) (notWaiting : a.isWaiting x = false)
    (room : a.roster.length < slots) : (a.joinRoster x now).Ordered slots := by
  have outside : x ∉ a.roster.map Prod.fst := by simp [← Adm.inRoster_iff, notIn]
  have unwaited : x ∉ a.waiting := by simp [← Adm.isWaiting_iff, notWaiting]
  refine ⟨?_, h.waitingDistinct, fun y hy => ?_, ?_⟩
  · simp only [Adm.joinRoster, List.map_append, List.map_cons, List.map_nil]
    exact h.rosterDistinct.append (List.nodup_singleton x) (by simpa using outside)
  · have other : y ≠ x := fun e => unwaited (e ▸ hy)
    simpa [Adm.joinRoster, other] using h.disjoint y hy
  · simpa [Adm.joinRoster] using room

theorem Adm.Ordered.joinWaiting (notIn : a.inRoster x = false) (notWaiting : a.isWaiting x = false) :
    (a.joinWaiting x).Ordered slots := by
  have outside : x ∉ a.roster.map Prod.fst := by simp [← Adm.inRoster_iff, notIn]
  have unwaited : x ∉ a.waiting := by simp [← Adm.isWaiting_iff, notWaiting]
  refine ⟨h.rosterDistinct, ?_, fun y hy => ?_, h.bounded⟩
  · exact h.waitingDistinct.append (List.nodup_singleton x) (by simpa using unwaited)
  · rcases List.mem_append.1 hy with hy | hy
    · exact h.disjoint y hy
    · exact List.mem_singleton.1 hy ▸ outside

/-- Promotion moves the heads of the waiting list, as far as there are slots. -/
theorem Adm.Ordered.promote (now : Time) : (a.promote slots now).Ordered slots := by
  have numbers : ((a.waiting.take (slots - a.roster.length)).map (fun y => (y, now))).map Prod.fst =
      a.waiting.take (slots - a.roster.length) := by simp [Function.comp_def]
  have split := List.take_append_drop (slots - a.roster.length) a.waiting
  have distinct := h.waitingDistinct
  rw [← split, List.nodup_append] at distinct
  refine ⟨?_, ?_, fun y hy => ?_, ?_⟩
  · simp only [Adm.promote, List.map_append, numbers]
    refine h.rosterDistinct.append distinct.1 fun y hr hw => h.disjoint y (List.mem_of_mem_take hw) hr
  · exact distinct.2.1
  · simp only [Adm.promote, List.map_append, numbers, List.mem_append, not_or]
    exact ⟨h.disjoint y (List.mem_of_mem_drop hy), fun ht => distinct.2.2 y ht y hy rfl⟩
  · have := h.bounded
    simp [Adm.promote]
    omega

theorem Adm.Ordered.claim (x : Nat) (now : Time) : (a.claim x slots now).Ordered slots := by
  unfold Adm.claim
  split
  · exact h
  · rename_i absent
    simp only [Bool.or_eq_true, not_or, Bool.not_eq_true] at absent
    split
    · exact h.joinRoster now absent.1 absent.2 (by assumption)
    · exact h.joinWaiting absent.1 absent.2

theorem Adm.Ordered.withdraw (x : Nat) : (a.withdraw x).Ordered slots := by
  unfold Adm.withdraw
  split
  · exact h.dropWaiting x
  · exact h.dropRoster x

theorem Adm.Ordered.release (x : Nat) : (a.release x).Ordered slots := by
  unfold Adm.release
  split
  · exact h.dropRoster x
  · exact h.dropWaiting x

end

theorem Adm.dropRoster_inRoster (a : Adm) (x : Nat) : (a.dropRoster x).inRoster x = false := by
  simp [Adm.dropRoster, Adm.inRoster]

/-- A station in the roster is not in the waiting list. -/
theorem Adm.Ordered.not_waiting {a : Adm} {slots x : Nat} (h : a.Ordered slots) (inRoster : a.inRoster x = true) :
    a.isWaiting x = false := by
  by_contra waits
  exact h.disjoint x ((a.isWaiting_iff x).1 (by simpa using waits)) ((a.inRoster_iff x).1 inRoster)

/-- The copied roster and waiting list (R46). -/
theorem copied_ordered (a : Adm) (slots : Nat) (now : Time) (roster waiting : List Nat) :
    (waiting.foldl copyWaiting
      (roster.foldl (copyRoster slots now) { a with roster := [], waiting := [], copied := true })).Ordered slots := by
  have first : ∀ (l : List Nat) (b : Adm), b.Ordered slots → b.waiting = [] →
      (l.foldl (copyRoster slots now) b).Ordered slots := by
    intro l
    induction l with
    | nil => exact fun _ hb _ => hb
    | cons x l ih =>
      intro b hb none
      refine ih _ ?_ ?_ <;> unfold copyRoster <;> split
      · rename_i takes
        simp only [Bool.and_eq_true, Bool.not_eq_true', decide_eq_true_eq] at takes
        exact hb.joinRoster now takes.1.2 (by simp [Adm.isWaiting, none]) takes.2
      · exact hb
      · exact none
      · exact none
  have second : ∀ (l : List Nat) (b : Adm), b.Ordered slots → (l.foldl copyWaiting b).Ordered slots := by
    intro l
    induction l with
    | nil => exact fun _ hb => hb
    | cons x l ih =>
      intro b hb
      refine ih _ ?_
      unfold copyWaiting
      split
      · rename_i takes
        simp only [Bool.and_eq_true, Bool.not_eq_true', decide_eq_true_eq] at takes
        exact hb.joinWaiting takes.1.2 takes.2
      · exact hb
  exact second _ _ (first _ _ ⟨by simp, by simp, by simp, by simp⟩ rfl)

/-! ### What keeps the lists, and what moves them -/

/-- The lists and the record are as they were. -/
def State.SameLists (s t : State) : Prop :=
  t.adm.roster = s.adm.roster ∧ t.adm.waiting = s.adm.waiting ∧ t.sld = s.sld

theorem State.SameLists.ordered {s t : State} (same : s.SameLists t) (h : AdmissionOrdered s) : AdmissionOrdered t := by
  obtain ⟨roster, waiting, sld⟩ := same
  have slots : t.setting Settings.slotCount = s.setting Settings.slotCount := by simp only [State.setting, sld]
  rw [admissionOrdered_iff] at h ⊢
  exact ⟨slots ▸ h.1.congr roster waiting, sld ▸ h.2⟩

theorem State.OnlyPower.sameLists {s t : State} (h : s.OnlyPower t) : s.SameLists t := by
  obtain ⟨_, _, _, _, _, _, _, _, _, _, _, _, _, _, _, rfl⟩ := h
  exact ⟨rfl, rfl, rfl⟩

theorem State.OnlyPower.admissionOrdered {s t : State} (only : s.OnlyPower t) (h : AdmissionOrdered s) : AdmissionOrdered t :=
  only.sameLists.ordered h

theorem State.PowerMoves.admissionOrdered {s t : State} (moves : s.PowerMoves t) (h : AdmissionOrdered s) :
    AdmissionOrdered t := moves.only.admissionOrdered h

/-- A block-wise reading: the same lists stand where ADM and SLD are the same. -/
theorem AdmissionOrdered.congr {s t : State} (h : AdmissionOrdered s) (adm : t.adm = s.adm) (sld : t.sld = s.sld) :
    AdmissionOrdered t := State.SameLists.ordered ⟨by rw [adm], by rw [adm], sld⟩ h

theorem State.SameLists.trans {s t u : State} (first : s.SameLists t) (second : t.SameLists u) : s.SameLists u := by
  obtain ⟨roster, waiting, sld⟩ := first
  obtain ⟨roster', waiting', sld'⟩ := second
  exact ⟨roster'.trans roster, waiting'.trans waiting, sld'.trans sld⟩

theorem State.reportAdm_sameLists (s : State) (seq : Nat) (r : Report) : s.SameLists (s.reportAdm seq r) := by
  have back : s.SameLists (s.ownBack seq) := .trans ⟨rfl, rfl, rfl⟩ (State.cancelClaim_onlyPower _).sameLists
  have done : s.SameLists (s.ownDone seq) := by
    unfold State.ownDone
    split
    · dsimp only
      split
      · exact ⟨rfl, rfl, rfl⟩
      · exact .trans ⟨rfl, rfl, rfl⟩ (State.retractSettled_powerMoves _).only.sameLists
    · exact ⟨rfl, rfl, rfl⟩
  have givenUp : s.SameLists (s.ownGivenUp seq) := by
    refine .trans ?_ (State.cancelClaim_onlyPower _).sameLists
    simp [State.SameLists]
  cases r
  case begun => exact ⟨rfl, rfl, rfl⟩
  case lostBid | retry => exact back
  case taken | notTaken => exact done
  case givenUp => exact givenUp

/-- Reports reach ADM's own frames, not its lists (R42 to R45). -/
theorem State.report_sameLists (s : State) (e : SendEntry) (f : LaneFrame) (r : Report) :
    s.SameLists (s.report e f r) := by
  unfold State.report
  cases e.owner
  case adm => exact State.reportAdm_sameLists s e.seq r
  all_goals simp [State.SameLists]

section

variable {s : State} (h : AdmissionOrdered s)
include h

theorem AdmissionOrdered.lists : s.adm.Ordered (s.setting Settings.slotCount) := ((admissionOrdered_iff s).1 h).1

theorem State.admChange_ordered {change : Adm → Adm} (changed : (change s.adm).Ordered (s.setting Settings.slotCount)) :
    AdmissionOrdered (s.admChange change) := by
  have promoted : AdmissionOrdered
      { s with adm := (change s.adm).promote (s.setting Settings.slotCount) s.now } :=
    (admissionOrdered_iff _).2 ⟨changed.promote s.now, h.handed⟩
  unfold State.admChange
  dsimp only
  split
  · exact (State.granted_powerMoves _).admissionOrdered promoted
  · exact promoted

theorem State.admRemove_ordered (x : Nat) : AdmissionOrdered (s.admRemove x) :=
  State.admChange_ordered h ((h.lists.dropRoster x).dropWaiting x)

theorem State.admitFrame_ordered (f : LaneFrame) (kind : FrameKind) : AdmissionOrdered (s.admitFrame f kind) := by
  unfold State.admitFrame
  dsimp only
  split
  · split
    · exact State.admChange_ordered h (h.lists.claim _ _)
    · exact State.admChange_ordered h (h.lists.withdraw _)
    · exact State.admChange_ordered h (h.lists.release _)
    · exact h
  · exact h

theorem State.repair_ordered (x : Nat) (b : Beacon) : AdmissionOrdered (s.repair x b) := by
  have raised : AdmissionOrdered (s.raise .rosterConflict [byte x]) :=
    (State.raise_onlyPower _ _ _).admissionOrdered h
  unfold State.repair
  dsimp only
  split
  · split
    · exact h
    · split
      · exact raised
      · split
        · exact h
        · split
          · exact State.admChange_ordered h (h.lists.joinRoster _ (by simp_all) (by simp_all) (by assumption))
          · exact raised
  · split
    · split
      · rename_i inRoster
        exact State.admChange_ordered h ((h.lists.dropRoster x).joinWaiting (Adm.dropRoster_inRoster _ _)
          (h.lists.not_waiting inRoster))
      · split
        · exact h
        · exact State.admChange_ordered h (h.lists.joinWaiting (by simp_all) (by simp_all))
    · split
      · exact State.admChange_ordered h (h.lists.dropRoster x)
      · split
        · exact State.admChange_ordered h (h.lists.dropWaiting x)
        · exact h

theorem State.copyLists_ordered (b : Beacon) : AdmissionOrdered (s.copyLists b) := by
  have copied := copied_ordered s.adm (s.setting Settings.slotCount) s.now b.roster b.waiting
  have set := (admissionOrdered_iff { s with adm := _ }).2 ⟨copied, h.handed⟩
  exact State.admChange_ordered (change := id) set copied

theorem State.admBeacon_ordered (x : Nat) (b : Beacon) : AdmissionOrdered (s.admBeacon x b) := by
  unfold State.admBeacon
  split
  · split
    · exact State.repair_ordered h x b
    · split
      · exact State.copyLists_ordered h b
      · exact h
  · exact h

theorem State.beaconSeen_ordered (x : Nat) (b : Beacon) : AdmissionOrdered (s.beaconSeen x b) := by
  have taken : AdmissionOrdered ((s.beaconEntry x b).admBeacon x b) :=
    State.admBeacon_ordered (h.congr (by simp) (by simp)) x b
  unfold State.beaconSeen State.roleReported
  cases b.role
  · exact taken.congr (by simp) (by simp)
  · exact State.admRemove_ordered taken x

theorem State.presentBlocks_ordered (f : LaneFrame) : AdmissionOrdered (s.presentBlocks f) := by
  unfold State.presentBlocks
  split
  case h_1 | h_2 | h_3 => exact State.admitFrame_ordered h _ _
  case h_4 | h_5 | h_6 => exact h.congr (by simp) (by simp)
  case h_7 => exact h

theorem State.present_ordered (f : LaneFrame) : AdmissionOrdered (s.present f) := by
  have heard : AdmissionOrdered (s.heard f.sender.toNat) := h.congr (by simp) (by simp)
  unfold State.present
  dsimp only
  split
  · split
    · split
      · exact State.beaconSeen_ordered heard _ _
      · exact heard
    · exact heard
  · exact State.presentBlocks_ordered heard _

theorem State.declareAbsent_ordered (x : Nat) : AdmissionOrdered (s.declareAbsent x) :=
  (State.admRemove_ordered (s := { s with ptu := s.ptu.setPeer x {} }) (h.congr rfl rfl) x).congr (by simp [State.declareAbsent])
    (by simp [State.declareAbsent])

theorem State.enterMember_ordered : AdmissionOrdered s.enterMember := by
  have retracted : AdmissionOrdered ({ s.selfRetract with ptu := { s.selfRetract.ptu with state := .member } } : State) :=
    State.SameLists.ordered (s := s) ⟨rfl, rfl, rfl⟩ h
  exact (State.askClaim_onlyPower _).admissionOrdered retracted

theorem State.boundary_ordered : AdmissionOrdered s.boundary := by
  have absent : ∀ (xs : List Nat) (t : State), AdmissionOrdered t → AdmissionOrdered (xs.foldl State.declareAbsent t) := by
    intro xs
    induction xs with
    | nil => exact fun _ ht => ht
    | cons x xs ih => exact fun t ht => ih _ (State.declareAbsent_ordered ht x)
  unfold State.boundary
  split
  · rename_i due _
    have aged : AdmissionOrdered (({ s.timeTo due with ptu := { (s.timeTo due).ptu with
        boundary := some (after due s.period) } } : State).agePeers) := absent _ _ (h.congr rfl rfl)
    dsimp only
    refine AdmissionOrdered.congr (s := if _ then _ else _) ?_ (State.offerBeacon_keeps _).2.2.2.2.1 (by simp)
    split
    · exact State.enterMember_ordered aged
    · exact aged
  · exact h

theorem State.report_ordered (e : SendEntry) (f : LaneFrame) (r : Report) : AdmissionOrdered (s.report e f r) :=
  State.SameLists.ordered (State.report_sameLists s e f r) h

theorem State.goodByte_ordered (b : Byte) : AdmissionOrdered (s.goodByte b) := by
  unfold State.goodByte
  split
  · exact (State.deliverMatches_powerMoves _).admissionOrdered (h.congr (by simp) (by simp))
  · exact h.congr rfl rfl

theorem State.beginTenure_ordered (e : SendEntry) (f : LaneFrame) : AdmissionOrdered (s.beginTenure e f) := by
  refine State.report_ordered ?_ e f _
  exact h.congr rfl rfl

theorem State.endTenure_ordered (e : SendEntry) (f : LaneFrame) (how : TenureEnd) :
    AdmissionOrdered (s.endTenure e f how) := by
  have settled (r : Report) :
      AdmissionOrdered (({ s with lif := s.lif.endTenure how } : State).settleEntry e.seq r) := h.congr (by simp) (by simp)
  refine State.report_ordered ?_ e f _
  split
  · exact (State.presentBlocks_ordered (settled (s.tenureReport e (TenureEnd.outcome how))) f).congr (by simp) (by simp)
  · exact settled _

theorem State.enterSilent_ordered : AdmissionOrdered s.enterSilent := by
  have lists : s.enterSilent.adm = { copied := s.adm.copied } := by simp [State.enterSilent, State.admSilent]
  have record : s.enterSilent.sld = s.sld := by simp
  rw [admissionOrdered_iff, record, lists]
  exact ⟨⟨by simp, by simp, by simp, by simp⟩, h.handed⟩

theorem State.frameComplete_ordered (f : LaneFrame) (handovers : Nat) : AdmissionOrdered (s.frameComplete f handovers) := by
  unfold State.frameComplete
  split
  · split
    · exact State.enterSilent_ordered h
    · split
      · exact h
      · have placed : AdmissionOrdered (({ s with lif := s.lif.passed } : State).holdTake f).placeTake :=
          h.congr (by simp) (by simp)
        exact (State.present_ordered placed f).congr (by simp) (by simp)
  · exact h

theorem State.frameSpoiled_ordered (f : LaneFrame) : AdmissionOrdered (s.frameSpoiled f) := by
  unfold State.frameSpoiled
  split
  · split
    · exact State.enterSilent_ordered h
    · split
      · exact h
      · exact h.congr (by simp) (by simp)
  · exact h

theorem State.holdLimitReached_ordered (x : Nat) : AdmissionOrdered (s.holdLimitReached x) := by
  unfold State.holdLimitReached
  split
  · rename_i start _
    have expired : AdmissionOrdered ((s.timeTo (after start s.holdLimit)).expire x) :=
      State.SameLists.ordered (s := s) ⟨rfl, rfl, rfl⟩ h
    have released := State.admChange_ordered (change := fun a => a.release x) expired (expired.lists.release x)
    dsimp only
    split
    · exact released.congr rfl rfl
    · exact released
  · exact h

end

/-- Without a record, and with empty lists, the lists are in order. -/
theorem AdmissionOrdered.of_empty {s : State} (adm : s.adm = {}) (settings : s.sld.settings = none) : AdmissionOrdered s := by
  rw [admissionOrdered_iff, adm, settings]
  exact ⟨⟨by simp, by simp, by simp, by simp⟩, by simp⟩

theorem State.beginStart_ordered {s : State} (adm : s.adm = {}) (straps : Straps) (warm : Bool) :
    AdmissionOrdered (s.beginStart straps warm) := by
  unfold State.beginStart State.enterHalted
  dsimp only
  split
  · exact AdmissionOrdered.of_empty adm rfl
  · exact AdmissionOrdered.of_empty (by simp [adm]) (by simp)

section

variable {s : State} (h : AdmissionOrdered s)
include h

/-- Before the hand-over there is no record, so the roster is empty. -/
theorem AdmissionOrdered.no_record (early : s.sld.phase ≠ .handedOver) : s.sld.settings = none := by
  have := h.handed
  cases record : s.sld.settings with
  | none => rfl
  | some r => exact absurd (this (by simp [record])) early

theorem AdmissionOrdered.phase {t : State} (early : s.sld.phase ≠ .handedOver) (adm : t.adm = s.adm)
    (settings : t.sld.settings = s.sld.settings) : AdmissionOrdered t := by
  have none := h.no_record early
  have slots : t.setting Settings.slotCount = s.setting Settings.slotCount := by simp only [State.setting, settings]
  rw [admissionOrdered_iff, slots, adm, settings, none]
  exact ⟨h.lists, by simp⟩

theorem State.handOverSettings_ordered : AdmissionOrdered s.handOverSettings := by
  unfold State.handOverSettings
  split
  · rename_i r digest validated
    split
    · have none := h.no_record (by simp [validated])
      have bounded := h.bounded
      have empty : s.adm.roster = [] := by simpa [State.setting, none] using bounded
      refine (admissionOrdered_iff _).2 ⟨?_, fun _ => rfl⟩
      exact ⟨h.rosterDistinct, h.waitingDistinct, h.disjoint, by simp [State.handOverRecord, empty]⟩
    · exact h
  · exact h

theorem State.attemptComplete_ordered (bytes : Bytes) : AdmissionOrdered (s.attemptComplete bytes) := by
  unfold State.attemptComplete
  split
  · rename_i reading
    have early : s.sld.phase ≠ .handedOver := by simp [reading]
    split
    · dsimp only
      split
      · exact h.phase early rfl rfl
      · exact h.phase early (by simp [State.enterHalted, State.drivesBus]) (by simp [State.enterHalted, State.drivesBus])
    · exact h
  · exact h

theorem State.attemptFailed_ordered : AdmissionOrdered s.attemptFailed := by
  unfold State.attemptFailed
  split
  · rename_i reading
    have early : s.sld.phase ≠ .handedOver := by simp [reading]
    dsimp only
    split
    · exact h.phase early rfl rfl
    · exact h.phase early (by simp [State.enterHalted, State.drivesBus]) (by simp [State.enterHalted, State.drivesBus])
  · exact h

theorem State.retryAttempt_ordered : AdmissionOrdered s.retryAttempt := by
  unfold State.retryAttempt
  split
  · rename_i waits
    exact h.phase (by simp [waits]) rfl rfl
  · exact h

theorem State.tenureEnds_ordered (how : TenureEnd) (straps : Straps) : AdmissionOrdered (s.tenureEnds how straps) := by
  unfold State.tenureEnds
  split
  · split
    · split
      · exact State.beginStart_ordered rfl straps true
      · exact State.endTenure_ordered (h.congr (by simp) (by simp)) _ _ how
    · exact h
  · exact h

theorem State.enterListen_ordered (r : Settings) : AdmissionOrdered (s.enterListen r) := by
  refine (State.payFault_powerMoves _).admissionOrdered ((State.raise_onlyPower _ _ _).admissionOrdered ?_)
  exact h.congr rfl rfl

theorem State.memoryUp_ordered : AdmissionOrdered s.memoryUp := by
  unfold State.memoryUp
  split
  · split
    · exact State.enterListen_ordered h _
    · exact h
  · exact h

theorem State.deriveFromPin_ordered (pinHigh : Bool) : AdmissionOrdered (s.deriveFromPin pinHigh) := by
  unfold State.deriveFromPin
  split
  · split
    · exact (State.derivePsq_powerMoves _ _).admissionOrdered h
    · exact h
  · exact h

end

theorem effect_ordered (c : Instr) {s : State} (h : AdmissionOrdered s) : AdmissionOrdered (c.effect s) := by
  have timed : ∀ (timer : Option Time) (event : State → State), (∀ u : State, AdmissionOrdered u → AdmissionOrdered (event u)) →
      AdmissionOrdered (s.expires timer event) := fun timer event acts =>
    State.expires_keeps timer h (fun _ => h.congr rfl rfl) acts
  have power : ∀ (timer : Option Time) (event : State → State), (∀ u : State, u.PowerMoves (event u)) →
      AdmissionOrdered (s.expires timer event) := fun timer event only =>
    timed timer event fun u hu => (only u).admissionOrdered hu
  have decided : ∀ (row : OrderRow) (block : Order → State → Answer), (∀ o, AdmissionOrdered (block o s).state) →
      AdmissionOrdered (s.decide row block) := fun row block acts =>
    State.decide_keeps h acts (fun _ _ _ _ _ hu => hu.congr rfl rfl)
  have ordered : ∀ (row : OrderRow) (act : Order → State → OrderStatus × State), (∀ o, s.PowerMoves (act o s).2) →
      AdmissionOrdered (s.decide row fun o u => .plain (act o u)) := fun row act only =>
    decided row _ fun o => (only o).admissionOrdered h
  cases c <;> dsimp only [Instr.effect]
  case pgoodActive =>
    split
    · exact (State.pgoodRises_powerMoves _).admissionOrdered (h.congr rfl rfl)
    · exact h
  case pgoodInactive =>
    split
    · exact (State.pgoodFalls_powerMoves _).admissionOrdered (h.congr rfl rfl)
    · exact h
  case startTimerExpiry => exact power _ _ State.startFailed_powerMoves
  case settleTimerExpiry => exact power _ _ State.settled_powerMoves
  case youngTimerExpiry => exact power _ _ State.youngOver_powerMoves
  case graceTimerExpiry => exact power _ _ State.graceOver_powerMoves
  case forceTimerExpiry => exact power _ _ State.forceOver_powerMoves
  case restTimerExpiry => exact power _ _ State.restOver_powerMoves
  case watchdogDeadlineExpiry =>
    refine timed _ _ fun u hu => ?_
    unfold State.deadlineReached
    split
    · exact (State.watchdogExpiry_powerMoves _ _).admissionOrdered hu
    · exact hu
  case powerOn => exact ordered _ _ fun _ => State.actOn_powerMoves _
  case powerOffSoft | powerOffSoftThenHard =>
    refine ordered _ _ fun _ => ?_
    exact State.actOffSoft_powerMoves _ _
  case powerOffHard => exact ordered _ _ fun _ => State.actOffHard_powerMoves _
  case powerReset =>
    refine ordered _ _ fun _ => ?_
    exact State.actReset_powerMoves _ _
  case powerCycle => exact ordered _ _ fun _ => State.actCycle_powerMoves _
  case powerFeedCut => exact ordered _ _ fun _ => State.actFeedCut_powerMoves _
  case powerFeedRestore => exact ordered _ _ fun _ => State.actFeedRestore_powerMoves _
  case consoleGoodByte b =>
    exact State.inRx_keeps _ h (State.goodByte_ordered h b)
  case presenceBoundary => exact State.boundary_ordered h
  case laneBidBegin =>
    simp only [State.bidBegin]
    (repeat' split) <;> try exact h
    exact State.beginTenure_ordered h _ _
  case bidLost =>
    simp only [State.loseBid, State.withdrawBid, State.mismatch]
    (repeat' split) <;> try exact h
    · refine State.report_ordered ?_ _ _ _
      exact h.congr rfl rfl
    · exact h.congr rfl rfl
  case senderTenureEnd => exact State.tenureEnds_ordered h _ _
  case frameCompleteUnspoiled => exact State.frameComplete_ordered h _ _
  case receivedFrameSpoiled => exact State.frameSpoiled_ordered h _
  case duplicateStationNumber =>
    simp only [State.duplicate]
    split
    · exact State.enterSilent_ordered h
    · exact h
  case entryHoldLimit => exact State.holdLimitReached_ordered h _
  case expiredSetTimeout =>
    simp only [State.expiredOver]
    split
    · exact State.SameLists.ordered (s := s) ⟨rfl, rfl, rfl⟩ h
    · exact h
  case eepromAttemptComplete => exact State.attemptComplete_ordered h _
  case eepromAttemptFailed => exact State.attemptFailed_ordered h
  case eepromRetryWaitExpiry => exact State.retryAttempt_ordered h
  case settingRecordHandover => exact State.handOverSettings_ordered h
  case memoryBringupComplete => exact State.memoryUp_ordered h
  case psqStateDerived => exact State.deriveFromPin_ordered h _
  case pressPulseEnd | longPressEnd | resetPulseEnd | watcherWaitExpiry | watcherPauseExpiry | noticePauseExpiry |
      drainTimerExpiry | usbResumeSignallingEnd =>
    refine timed _ _ fun u hu => ?_
    exact hu.congr (by simp) (by simp)
  case consoleLineIdle | consoleFramingError | consoleBreakStart | consoleBreakEnd =>
    refine State.inRx_keeps (P := AdmissionOrdered) _ h ?_
    exact h.congr (by simp) (by simp)
  case claim | releaseClaim | status | watch | unwatch | powerWake | watchdogArm | watchdogDisarm | watchdogRetime | attach |
      detach | breakOrder | restart | orderNameInvalid =>
    refine decided _ _ fun o => ?_
    exact h.congr (by simp [Answer.plain]) (by simp [Answer.plain])
  case wantTimerExpiry =>
    split
    · refine timed _ _ fun u hu => ?_
      exact hu.congr (by simp) (by simp)
    · exact h
  case read | write =>
    split
    · refine State.serverRequest_keeps _ _ h (fun _ _ _ => h.congr rfl rfl) (fun u hu => ?_)
      exact hu.congr (by simp) (by simp)
    · exact h
  case capacity | ready | eject =>
    refine State.serverRequest_keeps _ _ h (fun _ _ _ => h.congr rfl rfl) (fun u hu => ?_)
    exact hu.congr (by simp) (by simp)
  all_goals
    (repeat' split) <;> exact h.congr (by simp) (by simp)

/-- Settles O8: each way the lists move keeps their order, and the record comes with an empty roster. -/
theorem everyStepKeepsAdmissionOrdered : Obligations.EveryStepKeepsAdmissionOrdered := by
  intro s t h stepped
  refine step_keeps (fun _ _ h => h.congr rfl rfl) (fun u hu => ?_) (fun u straps _ => State.beginStart_ordered rfl _ _)
    (fun u _ => AdmissionOrdered.of_empty rfl rfl) (fun _ _ h => h.congr rfl rfl) (fun c u hu => effect_ordered c hu)
    (fun u hu => ?_) h stepped
  · unfold State.tick
    split
    · exact hu
    · exact hu.congr rfl rfl
  · exact State.SameLists.ordered ⟨settle_adm_roster u, settle_adm_waiting u, settle_sld u⟩ hu

end Sys2Proof.Machine


/-! ## The bounds over the acts of MFN and XCH (R115 to R155) -/

namespace Sys2Proof.Machine

section

variable (s : State)

/-- What touches neither the pool nor a queue. -/
theorem State.keepsBounds_mctl (m : Mctl) : s.KeepsBounds { s with mctl := m } := .shrink

theorem State.keepsBounds_request (r : Request) : s.KeepsBounds (s.setRequest r) := s.keepsBounds_mfn _

/-! ### The ends of a request -/

theorem State.withdrawReads_keepsBounds (p : MediaReq → Bool) : s.KeepsBounds (s.withdrawReads p) :=
  (s.withdrawMedia_keepsBounds _).trans (State.keepsBounds_mctl _ _)

theorem State.closeRequest_keepsBounds : s.KeepsBounds s.closeRequest := by
  unfold State.closeRequest
  split
  · rename_i r _
    have closed := (s.withdrawReads_keepsBounds (fun m => m.request = r.serial)).trans
      (State.keepsBounds_mfn _ { (s.withdrawReads (fun m => m.request = r.serial)).mfn with request := none })
    dsimp only
    split
    · exact closed.trans (State.teardown_keepsBounds _)
    · exact closed
  · exact .refl s

theorem State.failRequest_keepsBounds (status : UsbStatus) : s.KeepsBounds (s.failRequest status) :=
  (s.keepsBounds_mfn _).trans (State.closeRequest_keepsBounds _)

/-! ### Wants -/

theorem State.keepsBounds_wants {ws : List Want} (places : s.xch.wants.length ≤ 8 → ws.length ≤ 8) :
    s.KeepsBounds { s with xch := { s.xch with wants := ws } } := .shrink (wants := places)

theorem State.xchAsk_keepsBounds (key : Key) (purpose : Purpose) : s.KeepsBounds (s.xchAsk key purpose).2 := by
  unfold State.xchAsk
  split
  · exact s.keepsBounds_wants (by simp)
  · split
    · exact .refl s
    · split
      · exact .refl s
      · rename_i room
        split
        · rename_i given
          exact s.keepsBounds_pool (fun h => h.allocFilling given) fun _ => by
            simp
            omega
        · exact .refl s

theorem State.askStep_keepsBounds (st : XferStep) : s.KeepsBounds (s.askStep st) := by
  unfold State.askStep
  split
  · split
    · rename_i r _ _
      have asked := s.xchAsk_keepsBounds (s.mfn.key st.line) .demand
      split
      all_goals
        rename_i answered
        rw [answered] at asked
      · exact asked.trans (State.keepsBounds_request _ _)
      · exact asked.trans (State.keepsBounds_request _ _)
      · exact asked.trans (State.keepsBounds_request _ _)
      · exact (asked.trans (State.raise_keepsBounds _ _ _)).trans (State.failRequest_keepsBounds _ _)
    · exact .refl s
  · exact .refl s

theorem State.askWants_keepsBounds : s.KeepsBounds s.askWants := by
  unfold State.askWants
  split
  · have needed (r : Request) : s.KeepsBounds (s.needWaited r) := s.keepsBounds_wants (by simp)
    exact (needed _).trans (.foldl State.askStep_keepsBounds _ _)
  · exact .refl s

theorem State.wantEnded_keepsBounds (key : Key) (filled : Bool) : s.KeepsBounds (s.wantEnded key filled) := by
  unfold State.wantEnded
  split
  · dsimp only
    split
    · exact (s.keepsBounds_request _).trans (State.keepsBounds_request _ _)
    · split
      · exact ((s.keepsBounds_request _).trans (State.raise_keepsBounds _ _ _)).trans (State.failRequest_keepsBounds _ _)
      · exact s.keepsBounds_request _
  · exact .refl s

theorem State.wantsFailed_keepsBounds (keys : List Key) : s.KeepsBounds (s.wantsFailed keys) :=
  .foldl (fun t k => t.wantEnded_keepsBounds k false) keys s

theorem State.wantExpired_keepsBounds (w : Want) : s.KeepsBounds (s.wantExpired w) := by
  unfold State.wantExpired
  split
  · exact s.keepsBounds_wants (by simp)
  · refine (s.keepsBounds_pool (fun h => h.freeFilling w.line) fun h => ?_).trans (State.wantEnded_keepsBounds _ _ _)
    exact (List.length_filter_le _ _).trans h

/-! ### Media transfers -/

/-- A transfer asked, its line in the pool as it stands then. -/
theorem State.keepsBounds_transfer {q : Lpm} (pool : PoolWithinBounds s.lpm → PoolWithinBounds q) (m : Mctl) :
    s.KeepsBounds { s with lpm := q, mctl := m } := .shrink (pool := pool)

theorem State.askFetch_keepsBounds : s.KeepsBounds s.askFetch := by
  unfold State.askFetch
  split
  · split
    · split
      · split
        · split
          · rename_i pos p asked
            obtain ⟨at0, -, pinned⟩ := Option.bind_eq_some_iff.1 asked
            obtain ⟨q, pinned, pair⟩ := Option.map_eq_some_iff.1 pinned
            cases pair
            exact (s.keepsBounds_transfer (fun h => h.pin pinned) _).trans (State.keepsBounds_request _ _)
          · exact (s.withdrawReads_keepsBounds _).trans (State.keepsBounds_request _ _)
        · exact .refl s
      · exact .refl s
    · exact .refl s
  · exact .refl s

theorem State.askStore_keepsBounds : s.KeepsBounds s.askStore := by
  have failed (detail : Bytes) : s.KeepsBounds ((s.raise .spaceExhausted detail).failRequest .spaceExhausted) :=
    (s.raise_keepsBounds _ _).trans (State.failRequest_keepsBounds _ _)
  unfold State.askStore
  split
  · split
    · split
      · split
        · rename_i given
          exact (s.keepsBounds_transfer (fun h => h.allocOverlay given) _).trans (State.keepsBounds_request _ _)
        · exact failed _
        · exact failed _
      · exact .refl s
    · exact .refl s
  · exact .refl s

theorem State.mediaRun_keepsBounds (n : Nat) : s.KeepsBounds (State.mediaRun n s) := by
  induction n generalizing s with
  | zero => exact .refl s
  | succ n ih =>
    exact ((s.askWants_keepsBounds.trans (State.askFetch_keepsBounds _)).trans (State.askStore_keepsBounds _)).trans (ih _)

theorem State.mediaAdvance_keepsBounds : s.KeepsBounds s.mediaAdvance := by
  unfold State.mediaAdvance
  split
  · exact s.mediaRun_keepsBounds 8
  · exact .refl s

theorem State.readahead_keepsBounds (lines : List Nat) : s.KeepsBounds (s.readahead lines) := by
  induction lines generalizing s with
  | nil => exact .refl s
  | cons line rest ih =>
    unfold State.readahead
    split
    · exact ih s
    · have asked := s.xchAsk_keepsBounds (s.mfn.key line) .readahead
      split
      all_goals
        rename_i answered
        rw [answered] at asked
      · exact asked
      · exact asked.trans (ih _)

theorem State.readComplete_keepsBounds (r : Request) : s.KeepsBounds (s.readComplete r) := by
  have good := s.keepsBounds_mfn { s.mfn with usbStatus := some .good, tracker := some r.lastBlock }
  unfold State.readComplete
  dsimp only
  split
  · exact (good.trans (State.readahead_keepsBounds _ _)).trans (State.closeRequest_keepsBounds _)
  · exact good.trans (State.closeRequest_keepsBounds _)

theorem State.readArrived_keepsBounds (m : MediaReq) (blocks : List (Nat × Bytes)) : s.KeepsBounds (s.readArrived m blocks) := by
  unfold State.readArrived
  split
  · split
    · dsimp only
      split
      · exact ((s.keepsBounds_mfn _).trans (State.keepsBounds_request _ _)).trans (State.readComplete_keepsBounds _ _)
      · exact (s.keepsBounds_mfn _).trans (State.keepsBounds_request _ _)
    · exact .refl s
  · exact .refl s

theorem State.writeArrived_keepsBounds (m : MediaReq) : s.KeepsBounds (s.writeArrived m) := by
  unfold State.writeArrived
  split
  · split
    · dsimp only
      split
      · exact ((s.keepsBounds_request _).trans (State.keepsBounds_mfn _ _)).trans (State.closeRequest_keepsBounds _)
      · exact s.keepsBounds_request _
    · exact .refl s
  · exact .refl s

theorem State.requestOver_keepsBounds : s.KeepsBounds s.requestOver := s.keepsBounds_mctl _

theorem State.keepsBounds_sdram (m : Memory) : s.KeepsBounds { s with sdram := m } := .shrink

theorem State.mediaDone_keepsBounds (m : MediaReq) (reported : Bool) : s.KeepsBounds (s.mediaDone m reported) := by
  have stored (b : Bool) : s.KeepsBounds (if b = true then s.requestOver else
      { s.requestOver with sdram := Memory.writeBlocks s.requestOver.sdram (s.requestOver.lineAt m.line) m.blocks m.data }) := by
    split
    · exact s.requestOver_keepsBounds
    · exact s.requestOver_keepsBounds.trans (State.keepsBounds_sdram _ _)
  have moved := stored m.isRead
  unfold State.mediaDone
  dsimp only
  revert moved
  generalize (if m.isRead = true then _ else _ : State) = u
  intro moved
  split
  · have unpinned := moved.trans (State.keepsBounds_lpm u fun h => h.unpin m.line)
    split
    · exact unpinned.trans (State.readArrived_keepsBounds _ _ _)
    · exact unpinned.trans (State.writeArrived_keepsBounds _ _)
  · exact moved

theorem State.fillEnded_keepsBounds (pos : Nat) : s.KeepsBounds (s.fillEnded pos) := by
  have done := s.keepsBounds_lpm fun h => h.fillDone pos
  unfold State.fillEnded
  dsimp only
  split
  · rename_i w _
    have ended : s.KeepsBounds { s with lpm := (s.lpm.fillDone pos).2, xch := s.xch.endWant w } :=
      done.trans (.shrink (wants := (List.length_filter_le _ _).trans) (gives := id))
    split
    · exact ended.trans (State.wantEnded_keepsBounds _ _ _)
    · exact ended.trans (State.wantEnded_keepsBounds _ _ _)
    · exact ended
    · exact done
  · exact done

theorem State.detachComplete_keepsBounds : s.KeepsBounds s.detachComplete := by
  unfold State.detachComplete
  split
  · split
    · exact ((s.mark_keepsBounds _ _).trans (State.raise_keepsBounds _ _ _)).trans (State.keepsBounds_mfn _ _)
    · exact .refl s
  · exact .refl s

/-! ### Frames of XCH seen on the lane -/

theorem State.rideWants_keepsBounds (key : Key) : s.KeepsBounds (s.rideWants key) :=
  (s.withdrawWants_keepsBounds _).trans (State.keepsBounds_wants _ (by simp))

theorem State.fillWants_keepsBounds (key : Key) (data : Bytes) : s.KeepsBounds (s.fillWants key data) := by
  unfold State.fillWants
  split
  · split
    · rename_i w buf _ _ _ _ filled
      exact (s.withdrawWant_keepsBounds w).trans
        (.shrink (pool := fun h => PoolWithinBounds.fill (p := s.lpm) (by simpa using h) filled))
    · exact .refl s
  · exact .refl s

theorem State.retireImage_keepsBounds (image gen : Nat) : s.KeepsBounds (s.retireImage image gen) :=
  (s.withdrawWants_keepsBounds _).trans (State.keepsBounds_pool _ (fun h => h.retire image gen) fun h =>
    Xch.voidImage_length _ _ _ .retired h)

theorem State.applyRetire_keepsBounds (image gen : Nat) : s.KeepsBounds (s.applyRetire image gen) := by
  have retired := (s.retireImage_keepsBounds image gen).trans (State.wantsFailed_keepsBounds _ (s.xch.retiredKeys image gen))
  unfold State.applyRetire
  dsimp only
  split
  · exact retired.trans (State.detachTrigger_keepsBounds _ _)
  · exact retired

/-- Changes of the pool within its bounds, and of the give list within its places. -/
theorem State.keepsBounds_gives {q : Lpm} {gs : List Give} (pool : PoolWithinBounds s.lpm → PoolWithinBounds q)
    (gives : s.xch.gives.length ≤ 4 → gs.length ≤ 4) :
    s.KeepsBounds { s with lpm := q, xch := { s.xch with gives := gs } } :=
  .shrink (pool := pool) (gives := gives)

theorem State.queueGive_keepsBounds (key : Key) : s.KeepsBounds (s.queueGive key) := by
  unfold State.queueGive
  split
  · split
    · rename_i room
      simp only [Bool.and_eq_true, decide_eq_true_eq] at room
      split
      · rename_i pinned
        exact s.keepsBounds_gives (fun h => h.pin pinned) fun _ => by
          simp
          omega
      · exact .refl s
    · exact .refl s
  · exact .refl s

theorem State.dropGives_keepsBounds (out : Give → Bool) : s.KeepsBounds (s.dropGives out) := by
  have withdrawn := State.KeepsBounds.foldl State.withdrawStanding_keepsBounds ((s.xch.gives.filter out).map Give.standing) s
  exact withdrawn.trans (State.keepsBounds_gives _ (fun h => h.foldl (fun hq => hq.unpin) _)
    (List.length_filter_le _ _).trans)

theorem State.suppressComputerGives_keepsBounds (key : Key) : s.KeepsBounds (s.suppressComputerGives key) := by
  unfold State.suppressComputerGives
  split
  · exact .refl s
  · exact .shrink (sends := List.length_filter_le _ _)
      (listed := State.upbListed_le List.filter_sublist) (outbound := (List.length_filter_le _ _).trans)

theorem State.seeWant_keepsBounds (key : Key) : s.KeepsBounds (s.seeWant key) := by
  unfold State.seeWant
  dsimp only
  split
  · exact (s.rideWants_keepsBounds key).trans (State.queueGive_keepsBounds _ _)
  · exact s.rideWants_keepsBounds key

theorem State.seeGive_keepsBounds (key : Key) (data : Bytes) : s.KeepsBounds (s.seeGive key data) :=
  ((s.fillWants_keepsBounds key data).trans (State.dropGives_keepsBounds _ _)).trans (State.suppressComputerGives_keepsBounds _ _)

theorem State.xchFrame_keepsBounds (f : LaneFrame) (kind : FrameKind) : s.KeepsBounds (s.xchFrame f kind) := by
  unfold State.xchFrame
  split
  · split
    · split
      · exact s.seeWant_keepsBounds _
      · exact .refl s
    · split
      · exact s.seeGive_keepsBounds _ _
      · exact .refl s
    · split
      · exact s.applyRetire_keepsBounds _ _
      · exact .refl s
    · exact .refl s
  · exact .refl s

/-! ### The request begins -/

theorem State.beginRequest_keepsBounds (kind : ReqKind) (first count : Nat) : s.KeepsBounds (s.beginRequest kind first count) :=
  s.keepsBounds_mfn _

theorem State.stepData_keepsBounds (data : Bytes) : s.KeepsBounds (s.stepData data) := by
  unfold State.stepData
  split
  · split
    · split
      · exact s.keepsBounds_request _
      · exact .refl s
    · exact .refl s
  · exact .refl s

end

end Sys2Proof.Machine


/-! ## The bounds over the acts of the members, the lane, the console and the uplink line -/

namespace Sys2Proof.Machine

section

variable (s : State)

theorem State.keepsBounds_ptu (p : Ptu) : s.KeepsBounds { s with ptu := p } := .shrink

theorem State.keepsBounds_ntu (n : Ntu) : s.KeepsBounds { s with ntu := n } := .shrink

theorem State.keepsBounds_lif {l : Lif} (sends : l.sendList.length ≤ s.lif.sendList.length)
    (listed : (l.sendList.filter (fun e => e.owner = .upb)).length ≤ s.upbListed) (queue : l.recvQueue = s.lif.recvQueue)
    (held : s.lif.takeHeld = none → l.takeHeld = none) : s.KeepsBounds { s with lif := l } :=
  .shrink (sends := sends) (listed := listed) (queue := queue) (held := held)

/-! ### ADM -/

theorem State.keepsBounds_adm {a : Adm} (own : s.adm.own.length ≤ 4 → a.own.length ≤ 4) :
    s.KeepsBounds { s with adm := a } := .shrink (own := own)

theorem State.admChange_keepsBounds {change : Adm → Adm} (own : (change s.adm).own = s.adm.own) :
    s.KeepsBounds (s.admChange change) := by
  have changed : s.KeepsBounds { s with adm := (change s.adm).promote (s.setting Settings.slotCount) s.now } :=
    s.keepsBounds_adm fun h => (congrArg List.length own).trans_le h
  unfold State.admChange
  dsimp only
  split
  · exact changed.trans (State.granted_powerMoves _).bounds
  · exact changed

theorem State.admRemove_keepsBounds (x : Nat) : s.KeepsBounds (s.admRemove x) := s.admChange_keepsBounds rfl

theorem State.admitFrame_keepsBounds (f : LaneFrame) (kind : FrameKind) : s.KeepsBounds (s.admitFrame f kind) := by
  unfold State.admitFrame
  dsimp only
  split
  · split
    · refine s.admChange_keepsBounds ?_
      unfold Adm.claim
      (repeat' split) <;> rfl
    · refine s.admChange_keepsBounds ?_
      unfold Adm.withdraw
      split <;> rfl
    · refine s.admChange_keepsBounds ?_
      unfold Adm.release
      split <;> rfl
    · exact .refl s
  · exact .refl s

theorem State.repair_keepsBounds (x : Nat) (b : Beacon) : s.KeepsBounds (s.repair x b) := by
  unfold State.repair
  dsimp only
  split
  · split
    · exact .refl s
    · split
      · exact s.raise_keepsBounds _ _
      · split
        · exact .refl s
        · split
          · exact s.admChange_keepsBounds rfl
          · exact s.raise_keepsBounds _ _
  · split
    · split
      · exact s.admChange_keepsBounds rfl
      · split
        · exact .refl s
        · exact s.admChange_keepsBounds rfl
    · split
      · exact s.admChange_keepsBounds rfl
      · split
        · exact s.admChange_keepsBounds rfl
        · exact .refl s

theorem foldl_copyRoster_own (slots : Nat) (now : Time) (l : List Nat) (a : Adm) :
    (l.foldl (copyRoster slots now) a).own = a.own := by
  induction l generalizing a with
  | nil => rfl
  | cons x l ih =>
    refine (ih _).trans ?_
    unfold copyRoster
    split <;> rfl

theorem foldl_copyWaiting_own (l : List Nat) (a : Adm) : (l.foldl copyWaiting a).own = a.own := by
  induction l generalizing a with
  | nil => rfl
  | cons x l ih =>
    refine (ih _).trans ?_
    unfold copyWaiting
    split <;> rfl

theorem State.copyLists_keepsBounds (b : Beacon) : s.KeepsBounds (s.copyLists b) := by
  unfold State.copyLists
  refine (s.keepsBounds_adm fun h => ?_).trans (State.admChange_keepsBounds _ rfl)
  rw [foldl_copyWaiting_own, foldl_copyRoster_own]
  exact h

theorem State.admBeacon_keepsBounds (x : Nat) (b : Beacon) : s.KeepsBounds (s.admBeacon x b) := by
  unfold State.admBeacon
  split
  · split
    · exact s.repair_keepsBounds x b
    · split
      · exact s.copyLists_keepsBounds b
      · exact .refl s
  · exact .refl s

/-! ### Watchers and the claim -/

theorem State.keepsBounds_watchers {ws : List Watcher} {turn : Nat} {out : Option OutFrame}
    (watchers : s.cfw.watchers.length ≤ 4 → ws.length ≤ 4) :
    s.KeepsBounds { s with cfw := { s.cfw with watchers := ws, turn := turn, out := out } } :=
  .shrink (watchers := watchers) (breaks := id) (text := le_refl _)

theorem State.removeWatcher_keepsBounds (station : Nat) : s.KeepsBounds { s with cfw := s.cfw.removeWatcher station } := by
  unfold Cfw.removeWatcher
  cases s.cfw.place station with
  | some j => exact s.keepsBounds_watchers (List.length_filter_le _ _).trans
  | none => exact .refl s

theorem State.clearOut_keepsBounds : s.KeepsBounds s.clearOut := s.keepsBounds_watchers id

theorem State.endOut_keepsBounds (station : Nat) : s.KeepsBounds (s.endOut station) := by
  unfold State.endOut
  split
  · split
    · split
      · exact (s.keepsBounds_mctl _).trans (State.clearOut_keepsBounds _)
      · exact s.clearOut_keepsBounds
      · exact (s.lifWithdraw_keepsBounds _).trans (State.clearOut_keepsBounds _)
      · exact s.keepsBounds_watchers id
    · exact .refl s
  · exact .refl s

theorem State.dropWatcher_keepsBounds (station : Nat) : s.KeepsBounds (s.dropWatcher station) := by
  unfold State.dropWatcher
  split
  · exact (s.endOut_keepsBounds station).trans (State.removeWatcher_keepsBounds _ station)
  · exact .refl s

theorem State.loseClaim_keepsBounds (x cause : Nat) : s.KeepsBounds (s.loseClaim x cause) := by
  unfold State.loseClaim
  split
  · exact State.KeepsBounds.trans (t := { s with ord := { s.ord with holder := none, holdTime := 0 } }) .shrink
      (State.raise_keepsBounds _ _ _)
  · exact .refl s

/-! ### Frames presented -/

theorem State.evalMismatch_keepsBounds : s.KeepsBounds s.evalMismatch := by
  unfold State.evalMismatch
  dsimp only
  split
  · exact .refl s
  · exact (s.keepsBounds_ptu _).trans (State.raise_keepsBounds _ _ _)

theorem State.beaconEntry_keepsBounds (x : Nat) (b : Beacon) : s.KeepsBounds (s.beaconEntry x b) :=
  (s.keepsBounds_ptu _).trans (State.evalMismatch_keepsBounds _)

theorem State.roleReported_keepsBounds (x : Nat) (role : Role) : s.KeepsBounds (s.roleReported x role) := by
  cases role
  · exact (s.loseClaim_keepsBounds x 3).trans (State.dropWatcher_keepsBounds _ x)
  · exact s.admRemove_keepsBounds x

theorem State.beaconSeen_keepsBounds (x : Nat) (b : Beacon) : s.KeepsBounds (s.beaconSeen x b) :=
  ((s.beaconEntry_keepsBounds x b).trans (State.admBeacon_keepsBounds _ x b)).trans (State.roleReported_keepsBounds _ x b.role)

theorem State.presentBlocks_keepsBounds (f : LaneFrame) : s.KeepsBounds (s.presentBlocks f) := by
  unfold State.presentBlocks
  split
  case h_1 | h_2 | h_3 => exact s.admitFrame_keepsBounds f _
  case h_4 | h_5 | h_6 => exact s.xchFrame_keepsBounds f _
  case h_7 => exact .refl s

theorem State.heard_keepsBounds (x : Nat) : s.KeepsBounds (s.heard x) := by
  unfold State.heard
  split
  · exact s.keepsBounds_ptu _
  · exact .refl s

theorem State.present_keepsBounds (f : LaneFrame) : s.KeepsBounds (s.present f) := by
  have heard := s.heard_keepsBounds f.sender.toNat
  unfold State.present
  dsimp only
  split
  · split
    · split
      · exact heard.trans (State.beaconSeen_keepsBounds _ _ _)
      · exact heard
    · exact heard
  · exact heard.trans (State.presentBlocks_keepsBounds _ f)

/-! ### The boundary -/

theorem State.declareAbsent_keepsBounds (x : Nat) : s.KeepsBounds (s.declareAbsent x) :=
  ((((s.keepsBounds_ptu _).trans (State.admRemove_keepsBounds _ x)).trans (State.loseClaim_keepsBounds _ x 2)).trans
    (State.dropWatcher_keepsBounds _ x)).trans (State.evalMismatch_keepsBounds _)

theorem State.enterMember_keepsBounds : s.KeepsBounds s.enterMember := by
  have retracted : s.KeepsBounds s.selfRetract :=
    (s.keepsBounds_ownWith _ 0).trans (State.keepsBounds_psq _ _)
  exact (retracted.trans (State.keepsBounds_ptu _ _)).trans (State.askClaim_powerMoves _).bounds

theorem State.offerBeacon_keepsBounds : s.KeepsBounds s.offerBeacon := by
  unfold State.offerBeacon
  split
  · split
    · exact s.keepsBounds_ptu _
    · exact s.keepsBounds_ptu _
    · exact (s.lifWithdraw_keepsBounds _).trans (State.keepsBounds_ptu _ _)
    · exact .refl s
  · exact .refl s

theorem State.boundary_keepsBounds : s.KeepsBounds s.boundary := by
  unfold State.boundary
  split
  · rename_i due _
    have aged : s.KeepsBounds (({ s.timeTo due with ptu := { (s.timeTo due).ptu with
        boundary := some (after due s.period) } } : State).agePeers) :=
      (((s.keepsBounds_now due).trans (State.keepsBounds_ptu _ _)).trans (State.keepsBounds_ptu _ _)).trans
        (.foldl State.declareAbsent_keepsBounds _ _)
    dsimp only
    refine State.KeepsBounds.trans ?_ (State.offerBeacon_keepsBounds _)
    split
    · exact aged.trans (State.enterMember_keepsBounds _)
    · exact aged
  · exact .refl s

/-! ### LIF's reports (R42 to R45, R75, R142, R150) -/

theorem State.reportAdm_keepsBounds (seq : Nat) (r : Report) : s.KeepsBounds (s.reportAdm seq r) := by
  have back : s.KeepsBounds (s.ownBack seq) :=
    (s.keepsBounds_adm (by simp [Adm.restand])).trans (State.cancelClaim_powerMoves _).bounds
  have done : s.KeepsBounds (s.ownDone seq) := by
    unfold State.ownDone
    split
    · have gone : s.KeepsBounds { s with adm := { s.adm with own := s.adm.own.filter (fun g => !g.standing.isAt seq) } } :=
        s.keepsBounds_adm (List.length_filter_le _ _).trans
      dsimp only
      split
      · exact gone
      · exact gone.trans (State.retractSettled_powerMoves _).bounds
    · exact .refl s
  have givenUp : s.KeepsBounds (s.ownGivenUp seq) :=
    ((State.KeepsBounds.foldl State.withdrawStanding_keepsBounds _ s).trans
      (State.keepsBounds_adm _ (by simp))).trans (State.cancelClaim_powerMoves _).bounds
  cases r
  case begun => exact s.keepsBounds_adm (by simp [Adm.restand])
  case lostBid | retry => exact back
  case taken | notTaken => exact done
  case givenUp => exact givenUp

theorem State.outEnded_keepsBounds (seq : Nat) (change : Watcher → Watcher) : s.KeepsBounds (s.outEnded seq change) := by
  unfold State.outEnded
  split
  · split
    · split
      · exact s.clearOut_keepsBounds
      · exact s.keepsBounds_watchers (by simp)
    · exact .refl s
  · exact .refl s

theorem State.reportCfw_keepsBounds (seq : Nat) (r : Report) : s.KeepsBounds (s.reportCfw seq r) := by
  have back : s.KeepsBounds (s.outBack seq) := by
    unfold State.outBack
    split
    · split
      · split
        · exact (s.lifWithdraw_keepsBounds seq).trans (State.clearOut_keepsBounds _)
        · exact s.keepsBounds_watchers id
      · exact .refl s
    · exact .refl s
  cases r
  case begun => exact s.keepsBounds_watchers id
  case lostBid | retry => exact back
  case taken | notTaken | givenUp => exact s.outEnded_keepsBounds seq _

theorem State.keepsBounds_restand (seq : Nat) (st : Standing) : s.KeepsBounds { s with xch := s.xch.restand seq st } :=
  .shrink (wants := by simp [Xch.restand]) (gives := by simp [Xch.restand])

theorem State.reportWant_keepsBounds (seq : Nat) (r : Report) : s.KeepsBounds (s.reportWant seq r) := by
  cases r
  case begun | lostBid | retry => exact s.keepsBounds_restand seq _
  case taken | notTaken | givenUp => exact s.keepsBounds_wants (by simp)

theorem State.reportGive_keepsBounds (seq : Nat) (r : Report) : s.KeepsBounds (s.reportGive seq r) := by
  cases r
  case begun | lostBid | retry => exact s.keepsBounds_restand seq _
  case taken | notTaken | givenUp => exact s.dropGives_keepsBounds _

/-- A report keeps the bounds where it is no frame of the computer given up. -/
theorem State.report_keepsBounds {e : SendEntry} {f : LaneFrame} {r : Report} (other : e.owner = .upb → r ≠ .givenUp) :
    s.KeepsBounds (s.report e f r) := by
  unfold State.report
  split
  · exact s.reportAdm_keepsBounds _ _
  · exact s.keepsBounds_ptu _
  · exact .refl s
  · exact s.keepsBounds_ntu _
  · exact s.reportCfw_keepsBounds _ _
  · exact s.reportWant_keepsBounds _ _
  · exact s.reportGive_keepsBounds _ _
  · rename_i ofUpb
    unfold State.reportUpb
    split
    · exact absurd rfl (other ofUpb)
    · exact .refl s

end

end Sys2Proof.Machine


/-! ## The bounds over a tenure, a take and a start (R158 to R175, R202) -/

namespace Sys2Proof.Machine

/-- `t` holds the bounds of the pool and of the queues where `s` holds them. -/
structure State.HoldsBounds (s t : State) : Prop where
  pool       : PoolWithinBounds s.lpm → PoolWithinBounds t.lpm
  capacities : WithinCapacities s → WithinCapacities t

theorem State.KeepsBounds.holds {s t : State} (keeps : s.KeepsBounds t) : s.HoldsBounds t := ⟨keeps.pool, keeps.capacities⟩

theorem State.HoldsBounds.refl (s : State) : s.HoldsBounds s := ⟨id, id⟩

theorem State.HoldsBounds.trans {s t u : State} (first : s.HoldsBounds t) (second : t.HoldsBounds u) : s.HoldsBounds u :=
  ⟨second.pool ∘ first.pool, second.capacities ∘ first.capacities⟩

/-! ### UPB's inbound queue -/

/-- A unit more in the inbound queue, where one of its places is free. -/
theorem WithinCapacities.inbound_snoc {s : State} (h : WithinCapacities s) (u : InUnit)
    (room : s.serving = false → s.inboundLoad < 32) :
    WithinCapacities { s with upb := { s.upb with inq := s.upb.inq ++ [u] } } where
  own := h.own
  sendList := h.sendList
  recvQueue := h.recvQueue
  takeHeld := h.takeHeld
  inbox := h.inbox
  wants := h.wants
  gives := h.gives
  watchers := h.watchers
  marks := h.marks
  buffer := h.buffer
  breaks := h.breaks
  text := h.text
  reserved := h.reserved
  outbound := h.outbound
  inbound uplink := by
    have := room uplink
    simp only [State.inboundLoad] at this
    simp only [List.length_append, List.length_singleton]
    change _ + _ + s.upbListed ≤ 32
    omega

theorem State.upbFree_eq (s : State) : s.upbFree = 32 - s.inboundLoad := by
  simp only [State.upbFree, State.inboundLoad, State.upbListed]
  omega

section

variable (s : State)

/-! ### A tenure begins and ends -/

theorem State.setTenure_keepsBounds (seq : Nat) (on : Bool) (l : Lif) (sends : l.sendList = (s.lif.setTenure seq on).sendList)
    (queue : l.recvQueue = s.lif.recvQueue) (held : l.takeHeld = s.lif.takeHeld) : s.KeepsBounds { s with lif := l } := by
  have owners : ∀ es : List SendEntry, ((es.map (fun e => if e.seq = seq then { e with inTenure := on } else e)).filter
      (fun e => e.owner = .upb)).length = (es.filter (fun e => e.owner = .upb)).length := by
    intro es
    rw [List.filter_map, List.length_map]
    congr 2
    funext e
    simp only [Function.comp_apply]
    split <;> rfl
  refine s.keepsBounds_lif ?_ ?_ queue fun none => held.trans none
  · rw [sends]
    simp [Lif.setTenure]
  · rw [sends]
    exact (owners _).le

theorem State.beginTenure_keepsBounds (e : SendEntry) (f : LaneFrame) : s.KeepsBounds (s.beginTenure e f) := by
  refine State.KeepsBounds.trans ?_ (State.report_keepsBounds _ (e := e) (f := f) (r := .begun) (by simp))
  exact s.setTenure_keepsBounds e.seq true _ rfl rfl rfl

theorem State.withdrawBid_keepsBounds : s.KeepsBounds s.withdrawBid := by
  unfold State.withdrawBid
  split
  · rename_i e f _
    refine State.KeepsBounds.trans ?_ (State.report_keepsBounds _ (e := e) (f := f) (r := .lostBid) (by simp))
    exact s.setTenure_keepsBounds e.seq false _ rfl rfl rfl
  · exact .refl s

/-- LIF with the same queues. -/
theorem State.keepsBounds_engine {l : Lif} (sends : l.sendList = s.lif.sendList) (queue : l.recvQueue = s.lif.recvQueue)
    (held : l.takeHeld = s.lif.takeHeld) : s.KeepsBounds { s with lif := l } :=
  s.keepsBounds_lif (by rw [sends]) (by rw [sends]; exact le_refl _) queue fun none => held.trans none

theorem State.mismatch_keepsBounds : s.KeepsBounds s.mismatch := s.keepsBounds_engine rfl rfl rfl

theorem State.loseBid_keepsBounds : s.KeepsBounds s.loseBid := by
  unfold State.loseBid
  split
  · exact s.withdrawBid_keepsBounds
  · exact s.mismatch_keepsBounds
  · exact .refl s

theorem State.receiveError_keepsBounds (error : RxError) (tailRemains : Bool) :
    s.KeepsBounds (s.receiveError error tailRemains) := by
  unfold State.receiveError
  split
  · exact s.keepsBounds_engine rfl rfl rfl
  · exact .refl s

theorem State.freeGiveBuf_keepsBounds (seq : Nat) : s.KeepsBounds (s.freeGiveBuf seq) := by
  unfold State.freeGiveBuf
  split
  · split
    · exact s.keepsBounds_engine rfl rfl rfl
    · exact .refl s
  · split
    · split
      · exact .shrink
      · exact s.keepsBounds_engine rfl rfl rfl
    · exact .refl s
  · exact .refl s

theorem State.settleEntry_keepsBounds (seq : Nat) (r : Report) : s.KeepsBounds (s.settleEntry seq r) := by
  have removed : s.KeepsBounds (({ s with lif := s.lif.remove seq } : State).freeGiveBuf seq) :=
    (s.keepsBounds_lif (List.length_filter_le _ _) (State.upbListed_le (t := { s with lif := s.lif.remove seq })
      List.filter_sublist) rfl id).trans (State.freeGiveBuf_keepsBounds _ _)
  cases r
  case retry =>
    refine s.keepsBounds_lif (by simp) (le_of_eq ?_) rfl id
    rw [List.filter_map, List.length_map]
    unfold State.upbListed
    congr 2
    funext e
    simp only [Function.comp_apply]
    split <;> rfl
  all_goals exact removed

/-- A frame of the computer that leaves the send list gives up its place in the inbound queue. -/
theorem State.settleEntry_load {seq : Nat} {r : Report} (leaves : r ≠ .retry) {e : SendEntry}
    (listed : e ∈ s.lif.sendList) (at0 : e.seq = seq) (ofUpb : e.owner = .upb) :
    (s.settleEntry seq r).inboundLoad < s.inboundLoad := by
  have removed : (s.settleEntry seq r) = ({ s with lif := s.lif.remove seq } : State).freeGiveBuf seq := by
    cases r
    case retry => exact absurd rfl leaves
    all_goals rfl
  have freed : (s.settleEntry seq r).inboundLoad ≤ ({ s with lif := s.lif.remove seq } : State).inboundLoad := by
    rw [removed]
    exact (State.freeGiveBuf_keepsBounds _ _).load
  refine freed.trans_lt ?_
  have fewer : ((s.lif.remove seq).sendList.filter (fun e => e.owner = .upb)).length <
      (s.lif.sendList.filter (fun e => e.owner = .upb)).length := by
    have sub := (List.filter_sublist (l := s.lif.sendList) (p := fun e => e.seq ≠ seq)).filter (fun e => e.owner = .upb)
    refine sub.length_le.lt_of_ne fun same => ?_
    have stays : e ∈ (s.lif.remove seq).sendList.filter (fun e => e.owner = .upb) := by
      rw [Lif.remove, sub.eq_of_length same]
      simpa using ⟨listed, ofUpb⟩
    simp [Lif.remove, at0] at stays
  simp only [State.inboundLoad, State.upbListed]
  simp only [Lif.remove] at fewer ⊢
  omega

theorem State.ownNotice_holdsBounds (e : SendEntry) (f : LaneFrame) : s.HoldsBounds (s.ownNotice e f) := by
  unfold State.ownNotice
  split
  · rename_i free
    simp only [Bool.and_eq_true, decide_eq_true_eq, State.upbFree_eq] at free
    exact ⟨id, fun h => h.inbound_snoc _ fun _ => by omega⟩
  · exact .refl s

theorem WithinCapacities.reportUpb {s : State} (h : WithinCapacities s) {e : SendEntry} {f : LaneFrame} {r : Report}
    (room : s.serving = false → s.inboundLoad < 32) (ofUpb : e.owner = .upb) : WithinCapacities (s.report e f r) := by
  unfold State.report
  rw [ofUpb]
  cases r
  case givenUp => exact h.inbound_snoc _ room
  all_goals exact h

/-- A frame of the computer is given up where its place in the inbound queue is free again. -/
theorem State.KeepsBounds.failedUnit {s u : State} (keeps : s.KeepsBounds u) (less : u.inboundLoad < s.inboundLoad)
    (role : u.sld = s.sld) {e : SendEntry} (ofUpb : e.owner = .upb) {f : LaneFrame} {r : Report} :
    s.HoldsBounds (u.report e f r) where
  pool h := by
    have same : (u.report e f r).lpm = u.lpm := by
      unfold State.report
      rw [ofUpb]
      simp
    exact same ▸ keeps.pool h
  capacities h := by
    refine (keeps.capacities h).reportUpb (fun uplink => less.trans_le (h.inbound ?_)) ofUpb
    rwa [← State.serving_of_role (congrArg Sld.role role)]

/-- A tenure of an entry of the send list ends: the place it gives up in the inbound queue is the one its failed unit takes. -/
theorem State.endTenure_holdsBounds {e : SendEntry} (listed : e ∈ s.lif.sendList) (f : LaneFrame) (how : TenureEnd) :
    s.HoldsBounds (s.endTenure e f how) := by
  have ended : s.KeepsBounds { s with lif := s.lif.endTenure how } := by
    cases how <;> exact s.keepsBounds_engine rfl rfl rfl
  have settled (r : Report) := ended.trans (State.settleEntry_keepsBounds _ e.seq r)
  generalize given : s.tenureReport e (TenureEnd.outcome how) = r at *
  by_cases failed : e.owner = .upb ∧ r = .givenUp
  · obtain ⟨ofUpb, rfl⟩ := failed
    have inList : e ∈ ({ s with lif := s.lif.endTenure how } : State).lif.sendList := by cases how <;> exact listed
    have less := (State.settleEntry_load _ (r := .givenUp) (by simp) inList rfl ofUpb).trans_le ended.load
    have notOwn : ∀ u : State, u.ownNotice e f = u := fun u => by simp [State.ownNotice, ofUpb]
    unfold State.endTenure
    rw [given]
    dsimp only
    split
    · rw [notOwn]
      have presented := (settled .givenUp).trans (State.presentBlocks_keepsBounds _ f)
      exact presented.failedUnit ((State.presentBlocks_keepsBounds _ f).load.trans_lt less) (by simp) ofUpb
    · exact (settled .givenUp).failedUnit less (by simp) ofUpb
  · have other : e.owner = .upb → r ≠ .givenUp := fun ofUpb given => failed ⟨ofUpb, given⟩
    unfold State.endTenure
    rw [given]
    refine State.HoldsBounds.trans ?_ (State.report_keepsBounds _ other).holds
    split
    · exact ((settled _).trans (State.presentBlocks_keepsBounds _ f)).holds.trans (State.ownNotice_holdsBounds _ e f)
    · exact (settled _).holds

theorem State.tenureRest_keepsBounds (how : TenureEnd) : s.KeepsBounds (s.tenureRest how) := by
  cases how with
  | slots _ _ => exact .refl s
  | stopped error tailRemains =>
    refine State.KeepsBounds.trans ?_ (State.receiveError_keepsBounds _ _ _)
    unfold State.stopSending
    split
    · exact s.keepsBounds_engine rfl rfl rfl
    · exact .refl s

/-! ### The starts -/

/-- Empty queues lie within their capacities. -/
theorem WithinCapacities.of_empty {s : State} (adm : s.adm = {}) (lif : s.lif = {}) (cfw : s.cfw = {}) (xch : s.xch = {})
    (ord : s.ord = {}) (upb : s.upb = {}) (marks : s.ccu.marks.length ≤ 64) (buffer : s.ccu.buffer.length ≤ 64) :
    WithinCapacities s := by
  constructor <;> simp [adm, lif, cfw, xch, ord, upb, marks, buffer, Lif.ordersHeld, Lif.textHeld, Cfw.breakCount,
    Cfw.textCount, State.upbListed]

theorem State.enterHalted_keepsBounds : s.KeepsBounds s.enterHalted := by
  refine State.KeepsBounds.trans ?_ (State.offerBeacon_keepsBounds _)
  exact .shrink

theorem State.beginStart_pool (h : PoolWithinBounds s.lpm) (straps : Straps) (warm : Bool) :
    PoolWithinBounds (s.beginStart straps warm).lpm := by
  unfold State.beginStart
  dsimp only
  split
  · exact h
  · exact (State.enterHalted_keepsBounds _).pool h

/-- A start from empty queues, of any role. -/
theorem State.beginStart_capacities {s : State} (adm : s.adm = {}) (lif : s.lif = {}) (cfw : s.cfw = {}) (xch : s.xch = {})
    (ord : s.ord = {}) (upb : s.upb = {}) (marks : s.ccu.marks.length ≤ 64) (buffer : s.ccu.buffer.length ≤ 64)
    (straps : Straps) (warm : Bool) : WithinCapacities (s.beginStart straps warm) := by
  have begun (sld : Sld) : WithinCapacities { s with sld := sld } := .of_empty adm lif cfw xch ord upb marks buffer
  unfold State.beginStart
  dsimp only
  split
  · exact begun _
  · exact (State.enterHalted_keepsBounds _).capacities (begun _)

theorem State.warmRestart_holdsBounds (straps : Straps) : s.HoldsBounds (s.warmRestart straps) := by
  have marks (h : s.ccu.marks.length ≤ 64) : s.warmState.ccu.marks.length ≤ 64 := by
    simp only [State.warmState, Ccu.stop]
    split
    · exact Ccu.putLosses_marks_length _ _ h
    · exact h
  have buffer : s.warmState.ccu.buffer = s.ccu.buffer := by
    simp only [State.warmState, Ccu.stop]
    split
    · exact Ccu.putLosses_buffer _ _
    · rfl
  exact ⟨fun _ => State.beginStart_pool _ (.empty rfl rfl) straps true, fun h =>
    State.beginStart_capacities rfl rfl rfl rfl rfl rfl (marks h.marks) (buffer ▸ h.buffer) straps true⟩

/-- The entry in tenure is in the send list. -/
theorem State.tenured_mem {s : State} {e : SendEntry} {f : LaneFrame} (tenured : s.tenured = some (e, f)) :
    e ∈ s.lif.sendList := by
  unfold State.tenured at tenured
  split at tenured
  · obtain ⟨entry, found, pair⟩ := Option.map_eq_some_iff.1 tenured
    cases pair
    exact List.mem_of_find?_eq_some found
  · cases tenured

theorem State.tenureRest_sendList (how : TenureEnd) : (s.tenureRest how).lif.sendList = s.lif.sendList := by
  unfold State.tenureRest State.receiveError State.stopSending
  (repeat' split) <;> rfl

theorem State.tenureEnds_holdsBounds (how : TenureEnd) (straps : Straps) : s.HoldsBounds (s.tenureEnds how straps) := by
  unfold State.tenureEnds
  split
  · split
    · rename_i e f tenured
      split
      · exact s.warmRestart_holdsBounds straps
      · refine (s.tenureRest_keepsBounds how).holds.trans (State.endTenure_holdsBounds _ ?_ f how)
        rw [State.tenureRest_sendList]
        exact State.tenured_mem tenured
    · exact .refl s
  · exact .refl s

/-! ### A frame of another station (R162 to R173) -/

theorem State.enterSilent_keepsBounds : s.KeepsBounds s.enterSilent := by
  have silent : s.KeepsBounds s.lifSilent := .shrink (sends := by simp [State.lifSilent])
    (listed := by simp [State.upbListed, State.lifSilent]) (queue := rfl) (held := fun _ => rfl)
  have told : s.KeepsBounds { s.lifSilent with
      ptu := { s.ptu with state := .silent, standing := none }
      ord := { s.ord with restartPending := false, restartReply := none }
      ntu := s.ntu.silence } := silent.trans .shrink
  have adm : ∀ u : State, u.KeepsBounds u.admSilent := fun u => u.keepsBounds_adm (by simp)
  have cfw : ∀ u : State, u.KeepsBounds u.cfwSilent := fun u => by
    unfold State.cfwSilent
    refine State.KeepsBounds.trans ?_ (State.keepsBounds_watchers _ (by simp))
    split
    · split
      · exact u.keepsBounds_mctl _
      · exact .refl u
    · exact .refl u
  have xch : ∀ u : State, u.KeepsBounds u.xchSilent := fun u =>
    .shrink (pool := fun h => h.foldl (fun hq => hq.unpin) _) (wants := by simp [State.xchSilent])
      (gives := by simp [State.xchSilent])
  exact ((told.trans (adm _)).trans (cfw _)).trans (xch _)

/-- A frame decided for take has a kind that its role takes, a place in the receive queue, and what its kind's test asks. -/
theorem State.decidesTake_spec {f : LaneFrame} (takes : s.decidesTake f = true) : ∃ kind, f.kind = kind.code ∧
    s.takesKind f kind = true ∧ s.lif.recvQueue.length < 8 ∧ s.kindTest f kind = true := by
  unfold State.decidesTake at takes
  split at takes
  · rename_i kind named
    simp only [Bool.and_eq_true, decide_eq_true_eq] at takes
    obtain ⟨⟨⟨⟨⟨-, taken⟩, -⟩, -⟩, room⟩, test⟩ := takes
    have code := List.find?_some named
    simp only [decide_eq_true_eq] at code
    exact ⟨kind, code.symm, taken, room, test⟩
  · cases takes

end

theorem Lif.ordersHeld_snoc {l m : Lif} {f : LaneFrame} (queue : m.recvQueue = l.recvQueue ++ [f]) :
    m.ordersHeld = l.ordersHeld + (if f.kind = FrameKind.order.code then 1 else 0) := by
  by_cases order : f.kind = FrameKind.order.code <;> simp [Lif.ordersHeld, List.filter_append, queue, order]

theorem Lif.textHeld_snoc {l m : Lif} {f : LaneFrame} (queue : m.recvQueue = l.recvQueue ++ [f]) :
    m.textHeld = l.textHeld + (if f.kind = FrameKind.order.code then 0 else f.body.length) := by
  by_cases order : f.kind = FrameKind.order.code <;> simp [Lif.textHeld, List.filter_append, queue, order]

theorem Lif.ordersHeld_cons {l m : Lif} {f : LaneFrame} (queue : m.recvQueue = f :: l.recvQueue) :
    m.ordersHeld = l.ordersHeld + (if f.kind = FrameKind.order.code then 1 else 0) := by
  by_cases order : f.kind = FrameKind.order.code <;> simp [Lif.ordersHeld, queue, order]

theorem Lif.textHeld_cons {l m : Lif} {f : LaneFrame} (queue : m.recvQueue = f :: l.recvQueue) :
    m.textHeld = (if f.kind = FrameKind.order.code then 0 else f.body.length) + l.textHeld := by
  by_cases order : f.kind = FrameKind.order.code <;> simp [Lif.textHeld, queue, order]

/-- A frame taken joins the receive queue with its reservations (R163, R171). -/
theorem WithinCapacities.takes {s : State} (h : WithinCapacities s) {f : LaneFrame} (takes : s.decidesTake f = true) :
    WithinCapacities { s with
      lif := { s.lif with takeHeld := none, recvQueue := s.lif.recvQueue ++ [f], drove := .takeSlot }
      cfw := { s.cfw with reserved := s.cfw.reserved + s.reserves f } } := by
  obtain ⟨kind, code, taken, room, test⟩ := s.decidesTake_spec takes
  have serves (serving : s.serving = true) : kind = .order ∨ kind = .consoleIn := by
    cases kind <;> simp [State.takesKind, serving] at taken ⊢
  have reserves (serving : s.serving = true) :
      s.reserves f = if f.kind = FrameKind.order.code then 0 else f.body.length := by
    rcases serves serving with rfl | rfl <;> simp [State.reserves, serving, code, FrameKind.code]
  refine { h with recvQueue := ?_, takeHeld := rfl, inbox := ?_, text := ?_, reserved := ?_, inbound := ?_ }
  · simpa using room
  · intro (serving : s.serving = true)
    have := h.inbox serving
    rw [Lif.ordersHeld_snoc (l := s.lif) rfl]
    rcases serves serving with rfl | rfl
    · simp only [State.kindTest, serving, if_true, decide_eq_true_eq] at test
      simp only [code, if_true]
      omega
    · simpa [code, FrameKind.code] using this
  · intro (serving : s.serving = true)
    have := h.text serving
    change s.cfw.textCount + (s.cfw.reserved + s.reserves f) ≤ 512
    rw [reserves serving]
    rcases serves serving with rfl | rfl
    · simpa [code] using this
    · simp [State.kindTest, State.consoleInTest, Cfw.textRoom, serving] at test
      have room := of_decide_eq_true test.2
      simp only [code, if_neg (by decide : ¬ FrameKind.consoleIn.code = FrameKind.order.code)]
      omega
  · intro (serving : s.serving = true)
    change s.cfw.reserved + s.reserves f = _
    rw [Lif.textHeld_snoc (l := s.lif) rfl, h.reserved serving, reserves serving]
  · intro (uplink : s.serving = false)
    have := h.inbound uplink
    simp only [State.kindTest, uplink, State.upbFree_eq, State.inboundLoad] at test
    simp only [List.length_append, List.length_singleton]
    change _ + _ + s.upbListed ≤ 32
    simp at test
    omega

theorem Cfw.textCount_appendText (c : Cfw) (body : Bytes) : (c.appendText body).textCount = c.textCount + body.length := by
  simp [Cfw.textCount, Cfw.appendText, List.filter_append, List.filter_map, Function.comp_def]

theorem Cfw.breakCount_appendText (c : Cfw) (body : Bytes) : (c.appendText body).breakCount = c.breakCount := by
  simp [Cfw.breakCount, Cfw.appendText, List.filter_append, List.filter_map, Function.comp_def]

section

variable {s : State} (h : WithinCapacities s) {f : LaneFrame} {rest : List LaneFrame} (queue : s.lif.recvQueue = f :: rest)
include h queue

/-- In serving role an ORDER at the head of the receive queue comes to the inbox. -/
theorem WithinCapacities.handOver_order (serving : s.serving = true) (order : f.kind = FrameKind.order.code) (o : Order) :
    WithinCapacities { s with
      lif := { s.lif with recvQueue := rest }
      ord := { s.ord with inbox := s.ord.inbox ++ [o] } } := by
  have orders := Lif.ordersHeld_cons (l := { s.lif with recvQueue := rest }) queue
  have texts := Lif.textHeld_cons (l := { s.lif with recvQueue := rest }) queue
  have fewer := h.recvQueue
  rw [if_pos order] at orders texts
  rw [queue, List.length_cons] at fewer
  dsimp only at orders texts
  refine { h with recvQueue := ?_, inbox := ?_, text := h.text, reserved := ?_, inbound := ?_ }
  · exact (Nat.le_succ _).trans fewer
  · intro _
    have := h.inbox serving
    simp only [List.length_append, List.length_singleton]
    omega
  · intro _
    have := h.reserved serving
    dsimp only
    omega
  · intro (uplink : s.serving = false)
    simp [serving] at uplink

/-- In serving role the text of a CONSOLE-IN at the head of the receive queue comes to the input queue. -/
theorem WithinCapacities.handOver_text (serving : s.serving = true) (text : f.kind ≠ FrameKind.order.code) :
    WithinCapacities { s with
      lif := { s.lif with recvQueue := rest }
      cfw := s.cfw.appendText f.body } := by
  have orders := Lif.ordersHeld_cons (l := { s.lif with recvQueue := rest }) queue
  have texts := Lif.textHeld_cons (l := { s.lif with recvQueue := rest }) queue
  have fewer := h.recvQueue
  have reserved := h.reserved serving
  rw [if_neg text] at orders texts
  rw [queue, List.length_cons] at fewer
  dsimp only at orders texts
  refine { h with recvQueue := ?_, inbox := ?_, breaks := ?_, text := ?_, reserved := ?_, inbound := ?_ }
  · exact (Nat.le_succ _).trans fewer
  · intro _
    have := h.inbox serving
    dsimp only
    omega
  · exact (Cfw.breakCount_appendText _ _).trans_le h.breaks
  · intro _
    have := h.text serving
    dsimp only
    rw [Cfw.textCount_appendText]
    change _ + (s.cfw.reserved - f.body.length) ≤ 512
    omega
  · intro _
    dsimp only
    change s.cfw.reserved - f.body.length = _
    omega
  · intro (uplink : s.serving = false)
    simp [serving] at uplink

/-- In uplink role the head of the receive queue comes to UPB's inbound queue. -/
theorem WithinCapacities.handOver_unit (uplink : s.serving = false) (u : InUnit) :
    WithinCapacities { s with
      lif := { s.lif with recvQueue := rest }
      upb := { s.upb with inq := s.upb.inq ++ [u] } } := by
  have fewer := h.recvQueue
  have inbound := h.inbound uplink
  rw [queue, List.length_cons] at fewer inbound
  have ofUplink : ∀ {p : Prop}, s.serving = true → p := fun serving => by simp [serving] at uplink
  refine { h with recvQueue := ?_, inbox := ofUplink, text := ofUplink, reserved := ofUplink, inbound := ?_ }
  · exact (Nat.le_succ _).trans fewer
  · intro _
    simp only [List.length_append, List.length_singleton]
    change _ + _ + s.upbListed ≤ 32
    omega

end

/-- The head of the receive queue comes to its owner with its reservations (R172). -/
theorem State.handOver_holdsBounds (s : State) : s.HoldsBounds s.handOver := by
  refine ⟨by simp, fun h => ?_⟩
  unfold State.handOver
  split
  · rename_i f rest queue
    dsimp only
    split
    · rename_i serving
      split
      · rename_i order
        exact h.handOver_order queue serving order _
      · rename_i text
        exact h.handOver_text queue serving text
    · rename_i uplink
      exact h.handOver_unit queue (by simpa using uplink) _
  · exact h

theorem State.handOvers_holdsBounds (n : Nat) (s : State) : s.HoldsBounds (State.handOvers n s) := by
  induction n generalizing s with
  | zero => exact .refl s
  | succ n ih => exact s.handOver_holdsBounds.trans (ih _)

/-- A frame completes: held for take and placed at once, or not taken (R163, R171). -/
theorem State.holdTake_placeTake_holdsBounds (s : State) (f : LaneFrame) : s.HoldsBounds (s.holdTake f).placeTake := by
  refine ⟨by simp, fun h => ?_⟩
  unfold State.holdTake
  split
  · rename_i takes
    exact h.takes takes
  · simp only [State.placeTake, h.takeHeld]
    exact { h with takeHeld := rfl }

theorem State.holdTake_undoTake_holdsBounds (s : State) (f : LaneFrame) : s.HoldsBounds (s.holdTake f).undoTake := by
  refine ⟨by simp, fun h => ?_⟩
  unfold State.holdTake
  split
  · have released : s.cfw.reserved + s.reserves f - s.reserves f = s.cfw.reserved := Nat.add_sub_cancel _ _
    simp only [State.undoTake]
    refine { h with takeHeld := rfl, text := ?_, reserved := ?_ }
    · exact fun serving => (congrArg (s.cfw.textCount + ·) released).trans_le (h.text serving)
    · exact fun serving => released.trans (h.reserved serving)
  · simp only [State.undoTake, h.takeHeld]
    exact { h with takeHeld := rfl }

theorem State.frameComplete_holdsBounds (s : State) (f : LaneFrame) (handovers : Nat) :
    s.HoldsBounds (s.frameComplete f handovers) := by
  unfold State.frameComplete
  split
  · split
    · exact s.enterSilent_keepsBounds.holds
    · split
      · exact .refl s
      · have passed : s.KeepsBounds { s with lif := s.lif.passed } := s.keepsBounds_engine rfl rfl rfl
        exact ((passed.holds.trans (State.holdTake_placeTake_holdsBounds _ f)).trans
          (State.present_keepsBounds _ f).holds).trans (State.handOvers_holdsBounds handovers _)
  · exact .refl s

theorem State.frameSpoiled_holdsBounds (s : State) (f : LaneFrame) : s.HoldsBounds (s.frameSpoiled f) := by
  unfold State.frameSpoiled
  split
  · split
    · exact s.enterSilent_keepsBounds.holds
    · split
      · exact .refl s
      · have passed : s.KeepsBounds { s with lif := s.lif.passed } := s.keepsBounds_engine rfl rfl rfl
        exact passed.holds.trans (State.holdTake_undoTake_holdsBounds _ f)
  · exact .refl s

end Sys2Proof.Machine


/-! ## The bounds over every command and over the end of a step -/

namespace Sys2Proof.Machine

section

variable (s : State)

/-! ### The console -/

/-- The input queue as it was or shorter, with its reservations. -/
theorem State.keepsBounds_input {c : Cfw} (watchers : c.watchers = s.cfw.watchers) (queue : c.queue.Sublist s.cfw.queue)
    (reserved : c.reserved = s.cfw.reserved) : s.KeepsBounds { s with cfw := c } :=
  .shrink (watchers := by simp [watchers]) (breaks := ((queue.filter _).length_le).trans)
    (text := (queue.filter _).length_le) (reserved := reserved)

theorem State.textSent_keepsBounds : s.KeepsBounds s.textSent := by
  unfold State.textSent
  split
  · exact s.keepsBounds_input rfl (List.drop_sublist _ _) rfl
  · exact .refl s

theorem State.breakOutOver_keepsBounds : s.KeepsBounds s.breakOutOver := by
  unfold State.breakOutOver
  split
  · exact (s.keepsBounds_now _).trans (State.keepsBounds_input _ rfl (List.drop_sublist _ _) rfl)
  · exact .refl s

theorem State.guardOver_keepsBounds : s.KeepsBounds s.guardOver := by
  unfold State.guardOver
  split
  · exact s.keepsBounds_input rfl (.refl _) rfl
  · exact .refl s

theorem State.startInput_keepsBounds : s.KeepsBounds s.startInput := by
  unfold State.startInput
  split
  · split
    · exact s.keepsBounds_input rfl (.refl _) rfl
    · exact (s.mark_keepsBounds _ _).trans (State.keepsBounds_input _ rfl (.refl _) rfl)
    · exact .refl s
  · exact .refl s

theorem State.keepsBounds_ccu {c : Ccu} (marks : s.ccu.marks.length ≤ 64 → c.marks.length ≤ 64)
    (buffer : s.ccu.buffer.length ≤ 64 → c.buffer.length ≤ 64) : s.KeepsBounds { s with ccu := c } :=
  .shrink (marks := marks) (buffer := buffer)

theorem State.goodByte_keepsBounds (b : Byte) : s.KeepsBounds (s.goodByte b) := by
  unfold State.goodByte
  split
  · rename_i room
    have captured : s.KeepsBounds { s with ccu := (s.ccu.putLosses s.now).capture b } :=
      s.keepsBounds_ccu
        (fun h => ((List.dropWhile_sublist _).length_le).trans (Ccu.putLosses_marks_length _ _ h))
        (fun _ => by
          simp only [Ccu.capture, Ccu.putLosses_buffer, List.length_append, List.length_singleton]
          omega)
    have advanced := captured.trans (State.keepsBounds_watchers _ (out := s.cfw.out) (turn := s.cfw.turn)
      (ws := s.cfw.watchers.map (fun w => w.advance ((s.ccu.putLosses s.now).capture b).oldest)) (by simp))
    exact advanced.trans (State.deliverMatches_powerMoves _).bounds
  · exact s.keepsBounds_ccu id id

theorem State.captureStored_keepsBounds (n : Nat) : s.KeepsBounds (s.captureStored n) := by
  have stored := (s.keepsBounds_sdram (Memory.writeRing s.sdram s.ccu.ringSize s.ccu.stored (s.ccu.buffer.take n))).trans
    (State.keepsBounds_ccu _ (c := { s.ccu with buffer := s.ccu.buffer.drop n }) id
      ((List.drop_sublist n s.ccu.buffer).length_le).trans)
  exact stored.trans (State.keepsBounds_watchers _ (by simp))

/-! ### Watchers -/

theorem Cfw.setWatcher_length (c : Cfw) (w : Watcher) : (c.setWatcher w).watchers.length = c.watchers.length := by
  simp [Cfw.setWatcher]

theorem State.buildFor_keepsBounds {c : Cfw} (watchers : c.watchers = s.cfw.watchers) (queue : c.queue = s.cfw.queue)
    (reserved : c.reserved = s.cfw.reserved) (w : Watcher) (first finish : Nat) (data : Bytes) :
    s.KeepsBounds { s with cfw := c.buildFor s.ccu s.now w first finish data } := by
  unfold Cfw.buildFor
  split
  · refine .shrink (watchers := ?_) (breaks := ?_) (text := ?_) (reserved := reserved)
    · simp [Cfw.setWatcher_length, watchers]
    · simp [Cfw.setWatcher, Cfw.breakCount, queue]
    · simp [Cfw.setWatcher, Cfw.textCount, queue]
  · exact s.keepsBounds_input watchers (by rw [queue]) reserved

theorem State.serveWatcher_keepsBounds : s.KeepsBounds s.serveWatcher := by
  unfold State.serveWatcher
  split
  · split
    · dsimp only
      split
      · exact .shrink (breaks := id) (text := le_refl _)
      · refine s.buildFor_keepsBounds ?_ ?_ ?_ _ _ _ _ <;> rfl
    · exact .refl s
  · exact .refl s

theorem State.forwardRead_keepsBounds (first finish : Nat) : s.KeepsBounds (s.forwardRead first finish) := by
  unfold State.forwardRead
  split
  · split
    · split
      · exact s.buildFor_keepsBounds rfl rfl rfl _ _ _ _
      · exact s.clearOut_keepsBounds
    · exact .refl s
  · exact .refl s

theorem State.actWatch_keepsBounds (station mode offset : Nat) : s.KeepsBounds (s.actWatch station mode offset).2.2 := by
  unfold State.actWatch
  split
  · dsimp only
    split
    · exact (s.endOut_keepsBounds station).trans (State.keepsBounds_watchers _ (by simp))
    · split
      · exact s.keepsBounds_watchers fun _ => by
          simp
          omega
      · exact .refl s
  · exact .refl s

theorem State.actUnwatch_keepsBounds (station : Nat) : s.KeepsBounds (s.actUnwatch station).2 := by
  unfold State.actUnwatch
  split
  · exact s.dropWatcher_keepsBounds station
  · exact .refl s

theorem State.actBreak_keepsBounds (station : Nat) : s.KeepsBounds (s.actBreak station).2 := by
  unfold State.actBreak
  split
  · rename_i room
    refine .shrink (breaks := fun _ => ?_) (text := ?_)
    · simp only [Cfw.breakCount] at room
      simp [Cfw.breakCount, List.filter_append]
      omega
    · simp [Cfw.textCount, List.filter_append]
  · exact .refl s

/-! ### Other orders -/

theorem State.keepsBounds_ord {o : Ord} (inbox : o.inbox.length ≤ s.ord.inbox.length) : s.KeepsBounds { s with ord := o } :=
  .shrink (inbox := inbox)

theorem State.actClaim_keepsBounds (x : Nat) (seize : Bool) : s.KeepsBounds (s.actClaim x seize).2 := by
  have taken : s.KeepsBounds (s.takeClaim x) := s.keepsBounds_ord (le_refl _)
  unfold State.actClaim
  split
  · exact taken
  · split
    · exact .refl s
    · split
      · exact taken.trans (State.raise_keepsBounds _ _ _)
      · exact .refl s

theorem State.actReleaseClaim_keepsBounds (x : Nat) : s.KeepsBounds (s.actReleaseClaim x).2 := by
  unfold State.actReleaseClaim
  split
  · exact s.keepsBounds_ord (le_refl _)
  · exact .refl s

theorem State.actWake_keepsBounds : s.KeepsBounds s.actWake.2 := by
  unfold State.actWake
  split
  · exact s.keepsBounds_mfn _
  · exact .refl s

theorem State.actArm_keepsBounds (timeout : Nat) (action : FaultAction) (guard : Bool) (allowance : Nat) :
    s.KeepsBounds (s.actArm timeout action guard allowance).2 := .shrink

theorem State.actDisarm_keepsBounds : s.KeepsBounds s.actDisarm.2 := .shrink

theorem State.actRetime_keepsBounds (timeout : Nat) : s.KeepsBounds (s.actRetime timeout).2 := .shrink

theorem State.actAttach_keepsBounds (image gen capacity : Nat) (mode : Mode) (bootOnce : Bool) :
    s.KeepsBounds (s.actAttach image gen capacity mode bootOnce).2 := by
  unfold State.actAttach
  split
  · exact .refl s
  · split
    · exact .refl s
    · exact ((s.keepsBounds_mfn _).trans (State.mark_keepsBounds _ _ _)).trans (State.raise_keepsBounds _ _ _)

theorem State.actDetach_keepsBounds : s.KeepsBounds s.actDetach.2 := by
  unfold State.actDetach
  split
  · exact s.detachTrigger_keepsBounds _
  · exact .refl s

theorem State.holdReply_keepsBounds (o : Order) (status : OrderStatus) (given : Bytes) (restart : Bool) :
    s.KeepsBounds (s.holdReply o status given restart) := by
  unfold State.holdReply
  refine s.keepsBounds_ord ?_
  dsimp only
  split
  · rename_i inbox
    simp [inbox]
  · simp

/-! ### The uplink line -/

theorem State.keepsBounds_upb {u : Upb} (outbound : s.upb.outq.length ≤ 16 → u.outq.length ≤ 16)
    (inbound : u.inq.length ≤ s.upb.inq.length) : s.KeepsBounds { s with upb := u } :=
  .shrink (outbound := outbound) (inbound := inbound)

theorem State.takeUnit_keepsBounds (dest kind : Byte) (body : Bytes) : s.KeepsBounds (s.takeUnit dest kind body) := by
  unfold State.takeUnit
  split
  · split
    · rename_i test
      simp only [State.unitTest, Bool.and_eq_true, decide_eq_true_eq] at test
      obtain ⟨-, room⟩ := test
      exact s.keepsBounds_upb (fun _ => by simpa using room) (le_refl _)
    · exact .refl s
  · exact .refl s

theorem State.hunt_keepsBounds (ended : Bool) (n : Nat) (bytes : Bytes) : s.KeepsBounds (State.hunt ended n bytes s) := by
  have ended0 : ∀ u : State, u.KeepsBounds { u with upb := { u.upb with rx := [] } } := fun u =>
    u.keepsBounds_upb id (le_refl _)
  induction n generalizing s bytes with
  | zero => exact ended0 s
  | succ n ih =>
    cases bytes with
    | nil => exact ended0 s
    | cons b bs =>
      unfold State.hunt
      split
      · split
        · split
          · exact ih s bs
          · exact s.keepsBounds_upb id (le_refl _)
        · exact ih s bs
        · exact (s.takeUnit_keepsBounds _ _ _).trans (ih _ _)
      · exact ih s bs

theorem State.uplinkChars_keepsBounds (bytes : Bytes) (ended : Bool) : s.KeepsBounds (s.uplinkChars bytes ended) := by
  unfold State.uplinkChars
  split
  · exact s.hunt_keepsBounds _ _ _
  · exact .refl s

theorem State.unitSent_keepsBounds : s.KeepsBounds s.unitSent := by
  unfold State.unitSent
  split
  · exact s.keepsBounds_upb id (List.drop_sublist _ _).length_le
  · exact .refl s

theorem State.startUnit_keepsBounds : s.KeepsBounds s.startUnit := by
  unfold State.startUnit
  split
  · split
    · exact s.keepsBounds_upb id (le_refl _)
    · exact .refl s
  · exact .refl s

/-! ### The starts -/

theorem State.keepsBounds_sld {d : Sld} (role : d.role = s.sld.role) : s.KeepsBounds { s with sld := d } :=
  .shrink (role := role)

theorem State.attemptComplete_keepsBounds (bytes : Bytes) : s.KeepsBounds (s.attemptComplete bytes) := by
  have driven : s.KeepsBounds (s.drivesBus attemptBus) := s.keepsBounds_sld rfl
  unfold State.attemptComplete
  split
  · split
    · dsimp only
      split
      · exact s.keepsBounds_sld rfl
      · exact driven.trans (State.enterHalted_keepsBounds _)
    · exact .refl s
  · exact .refl s

theorem State.attemptFailed_keepsBounds : s.KeepsBounds s.attemptFailed := by
  have driven (items : List BusItem) : s.KeepsBounds (({ s with fresh := s.fresh + 1 } : State).drivesBus items) :=
    .shrink (role := rfl)
  unfold State.attemptFailed
  split
  · dsimp only
    split
    · exact (driven _).trans (State.keepsBounds_sld _ rfl)
    · exact (driven _).trans (State.enterHalted_keepsBounds _)
  · exact .refl s

theorem State.retryAttempt_keepsBounds : s.KeepsBounds s.retryAttempt := by
  unfold State.retryAttempt
  split
  · exact (s.keepsBounds_now _).trans (State.keepsBounds_sld _ rfl)
  · exact .refl s

theorem State.handOverSettings_keepsBounds : s.KeepsBounds s.handOverSettings := by
  unfold State.handOverSettings
  split
  · split
    · exact .shrink (role := rfl)
    · exact .refl s
  · exact .refl s

theorem State.enterListen_keepsBounds (r : Settings) : s.KeepsBounds (s.enterListen r) := by
  have marks (warm kept : Bool) (ring : Nat) (h : s.ccu.marks.length ≤ 64) :
      (s.ccu.start s.now warm kept ring).marks.length ≤ 64 := by
    unfold Ccu.start
    dsimp only
    refine Ccu.putMark_marks_length _ _ _ _ ?_
    split
    · exact h
    · simp
  have buffer (warm kept : Bool) (ring : Nat) (h : s.ccu.buffer.length ≤ 64) :
      (s.ccu.start s.now warm kept ring).buffer.length ≤ 64 := by
    unfold Ccu.start
    simp only [Ccu.putMark]
    split
    · exact h
    · simp
  unfold State.enterListen
  dsimp only
  refine (State.KeepsBounds.trans ?_ (State.raise_keepsBounds _ _ _)).trans (State.payFault_powerMoves _).bounds
  refine .shrink (pool := fun _ => .empty rfl rfl) (marks := ?_) (buffer := ?_)
  · dsimp only
    split
    · exact marks _ _ _
    · simp
  · dsimp only
    split
    · exact buffer _ _ _
    · simp

theorem State.memoryUp_keepsBounds : s.KeepsBounds s.memoryUp := by
  unfold State.memoryUp
  split
  · split
    · exact s.enterListen_keepsBounds _
    · exact .refl s
  · exact .refl s

theorem State.deriveFromPin_keepsBounds (pinHigh : Bool) : s.KeepsBounds (s.deriveFromPin pinHigh) := by
  unfold State.deriveFromPin
  split
  · split
    · exact (State.derivePsq_powerMoves _ _).bounds
    · exact .refl s
  · exact .refl s

/-! ### Timers of the members -/

theorem State.holdLimitReached_keepsBounds (x : Nat) : s.KeepsBounds (s.holdLimitReached x) := by
  unfold State.holdLimitReached
  split
  · rename_i start _
    have expired : s.KeepsBounds ((s.timeTo (after start s.holdLimit)).expire x) :=
      (s.keepsBounds_now _).trans (State.keepsBounds_adm _ id)
    have released : s.KeepsBounds (((s.timeTo (after start s.holdLimit)).expire x).admChange (fun a => a.release x)) := by
      refine expired.trans (State.admChange_keepsBounds _ ?_)
      unfold Adm.release
      split <;> rfl
    dsimp only
    split
    · exact released.trans (State.keepsBounds_psq _ _)
    · exact released
  · exact .refl s

theorem State.expiredOver_keepsBounds (x : Nat) : s.KeepsBounds (s.expiredOver x) := by
  unfold State.expiredOver
  split
  · exact (s.keepsBounds_now _).trans (State.keepsBounds_adm _ id)
  · exact .refl s

theorem State.bidBegin_keepsBounds : s.KeepsBounds s.bidBegin := by
  unfold State.bidBegin
  split
  · split
    · split
      · exact s.beginTenure_keepsBounds _ _
      · exact .refl s
    · exact .refl s
  · exact .refl s

/-! ### The end of a step -/

theorem State.refuseSilent_keepsBounds : s.KeepsBounds s.refuseSilent := by
  unfold State.refuseSilent
  split
  · refine .shrink (inbox := ?_) (wants := by simp)
    dsimp only
    split
    · exact (List.drop_sublist _ _).length_le
    · exact le_refl _
  · exact .refl s

theorem State.askNotice_keepsBounds : s.KeepsBounds s.askNotice := by
  unfold State.askNotice
  split
  · exact s.keepsBounds_ntu _
  · exact .refl s

theorem State.askGiveRead_keepsBounds : s.KeepsBounds s.askGiveRead := by
  unfold State.askGiveRead
  split
  · split
    · split
      · exact .shrink
      · exact .refl s
    · exact .refl s
  · exact .refl s

/-- LIF takes an offer where the list has a place for its class, and UPB's inbound queue one for a delivery failure. -/
theorem State.withOffer_holdsBounds {cls : Nat} {dest : Byte} {payload : Payload} (takes : s.TakesOffer cls dest payload)
    (kind : FrameKind) {owner : Owner} (upb : owner = .upb → 1 ≤ s.upbFree) (fresh : Nat) :
    s.HoldsBounds { s with fresh := fresh, lif := s.lif.withOffer cls dest kind payload owner } := by
  refine ⟨id, fun h => { h with sendList := ?_, inbound := ?_ }⟩
  · have room := takes.2.1
    simp only [Lif.withOffer, List.length_append, List.length_singleton]
    split at room <;> omega
  · intro (uplink : s.serving = false)
    have load : s.inboundLoad ≤ 32 := h.inbound uplink
    simp only [State.upbListed, Lif.withOffer, List.filter_append, List.length_append]
    simp only [State.inboundLoad, State.upbListed] at load
    by_cases ofUpb : owner = .upb
    · have free := upb ofUpb
      simp only [State.upbFree_eq, State.inboundLoad, State.upbListed] at free
      simp [ofUpb]
      omega
    · simp [ofUpb]
      omega

theorem State.OfferListed.holdsBounds {t : State} (listed : s.OfferListed t) : s.HoldsBounds t := by
  cases listed with
  | adm before rest f kind body fresh list _ _ _ takes =>
    refine (s.withOffer_holdsBounds takes kind (owner := .adm) (by simp) fresh).trans
      (State.keepsBounds_adm _ ?_).holds
    simp [list]
  | ptu fresh _ takes =>
    exact (s.withOffer_holdsBounds takes .beacon (owner := .ptu) (by simp) fresh).trans (State.keepsBounds_ptu _ _).holds
  | ord o rest reply restart fresh inbox _ takes =>
    refine (s.withOffer_holdsBounds takes .reply (owner := .ord) (by simp) fresh).trans (State.keepsBounds_ord _ ?_).holds
    simp [inbox]
  | ntu fresh _ takes =>
    exact (s.withOffer_holdsBounds takes .notice (owner := .ntu) (by simp) fresh).trans (State.keepsBounds_ntu _ _).holds
  | cfw o fresh _ _ takes =>
    exact (s.withOffer_holdsBounds takes .consoleOut (owner := .cfw) (by simp) fresh).trans
      (State.keepsBounds_watchers _ id).holds
  | give before rest g fresh list _ _ takes =>
    refine (s.withOffer_holdsBounds takes .lineGive (owner := .xchGive) (by simp) fresh).trans
      (State.keepsBounds_gives _ id ?_).holds
    simp [list]
  | want before rest w fresh _ list _ _ _ takes =>
    exact (s.withOffer_holdsBounds takes .lineWant (owner := .xchWant) (by simp) fresh).trans
      (State.keepsBounds_wants _ (by simp)).holds
  | upb f rest fresh _ _ _ free list takes =>
    refine (s.withOffer_holdsBounds takes f.kind (owner := .upb) (fun _ => free) fresh).trans
      (State.KeepsBounds.holds ?_)
    refine State.keepsBounds_upb _ (fun fits => ?_) (le_refl _)
    rw [list] at fits
    exact (Nat.le_succ _).trans fits

theorem State.takeOffer_holdsBounds : s.HoldsBounds s.takeOffer := by
  by_cases some : s.offers = []
  · have none : s.takeOffer = s := by simp [State.takeOffer, some]
    rw [none]
    exact .refl s
  · exact (s.takeOffer_listed some).holdsBounds

theorem State.takeOffers_holdsBounds (n : Nat) : s.HoldsBounds (State.takeOffers n s) := by
  induction n generalizing s with
  | zero => exact .refl s
  | succ n ih => exact s.takeOffer_holdsBounds.trans (ih _)

theorem State.askCapture_keepsBounds : s.KeepsBounds s.askCapture := s.keepsBounds_mctl _

theorem State.enterSelfRefresh_keepsBounds : s.KeepsBounds s.enterSelfRefresh := s.keepsBounds_mctl _

theorem State.settle_holdsBounds : s.HoldsBounds (settle s) := by
  rw [settle_eq_run]
  have worked := ((((s.mediaAdvance_keepsBounds.trans (State.detachComplete_keepsBounds _)).trans
    (State.askCapture_keepsBounds _)).trans (State.startInput_keepsBounds _)).trans (State.serveWatcher_keepsBounds _)).trans
    (State.enterSelfRefresh_keepsBounds _)
  have asked := worked.trans ((State.askNotice_keepsBounds _).trans (State.refuseSilent_keepsBounds _))
  exact (asked.holds.trans (State.takeOffers_holdsBounds _ 25)).trans
    ((State.askGiveRead_keepsBounds _).trans (State.startUnit_keepsBounds _)).holds

theorem State.keepsBounds_pins (p : Pins) : s.KeepsBounds { s with pins := p } := .shrink

theorem State.tick_keepsBounds : s.KeepsBounds s.tick := by
  unfold State.tick
  split
  · exact .refl s
  · exact .shrink

end

/-! ### Every command -/

theorem effect_holdsBounds (c : Instr) (s : State) : s.HoldsBounds (c.effect s) := by
  have timed : ∀ (timer : Option Time) (event : State → State), (∀ u : State, u.KeepsBounds (event u)) →
      s.HoldsBounds (s.expires timer event) := fun timer event acts =>
    (State.expires_keeps (P := s.KeepsBounds) timer (.refl s) s.keepsBounds_now fun u hu => hu.trans (acts u)).holds
  have power : ∀ (timer : Option Time) (event : State → State), (∀ u : State, u.PowerMoves (event u)) →
      s.HoldsBounds (s.expires timer event) := fun timer event moves => timed timer event fun u => (moves u).bounds
  have received : ∀ (rx : RxState) (event : State → State), s.KeepsBounds (event s) → s.HoldsBounds (s.inRx rx event) :=
    fun rx event acts => (State.inRx_keeps (P := s.KeepsBounds) rx (.refl s) acts).holds
  have decided : ∀ (row : OrderRow) (block : Order → State → Answer), (∀ o, s.KeepsBounds (block o s).state) →
      s.HoldsBounds (s.decide row block) := fun row block acts =>
    (State.decide_keeps (P := s.KeepsBounds) (.refl s) acts
      fun u o status given restart hu => hu.trans (u.holdReply_keepsBounds o status given restart)).holds
  have ordered : ∀ (row : OrderRow) (act : Order → State → OrderStatus × State), (∀ o, s.KeepsBounds (act o s).2) →
      s.HoldsBounds (s.decide row fun o u => .plain (act o u)) := fun row act keeps => decided row _ keeps
  have served : ∀ (isWrite : Bool) (range : Option (Nat × Nat)) (execute : State → State),
      (∀ u : State, u.KeepsBounds (execute u)) → s.HoldsBounds (s.serverRequest isWrite range execute) :=
    fun isWrite range execute acts => (State.serverRequest_keeps (P := s.KeepsBounds) isWrite range (.refl s)
      (fun _ _ _ => s.keepsBounds_mfn _) fun u hu => hu.trans (acts u)).holds
  have resumed : ∀ u : State, u.KeepsBounds u.resumePort := fun u => by
    unfold State.resumePort
    split
    · exact u.keepsBounds_mfn _
    · exact .refl u
  have pulse : ∀ u : State, u.KeepsBounds u.releasePress := fun u => u.keepsBounds_psq _
  cases c <;> dsimp only [Instr.effect]
  case coldStart | rstnAsserted => exact .refl s
  case eepromAttemptComplete bytes => exact (s.attemptComplete_keepsBounds bytes).holds
  case eepromAttemptFailed => exact s.attemptFailed_keepsBounds.holds
  case eepromRetryWaitExpiry => exact s.retryAttempt_keepsBounds.holds
  case settingRecordHandover => exact s.handOverSettings_keepsBounds.holds
  case memoryBringupComplete => exact s.memoryUp_keepsBounds.holds
  case psqStateDerived pinHigh => exact (s.deriveFromPin_keepsBounds pinHigh).holds
  case presenceBoundary => exact s.boundary_keepsBounds.holds
  case laneBidBegin => exact s.bidBegin_keepsBounds.holds
  case bidLost => exact s.loseBid_keepsBounds.holds
  case senderTenureEnd how straps => exact s.tenureEnds_holdsBounds how straps
  case receiveError error tailRemains => exact (s.receiveError_keepsBounds error tailRemains).holds
  case frameCompleteUnspoiled frame handovers => exact s.frameComplete_holdsBounds frame handovers
  case receivedFrameSpoiled frame => exact s.frameSpoiled_holdsBounds frame
  case entryHoldLimit station => exact (s.holdLimitReached_keepsBounds _).holds
  case expiredSetTimeout station => exact (s.expiredOver_keepsBounds _).holds
  case laneSyncQuiet =>
    unfold State.syncQuiet
    split
    · refine State.KeepsBounds.holds ?_
      exact s.keepsBounds_engine rfl rfl rfl
    · exact .refl s
  case sitOutClear =>
    unfold State.clearSitOut
    split
    · refine State.KeepsBounds.holds ?_
      exact s.keepsBounds_engine rfl rfl rfl
    · exact .refl s
  case duplicateStationNumber =>
    unfold State.duplicate
    split
    · exact s.enterSilent_keepsBounds.holds
    · exact .refl s
  case arbiterGrant =>
    unfold State.arbiterGrants
    split
    · exact (s.keepsBounds_mctl _).holds
    · exact .refl s
  case refreshIntervalExpiry =>
    unfold State.refreshOwed
    split
    · exact (s.keepsBounds_mctl _).holds
    · exact .refl s
  case refreshGiven =>
    unfold State.refreshGiven
    split
    · split
      · exact (s.keepsBounds_mctl _).holds
      · split
        · exact (s.keepsBounds_mctl _).holds
        · exact .refl s
    · exact .refl s
  case captureWriteComplete =>
    split
    · exact (s.requestOver_keepsBounds.trans (State.captureStored_keepsBounds _ _)).holds
    · exact .refl s
  case consoleForwardReadComplete =>
    split
    · split
      · exact (s.requestOver_keepsBounds.trans (State.forwardRead_keepsBounds _ _ _)).holds
      · exact s.requestOver_keepsBounds.holds
    · exact .refl s
  case laneReceiveWriteComplete =>
    split
    · have stored (m : Memory) := s.requestOver_keepsBounds.trans (State.keepsBounds_sdram _ m)
      split
      · exact ((stored _).trans (State.fillEnded_keepsBounds _ _)).holds
      · exact (stored _).holds
    · exact .refl s
  case mediaTransferComplete =>
    split
    · exact (s.mediaDone_keepsBounds _ _).holds
    · exact .refl s
  case laneSendReadComplete =>
    split
    · split
      · refine (s.requestOver_keepsBounds.trans ?_).holds
        exact State.keepsBounds_engine _ rfl rfl rfl
      · exact s.requestOver_keepsBounds.holds
    · exact .refl s
  case pgoodActive =>
    split
    · exact ((s.keepsBounds_psq _).trans (State.pgoodRises_powerMoves _).bounds).holds
    · exact .refl s
  case pgoodInactive =>
    split
    · exact ((s.keepsBounds_psq _).trans (State.pgoodFalls_powerMoves _).bounds).holds
    · exact .refl s
  case startTimerExpiry => exact power _ _ State.startFailed_powerMoves
  case settleTimerExpiry => exact power _ _ State.settled_powerMoves
  case youngTimerExpiry => exact power _ _ State.youngOver_powerMoves
  case graceTimerExpiry => exact power _ _ State.graceOver_powerMoves
  case forceTimerExpiry => exact power _ _ State.forceOver_powerMoves
  case restTimerExpiry => exact power _ _ State.restOver_powerMoves
  case pressPulseEnd | longPressEnd => exact timed _ _ pulse
  case resetPulseEnd => exact timed _ _ fun u => u.keepsBounds_psq _
  case consoleLineIdle | consoleFramingError | consoleBreakStart => exact received _ _ (s.keepsBounds_ccu id id)
  case consoleGoodByte b => exact received _ _ (s.goodByte_keepsBounds b)
  case consoleBreakEnd => exact received _ _ ((s.mark_keepsBounds _ _).trans (State.keepsBounds_ccu _ id id))
  case consoleTextByteSent => exact s.textSent_keepsBounds.holds
  case consoleBreakOutEnd => exact s.breakOutOver_keepsBounds.holds
  case consoleBreakGuardEnd => exact s.guardOver_keepsBounds.holds
  case watcherWaitExpiry => exact timed _ _ fun u => .refl u
  case watcherPauseExpiry => exact timed _ _ fun u => u.keepsBounds_watchers (by simp)
  case watchdogDeadlineExpiry =>
    refine timed _ _ fun u => ?_
    unfold State.deadlineReached
    split
    · exact (State.watchdogExpiry_powerMoves _ _).bounds
    · exact .refl u
  case wantTimerExpiry =>
    split
    · exact timed _ _ fun u => u.wantExpired_keepsBounds _
    · exact .refl s
  case noticePauseExpiry => exact timed _ _ fun u => u.keepsBounds_ntu _
  case claim => exact ordered _ _ fun o => s.actClaim_keepsBounds _ _
  case releaseClaim => exact ordered _ _ fun o => s.actReleaseClaim_keepsBounds _
  case status => exact decided _ _ fun _ => .shrink
  case watch => exact decided _ _ fun o => s.actWatch_keepsBounds _ _ _
  case unwatch => exact ordered _ _ fun o => s.actUnwatch_keepsBounds _
  case powerOn => exact ordered _ _ fun _ => (State.actOn_powerMoves s).bounds
  case powerOffSoft | powerOffSoftThenHard => exact ordered _ _ fun _ => (State.actOffSoft_powerMoves s _).bounds
  case powerOffHard => exact ordered _ _ fun _ => (State.actOffHard_powerMoves s).bounds
  case powerReset => exact ordered _ _ fun _ => (State.actReset_powerMoves s _).bounds
  case powerCycle => exact ordered _ _ fun _ => (State.actCycle_powerMoves s).bounds
  case powerFeedCut => exact ordered _ _ fun _ => (State.actFeedCut_powerMoves s).bounds
  case powerFeedRestore => exact ordered _ _ fun _ => (State.actFeedRestore_powerMoves s).bounds
  case powerWake => exact ordered _ _ fun _ => s.actWake_keepsBounds
  case watchdogArm => exact ordered _ _ fun o => s.actArm_keepsBounds _ _ _ _
  case watchdogDisarm => exact ordered _ _ fun _ => s.actDisarm_keepsBounds
  case watchdogRetime => exact ordered _ _ fun o => s.actRetime_keepsBounds _
  case attach => exact ordered _ _ fun o => s.actAttach_keepsBounds _ _ _ _ _
  case detach => exact ordered _ _ fun _ => s.actDetach_keepsBounds
  case breakOrder => exact ordered _ _ fun o => s.actBreak_keepsBounds _
  case restart => exact decided _ _ fun _ => s.keepsBounds_ord (le_refl _)
  case orderNameInvalid => exact decided _ _ fun _ => .refl s
  case drainTimerExpiry => exact timed _ _ State.closeRequest_keepsBounds
  case read | write =>
    split
    · exact served _ _ _ fun u => u.beginRequest_keepsBounds _ _ _
    · exact .refl s
  case writeStepDataReceived =>
    split
    · exact (s.stepData_keepsBounds _).holds
    · exact .refl s
  case capacity | ready => exact served _ _ _ fun u => u.keepsBounds_mfn _
  case eject => exact served _ _ _ fun u => (u.keepsBounds_mfn _).trans (State.detachTrigger_keepsBounds _ _)
  case usbStandardRequest =>
    split
    · exact (s.keepsBounds_mfn _).holds
    · exact .refl s
  case usbSetConfiguration | usbBusIdleSuspend =>
    split
    · exact (s.keepsBounds_mfn _).holds
    · exact .refl s
  case usbClearConfiguration | usbBusReset =>
    split
    · exact ((s.keepsBounds_mfn _).trans (State.closeRequest_keepsBounds _)).holds
    · exact .refl s
  case usbBusActivityResume => exact (resumed s).holds
  case usbResumeSignallingEnd => exact timed _ _ fun u => (u.keepsBounds_mfn _).trans (resumed _)
  case usbSetRemoteWake | usbClearRemoteWake =>
    unfold State.setRemoteWake
    split
    · exact (s.keepsBounds_mfn _).holds
    · exact .refl s
  case vbsenseHigh =>
    have high : s.KeepsBounds (s.setVbsense true) := s.keepsBounds_pins _
    unfold State.vbusRises
    split
    · exact (high.trans (State.keepsBounds_mfn _ _)).holds
    · exact high.holds
  case vbsenseLow =>
    have low : s.KeepsBounds (s.setVbsense false) := s.keepsBounds_pins _
    exact ((low.trans (State.keepsBounds_mfn _ _)).trans (State.closeRequest_keepsBounds _)).holds
  case uplinkUnitReceived | uplinkCharacterTimeout | uplinkCharacterFramingError => exact (s.uplinkChars_keepsBounds _ _).holds
  case uplinkUnitSent => exact s.unitSent_keepsBounds.holds
  case urtsAsserted | urtsDeasserted => exact (s.keepsBounds_pins _).holds

/-! ### Every step -/

/-- Every block's state after a reset holds the bounds. -/
theorem coldState_bounds (s : State) : PoolWithinBounds s.coldState.lpm ∧ WithinCapacities s.coldState :=
  ⟨.empty rfl rfl, .of_empty rfl rfl rfl rfl rfl rfl (by simp [State.coldState, State.reset])
    (by simp [State.coldState, State.reset])⟩

/-- Settles O10: LPM's operations keep the records placed and the DIRTY lines below the pool less the reserve. -/
theorem everyStepKeepsPoolWithinBounds : Obligations.EveryStepKeepsPoolWithinBounds := by
  intro s t h stepped
  refine step_keeps (P := fun u => PoolWithinBounds u.lpm) (fun _ _ h => h) (fun u hu => ?_) (fun u straps _ => ?_)
    (fun u _ => ?_) (fun _ _ h => h) (fun c u hu => (effect_holdsBounds c u).pool hu)
    (fun u hu => u.settle_holdsBounds.pool hu) h stepped
  · exact u.tick_keepsBounds.pool hu
  · exact State.beginStart_pool { u.coldState with rstn := false } (coldState_bounds u).1 straps false
  · exact (coldState_bounds u).1

/-- Settles O9: no queue or list grows past the places the spec gives it. -/
theorem everyStepKeepsCapacities : Obligations.EveryStepKeepsCapacities := by
  intro s t h stepped
  refine step_keeps (P := WithinCapacities) (fun _ _ h => { h with }) (fun u hu => ?_) (fun u straps _ => ?_)
    (fun u _ => ?_) (fun u p hu => (u.keepsBounds_pins p).capacities hu) (fun c u hu => (effect_holdsBounds c u).capacities hu)
    (fun u hu => u.settle_holdsBounds.capacities hu) h stepped
  · exact u.tick_keepsBounds.capacities hu
  · exact State.beginStart_capacities rfl rfl rfl rfl rfl rfl (by simp [State.coldState, State.reset])
      (by simp [State.coldState, State.reset]) straps false
  · exact { (coldState_bounds u).2 with }

end Sys2Proof.Machine


/-! ## One step: what it runs, what the passing of time does, and what its end does -/

namespace Sys2Proof.Machine

/-- A plain command, RSTN being released, answers its effect with the end of the step. -/
theorem exec_effect {c : Instr} {s : State} (released : s.rstn = false) (plain : c.isPlain = true := by rfl) :
    exec c s = .next (settle (c.effect s)) := by
  rw [exec_plain plain, ends_released _ _ released]

/-- A plain command answers what its effect is known to be. -/
theorem exec_of_effect {c : Instr} {s u : State} (released : s.rstn = false) (known : c.effect s = u)
    (plain : c.isPlain = true := by rfl) : exec c s = .next (settle u) := by
  rw [exec_effect released plain, known]

/-- Settles O1, by the definition of a step. -/
theorem stepRunsFrontCommand : Obligations.StepRunsFrontCommand := fun _ _ => rfl

/-! ### The starts -/

/-- The cold-start state with RSTN released. -/
theorem coldState_eq (s : State) : s.coldState = { State.reset with
    pins := s.pins
    mfn := { port := if s.pins.vbsense then .disconnected else .unpowered }
    fresh := s.fresh
    pending := s.pending } := rfl

/-- Nothing is due where no request, no transfer, no input, no offer and no unit wait. -/
theorem State.offers_of_empty {s : State} (own : s.adm.own = []) (beacon : s.ptu.standing = none)
    (inbox : s.ord.inbox = []) (notice : s.ntu.standing = none) (out : s.cfw.out = none) (wants : s.xch.wants = [])
    (gives : s.xch.gives = []) (units : s.upb.outq = []) : s.offers = [] := by
  simp [State.offers, State.offerAdm, State.offerPtu, State.offerOrd, State.offerNtu, State.offerCfw, State.offerXch,
    State.offerUpb, Xch.nextWant, own, beacon, inbox, notice, out, wants, gives, units]

theorem State.takeOffer_idle {s : State} (h : s.offers = []) : s.takeOffer = s := by
  simp [State.takeOffer, h]

theorem State.takeOffers_idle (n : Nat) {s : State} (h : s.offers = []) : State.takeOffers n s = s := by
  induction n with
  | zero => rfl
  | succ n ih => rw [State.takeOffers, State.takeOffer_idle h, ih]

theorem State.askCapture_idle {s : State}
    (h : s.ccu.buffer.length ≤ s.mctl.captureCurrent ∨ s.mctl.waitCapture = true) : s.askCapture = s := by
  unfold State.askCapture
  split
  next waits =>
    rcases h with none_left | asked
    · omega
    · rw [← asked]
  next => rfl

/-- A state in which nothing is due stays as it is at the end of a step. -/
theorem State.NothingDue.settle_eq {s : State} (h : s.NothingDue) : settle s = s := by
  have media : s.mediaAdvance = s := by simp [State.mediaAdvance, h.request]
  have detach : s.detachComplete = s := s.detachComplete_detachEnds.rests (by
    by_cases detaching : s.mfn.state = .detaching
    · cases cause : s.mfn.cause with
      | none => exact .inr (.inl rfl)
      | some c => exact .inr (.inr (h.detach detaching (by simp [cause])))
    · exact .inl detaching)
  have input : s.startInput = s := s.startInput_inputBegun.rests (by
    cases drains : s.inputDrains with
    | false => exact .inl rfl
    | true =>
      by_cases idle : s.cfw.tx = .idle
      · exact .inr (.inr (h.input drains idle))
      · exact .inr (.inl idle))
  have watcher : s.serveWatcher = s := s.serveWatcher_watcherServed.rests (fun j w turn => by
    have ready := (Watcher.ready_iff w s.ccu s.now).1 turn.ready
    rw [h.watcher turn.absent w (List.mem_of_getElem? turn.place)] at ready
    cases ready)
  have refresh : s.enterSelfRefresh = s := s.enterSelfRefresh_entered.rests (.inl h.refresh)
  have notice : s.askNotice = s := s.askNotice_noticeAsked.rests (by
    cases takes : s.takesRaises with
    | false => exact .inl rfl
    | true =>
      cases standing : s.ntu.standing with
      | some st => exact .inr (.inl rfl)
      | none =>
        cases pause : s.ntu.pause with
        | some due => exact .inr (.inr (.inl rfl))
        | none => exact .inr (.inr (.inr (h.notice takes standing pause))))
  have silent : s.refuseSilent = s := by
    by_cases silent : s.ptu.state = .silent
    · obtain ⟨empty, wants⟩ := h.silent silent
      have sent : s.xch.wants.map (fun w => w.sentSilent s.wantDue) = s.xch.wants :=
        (List.map_congr_left fun w hw => by simp [Want.sentSilent, wants w hw]).trans (List.map_id _)
      unfold State.refuseSilent
      rw [if_pos silent, sent]
      simp only [empty, List.drop_nil, ite_self]
      rw [← empty]
    · exact s.refuseSilent_silentRefused.other silent
  have offers : State.takeOffers 25 s = s := State.takeOffers_idle 25 h.offers
  have give : s.askGiveRead = s := s.askGiveRead_giveReadAsked.rests (by
    by_cases free : s.lif.giveBuf = .free
    · refine .inr fun e key line head payload => ?_
      rcases h.give e head with ⟨b, body⟩ | tenure | taken
      · rw [payload] at body; cases body
      · rw [payload] at tenure; cases tenure
      · exact taken free
    · exact .inl free)
  have unit : s.startUnit = s := s.startUnit_unitBegun.rests (by
    rcases h.unit with a | b | c | d
    · exact .inl a
    · exact .inr (.inl b)
    · exact .inr (.inr (.inl c))
    · exact .inr (.inr (.inr (.inl d))))
  rw [settle_eq_run, State.settleRun, State.settleOffers, media, detach, State.askCapture_idle h.capture, input, watcher,
    refresh, notice, silent, offers, give, unit]

/-- The end of a step touches what its text names. -/
theorem settle_named (s : State) : settle s = { s with
    lif := { s.lif with
      sendList := (settle s).lif.sendList, nextSeq := (settle s).lif.nextSeq, giveBuf := (settle s).lif.giveBuf }
    adm := { s.adm with own := (settle s).adm.own }
    ptu := { s.ptu with standing := (settle s).ptu.standing }
    ord := { s.ord with inbox := (settle s).ord.inbox, restartReply := (settle s).ord.restartReply }
    ntu := { s.ntu with
      pending := (settle s).ntu.pending, counter := (settle s).ntu.counter, standing := (settle s).ntu.standing
      raisedAgain := (settle s).ntu.raisedAgain }
    ccu := { s.ccu with
      lost := (settle s).ccu.lost, garbled := (settle s).ccu.garbled, marks := (settle s).ccu.marks
      markCounter := (settle s).ccu.markCounter, run := (settle s).ccu.run }
    cfw := { s.cfw with
      watchers := (settle s).cfw.watchers, out := (settle s).cfw.out, turn := (settle s).cfw.turn
      tx := (settle s).cfw.tx }
    mctl := { s.mctl with
      mem := (settle s).mctl.mem, restarting := (settle s).mctl.restarting, retention := (settle s).mctl.retention
      current := (settle s).mctl.current, waitCapture := (settle s).mctl.waitCapture
      waitMedia := (settle s).mctl.waitMedia, waitForward := (settle s).mctl.waitForward
      waitSend := (settle s).mctl.waitSend }
    lpm := { s.lpm with lines := (settle s).lpm.lines, recency := (settle s).lpm.recency }
    xch := { s.xch with wants := (settle s).xch.wants, gives := (settle s).xch.gives }
    mfn := { s.mfn with
      state := (settle s).mfn.state, cause := (settle s).mfn.cause, drain := (settle s).mfn.drain
      tracker := (settle s).mfn.tracker, lastCause := (settle s).mfn.lastCause, port := (settle s).mfn.port
      remoteWake := (settle s).mfn.remoteWake, request := (settle s).mfn.request
      usbStatus := (settle s).mfn.usbStatus }
    upb := { s.upb with outq := (settle s).upb.outq, tx := (settle s).upb.tx }
    fresh := (settle s).fresh } := by
  simp only [settle]

/-- Settles O3: the definition of `settle` names what it may touch, and each of its works does what its relation says. -/
theorem endOfStepDoesWhatIsDue : Obligations.EndOfStepDoesWhatIsDue := by
  refine ⟨fun s => ⟨settle s, rfl, settle_named s⟩, fun s h => h.settle_eq, fun s placed => ?_⟩
  rw [settle_eq_run]
  exact ⟨_, _, _, _, _, _, _, _, _, _, s.mediaAdvance_mediaAdvanced placed, State.detachComplete_detachEnds _,
    State.askCapture_captureAsked _, State.startInput_inputBegun _, State.serveWatcher_watcherServed _,
    State.enterSelfRefresh_entered _, State.askNotice_noticeAsked _, State.refuseSilent_silentRefused _,
    State.takeOffers_listed _, State.askGiveRead_giveReadAsked _, State.startUnit_unitBegun _⟩

/-- Settles O4, by evaluating the state after reset. -/
theorem resetStateMeetsTheInvariants : Obligations.ResetStateMeetsTheInvariants := by
  have legal : State.reset.psq.Legal := by
    constructor <;> simp [State.reset]
  have ordered : AdmissionOrdered State.reset := by
    constructor <;> simp [State.reset]
  have bounds := coldState_bounds State.reset
  refine ⟨rfl, rfl, rfl, rfl, fun x => ?_, rfl, rfl, rfl, rfl, rfl, rfl, rfl, rfl, rfl, rfl, rfl, rfl, rfl, rfl, rfl, rfl, rfl,
    rfl, rfl, rfl, rfl, rfl, rfl, rfl, rfl, rfl, rfl, rfl, rfl, rfl, rfl, rfl, rfl, rfl, rfl, rfl, rfl, rfl, rfl, rfl, rfl,
    rfl, rfl, rfl, rfl, ?_, legal, ordered, bounds.2, bounds.1⟩
  · change (if 1 ≤ x then (Vector.replicate 62 ({} : Peer)).toList.getD (x - 1) {} else {}) = _
    split
    · rw [Vector.toList_replicate, List.getD_eq_getElem?_getD, List.getElem?_getD_replicate_default_eq]
    · rfl
  · simp [State.reset, Memory.wf]

/-- Right after a start only what has no legal station number offers anything: nothing is due. -/
theorem State.NothingDue.of_start {s : State} (request : s.mfn.request = none) (state : s.mfn.state = .none)
    (buffer : s.ccu.buffer = []) (queue : s.cfw.queue = []) (watchers : s.cfw.watchers = [])
    (restarting : s.mctl.restarting = false) (pending : s.ntu.pending = []) (own : s.adm.own = [])
    (beacon : s.ptu.standing = none) (inbox : s.ord.inbox = []) (notice : s.ntu.standing = none) (out : s.cfw.out = none)
    (wants : s.xch.wants = []) (gives : s.xch.gives = []) (list : s.lif.sendList = []) (outq : s.upb.outq = [])
    (inq : s.upb.inq = []) : s.NothingDue where
  request := request
  detach := by simp [state]
  capture := .inl (by simp [buffer])
  input := fun _ _ => queue
  watcher := by simp [watchers]
  refresh := restarting
  notice := fun _ _ _ => pending
  silent := by simp [inbox, wants]
  offers := State.offers_of_empty own beacon inbox notice out wants gives outq
  give := by simp [Lif.head, list]
  unit := .inr (.inr (.inr inq))

theorem straps_legal_iff (n : BitVec 6) : (1 ≤ n.toNat ∧ n.toNat ≤ 62) ↔ ¬ (n = 0 ∨ n = 63) := by
  constructor
  · rintro ⟨low, high⟩ (rfl | rfl)
    · simp at low
    · simp at high
  · intro h
    constructor
    · by_contra small
      exact h (.inl (BitVec.eq_of_toNat_eq (by simp; omega)))
    · by_contra big
      exact h (.inr (BitVec.eq_of_toNat_eq (by simp; omega)))

/-- Settles O5: a start's state has nothing due, and with RSTN asserted a command moves the input pins at most. -/
theorem coldStartAndRstnHoldTheBlocks : Obligations.ColdStartAndRstnHoldTheBlocks := by
  refine ⟨fun straps s => ⟨fun legal => ?_, fun illegal => ?_⟩, fun s => rfl, fun c s held => ?_⟩
  · rw [exec_coldStart]
    have started : ({ s.coldState with rstn := false } : State).beginStart straps false = { s.coldState with
        rstn := false
        sld := { role := straps.role, snum := straps.snum.toNat, phase := .reading 1, warm := false, settings := none } } := by
      unfold State.beginStart
      exact if_pos (by simp [State.legalNumber, legal])
    rw [started, State.NothingDue.settle_eq (.of_start rfl rfl rfl rfl rfl rfl rfl rfl rfl rfl rfl rfl rfl rfl rfl rfl rfl)]
    rfl
  · rw [exec_coldStart]
    have started : ({ s.coldState with rstn := false } : State).beginStart straps false = { s.coldState with
        rstn := false
        sld := { role := straps.role, snum := straps.snum.toNat, phase := .halted, warm := false, settings := none }
        lif := { engine := .syncing }
        ptu := { state := .haltedSetup, boundary := some 1000 } } := by
      have no_legal : ¬ (1 ≤ straps.snum.toNat ∧ straps.snum.toNat ≤ 62) := by
        rw [straps_legal_iff]; exact not_not_intro illegal
      unfold State.beginStart
      refine (if_neg (by simpa [State.legalNumber, State.own] using no_legal)).trans ?_
      unfold State.enterHalted State.offerBeacon
      refine (if_neg (by simpa [State.legalNumber, State.own] using no_legal)).trans ?_
      rfl
    rw [started, State.NothingDue.settle_eq (.of_start rfl rfl rfl rfl rfl rfl rfl rfl rfl rfl rfl rfl rfl rfl rfl rfl rfl)]
    rfl
  · cases c
    case coldStart | rstnAsserted => trivial
    all_goals exact exec_held _ s held rfl

/-! ### The passing of time and the short timers -/

theorem State.tick_eq (s : State) : s.tick = if s.rstn then s else { s with
    now := s.now + 1
    lif := { s.lif with engine := if s.lif.engine = .bidding then .sending else s.lif.engine } } := by
  have survives : s.lif.engine.next .survive = if s.lif.engine = .bidding then .sending else s.lif.engine := by
    cases s.lif.engine <;> rfl
  rw [State.tick, survives]

/-- Settles O2: a timer that runs brings station time to its end, and its event is one record field. -/
theorem timePassesAndShortTimersRunOut : Obligations.TimePassesAndShortTimersRunOut := by
  refine ⟨fun s empty => ?_, fun s due released => ⟨fun press => ?_, fun press => ?_, fun pulse => ?_⟩,
    fun s x w start released found running => ?_, fun s x w due released found running => ?_,
    fun s due released running => ?_, State.raise_raised⟩
  · rw [step_empty s empty, State.tick_eq]
  · refine exec_of_effect released ?_
    change s.expires s.psq.pulseEnd State.releasePress = _
    simp only [Psq.pulseEnd, press, State.expires_some]
    rfl
  · refine exec_of_effect released ?_
    change s.expires s.psq.longEnd State.releasePress = _
    simp only [Psq.longEnd, press, State.expires_some]
    rfl
  · refine exec_of_effect released ?_
    change s.expires s.psq.resetPulse State.releaseReset = _
    rw [pulse]
    rfl
  · refine exec_of_effect released ?_
    change s.expires (((s.cfw.watchers.find? (fun v => v.station = x.toNat)).bind Watcher.waitStart).map
      (fun start => after start 20)) id = _
    rw [found, Option.bind_some, running]
    rfl
  · refine exec_of_effect released ?_
    change s.expires ((s.cfw.watchers.find? (fun v => v.station = x.toNat)).bind Watcher.pause)
      (fun u => u.pauseOver x.toNat) = _
    rw [found, Option.bind_some, running]
    rfl
  · refine exec_of_effect released ?_
    change s.expires s.ntu.pause (fun u => { u with ntu := { u.ntu with pause := none } }) = _
    rw [running]
    rfl

end Sys2Proof.Machine


/-! ## The starts: the record, the hand-over, entry to LISTEN and PSQ's derivation -/

namespace Sys2Proof.Machine

/-- What SLD drives on the setting bus in a failed attempt (R203). -/
def failedAttempts : List (List BusItem) :=
  let write : List BusItem := [.start, .device 0x53 false]
  let addressed : List BusItem := write ++ [.word 0, .word 0]
  let read : List BusItem := addressed ++ [.start, .device 0x53 true]
  [[.stop], write ++ [.stop], write ++ [.word 0, .stop], addressed ++ [.stop], read ++ [.stop]]

theorem failedBus_mem (cause : EepromFault) : failedBus cause ∈ failedAttempts := by
  cases cause with
  | noAck place => revert place; decide
  | sdaLow repeated => revert repeated; decide

/-- Settles O12: an attempt's outcome and the hand-over, case by case. -/
theorem recordIsReadAndHandedOver : Obligations.RecordIsReadAndHandedOver := by
  refine ⟨fun s n released => ⟨?_, ?_, ?_, ?_, ?_⟩, fun s r d released validated => ⟨?_, ?_, ?_, ?_⟩⟩
  · intro bytes r d reading whole record
    refine exec_of_effect released ?_
    change s.attemptComplete bytes = _
    simp only [State.attemptComplete, reading, recordWellFormed, whole, record]
    rfl
  · intro bytes reading whole record
    refine exec_of_effect released ?_
    change s.attemptComplete bytes = _
    simp only [State.attemptComplete, reading, recordWellFormed, whole, record]
    rfl
  · intro reading again
    refine ⟨_, failedBus_mem s.attemptFault, exec_of_effect released ?_⟩
    change s.attemptFailed = _
    simp only [State.attemptFailed, reading, if_pos again]
    rfl
  · intro reading last
    refine ⟨_, failedBus_mem s.attemptFault, exec_of_effect released ?_⟩
    change s.attemptFailed = _
    simp only [State.attemptFailed, reading, if_neg (Nat.not_lt.2 last)]
    rfl
  · intro due waits
    refine exec_of_effect released ?_
    change s.retryAttempt = _
    simp only [State.retryAttempt, waits]
  · intro cold awake
    refine exec_of_effect released ?_
    change s.handOverSettings = _
    simp [State.handOverSettings, validated, State.mayHandOver, cold, State.handOverRecord, Mctl.handed, awake]
  · intro asleep same
    refine exec_of_effect released ?_
    change s.handOverSettings = _
    simp [State.handOverSettings, validated, State.mayHandOver, State.handOverRecord, Mctl.handed, asleep, same]
  · intro asleep other
    refine exec_of_effect released ?_
    change s.handOverSettings = _
    simp [State.handOverSettings, validated, State.mayHandOver, State.handOverRecord, Mctl.handed, asleep, other]
  · intro warm awake
    refine exec_of_effect released ?_
    change s.handOverSettings = _
    simp [State.handOverSettings, validated, State.mayHandOver, warm, awake]

/-! ### Entry to LISTEN -/

/-- A raise in LISTEN sets NTU's flag. -/
theorem State.raise_of_takes {s : State} (takes : s.takesRaises = true) (kind : NoticeKind) (detail : Bytes) :
    s.raise kind detail = { s with ntu := s.ntu.raise s.now kind detail } := if_pos takes

theorem Settings.setUp_eq (r : Settings) : Lpm.setUp r = { poolSize := r.poolSize, reserve := r.reserve } := rfl

/-- Settles O13: the history's start and the two notices, whether a fault is owed or not. -/
theorem memoryUpEntersListen : Obligations.MemoryUpEntersListen := by
  intro s r released record setup coming
  have up : s.mctl.comingUp = true := by simpa [Mctl.comingUp] using coming
  refine exec_of_effect released ?_
  change s.memoryUp = _
  have entered : s.memoryUp = s.enterListen r := by
    simp only [State.memoryUp, record]
    exact if_pos (by simp [up, setup])
  have kept : (s.serving && s.keepsHistory (2 ^ r.historyLog)) =
      (s.serving && s.sld.warm && s.mctl.retention && Decidable.decide (s.ccu.ringSize = 2 ^ r.historyLog)) := by
    simp [State.keepsHistory, Bool.and_assoc]
  rw [entered]
  unfold State.enterListen
  dsimp only
  rw [kept, State.raise_of_takes (by simp [State.takesRaises]), State.payFault]
  by_cases owed : s.psq.faultOwed = true
  · rw [if_pos (by exact owed), State.raise_of_takes (by simp [State.takesRaises])]
    simp only [owed, if_true]
    rfl
  · rw [if_neg (by exact owed)]
    simp only [Bool.not_eq_true] at owed
    have same : s.psq = { s.psq with faultOwed := false } := by rw [← owed]
    simp only [owed]
    conv_lhs => rw [same]
    rfl

/-! ### PSQ's derivation -/

/-- Entry to ON from a record without a state. -/
theorem State.psqEnter_on_fresh {s : State} (fresh : s.psq.state = none) :
    s.psqEnter .on .none = { s with
      psq := { s.psq with state := some .on, variant := .none, restPhase := .none, restT := none }
      wdu := s.wduEntersOn.wdu
      ntu := (s.raise .powerState [SeqState.on.code, Variant.none.code, s.psq.pendingAct.code, flag s.psq.slotHeld]).ntu } := by
  rw [State.psqEnter_plain _ _ _ _ (by simp [fresh]) (by simp) (by simp [SeqState.isOff]), State.raise_as (s := s)]
  all_goals simp [State.entering, Psq.leave, Psq.restOnEntry, State.entryTimer, State.tellWdu, State.wduEntersOn_eq, fresh]

/-- Entry to FEED-CUT or RESTING from a record without a state. -/
theorem State.psqEnter_rest_fresh {s : State} (fresh : s.psq.state = none) {st : SeqState}
    (rests : st = .feedCut ∨ st = .resting) :
    s.psqEnter st .none = { s with
      psq := { s.psq with state := some st, variant := .none }
      ntu := (s.raise .powerState [st.code, Variant.none.code, s.psq.pendingAct.code, flag s.psq.slotHeld]).ntu } := by
  rcases rests with rfl | rfl
  all_goals
    rw [State.psqEnter_plain _ _ _ _ (by simp [fresh]) (by simp) (by simp [fresh]), State.raise_as (s := s)]
    all_goals simp [State.entering, Psq.leave, Psq.restOnEntry, State.entryTimer, State.tellWdu, fresh]

/-- Settles O14: a fresh record enters its state by the feed and the level. -/
theorem psqDerivesItsStateFromFeedAndPgood : Obligations.PsqDerivesItsStateFromFeedAndPgood := by
  intro s r pinHigh released record serving fresh
  have derived (active : Bool) (level : (pinHigh = r.pgoodHigh) = (active = true)) :
      Instr.effect (.psqStateDerived pinHigh) s = s.derivePsq active := by
    change s.deriveFromPin pinHigh = _
    simp [State.deriveFromPin, record, fresh, serving, level]
  have rest : s.setting Settings.rest = r.rest := by simp [State.setting, record]
  refine ⟨fun closed active => ?_, fun closed inactive => ?_, fun opened inactive => ?_, fun opened active => ?_⟩
  · refine exec_of_effect released ((derived true (by simpa using active)).trans ?_)
    unfold State.derivePsq
    rw [if_pos closed, if_pos rfl, State.psqEnter_on_fresh rfl, State.raise_ntu_congr (s := s), State.wduEntersOn_eq, closed]
    all_goals rfl
  · refine exec_of_effect released ((derived false (by simpa using inactive)).trans ?_)
    unfold State.derivePsq
    rw [if_pos closed, if_neg Bool.false_ne_true, State.psqEnter_rest_fresh rfl (.inr rfl), State.raise_ntu_congr (s := s), closed]
    all_goals simp only [State.startRest, ← rest]
    all_goals rfl
  · refine exec_of_effect released ((derived false (by simpa using inactive)).trans ?_)
    unfold State.derivePsq
    rw [if_neg (by simp [opened]), if_neg Bool.false_ne_true, State.psqEnter_rest_fresh rfl (.inl rfl), State.raise_ntu_congr (s := s), opened]
    all_goals simp only [State.startRest, ← rest]
    all_goals rfl
  · refine exec_of_effect released ((derived true (by simpa using active)).trans ?_)
    unfold State.derivePsq
    rw [if_neg (by simp [opened]), if_pos rfl, State.psqEnter_rest_fresh rfl (.inl rfl), opened]
    by_cases takes : s.takesRaises = true
    · rw [if_pos (by exact takes)]
      unfold State.payFault
      rw [if_pos rfl]
      simp only [State.raise, State.takesRaises] at takes ⊢
      simp only [takes, if_true]
      rfl
    · rw [if_neg (by exact takes)]
      simp only [State.raise, State.takesRaises] at takes ⊢
      simp only [takes]
      rfl

end Sys2Proof.Machine


/-! ## PSQ's timers -/

namespace Sys2Proof.Machine

/-- Station time stays where the run-out has come already. -/
theorem State.timeTo_of_reached {s : State} {due : Time} (come : reached due s.now = true) :
    (s.timeTo due).now = s.now := by
  rw [State.timeTo_now, if_pos come]

/-- The command of a running timer: station time comes to its end, and its event follows (log 4). -/
theorem exec_of_expiry {c : Instr} {s u : State} {timer : Option Time} {due : Time} {event : State → State}
    (released : s.rstn = false) (running : timer = some due) (known : event (s.timeTo due) = u)
    (timed : c.effect s = s.expires timer event := by rfl) (plain : c.isPlain = true := by rfl) :
    exec c s = .next (settle u) := by
  rw [exec_effect released plain, timed, running, State.expires_some, known]

/-- PSQ comes to await a slot from a state without power: its claim is asked as R5 allows. -/
theorem State.psqEnter_awaits {s : State} {old : SeqState} (hold : s.psq.state = some old)
    (rests : old = .off ∨ old = .resting ∨ old = .feedBounce ∨ old = .feedCut) (unasked : s.psq.claimAsked = false)
    (var : Variant) :
    s.psqEnter .awaitingSlot var = { s with
      psq := { s.psq with
        state := some .awaitingSlot, variant := var, restPhase := .satisfied, restT := none, claimAsked := s.claimsNow }
      adm := { s.adm with own := if s.claimsNow then s.adm.ownWith [{ kind := .claim var.startKind }] else s.adm.own }
      ntu := (s.raise .powerState [5, var.code, s.psq.pendingAct.code, flag s.psq.slotHeld]).ntu } := by
  have notStarting : s.psq.state ≠ some .starting := by
    rw [hold]; rcases rests with rfl | rfl | rfl | rfl <;> simp
  have other : s.psq.state ≠ some .awaitingSlot := by
    rw [hold]; rcases rests with rfl | rfl | rfl | rfl <;> simp
  have leave : s.psq.leave = s.psq := by
    unfold Psq.leave; rw [hold]; rcases rests with rfl | rfl | rfl | rfl <;> rfl
  have notOn : s.psq.state ≠ some .on := by
    rw [hold]; rcases rests with rfl | rfl | rfl | rfl <;> simp
  have notRunning : s.psq.state.any SeqState.isRunning = false := by
    rw [hold]; rcases rests with rfl | rfl | rfl | rfl <;> rfl
  unfold State.psqEnter
  simp only [notStarting, other, leave, decide_false, Bool.or_false, if_false, Bool.false_eq_true, State.tellMfn, State.tellWdu, notRunning, notOn,
    Bool.and_false, State.entryTimer, Psq.restOnEntry, reduceCtorEq, State.askClaim, unasked]
  by_cases claims : s.claimsNow = true
  · have asks : s.ptu.state = .member ∧ s.psq.retract = 0 := by simpa [State.claimsNow] using claims
    rw [if_pos (by simp [asks]), State.raise_as (s := s)]
    · simp [claims, State.addOwn, Adm.ownWith, Psq.bytes, seqCode, SeqState.code]
    all_goals rfl
  · have asks : ¬ (s.ptu.state = .member ∧ s.psq.retract = 0) := by simpa [State.claimsNow] using claims
    rw [if_neg (by simpa [and_comm] using asks), State.raise_as (s := s)]
    · simp [claims, Psq.bytes, seqCode, SeqState.code]
    all_goals rfl


/-! ### What R4's rows give in each state -/

/-- No slot is held outside STARTING, ON, STOPPING and FORCING. -/
theorem Psq.Legal.slot_free {p : Psq} (legal : p.Legal) {st : SeqState} (hold : p.state = some st)
    (low : st.isOff = true) : p.slotHeld = false := by
  by_contra held
  have := legal.slot (by simpa using held)
  rw [hold] at this
  rcases this with h | h | h | h
  all_goals
    obtain rfl := Option.some.inj h
    cases low

/-- No claim is asked outside AWAITING-SLOT. -/
theorem Psq.Legal.unasked {p : Psq} (legal : p.Legal) {st : SeqState} (hold : p.state = some st)
    (other : st ≠ .awaitingSlot) : p.claimAsked = false := by
  by_contra asked
  have := legal.claim (by simpa using asked)
  rw [hold] at this
  exact other (Option.some.inj this)

/-! ### The rest time -/

/-- The rest is over in a state whose pending start or restore awaits a slot. -/
theorem State.awaits_rested {u : State} (legal : u.psq.Legal) {old : SeqState} (hold : u.psq.state = some old)
    (rests : old = .resting ∨ old = .feedBounce ∨ old = .feedCut) (act : PendingAct) (var : Variant) :
    ({ u with psq := { u.psq with restPhase := .satisfied, restT := none, pendingAct := act } } : State).psqEnter
      .awaitingSlot var = { u with
      psq := { u.psq with
        restPhase := .satisfied, restT := none, state := some .awaitingSlot, variant := var, pendingAct := act
        claimAsked := u.claimsNow }
      adm := { u.adm with own := if u.claimsNow then u.adm.ownWith [{ kind := .claim var.startKind }] else u.adm.own }
      ntu := (u.raise .powerState [5, var.code, act.code, 0]).ntu } := by
  have unasked := legal.unasked hold (by rcases rests with rfl | rfl | rfl <;> simp)
  have free := legal.slot_free hold (by rcases rests with rfl | rfl | rfl <;> rfl)
  refine (State.psqEnter_awaits (by exact hold) (.inr rests) (by exact unasked) var).trans ?_
  rw [State.raise_ntu_congr (s := u)]
  · simp only [free]
    rfl
  all_goals rfl

/-- The rest is over in RESTING with no action pending. -/
theorem State.psqEnter_off_rested {u : State} (legal : u.psq.Legal) (hold : u.psq.state = some .resting)
    (act : u.psq.pendingAct = .none) :
    ({ u with psq := { u.psq with restPhase := .satisfied, restT := none } } : State).psqEnter .off .none = { u with
      psq := { u.psq with restPhase := .satisfied, restT := none, state := some .off, variant := .none }
      ntu := (u.raise .powerState [4, 0, 0, 0]).ntu } := by
  have free := legal.slot_free hold rfl
  rw [State.psqEnter_plain _ _ _ _ (by simp [hold]) (by simp) (by simp [hold, SeqState.isRunning]), State.raise_as (s := u)]
  all_goals simp [State.entering, Psq.leave, Psq.restOnEntry, State.entryTimer, State.tellWdu, hold, act, free,
    SeqState.code, Variant.code, PendingAct.code, flag]

theorem State.restOver_resting {u : State} (hold : u.psq.state = some .resting) : u.restOver =
    if u.psq.pendingAct = .powerOn then
      ({ u with psq := { u.psq with restPhase := .satisfied, restT := none, pendingAct := .none } } : State).psqEnter
        .awaitingSlot .powerOn
    else ({ u with psq := { u.psq with restPhase := .satisfied, restT := none } } : State).psqEnter .off .none := by
  unfold State.restOver
  split
  · rfl
  all_goals simp_all

theorem State.restOver_feedBounce {u : State} (hold : u.psq.state = some .feedBounce) : u.restOver =
    ({ u with psq := { u.psq with restPhase := .satisfied, restT := none } } : State).psqEnter .awaitingSlot
      .feedRestore := by
  unfold State.restOver
  split
  case h_2 => rfl
  all_goals simp_all

theorem State.restOver_feedCut {u : State} (hold : u.psq.state = some .feedCut) : u.restOver =
    if u.psq.pendingAct = .feedRestore then
      ({ u with psq := { u.psq with restPhase := .satisfied, restT := none, pendingAct := .none } } : State).psqEnter
        .awaitingSlot .feedRestore
    else { u with psq := { u.psq with restPhase := .satisfied, restT := none } } := by
  unfold State.restOver
  split
  case h_3 => rfl
  all_goals simp_all

/-- Settles O38: what the rest's end makes of each state that R4 lets a rest run in. -/
theorem restEndsInOffOrAClaim : Obligations.RestEndsInOffOrAClaim := by
  intro s due released legal running
  refine ⟨(s.timeTo due).now, State.timeTo_of_reached, fun hold act => exec_of_expiry released running ?_,
    fun hold act => exec_of_expiry released running ?_, fun hold => exec_of_expiry released running ?_,
    fun hold act => exec_of_expiry released running ?_, fun hold act => exec_of_expiry released running ?_⟩
  · rw [State.restOver_resting (by exact hold), if_pos (by exact act)]
    exact State.awaits_rested (u := s.timeTo due) legal hold (by simp) .none .powerOn
  · rw [State.restOver_resting (by exact hold), if_neg (by simp [State.timeTo, act])]
    exact State.psqEnter_off_rested (u := s.timeTo due) legal hold act
  · rw [State.restOver_feedBounce (by exact hold)]
    exact State.awaits_rested (u := s.timeTo due) legal hold (by simp) s.psq.pendingAct .feedRestore
  · rw [State.restOver_feedCut (by exact hold), if_pos (by exact act)]
    exact State.awaits_rested (u := s.timeTo due) legal hold (by simp) .none .feedRestore
  · rw [State.restOver_feedCut (by exact hold), if_neg (by simp [State.timeTo, act])]
    rfl


/-! ### The settle time and the minimum on time -/

/-- The settle time is over: the slot, which is held, is released. -/
theorem State.settled_releases {u : State} (legal : u.psq.Legal) (runs : u.psq.settleT.isSome) : ∃ r own kept l g w,
    u.settled = { u with
      psq := { u.psq with slotHeld := false, settleT := none, retract := r }
      adm := { u.adm with own := own, kept := kept }
      lif := { u.lif with sendList := l, giveBuf := g }
      mctl := { u.mctl with waitSend := w } } ∧ u.RetractAsked u.settled .release := by
  have held : u.psq.slotHeld = true := legal.settle runs
  have running : u.psq.state ≠ some .awaitingSlot := by rcases legal.slot held with h | h | h | h <;> simp [h]
  obtain ⟨r, own, kept, l, g, w, shape, released⟩ :=
    State.releaseSlot_eq ({ u with psq := { u.psq with settleT := none } } : State) running (by simp)
  exact ⟨r, own, kept, l, g, w, shape, (released.1 held).congr rfl rfl rfl rfl rfl⟩

/-- PSQ leaves ON for STOPPING with a press pulse and the grace timer (R9). -/
theorem State.beginStopping_on {u : State} (hold : u.psq.state = some .on) (var : Variant) :
    u.beginStopping var = { u with
      psq := { u.psq with
        state := some .stopping, variant := var, young := false, youngT := none, deferred := .none
        press := .pulse (after u.now 200), graceT := some (after u.now (1000 * u.setting Settings.grace))
        restPhase := .none, restT := none }
      wdu := { u.wdu with deadline := none }
      ntu := (u.raise .powerState [8, var.code, u.psq.pendingAct.code, flag u.psq.slotHeld]).ntu } := by
  rw [State.beginStopping, State.psqEnter_plain _ _ _ _ (by simp [State.pressPulse, hold]) (by simp) rfl,
    State.raise_as (s := u)]
  all_goals simp [State.pressPulse, State.entering, Psq.leave, Psq.restOnEntry, State.entryTimer, State.tellWdu,
    State.wduLeavesOn, hold, State.setting, sec, SeqState.code]

/-- The minimum on time runs out in ON. -/
theorem State.youngOver_on {u : State} (hold : u.psq.state = some .on) : u.youngOver =
    match u.psq.deferred with
    | .none => { u with psq := { u.psq with young := false, youngT := none } }
    | .soft => ({ u with psq := { u.psq with young := false, youngT := none } } : State).beginStopping .soft
    | .softThenHard =>
      ({ u with psq := { u.psq with young := false, youngT := none } } : State).beginStopping .softThenHard := by
  unfold State.youngOver
  exact if_pos hold

/-- A deferred off is carried out in ON, where no action is pending. -/
theorem State.beginStopping_deferred {u : State} (hold : u.psq.state = some .on) (act : u.psq.pendingAct = .none)
    (var : Variant) :
    ({ u with psq := { u.psq with young := false, youngT := none } } : State).beginStopping var = { u with
      psq := { u.psq with
        state := some .stopping, variant := var, young := false, youngT := none, deferred := .none
        press := .pulse (after u.now 200), graceT := some (after u.now (1000 * u.setting Settings.grace))
        restPhase := .none, restT := none }
      wdu := { u.wdu with deadline := none }
      ntu := (u.raise .powerState [8, var.code, 0, flag u.psq.slotHeld]).ntu } := by
  refine (State.beginStopping_on (by exact hold) var).trans ?_
  rw [State.raise_ntu_congr (s := u)]
  · simp only [act]
    rfl
  all_goals rfl

/-- Settles O36: the slot's release, and the minimum on time with and without an off deferred to its end. -/
theorem settleAndYoungTimersEndTheStart : Obligations.SettleAndYoungTimersEndTheStart := by
  refine ⟨fun s due released legal running => ?_, fun s due released legal running => ?_⟩
  · obtain ⟨r, own, kept, l, g, w, shape, asked⟩ :=
      State.settled_releases (u := s.timeTo due) legal (by simp [State.timeTo, running])
    refine ⟨(s.timeTo due).now, (s.timeTo due).settled, State.timeTo_of_reached, exec_of_expiry released running rfl, ?_,
      asked.congr rfl rfl rfl rfl rfl⟩
    rw [shape]
    rfl
  · have on : s.psq.state = some .on := legal.youngT (by simp [running])
    have act : s.psq.pendingAct = .none := legal.noAct (.inr (.inl on))
    refine ⟨(s.timeTo due).now, State.timeTo_of_reached, fun deferred => exec_of_expiry released running ?_,
      fun deferred => exec_of_expiry released running ?_, fun deferred => exec_of_expiry released running ?_⟩
    all_goals
      have deferred' : (s.timeTo due).psq.deferred = _ := deferred
      rw [State.youngOver_on (by exact on), deferred']
    · rfl
    all_goals exact State.beginStopping_deferred (u := s.timeTo due) on act _

end Sys2Proof.Machine


/-! ## PSQ's start and force limits -/

namespace Sys2Proof.Machine

/-- `t` is `s` with this record of PSQ, the retract count apart, and with ADM's own frames and the send list as a retract
asked leaves them. -/
def State.Retracts (s t : State) (p : Psq) : Prop :=
  ∃ r own kept l g w, t = { s with
    psq := { p with retract := r }
    adm := { s.adm with own := own, kept := kept }
    lif := { s.lif with sendList := l, giveBuf := g }
    mctl := { s.mctl with waitSend := w } }

/-- STARTING ends without power: the slot is released. -/
theorem State.psqEnter_leavesStarting {v : State} {st : SeqState} (hold : v.psq.state = some .starting)
    (low : st.isOff = true) (rests : st ≠ .awaitingSlot) (held : v.psq.settleT.isSome → v.psq.slotHeld = true)
    (var : Variant) (start : Bool := false) : ∃ t,
    v.Retracts t { v.entering st var with slotHeld := false, settleT := none } ∧ v.SlotReleased t ∧
    v.psqEnter st var start = t.raise .powerState [st.code, var.code, v.psq.pendingAct.code, 0] := by
  obtain ⟨r, own, kept, l, g, w, released, shape⟩ :=
    v.psqEnter_goesOff .starting st var start hold (.inr rfl) low rests held
  refine ⟨_, ⟨r, own, kept, l, g, w, rfl⟩, released, shape.trans ?_⟩
  have notOn : st ≠ .on := by rintro rfl; cases low
  have untold (u : State) : (u.tellMfn (some .starting) st).tellWdu (some .starting) st = u := by
    simp [State.tellMfn, State.tellWdu, SeqState.isRunning, notOn]
  rw [untold]

/-- ON, STOPPING or FORCING ends without power: the slot is released and a boot-once attachment ends. -/
theorem State.psqEnter_leavesRunning {v : State} {old st : SeqState} (hold : v.psq.state = some old)
    (runs : old.isRunning = true) (low : st.isOff = true) (rests : st ≠ .awaitingSlot)
    (held : v.psq.settleT.isSome → v.psq.slotHeld = true) (var : Variant) (start : Bool := false) : ∃ t,
    v.Retracts t { v.entering st var with slotHeld := false, settleT := none } ∧ v.SlotReleased t ∧
    v.psqEnter st var start = ((t.bootOnceTrigger .powerOff).tellWdu (some old) st).raise .powerState
      [st.code, var.code, v.psq.pendingAct.code, 0] := by
  obtain ⟨r, own, kept, l, g, w, released, shape⟩ := v.psqEnter_goesOff old st var start hold (.inl runs) low rests held
  refine ⟨_, ⟨r, own, kept, l, g, w, rfl⟩, released, shape.trans ?_⟩
  have told (u : State) : u.tellMfn (some old) st = u.bootOnceTrigger .powerOff := by
    simp [State.tellMfn, low, runs]
  rw [told]

/-- Two raises read NTU, station time and the station state alone. -/
theorem State.raise_raise_ntu_congr {s u : State} (ntu : u.ntu = s.ntu) (now : u.now = s.now)
    (state : u.ptu.state = s.ptu.state) (k k' : NoticeKind) (d d' : Bytes) :
    ((u.raise k d).raise k' d').ntu = ((s.raise k d).raise k' d').ntu :=
  State.raise_ntu_congr (State.raise_ntu_congr ntu now state k d) (by simp [now]) (by simp [state]) k' d'

/-- PowerFrame from a moment of the state's own time. -/
theorem State.PowerMoves.frame_from {s t : State} {due : Time} (moved : (s.timeTo due).PowerMoves t) : s.PowerFrame t :=
  ((s.onlyPower_now due).trans moved.only).frame

section
variable {s t : State} {p : Psq}

/-- What a retract asked leaves alone. -/
theorem State.Retracts.keeps (h : s.Retracts t p) : t.now = s.now ∧ t.ptu = s.ptu ∧ t.wdu = s.wdu ∧ t.ccu = s.ccu ∧
    t.ntu = s.ntu ∧ t.mfn = s.mfn ∧ t.lpm = s.lpm ∧ t.xch = s.xch ∧ t.mctl.waitMedia = s.mctl.waitMedia ∧ t.sld = s.sld := by
  obtain ⟨r, own, kept, l, g, w, rfl⟩ := h
  simp

theorem State.Retracts.psq (h : s.Retracts t p) : ∃ r, t.psq = { p with retract := r } := by
  obtain ⟨r, own, kept, l, g, w, rfl⟩ := h
  exact ⟨r, rfl⟩

/-- The retract is told of a state that differs in PSQ's record alone. -/
theorem State.Retracts.of_psq {q p' : Psq} (h : ({ s with psq := q } : State).Retracts t p) (same : p = p') :
    s.Retracts t p' := by
  obtain ⟨r, own, kept, l, g, w, rfl⟩ := h
  exact ⟨r, own, kept, l, g, w, by rw [same]⟩

end

/-- The server goes off from ON, STOPPING or FORCING: the slot is released, a boot-once attachment ends, and station time,
WDU's and CCU's records, NTU and PSQ's record, the retract count apart, are these. -/
structure State.GoesOff (s u : State) (now : Time) (wdu : Wdu) (ccu : Ccu) (ntu : Ntu) (p : Psq) : Prop where
  now   : u.now = now
  ptu   : u.ptu = s.ptu
  sld   : u.sld = s.sld
  wdu   : u.wdu = wdu
  ccu   : u.ccu = ccu
  ntu   : u.ntu = ntu
  psq   : ∃ r, u.psq = { p with retract := r }
  slot  : s.SlotReleased u
  boot  : s.BootOnceEnds u

/-- PSQ goes off from a state `v` that may differ from `s` in station time, PSQ's record, the marks and the notices. -/
theorem State.psqEnter_goesOff_from {s v : State} {old st : SeqState} (hold : v.psq.state = some old)
    (runs : old.isRunning = true) (low : st.isOff = true) (rests : st ≠ .awaitingSlot)
    (held : v.psq.settleT.isSome → v.psq.slotHeld = true) (var : Variant)
    (shape : v = { s with now := v.now, psq := v.psq, ccu := v.ccu, ntu := v.ntu })
    (retract : v.psq.retract = s.psq.retract) (slot : v.psq.slotHeld = s.psq.slotHeld) :
    s.GoesOff (v.psqEnter st var) v.now (if old = .on then { s.wdu with deadline := none } else s.wdu) v.ccu
      (v.raise .powerState [st.code, var.code, v.psq.pendingAct.code, 0]).ntu
      { v.entering st var with slotHeld := false, settleT := none } := by
  obtain ⟨t, retracts, released, entered⟩ := State.psqEnter_leavesRunning hold runs low rests held var
  obtain ⟨tnow, tptu, twdu, tccu, tntu, tmfn, tlpm, txch, tmedia, tsld⟩ := retracts.keeps
  have notOn : st ≠ .on := by rintro rfl; cases low
  have told (u : State) : u.tellWdu (some old) st =
      { u with wdu := if old = .on then { u.wdu with deadline := none } else u.wdu } := by
    by_cases on : old = .on <;> simp [State.tellWdu, notOn, on, State.wduLeavesOn]
  have adm : v.adm = s.adm := by rw [shape]
  have ptu : v.ptu = s.ptu := by rw [shape]
  have wdu : v.wdu = s.wdu := by rw [shape]
  have sld : v.sld = s.sld := by rw [shape]
  have mfn : v.mfn = s.mfn := by rw [shape]
  have lpm : v.lpm = s.lpm := by rw [shape]
  have xch : v.xch = s.xch := by rw [shape]
  have mctl : v.mctl = s.mctl := by rw [shape]
  rw [entered, told]
  exact {
    now := by simpa using tnow
    ptu := by simpa using tptu.trans ptu
    sld := by simpa using tsld.trans sld
    wdu := by simp [twdu, wdu]
    ccu := by simpa using tccu
    ntu := State.raise_ntu_congr (by simpa using tntu) (by simpa using tnow) (by simp [tptu]) _ _
    psq := by simpa using retracts.psq
    slot := released.congr (by simp) (by simp) retract.symm adm.symm ptu.symm slot.symm
    boot := t.bootOnceTrigger_ends.congr (tmfn.trans mfn).symm (tlpm.trans lpm).symm (txch.trans xch).symm
      (tmedia.trans (by rw [mctl])).symm (by simp) (by simp) (by simp) (by simp) (by simp) }

/-- The start limit passes in the POWER-ON variant (R18). -/
theorem State.startFailed_powerOn {u : State} (legal : u.psq.Legal) (hold : u.psq.state = some .starting)
    (variant : u.psq.variant = .powerOn) :
    ∃ t, u.Retracts t { u.psq with
        state := some .resting, variant := .none, startT := none, slotHeld := false, settleT := none
        restPhase := .running, restT := some (after u.now (1000 * u.setting Settings.rest)) } ∧
      u.SlotReleased t ∧
      u.startFailed = (t.raise .powerState [3, 0, 0, 0]).raise .startFailed [byte (u.setting Settings.startLimit)] := by
  have act : u.psq.pendingAct = .none := legal.startAct (.inr hold) variant
  obtain ⟨t, retracts, released, shape⟩ :=
    State.psqEnter_leavesStarting (v := ({ u with psq := { u.psq with startT := none } } : State).startRest)
      (st := .resting) hold rfl (by simp) legal.settle .none
  refine ⟨t, State.Retracts.of_psq retracts ?_, released.congr rfl rfl rfl rfl rfl rfl, ?_⟩
  · simp [State.startRest, State.entering, Psq.leave, Psq.restOnEntry, State.entryTimer, hold, State.setting, sec]
  · unfold State.startFailed
    rw [if_pos hold, if_neg (by simp [variant]), State.toResting, shape]
    simp [State.startRest, act, SeqState.code, Variant.code, PendingAct.code]

/-- The start limit passes in the FEED-RESTORE variant: PSQ is OFF (R18). -/
theorem State.startFailed_off {u : State} (legal : u.psq.Legal) (hold : u.psq.state = some .starting) :
    ∃ t, u.Retracts t { u.psq with
        state := some .off, variant := .none, startT := none, slotHeld := false, settleT := none
        restPhase := .satisfied, restT := none } ∧
      u.SlotReleased t ∧
      ({ u with psq := { u.psq with startT := none } } : State).psqEnter .off .none =
        t.raise .powerState [4, 0, u.psq.pendingAct.code, 0] := by
  obtain ⟨t, retracts, released, shape⟩ :=
    State.psqEnter_leavesStarting (v := ({ u with psq := { u.psq with startT := none } } : State))
      (st := .off) hold rfl (by simp) legal.settle .none
  refine ⟨t, State.Retracts.of_psq retracts ?_, released.congr rfl rfl rfl rfl rfl rfl, shape⟩
  simp [State.entering, Psq.leave, Psq.restOnEntry, State.entryTimer, hold]

theorem State.startFailed_feedRestore {u : State} (hold : u.psq.state = some .starting)
    (variant : u.psq.variant = .feedRestore) : u.startFailed =
    if u.psq.pendingAct = .powerOn then
      ((({ u with psq := { u.psq with startT := none } } : State).psqEnter .off .none).setPending .none).psqEnter
        .awaitingSlot .powerOn
    else ({ u with psq := { u.psq with startT := none } } : State).psqEnter .off .none := by
  unfold State.startFailed
  exact (if_pos hold).trans (if_pos variant)

/-- After a release of the slot that cancels no claim, a claim is not asked at once (R5). -/
theorem State.SlotReleased.no_claim {s t : State} (h : s.SlotReleased t) (held : s.psq.slotHeld = true)
    (uncancelled : cancelPair (s.adm.ownWith [{ kind := .release }]) = none) (state : t.ptu = s.ptu) :
    t.claimsNow = false := by
  by_cases member : s.ptu.state = .member
  · simp [State.claimsNow, ((h.1 held).member member uncancelled).1]
  · simp [State.claimsNow, state, member]

/-- Settles O35, first part: the start limit. -/
theorem startLimit_ends (s : State) (due : Time) (released : s.rstn = false) (legal : s.psq.Legal)
    (running : s.psq.startT = some due) :
    let now := (s.timeTo due).now
    let s1 := s.timeTo due
    let ended : Psq := { s.psq with variant := .none, startT := none, slotHeld := false, settleT := none }
    ∃ u, exec .startTimerExpiry s = .next (settle u) ∧ s.PowerFrame u ∧ u.now = now ∧ u.mfn = s.mfn ∧ u.wdu = s.wdu ∧
      u.ccu = s.ccu ∧
      (s.psq.variant = .powerOn → s.SlotReleased u ∧
        u.psq = { ended with
          state := some .resting, restPhase := .running, restT := some (after now (1000 * s.setting Settings.rest))
          retract := u.psq.retract } ∧
        u.ntu = ((s1.raise .powerState [3, 0, 0, 0]).raise .startFailed [byte (s.setting Settings.startLimit)]).ntu) ∧
      (s.psq.variant = .feedRestore → s.psq.pendingAct = .none → s.SlotReleased u ∧
        u.psq = { ended with state := some .off, restPhase := .satisfied, retract := u.psq.retract } ∧
        u.ntu = (s1.raise .powerState [4, 0, 0, 0]).ntu) ∧
      (s.psq.variant = .feedRestore → s.psq.pendingAct = .powerOn →
        u.psq = { ended with
          state := some .awaitingSlot, variant := .powerOn, pendingAct := .none, restPhase := .satisfied
          retract := u.psq.retract, claimAsked := u.psq.claimAsked } ∧
        (s.psq.slotHeld = true → cancelPair (s.adm.ownWith [{ kind := .release }]) = none →
          s.RetractAsked u .release ∧ u.psq.claimAsked = false) ∧
        (s.psq.slotHeld = false → u.psq.retract = s.psq.retract ∧ u.psq.claimAsked = s.claimsNow) ∧
        u.ntu = ((s1.raise .powerState [4, 0, 1, 0]).raise .powerState [5, 1, 0, 0]).ntu) := by
  intro now s1 ended
  have starting : s.psq.state = some .starting := legal.start (by simp [running])
  have rested : s.psq.restT = none := by
    by_contra rests
    have := legal.rest (Option.isSome_iff_ne_none.2 rests)
    simp [starting] at this
  refine ⟨s1.startFailed, exec_of_expiry released running rfl, (s1.startFailed_powerMoves).frame_from, ?_⟩
  rcases legal.startVar (.inr starting) with variant | variant
  · obtain ⟨t, retracts, releases, shape⟩ := State.startFailed_powerOn (u := s1) legal starting variant
    obtain ⟨tnow, tptu, twdu, tccu, tntu, tmfn, -⟩ := retracts.keeps
    change t.wdu = s.wdu at twdu
    change t.ccu = s.ccu at tccu
    change t.mfn = s.mfn at tmfn
    obtain ⟨r, tpsq⟩ := retracts.psq
    rw [shape]
    refine ⟨by simpa using tnow, by simpa using tmfn, by simpa using twdu,
      by simpa using tccu, fun _ => ⟨?_, ?_, ?_⟩, fun other => ?_, fun other => ?_⟩
    · exact releases.congr (by simp) (by simp) rfl rfl rfl rfl
    · simp only [State.raise_keeps, tpsq]
      rfl
    · exact State.raise_raise_ntu_congr tntu tnow (by rw [tptu]) _ _ _ _
    · simp [variant] at other
    · simp [variant] at other
  · obtain ⟨t, retracts, releases, shape⟩ := State.startFailed_off (u := s1) legal starting
    obtain ⟨tnow, tptu, twdu, tccu, tntu, tmfn, -⟩ := retracts.keeps
    change t.wdu = s.wdu at twdu
    change t.ccu = s.ccu at tccu
    change t.mfn = s.mfn at tmfn
    obtain ⟨r, tpsq⟩ := retracts.psq
    rw [State.startFailed_feedRestore (by exact starting) (by exact variant), shape]
    split
    next act =>
      replace act : s.psq.pendingAct = .powerOn := act
      have unasked : s1.psq.claimAsked = false := legal.unasked starting (by simp)
      have awaits := State.psqEnter_awaits (s := (t.raise .powerState [4, 0, s1.psq.pendingAct.code, 0]).setPending .none)
        (old := .off) (by simp [State.setPending, tpsq]) (by simp) (by simp [State.setPending, tpsq, unasked]) .powerOn
      have claims : ((t.raise .powerState [4, 0, s1.psq.pendingAct.code, 0]).setPending .none).claimsNow = t.claimsNow := by
        simp [State.claimsNow, State.setPending]
      rw [awaits, claims]
      refine ⟨by simpa [State.setPending] using tnow, by simpa [State.setPending] using tmfn,
        by simpa [State.setPending] using twdu, by simpa [State.setPending] using tccu, fun other => ?_,
        fun _ none => by simp [act] at none, fun _ _ => ⟨?_, fun held uncancelled => ?_, fun free => ?_, ?_⟩⟩
      · simp [variant] at other
      · simp only [State.setPending, State.raise_keeps, tpsq, ended, rested]
        rfl
      · have unclaimed : t.claimsNow = false := releases.no_claim held uncancelled tptu
        refine ⟨(releases.1 held).congr (by simp [State.setPending]) ?_ rfl rfl rfl, unclaimed⟩
        simp [State.setPending, unclaimed]
      · have same : t.psq.retract = s.psq.retract := (releases.2 free).1
        refine ⟨by simpa [State.setPending] using same, ?_⟩
        simp only [State.claimsNow, tptu, same]
        rfl
      · have free : t.psq.slotHeld = false := by rw [tpsq]
        change (((t.raise .powerState [4, 0, s1.psq.pendingAct.code, 0]).setPending .none).raise .powerState _).ntu = _
        refine (State.raise_ntu_congr (s := t.raise .powerState [4, 0, s1.psq.pendingAct.code, 0]) ?_ ?_ ?_ _ _).trans ?_
        iterate 3 rfl
        simp only [State.setPending, State.raise_keeps, free, show s1.psq.pendingAct = .powerOn from act]
        exact State.raise_raise_ntu_congr tntu tnow (by rw [tptu]) _ _ _ _
    next act =>
      replace act : s.psq.pendingAct ≠ .powerOn := act
      refine ⟨by simpa using tnow, by simpa using tmfn, by simpa using twdu,
        by simpa using tccu, fun other => ?_, fun _ none => ⟨?_, ?_, ?_⟩, fun _ on => absurd on act⟩
      · simp [variant] at other
      · exact releases.congr (by simp) (by simp) rfl rfl rfl rfl
      · simp only [State.raise_keeps, tpsq, ended, rested]
        rfl
      · rw [show s1.psq.pendingAct = .none from none]
        exact State.raise_ntu_congr tntu tnow (by rw [tptu]) _ _

/-! ### The force limit -/

/-- R4's row of FORCING. -/
theorem forcing_of_legal {p : Psq} (legal : p.Legal) (hold : p.state = some .forcing) :
    p.startT = none ∧ p.young = false ∧ p.youngT = none ∧ p.deferred = .none ∧ p.graceT = none ∧ p.restT = none := by
  refine ⟨?_, ?_, ?_, ?_, ?_, ?_⟩
  · by_contra runs; simpa [hold] using legal.start (Option.isSome_iff_ne_none.2 runs)
  · by_contra runs; simpa [hold] using legal.young (by simpa using runs)
  · by_contra runs; simpa [hold] using legal.youngT (Option.isSome_iff_ne_none.2 runs)
  · by_contra runs; simpa [hold] using legal.deferred runs
  · by_contra runs; simpa [hold] using legal.grace (Option.isSome_iff_ne_none.2 runs)
  · by_contra runs; simpa [hold] using legal.rest (Option.isSome_iff_ne_none.2 runs)

/-- The force limit passes in FORCING with PGOOD still active: the feed is opened (R22). -/
theorem State.forceOver_bounces {u : State} (legal : u.psq.Legal) (hold : u.psq.state = some .forcing)
    (up : u.psq.pgood = true) :
    u.GoesOff u.forceOver u.now u.wdu (u.ccu.addMark u.now .feedCut 1)
      (u.raise .powerState [2, 0, u.psq.pendingAct.code, 0]).ntu
      { u.psq with
        variant := .none, slotHeld := false, settleT := none, state := some .feedBounce, press := .released
        feedClosed := false, restPhase := .awaitingFall
        forceT := some (after u.now (1000 * u.setting Settings.force)) } := by
  have enters : u.forceOver = ({ u with
      psq := { u.psq with forceT := none, press := .released, feedClosed := false, restPhase := .awaitingFall }
      ccu := u.ccu.addMark u.now .feedCut 1 } : State).psqEnter .feedBounce .none := by
    simp [State.forceOver, hold, up, State.bounce, State.stopForce, State.releasePress, State.setFeed, State.mark]
  obtain ⟨now, ptu, sld, wdu, ccu, ntu, psq, slot, boot⟩ := State.psqEnter_goesOff_from (s := u) (v := { u with
    psq := { u.psq with forceT := none, press := .released, feedClosed := false, restPhase := .awaitingFall }
    ccu := u.ccu.addMark u.now .feedCut 1 }) (st := .feedBounce) hold rfl rfl (by simp) legal.settle .none rfl rfl rfl
  rw [enters]
  refine ⟨now, ptu, sld, wdu, ccu, ntu.trans (State.raise_ntu_congr (s := u) (by rfl) (by rfl) (by rfl) _ _), ?_, slot, boot⟩
  obtain ⟨r, record⟩ := psq
  refine ⟨r, record.trans ?_⟩
  simp [State.entering, Psq.leave, Psq.restOnEntry, State.entryTimer, hold, State.setting, sec]

/-- The force limit passes in FORCING with PGOOD inactive: PSQ rests (R22). -/
theorem State.forceOver_rests {u : State} (legal : u.psq.Legal) (hold : u.psq.state = some .forcing)
    (down : u.psq.pgood = false) :
    u.GoesOff u.forceOver u.now u.wdu u.ccu (u.raise .powerState [3, 0, u.psq.pendingAct.code, 0]).ntu
      { u.psq with
        variant := .none, slotHeld := false, settleT := none, state := some .resting, restPhase := .running
        restT := some (after u.now (1000 * u.setting Settings.rest)), forceT := none } := by
  have over_ : u.forceOver = u.stopForce.toResting := by simp [State.forceOver, hold, down]
  obtain ⟨now, ptu, sld, wdu, ccu, ntu, psq, slot, boot⟩ := State.psqEnter_goesOff_from (s := u)
    (v := u.stopForce.startRest) (st := .resting) hold rfl rfl (by simp) legal.settle .none rfl rfl rfl
  rw [over_]
  refine ⟨now, ptu, sld, wdu, ccu, ntu.trans (State.raise_ntu_congr (s := u) (by rfl) (by rfl) (by rfl) _ _), ?_, slot, boot⟩
  obtain ⟨r, record⟩ := psq
  refine ⟨r, record.trans ?_⟩
  simp [State.entering, Psq.leave, Psq.restOnEntry, State.entryTimer, State.startRest, State.stopForce, hold,
    State.setting, sec]

/-- The record with the retract count as it stands. -/
theorem State.GoesOff.record {s u : State} {now : Time} {wdu : Wdu} {ccu : Ccu} {ntu : Ntu} {p : Psq}
    (h : s.GoesOff u now wdu ccu ntu p) : u.psq = { p with retract := u.psq.retract } := by
  obtain ⟨r, record⟩ := h.psq
  rw [record]

/-- What goes off at a timer's end does so from the state before it. -/
theorem State.GoesOff.of_timeTo {s u : State} {due now : Time} {wdu : Wdu} {ccu : Ccu} {ntu : Ntu} {p : Psq}
    (h : (s.timeTo due).GoesOff u now wdu ccu ntu p) : s.GoesOff u now wdu ccu ntu p :=
  { h with
    slot := h.slot.congr rfl rfl rfl rfl rfl rfl
    boot := h.boot.congr rfl rfl rfl rfl rfl rfl rfl rfl rfl }

/-- Settles O35: the limits by PSQ's variant, and by its state and PGOOD. -/
theorem startAndForceLimitsEndTheirStates : Obligations.StartAndForceLimitsEndTheirStates := by
  refine ⟨startLimit_ends, fun s due released legal running => ⟨fun hold up => ?_, fun hold down => ?_, fun hold up => ?_⟩⟩
  · have off := (State.forceOver_bounces (u := s.timeTo due) legal hold up).of_timeTo
    exact ⟨_, exec_of_expiry released running rfl, (State.forceOver_powerMoves _).frame_from, off.now, off.slot, off.boot,
      off.wdu, off.ccu, off.record, off.ntu⟩
  · have off := (State.forceOver_rests (u := s.timeTo due) legal hold down).of_timeTo
    exact ⟨_, exec_of_expiry released running rfl, (State.forceOver_powerMoves _).frame_from, off.now, off.slot, off.boot,
      off.wdu, off.ccu, off.record, off.ntu⟩
  · refine exec_of_expiry released running ?_
    have bounce : (s.timeTo due).psq.state = some .feedBounce := hold
    have up' : (s.timeTo due).psq.pgood = true := up
    simp only [State.forceOver, bounce, up', if_true]
    exact State.raise_as (s := s.timeTo due) _ _ rfl rfl rfl

end Sys2Proof.Machine


/-! ## PGOOD's fall and rise -/

namespace Sys2Proof.Machine

/-- R4's row of ON. -/
theorem on_of_legal {p : Psq} (legal : p.Legal) (hold : p.state = some .on) :
    p.startT = none ∧ p.graceT = none ∧ p.forceT = none ∧ p.restT = none ∧ p.pendingAct = .none := by
  refine ⟨?_, ?_, ?_, ?_, legal.noAct (.inr (.inl hold))⟩
  · by_contra runs; simpa [hold] using legal.start (Option.isSome_iff_ne_none.2 runs)
  · by_contra runs; simpa [hold] using legal.grace (Option.isSome_iff_ne_none.2 runs)
  · by_contra runs; simpa [hold] using legal.force (Option.isSome_iff_ne_none.2 runs)
  · by_contra runs; simpa [hold] using legal.rest (Option.isSome_iff_ne_none.2 runs)

/-- R4's rows of STOPPING: no force timer runs. -/
theorem stopping_noForce {p : Psq} (legal : p.Legal) (hold : p.state = some .stopping) :
    p.startT = none ∧ p.youngT = none ∧ p.forceT = none := by
  refine ⟨?_, ?_, ?_⟩
  · by_contra runs; simpa [hold] using legal.start (Option.isSome_iff_ne_none.2 runs)
  · by_contra runs; simpa [hold] using legal.youngT (Option.isSome_iff_ne_none.2 runs)
  · by_contra runs; simpa [hold] using legal.force (Option.isSome_iff_ne_none.2 runs)

/-- PSQ's record after a fall of PGOOD that ends in RESTING, press and pending action apart (R20). -/
def State.rested (s : State) : Psq :=
  { s.psq with
    pgood := false, state := some .resting, variant := .none, slotHeld := false, settleT := none, graceT := none
    forceT := none, young := false, youngT := none, deferred := .none, restPhase := .running
    restT := some (after s.now (1000 * s.setting Settings.rest)) }

/-- The server has gone off as asked (R20). -/
theorem State.wentOff_goesOff {s : State} (legal : s.psq.Legal) {st : SeqState} (hold : s.psq.state = some st)
    (off : st = .stopping ∨ st = .forcing) (arg : Nat) :
    s.GoesOff ((s.setPgood false).wentOff arg) s.now s.wdu (s.ccu.addMark s.now .powerOff arg)
      (s.raise .powerState [3, 0, s.psq.pendingAct.code, 0]).ntu { s.rested with press := .released } := by
  have enters : (s.setPgood false).wentOff arg = ({ s with
      psq := { s.psq with
        pgood := false, press := .released, restPhase := .running
        restT := some (after s.now (1000 * s.setting Settings.rest)) }
      ccu := s.ccu.addMark s.now .powerOff arg } : State).psqEnter .resting .none := by
    simp [State.wentOff, State.setPgood, State.releasePress, State.mark, State.toResting, State.startRest, State.setting,
      sec]
  obtain ⟨now, ptu, sld, wdu, ccu, ntu, psq, slot, boot⟩ := State.psqEnter_goesOff_from (s := s) (v := { s with
      psq := { s.psq with
        pgood := false, press := .released, restPhase := .running
        restT := some (after s.now (1000 * s.setting Settings.rest)) }
      ccu := s.ccu.addMark s.now .powerOff arg }) (st := .resting) hold (by rcases off with rfl | rfl <;> rfl) rfl
      (by simp) legal.settle .none rfl rfl rfl
  rw [enters]
  refine ⟨now, ptu, sld, ?_, ccu, ntu.trans (State.raise_ntu_congr (s := s) (by rfl) (by rfl) (by rfl) _ _), ?_, slot, boot⟩
  · rw [wdu, if_neg (by rcases off with rfl | rfl <;> simp)]
  · obtain ⟨r, record⟩ := psq
    refine ⟨r, record.trans ?_⟩
    rcases off with rfl | rfl
    · obtain ⟨young, deferred, -, -⟩ := stopping_of_legal legal hold
      obtain ⟨-, youngT, forceT⟩ := stopping_noForce legal hold
      simp [State.entering, State.rested, Psq.leave, Psq.restOnEntry, State.entryTimer, hold, young, deferred, youngT, forceT]
    · obtain ⟨-, young, youngT, deferred, graceT, -⟩ := forcing_of_legal legal hold
      simp [State.entering, State.rested, Psq.leave, Psq.restOnEntry, State.entryTimer, hold, young, deferred, youngT, graceT]

/-- WDU's guard asks ON of a PSQ in RESTING: the start is pending, or refused under the rack-mismatch condition (R92). -/
theorem State.guardAsks_resting {x : State} (hold : x.psq.state = some .resting) : x.guardAsks =
    if x.wdu.armed && x.wdu.guard then
      (if x.ptu.mismatch then x.raise .faultRefused [3, 1, 4]
       else { x with psq := { x.psq with pendingAct := .powerOn } })
    else x := by
  unfold State.guardAsks
  split
  · by_cases mismatch : x.ptu.mismatch = true
    · simp [wduTakes, State.actOn, hold, State.unlessMismatch, mismatch, OrderStatus.code]
      rfl
    · simp [wduTakes, State.actOn, hold, State.unlessMismatch, mismatch, State.setPending]
  · rfl

/-- The server loses power in ON (R20), before the guard acts. -/
theorem State.powerLost_goesOff {s : State} (legal : s.psq.Legal) (hold : s.psq.state = some .on) :
    ∃ x, (s.setPgood false).powerLost = x.guardAsks ∧
      s.GoesOff x s.now { s.wdu with deadline := none } (s.ccu.addMark s.now .powerLost 0)
        ((s.raise .powerLost [3]).raise .powerState [3, 0, 0, 0]).ntu s.rested := by
  obtain ⟨-, graceT, forceT, -, act⟩ := on_of_legal legal hold
  refine ⟨_, rfl, ?_⟩
  have enters : (((s.setPgood false).mark .powerLost 0).raise .powerLost [SeqState.resting.code]).toResting = ({ s with
      psq := { s.psq with
        pgood := false, restPhase := .running, restT := some (after s.now (1000 * s.setting Settings.rest)) }
      ccu := s.ccu.addMark s.now .powerLost 0
      ntu := (s.raise .powerLost [3]).ntu } : State).psqEnter .resting .none := by
    rw [State.raise_as (s := s) (u := (s.setPgood false).mark .powerLost 0) _ _ rfl rfl rfl]
    simp [State.setPgood, State.mark, State.toResting, State.startRest, State.setting, sec, SeqState.code]
  obtain ⟨now, ptu, sld, wdu, ccu, ntu, psq, slot, boot⟩ := State.psqEnter_goesOff_from (s := s) (v := { s with
      psq := { s.psq with
        pgood := false, restPhase := .running, restT := some (after s.now (1000 * s.setting Settings.rest)) }
      ccu := s.ccu.addMark s.now .powerLost 0
      ntu := (s.raise .powerLost [3]).ntu }) (st := .resting) hold rfl rfl (by simp) legal.settle .none rfl rfl rfl
  rw [enters]
  refine ⟨now, ptu, sld, wdu, ccu, ntu.trans ?_, ?_, slot, boot⟩
  · simp only [act]
    exact State.raise_ntu_congr (s := s.raise .powerLost [3]) (by rfl) (by simp) (by simp) _ _
  · obtain ⟨r, record⟩ := psq
    refine ⟨r, record.trans ?_⟩
    simp [State.entering, State.rested, Psq.leave, Psq.restOnEntry, State.entryTimer, hold, graceT, forceT]

/-- PGOOD_INACTIVE, the level having been active. -/
theorem exec_pgoodInactive {s u : State} {st : SeqState} (released : s.rstn = false) (hold : s.psq.state = some st)
    (up : s.psq.pgood = true) (known : (s.setPgood false).pgoodFalls = u) : exec .pgoodInactive s = .next (settle u) := by
  refine exec_of_effect released ?_
  change (if s.psq.state.isSome && s.psq.pgood then (s.setPgood false).pgoodFalls else s) = u
  rw [if_pos (by simp [hold, up]), known]

theorem State.pgoodFalls_powerFrame (s : State) : s.PowerFrame (s.setPgood false).pgoodFalls :=
  (((s.onlyPower_psq _).trans (State.pgoodFalls_powerMoves _).only)).frame

/-- Settles O34: what each state makes of PGOOD's fall. -/
theorem pgoodFallActsByState : Obligations.PgoodFallActsByState := by
  intro s st released legal hold up
  have exec_falls {u : State} (known : (s.setPgood false).pgoodFalls = u) : exec .pgoodInactive s = .next (settle u) :=
    exec_pgoodInactive released hold up known
  have held : (s.setPgood false).psq.state = some st := hold
  refine ⟨fun off => ?_, fun on => ?_, fun cut falls => ?_, fun bounce falls => ?_, fun rests => ?_⟩
  · have went : (s.setPgood false).pgoodFalls = (s.setPgood false).wentOff (if st = .stopping then 0 else 1) := by
      unfold State.pgoodFalls
      rw [held]
      rcases off with rfl | rfl <;> rfl
    have goes := State.wentOff_goesOff legal hold off (if st = .stopping then 0 else 1)
    refine ⟨_, exec_falls went, went ▸ s.pgoodFalls_powerFrame, goes.now, goes.record, goes.slot, goes.boot, goes.wdu,
      goes.ccu, goes.ntu⟩
  · subst on
    obtain ⟨x, lost, goes⟩ := State.powerLost_goesOff legal hold
    have falls : (s.setPgood false).pgoodFalls = x.guardAsks := by
      rw [← lost]
      unfold State.pgoodFalls
      rw [held]
    obtain ⟨r, record⟩ := goes.psq
    obtain ⟨-, -, -, -, act⟩ := on_of_legal legal hold
    refine ⟨_, exec_falls falls, falls ▸ s.pgoodFalls_powerFrame, ?_⟩
    have rests : x.psq.state = some .resting := by rw [record]; rfl
    have armed : (x.wdu.armed && x.wdu.guard) = (s.wdu.armed && s.wdu.guard) := by rw [goes.wdu]
    have mismatch : x.ptu.mismatch = s.ptu.mismatch := by rw [goes.ptu]
    rw [State.guardAsks_resting rests, armed, mismatch]
    cases guarded : s.wdu.armed && s.wdu.guard
    · refine ⟨goes.now, ?_, goes.slot, goes.boot, goes.wdu, goes.ccu, goes.ntu⟩
      simp only [Bool.false_eq_true, if_false, record, State.rested, act]
      rfl
    · cases bad : s.ptu.mismatch
      · refine ⟨goes.now, ?_, goes.slot.congr rfl rfl rfl rfl rfl rfl,
          goes.boot.congr rfl rfl rfl rfl rfl rfl rfl rfl rfl, goes.wdu, goes.ccu, goes.ntu⟩
        simp only [Bool.false_eq_true, if_false, if_true, record, State.rested]
        rfl
      · refine ⟨by simpa using goes.now, ?_, goes.slot.congr (by simp) (by simp) rfl rfl rfl rfl,
          goes.boot.congr rfl rfl rfl rfl (by simp) (by simp) (by simp) (by simp) (by simp), by simpa using goes.wdu,
          by simpa using goes.ccu, ?_⟩
        · simp only [if_true, State.raise_keeps, record, State.rested, act]
          rfl
        · exact State.raise_ntu_congr goes.ntu (by simp [goes.now]) (by simp [goes.ptu]) _ _
  · subst cut
    refine exec_falls ?_
    unfold State.pgoodFalls State.fellAwaited
    rw [held]
    exact (if_pos falls).trans rfl
  · subst bounce
    refine exec_falls ?_
    unfold State.pgoodFalls State.fellAwaited
    rw [held]
    exact (if_pos falls).trans ((congrArg State.stopForce (if_pos falls)).trans rfl)
  · refine exec_falls ?_
    unfold State.pgoodFalls State.fellAwaited
    rw [held]
    rcases rests with ⟨rfl | rfl, runs⟩ | rfl | rfl | rfl | rfl
    · exact if_neg runs
    · exact if_neg runs
    all_goals rfl

/-! ### PGOOD's rise -/

/-- PSQ's record once the server is on (R17, R24): the minimum on time runs. -/
def State.risen (s : State) : Psq :=
  { s.psq with
    pgood := true, state := some .on, variant := .none, pendingAct := .none, young := true
    youngT := some (after s.now (1000 * s.setting Settings.young)), restPhase := .none, restT := none, startT := none }

/-- An admitted start comes to ON, its slot looked at next (R17). -/
theorem State.psqEnter_on_starting {s : State} (hold : s.psq.state = some .starting) :
    ((((s.setPgood true).setPending .none).mark .powerOn 0).psqEnter .on .none).startYoung = { s with
      psq := s.risen
      wdu := s.wduEntersOn.wdu
      ccu := s.ccu.addMark s.now .powerOn 0
      ntu := (s.raise .powerState [7, 0, 0, flag s.psq.slotHeld]).ntu } := by
  have held : (((s.setPgood true).setPending .none).mark .powerOn 0).psq.state = some .starting := hold
  rw [State.psqEnter_plain _ _ _ _ (by rw [held]; simp) (by simp) rfl, State.raise_as (s := s)]
  · simp [State.startYoung, State.risen, State.entering, Psq.leave, Psq.restOnEntry, State.entryTimer, State.tellWdu,
      State.wduEntersOn_eq, State.setPgood, State.setPending, State.mark, hold, State.setting, sec, SeqState.code,
      Variant.code, PendingAct.code]
  all_goals simp [State.setPgood, State.setPending, State.mark]

/-- What the slot's release at settle time 0, or the settle timer, makes of a server that is on (R17). -/
theorem State.startedOn_of_starting {s : State} (hold : s.psq.state = some .starting) :
    (s.setPgood true).startedOn =
      let s1 : State := { s with
        psq := s.risen
        wdu := s.wduEntersOn.wdu
        ccu := s.ccu.addMark s.now .powerOn 0
        ntu := (s.raise .powerState [7, 0, 0, flag s.psq.slotHeld]).ntu }
      if s.psq.slotHeld then
        (if s.setting Settings.settle = 0 then s1.releaseSlot
         else { s1 with psq := { s1.psq with settleT := some (after s.now (1000 * s.setting Settings.settle)) } })
      else s1 := by
  unfold State.startedOn
  rw [State.psqEnter_on_starting hold]
  rfl

/-- An unadmitted start (R24): the claim, where one is asked, is withdrawn. -/
theorem State.unadmittedStart_of {s : State} (legal : s.psq.Legal) {st : SeqState} (hold : s.psq.state = some st)
    (low : st = .off ∨ st = .resting ∨ st = .awaitingSlot) :
    ∃ t, ({ s with wdu := s.wduEntersOn.wdu, ccu := s.ccu.addMark s.now .powerOn 1 } : State).Retracts t
        { s.risen with claimAsked := false } ∧
      (s.psq.claimAsked = true → s.RetractAsked t .withdraw) ∧
      (s.psq.claimAsked = false → t.psq.retract = s.psq.retract ∧ t.adm = s.adm) ∧
      (s.setPgood true).unadmittedStart = { t with
        ntu := ((s.raise .powerState [7, 0, 0, 0]).raise .unadmittedStart [st.code]).ntu } := by
  have free : s.psq.slotHeld = false := legal.slot_free hold (by rcases low with rfl | rfl | rfl <;> rfl)
  have noStart : s.psq.startT = none := by
    by_contra runs
    have := legal.start (Option.isSome_iff_ne_none.2 runs)
    rw [hold] at this
    rcases low with rfl | rfl | rfl <;> cases this
  have ends (u : State) (ntu : u.ntu = s.ntu) (now : u.now = s.now) (state : u.ptu.state = s.ptu.state) :
      ((u.raise .powerState [7, 0, 0, 0]).startYoung.mark .powerOn 1).raise .unadmittedStart [st.code] =
      { u.startYoung.mark .powerOn 1 with
        ntu := ((s.raise .powerState [7, 0, 0, 0]).raise .unadmittedStart [st.code]).ntu } := by
    have told := State.raise_ntu_congr ntu now state .powerState [7, 0, 0, 0]
    rw [State.raise_as (s := s.raise .powerState [7, 0, 0, 0])]
    · rw [State.raise_eq u]
      rfl
    · exact told
    · simpa [State.startYoung, State.mark] using now
    · simpa [State.startYoung, State.mark] using state
  unfold State.unadmittedStart
  rw [show seqCode (s.setPgood true).psq.state = st.code by simp [State.setPgood, hold, seqCode]]
  by_cases awaiting : st = .awaitingSlot
  · subst awaiting
    have held : ((s.setPgood true).setPending .none).psq.state = some .awaitingSlot := hold
    obtain ⟨r, own, kept, l, g, w, asked, unasked, shape⟩ :=
      State.psqEnter_leavesAwaiting ((s.setPgood true).setPending .none) .on .none held (by simp)
    have bytes : ([SeqState.on.code, Variant.none.code, ((s.setPgood true).setPending .none).psq.pendingAct.code,
        flag ((s.setPgood true).setPending .none).psq.slotHeld] : Bytes) = [7, 0, 0, 0] := by
      simp [State.setPgood, State.setPending, free, SeqState.code, Variant.code, PendingAct.code, flag]
    dsimp only
    rw [shape, bytes, ends _ (by simp [State.setPgood, State.setPending]) (by simp [State.setPgood, State.setPending])
      (by simp [State.setPgood, State.setPending])]
    refine ⟨_, ⟨r, own, kept, l, g, w, rfl⟩, fun claim => (asked claim).congr rfl rfl rfl rfl rfl,
      fun claim => unasked claim, ?_⟩
    simp [State.startYoung, State.risen, State.entering, Psq.leave, Psq.restOnEntry, State.entryTimer, State.tellWdu,
      State.wduEntersOn_eq, State.setPgood, State.setPending, State.mark, hold, State.setting, sec, noStart]
  · have others : st = .off ∨ st = .resting := by tauto
    have unasked := legal.unasked hold awaiting
    have held : ((s.setPgood true).setPending .none).psq.state = some st := hold
    refine ⟨_, ⟨s.psq.retract, s.adm.own, s.adm.kept, s.lif.sendList, s.lif.giveBuf, s.mctl.waitSend, rfl⟩,
      fun claim => by simp [unasked] at claim, fun _ => ⟨rfl, rfl⟩, ?_⟩
    have bytes : ([SeqState.on.code, Variant.none.code, ((s.setPgood true).setPending .none).psq.pendingAct.code,
        flag ((s.setPgood true).setPending .none).psq.slotHeld] : Bytes) = [7, 0, 0, 0] := by
      simp [State.setPgood, State.setPending, free, SeqState.code, Variant.code, PendingAct.code, flag]
    dsimp only
    rw [State.psqEnter_plain _ _ _ _ (by rw [held]; simpa using awaiting) (by simp) rfl, bytes,
      ends _ (by simp [State.setPgood, State.setPending]) (by simp [State.setPgood, State.setPending])
      (by simp [State.setPgood, State.setPending])]
    rcases others with rfl | rfl
    all_goals
      simp [State.startYoung, State.risen, State.entering, Psq.leave, Psq.restOnEntry, State.entryTimer, State.tellWdu,
        State.wduEntersOn_eq, State.setPgood, State.setPending, State.mark, hold, State.setting, sec, noStart, unasked]

/-- PGOOD_ACTIVE, the level having been inactive. -/
theorem exec_pgoodActive {s u : State} {st : SeqState} (released : s.rstn = false) (hold : s.psq.state = some st)
    (down : s.psq.pgood = false) (known : (s.setPgood true).pgoodRises = u) : exec .pgoodActive s = .next (settle u) := by
  refine exec_of_effect released ?_
  change (if s.psq.state.isSome && !s.psq.pgood then (s.setPgood true).pgoodRises else s) = u
  rw [if_pos (by simp [hold, down]), known]

theorem State.pgoodRises_powerFrame (s : State) : s.PowerFrame (s.setPgood true).pgoodRises :=
  (((s.onlyPower_psq _).trans (State.pgoodRises_powerMoves _).only)).frame

/-- Settles O33: what each state makes of PGOOD's rise. -/
theorem pgoodRiseActsByState : Obligations.PgoodRiseActsByState := by
  intro s st released legal hold down
  have exec_rises {u : State} (known : (s.setPgood true).pgoodRises = u) : exec .pgoodActive s = .next (settle u) :=
    exec_pgoodActive released hold down known
  have held : (s.setPgood true).psq.state = some st := hold
  have wdu : s.wduEntersOn.wdu = { s.wdu with
      early := 0, lastBeat := none, holdoff := false
      deadline := if s.wdu.armed then some (after s.now (1000 * s.wdu.bootAllowance)) else s.wdu.deadline
      phase := if s.wdu.armed then .boot else s.wdu.phase } := by
    rw [State.wduEntersOn_eq]
    rfl
  refine ⟨fun starting => ?_, fun low => ?_, fun fault => ?_, fun bounce rests => ?_, fun level => ?_⟩
  · subst starting
    have starts : (s.setPgood true).pgoodRises = (s.setPgood true).startedOn := by
      unfold State.pgoodRises
      rw [held]
    refine ⟨_, exec_rises starts, starts ▸ s.pgoodRises_powerFrame, ?_⟩
    rw [State.startedOn_of_starting hold]
    dsimp only
    by_cases held : s.psq.slotHeld = true
    · by_cases zero : s.setting Settings.settle = 0
      · obtain ⟨r, own, kept, l, g, w, shape, slot⟩ := State.releaseSlot_eq ({ s with
          psq := s.risen
          wdu := s.wduEntersOn.wdu
          ccu := s.ccu.addMark s.now .powerOn 0
          ntu := (s.raise .powerState [7, 0, 0, flag s.psq.slotHeld]).ntu } : State) (by simp [State.risen])
          (fun runs => legal.settle runs)
        rw [if_pos held, if_pos zero]
        refine ⟨by rw [shape], by rw [shape], by rw [shape]; exact wdu, by rw [shape], by rw [shape],
          fun free => by simp [held] at free, fun _ other => absurd zero other, fun _ _ => ⟨?_, ?_⟩⟩
        · rw [shape]
          rfl
        · exact (slot.1 held).congr rfl rfl rfl rfl rfl
      · rw [if_pos held, if_neg zero]
        exact ⟨rfl, rfl, wdu, rfl, rfl, fun free => by simp [held] at free, fun _ _ => ⟨rfl, rfl⟩,
          fun _ other => absurd other zero⟩
    · rw [if_neg held]
      exact ⟨rfl, rfl, wdu, rfl, rfl, fun _ => ⟨rfl, rfl⟩, fun other => absurd other held, fun other => absurd other held⟩
  · have starts : (s.setPgood true).pgoodRises = (s.setPgood true).unadmittedStart := by
      unfold State.pgoodRises
      rw [held]
      rcases low with rfl | rfl | ⟨rfl, variant⟩
      · rfl
      · rfl
      · exact if_neg (by simp [State.setPgood, variant])
    obtain ⟨t, retracts, asked, unasked, shape⟩ := State.unadmittedStart_of legal hold
      (by rcases low with rfl | rfl | ⟨rfl, -⟩ <;> simp)
    obtain ⟨tnow, tptu, twdu, tccu, tntu, tmfn, -⟩ := retracts.keeps
    obtain ⟨r, record⟩ := retracts.psq
    refine ⟨_, exec_rises starts, starts ▸ s.pgoodRises_powerFrame, ?_⟩
    rw [shape]
    refine ⟨tnow, tmfn, twdu.trans wdu, tccu, rfl, ?_, fun claim => (asked claim).congr rfl rfl rfl rfl rfl, unasked⟩
    simp only [record]
    rfl
  · refine exec_rises ?_
    have faults : (s.setPgood true).pgoodRises = (s.setPgood true).feedFault := by
      unfold State.pgoodRises
      rw [held]
      rcases fault with rfl | ⟨rfl, variant⟩ | ⟨rfl, -⟩
      · rfl
      · exact if_pos (by simp [State.setPgood, variant])
      · rfl
    have still : ¬ ((s.setPgood true).psq.state = some .feedBounce ∧ (s.setPgood true).psq.restPhase = .running) := by
      rintro ⟨bounce, runs⟩
      rw [held] at bounce
      obtain rfl := Option.some.inj bounce
      rcases fault with other | ⟨other, -⟩ | ⟨-, rests⟩
      · cases other
      · cases other
      · exact rests runs
    rw [faults]
    unfold State.feedFault
    rw [if_neg (by simpa only [Bool.and_eq_true, decide_eq_true_eq] using still), held]
    exact State.raise_as (s := s) (u := s.setPgood true) _ _ rfl rfl rfl
  · subst bounce
    refine exec_rises ?_
    have faults : (s.setPgood true).pgoodRises = (s.setPgood true).feedFault := by
      unfold State.pgoodRises
      rw [held]
    rw [faults]
    unfold State.feedFault
    rw [if_pos (by simp [State.setPgood, hold, rests]), held]
    exact State.raise_as (s := s) _ _ (by rfl) (by rfl) (by rfl)
  · refine exec_rises ?_
    unfold State.pgoodRises
    rw [held]
    rcases level with rfl | rfl | rfl <;> rfl

end Sys2Proof.Machine


/-! ## The console line, the matches and the watchdog -/

namespace Sys2Proof.Machine

/-- An event of the receiver in the state it is defined in. -/
theorem exec_in_rx {c : Instr} {s u : State} {rx : RxState} {event : State → State} (released : s.rstn = false)
    (standing : s.ccu.rx = rx) (known : event s = u) (receives : c.effect s = s.inRx rx event := by rfl)
    (plain : c.isPlain = true := by rfl) : exec c s = .next (settle u) := by
  rw [exec_effect released plain, receives, State.inRx_of_eq s rx event standing, known]

/-- Settles O39: the receiver's events by its state, and the input queue's items. -/
theorem receiverAndInputQueueEvents : Obligations.ReceiverAndInputQueueEvents := by
  refine ⟨fun s lengthMs released => ⟨fun rx => ?_, fun rx => ?_, fun rx => ?_, fun rx stopped => ?_, fun rx runs few => ?_⟩,
    fun s released => ⟨fun b tx => ?_, fun due tx => ?_, fun tx => ?_, (State.startInput_inputBegun s).text,
      (State.startInput_inputBegun s).brk⟩, Ccu.addMark_marked⟩
  · exact exec_in_rx released rx rfl
  · refine exec_in_rx released rx ?_
    simp only [Ccu.countGarbled, sat32, ite_not]
    rfl
  · exact exec_in_rx released rx rfl
  · refine exec_in_rx released rx ?_
    rw [State.mark, (Ccu.addMark_marked s.ccu s.now .breakIn (sat32 lengthMs)).stopped stopped]
    rfl
  · refine exec_in_rx released rx ?_
    rw [State.mark, (Ccu.addMark_marked s.ccu s.now .breakIn (sat32 lengthMs)).added runs few]
    simp [State.setRx, sat32, max32]
  · refine exec_of_effect released ?_
    change s.textSent = _
    simp only [State.textSent, tx]
    rfl
  · refine exec_of_effect released ?_
    change s.breakOutOver = _
    simp only [State.breakOutOver, tx]
    rfl
  · refine exec_of_effect released ?_
    change s.guardOver = _
    exact if_pos tx

/-- Settles O42: the deadline in ARMED and ON is an expiry of cause DEADLINE. -/
theorem deadlineExpiryRespondsByAction : Obligations.DeadlineExpiryRespondsByAction := by
  intro s due released armed hold running
  refine ⟨_, exec_of_expiry released running rfl, ?_⟩
  rw [State.deadlineReached, if_pos (by simp [State.timeTo, armed, hold])]
  exact (s.timeTo due).watchdogExpiry_expires 1 armed hold

/-- Settles O41: the matches of the byte just captured, delivered in turn; of one alone, its delivery. -/
theorem matchesAreDeliveredByTheirAction : Obligations.MatchesAreDeliveredByTheirAction := by
  intro s b released rx room few
  have effect : exec (.consoleGoodByte b) s = .next (settle (s.withByte b).deliverMatches) :=
    exec_in_rx released rx (s.goodByte_eq b room few)
  obtain ⟨rising, listed⟩ := s.matchedEntries_spec b
  have delivered := State.foldl_deliver_matchesDelivered (s.withByte b).matchedEntries (s.withByte b)
  refine ⟨⟨_, _, effect, delivered, rising, listed⟩, fun k p completes alone => ⟨_, effect, ?_⟩⟩
  have entries : (s.withByte b).matchedEntries.map (fun e => (e.1, e.2.action)) = [(k, p.action)] := by
    generalize (s.withByte b).matchedEntries.map (fun e => (e.1, e.2.action)) = l at rising listed
    match l with
    | [] => exact absurd ((listed k p.action).2 ⟨p, completes, rfl⟩) (by simp)
    | [(j, action)] =>
      have member := (listed k p.action).2 ⟨p, completes, rfl⟩
      simpa [eq_comm] using member
    | (j, action) :: (i, other) :: rest =>
      obtain ⟨q, completes_q, -⟩ := (listed j action).1 (by simp)
      obtain ⟨q', completes_q', -⟩ := (listed i other).1 (by simp)
      have same : j = i := (alone j q completes_q).trans (alone i q' completes_q').symm
      simp [same] at rising
  rw [entries] at delivered
  cases delivered with
  | next first rest =>
    cases rest
    exact first

/-! ### What a match leaves of the byte captured -/

/-- What of CCU a byte captures and no match changes. -/
def Ccu.capturedPart (c : Ccu) : Nat × Bytes × RxState × Bytes := (c.captured, c.buffer, c.rx, c.window)

@[simp] theorem Ccu.putLosses_capturedPart (c : Ccu) (now : Time) : (c.putLosses now).capturedPart = c.capturedPart := by
  unfold Ccu.putLosses Ccu.putLost Ccu.putGarbled
  (repeat' split) <;> rfl

@[simp] theorem State.mark_capturedPart (s : State) (kind : MarkKind) (arg : Nat) :
    (s.mark kind arg).ccu.capturedPart = s.ccu.capturedPart := by
  change (s.ccu.addMark s.now kind arg).capturedPart = _
  unfold Ccu.addMark
  split
  · exact s.ccu.putLosses_capturedPart s.now
  · rfl

@[simp] theorem State.actReset_capturedPart (s : State) (source : Nat) :
    (s.actReset source).2.ccu.capturedPart = s.ccu.capturedPart := by
  unfold State.actReset
  split
  · simp [State.startYoung]
  · rfl

@[simp] theorem wduTakes_ccu (source action : Nat) (answer : OrderStatus × State) :
    (wduTakes source action answer).2.ccu = answer.2.ccu := by
  unfold wduTakes
  split <;> simp

@[simp] theorem State.faultRequest_capturedPart (s : State) (source : Nat) (response : FaultAction) :
    (s.faultRequest source response).2.ccu.capturedPart = s.ccu.capturedPart := by
  unfold State.faultRequest
  split <;> simp

@[simp] theorem State.watchdogExpiry_capturedPart (s : State) (cause : Nat) :
    (s.watchdogExpiry cause).ccu.capturedPart = s.ccu.capturedPart := by
  unfold State.watchdogExpiry
  dsimp only
  split <;> simp [State.runDeadline]

@[simp] theorem State.deliverMatch_capturedPart (s : State) (entry : Nat) (action : PatternAction) :
    (s.deliverMatch entry action).ccu.capturedPart = s.ccu.capturedPart := by
  unfold State.deliverMatch
  cases action with
  | heartbeat =>
    simp only [State.heartbeat, State.runDeadline]
    (repeat' split) <;> simp
  | panic =>
    simp only [State.panic]
    split <;> simp
  | bootDone => simp
  | note => simp

theorem State.deliverMatches_capturedPart (s : State) : s.deliverMatches.ccu.capturedPart = s.ccu.capturedPart := by
  unfold State.deliverMatches
  generalize s.matchedEntries = entries
  induction entries generalizing s with
  | nil => rfl
  | cons e rest ih => exact (ih _).trans (s.deliverMatch_capturedPart _ _)

/-- Settles O40: room in the buffer decides between capture and loss. -/
theorem goodByteIsCapturedOrCountedLost : Obligations.GoodByteIsCapturedOrCountedLost := by
  intro s b released rx
  refine ⟨fun full => ?_, fun room => ?_, fun room few none => ?_⟩
  · refine exec_in_rx released rx ?_
    rw [State.goodByte, if_neg (Nat.not_lt.2 full)]
    simp only [Ccu.countLost, sat32, ite_not]
    rfl
  · refine ⟨_, exec_in_rx released rx rfl, ?_⟩
    have part : (s.goodByte b).ccu.capturedPart =
        (s.ccu.captured + 1, s.ccu.buffer ++ [b], .idle, (s.ccu.window ++ [b]).drop ((s.ccu.window ++ [b]).length - 32)) := by
      have kept := s.ccu.putLosses_capturedPart s.now
      simp only [Ccu.capturedPart, Prod.mk.injEq] at kept
      obtain ⟨captured, buffer, idle, window⟩ := kept
      rw [State.goodByte, if_pos room, State.deliverMatches_capturedPart]
      simp only [State.advanceGaps, Ccu.capture, Ccu.capturedPart, captured, buffer, idle, window, rx]
    simp only [Ccu.capturedPart, Prod.mk.injEq] at part
    obtain ⟨captured, buffer, idle, window⟩ := part
    simp [captured, buffer, idle, window]
  · refine exec_in_rx released rx ?_
    have unmatched : (s.withByte b).matchedEntries = [] := by
      rw [← List.map_eq_nil_iff (f := fun e : Nat × Pattern => (e.1, e.2.action)), List.eq_nil_iff_forall_not_mem]
      rintro ⟨k, action⟩ member
      obtain ⟨p, completes, -⟩ := ((s.matchedEntries_spec b).2 k action).1 member
      exact none k p completes
    rw [s.goodByte_eq b room few, State.deliverMatches, unmatched]
    rfl

end Sys2Proof.Machine


/-! ## The port and the server's requests -/

namespace Sys2Proof.Machine

/-! ### The port -/

theorem exec_vbsenseHigh {s : State} (released : s.rstn = false) :
    exec .vbsenseHigh s = .next (settle ((s.setVbsense true).vbusRises)) := ends_released (s.setVbsense true) _ released

theorem exec_vbsenseLow {s : State} (released : s.rstn = false) : exec .vbsenseLow s =
    .next (settle (({ s.setVbsense false with mfn := s.mfn.portLost .unpowered } : State).closeRequest)) :=
  ends_released (s.setVbsense false)
    (fun t => ({ t with mfn := t.mfn.portLost .unpowered } : State).closeRequest) released

theorem Mfn.onBus_iff (m : Mfn) : m.onBus = true ↔ m.port = .connected ∨ m.port = .configured := by simp [Mfn.onBus]

/-- A port event in the states it is defined in, and in the others. -/
theorem exec_when {c : Instr} {s : State} {guard : Bool} {event : State} (released : s.rstn = false)
    (guarded : c.effect s = if guard then event else s) (plain : c.isPlain = true := by rfl) :
    (guard = true → exec c s = .next (settle event)) ∧ (guard = false → exec c s = .next (settle s)) :=
  ⟨fun h => exec_of_effect released (guarded.trans (if_pos h)) plain,
    fun h => exec_of_effect released (guarded.trans (if_neg (by simp [h]))) plain⟩

/-- Settles O58: each bus event by the port's state. -/
theorem portFollowsTheBus : Obligations.PortFollowsTheBus := by
  intro s released
  have on_bus : (s.mfn.port = .connected ∨ s.mfn.port = .configured) → s.mfn.onBus = true := s.mfn.onBus_iff.2
  have off_bus : ¬ (s.mfn.port = .connected ∨ s.mfn.port = .configured) → s.mfn.onBus = false := fun h => by
    simpa [← Mfn.onBus_iff] using h
  have standard (q : UsbRequest) := exec_when (c := .usbStandardRequest q) (guard := s.mfn.onBus)
    (event := { s with mfn := s.mfn.standard q }) released rfl
  have suspend := exec_when (c := .usbBusIdleSuspend) (guard := s.mfn.onBus)
    (event := { s with mfn := { s.mfn with port := .suspended, remembered := s.mfn.port } }) released rfl
  have wake := exec_when (c := .usbSetRemoteWake) (guard := s.mfn.onBus)
    (event := { s with mfn := { s.mfn with remoteWake := true } }) released rfl
  have unwake := exec_when (c := .usbClearRemoteWake) (guard := s.mfn.onBus)
    (event := { s with mfn := { s.mfn with remoteWake := false } }) released rfl
  have configure := exec_when (c := .usbSetConfiguration) (guard := s.mfn.port = .connected)
    (event := s.setPort .configured) released (by simp [Instr.effect])
  have resume := exec_when (c := .usbBusActivityResume) (guard := s.mfn.port = .suspended)
    (event := s.setPort s.mfn.remembered) released (by simp [Instr.effect, State.resumePort])
  refine ⟨fun bus => ⟨fun which => (standard _).1 (on_bus bus), fun a => (standard _).1 (on_bus bus),
    suspend.1 (on_bus bus), wake.1 (on_bus bus), unwake.1 (on_bus bus)⟩, fun off => ⟨suspend.2 (off_bus off),
    wake.2 (off_bus off), unwake.2 (off_bus off), fun q => (standard q).2 (off_bus off)⟩, fun up => ?_, fun down => ?_,
    fun up => ?_, fun down => ?_, fun due running => ?_, fun none => ?_, ?_⟩
  · exact configure.1 (by simpa using up)
  · exact configure.2 (by simpa using down)
  · exact resume.1 (by simpa using up)
  · exact resume.2 (by simpa using down)
  · refine exec_of_expiry released running
      (event := fun u => ({ u with mfn := { u.mfn with resume := Option.none } } : State).resumePort) ?_
    unfold State.resumePort
    by_cases asleep : s.mfn.port = .suspended
    · rw [if_pos (by exact asleep), if_pos asleep]
      rfl
    · rw [if_neg (by exact asleep), if_neg asleep]
      rfl
  · refine exec_of_effect released ?_
    change s.expires s.mfn.resume
      (fun u => ({ u with mfn := { u.mfn with resume := Option.none } } : State).resumePort) = _
    rw [none, State.expires_none]
  · rw [exec_vbsenseHigh released]
    unfold State.vbusRises
    by_cases down : s.mfn.port = .unpowered
    · rw [if_pos (by exact down), if_pos down]
      rfl
    · rw [if_neg (by exact down), if_neg down]
      rfl

/-- Settles O59: each abort closes the request from the port's new state. -/
theorem abortsEndTheRequest : Obligations.AbortsEndTheRequest := by
  intro s released
  refine ⟨fun up => ⟨_, ?_, State.closeRequest_requestEnded _⟩, fun bus => ⟨_, ?_, State.closeRequest_requestEnded _⟩,
    ⟨_, exec_vbsenseLow released, State.closeRequest_requestEnded _⟩,
    fun due running => ⟨_, exec_of_expiry released running rfl, State.closeRequest_requestEnded _⟩⟩
  · exact (exec_when (c := .usbClearConfiguration) (guard := s.mfn.port = .configured) released
      (by simp only [decide_eq_true_eq]; rfl)).1 (by simpa using up)
  · exact (exec_when (c := .usbBusReset) (guard := s.mfn.attachedToBus) released rfl).1
      (by simpa [Mfn.attachedToBus, Mfn.onBus, or_assoc] using bus)

/-! ### The server's requests (R123, R124) -/

/-- A command that carries a block request is taken by R123's tests. -/
theorem blockRequest_effect {c : Instr} {isWrite : Bool} {range : Option (Nat × Nat)}
    (request : blockRequest c = some (isWrite, range)) :
    c.isPlain = true ∧ ∃ execute, ∀ s : State, c.effect s = s.serverRequest isWrite range execute := by
  cases c
  case read first count =>
    simp only [blockRequest] at request
    split at request
    next fits =>
      obtain ⟨rfl, rfl⟩ := Prod.mk.inj (Option.some.inj request)
      exact ⟨rfl, _, fun s => if_pos (by simpa [countWellFormed] using fits)⟩
    next => cases request
  case write first count =>
    simp only [blockRequest] at request
    split at request
    next fits =>
      obtain ⟨rfl, rfl⟩ := Prod.mk.inj (Option.some.inj request)
      exact ⟨rfl, _, fun s => if_pos (by simpa [countWellFormed] using fits)⟩
    next => cases request
  case capacity =>
    obtain ⟨rfl, rfl⟩ := Prod.mk.inj (Option.some.inj request)
    exact ⟨rfl, fun u => { u with mfn := { u.mfn with usbData := be 4 u.mfn.capacity, usbStatus := some .good } },
      fun s => rfl⟩
  case ready =>
    obtain ⟨rfl, rfl⟩ := Prod.mk.inj (Option.some.inj request)
    exact ⟨rfl, State.answerGood, fun s => rfl⟩
  case eject =>
    obtain ⟨rfl, rfl⟩ := Prod.mk.inj (Option.some.inj request)
    exact ⟨rfl, fun u => u.answerGood.detachTrigger .eject, fun s => rfl⟩
  all_goals cases request

section
variable {s : State} {isWrite : Bool} {range : Option (Nat × Nat)} {execute : State → State}

theorem State.serverRequest_untaken (h : s.mfn.port ≠ .configured ∨ s.mfn.request.isSome) :
    s.serverRequest isWrite range execute = s := by
  refine if_neg ?_
  rcases h with port | busy
  · simp [port]
  · simpa [← Option.isSome_iff_ne_none] using fun _ => busy

/-- A request that the tests refuse sends their status. -/
theorem State.serverRequest_refused (port : s.mfn.port = .configured) (idle : s.mfn.request = none) {status : UsbStatus}
    (test : s.mfn.requestTest isWrite range = some status) : s.serverRequest isWrite range execute = { s with
      mfn := { s.mfn with
        usbStatus := some status, usbData := [], changed := s.mfn.changed || status = .mediumChanged } } := by
  unfold State.serverRequest
  rw [if_pos (by simp [port, idle]), test]
  cases status <;> simp

/-- A request that passes the tests is executed, nothing being left of the last one's blocks and status. -/
theorem State.serverRequest_executed (port : s.mfn.port = .configured) (idle : s.mfn.request = none)
    (test : s.mfn.requestTest isWrite range = none) : s.serverRequest isWrite range execute =
      execute { s with mfn := { s.mfn with usbData := [], usbStatus := none } } := by
  unfold State.serverRequest
  rw [if_pos (by simp [port, idle]), test]

end

/-- The drain timer's run-out is not told of a teardown, which stops it. -/
theorem State.TornDown.of_drain {s t : State} {drain : Option Time}
    (h : ({ s with mfn := { s.mfn with drain := drain } } : State).TornDown t) : s.TornDown t :=
  ⟨h.frame, h.wants, h.frames, h.lines⟩

/-- Settles O56: the tests of R123 in turn, then what CAPACITY, READY and EJECT answer. -/
theorem requestTestsAndAnswers : Obligations.RequestTestsAndAnswers := by
  intro s c isWrite range released request
  obtain ⟨plain, execute, effect⟩ := blockRequest_effect request
  have answers {u : State} (h : s.serverRequest isWrite range execute = u) : exec c s = .next (settle u) :=
    exec_of_effect released ((effect s).trans h) plain
  refine ⟨fun untaken => answers (State.serverRequest_untaken untaken), fun port idle => ⟨fun state cause => ?_,
    fun live => ⟨fun fresh => ?_, fun told => ⟨fun write readOnly => ?_, fun allowed outside => ?_, fun isCapacity => ?_,
      fun isReady => ?_, fun isEject state => ?_⟩⟩⟩⟩
  · refine answers ((State.serverRequest_refused port idle (status := .notReady) ?_).trans ?_)
    · simp [Mfn.requestTest, Mfn.draining, state, cause]
    · simp
  all_goals
    have calm : s.mfn.draining = false := by
      rcases live with other | none
      · simp [Mfn.draining, other]
      · simp [Mfn.draining, none]
  · refine answers ((State.serverRequest_refused port idle (status := .mediumChanged) ?_).trans ?_)
    · simp [Mfn.requestTest, calm, fresh]
    · simp
  · refine answers ((State.serverRequest_refused port idle (status := .writeProtected) ?_).trans ?_)
    · simp [Mfn.requestTest, calm, told, write, readOnly]
    · simp [told]
  · obtain ⟨first, count, rfl, far⟩ := outside
    refine answers ((State.serverRequest_refused port idle (status := .outOfRange) ?_).trans ?_)
    · rcases allowed with reads | overlaid <;> simp [Mfn.requestTest, calm, told, far, *]
    · simp [told]
  all_goals
    subst c
    obtain ⟨rfl, rfl⟩ := Prod.mk.inj (Option.some.inj request)
    have test : s.mfn.requestTest false none = none := by simp [Mfn.requestTest, calm, told]
  · refine exec_of_effect released ((State.serverRequest_executed (execute := fun u =>
      { u with mfn := { u.mfn with usbData := be 4 u.mfn.capacity, usbStatus := some .good } }) port idle test).trans ?_)
    simp [told]
  · refine exec_of_effect released ((State.serverRequest_executed port idle test).trans ?_)
    simp [State.answerGood, told]
  · have none : s.mfn.cause = none := by
      rcases live with other | none
      · exact absurd state other
      · exact none
    refine ⟨_, exec_of_effect released (State.serverRequest_executed
      (execute := fun u => u.answerGood.detachTrigger .eject) port idle test), ?_⟩
    unfold State.detachTrigger
    rw [if_pos (by simp [State.answerGood, state, none]), if_pos (by simp [State.answerGood, idle])]
    exact State.TornDown.of_drain (State.teardown_tornDown _)

end Sys2Proof.Machine


/-! ## READ and WRITE begin their transfer -/

namespace Sys2Proof.Machine

/-- The steps of a request cover its blocks, line by line (R125). -/
theorem requestSteps_covers {first count : Nat} (some_ : 1 ≤ count) : CoversBlocks (requestSteps first count) first count where
  rising := by
    unfold requestSteps
    rw [List.pairwise_map]
    exact List.pairwise_lt_range.imp fun h => by dsimp only; omega
  within := by
    intro st member
    obtain ⟨i, inside, rfl⟩ := List.mem_map.1 member
    rw [List.mem_range] at inside
    dsimp only
    split <;> split <;> omega
  blocks := by
    intro b
    simp only [requestSteps, List.mem_map, List.mem_range, exists_exists_and_eq_and]
    constructor
    · rintro ⟨low, high⟩
      refine ⟨b / 4 - first / 4, by omega, by omega, ?_, ?_⟩
      · split <;> omega
      · split <;> omega
    · rintro ⟨i, inside, line, low, high⟩
      split at low <;> split at high <;> omega

theorem CoversBlocks.map_lookup {s : State} {steps : List XferStep} {first count : Nat}
    (covers : CoversBlocks steps first count) : CoversBlocks (steps.map s.lookupStep) first count := by
  have same (st : XferStep) := (s.lookupStep_lookedUpAgain st).2
  refine ⟨?_, ?_, fun b => ?_⟩
  · rw [List.pairwise_map]
    exact covers.rising.imp fun {a b} h => by rw [(same a).1, (same b).1]; exact h
  · intro st member
    obtain ⟨old, inside, rfl⟩ := List.mem_map.1 member
    obtain ⟨-, first_, last⟩ := same old
    rw [first_, last]
    exact covers.within old inside
  · rw [covers.blocks b]
    constructor
    · rintro ⟨st, member, line, low, high⟩
      obtain ⟨line_, first_, last⟩ := same st
      exact ⟨_, List.mem_map_of_mem member, by rw [line_]; exact line, by rw [first_]; exact low, by rw [last]; exact high⟩
    · rintro ⟨st, member, line, low, high⟩
      obtain ⟨old, inside, rfl⟩ := List.mem_map.1 member
      obtain ⟨line_, first_, last⟩ := same old
      exact ⟨old, inside, line_ ▸ line, first_ ▸ low, last ▸ high⟩

theorem XferStep.blocks_length {st : XferStep} (ordered : st.first ≤ st.last) (inside : st.last ≤ 3) :
    st.blocks.length = st.last - st.first + 1 := by
  have small : ∀ last < 4, ∀ first ≤ last,
      ((List.range 4).filter (fun b => Decidable.decide (first ≤ b) && Decidable.decide (b ≤ last))).length =
        last - first + 1 := by decide
  exact small st.last (by omega) st.first ordered

/-- READ and WRITE of a whole request that the tests pass begin its transfer. -/
theorem blockRequest_begins {c : Instr} {isWrite : Bool} {first count : Nat} {s : State}
    (request : blockRequest c = some (isWrite, some (first, count))) : 1 ≤ count ∧ c.isPlain = true ∧ c.effect s =
      s.serverRequest isWrite (some (first, count))
        (fun u => u.beginRequest (if isWrite then .write else .read) first count) := by
  cases c
  case read place n =>
    simp only [blockRequest] at request
    split at request
    next fits =>
      cases request
      exact ⟨fits.1, rfl, if_pos (by simpa [countWellFormed] using fits)⟩
    next => cases request
  case write place n =>
    simp only [blockRequest] at request
    split at request
    next fits =>
      cases request
      exact ⟨fits.1, rfl, if_pos (by simpa [countWellFormed] using fits)⟩
    next => cases request
  all_goals cases request

/-- Settles O57: the request's record with its steps, and a WRITE's blocks as they come. -/
theorem readAndWriteBeginTheirTransfer : Obligations.ReadAndWriteBeginTheirTransfer := by
  refine ⟨fun s c isWrite first count released request port idle calm told allowed inside => ?_,
    fun s r st data released request write empty next pending ordered bound whole => ?_⟩
  · obtain ⟨some_, plain, effect⟩ := blockRequest_begins (s := s) request
    have test : s.mfn.requestTest isWrite (some (first, count)) = none := by
      rcases allowed with reads | overlaid <;> simp [Mfn.requestTest, calm, told, inside, *]
    have covers := requestSteps_covers (first := first) some_
    have begins := effect.trans (State.serverRequest_executed port idle test)
    cases isWrite
    · refine ⟨(requestSteps first count).map s.lookupStep, covers.map_lookup, fun _ st member => ?_, by simp,
        exec_of_effect released (begins.trans ?_) plain⟩
      · obtain ⟨old, -, rfl⟩ := List.mem_map.1 member
        exact (s.lookupStep_lookedUpAgain old).1
      · rfl
    · refine ⟨requestSteps first count, covers, by simp, fun _ st member => ?_,
        exec_of_effect released (begins.trans ?_) plain⟩
      · obtain ⟨i, -, rfl⟩ := List.mem_map.1 member
        exact ⟨rfl, rfl⟩
      · rfl
  · have length : st.blocks.length = st.last - st.first + 1 := XferStep.blocks_length ordered bound
    refine exec_of_effect released ?_
    change (if stepDataWellFormed data then s.stepData data else s) = _
    rw [if_pos (by simp only [stepDataWellFormed, Bool.and_eq_true, decide_eq_true_eq]; omega)]
    simp only [State.stepData, request, next]
    rw [if_pos (by simp [write, pending, empty, length, whole]), length]
    rfl

end Sys2Proof.Machine


/-! ## The arbiter, the capture writes and the reads of the memory -/

namespace Sys2Proof.Machine

/-! ### The arbiter and the refresh debt (R98 to R100) -/

theorem State.arbiterGrants_idle {s : State} (up : s.mctl.mem = .up) (idle : s.mctl.current = none) :
    s.arbiterGrants = { s with mctl := s.mctl.grant s.ccu.buffer.length } := by
  simp [State.arbiterGrants, up, idle]

theorem State.arbiterGrants_none {s : State} (busy : s.mctl.mem ≠ .up ∨ s.mctl.current.isSome) :
    s.arbiterGrants = s := by
  rcases busy with down | inProgress
  · simp [State.arbiterGrants, down]
  · simp [State.arbiterGrants, Option.isSome_iff_ne_none.1 inProgress]

/-- A grant of the idle arbiter, from the part of `Mctl.grant` that the waiting requests choose. -/
theorem exec_arbiterGrant {s : State} {m : Mctl} (released : s.rstn = false) (up : s.mctl.mem = .up)
    (idle : s.mctl.current = none) (chosen : s.mctl.grant s.ccu.buffer.length = m) :
    exec .arbiterGrant s = .next (settle { s with mctl := m }) :=
  exec_of_effect released (by rw [← chosen]; exact State.arbiterGrants_idle up idle)

/-- Settles O28: one line of `Mctl.grant` per level, and the debt's three movements. -/
theorem arbiterGrantsAndRefreshesAreCounted : Obligations.ArbiterGrantsAndRefreshesAreCounted := by
  refine ⟨fun s released => ⟨fun up idle => ?_, fun busy =>
      exec_of_effect released (State.arbiterGrants_none busy)⟩,
    fun s released => ⟨fun up => ?_, fun down => ?_, fun rep current => ?_, fun c current other owed => ?_,
      fun c current other young => ?_⟩⟩
  · have grants := @exec_arbiterGrant s
    refine ⟨fun owed => grants released up idle (by simp [Mctl.grant, owed]), fun young => ?_⟩
    have young : ¬ 8 ≤ s.mctl.debt := by omega
    refine ⟨fun capture => grants released up idle (by simp [Mctl.grant, young, capture]), fun capture => ?_⟩
    refine ⟨fun line data rest recv => grants released up idle (by simp [Mctl.grant, young, capture, recv]),
      fun recv => ?_⟩
    refine ⟨fun m rest media => grants released up idle (by simp [Mctl.grant, young, capture, recv, media]),
      fun media => ?_⟩
    refine ⟨fun a b forward => grants released up idle (by simp [Mctl.grant, young, capture, recv, media, forward]),
      fun forward => ?_⟩
    refine ⟨fun line seq send => grants released up idle
      (by simp [Mctl.grant, young, capture, recv, media, forward, send]), fun send => ?_⟩
    refine ⟨fun ahead => grants released up idle ?_, fun early => ?_⟩
    · simp [Mctl.grant, young, capture, recv, media, forward, send, Mctl.refreshEligible]
      omega
    · have none : s.mctl.grant s.ccu.buffer.length = s.mctl := by
        simp [Mctl.grant, young, capture, recv, media, forward, send, Mctl.refreshEligible]
        omega
      exact grants released up idle none
  · exact exec_of_effect released (if_pos up)
  · exact exec_of_effect released (if_neg down)
  · refine exec_of_effect released ?_
    change s.refreshGiven = _
    simp [State.refreshGiven, current]
  · refine exec_of_effect released ?_
    change s.refreshGiven = _
    simp [State.refreshGiven, current, other, owed]
  · refine exec_of_effect released ?_
    change s.refreshGiven = _
    simp [State.refreshGiven, current, other, show ¬ 8 ≤ s.mctl.debt by omega]

/-! ### Completions: a step, or a fault past the device (log 30) -/

theorem completes_released {s : State} (fits : Bool) (effect : State → State) (released : s.rstn = false) :
    completes s fits effect = if fits then .next (settle (effect s)) else .fault .noSuchAddress := by
  simp [completes, released]

theorem exec_captureWriteComplete {s : State} {n : Nat} {rep : Bool} (released : s.rstn = false)
    (current : s.mctl.current = some { req := .capture n, reported := rep }) :
    exec .captureWriteComplete s =
      if s.ringFits then .next (settle (s.requestOver.captureStored n)) else .fault .noSuchAddress := by
  rw [← completes_released s.ringFits (fun t => t.requestOver.captureStored n) released]
  change execCaptureWriteComplete s = _
  simp [execCaptureWriteComplete, current]

theorem exec_consoleForwardReadComplete {s : State} {first finish : Nat} {rep : Bool} (released : s.rstn = false)
    (current : s.mctl.current = some { req := .forward first finish, reported := rep }) :
    exec .consoleForwardReadComplete s =
      if s.ringFits then .next (settle (if rep then s.requestOver.forwardRead first finish else s.requestOver))
      else .fault .noSuchAddress := by
  rw [← completes_released s.ringFits
    (fun t => if rep then t.requestOver.forwardRead first finish else t.requestOver) released]
  change execConsoleForwardReadComplete s = _
  simp [execConsoleForwardReadComplete, current]

/-- The give buffer takes the 2,048 bytes of a line whose read has ended (R169). -/
def State.sendRead (s : State) (pos seq : Nat) : State :=
  { s.requestOver with
    lif := { s.lif with giveBuf := s.lif.giveBuf.arrived seq (Memory.readBytes s.sdram (s.lineAt pos) 2048) } }

theorem exec_laneSendReadComplete {s : State} {pos seq : Nat} {rep : Bool} (released : s.rstn = false)
    (current : s.mctl.current = some { req := .send pos seq, reported := rep }) :
    exec .laneSendReadComplete s =
      if s.lineFits pos then .next (settle (if rep then s.sendRead pos seq else s.requestOver))
      else .fault .noSuchAddress := by
  rw [← completes_released (s.lineFits pos) (fun t => if rep then t.sendRead pos seq else t.requestOver) released]
  change execLaneSendReadComplete s = _
  simp only [execLaneSendReadComplete, current]
  rfl

/-! ### The ring (R54) -/

/-- A byte read back at its place in the ring, the string written no longer than the ring. -/
theorem Memory.read_writeRing_at (bs : Bytes) (m : Memory) (ring offset : Nat) (wf : Memory.wf m)
    (room : bs.length ≤ ring) {i : Nat} {b : Byte} (written : bs[i]? = some b) :
    (Memory.writeRing m ring offset bs).read ((offset + i) % ring) = b := by
  induction bs generalizing m offset i with
  | nil => simp at written
  | cons v bs ih =>
    simp only [List.length_cons] at room
    have wf' := Memory.write_wf m (offset % ring) v wf
    cases i with
    | zero =>
      have first : v = b := by simpa using written
      have apart : ∀ j < bs.length, (offset + 0) % ring ≠ (offset + 1 + j) % ring := by
        intro j short same
        have congr : 0 ≡ 1 + j [MOD ring] :=
          Nat.ModEq.add_left_cancel' offset (by rw [← Nat.add_assoc]; exact same)
        have := Nat.le_of_dvd (by omega) ((Nat.modEq_zero_iff_dvd).1 congr.symm)
        omega
      unfold Memory.writeRing
      rw [Memory.read_writeRing_outside _ _ _ _ _ wf' apart, Memory.read_write _ _ _ _ wf]
      simp [first]
    | succ i =>
      unfold Memory.writeRing
      rw [show offset + (i + 1) = offset + 1 + i by omega]
      exact ih _ _ wf' (by omega) (by simpa using written)

theorem Memory.readRing_drop (m : Memory) (ring offset n k : Nat) :
    (Memory.readRing m ring offset n).drop k = Memory.readRing m ring (offset + k) (n - k) := by
  induction n generalizing offset k with
  | zero => simp [Memory.readRing]
  | succ n ih =>
    cases k with
    | zero => simp
    | succ k =>
      rw [Nat.add_sub_add_right, show offset + (k + 1) = offset + 1 + k by omega, ← ih]
      rfl

theorem Memory.readRing_take (m : Memory) (ring offset n k : Nat) :
    (Memory.readRing m ring offset n).take k = Memory.readRing m ring offset (min k n) := by
  induction n generalizing offset k with
  | zero => simp [Memory.readRing]
  | succ n ih =>
    cases k with
    | zero => simp [Memory.readRing]
    | succ k =>
      rw [Nat.add_min_add_right]
      simp [Memory.readRing, ih]

/-- Settles O29: the buffer's first bytes at their places in the ring. -/
theorem captureWriteStoresTheBytesInTheRing : Obligations.CaptureWriteStoresTheBytesInTheRing := by
  intro s n rep released current
  have completes := exec_captureWriteComplete released current
  refine ⟨fun fits wf room => ⟨s.requestOver.captureStored n, ?_, fun i b written => ?_, fun a outside => ?_, ?_⟩,
    fun past => ?_⟩
  · rw [completes, if_pos (by simpa [State.ringFits] using fits)]
  · exact Memory.read_writeRing_at _ _ _ _ wf room written
  · exact Memory.read_writeRing_outside _ _ _ _ _ wf outside
  · have waits : ∀ w : Watcher, w.wait s.ccu { s.ccu with buffer := s.ccu.buffer.drop n } s.now =
        if s.ccu.stored ≤ w.sendPtr ∧ w.sendPtr < s.ccu.captured - (s.ccu.buffer.drop n).length then
          { w with waitStart := some s.now } else w := by
      intro w
      simp only [Watcher.wait, Watcher.readable, Ccu.stored, Nat.sub_eq_zero_iff_le, Nat.sub_pos_iff_lt,
        Bool.and_eq_true, decide_eq_true_eq]
      exact if_congr Iff.rfl rfl rfl
    simp only [State.captureStored, State.requestOver, waits]
  · rw [completes, if_neg (by simpa [State.ringFits] using past)]

/-! ### The frame built from a read (R74) -/

/-- A search for the marks from the next mark number on: none at the mark counter, and the number stands in the list
otherwise. -/
theorem Ccu.marksFrom_normalMark (w : Watcher) (c : Ccu) :
    c.marksFrom (w.normalMark c) =
      if w.normalMark c = c.markCounter then [] else c.marks.dropWhile (fun m => m.number ≠ w.normalMark c) := by
  unfold Ccu.marksFrom
  by_cases counter : w.normalMark c = c.markCounter
  · rw [if_pos counter, if_pos counter]
  rw [if_neg counter, if_neg counter]
  by_cases listed : c.marks.any (fun m => m.number = w.normalMark c)
  · rw [if_pos listed]
  · exfalso
    revert counter listed
    unfold Watcher.normalMark
    split
    next kept =>
      rcases Bool.or_eq_true_iff.1 kept with same | there
      · exact fun counter _ => counter (by simpa using same)
      · exact fun _ listed => listed there
    next =>
      unfold Ccu.oldestMark
      cases c.marks with
      | nil => simp
      | cons m rest => simp

theorem Watcher.normalMark_eq (w : Watcher) (c : Ccu) :
    w.normalMark c = if w.nextMark = c.markCounter ∨ (∃ m ∈ c.marks, m.number = w.nextMark) then w.nextMark
      else ((c.marks.head?).map Mark.number).getD c.markCounter := by
  simp [Watcher.normalMark, Ccu.oldestMark]

/-- The offset of the ninth mark due is never past the read's end, so the frame ends there (R74, step 4). -/
theorem Watcher.build_finish (marks : List Mark) (finish : Nat) :
    (match (marks.takeWhile (fun m => m.offset ≤ finish))[8]? with
      | some m => if m.offset < finish then m.offset else finish
      | none => finish) = (((marks.takeWhile (fun m => m.offset ≤ finish))[8]?).map Mark.offset).getD finish := by
  split
  next m ninth =>
    have inside : m.offset ≤ finish := by
      simpa using List.mem_takeWhile_imp (List.mem_of_getElem? ninth)
    rw [ninth]
    simp only [Option.map_some, Option.getD_some]
    split <;> omega
  next none_ => rw [none_]; rfl

/-- What a build yields for a frame that ends at `cut`, with the marks `marks` from `next` on and the text given (R74). -/
def Watcher.builtTo (w : Watcher) (c : Ccu) (now : Time) (next : BitVec 32) (marks : List Mark) (cut : Nat)
    (text : Bytes) : Built :=
  let record : InFlight :=
    { start := w.sendPtr, finish := cut, gap := w.gap
      resume := ((marks.getLast?).map (fun m => m.number + 1)).getD next }
  { record := record
    body := be 8 w.sendPtr ++ be 4 w.gap ++ (byte marks.length :: (marks.map Mark.bytes).flatten) ++ text
    after := { w with
      nextMark := next, sendPtr := cut, waitStart := if cut < c.stored then some now else none
      inFlight := some record } }

/-- A frame whose read ends at or past the send pointer is built, its parts as R74 lists them. -/
theorem Watcher.build_of_reached {w : Watcher} {m : Memory} {c : Ccu} {now : Time} {first finish : Nat}
    (began : first ≤ w.sendPtr) (reached : w.sendPtr ≤ finish) :
    let next := w.normalMark c
    let due := (c.marksFrom next).takeWhile (fun m => m.offset ≤ finish)
    let cut := ((due[8]?).map Mark.offset).getD finish
    w.build c now first finish (Memory.readRing m c.ringSize first (finish - first)) = some
      (w.builtTo c now next (due.take 8) cut (Memory.readRing m c.ringSize w.sendPtr (cut - w.sendPtr))) := by
  intro next due cut
  have cutInside : cut ≤ finish := by
    change ((due[8]?).map Mark.offset).getD finish ≤ finish
    cases ninth : due[8]? with
    | none => simp
    | some m => simpa using List.mem_takeWhile_imp (List.mem_of_getElem? ninth)
  have text : ((Memory.readRing m c.ringSize first (finish - first)).drop (w.sendPtr - first)).take (cut - w.sendPtr) =
      Memory.readRing m c.ringSize w.sendPtr (cut - w.sendPtr) := by
    rw [Memory.readRing_drop, Memory.readRing_take]
    congr 1 <;> omega
  rw [← text, show cut = _ from (Watcher.build_finish (c.marksFrom next) finish).symm]
  unfold Watcher.build
  rw [if_neg (by omega)]
  rfl

theorem State.forwardRead_reading {s : State} {first finish : Nat} {o : OutFrame} {w : Watcher}
    (out : s.cfw.out = some o) (reading : o.standing = .reading)
    (watcher : s.cfw.watchers.find? (fun v => v.station = o.station) = some w) :
    s.forwardRead first finish = { s with
      cfw := s.cfw.buildFor s.ccu s.now w first finish
        (Memory.readRing s.sdram s.ccu.ringSize first (finish - first)) } := by
  simp only [State.forwardRead, out, reading, watcher, if_true]

theorem Cfw.buildFor_some {f : Cfw} {c : Ccu} {now : Time} {w : Watcher} {first finish : Nat} {data : Bytes} {b : Built}
    (built : w.build c now first finish data = some b) : f.buildFor c now w first finish data =
      { f.setWatcher b.after with
        out := some
          { station := w.station, standing := .frame .held, first := first, last := finish, body := b.body } } := by
  simp only [Cfw.buildFor, built]

theorem Cfw.buildFor_none {f : Cfw} {c : Ccu} {now : Time} {w : Watcher} {first finish : Nat} {data : Bytes}
    (built : w.build c now first finish data = none) : f.buildFor c now w first finish data = { f with out := none } := by
  simp only [Cfw.buildFor, built]

theorem State.lineFits_iff (s : State) (pos : Nat) :
    s.lineFits pos = true ↔ s.ccu.ringSize + 2048 * pos + 2048 ≤ s.mctl.size := by
  exact decide_eq_true_iff

theorem State.ringFits_iff (s : State) : s.ringFits = true ↔ s.ccu.ringSize ≤ s.mctl.size := by
  exact decide_eq_true_iff

theorem Mark.bytes_eq : Mark.bytes = fun m : Mark =>
    be 8 m.offset ++ be 4 m.number.toNat ++ [m.kind.code] ++ be 4 m.time.toNat ++ be 4 m.arg := by
  funext m
  simp [Mark.bytes]

/-- Settles O30: the frame a console read builds, and the give buffer a lane read fills. -/
theorem readsReachTheFrameAndTheGiveBuffer : Obligations.ReadsReachTheFrameAndTheGiveBuffer := by
  refine ⟨fun s first finish o w released current fits out reading watcher began => ?_,
    fun s first finish released current fits => ?_, fun s first finish rep released current past => ?_,
    fun s pos seq released current fits giving => ?_, fun s pos seq released current fits giving => ?_,
    fun s pos seq released current fits => ?_, fun s pos seq rep released current past => ?_⟩
  · have completes := (exec_consoleForwardReadComplete released current).trans (if_pos (s.ringFits_iff.2 fits))
    refine ⟨fun reached => ⟨_, ?_, rfl⟩, fun passed => ?_⟩
    · have built := Watcher.build_of_reached (w := w) (m := s.sdram) (c := s.ccu) (now := s.now) began reached
      rw [completes, if_pos rfl, State.forwardRead_reading (s := s.requestOver) out reading watcher]
      simp only [State.requestOver_keeps, Cfw.buildFor_some built]
      simp only [Ccu.marksFrom_normalMark]
      simp only [Watcher.normalMark_eq, Watcher.builtTo, Mark.bytes_eq, List.flatMap_def, List.append_assoc,
        List.cons_append, List.nil_append]
      rfl
    · have built : w.build s.ccu s.now first finish
          (Memory.readRing s.sdram s.ccu.ringSize first (finish - first)) = none := if_pos passed
      rw [completes, if_pos rfl, State.forwardRead_reading (s := s.requestOver) out reading watcher]
      simp only [State.requestOver_keeps, Cfw.buildFor_none built]
      rfl
  · rw [exec_consoleForwardReadComplete released current, if_pos (s.ringFits_iff.2 fits)]
    rfl
  · rw [exec_consoleForwardReadComplete released current, if_neg (by rw [s.ringFits_iff]; omega)]
  · rw [exec_laneSendReadComplete released current, if_pos ((s.lineFits_iff pos).2 fits), if_pos rfl]
    simp only [State.sendRead, giving, GiveBuf.arrived, if_true]
    rfl
  · rw [exec_laneSendReadComplete released current, if_pos ((s.lineFits_iff pos).2 fits), if_pos rfl]
    simp only [State.sendRead, giving, GiveBuf.arrived]
    rfl
  · rw [exec_laneSendReadComplete released current, if_pos ((s.lineFits_iff pos).2 fits)]
    rfl
  · rw [exec_laneSendReadComplete released current, if_neg (by rw [s.lineFits_iff pos]; omega)]

end Sys2Proof.Machine


/-! ## Every order at the head of the inbox, by its row (R190 to R192) -/

namespace Sys2Proof.Machine

/-- What the block of a row answers to an order that passed the tests (R190). -/
def OrderRow.answer : OrderRow → Order → State → Answer
  | .claim, o, u => .plain (u.actClaim o.sender (field o.params 0 1 = 1))
  | .releaseClaim, o, u => .plain (u.actReleaseClaim o.sender)
  | .status, _, u => u.actStatus
  | .watch, o, u =>
    let a := u.actWatch o.sender (field o.params 0 1) (field o.params 1 8)
    { status := a.1, detail := a.2.1, state := a.2.2 }
  | .unwatch, o, u => .plain (u.actUnwatch o.sender)
  | .powerOn, _, u => .plain u.actOn
  | .powerOffSoft, _, u => .plain (u.actOffSoft false)
  | .powerOffSoftThenHard, _, u => .plain (u.actOffSoft true)
  | .powerOffHard, _, u => .plain u.actOffHard
  | .powerReset, _, u => .plain (u.actReset 0)
  | .powerCycle, _, u => .plain u.actCycle
  | .powerFeedCut, _, u => .plain u.actFeedCut
  | .powerFeedRestore, _, u => .plain u.actFeedRestore
  | .powerWake, _, u => .plain u.actWake
  | .watchdogArm, o, u =>
    .plain (u.actArm (field o.params 0 2) o.armAction (field o.params 3 1 = 1) (field o.params 4 2))
  | .watchdogDisarm, _, u => .plain u.actDisarm
  | .watchdogRetime, o, u => .plain (u.actRetime (field o.params 0 2))
  | .attach, o, u =>
    .plain (u.actAttach (field o.params 0 2) (field o.params 2 1) (field o.params 3 4) o.attachMode
      (field o.params 8 1 = 1))
  | .detach, _, u => .plain u.actDetach
  | .breakOrder, o, u => .plain (u.actBreak o.sender)
  | .restart, _, u => u.actRestart
  | .invalid, _, u => { status := .invalid, state := u }

/-- The command of a row decides the head of the inbox by the row's block. -/
theorem exec_command {s : State} (row : OrderRow) (released : s.rstn = false) :
    exec row.command s = .next (settle (s.decide row row.answer)) := by
  cases row <;> exact exec_of_effect released rfl

theorem State.deciding_of_waiting {s : State} {o : Order} {rest : List Order} (serving : s.serving = true)
    (noRestart : s.ord.restartPending = false)
    (decides : s.ptu.state = .member ∨ s.ptu.state = .haltedSetup ∨ s.ptu.state = .silent)
    (head : s.ord.inbox = o :: rest) (waiting : o.standing = .waiting) : s.deciding = some o := by
  simp only [State.deciding, serving, noRestart, head, waiting, if_true]
  rcases decides with h | h | h <;> simp [h]

/-- A REPLY with the detail of its name (R192). -/
theorem State.holdReply_eq {s : State} {o : Order} {rest : List Order} (head : s.ord.inbox = o :: rest)
    (status : OrderStatus) (given : Bytes) (restart : Bool) :
    s.holdReply o status given restart = s.withInbox (o.replied status (s.replyDetail o given) restart :: rest) := by
  rw [State.holdReply, head]
  rfl

theorem State.decide_fails {s : State} {o : Order} {rest : List Order} {row : OrderRow} {status : OrderStatus}
    (deciding : s.deciding = some o) (head : s.ord.inbox = o :: rest) (named : o.row = row)
    (test : s.orderTest o = some status) (block : Order → State → Answer) :
    s.decide row block = s.withInbox (o.replied status (s.replyDetail o []) :: rest) := by
  simp only [State.decide, deciding, named, test, if_true]
  exact State.holdReply_eq head _ _ _

theorem State.decide_passes {s : State} {o : Order} {rest : List Order} {row : OrderRow}
    (deciding : s.deciding = some o) (named : o.row = row) (test : s.orderTest o = none)
    {block : Order → State → Answer} {a : Answer} (answer : block o s = a) (head : a.state.ord.inbox = o :: rest) :
    s.decide row block = a.state.withInbox (o.replied a.status (a.state.replyDetail o a.detail) a.restart :: rest) := by
  simp only [State.decide, deciding, named, test, if_true, answer]
  exact State.holdReply_eq head _ _ _

theorem State.decide_other {s : State} {o : Order} {row : OrderRow} (deciding : s.deciding = some o)
    (other : o.row ≠ row) (block : Order → State → Answer) : s.decide row block = s := by
  simp only [State.decide, deciding, other, if_false]

/-- The orders without a name, or with an unknown POWER action, are of the row of malformed orders (log 14). -/
theorem Order.row_of_nameless {o : Order} (nameless : o.name = none) : o.row = .invalid := by
  simp [Order.row, nameless]

/-- Settles O46: each of the five tests in its place, and the commands of the other rows. -/
theorem failedOrderTestsAnswerTheirStatus : Obligations.FailedOrderTestsAnswerTheirStatus := by
  intro s o rest row released serving noRestart decides head waiting ofRow detail answers uplink
  have deciding := State.deciding_of_waiting serving noRestart decides head waiting
  have given : s.replyDetail o [] = detail := rfl
  have fails : ∀ st, s.orderTest o = some st → answers st := fun st test => by
    change exec row.command s = _
    rw [exec_command row released, State.decide_fails deciding head ofRow test, given]
  refine ⟨fun nameless => ?_, fun n named => ⟨fun other => ?_, fun up outside n3 => ?_, fun up member claims other => ?_,
      fun up member holds malformed => ?_⟩, fun other differs => ?_⟩
  · have answered := fails .invalid (by simp [State.orderTest, nameless])
    refine ⟨answered, ?_⟩
    have invalid : row = .invalid := ofRow.symm.trans (Order.row_of_nameless nameless)
    subst invalid
    exact answered
  · have other : (s.ptu.peer o.sender).role ≠ some .uplink := other
    exact fails _ (by simp [State.orderTest, named, other])
  · have up : (s.ptu.peer o.sender).role = some .uplink := up
    exact fails _ (by simp [State.orderTest, named, up, outside, n3])
  · have up : (s.ptu.peer o.sender).role = some .uplink := up
    exact fails _ (by simp [State.orderTest, named, up, member, needsClaim, claims, other])
  · have up : (s.ptu.peer o.sender).role = some .uplink := up
    have inside : ¬ (s.ptu.state ≠ .member ∧ n ≠ 3) := by tauto
    have holds : ¬ (needsClaim n = true ∧ s.ord.holder ≠ some o.sender) := by
      simp only [needsClaim, decide_eq_true_eq]
      rcases holds with low | holder
      · omega
      · simp [holder]
    refine fails _ ?_
    simp only [State.orderTest, named, up, malformed]
    simp only [ne_eq, not_true, if_false, Bool.and_eq_true, decide_eq_true_eq, inside, holds]
    simp
  · rw [exec_command other released, State.decide_other deciding (by rw [ofRow]; exact differs.symm)]

section

variable {s : State} {o : Order} {rest : List Order} {row : OrderRow}

theorem OrderAtHead.deciding_self (h : OrderAtHead s o rest row) : s.deciding = some o :=
  State.deciding_of_waiting h.serving h.noRestart (.inl h.member) h.head h.waiting

theorem OrderAtHead.passes (h : OrderAtHead s o rest row) (wellFormed : row ≠ .invalid) : s.orderTest o = none := by
  have valued : ∀ r : OrderRow, r ≠ .invalid → ∃ n, r.orderName = some n := by
    intro r other
    cases r <;> simp_all [OrderRow.orderName]
  obtain ⟨n, code⟩ := valued row wellFormed
  have named : o.name = some n := (h.name wellFormed).trans code
  simp [h.orderTest_named named rfl named, h.params n named]

/-- An order at the head reaches its block, and its REPLY carries what the block answers (R190, R192). -/
theorem OrderAtHead.exec_answer (h : OrderAtHead s o rest row) (wellFormed : row ≠ .invalid) {a : Answer}
    (answer : row.answer o s = a) (inbox : a.state.ord.inbox = s.ord.inbox) :
    exec row.command s = .next (settle
      (a.state.withInbox (o.replied a.status (a.state.replyDetail o a.detail) a.restart :: rest))) := by
  rw [exec_command row h.released,
    State.decide_passes h.deciding_self h.row (h.passes wellFormed) answer (inbox.trans h.head)]

end

/-! ### CLAIM and RELEASE-CLAIM (R193) -/

/-- Settles O51: the four lines of CLAIM's table, and the two of RELEASE-CLAIM's. -/
theorem claimPassesByTheTable : Obligations.ClaimPassesByTheTable := by
  intro s o rest taken answers
  refine ⟨fun h => ?_, fun h => ?_⟩
  · have named : o.name = some 1 := h.name (by decide)
    have claimed : ∀ (seize : Bool) (status : OrderStatus) (v : State), field o.params 0 1 = (if seize then 1 else 0) →
        s.actClaim o.sender seize = (status, v) → v.ord.inbox = s.ord.inbox →
        answers .claim status v [byte (v.ord.holder.getD 0)] := by
      intro seize status v asked acts inbox
      have answer : OrderRow.claim.answer o s = .plain (status, v) := by
        rw [← acts]
        cases seize <;> simp [OrderRow.answer, asked]
      have := h.exec_answer (by decide) answer inbox
      simpa only [State.replyDetail, named, Answer.plain] using this
    have binary : ∃ seize : Bool, field o.params 0 1 = (if seize then 1 else 0) := by
      have valid := h.params 1 named
      have one : o.params.length = 1 ∧ (byteAt o.params 0).toNat ≤ 1 := by simpa [paramsValid] using valid
      obtain ⟨b, params⟩ := List.length_eq_one_iff.1 one.1
      have low : b.toNat ≤ 1 := by simpa [params, byteAt] using one.2
      refine ⟨decide (b.toNat = 1), ?_⟩
      simp only [params, field, List.drop_zero, List.take_succ_cons, List.take_zero, fromBe_singleton, decide_eq_true_eq]
      split <;> omega
    obtain ⟨asked, code⟩ := binary
    refine ⟨fun free => ?_, fun own => ?_, fun holder other differs params => ?_,
      fun holder other differs params => ?_⟩
    · exact claimed asked .done taken code (by simp [State.actClaim, free]; rfl) rfl
    · have := claimed asked .already s code (by simp [State.actClaim, own]) rfl
      simpa [own] using this
    · have := claimed false .held s (by simp [params, field, fromBe]) (by simp [State.actClaim, other, differs]) rfl
      simpa [other] using this
    · refine claimed true .done _ (by simp [params, field, fromBe]) ?_ rfl
      simp only [State.actClaim, other, differs, if_true, if_false]
      rw [State.raise_as (s := s) _ _ (by rfl) (by rfl) (by rfl)]
      rfl
  · have released : ∀ (status : OrderStatus) (v : State), s.actReleaseClaim o.sender = (status, v) →
        v.ord.inbox = s.ord.inbox → answers .releaseClaim status v [] := by
      intro status v acts inbox
      have := h.exec_answer (a := .plain (status, v)) (by decide) (by rw [← acts]; rfl) inbox
      rwa [State.replyDetail_given _ (h.name (by decide)) (by decide)] at this
    refine ⟨fun own => released _ _ ?_ rfl, fun other => released _ _ ?_ rfl⟩
    · rw [State.actReleaseClaim, if_pos own]
    · rw [State.actReleaseClaim, if_neg other]

/-! ### ATTACH, DETACH and RESTART (R116, R117, R196) -/

/-- The parameters of an ATTACH (R191). -/
def attachParams (image gen capacity : Nat) (mode : Mode) (bootOnce : Bool) : Bytes :=
  be 2 image ++ be 1 gen ++ be 4 capacity ++ [mode.code, flag bootOnce]

theorem be_length (n v : Nat) : (be n v).length = n := by
  induction n generalizing v with
  | zero => rfl
  | succ n ih => simp [be, ih]

/-- A number standing at its place among the parameters is read back. -/
theorem field_of_append {p before after : Bytes} {n v place : Nat} (parts : p = before ++ be n v ++ after)
    (before_ : before.length = place) (fits : v < 256 ^ n) : field p place n = v := by
  subst parts before_
  rw [field, List.append_assoc, List.drop_left, List.take_left' (be_length n v), fromBe_be fits]

theorem attachParams_image {image : Nat} (fits : image < 65536) (gen capacity : Nat) (mode : Mode) (bootOnce : Bool) :
    field (attachParams image gen capacity mode bootOnce) 0 2 = image :=
  field_of_append (before := []) (after := be 1 gen ++ be 4 capacity ++ [mode.code, flag bootOnce])
    (by simp [attachParams]) rfl fits

theorem attachParams_gen (image : Nat) {gen : Nat} (fits : gen < 256) (capacity : Nat) (mode : Mode) (bootOnce : Bool) :
    field (attachParams image gen capacity mode bootOnce) 2 1 = gen :=
  field_of_append (before := be 2 image) (after := be 4 capacity ++ [mode.code, flag bootOnce])
    (by simp [attachParams]) rfl fits

theorem attachParams_capacity (image gen : Nat) {capacity : Nat} (fits : capacity < 2 ^ 32) (mode : Mode)
    (bootOnce : Bool) : field (attachParams image gen capacity mode bootOnce) 3 4 = capacity :=
  field_of_append (before := be 2 image ++ be 1 gen) (after := [mode.code, flag bootOnce])
    (by simp [attachParams]) rfl (by omega)

theorem attachParams_mode (image gen capacity : Nat) (mode : Mode) (bootOnce : Bool) :
    field (attachParams image gen capacity mode bootOnce) 7 1 = mode.code.toNat := fromBe_singleton _

theorem attachParams_bootOnce (image gen capacity : Nat) (mode : Mode) (bootOnce : Bool) :
    decide (field (attachParams image gen capacity mode bootOnce) 8 1 = 1) = bootOnce := by
  have : field (attachParams image gen capacity mode bootOnce) 8 1 = (flag bootOnce).toNat := fromBe_singleton _
  cases bootOnce <;> simp [this, flag]

theorem attachValid_iff (image capacity : Nat) :
    attachValid image capacity = true ↔ 1 ≤ image ∧ image ≤ 65534 ∧ 1 ≤ capacity := by
  simp [attachValid, imageLegal, and_assoc]

section

variable {s : State} {o : Order} {rest : List Order}

theorem exec_attach_atHead (h : OrderAtHead s o rest .attach) {image gen capacity : Nat} {mode : Mode}
    {bootOnce : Bool} (imageFits : image < 65536) (genFits : gen < 256) (capacityFits : capacity < 2 ^ 32)
    (params : o.params = attachParams image gen capacity mode bootOnce) {status : OrderStatus} {v : State}
    (acts : s.actAttach image gen capacity mode bootOnce = (status, v)) (keeps : v.ord = s.ord) :
    exec .attach s = .next (settle (v.withInbox (o.replied status [] :: rest))) := by
  have ofMode : o.attachMode = mode := by
    rw [Order.attachMode, params, attachParams_mode]
    cases mode <;> rfl
  refine h.ends_decide (n := 10) (h.name (by decide)) (by decide)
    (act := fun o u => u.actAttach (field o.params 0 2) (field o.params 2 1) (field o.params 3 4) o.attachMode
      (field o.params 8 1 = 1)) ?_ keeps
  simp only [params, attachParams_image imageFits, attachParams_gen _ genFits, attachParams_capacity _ _ capacityFits,
    attachParams_bootOnce, ofMode, acts]

theorem exec_detach_atHead (h : OrderAtHead s o rest .detach) {status : OrderStatus} {v : State}
    (acts : s.actDetach = (status, v)) (keeps : v.ord = s.ord) :
    exec .detach s = .next (settle (v.withInbox (o.replied status [] :: rest))) :=
  h.ends_decide (n := 11) (h.name (by decide)) (by decide) (act := fun _ u => u.actDetach) acts keeps

end

/-- An ATTACH taken (R116, R119): MFN's record with the five values, the mark and the notice. -/
theorem State.actAttach_taken (s : State) {image capacity : Nat} (valid : attachValid image capacity = true)
    (none_ : s.mfn.state = .none) (gen : Nat) (mode : Mode) (bootOnce : Bool) :
    s.actAttach image gen capacity mode bootOnce = (.done, { s with
      mfn := { s.mfn with
        state := .attached, image := image, gen := gen, capacity := capacity, mode := mode, bootOnce := bootOnce
        cause := none, drain := none, changed := false, tracker := none
        port := if s.pins.vbsense then .connected else s.mfn.port }
      ccu := s.ccu.addMark s.now .mediaAttached (image * 256 + gen)
      ntu := (s.raise .mediaAttached
        (be 2 image ++ be 1 gen ++ be 4 capacity ++ [mode.code, flag bootOnce])).ntu }) := by
  have allowed : ¬ (!attachValid image capacity) = true := by simp [valid]
  rw [State.actAttach, if_neg allowed, if_neg (by simp [none_])]
  dsimp only
  rw [State.raise_as (s := s) _ _ (by rfl) (by rfl) (by rfl)]
  rfl

/-- Settles O55: ATTACH, DETACH and RESTART by their cases, and a WATCHDOG-RETIME out of its range. -/
theorem attachDetachAndRestartAct : Obligations.AttachDetachAndRestartAct := by
  intro s o rest answers
  refine ⟨fun h image gen capacity mode bootOnce imageFits genFits capacityFits params => ?_,
    fun h t fits params outside _ => exec_watchdogRetime_atHead h fits params (s.actRetime_outside outside) rfl,
    fun h => ?_, fun h => ?_⟩
  · have attach {status : OrderStatus} {v : State} := @exec_attach_atHead s o rest h image gen capacity mode bootOnce
      imageFits genFits capacityFits params status v
    intro valid
    refine ⟨fun outside => attach ?_ rfl, fun inside busy => attach ?_ rfl,
      fun inside none_ => attach (s.actAttach_taken ((attachValid_iff image capacity).2 inside) none_ gen mode bootOnce) rfl⟩
    · have outside : (!attachValid image capacity) = true := by
        simpa using fun ok => outside ((attachValid_iff image capacity).1 ok)
      rw [State.actAttach, if_pos outside]
    · have allowed : ¬ (!attachValid image capacity) = true := by simpa using (attachValid_iff image capacity).2 inside
      rw [State.actAttach, if_neg allowed, if_pos busy]
  · intro caused
    refine ⟨fun attached uncaused request => exec_detach_atHead h ?_ rfl,
      fun attached uncaused idle => ⟨caused.teardown, caused.teardown_tornDown, exec_detach_atHead h ?_ ?_⟩,
      fun other => exec_detach_atHead h ?_ rfl⟩
    · obtain ⟨r, request⟩ := Option.isSome_iff_exists.1 request
      simp [State.actDetach, State.detachTrigger, attached, uncaused, request, caused]
    · simp [State.actDetach, State.detachTrigger, attached, uncaused, idle, caused]
    · simp [caused]
    · rw [State.actDetach, if_neg]
      simp only [Bool.and_eq_true, decide_eq_true_eq, Option.isNone_iff_eq_none, not_and]
      intro attached uncaused
      simp [attached, uncaused] at other
  · have := h.exec_answer (row := .restart) (by decide) (a := s.actRestart) rfl rfl
    rwa [State.replyDetail_given _ (h.name (by decide)) (by decide)] at this

end Sys2Proof.Machine


/-! ## WATCH, UNWATCH and BREAK (R68 to R70, R79) -/

namespace Sys2Proof.Machine

/-! ### The frame of a watcher is ended (R70) -/

/-- Ending a frame touches the outstanding frame, the send list and the give buffer, and the requests for them alone. -/
theorem State.lifWithdraw_frame (s : State) (seq : Nat) : s.lifWithdraw seq = { s with
    lif := { s.lif with sendList := (s.lifWithdraw seq).lif.sendList, giveBuf := (s.lifWithdraw seq).lif.giveBuf }
    mctl := { s.mctl with waitSend := (s.lifWithdraw seq).mctl.waitSend } } := by
  unfold State.lifWithdraw State.freeGiveBuf
  (repeat' split) <;> rfl

theorem State.lifWithdraw_listed {s : State} {seq : Nat} {e : SendEntry} (entry : s.lif.entry seq = some e)
    (listed : e.inTenure = false) :
    (s.lifWithdraw seq).lif.sendList = s.lif.sendList.filter (fun f => f.seq ≠ seq) := by
  simp only [State.lifWithdraw, entry, listed, Bool.false_eq_true, if_false]
  unfold State.freeGiveBuf
  (repeat' split) <;> rfl

theorem Mctl.muteForward_eq (m : Mctl) : m.muteForward = { m with
    current := m.current.map (fun c =>
      match c.req with
      | .forward _ _ => { c with reported := false }
      | _ => c) } := by
  obtain ⟨mem, leaving, restarting, geometry, debt, retention, current, waitCapture, waitRecv, waitMedia, waitForward,
    waitSend⟩ := m
  rcases current with _ | ⟨req, reported⟩
  · rfl
  · cases req <;> rfl

theorem State.endOut_frame (s : State) (x : Nat) : s.endOut x = { s with
    cfw := { s.cfw with out := (s.endOut x).cfw.out }
    lif := { s.lif with sendList := (s.endOut x).lif.sendList, giveBuf := (s.endOut x).lif.giveBuf }
    mctl := { s.mctl with
      waitForward := (s.endOut x).mctl.waitForward, current := (s.endOut x).mctl.current
      waitSend := (s.endOut x).mctl.waitSend } } := by
  unfold State.endOut State.clearOut
  split
  next o out =>
    split
    · split
      next reading =>
        unfold Mctl.abandonForward Mctl.muteForward
        (repeat' split) <;> rfl
      next => rfl
      next seq _ => rw [State.lifWithdraw_frame]
      next => rfl
    · rfl
  next => rfl

theorem State.endOut_outFrameEnded (s : State) (x : Nat) : s.OutFrameEnded (s.endOut x) x := by
  have ended : ∀ {o : OutFrame}, s.cfw.out = some o → o.station = x → o.orphaned = false →
      s.endOut x =
        match o.standing with
        | .reading => ({ s with mctl := s.mctl.abandonForward } : State).clearOut
        | .frame .held => s.clearOut
        | .frame (.listed seq) => (s.lifWithdraw seq).clearOut
        | .frame (.inTenure _) => { s with cfw := { s.cfw with out := some { o with orphaned := true } } } := by
    intro o out station owned
    simp only [State.endOut, out, station, owned]
    rfl
  constructor
  case other =>
    intro other
    unfold State.endOut
    split
    next o out =>
      have := other o out
      rw [if_neg (by simp; tauto)]
      exact ⟨rfl, rfl, rfl⟩
    next out => exact ⟨rfl, rfl, rfl⟩
  case waiting =>
    intro o r out station owned reading waiting
    rw [ended out station owned, reading]
    simp only [Mctl.abandonForward, waiting]
    exact ⟨rfl, rfl, rfl⟩
  case reading =>
    intro o out station owned reading idle
    rw [ended out station owned, reading]
    refine ⟨rfl, rfl, ?_⟩
    change s.mctl.abandonForward = _
    have mutes : s.mctl.abandonForward = s.mctl.muteForward := by rw [Mctl.abandonForward, idle]
    exact mutes.trans (Mctl.muteForward_eq _)
  case held =>
    intro o out station owned held
    rw [ended out station owned, held]
    exact ⟨rfl, rfl, rfl⟩
  case listed =>
    intro o seq out station owned listed
    rw [ended out station owned, listed]
    exact ⟨rfl, fun e entry free => State.lifWithdraw_listed entry free⟩
  case tenure =>
    intro o seq out station owned tenure
    rw [ended out station owned, tenure]
    exact ⟨rfl, rfl, rfl⟩

/-- What ends a frame is told of the state's part of it alone. -/
theorem State.OutFrameEnded.congr {s t u : State} {x : Nat} (h : s.OutFrameEnded t x) (out : u.cfw.out = t.cfw.out)
    (lif : u.lif = t.lif) (mctl : u.mctl = t.mctl) : s.OutFrameEnded u x := by
  obtain ⟨other, waiting, reading, held, listed, tenure⟩ := h
  constructor <;> simpa only [out, lif, mctl]

/-! ### The start of a watcher (R68) -/

section

variable {s : State} {o : Order} {rest : List Order}

/-- A WATCH at the head of the inbox, by the start it asks (R68). -/
theorem exec_watch_atHead (h : OrderAtHead s o rest .watch) {status : OrderStatus} {detail : Bytes} {v : State}
    (acts : s.actWatch o.sender (field o.params 0 1) (field o.params 1 8) = (status, detail, v))
    (keeps : v.ord = s.ord) : exec .watch s = .next (settle (v.withInbox (o.replied status detail :: rest))) := by
  have := h.exec_answer (row := .watch) (a := { status := status, detail := detail, state := v }) (by decide)
    (by simp only [OrderRow.answer, acts]) (by rw [keeps])
  rwa [State.replyDetail_given _ (h.name (by decide)) (by decide)] at this

theorem State.actWatch_new {x mode offset : Nat} {start : Nat × Nat × BitVec 32}
    (starts : s.ccu.watchStart mode offset = some start) (absent : s.cfw.place x = none)
    (room : s.cfw.watchers.length < 4) : s.actWatch x mode offset = (.done, be 8 start.1 ++ be 4 start.2.1,
      { s with cfw := { s.cfw with watchers := s.cfw.watchers ++ [s.newWatcher x start] } }) := by
  simp [State.actWatch, starts, absent, room]

theorem State.actWatch_full {x mode offset : Nat} {start : Nat × Nat × BitVec 32}
    (starts : s.ccu.watchStart mode offset = some start) (absent : s.cfw.place x = none)
    (full : 4 ≤ s.cfw.watchers.length) : s.actWatch x mode offset = (.full, [], s) := by
  simp [State.actWatch, starts, absent, Nat.not_lt.2 full]

theorem State.actWatch_again {x mode offset j : Nat} {start : Nat × Nat × BitVec 32}
    (starts : s.ccu.watchStart mode offset = some start) (present : s.cfw.place x = some j) :
    s.actWatch x mode offset = (.done, be 8 start.1 ++ be 4 start.2.1,
      { s.endOut x with
        cfw := { (s.endOut x).cfw with watchers := (s.endOut x).cfw.watchers.set j (s.newWatcher x start) } }) := by
  simp only [State.actWatch, starts, present]

theorem State.actWatch_refused {x mode offset : Nat} (refused : s.ccu.watchStart mode offset = none) :
    s.actWatch x mode offset = (.invalid, [], s) := by
  simp [State.actWatch, refused]

end

/-- UNWATCH of a watcher (R69, R70). -/
theorem State.dropWatcher_present {s : State} {x j : Nat} (present : s.cfw.place x = some j) :
    ∃ turn, s.dropWatcher x = { s.endOut x with
      cfw := { (s.endOut x).cfw with watchers := s.cfw.watchers.filter (fun w => w.station ≠ x), turn := turn } } := by
  have watchers : (s.endOut x).cfw.watchers = s.cfw.watchers := by rw [State.endOut_frame]
  have place : (s.endOut x).cfw.place x = some j := by rw [Cfw.place, watchers]; exact present
  rw [State.dropWatcher, if_pos (by simp [present])]
  simp only [Cfw.removeWatcher, place, watchers]
  exact ⟨_, rfl⟩

/-- Settles O53: the start a WATCH asks and the room for it, UNWATCH's removal, and BREAK's eight places. -/
theorem watchUnwatchAndBreakActOnForwarding : Obligations.WatchUnwatchAndBreakActOnForwarding := by
  intro s o rest answers place first touched started
  refine ⟨fun h => ?_, fun h => ⟨fun absent => ?_, fun j present => ?_⟩, fun h => ⟨fun room => ?_, fun full => ?_⟩⟩
  · have starts : ∀ (ptr gap : Nat) (mark : BitVec 32),
        s.ccu.watchStart (field o.params 0 1) (field o.params 1 8) = some (ptr, gap, mark) → started ptr gap mark := by
      intro ptr gap mark starts
      refine ⟨fun absent room => exec_watch_atHead h (State.actWatch_new starts absent room) rfl,
        fun absent full => exec_watch_atHead h (State.actWatch_full starts absent full) rfl,
        fun j present => ⟨_, exec_watch_atHead h (State.actWatch_again starts present) ?_, ?_, ?_⟩⟩
      · exact (State.endOut_keeps s o.sender).2.2.2.2.2.2.2.2.2.2.2.2.2.1
      · exact (State.endOut_outFrameEnded s o.sender).congr rfl rfl rfl
      · rw [State.endOut_frame]
        rfl
    refine ⟨fun params => starts _ _ _ ?_, fun params => starts _ _ _ ?_,
      fun n fits params => ⟨fun past => ?_, fun inside lost => starts _ _ _ ?_, fun inside kept => starts _ _ _ ?_⟩⟩
    · simp [params, field, fromBe, Ccu.watchStart]
    · simp only [params, field, fromBe, Ccu.watchStart]
      rfl
    all_goals
      have mode : field o.params 0 1 = 2 := by simp [params, field, fromBe]
      have offset : field o.params 1 8 = n :=
        field_of_append (before := [2]) (after := []) (by simp [params]) rfl (by simpa using fits)
    · refine exec_watch_atHead h (State.actWatch_refused ?_) rfl
      simp [Ccu.watchStart, mode, offset, past]
    · simp only [Ccu.watchStart, mode, offset, Nat.not_lt.2 inside, lost, if_true, if_false]
      rfl
    · simp only [Ccu.watchStart, mode, offset, Nat.not_lt.2 inside, Nat.not_lt.2 kept, if_false]
  · refine h.ends_decide (n := 5) (h.name (by decide)) (by decide) (act := fun o u => u.actUnwatch o.sender) ?_ rfl
    have absent : s.cfw.place o.sender = none := absent
    simp [State.actUnwatch, absent]
  · have present : s.cfw.place o.sender = some j := present
    obtain ⟨turn, dropped⟩ := State.dropWatcher_present present
    refine ⟨_, h.ends_decide (n := 5) (status := .done) (v := s.dropWatcher o.sender) (h.name (by decide)) (by decide)
      (act := fun o u => u.actUnwatch o.sender) ?_ (by simp), ?_, ?_⟩
    · simp [State.actUnwatch, present]
    · exact (State.endOut_outFrameEnded s o.sender).congr (by rw [dropped]; rfl) (by rw [dropped]; rfl)
        (by rw [dropped]; rfl)
    · rw [dropped, State.endOut_frame]
      rfl
  · refine h.ends_decide (n := 12) (h.name (by decide)) (by decide) (act := fun o u => u.actBreak o.sender) ?_ rfl
    exact if_pos room
  · refine h.ends_decide (n := 12) (h.name (by decide)) (by decide) (act := fun o u => u.actBreak o.sender) ?_ rfl
    exact if_neg (Nat.not_lt.2 full)

end Sys2Proof.Machine


/-! ## The nine power actions (R7 to R15) -/

namespace Sys2Proof.Machine

/-- The power action of a row; the other rows have none. -/
def OrderRow.powerAct : OrderRow → State → OrderStatus × State
  | .powerOn, s => s.actOn
  | .powerOffSoft, s => s.actOffSoft false
  | .powerOffSoftThenHard, s => s.actOffSoft true
  | .powerOffHard, s => s.actOffHard
  | .powerReset, s => s.actReset 0
  | .powerCycle, s => s.actCycle
  | .powerFeedCut, s => s.actFeedCut
  | .powerFeedRestore, s => s.actFeedRestore
  | .powerWake, s => s.actWake
  | _, s => (.busy, s)

/-- A fact of the nine rows. -/
theorem forall_powerRows {P : OrderRow → Prop} (on : P .powerOn) (soft : P .powerOffSoft)
    (thenHard : P .powerOffSoftThenHard) (hard : P .powerOffHard) (reset : P .powerReset) (cycle : P .powerCycle)
    (cut : P .powerFeedCut) (restore : P .powerFeedRestore) (wake : P .powerWake) : ∀ row ∈ powerRows, P row := by
  intro row power
  simp only [powerRows, List.mem_cons, List.not_mem_nil, or_false] at power
  rcases power with rfl | rfl | rfl | rfl | rfl | rfl | rfl | rfl | rfl
  exacts [on, soft, thenHard, hard, reset, cycle, cut, restore, wake]

theorem powerAct_answer : ∀ row ∈ powerRows, ∀ (o : Order) (s : State), row.answer o s = .plain (row.powerAct s) :=
  forall_powerRows (fun _ _ => rfl) (fun _ _ => rfl) (fun _ _ => rfl) (fun _ _ => rfl) (fun _ _ => rfl)
    (fun _ _ => rfl) (fun _ _ => rfl) (fun _ _ => rfl) (fun _ _ => rfl)

theorem powerAct_ord (s : State) : ∀ row ∈ powerRows, (row.powerAct s).2.ord = s.ord :=
  forall_powerRows (by simp [OrderRow.powerAct]) (by simp [OrderRow.powerAct]) (by simp [OrderRow.powerAct])
    (by simp [OrderRow.powerAct]) (by simp [OrderRow.powerAct]) (by simp [OrderRow.powerAct])
    (by simp [OrderRow.powerAct]) (by simp [OrderRow.powerAct]) (by simp [OrderRow.powerAct])

section

variable {s : State} {o : Order} {rest : List Order} {row : OrderRow}

/-- A power order at the head of the inbox: its REPLY carries the sequencer's four bytes as the action leaves them (R192). -/
theorem OrderAtHead.exec_power (h : OrderAtHead s o rest row) (power : row ∈ powerRows) {status : OrderStatus} {v : State}
    (acts : row.powerAct s = (status, v)) :
    exec row.command s = .next (settle (v.withInbox (o.replied status v.psq.bytes :: rest))) := by
  have wellFormed : row ≠ .invalid := by rintro rfl; simp [powerRows] at power
  have six : ∀ row ∈ powerRows, row.orderName = some 6 := forall_powerRows rfl rfl rfl rfl rfl rfl rfl rfl rfl
  have named : o.name = some 6 := (h.name wellFormed).trans (six row power)
  have ord : v.ord = s.ord := by simpa [acts] using powerAct_ord s row power
  have := h.exec_answer (a := .plain (status, v)) wellFormed (by rw [powerAct_answer row power, acts]) (by simp [Answer.plain, ord])
  simpa only [Answer.plain, State.replyDetail, named] using this

end

/-! ### The status table, and what a refusal leaves (R7) -/

/-- An action that answers neither ACCEPTED nor DONE leaves the state. -/
def Refuses (s : State) (a : OrderStatus × State) : Prop := a.1 = .accepted ∨ a.1 = .done ∨ a.2 = s

section

variable (s : State)

theorem State.unlessMismatch_refuses (t : State) : Refuses s (s.unlessMismatch t) := by
  unfold State.unlessMismatch
  split
  · exact .inr (.inr rfl)
  · exact .inl rfl

theorem State.cancelPending_refuses : Refuses s s.cancelPending := by
  unfold State.cancelPending
  split
  · exact .inr (.inl rfl)
  · exact .inr (.inr rfl)

theorem State.actOn_refuses : Refuses s s.actOn := by
  unfold State.actOn
  split
  · exact s.unlessMismatch_refuses _
  · exact s.unlessMismatch_refuses _
  case h_3 => split; exacts [s.unlessMismatch_refuses _, .inr (.inr rfl)]
  case h_4 => split; exacts [s.unlessMismatch_refuses _, .inr (.inr rfl)]
  all_goals exact .inr (.inr rfl)

theorem State.actOffSoft_refuses (thenHard : Bool) : Refuses s (s.actOffSoft thenHard) := by
  unfold State.actOffSoft
  split
  · split <;> exact .inl rfl
  · exact .inr (.inl rfl)
  · split; exacts [.inl rfl, .inr (.inr rfl)]
  case h_4 | h_5 | h_6 => exact s.cancelPending_refuses
  all_goals exact .inr (.inr rfl)

theorem State.actOffHard_refuses : Refuses s s.actOffHard := by
  unfold State.actOffHard
  split
  case h_1 | h_2 | h_3 => exact .inl rfl
  · exact .inr (.inl rfl)
  case h_5 | h_6 | h_7 => exact s.cancelPending_refuses
  all_goals exact .inr (.inr rfl)

theorem State.actCycle_refuses : Refuses s s.actCycle := by
  unfold State.actCycle
  split
  case h_1 | h_2 => exact s.unlessMismatch_refuses _
  case h_3 | h_4 => exact s.actOn_refuses
  · exact .inr (.inr rfl)

theorem State.actFeedRestore_refuses : Refuses s s.actFeedRestore := by
  unfold State.actFeedRestore
  split
  · exact .inr (.inr rfl)
  · split <;> exact s.unlessMismatch_refuses _
  · exact .inr (.inr rfl)

theorem State.actFeedCut_refuses : Refuses s s.actFeedCut := by
  unfold State.actFeedCut
  split
  · exact .inr (.inr rfl)
  · exact .inr (.inr rfl)
  · exact .inr (.inl rfl)

theorem State.actReset_refuses (source : Nat) : Refuses s (s.actReset source) := by
  unfold State.actReset
  split
  · exact .inr (.inl rfl)
  · exact .inr (.inr rfl)

theorem State.actWake_refuses : Refuses s s.actWake := by
  unfold State.actWake
  split
  · exact .inr (.inl rfl)
  · exact .inr (.inr rfl)

theorem State.actWake_onlyPower : s.OnlyPower s.actWake.2 := by
  unfold State.actWake
  split
  · exact s.onlyPower_mfn _
  · exact .refl s

end

theorem powerAct_refuses (s : State) : ∀ row ∈ powerRows, Refuses s (row.powerAct s) :=
  forall_powerRows s.actOn_refuses (s.actOffSoft_refuses false) (s.actOffSoft_refuses true) s.actOffHard_refuses
    (s.actReset_refuses 0) s.actCycle_refuses s.actFeedCut_refuses s.actFeedRestore_refuses s.actWake_refuses

theorem powerAct_onlyPower (s : State) : ∀ row ∈ powerRows, s.OnlyPower (row.powerAct s).2 :=
  forall_powerRows s.actOn_powerMoves.only (s.actOffSoft_powerMoves false).only (s.actOffSoft_powerMoves true).only
    s.actOffHard_powerMoves.only (s.actReset_powerMoves 0).only s.actCycle_powerMoves.only s.actFeedCut_powerMoves.only
    s.actFeedRestore_powerMoves.only s.actWake_onlyPower

theorem powerAct_underived {s : State} (underived : s.psq.state = none) : ∀ row ∈ powerRows,
    row.powerAct s = (if row = .powerWake then .notWakeable else .busy, s) :=
  forall_powerRows (by simp [OrderRow.powerAct, State.actOn, underived])
    (by simp [OrderRow.powerAct, State.actOffSoft, underived]) (by simp [OrderRow.powerAct, State.actOffSoft, underived])
    (by simp [OrderRow.powerAct, State.actOffHard, underived]) (by simp [OrderRow.powerAct, State.actReset, underived])
    (by simp [OrderRow.powerAct, State.actCycle, underived]) (by simp [OrderRow.powerAct, State.actFeedCut, underived])
    (by simp [OrderRow.powerAct, State.actFeedRestore, underived])
    (by simp [OrderRow.powerAct, State.actWake, underived])

@[simp] theorem State.unlessMismatch_status (s t : State) : (s.unlessMismatch t).1 = startStatus s.ptu.mismatch := by
  unfold State.unlessMismatch startStatus
  split <;> rfl

@[simp] theorem State.cancelPending_status (s : State) : s.cancelPending.1 = cancelStatus s.psq := by
  unfold State.cancelPending cancelStatus
  split <;> rfl

/-- The columns of the status table, in the order of the rows. -/
@[simp] theorem lookup_powerRows {a b c d e f g h i : OrderStatus} :
    (powerRows.zip [a, b, c, d, e, f, g, h, i]).lookup .powerOn = some a ∧
    (powerRows.zip [a, b, c, d, e, f, g, h, i]).lookup .powerOffSoft = some b ∧
    (powerRows.zip [a, b, c, d, e, f, g, h, i]).lookup .powerOffSoftThenHard = some c ∧
    (powerRows.zip [a, b, c, d, e, f, g, h, i]).lookup .powerOffHard = some d ∧
    (powerRows.zip [a, b, c, d, e, f, g, h, i]).lookup .powerReset = some e ∧
    (powerRows.zip [a, b, c, d, e, f, g, h, i]).lookup .powerCycle = some f ∧
    (powerRows.zip [a, b, c, d, e, f, g, h, i]).lookup .powerFeedCut = some g ∧
    (powerRows.zip [a, b, c, d, e, f, g, h, i]).lookup .powerFeedRestore = some h ∧
    (powerRows.zip [a, b, c, d, e, f, g, h, i]).lookup .powerWake = some i :=
  ⟨rfl, rfl, rfl, rfl, rfl, rfl, rfl, rfl, rfl⟩

/-- Each action answers its column of the status table. -/
theorem powerAct_status {s : State} {st : SeqState} (hold : s.psq.state = some st) : ∀ row ∈ powerRows,
    tableStatus s.psq st s.ptu.mismatch (s.mfn.port = .suspended && s.mfn.remoteWake) row = some (row.powerAct s).1 := by
  refine forall_powerRows ?on ?soft ?thenHard ?hard ?reset ?cycle ?cut ?restore ?wake
  case on =>
    change _ = some s.actOn.1
    unfold State.actOn
    rw [hold]
    cases st
    case awaitingSlot | starting => dsimp only; split <;> simp_all [tableStatus, statusColumns]
    all_goals simp [tableStatus, statusColumns, State.unlessMismatch_status]
  case soft =>
    change _ = some (s.actOffSoft false).1
    unfold State.actOffSoft
    rw [hold]
    cases st
    case on => dsimp only; split <;> rfl
    all_goals simp [tableStatus, statusColumns]
  case thenHard =>
    change _ = some (s.actOffSoft true).1
    unfold State.actOffSoft
    rw [hold]
    cases st
    case on => dsimp only; split <;> rfl
    case stopping => by_cases soft : s.psq.variant = .soft <;> simp [tableStatus, statusColumns, soft]
    all_goals simp [tableStatus, statusColumns]
  case hard =>
    change _ = some s.actOffHard.1
    unfold State.actOffHard
    rw [hold]
    cases st <;> simp [tableStatus, statusColumns]
  case reset =>
    change _ = some (s.actReset 0).1
    unfold State.actReset
    rw [hold]
    cases st
    case on => cases pulse : s.psq.resetPulse <;> simp [tableStatus, statusColumns, pulse]
    all_goals simp [tableStatus, statusColumns]
  case cycle =>
    change _ = some s.actCycle.1
    unfold State.actCycle State.actOn
    rw [hold]
    cases st <;> simp [tableStatus, statusColumns]
  case cut =>
    change _ = some s.actFeedCut.1
    unfold State.actFeedCut
    rw [hold]
    cases st <;> simp [tableStatus, statusColumns]
  case restore =>
    change _ = some s.actFeedRestore.1
    unfold State.actFeedRestore
    rw [hold]
    cases st
    case feedCut => dsimp only; split <;> simp [tableStatus, statusColumns]
    all_goals simp [tableStatus, statusColumns]
  case wake =>
    change _ = some s.actWake.1
    unfold State.actWake
    rw [hold]
    cases st
    case on =>
      by_cases suspended : s.mfn.port = .suspended
      · cases s.mfn.remoteWake <;> simp [tableStatus, statusColumns, suspended]
      · simp [tableStatus, statusColumns, suspended]
    all_goals simp [tableStatus, statusColumns]

/-- Settles O47: the status table column by column, and what an action touches. -/
theorem powerActionsAnswerTheStatusTable : Obligations.PowerActionsAnswerTheStatusTable := by
  intro s o rest row h power _ wakeable
  refine ⟨fun st status hold table => ?_, fun underived => h.exec_power power (powerAct_underived underived row power)⟩
  have answered : (row.powerAct s).1 = status := by
    have := powerAct_status hold row power
    rw [show tableStatus _ _ _ _ row = some status from table] at this
    exact (Option.some.inj this).symm
  subst answered
  have exec_power := h.exec_power power (show row.powerAct s = ((row.powerAct s).1, (row.powerAct s).2) from rfl)
  refine ⟨⟨_, exec_power, rfl, ?_⟩, fun refused => ?_⟩
  · have frame := (powerAct_onlyPower s row power).frame
    have back (inbox : List Order) :
        ({ (row.powerAct s).2.withInbox inbox with ord := s.ord } : State) = (row.powerAct s).2 := by
      rw [← powerAct_ord s row power]
      rfl
    rw [back]
    exact frame
  · rcases powerAct_refuses s row power with accepted | done | same
    · simp [accepted] at refused
    · simp [done] at refused
    · rw [same] at exec_power
      exact exec_power

end Sys2Proof.Machine


/-! ## What the power actions do to the state (R8 to R15) -/

namespace Sys2Proof.Machine

/-- PSQ forces the server off from ON or STOPPING (R10, R12): a long press and the force timer. -/
theorem State.beginForcing_of_running {u : State} {st : SeqState} (legal : u.psq.Legal) (hold : u.psq.state = some st)
    (runs : st = .on ∨ st = .stopping) (act : PendingAct) :
    (u.setPending act).beginForcing = { u with
      psq := { u.psq with
        state := some .forcing, variant := .none, pendingAct := act, press := .long (after u.now 6000)
        forceT := some (after u.now (1000 * u.setting Settings.force))
        young := false, youngT := none, deferred := .none, graceT := none, restPhase := .none }
      wdu := if st = .on then { u.wdu with deadline := none } else u.wdu
      ntu := (u.raise .powerState [9, 0, act.code, flag u.psq.slotHeld]).ntu } := by
  have held : (u.setPending act).longPress.psq.state = some st := hold
  have other : st ≠ .awaitingSlot := by rcases runs with rfl | rfl <;> simp
  rw [State.beginForcing, State.psqEnter_plain _ _ _ _ (by rw [held]; simpa using other) (by simp) rfl,
    State.raise_as (s := u) _ _ (by simp [State.longPress, State.setPending])
      (by simp [State.longPress, State.setPending]) (by simp [State.longPress, State.setPending])]
  rcases runs with rfl | rfl
  · obtain ⟨startT, graceT, forceT, restT, -⟩ := on_of_legal legal hold
    simp [State.longPress, State.setPending, State.entering, Psq.leave, Psq.restOnEntry, State.entryTimer, State.tellWdu,
      State.wduLeavesOn, hold, State.setting, sec, SeqState.code, Variant.code, graceT, restT]
  · obtain ⟨young, deferred, restT, -⟩ := stopping_of_legal legal hold
    obtain ⟨-, youngT, -⟩ := stopping_noForce legal hold
    simp [State.longPress, State.setPending, State.entering, Psq.leave, Psq.restOnEntry, State.entryTimer, State.tellWdu,
      hold, State.setting, sec, SeqState.code, Variant.code, young, deferred, youngT, restT]

theorem Psq.Legal.no_restT {p : Psq} (legal : p.Legal) {st : SeqState} (hold : p.state = some st)
    (other : st ≠ .feedCut ∧ st ≠ .feedBounce ∧ st ≠ .resting) : p.restT = Option.none := by
  by_contra runs
  have := legal.rest (Option.isSome_iff_ne_none.2 runs)
  rw [hold] at this
  simp [other] at this

section

variable {s : State} {o : Order} {rest : List Order} {row : OrderRow} {st : SeqState}

/-- A start answered under the condition of R7. -/
theorem OrderAtHead.exec_unlessMismatch (h : OrderAtHead s o rest row) (power : row ∈ powerRows) {v : State}
    (acts : row.powerAct s = s.unlessMismatch v) :
    if s.ptu.mismatch then
      exec row.command s = .next (settle (s.withInbox (o.replied .mismatch s.psq.bytes :: rest)))
    else exec row.command s = .next (settle (v.withInbox (o.replied .accepted v.psq.bytes :: rest))) := by
  cases mismatch : s.ptu.mismatch
  · exact h.exec_power power (acts.trans (if_neg (by simp [mismatch])))
  · exact h.exec_power power (acts.trans (if_pos mismatch))

/-- The claim a start in OFF asks (R5, R8). -/
theorem State.psqEnter_awaits_off (legal : s.psq.Legal) (hold : s.psq.state = some .off) :
    s.psqEnter .awaitingSlot .powerOn = { s with
      psq := { s.psq with
        state := some .awaitingSlot, variant := .powerOn, restPhase := .satisfied, claimAsked := s.claimsNow }
      adm := { s.adm with own := if s.claimsNow then s.adm.ownWith [{ kind := .claim .powerOn }] else s.adm.own }
      ntu := (s.raise .powerState [5, 1, 0, 0]).ntu } := by
  have free := legal.slot_free hold rfl
  have act := legal.noAct (.inl hold)
  have restT := legal.no_restT hold (by simp)
  rw [State.psqEnter_awaits hold (.inl rfl) (legal.unasked hold (by simp)), act, free]
  simp only [restT]
  rfl

end

/-- Settles O48: ON and CYCLE by PSQ's state. -/
theorem onAndCycleAskForAStart : Obligations.OnAndCycleAskForAStart := by
  intro s o rest row st h legal hold answers accepted pending
  have onRow : OrderRow.powerOn ∈ powerRows := by decide
  have cycleRow : OrderRow.powerCycle ∈ powerRows := by decide
  have starts {v : State} (rows : row = .powerOn ∨ row = .powerCycle) (both : st = .off ∨ st = .resting)
      (acts : s.actOn = s.unlessMismatch v) : accepted v := by
    rcases rows with rfl | rfl
    · exact h.exec_unlessMismatch onRow acts
    · refine h.exec_unlessMismatch cycleRow (Eq.trans ?_ acts)
      change s.actCycle = _
      unfold State.actCycle
      rw [hold]
      rcases both with rfl | rfl <;> rfl
  refine ⟨fun rows off => starts rows (.inl off) ?_, fun rows resting => starts rows (.inr resting) ?_,
    fun on waits restore => ?_, fun cycle runs => ?_⟩
  · subst off
    rw [← State.psqEnter_awaits_off legal hold]
    unfold State.actOn
    rw [hold]
  · subst resting
    unfold State.actOn
    rw [hold]
    rfl
  · subst on
    refine h.exec_unlessMismatch onRow ?_
    change s.actOn = _
    unfold State.actOn
    rw [hold]
    rcases waits with rfl | rfl <;> exact if_pos restore
  · subst cycle
    refine h.exec_unlessMismatch cycleRow ?_
    change s.actCycle = _
    have forces := State.beginForcing_of_running legal hold runs .powerOn
    unfold State.actCycle
    rw [hold]
    rcases runs with rfl | rfl <;> exact congrArg s.unlessMismatch forces

/-! ### The offs (R9, R10) -/

/-- AWAITING-SLOT ends without power and without a pending start: the claim is withdrawn. -/
theorem State.psqEnter_quitsAwaiting {v : State} {st : SeqState} (hold : v.psq.state = some .awaitingSlot)
    (act : v.psq.pendingAct = .none) (free : v.psq.slotHeld = false) (low : st.isOff = true)
    (rests : st ≠ .awaitingSlot) : ∃ t, v.Retracts t { v.entering st .none with claimAsked := false } ∧
      (v.psq.claimAsked = true → v.RetractAsked t .withdraw) ∧
      (v.psq.claimAsked = false → t.psq.retract = v.psq.retract ∧ t.adm = v.adm) ∧
      v.psqEnter st .none = t.raise .powerState [st.code, 0, 0, 0] := by
  obtain ⟨r, own, kept, l, g, w, asked, unasked, enters⟩ := State.psqEnter_leavesAwaiting v st .none hold rests
  have notOn : st ≠ .on := by rintro rfl; cases low
  refine ⟨_, ⟨r, own, kept, l, g, w, rfl⟩, asked, unasked, enters.trans ?_⟩
  simp [State.tellWdu, notOn, act, free, Variant.code, PendingAct.code, flag]

/-- An off in AWAITING-SLOT: the claim is withdrawn, and PSQ is OFF or FEED-CUT (R9). -/
theorem State.offAwaiting_retracts {s : State} (legal : s.psq.Legal) (hold : s.psq.state = some .awaitingSlot) :
    ∃ t, s.Retracts t { s.psq with
        state := some (if s.psq.variant = .feedRestore then .feedCut else .off), variant := .none, pendingAct := .none
        claimAsked := false, restPhase := .satisfied } ∧
      (s.psq.claimAsked = true → s.RetractAsked t .withdraw) ∧
      (s.psq.claimAsked = false → t.psq.retract = s.psq.retract ∧ t.adm = s.adm) ∧
      s.offAwaiting = t.raise .powerState [if s.psq.variant = .feedRestore then 1 else 4, 0, 0, 0] := by
  have free := legal.slot_free hold rfl
  have restT := legal.no_restT hold (by simp)
  by_cases restore : s.psq.variant = .feedRestore
  · obtain ⟨t, retracts, asked, unasked, enters⟩ := State.psqEnter_quitsAwaiting (v := { s with psq := { s.psq with
        pendingAct := .none, restPhase := .satisfied, restT := none } }) (st := .feedCut) hold rfl free rfl (by simp)
    refine ⟨t, State.Retracts.of_psq retracts ?_, fun claim => (asked claim).congr rfl rfl rfl rfl rfl, unasked, ?_⟩
    · simp [State.entering, Psq.leave, Psq.restOnEntry, State.entryTimer, hold, restore, restT]
    · rw [State.offAwaiting, if_pos restore, if_pos restore]
      exact enters
  · obtain ⟨t, retracts, asked, unasked, enters⟩ := State.psqEnter_quitsAwaiting (v := s.setPending .none) (st := .off)
      hold rfl free rfl (by simp)
    refine ⟨t, State.Retracts.of_psq retracts ?_, fun claim => (asked claim).congr rfl rfl rfl rfl rfl, unasked, ?_⟩
    · simp [State.entering, Psq.leave, Psq.restOnEntry, State.entryTimer, hold, restore, restT, State.setPending]
    · rw [State.offAwaiting, if_neg restore, if_neg restore]
      exact enters

/-- PSQ forces the server off from STARTING (R10): the slot is given up and no start is pending. -/
theorem State.forceStarting {s : State} (legal : s.psq.Legal) (hold : s.psq.state = some .starting) :
    ∃ t, s.Retracts t { s.psq with
        state := some .forcing, variant := .none, pendingAct := .none, press := .long (after s.now 6000)
        forceT := some (after s.now (1000 * s.setting Settings.force)), startT := none, slotHeld := false
        settleT := none, restPhase := .none } ∧ s.SlotReleased t ∧
      (s.releaseSlot.setPending .none).beginForcing = t.raise .powerState [9, 0, 0, 0] := by
  have restT := legal.no_restT hold (by simp)
  obtain ⟨r, own, kept, l, g, w, shape, released⟩ := State.releaseSlot_eq s (by simp [hold]) legal.settle
  have held : (s.releaseSlot.setPending .none).longPress.psq.state = some .starting := by
    rw [shape]
    exact hold
  refine ⟨_, ⟨r, own, kept, l, g, w, rfl⟩, released.congr (by rw [shape]) (by rw [shape]) rfl rfl rfl rfl, ?_⟩
  rw [State.beginForcing, State.psqEnter_plain _ _ _ _ (by rw [held]; simp) (by simp) rfl, shape]
  simp [State.longPress, State.setPending, State.entering, Psq.leave, Psq.restOnEntry, State.entryTimer, State.tellWdu,
    hold, State.setting, sec, SeqState.code, Variant.code, PendingAct.code, flag, restT]

end Sys2Proof.Machine


/-! ## The offs, FEED-CUT, FEED-RESTORE, RESET and WAKE at the head of the inbox (R9 to R15) -/

namespace Sys2Proof.Machine

/-- The soft off of a row. -/
theorem powerAct_soft {row : OrderRow} (soft : row = .powerOffSoft ∨ row = .powerOffSoftThenHard) (s : State) :
    row ∈ powerRows ∧ row.powerAct s = s.actOffSoft (row = .powerOffSoftThenHard) := by
  rcases soft with rfl | rfl
  · exact ⟨by decide, rfl⟩
  · exact ⟨by decide, rfl⟩

theorem State.actOffSoft_on {s : State} (hold : s.psq.state = some .on) (thenHard : Bool) :
    s.actOffSoft thenHard = (.accepted,
      if s.psq.young then { s with psq := { s.psq with deferred := if thenHard then .softThenHard else .soft } }
      else s.beginStopping (if thenHard then .softThenHard else .soft)) := by
  unfold State.actOffSoft
  rw [hold]
  cases young : s.psq.young <;> simp [young]

/-- A pending POWER-ON is cancelled in RESTING, FEED-BOUNCE and FORCING (R9, R10). -/
theorem powerAct_cancels {s : State} {st : SeqState} (hold : s.psq.state = some st)
    (waits : st = .resting ∨ st = .feedBounce ∨ st = .forcing) (act : s.psq.pendingAct = .powerOn) :
    (∀ thenHard, s.actOffSoft thenHard = (.done, { s with psq := { s.psq with pendingAct := .none } })) ∧
      s.actOffHard = (.done, { s with psq := { s.psq with pendingAct := .none } }) := by
  have cancels : s.cancelPending = (.done, { s with psq := { s.psq with pendingAct := .none } }) := if_pos act
  refine ⟨fun thenHard => ?_, ?_⟩
  · unfold State.actOffSoft
    rw [hold]
    rcases waits with rfl | rfl | rfl <;> exact cancels
  · unfold State.actOffHard
    rw [hold]
    rcases waits with rfl | rfl | rfl <;> exact cancels

theorem powerAct_quits {s : State} (hold : s.psq.state = some .awaitingSlot) :
    (∀ thenHard, s.actOffSoft thenHard = (.done, s.offAwaiting)) ∧ s.actOffHard = (.done, s.offAwaiting) := by
  refine ⟨fun thenHard => ?_, ?_⟩
  · unfold State.actOffSoft
    rw [hold]
  · unfold State.actOffHard
    rw [hold]

/-- The frame of a power order's answer (R7). -/
theorem State.PowerMoves.answered {s v : State} (moved : s.PowerMoves v) (ord : v.ord = s.ord) (inbox : List Order) :
    s.PowerFrame { v.withInbox inbox with ord := s.ord } := by
  have back : ({ v.withInbox inbox with ord := s.ord } : State) = v := by
    rw [← ord]
    rfl
  rw [back]
  exact moved.only.frame

/-- Settles O49: the soft offs by the state, then the hard one. -/
theorem offActionsStopTheServer : Obligations.OffActionsStopTheServer := by
  intro s o rest row st h legal hold answers soft var force
  have hardRow : OrderRow.powerOffHard ∈ powerRows := by decide
  refine ⟨fun rows on old => ?_, fun rows on young => ?_, fun rows stopping variant => ?_, fun rows runs => ?_,
    fun rows starting => ?_, fun rows awaiting => ?_, fun rows waits act => ?_⟩
  · obtain ⟨power, acts⟩ := powerAct_soft rows s
    subst on
    obtain ⟨-, -, -, restT, act⟩ := on_of_legal legal hold
    refine h.exec_power power (acts.trans ((State.actOffSoft_on hold _).trans (congrArg _ ?_)))
    rw [if_neg (by simp [old]), State.beginStopping_on hold, act]
    simp only [restT, old]
    rcases rows with rfl | rfl <;> rfl
  · obtain ⟨power, acts⟩ := powerAct_soft rows s
    subst on
    refine h.exec_power power (acts.trans ((State.actOffSoft_on hold _).trans (congrArg _ ?_)))
    rw [if_pos young]
    rcases rows with rfl | rfl <;> rfl
  · subst rows stopping
    refine h.exec_power (row := .powerOffSoftThenHard) (by decide) ?_
    change s.actOffSoft true = _
    unfold State.actOffSoft
    rw [hold]
    exact if_pos (by simp [variant])
  · subst rows
    refine h.exec_power hardRow ?_
    have act : s.psq.pendingAct = .none := legal.noAct (by rcases runs with rfl | rfl <;> simp [hold])
    have forces := State.beginForcing_of_running legal hold runs .none
    have pending : s.setPending .none = s := by
      rw [State.setPending, ← act]
    rw [pending] at forces
    change s.actOffHard = _
    unfold State.actOffHard
    rw [hold]
    rcases runs with rfl | rfl <;> exact congrArg _ (forces.trans (by simp only [act]; rfl))
  · subst rows starting
    obtain ⟨t, retracts, released, forces⟩ := State.forceStarting legal hold
    have acts : s.actOffHard = (.accepted, t.raise .powerState [9, 0, 0, 0]) := by
      rw [← forces]
      unfold State.actOffHard
      rw [hold]
    obtain ⟨now, ptu, wdu, ccu, ntu, mfn, lpm, xch, -, -⟩ := retracts.keeps
    obtain ⟨r, record⟩ := retracts.psq
    have moved : s.PowerMoves (t.raise .powerState [9, 0, 0, 0]) := by
      have := s.actOffHard_powerMoves
      rwa [acts] at this
    have ord : (t.raise .powerState [9, 0, 0, 0]).ord = s.ord := by
      have := (s.actOffHard_keeps).2.2.2.2.2.2.2.2.1
      rwa [acts] at this
    refine ⟨_, h.exec_power hardRow acts, ?_, moved.answered ord _, released.congr ?_ ?_ rfl rfl rfl rfl, ?_, ?_, ?_, ?_,
      ?_, ?_, ?_, ?_⟩
    · simp [State.withInbox, record, Psq.bytes, seqCode, SeqState.code, Variant.code, PendingAct.code, flag]
    · simp [State.withInbox]
    · simp [State.withInbox]
    · simpa [State.withInbox] using now
    · exact State.raise_ntu_congr ntu now (by rw [ptu]) _ _
    · simpa [State.withInbox] using wdu
    · simpa [State.withInbox] using ccu
    · simpa [State.withInbox] using mfn
    · simpa [State.withInbox] using lpm
    · simpa [State.withInbox] using xch
    · simp [State.withInbox, record, force]
  · subst awaiting
    obtain ⟨t, retracts, asked, unasked, quits⟩ := State.offAwaiting_retracts legal hold
    obtain ⟨now, ptu, wdu, ccu, ntu, mfn, lpm, xch, -, -⟩ := retracts.keeps
    obtain ⟨r, record⟩ := retracts.psq
    have free := legal.slot_free hold rfl
    obtain ⟨power, acts⟩ : row ∈ powerRows ∧ row.powerAct s = (.done, s.offAwaiting) := by
      rcases rows with soft | rfl
      · exact ⟨(powerAct_soft soft s).1, (powerAct_soft soft s).2.trans ((powerAct_quits hold).1 _)⟩
      · exact ⟨hardRow, (powerAct_quits hold).2⟩
    have ord : s.offAwaiting.ord = s.ord := by simpa [acts] using powerAct_ord s row power
    have frame := s.offAwaiting_powerMoves.answered ord
    refine ⟨_, h.exec_power power acts, ?_⟩
    rw [quits] at frame ⊢
    refine ⟨?_, frame _, ?_, ?_, ?_, ?_, ?_, ?_, ?_, fun claim => (asked claim).congr ?_ ?_ rfl rfl rfl, fun claim => ?_, ?_⟩
    · by_cases restore : s.psq.variant = .feedRestore <;>
        simp [State.withInbox, record, restore, free, Psq.bytes, seqCode, SeqState.code, Variant.code, PendingAct.code, flag]
    · simpa [State.withInbox] using now
    · exact State.raise_ntu_congr ntu now (by rw [ptu]) _ _
    · simpa [State.withInbox] using wdu
    · simpa [State.withInbox] using ccu
    · simpa [State.withInbox] using mfn
    · simpa [State.withInbox] using lpm
    · simpa [State.withInbox] using xch
    · simp [State.withInbox]
    · simp [State.withInbox]
    · simpa [State.withInbox] using unasked claim
    · simp [State.withInbox, record]
  · have cancels := powerAct_cancels hold waits act
    rcases rows with soft | rfl
    · obtain ⟨power, acts⟩ := powerAct_soft soft s
      exact h.exec_power power (acts.trans (cancels.1 _))
    · exact h.exec_power hardRow cancels.2

end Sys2Proof.Machine


/-! ## FEED-CUT, FEED-RESTORE, RESET and WAKE (R11, R13 to R15) -/

namespace Sys2Proof.Machine

/-- The rest phase and timer on entry to FEED-CUT by the action, by the state left (R13). -/
def State.cutRestFrom (s : State) (st : SeqState) : RestPhase × Option Time :=
  match st with
  | .on | .stopping => (.awaitingFall, none)
  | .forcing =>
    if s.psq.pgood then (.awaitingFall, none) else (.running, some (after s.now (1000 * s.setting Settings.rest)))
  | .feedBounce => if s.psq.pgood then (.awaitingFall, none) else (s.psq.restPhase, s.psq.restT)
  | .starting => (.running, some (after s.now (1000 * s.setting Settings.rest)))
  | .off | .awaitingSlot => (.satisfied, none)
  | .resting | .feedCut => (s.psq.restPhase, s.psq.restT)

/-- The state in which the feed has been cut, before PSQ enters FEED-CUT (R13). -/
def State.cutting (s : State) (st : SeqState) : State :=
  { s with
    psq := { s.psq with
      feedClosed := false, press := .released, restPhase := (s.cutRestFrom st).1, restT := (s.cutRestFrom st).2
      pendingAct := .none, deferred := .none, startT := none, youngT := none, graceT := none, forceT := none }
    ccu := s.ccu.addMark s.now .feedCut 0 }

theorem State.actFeedCut_eq {s : State} {st : SeqState} (hold : s.psq.state = some st) (other : st ≠ .feedCut) :
    s.actFeedCut = (.done, (s.cutting st).psqEnter .feedCut .none) := by
  have marked : (((s.setFeed false).releasePress).mark .feedCut 0).psq.state = some st := hold
  have rested : (((s.setFeed false).releasePress).mark .feedCut 0).cutRest = { s with
      psq := { s.psq with
        feedClosed := false, press := .released, restPhase := (s.cutRestFrom st).1, restT := (s.cutRestFrom st).2 }
      ccu := s.ccu.addMark s.now .feedCut 0 } := by
    unfold State.cutRest
    rw [marked]
    cases st
    case forcing =>
      cases pgood : s.psq.pgood <;>
        simp [State.cutRestFrom, State.mark, State.releasePress, State.setFeed, State.startRest, State.setting, sec, pgood]
    case feedBounce =>
      cases pgood : s.psq.pgood <;> simp [State.cutRestFrom, State.mark, State.releasePress, State.setFeed, pgood]
    all_goals rfl
  unfold State.actFeedCut
  rw [hold]
  cases st
  case feedCut => exact absurd rfl other
  all_goals
    dsimp only
    rw [rested]
    rfl

/-- PSQ's record in FEED-CUT by the action, the retract count apart (R4, R13). -/
def State.cutRecord (s : State) (st : SeqState) : Psq :=
  { s.psq with
    state := some .feedCut, variant := .none, pendingAct := .none, slotHeld := false, claimAsked := false
    young := false, deferred := .none, press := .released, feedClosed := false
    restPhase := (s.cutRestFrom st).1, restT := (s.cutRestFrom st).2, startT := none, settleT := none, youngT := none
    graceT := none, forceT := none }

theorem Psq.Legal.not_young {p : Psq} (legal : p.Legal) {st : SeqState} (hold : p.state = some st) (other : st ≠ .on) :
    p.young = false := by
  by_contra young
  have := legal.young (by simpa using young)
  rw [hold] at this
  exact other (Option.some.inj this)

theorem Psq.Legal.no_settleT {p : Psq} (legal : p.Legal) (free : p.slotHeld = false) : p.settleT = Option.none := by
  by_contra runs
  simpa [free] using legal.settle (Option.isSome_iff_ne_none.2 runs)

/-- What entry to FEED-CUT makes of the record, the slot and the claim apart. -/
theorem State.cutting_entering {s : State} {st : SeqState} (legal : s.psq.Legal) (hold : s.psq.state = some st) :
    (s.cutting st).entering .feedCut .none = { s.cutRecord st with
      slotHeld := s.psq.slotHeld, claimAsked := s.psq.claimAsked, settleT := s.psq.settleT } := by
  by_cases on : st = .on
  · subst on
    simp [State.entering, State.cutting, State.cutRecord, Psq.leave, Psq.restOnEntry, State.entryTimer, hold]
  · have young := legal.not_young hold on
    cases st <;>
      simp_all [State.entering, State.cutting, State.cutRecord, Psq.leave, Psq.restOnEntry, State.entryTimer]

/-- What FEED-CUT makes of the state (R13), by the state left. -/
structure State.FeedIsCut (s w : State) (st : SeqState) : Prop where
  now     : w.now = s.now
  ccu     : w.ccu = s.ccu.addMark s.now .feedCut 0
  ntu     : w.ntu = (s.raise .powerState [1, 0, 0, 0]).ntu
  wdu     : w.wdu = if st = .on then { s.wdu with deadline := none } else s.wdu
  boot    : st = .on ∨ st = .stopping ∨ st = .forcing → s.BootOnceEnds w
  media   : st ≠ .on → st ≠ .stopping → st ≠ .forcing → w.mfn = s.mfn ∧ w.lpm = s.lpm ∧ w.xch = s.xch
  slot    : st ≠ .awaitingSlot → s.SlotReleased w
  asked   : st = .awaitingSlot → s.psq.claimAsked = true → s.RetractAsked w .withdraw
  unasked : st = .awaitingSlot → s.psq.claimAsked = false → w.psq.retract = s.psq.retract ∧ w.adm = s.adm
  psq     : ∃ r, w.psq = { s.cutRecord st with retract := r }

section

variable {s : State} {st : SeqState}

/-- The notice of FEED-CUT, told of the state before the cut. -/
theorem State.cutting_raise_ntu (s : State) (st : SeqState) (d : Bytes) :
    ((s.cutting st).raise .powerState d).ntu = (s.raise .powerState d).ntu :=
  State.raise_ntu_congr (s := s) (by rfl) (by rfl) (by rfl) _ _

theorem State.cutting_running (legal : s.psq.Legal) (hold : s.psq.state = some st) (runs : st.isRunning = true) :
    s.FeedIsCut ((s.cutting st).psqEnter .feedCut .none) st := by
  have unasked := legal.unasked hold (by rintro rfl; cases runs)
  obtain ⟨now, -, -, wdu, ccu, ntu, ⟨r, record⟩, slot, boot⟩ := State.psqEnter_goesOff_from (s := s) (v := s.cutting st)
    (st := .feedCut) hold runs rfl (by simp) legal.settle .none rfl rfl rfl
  refine ⟨now, ccu, ntu.trans (State.cutting_raise_ntu s st _), wdu, fun _ => boot, ?_, fun _ => slot, ?_, ?_, r, ?_⟩
  · cases st <;> simp_all [SeqState.isRunning]
  · rintro rfl; cases runs
  · rintro rfl; cases runs
  · rw [record, State.cutting_entering legal hold, unasked]
    rfl

theorem State.cutting_starting (legal : s.psq.Legal) (hold : s.psq.state = some .starting) :
    s.FeedIsCut ((s.cutting .starting).psqEnter .feedCut .none) .starting := by
  have unasked := legal.unasked hold (by simp)
  obtain ⟨t, retracts, slot, enters⟩ := State.psqEnter_leavesStarting (v := s.cutting .starting) (st := .feedCut) hold
    rfl (by simp) legal.settle .none
  obtain ⟨now, ptu, wdu, ccu, ntu, mfn, lpm, xch, -, -⟩ := retracts.keeps
  obtain ⟨r, record⟩ := retracts.psq
  rw [enters]
  refine ⟨by simpa [State.cutting] using now, by simpa [State.cutting] using ccu, ?_,
    by simpa [State.cutting] using wdu, by simp, fun _ _ _ => ?_,
    fun _ => slot.congr (by simp) (by simp) rfl rfl rfl rfl, by simp, by simp, r, ?_⟩
  · exact State.raise_ntu_congr (s := s) ntu now (by rw [ptu]; rfl) _ _
  · simpa using ⟨mfn, lpm, xch⟩
  · rw [State.raise_eq, record, State.cutting_entering legal hold, unasked]
    rfl

theorem State.cutting_awaiting (legal : s.psq.Legal) (hold : s.psq.state = some .awaitingSlot) :
    s.FeedIsCut ((s.cutting .awaitingSlot).psqEnter .feedCut .none) .awaitingSlot := by
  have free := legal.slot_free hold rfl
  obtain ⟨t, retracts, asked, unasked, enters⟩ := State.psqEnter_quitsAwaiting (v := s.cutting .awaitingSlot)
    (st := .feedCut) hold rfl free rfl (by simp)
  obtain ⟨now, ptu, wdu, ccu, ntu, mfn, lpm, xch, -, -⟩ := retracts.keeps
  obtain ⟨r, record⟩ := retracts.psq
  rw [enters]
  refine ⟨by simpa [State.cutting] using now, by simpa [State.cutting] using ccu, ?_,
    by simpa [State.cutting] using wdu, by simp, fun _ _ _ => ?_, by simp,
    fun _ claim => (asked claim).congr (by simp) (by simp) rfl rfl rfl, fun _ claim => by simpa [State.cutting] using unasked claim, r, ?_⟩
  · exact State.raise_ntu_congr (s := s) ntu now (by rw [ptu]; rfl) _ _
  · simpa using ⟨mfn, lpm, xch⟩
  · rw [State.raise_eq, record, State.cutting_entering legal hold, free, legal.no_settleT free]
    rfl

theorem State.cutting_low (legal : s.psq.Legal) (hold : s.psq.state = some st)
    (low : st = .off ∨ st = .resting ∨ st = .feedBounce) :
    s.FeedIsCut ((s.cutting st).psqEnter .feedCut .none) st := by
  have other : st ≠ .awaitingSlot := by rcases low with rfl | rfl | rfl <;> simp
  have notOn : st ≠ .on := by rcases low with rfl | rfl | rfl <;> simp
  have free := legal.slot_free hold (by rcases low with rfl | rfl | rfl <;> rfl)
  have unasked := legal.unasked hold other
  have held : (s.cutting st).psq.state = some st := hold
  have noSlot : (s.cutting st).psq.slotHeld = false := free
  have enters := (s.cutting st).psqEnter_plain .feedCut .none false (by rw [held]; simpa using other) (by simp)
    (by rw [held]; rcases low with rfl | rfl | rfl <;> rfl)
  have untold (u : State) : u.tellWdu (some st) .feedCut = u := by simp [State.tellWdu, notOn]
  rw [held, untold, noSlot] at enters
  rw [enters]
  refine ⟨by simp [State.cutting], by simp [State.cutting], ?_, by simp [State.cutting, notOn], ?_, fun _ _ _ => ?_,
    fun _ => ⟨fun claim => by simp [free] at claim, fun _ => ?_⟩, fun waits => absurd waits other,
    fun waits => absurd waits other, s.psq.retract, ?_⟩
  · exact State.raise_ntu_congr (s := s) (by rfl) (by rfl) (by rfl) _ _
  · rintro (rfl | rfl | rfl) <;> simp at low
  · simp [State.cutting]
  · simp [State.cutting]
  · rw [State.raise_eq]
    change (s.cutting st).entering .feedCut .none = _
    rw [State.cutting_entering legal hold, free, unasked, legal.no_settleT free]
    rfl

/-- FEED-CUT, whatever state PSQ leaves. -/
theorem State.cutting_cuts (legal : s.psq.Legal) (hold : s.psq.state = some st) (other : st ≠ .feedCut) :
    s.FeedIsCut ((s.cutting st).psqEnter .feedCut .none) st := by
  cases st
  case feedCut => exact absurd rfl other
  case on | stopping | forcing => exact State.cutting_running legal hold rfl
  case starting => exact State.cutting_starting legal hold
  case awaitingSlot => exact State.cutting_awaiting legal hold
  case off | resting | feedBounce => exact State.cutting_low legal hold (by simp)

end

/-- The claim a restore asks (R5, R14). -/
theorem State.psqEnter_awaits_cut {s : State} (legal : s.psq.Legal) (hold : s.psq.state = some .feedCut)
    (rested : s.psq.restPhase = .satisfied) :
    s.psqEnter .awaitingSlot .feedRestore = { s with
      psq := { s.psq with
        state := some .awaitingSlot, variant := .feedRestore, restT := none, claimAsked := s.claimsNow }
      adm := { s.adm with own := if s.claimsNow then s.adm.ownWith [{ kind := .claim .feedRestore }] else s.adm.own }
      ntu := (s.raise .powerState [5, 2, 0, 0]).ntu } := by
  have free := legal.slot_free hold rfl
  have act : s.psq.pendingAct = .none := by
    cases act : s.psq.pendingAct
    · rfl
    · exact absurd act (legal.cutAct hold)
    · exact absurd rested (legal.cutRest hold act)
  rw [State.psqEnter_awaits hold (.inr (.inr (.inr rfl))) (legal.unasked hold (by simp)), act, free]
  simp only [rested]
  rfl

/-- Settles O50: the cut by the state left, the restore by the rest phase, the reset and the wake. -/
theorem feedResetAndWakeActions : Obligations.FeedResetAndWakeActions := by
  intro s o rest row st h legal hold answers accepted fall run kept cutRest
  refine ⟨fun cut other => ?_, fun restore cut rested => ?_, fun restore cut unrested => ?_, fun reset on idle => ?_,
    fun wake on suspended armed => ?_⟩
  · subst cut
    have acts : s.actFeedCut = _ := State.actFeedCut_eq hold other
    have cuts := State.cutting_cuts legal hold other
    obtain ⟨r, record⟩ := cuts.psq
    have moved : s.PowerMoves ((s.cutting st).psqEnter .feedCut .none) := by
      have := s.actFeedCut_powerMoves
      rwa [acts] at this
    have ord : ((s.cutting st).psqEnter .feedCut .none).ord = s.ord := by simp [State.cutting]
    refine ⟨_, h.exec_power (row := .powerFeedCut) (by decide) acts, cuts.now, ?_, moved.answered ord _, cuts.ccu,
      cuts.ntu, cuts.wdu, fun runs => (cuts.boot runs).congr rfl rfl rfl rfl rfl rfl rfl rfl rfl, cuts.media,
      fun waits => (cuts.slot waits).congr rfl rfl rfl rfl rfl rfl,
      fun waits claim => (cuts.asked waits claim).congr rfl rfl rfl rfl rfl, cuts.unasked, ?_⟩
    · rw [record]
      rfl
    · have self : ((s.cutting st).psqEnter .feedCut .none).psq =
          { s.cutRecord st with retract := ((s.cutting st).psqEnter .feedCut .none).psq.retract } := by rw [record]
      exact self
  · subst restore cut
    refine h.exec_unlessMismatch (row := .powerFeedRestore) (by decide) ?_
    change s.actFeedRestore = _
    rw [← State.psqEnter_awaits_cut legal hold rested]
    unfold State.actFeedRestore
    rw [hold]
    exact if_pos rested
  · subst restore cut
    refine h.exec_unlessMismatch (row := .powerFeedRestore) (by decide) ?_
    change s.actFeedRestore = _
    unfold State.actFeedRestore
    rw [hold]
    exact if_neg unrested
  · subst reset on
    refine h.exec_power (row := .powerReset) (by decide) ?_
    change s.actReset 0 = _
    unfold State.actReset
    rw [if_pos (by simp [hold, idle])]
    cases armed : s.wdu.armed <;>
      simp [State.mark, State.startYoung, State.wduResetPulse, State.bootDeadline, State.setting, sec, armed]
  · subst wake on
    refine h.exec_power (row := .powerWake) (by decide) ?_
    change s.actWake = _
    unfold State.actWake
    rw [if_pos (by simp [hold, suspended, armed])]
    cases resume : s.mfn.resume <;> simp

end Sys2Proof.Machine


/-! ## STATUS (R195) -/

namespace Sys2Proof.Machine

/-! ### The parts of the detail that a match chooses, byte by byte -/

/-- The time to the deadline that STATUS reports. -/
def Wdu.msLeft (w : Wdu) (now : Time) : Nat :=
  match w.deadline with
  | some d => if reached d now then 0 else (d - now).toNat
  | none => max32

theorem Wdu.timeLeft_eq (w : Wdu) (now : Time) : w.timeLeft now = be 4 (w.msLeft now) := by
  unfold Wdu.timeLeft Wdu.msLeft
  split <;> simp_all

/-- The watchdog fields: the two bytes of T, which has no value before the first WATCHDOG-ARM, are some bytes. -/
theorem State.statusWatchdog_bytes (s : State) : ∃ a b : Byte, (∀ t, s.wdu.timeout = some t → [a, b] = be 2 t) ∧
    s.statusWatchdog = [flag s.wdu.armed, a, b] ++ be 2 s.wdu.bootAllowance ++ be 2 (s.wdu.pendingTimeout.getD 0) ++
      [s.wdu.action.code, flag s.wdu.guard, s.wdu.phaseByte] ++ be 4 (s.wdu.msLeft s.now) ++
      [byte s.wdu.early, byte s.wdu.expiry, flag s.wdu.holdoff] := by
  unfold State.statusWatchdog
  dsimp only
  rw [Wdu.timeLeft_eq]
  cases timeout : s.wdu.timeout with
  | none => exact ⟨_, _, by simp, rfl⟩
  | some t => exact ⟨_, _, fun u same => by cases same; rfl, rfl⟩

/-- The media fields: mode and boot-once, which have no value in NONE, are some bytes there. -/
theorem State.statusMedia_bytes (s : State) : ∃ a b c d e f g h i : Byte,
    (s.mfn.state = .none → [a, b, c, d, e, f, g] = [0, 0, 0, 0, 0, 0, 0]) ∧
    (s.mfn.state ≠ .none → [a, b, c, d, e, f, g, h, i] =
      be 2 s.mfn.image ++ be 1 s.mfn.gen ++ be 4 s.mfn.capacity ++ [s.mfn.mode.code, flag s.mfn.bootOnce]) ∧
    s.statusMedia = [s.mfn.state.code, causeCode s.mfn.cause, a, b, c, d, e, f, g, h, i, s.mfn.port.code,
      flag s.mfn.remoteWake, s.mfn.requestByte, causeCode s.mfn.lastCause] := by
  unfold State.statusMedia
  by_cases none_ : s.mfn.state = .none
  · refine ⟨0, 0, 0, 0, 0, 0, 0, s.unstated 38, s.unstated 39, fun _ => rfl, fun other => absurd none_ other, ?_⟩
    simp only [none_, if_true]
    rfl
  · refine ⟨_, _, _, _, _, _, _, _, _, fun same => absurd same none_, fun _ => rfl, ?_⟩
    simp only [none_, if_false]
    rfl

/-- The 12 bytes of a present peer: what no beacon has given is some byte. -/
theorem State.statusPeer_bytes (s : State) (place x : Nat) : ∃ r st q0 q1 q2 q3 a0 a1 a2 : Byte,
    (∀ role, (s.ptu.peer x).role = some role → r = Role.code role) ∧
    (∀ state, (s.ptu.peer x).lastState = some state → st = state.code) ∧
    (∀ q, (s.ptu.peer x).lastSeq = some q → [q0, q1, q2, q3] = [q.state, q.variant, q.pendingAct, q.slotHeld]) ∧
    (∀ a, (s.ptu.peer x).lastAttach = some a → [a0, a1, a2] = be 2 a.1 ++ be 1 a.2) ∧
    s.statusPeer place x = [byte x, r, byte (s.ptu.peer x).missed, st, q0, q1, q2, q3, a0, a1, a2,
      (s.ptu.peer x).digestMatch.code] := by
  obtain ⟨st, state, stateBytes⟩ : ∃ st : Byte, (∀ state, (s.ptu.peer x).lastState = some state → st = state.code) ∧
      (match (s.ptu.peer x).lastState with
        | some st => [st.code]
        | none => [s.unstated (place + 3)]) = [st] := by
    cases (s.ptu.peer x).lastState with
    | none => exact ⟨_, by simp, rfl⟩
    | some state => exact ⟨_, fun _ same => by cases same; rfl, rfl⟩
  obtain ⟨q0, q1, q2, q3, seq, seqBytes⟩ : ∃ q0 q1 q2 q3 : Byte,
      (∀ q, (s.ptu.peer x).lastSeq = some q → [q0, q1, q2, q3] = [q.state, q.variant, q.pendingAct, q.slotHeld]) ∧
      (match (s.ptu.peer x).lastSeq with
        | some q => [q.state, q.variant, q.pendingAct, q.slotHeld]
        | none => [s.unstated (place + 4), s.unstated (place + 5), s.unstated (place + 6), s.unstated (place + 7)]) =
        [q0, q1, q2, q3] := by
    cases (s.ptu.peer x).lastSeq with
    | none => exact ⟨_, _, _, _, by simp, rfl⟩
    | some q => exact ⟨_, _, _, _, fun _ same => by cases same; rfl, rfl⟩
  obtain ⟨a0, a1, a2, attach, attachBytes⟩ : ∃ a0 a1 a2 : Byte,
      (∀ a, (s.ptu.peer x).lastAttach = some a → [a0, a1, a2] = be 2 a.1 ++ be 1 a.2) ∧
      (match (s.ptu.peer x).lastAttach with
        | some a => be 2 a.1 ++ be 1 a.2
        | none => [s.unstated (place + 8), s.unstated (place + 9), s.unstated (place + 10)]) = [a0, a1, a2] := by
    cases (s.ptu.peer x).lastAttach with
    | none => exact ⟨_, _, _, by simp, rfl⟩
    | some a => exact ⟨_, _, _, fun _ same => by cases same; rfl, rfl⟩
  refine ⟨s.statusRole (place + 1) (s.ptu.peer x).role, st, q0, q1, q2, q3, a0, a1, a2, fun role known => ?_, state, seq,
    attach, ?_⟩
  · rw [known]
    rfl
  · have parts : s.statusPeer place x = [byte x, s.statusRole (place + 1) (s.ptu.peer x).role,
        byte (s.ptu.peer x).missed] ++ [st] ++ [q0, q1, q2, q3] ++ [a0, a1, a2] ++ [(s.ptu.peer x).digestMatch.code] := by
      rw [← stateBytes, ← seqBytes, ← attachBytes]
      rfl
    exact parts

/-! ### The peers' entries -/

/-- Past `i` entries of 12 bytes stands the entry `i`. -/
theorem drop_entries {entries : List Bytes} (twelve : ∀ e ∈ entries, e.length = 12) {i : Nat} {e : Bytes}
    (entry : entries[i]? = some e) : ∃ rest, entries.flatten.drop (12 * i) = e ++ rest := by
  induction entries generalizing i with
  | nil => simp at entry
  | cons first others ih =>
    cases i with
    | zero =>
      obtain rfl : first = e := by simpa using entry
      exact ⟨others.flatten, by simp⟩
    | succ i =>
      obtain ⟨rest, dropped⟩ := ih (fun e member => twelve e (by simp [member])) (i := i) (by simpa using entry)
      refine ⟨rest, ?_⟩
      have length := twelve first (by simp)
      rw [List.flatten_cons, List.drop_append, List.drop_of_length_le (by omega), length,
        show 12 * (i + 1) - 12 = 12 * i by omega, dropped, List.nil_append]

theorem length_entries {entries : List Bytes} (twelve : ∀ e ∈ entries, e.length = 12) :
    entries.flatten.length = 12 * entries.length := by
  induction entries with
  | nil => rfl
  | cons first others ih =>
    rw [List.flatten_cons, List.length_append, twelve first (by simp), ih (fun e member => twelve e (by simp [member]))]
    simp only [List.length_cons]
    omega

/-- A segment of a byte string stands behind the segments before it, whose lengths are known. -/
theorem segment_at {segments : List Bytes} {lengths : List Nat} (known : segments.map List.length = lengths) {k : Nat}
    {segment : Bytes} {place n : Nat} (stands : segments[k]? = some segment) (placed : (lengths.take k).sum = place)
    (size : lengths[k]? = some n) : (segments.flatten.drop place).take n = segment := by
  have split : segments = segments.take k ++ segment :: segments.drop (k + 1) := by
    obtain ⟨inside, rfl⟩ := List.getElem?_eq_some_iff.1 stands
    simp
  have before : (segments.take k).flatten.length = place := by
    rw [List.length_flatten, List.map_take, known, placed]
  have length : segment.length = n := by
    rw [← known, List.getElem?_map, stands] at size
    exact Option.some.inj size
  rw [split, List.flatten_append, List.drop_left' before, List.flatten_cons, List.take_left' length]

/-- The entries of the present peers, each at its place (R195). -/
def State.statusEntries (s : State) : List Bytes :=
  ((List.range s.ptu.presentPeers.length).zip s.ptu.presentPeers).map (fun e => s.statusPeer (85 + 12 * e.1) e.2)

theorem State.statusEntries_twelve (s : State) : ∀ e ∈ s.statusEntries, e.length = 12 := by
  intro e member
  obtain ⟨p, -, rfl⟩ := List.mem_map.1 member
  obtain ⟨r, st, q0, q1, q2, q3, a0, a1, a2, -, -, -, -, bytes⟩ := s.statusPeer_bytes (85 + 12 * p.1) p.2
  rw [bytes]
  rfl

theorem State.statusEntries_get {s : State} {i x : Nat} (peer : s.ptu.presentPeers[i]? = some x) :
    s.statusEntries[i]? = some (s.statusPeer (85 + 12 * i) x) := by
  obtain ⟨inside, rfl⟩ := List.getElem?_eq_some_iff.1 peer
  simp [State.statusEntries, inside]

/-! ### The order -/

/-- STATUS at the head of the inbox passes the tests of R190 in the three states it is decided in. -/
theorem State.orderTest_status {s : State} {o : Order} (named : o.name = some 3)
    (uplink : (s.ptu.peer o.sender).role = some .uplink) (params : o.params = []) : s.orderTest o = none := by
  simp [State.orderTest, named, uplink, params, needsClaim, paramsValid]

/-- The detail's 85 bytes, and the entries behind them. -/
theorem State.statusDetail_eq (s : State) : s.statusDetail =
    ([s.ptu.state.code, Role.code s.sld.role] ++ be 4 s.now.toNat) ++ (s.statusBlocks ++
      ([byte s.ptu.presentPeers.length, byte (s.ptu.countRole (some .uplink)),
        byte (s.ptu.countRole (some .serving)), byte (s.ptu.countRole none)] ++ s.statusEntries.flatten)) := by
  simp only [State.statusDetail, List.append_assoc]
  rfl

theorem State.statusBlocks_length (s : State) : s.statusBlocks.length = 75 := by
  unfold State.statusBlocks
  split
  · simp
  · obtain ⟨a, b, -, watchdog⟩ := s.statusWatchdog_bytes
    obtain ⟨m0, m1, m2, m3, m4, m5, m6, m7, m8, -, -, media⟩ := s.statusMedia_bytes
    rw [watchdog, media]
    rfl

/-- The segments of the detail with a setting record, the bytes that a match chooses given (R195). -/
def State.statusSegments (s : State) (timeout attachment : Bytes) : List Bytes :=
  [[s.ptu.state.code, Role.code s.sld.role] ++ be 4 s.now.toNat,
   s.psq.bytes ++ [byte s.waitingPosition, flag s.ptu.mismatch],
   [flag s.wdu.armed],
   timeout,
   be 2 s.wdu.bootAllowance ++ be 2 (s.wdu.pendingTimeout.getD 0) ++
     [s.wdu.action.code, flag s.wdu.guard, s.wdu.phaseByte],
   be 4 (s.wdu.msLeft s.now),
   [byte s.wdu.early, byte s.wdu.expiry, flag s.wdu.holdoff, s.mfn.state.code, causeCode s.mfn.cause],
   attachment,
   [s.mfn.port.code, flag s.mfn.remoteWake, s.mfn.requestByte, causeCode s.mfn.lastCause],
   be 4 s.lpm.freeCount ++ be 4 s.lpm.fillingCount ++ be 4 s.lpm.cleanCount ++ be 4 s.lpm.dirtyCount,
   be 8 s.ccu.captured ++ be 8 s.ccu.oldest,
   byte (s.ord.holder.getD 0) :: be 4 (if s.ord.holder.isSome then s.ord.holdTime.toNat else 0)]

/-- The lengths of the segments. -/
def statusLengths : List Nat := [6, 6, 1, 2, 7, 4, 5, 9, 4, 16, 16, 5]

theorem State.statusSegments_lengths (s : State) {timeout attachment : Bytes} (two : timeout.length = 2)
    (nine : attachment.length = 9) : (s.statusSegments timeout attachment).map List.length = statusLengths := by
  simp [State.statusSegments, statusLengths, be_length, Psq.bytes, two, nine]

theorem State.statusDetail_segments {s : State} (set : s.sld.settings.isSome) :
    ∃ timeout attachment : Bytes, timeout.length = 2 ∧ attachment.length = 9 ∧
      (∀ t, s.wdu.timeout = some t → timeout = be 2 t) ∧
      (s.mfn.state = .none → attachment.take 7 = [0, 0, 0, 0, 0, 0, 0]) ∧
      (s.mfn.state ≠ .none → attachment =
        be 2 s.mfn.image ++ be 1 s.mfn.gen ++ be 4 s.mfn.capacity ++ [s.mfn.mode.code, flag s.mfn.bootOnce]) ∧
      s.statusDetail = (s.statusSegments timeout attachment).flatten ++
        ([byte s.ptu.presentPeers.length, byte (s.ptu.countRole (some .uplink)),
          byte (s.ptu.countRole (some .serving)), byte (s.ptu.countRole none)] ++ s.statusEntries.flatten) := by
  obtain ⟨a, b, timeout, watchdog⟩ := s.statusWatchdog_bytes
  obtain ⟨m0, m1, m2, m3, m4, m5, m6, m7, m8, detached, attached, media⟩ := s.statusMedia_bytes
  have blocks : s.statusBlocks = _ := if_neg (by simpa using Option.isSome_iff_ne_none.1 set)
  refine ⟨[a, b], [m0, m1, m2, m3, m4, m5, m6, m7, m8], rfl, rfl, timeout, detached, attached, ?_⟩
  rw [s.statusDetail_eq, blocks, watchdog, media]
  simp only [State.statusSegments, List.flatten_cons, List.flatten_nil, List.append_assoc, List.cons_append,
    List.nil_append]

/-- The places behind the blocks' 75 bytes. -/
theorem State.statusDetail_drop (s : State) (place : Nat) : s.statusDetail.drop (81 + place) =
    ([byte s.ptu.presentPeers.length, byte (s.ptu.countRole (some .uplink)), byte (s.ptu.countRole (some .serving)),
      byte (s.ptu.countRole none)] ++ s.statusEntries.flatten).drop place := by
  have front : (([s.ptu.state.code, Role.code s.sld.role] ++ be 4 s.now.toNat) ++ s.statusBlocks).length = 81 := by
    rw [List.length_append, s.statusBlocks_length]
    rfl
  rw [s.statusDetail_eq, ← List.append_assoc, ← List.drop_drop, List.drop_left' front]

/-- Settles O52: the fields at their places, the bytes that a match chooses apart. -/
theorem statusReportsTheBlocks : Obligations.StatusReportsTheBlocks := by
  intro s o rest released serving noRestart decides head waiting ofRow uplink params peers
  have deciding := State.deciding_of_waiting serving noRestart decides head waiting
  have named : o.name = some 3 := by
    have := Order.name_of_row (o := o) (by simp [ofRow])
    rwa [ofRow] at this
  refine ⟨s.statusDetail, ?_, ?_⟩
  · refine (exec_command .status released).trans ?_
    rw [State.decide_passes deciding ofRow (s.orderTest_status named uplink params) rfl head]
    rw [State.replyDetail_given _ named (by decide)]
    rfl
  intro at_
  refine ⟨?_, rfl, fun unset => ?_, fun set => ?_, ?_, fun i x peer => ?_⟩
  · have entries : s.statusEntries.flatten.length = 12 * peers.length := by
      rw [length_entries s.statusEntries_twelve]
      simp [State.statusEntries, peers, Ptu.presentPeers]
    rw [s.statusDetail_eq]
    simp only [List.length_append, s.statusBlocks_length, entries, List.length_cons, List.length_nil, be_length]
    omega
  · have blocks : s.statusBlocks = List.replicate 75 0 := by simp [State.statusBlocks, unset]
    change (s.statusDetail.drop 6).take 75 = _
    rw [s.statusDetail_eq, blocks]
    rfl
  · obtain ⟨timeout, attachment, two, nine, timed, detached, attached, detail⟩ := s.statusDetail_segments set
    have lengths := s.statusSegments_lengths two nine
    have field (k : Nat) {segment : Bytes} {place n : Nat}
        (stands : (s.statusSegments timeout attachment)[k]? = some segment) (placed : (statusLengths.take k).sum = place)
        (size : statusLengths[k]? = some n) (inside : place + n ≤ 81) : at_ place n segment := by
      have total : (s.statusSegments timeout attachment).flatten.length = 81 := by
        rw [List.length_flatten, lengths]
        rfl
      change (s.statusDetail.drop place).take n = segment
      rw [detail, List.drop_append_of_le_length (by omega), List.take_append_of_le_length (by rw [List.length_drop]; omega)]
      exact segment_at lengths stands placed size
    have media : at_ 31 9 attachment := field 7 rfl rfl rfl (by decide)
    have left : at_ 22 4 (be 4 (s.wdu.msLeft s.now)) := field 5 rfl rfl rfl (by decide)
    have holder : at_ 76 5 (byte (s.ord.holder.getD 0) :: be 4 (if s.ord.holder.isSome then s.ord.holdTime.toNat else 0)) :=
      field 11 rfl rfl rfl (by decide)
    refine ⟨field 1 rfl rfl rfl (by decide), field 2 rfl rfl rfl (by decide), fun t known => ?_,
      field 4 rfl rfl rfl (by decide), fun unarmed => ?_, fun t running later => ?_, field 6 rfl rfl rfl (by decide),
      fun none_ => ?_, fun some_ => ?_, field 8 rfl rfl rfl (by decide), field 9 rfl rfl rfl (by decide),
      field 10 rfl rfl rfl (by decide), fun free => ?_, fun h held => ?_⟩
    · rw [← timed t known]
      exact field 3 rfl rfl rfl (by decide)
    · have stopped : s.wdu.msLeft s.now = max32 := by simp [Wdu.msLeft, unarmed]
      rw [stopped] at left
      exact left
    · have runs : s.wdu.msLeft s.now = (t - s.now).toNat := by simp [Wdu.msLeft, running, later]
      rw [runs] at left
      exact left
    · rw [← detached none_]
      have shorter := congrArg (List.take 7) media
      rw [List.take_take] at shorter
      exact shorter
    · rw [← attached some_]
      exact media
    · have zeros : (byte ((none : Option Nat).getD 0) :: be 4 0) = [0, 0, 0, 0, 0] := by decide
      rw [free] at holder
      rw [← zeros]
      exact holder
    · rw [held] at holder
      exact holder
  · exact congrArg (List.take 4) (s.statusDetail_drop 0)
  · obtain ⟨r, st, q0, q1, q2, q3, a0, a1, a2, role, state, seq, attach, bytes⟩ := s.statusPeer_bytes (85 + 12 * i) x
    obtain ⟨others, dropped⟩ := drop_entries s.statusEntries_twelve (State.statusEntries_get (s := s) peer)
    rw [bytes] at dropped
    have entry (k n : Nat) (field : Bytes) : at_ (85 + k + 12 * i) n field ↔
        ((([byte x, r, byte (s.ptu.peer x).missed, st, q0, q1, q2, q3, a0, a1, a2,
          (s.ptu.peer x).digestMatch.code] ++ others).drop k).take n = field) := by
      rw [← dropped, List.drop_drop, Nat.add_comm (12 * i) k]
      change ((s.statusDetail.drop (85 + k + 12 * i)).take n = field) ↔ _
      rw [show 85 + k + 12 * i = 81 + (4 + (k + 12 * i)) by omega, s.statusDetail_drop, ← List.drop_drop]
      rfl
    refine ⟨(entry 0 1 _).2 rfl, fun q known => (entry 1 1 _).2 ?_, (entry 2 1 _).2 rfl,
      fun q known => (entry 3 1 _).2 ?_, fun q known => (entry 4 4 _).2 (seq q known),
      fun a known => (entry 8 3 _).2 (attach a known), (entry 11 1 _).2 rfl⟩
    · rw [← role q known]
      rfl
    · rw [← state q known]
      rfl

end Sys2Proof.Machine


/-! ## The lane engine: quiet, errors, spoils, and frames taken (R157 to R163, R170 to R172) -/

namespace Sys2Proof.Machine

theorem Lif.reads_iff (l : Lif) : l.reads = true ↔ l.engine = .quiet ∨ l.engine = .receiving := by
  simp [Lif.reads]

/-- A receiver finds an error: DISCARDING, from its own reading or from QUIET (R158, R162). -/
theorem State.receiveError_of_reads {s : State} (reads : s.lif.engine = .quiet ∨ s.lif.engine = .receiving)
    (error : RxError) (tailRemains : Bool) : s.receiveError error tailRemains = { s with lif := { s.lif with
      engine := .discarding, quiet := 0, sitOut := false, drove := s.errorDrive error tailRemains } } := by
  rw [State.receiveError, if_pos ((s.lif.reads_iff).2 reads)]
  have runs : s.lif.engine.run [.leadBit false, .errorFound] = .discarding := by
    rcases reads with h | h <;> rw [h] <;> rfl
  rw [runs]

theorem State.errorDrive_eq (s : State) (error : RxError) (tailRemains : Bool) : s.errorDrive error tailRemains =
    if s.ptu.state = .silent ∨ error = .tailDominant then .nothing
    else if tailRemains ∧ error ≠ .badCheck then .tailBit else .spoilSlot := by
  unfold State.errorDrive
  by_cases silent : s.ptu.state = .silent
  · simp [silent]
  · cases error <;> simp [silent]

/-- A take decided and undone leaves nothing behind (R163, R171). -/
theorem State.undoTake_holdTake {s : State} (untaken : s.lif.takeHeld = none) (f : LaneFrame) :
    (s.holdTake f).undoTake = { s with lif := { s.lif with drove := .nothing } } := by
  unfold State.holdTake
  split
  · change ({ s with
      lif := { s.lif with takeHeld := none, drove := .nothing }
      cfw := { s.cfw with reserved := s.cfw.reserved + s.reserves f - s.reserves f } } : State) = _
    simp only [Nat.add_sub_cancel, untaken]
  · simp [State.undoTake, untaken]

/-- Settles O21: the quiet counts, the error and the spoiled frame, one command each. -/
theorem engineActsOnQuietErrorsAndSpoils : Obligations.EngineActsOnQuietErrorsAndSpoils := by
  refine ⟨fun s released => ⟨fun waits noTenure => ?_, fun quiet sitOut => ?_⟩,
    fun s error tailRemains released reads => ?_, fun s f released reads noTenure fits other untaken => ?_⟩
  · refine exec_of_effect released ?_
    change s.syncQuiet = _
    rw [State.syncQuiet, if_pos (by rcases waits with h | h <;> simp [h, noTenure])]
    rcases waits with h | h <;> rw [h] <;> rfl
  · refine exec_of_effect released ?_
    change s.clearSitOut = _
    rw [State.clearSitOut, if_pos (by simp [quiet, sitOut])]
  · refine exec_of_effect released ?_
    change s.receiveError error tailRemains = _
    rw [State.receiveError_of_reads reads, State.errorDrive_eq]
  · refine exec_of_effect released ?_
    change s.frameSpoiled f = _
    have reading : s.lif.reads = true := (s.lif.reads_iff).2 reads
    rw [State.frameSpoiled, if_pos (by simpa [reading, LaneFrame.wellFormed] using fits),
      if_neg (by simp [State.isDuplicate, other]), if_neg (by simp [noTenure]),
      State.undoTake_holdTake (by simpa [Lif.passed] using untaken), Lif.passed_eq _ reading]

/-! ### Frames taken and handed over -/

section

variable {s : State} {f : LaneFrame}

theorem State.Reads.sender_legal (h : s.Reads f) : f.sender ≠ 0 ∧ f.sender ≠ 63 := by
  obtain ⟨low, high⟩ := h.legal
  refine ⟨?_, ?_⟩ <;> rintro same <;> rw [same] at low high <;> simp at low high

/-- LIF with the take of a frame acknowledged (R163). -/
def State.taking (s : State) (f : LaneFrame) : State :=
  { s with
    lif := { s.lif.afterFrame with takeHeld := none, drove := .takeSlot, recvQueue := s.lif.recvQueue ++ [f] }
    cfw := { s.cfw with reserved := s.cfw.reserved + s.reserves f } }

/-- A frame that the station takes is placed, presented, and handed over as the command says (R163, R164, R172). -/
theorem State.Reads.exec_taken (h : s.Reads f) (handovers : Nat)
    (decides : ({ s with lif := s.lif.passed } : State).decidesTake f = true) :
    Machine.exec (.frameCompleteUnspoiled f handovers) s =
      .next (settle (State.handOvers handovers ((s.taking f).present f))) := by
  have placed : ((({ s with lif := s.lif.passed } : State).holdTake f).placeTake) = s.taking f := by
    rw [State.holdTake, if_pos decides]
    simp [State.placeTake, Lif.passed_eq _ h.reads, State.taking, Lif.afterFrame, State.reserves, State.serving]
  rw [h.exec, placed]

/-- An ORDER or a CONSOLE-IN tells the blocks of its sender's presence alone (R164, R181). -/
theorem State.Reads.present_unheeded (h : s.Reads f) {t : State} (sld : t.sld = s.sld) (ptu : t.ptu = s.ptu)
    {kind : FrameKind} (code : f.kind = kind.code) (unheeded : kind = .order ∨ kind = .consoleIn) :
    t.present f = { t with ptu := s.hearing f.sender.toNat } := by
  have notBeacon : f.kind ≠ FrameKind.beacon.code := by rw [code]; rcases unheeded with rfl | rfl <;> decide
  rw [State.present, if_neg notBeacon, h.heard sld ptu]
  unfold State.presentBlocks
  rw [code]
  rcases unheeded with rfl | rfl <;> rfl

end

theorem handOvers_one (s : State) : State.handOvers 1 s = s.handOver := rfl

/-- The tests of an ORDER at a serving station (R170, R171, R174). -/
theorem State.decidesTake_order {s : State} {f : LaneFrame} (serving : s.serving = true)
    (code : f.kind = FrameKind.order.code) (legal : f.sender ≠ 0 ∧ f.sender ≠ 63) : s.decidesTake f = true ↔
      f.dest.toNat = s.own ∧ s.ord.inbox.length + s.lif.ordersHeld < 4 ∧ s.lif.recvQueue.length < 8 ∧
      (s.ptu.state = .member ∨ (s.ptu.state = .haltedSetup ∧ s.legalNumber = true)) := by
  have kindOf : FrameKind.ofCode f.kind = some .order := by rw [code]; rfl
  simp [State.decidesTake, kindOf, State.takesIn, State.takesKind, State.kindTest, serving]
  tauto

/-- The tests of a CONSOLE-IN at a serving station (R78, R170, R171, R174). -/
theorem State.decidesTake_consoleIn {s : State} {f : LaneFrame} (serving : s.serving = true)
    (code : f.kind = FrameKind.consoleIn.code) (legal : f.sender ≠ 0 ∧ f.sender ≠ 63) : s.decidesTake f = true ↔
      f.dest.toNat = s.own ∧ s.ord.holder = some f.sender.toNat ∧ 1 ≤ f.body.length ∧ f.body.length ≤ 256 ∧
      s.cfw.textCount + s.cfw.reserved + f.body.length ≤ 512 ∧ s.lif.recvQueue.length < 8 ∧ s.ptu.state = .member := by
  have kindOf : FrameKind.ofCode f.kind = some .consoleIn := by rw [code]; rfl
  have room : 1 ≤ f.body.length → (f.body.length ≤ s.cfw.textRoom ↔
      s.cfw.textCount + s.cfw.reserved + f.body.length ≤ 512) := by
    unfold Cfw.textRoom
    omega
  simp [State.decidesTake, kindOf, State.takesIn, State.takesKind, State.kindTest, serving,
    State.consoleInTest]
  tauto

/-- Settles O22: the two kinds a serving station takes, each with its own test. -/
theorem orderAndConsoleInFramesAreTaken : Obligations.OrderAndConsoleInFramesAreTaken := by
  intro s f h serving untaken x len idle heard placed answers passed mine orderFits textFits
  have refused {kind : FrameKind} (code : f.kind = kind.code) (unheeded : kind = .order ∨ kind = .consoleIn)
      (refuses : ({ s with lif := s.lif.passed } : State).decidesTake f = false) : passed := by
    have untook := h.exec_untaken untaken refuses
    rw [h.present_unheeded (t := { s with lif := s.lif.afterFrame }) rfl rfl code unheeded] at untook
    exact untook
  have taken {kind : FrameKind} (code : f.kind = kind.code) (unheeded : kind = .order ∨ kind = .consoleIn)
      (takes : ({ s with lif := s.lif.passed } : State).decidesTake f = true) (handovers : Nat) :
      answers handovers (State.handOvers handovers { s.taking f with ptu := s.hearing x }) := by
    have took := h.exec_taken handovers takes
    rw [h.present_unheeded (t := s.taking f) rfl rfl code unheeded] at took
    exact took
  refine ⟨fun code => ?_, fun code => ?_⟩
  · have decided : ({ s with lif := s.lif.passed } : State).decidesTake f = true ↔ orderFits :=
      State.decidesTake_order (s := { s with lif := s.lif.passed }) serving code h.sender_legal
    refine ⟨fun fits => ?_, fun unfit => refused code (.inl rfl) (by simpa using fun takes => unfit (decided.1 takes))⟩
    have none_ : s.reserves f = 0 := by
      rw [State.reserves, if_neg]
      rw [code]
      simp [FrameKind.code]
    have keeps : ({ s.cfw with reserved := s.cfw.reserved + s.reserves f } : Cfw) = s.cfw := by rw [none_]; rfl
    have shape : ({ s.taking f with ptu := s.hearing x } : State) = placed := by
      simp only [State.taking, keeps, placed, heard, idle, Lif.afterFrame, untaken]
    refine ⟨?_, fun empty => ?_⟩
    · have := taken code (.inl rfl) (decided.2 fits) 0
      rwa [shape] at this
    · have := taken code (.inl rfl) (decided.2 fits) 1
      rw [shape, handOvers_one] at this
      have handed : placed.handOver = { heard with
          ord := { s.ord with inbox := s.ord.inbox ++ [{ sender := x, body := f.body }] } } := by
        have serves : placed.serving = true := serving
        have queue : placed.lif.recvQueue = [f] := by simp [placed, empty]
        unfold State.handOver
        rw [queue]
        simp only [State.serving] at serves
        simp [State.serving, serves, code, placed, heard, idle, Lif.afterFrame, empty, x]
      rwa [handed] at this
  · have decided : ({ s with lif := s.lif.passed } : State).decidesTake f = true ↔ textFits :=
      State.decidesTake_consoleIn (s := { s with lif := s.lif.passed }) serving code h.sender_legal
    refine ⟨fun fits => ?_, fun unfit => refused code (.inr rfl) (by simpa using fun takes => unfit (decided.1 takes))⟩
    have room : s.reserves f = len := by
      rw [State.reserves, if_pos (by simp [serving, code])]
    have shape : ({ s.taking f with ptu := s.hearing x } : State) =
        { placed with cfw := { s.cfw with reserved := s.cfw.reserved + len } } := by
      simp only [State.taking, room, placed, heard, idle, Lif.afterFrame, untaken]
    refine ⟨?_, fun empty => ?_⟩
    · have := taken code (.inr rfl) (decided.2 fits) 0
      rwa [shape] at this
    · have := taken code (.inr rfl) (decided.2 fits) 1
      rw [shape, handOvers_one] at this
      have handed : ({ placed with cfw := { s.cfw with reserved := s.cfw.reserved + len } } : State).handOver =
          { heard with cfw := { s.cfw with queue := s.cfw.queue ++ f.body.map InputItem.text } } := by
        have serves : s.sld.role = .serving := by simpa [State.serving] using serving
        unfold State.handOver
        simp [State.serving, serves, code, placed, heard, idle, Lif.afterFrame, empty, len, Cfw.appendText, FrameKind.code]
      rwa [handed] at this

end Sys2Proof.Machine


/-! ## A tenure begins, or its bid is lost (R157 to R161) -/

namespace Sys2Proof.Machine

/-! ### The notice chosen (R199) -/

/-- The first notice of two: of the higher group, and there of the lower raise number. -/
def PendingNotice.leads (p q : PendingNotice) : Prop :=
  q.kind.group < p.kind.group ∨ (q.kind.group = p.kind.group ∧ p.raise ≤ q.raise)

theorem PendingNotice.leads_refl (p : PendingNotice) : p.leads p := .inr ⟨rfl, le_refl _⟩

theorem PendingNotice.leads_trans {p q r : PendingNotice} (first : p.leads q) (second : q.leads r) : p.leads r := by
  unfold PendingNotice.leads at *
  omega

/-- The better of the notice kept so far and the next one. -/
def PendingNotice.better (kept : Option PendingNotice) (p : PendingNotice) : Option PendingNotice :=
  match kept with
  | none => some p
  | some b =>
    if b.kind.group < p.kind.group || (b.kind.group = p.kind.group && p.raise < b.raise) then some p else some b

theorem Ntu.choose_eq (n : Ntu) : n.choose = n.pending.foldl PendingNotice.better none := rfl

/-- The choice among the notices that follow `b` keeps one that leads all seen. -/
theorem choose_from (l : List PendingNotice) (b : PendingNotice) (seen : List PendingNotice) (member : b ∈ seen)
    (best : ∀ q ∈ seen, b.leads q) : ∃ p ∈ seen ++ l, (∀ q ∈ seen ++ l, p.leads q) ∧
      l.foldl PendingNotice.better (some b) = some p := by
  induction l generalizing b seen with
  | nil => exact ⟨b, by simpa using member, by simpa using best, rfl⟩
  | cons n l ih =>
    simp only [List.foldl_cons, PendingNotice.better]
    by_cases better : b.kind.group < n.kind.group ∨ (b.kind.group = n.kind.group ∧ n.raise < b.raise)
    · rw [if_pos (by simpa using better)]
      have leads : n.leads b := better.imp id (fun h => ⟨h.1, by omega⟩)
      have := ih n (seen ++ [n]) (by simp) (fun q h => by
        rcases List.mem_append.1 h with old | new
        · exact PendingNotice.leads_trans leads (best q old)
        · obtain rfl : q = n := by simpa using new
          exact q.leads_refl)
      simpa using this
    · rw [if_neg (by simpa using better)]
      have leads : b.leads n := by
        unfold PendingNotice.leads
        omega
      have := ih b (seen ++ [n]) (by simp [member]) (fun q h => by
        rcases List.mem_append.1 h with old | new
        · exact best q old
        · obtain rfl : q = n := by simpa using new
          exact leads)
      simpa using this

/-- With a notice pending one is chosen, which leads every other (R199). -/
theorem Ntu.choose_leads {n : Ntu} (waiting : n.pending ≠ []) :
    ∃ p ∈ n.pending, (∀ q ∈ n.pending, p.leads q) ∧ n.choose = some p := by
  rw [Ntu.choose_eq]
  cases pending : n.pending with
  | nil => exact absurd pending waiting
  | cons first others =>
    have := choose_from others first [first] (by simp) (fun q h => by
      obtain rfl : q = first := by simpa using h
      exact q.leads_refl)
    simpa [PendingNotice.better] using this

/-! ### The body and the bytes of the frame -/

/-- The content of a beacon of this moment in MEMBER (R185). -/
def State.beaconNow (s : State) : Beacon :=
  { role := s.sld.role
    state := .member
    digest := s.ptu.digest.getD 0
    seq :=
      if s.serving then
        { state := seqCode s.psq.state, variant := s.psq.variant.code, pendingAct := s.psq.pendingAct.code,
          slotHeld := flag s.psq.slotHeld }
      else { state := 4, variant := 0, pendingAct := 0, slotHeld := 0 }
    attach := if s.mfn.state = .none then (0, 0) else (s.mfn.image, s.mfn.gen)
    roster := s.adm.roster.map Prod.fst
    waiting := s.adm.waiting
    holder := if s.serving then s.ord.holder.getD 0 else 0 }

theorem State.beaconBody_member {s : State} (member : s.ptu.state = .member) : s.beaconBody = s.beaconNow.bytes := by
  have digest : (s.ptu.digest.map BitVec.toNat).getD 0 = (s.ptu.digest.getD 0).toNat := by
    cases s.ptu.digest <;> rfl
  have attach : s.mfn.beaconAttach = be 2 s.beaconNow.attach.1 ++ be 1 s.beaconNow.attach.2 := by
    unfold Mfn.beaconAttach State.beaconNow
    dsimp only
    split <;> rfl
  have seq : s.beaconSeq = [s.beaconNow.seq.state, s.beaconNow.seq.variant, s.beaconNow.seq.pendingAct,
      s.beaconNow.seq.slotHeld] := by
    unfold State.beaconSeq State.beaconNow
    dsimp only
    cases s.serving <;> rfl
  have holder : (if s.serving then byte (s.ord.holder.getD 0) else 0) = byte s.beaconNow.holder := by
    unfold State.beaconNow
    dsimp only
    split <;> rfl
  unfold State.beaconBody Beacon.bytes
  rw [if_neg (by simp [member]), digest, attach, seq, holder, member]
  simp [State.beaconNow]

theorem State.tenureFrame_bytes {s : State} (legal : s.legalNumber = true) (e : SendEntry) (body : Bytes) :
    LaneFrame.bytes (s.tenureFrame e body) =
      let content := [BitVec.ofNat 8 (64 * (e.cls % 4) + s.own), e.dest, e.kind.code] ++ be 2 body.length ++ body
      content ++ be 2 (crc16 content).toNat := by
  have small : s.own % 64 = s.own := by
    have : s.own ≤ 62 := by simpa [State.legalNumber, State.own] using (by simpa [State.legalNumber] using legal : _ ∧ _).2
    omega
  have first : byte (e.cls % 4 * 64 + s.own % 64) = BitVec.ofNat 8 (64 * (e.cls % 4) + s.own) := by
    rw [small, Nat.mul_comm]
    rfl
  simp only [LaneFrame.bytes, State.tenureFrame, BitVec.toNat_ofNat, first]
  rfl

/-! ### The bid (R157, R159) -/

theorem State.bidBegin_ready {s : State} {e : SendEntry} {body : Bytes} (quiet : s.lif.engine = .quiet)
    (gap : s.lif.sitOut = false ∨ 48 ≤ s.lif.quiet) (state : s.ptu.state = .member ∨ s.ptu.state = .haltedSetup)
    (legal : s.legalNumber = true) (head : s.lif.head = some e) (ready : s.tenureBody e = some body) :
    s.bidBegin = s.beginTenure e (s.tenureFrame e body) := by
  have reached : s.lif.gap ≤ max s.lif.quiet 16 := by
    unfold Lif.gap
    rcases gap with clear | long
    · simp [clear]
    · split <;> omega
  have sends : s.sends = true := by rcases state with h | h <;> simp [State.sends, h, legal]
  rw [State.bidBegin, if_pos (by simp [quiet, reached, sends]), head]
  simp only [ready]

/-- What the owner makes of its frame's tenure beginning (R159). -/
theorem State.report_begun (s : State) (e : SendEntry) (f : LaneFrame) : s.report e f .begun = { s with
    adm := if e.owner = .adm then s.adm.restand e.seq (.inTenure e.seq) else s.adm
    ptu := if e.owner = .ptu then { s.ptu with standing := some (.inTenure e.seq) } else s.ptu
    ntu := if e.owner = .ntu then { s.ntu with
      standing := some (.inTenure e.seq), inTenure := s.ntu.choose.map PendingNotice.kind, raisedAgain := false } else s.ntu
    cfw := if e.owner = .cfw then s.cfw.restand e.seq (.inTenure e.seq) else s.cfw
    xch := if e.owner = .xchWant ∨ e.owner = .xchGive then s.xch.restand e.seq (.inTenure e.seq) else s.xch } := by
  unfold State.report
  cases owner : e.owner <;> rfl

/-- Settles O16: the bid of the ready head, and the two ways in which no bid begins. -/
theorem bidBeginsATenure : Obligations.BidBeginsATenure := by
  refine ⟨fun s e released quiet gap state legal head ready => ?_, fun s released quiet sitOut short => ?_,
    fun s released unready => ?_⟩
  · intro now
    obtain ⟨body, bodied⟩ : ∃ body, s.tenureBody e = some body := by
      rcases ready with ⟨b, payload⟩ | ⟨key, line, data, payload, loaded⟩ | ⟨payload, owner⟩
      · exact ⟨b, by rw [State.tenureBody, payload]⟩
      · exact ⟨key.bytes ++ data, by simp [State.tenureBody, payload, loaded]⟩
      · by_cases ptu : e.owner = .ptu
        · exact ⟨s.beaconBody, by simp [State.tenureBody, payload, ptu]⟩
        · obtain ⟨p, -, -, chosen⟩ := Ntu.choose_leads (owner.resolve_left ptu)
          refine ⟨p.body, ?_⟩
          simp [State.tenureBody, payload, chosen]
    have begins := State.bidBegin_ready quiet gap state legal head bodied
    refine ⟨body, _, exec_of_effect released begins, fun b payload => ?_, fun key line data payload loaded => ?_,
      fun payload owner => ⟨fun halted => ?_, fun member => ?_⟩, fun payload owner => ?_, ?_, ?_, ?_, ?_, ?_, ?_, ?_⟩
    · simpa [State.tenureBody, payload] using bodied.symm
    · simpa [State.tenureBody, payload, loaded, Key.bytes] using bodied.symm
    · have body_ : s.beaconBody = body := by simpa [State.tenureBody, payload, owner] using bodied
      rw [← body_, State.beaconBody, if_pos halted, halted]
      rfl
    · have body_ : s.beaconBody = body := by simpa [State.tenureBody, payload, owner] using bodied
      rw [← body_, State.beaconBody_member member]
      rfl
    · have chosen : s.ntu.choose.map PendingNotice.body = some body := by
        simpa [State.tenureBody, payload, owner] using bodied
      have waiting : s.ntu.pending ≠ [] := by
        intro none_
        simp [Ntu.choose, none_] at chosen
      obtain ⟨p, member, leads, choice⟩ := Ntu.choose_leads waiting
      refine ⟨p, member, leads, ?_, ?_⟩
      · rw [choice] at chosen
        exact (Option.some.inj chosen).symm
      · rw [State.beginTenure, State.report_begun]
        simp [owner, choice]
    all_goals rw [State.beginTenure, State.report_begun]
    · simp only [Lif.setTenure, quiet, State.tenureFrame_bytes legal]
      rfl
    all_goals rfl
  · have unreached : ¬ s.lif.gap ≤ max s.lif.quiet 16 := by
      simp only [Lif.gap, sitOut, if_true]
      omega
    refine exec_of_effect released ?_
    change s.bidBegin = _
    rw [State.bidBegin, if_neg (by simp [unreached])]
  · refine exec_of_effect released ?_
    change s.bidBegin = _
    unfold State.bidBegin
    split
    · split
      next e head =>
        obtain ⟨⟨key, line, payload⟩, unloaded⟩ := unready e head
        have noBody : s.tenureBody e = none := by
          simp only [State.tenureBody, payload]
          cases buffer : s.lif.giveBuf with
          | loaded q data =>
            change (if q = e.seq then _ else none) = none
            rw [if_neg]
            rintro rfl
            exact unloaded data buffer
          | _ => rfl
        rw [noBody]
      next => rfl
    · rfl

/-! ### The bid lost, the sender stopped (R158, R160) -/

theorem Lif.entry_seq {l : Lif} {seq : Nat} {e : SendEntry} (entry : l.entry seq = some e) : e.seq = seq := by
  simpa using List.find?_some entry

/-- LIF with the bid of an entry withdrawn (R160). -/
def Lif.withdrawn (l : Lif) (seq : Nat) : Lif :=
  { l with
    engine := .receiving, ltx := false, drove := .nothing, tenure := none
    sendList := l.sendList.map (fun x => if x.seq = seq then { x with inTenure := false } else x) }

theorem State.loseBid_bidding {s : State} {e : SendEntry} {t : Tenure} (bidding : s.lif.engine = .bidding)
    (tenure : s.lif.tenure = some t) (entry : s.lif.entry t.seq = some e) :
    s.loseBid = ({ s with lif := s.lif.withdrawn e.seq } : State).report e t.frame .lostBid := by
  have tenured : s.tenured = some (e, t.frame) := by simp [State.tenured, tenure, entry]
  unfold State.loseBid
  rw [bidding]
  simp only [State.withdrawBid, tenured]
  simp only [Lif.becomesReceiver, Lif.setTenure, bidding]
  rfl

/-- A CONSOLE-OUT that returns to QUEUED (R70, R75). -/
theorem State.outBack_standing {s : State} {o : OutFrame} {seq : Nat} (out : s.cfw.out = some o)
    (at_ : o.isAt seq = true) (owned : o.orphaned = false) :
    s.outBack seq = { s with cfw := { s.cfw with out := some { o with standing := .frame (.listed seq) } } } := by
  simp [State.outBack, out, at_, owned, Cfw.restand]

theorem State.outBack_orphaned {s : State} {o : OutFrame} {seq : Nat} (out : s.cfw.out = some o)
    (at_ : o.isAt seq = true) (orphaned : o.orphaned = true) : s.outBack seq = (s.lifWithdraw seq).clearOut := by
  simp [State.outBack, out, at_, orphaned]

theorem State.outBack_other {s : State} {seq : Nat} (other : ∀ o, s.cfw.out = some o → o.isAt seq = false) :
    s.outBack seq = s := by
  unfold State.outBack
  split
  next o out => rw [if_neg (by simp [other o out])]
  next => rfl

/-- Settles O17: the bid by the frame's owner, and the sender that stops. -/
theorem lostBidAndMismatchStopTheSender : Obligations.LostBidAndMismatchStopTheSender := by
  refine ⟨fun s e t released bidding tenure entry => ?_, fun s released sending => ?_⟩
  · intro back sent lif own lost
    have loses := State.loseBid_bidding bidding tenure entry
    have listed : s.lif.entry e.seq = some e := by rw [Lif.entry_seq entry]; exact entry
    have lostTo {u : State} (known : ({ s with lif := lif } : State).report e t.frame .lostBid = u) : lost u :=
      exec_of_effect released (loses.trans known)
    refine ⟨fun owner => lostTo ?_, fun owner => lostTo ?_, fun owner => lostTo ?_, fun owner => lostTo ?_,
      fun owner => ⟨fun o out at_ owned => lostTo ?_, fun o out at_ orphaned => ?_, fun other => lostTo ?_⟩,
      fun owner => ⟨fun uncancelled => lostTo ?_, fun c w rest cancels => ?_⟩⟩
    · simp only [State.report, owner]
      rfl
    · simp only [State.report, owner]
      rfl
    · rcases owner with h | h <;> simp only [State.report, h] <;> rfl
    · rcases owner with h | h <;> simp only [State.report, h] <;> rfl
    · simp only [State.report, owner]
      exact State.outBack_standing out at_ owned
    · have known : ({ s with lif := lif } : State).report e t.frame .lostBid =
          ((({ s with lif := lif } : State).lifWithdraw e.seq).clearOut) := by
        simp only [State.report, owner]
        exact State.outBack_orphaned out at_ orphaned
      refine ⟨_, lostTo known, ?_⟩
      have free : lif.entry e.seq = some { e with inTenure := false } := by
        have found : ∀ l : List SendEntry, l.find? (fun x => x.seq = e.seq) = some e →
            (l.map (fun x => if x.seq = e.seq then { x with inTenure := false } else x)).find?
              (fun x => x.seq = e.seq) = some { e with inTenure := false } := by
          intro l
          induction l with
          | nil => simp
          | cons x l ih =>
            by_cases same : x.seq = e.seq
            · simp only [List.find?_cons, List.map_cons, same, decide_true, if_true]
              intro here
              rw [Option.some.inj here]
            · simpa [same] using ih
        exact found _ listed
      have list : (({ s with lif := lif } : State).lifWithdraw e.seq).lif.sendList =
          sent.filter (fun x => x.seq ≠ e.seq) :=
        State.lifWithdraw_listed (s := { s with lif := lif }) free rfl
      rw [State.lifWithdraw_frame, list]
      rfl
    · simp only [State.report, owner]
      exact State.outBack_other other
    · simp only [State.report, owner]
      exact (State.cancelClaim_cancels ({ s with lif := lif, adm := { s.adm with own := own } } : State)).1 uncancelled
    · have known : ({ s with lif := lif } : State).report e t.frame .lostBid =
          ({ s with lif := lif, adm := { s.adm with own := own } } : State).cancelClaim := by
        simp only [State.report, owner]
        rfl
      obtain ⟨settles, pair, frame⟩ :=
        (State.cancelClaim_cancels ({ s with lif := lif, adm := { s.adm with own := own } } : State)).2 c w rest cancels
      exact ⟨_, lostTo known, settles.congr rfl rfl rfl, pair, frame⟩
  · refine exec_of_effect released ?_
    change s.loseBid = _
    unfold State.loseBid
    rw [sending]
    simp only [State.mismatch, Lif.becomesReceiver, sending]
    rfl

end Sys2Proof.Machine


/-! ## The entry to SILENT (R48, R77, R154, R173, R179, R197) -/

namespace Sys2Proof.Machine

/-! ### What the end of a step keeps of a silent station -/

/-- MFN's and MCTL's work leaves PTU, ADM, CFW, ORD and the gives, adds no frame to the send list, and queues no want that
was not queued but as HELD. -/
structure State.KeepsSilence (s t : State) : Prop where
  ptu   : t.ptu = s.ptu
  adm   : t.adm = s.adm
  cfw   : t.cfw.watchers = s.cfw.watchers
  ord   : t.ord = s.ord
  gives : t.xch.gives = s.xch.gives
  list  : s.lif.sendList = [] → t.lif.sendList = []
  wants : ∀ w ∈ t.xch.wants, w.state = .queued .held ∨ (∃ v ∈ s.xch.wants, v.state = w.state) ∨ ∃ buf cause, w.state = .void buf cause

theorem State.KeepsSilence.of_wants {s t : State} (ptu : t.ptu = s.ptu := by rfl) (adm : t.adm = s.adm := by rfl)
    (cfw : t.cfw.watchers = s.cfw.watchers := by rfl) (ord : t.ord = s.ord := by rfl) (gives : t.xch.gives = s.xch.gives := by rfl)
    (list : s.lif.sendList = [] → t.lif.sendList = [] := by exact id)
    (wants : ∀ w ∈ t.xch.wants, ∃ v ∈ s.xch.wants, v.state = w.state := by exact fun w h => ⟨w, h, rfl⟩) : s.KeepsSilence t :=
  ⟨ptu, adm, cfw, ord, gives, list, fun w h => .inr (.inl (wants w h))⟩

theorem State.KeepsSilence.refl (s : State) : s.KeepsSilence s := .of_wants

theorem State.KeepsSilence.trans {s t u : State} (first : s.KeepsSilence t) (second : t.KeepsSilence u) : s.KeepsSilence u where
  ptu := second.ptu.trans first.ptu
  adm := second.adm.trans first.adm
  cfw := second.cfw.trans first.cfw
  ord := second.ord.trans first.ord
  gives := second.gives.trans first.gives
  list := second.list ∘ first.list
  wants w member := by
    rcases second.wants w member with held | ⟨v, there, same⟩ | void
    · exact .inl held
    · rw [← same]
      exact first.wants v there
    · exact .inr (.inr void)

theorem State.KeepsSilence.foldl {α : Type} {f : State → α → State} (each : ∀ (s : State) (a : α), s.KeepsSilence (f s a)) (l : List α)
    (s : State) : s.KeepsSilence (l.foldl f s) := by
  induction l generalizing s with
  | nil => exact .refl s
  | cons a l ih => exact (each s a).trans (ih _)

section

variable (s : State)

theorem State.raise_keepsSilence (k : NoticeKind) (d : Bytes) : s.KeepsSilence (s.raise k d) := by
  rw [State.raise_eq]
  exact .of_wants

theorem State.lifWithdraw_keepsSilence (seq : Nat) : s.KeepsSilence (s.lifWithdraw seq) := by
  have fewer := s.lifWithdraw_sendList seq
  obtain ⟨l, g, w, frame⟩ := s.lifWithdraw_onlyWithdraws seq
  rw [frame] at fewer ⊢
  exact .of_wants (list := fun empty => List.sublist_nil.1 (empty ▸ fewer))

theorem State.withdrawStanding_keepsSilence (st : Standing) : s.KeepsSilence (s.withdrawStanding st) := by
  unfold State.withdrawStanding
  split
  · exact .refl s
  · exact s.lifWithdraw_keepsSilence _
  · exact s.lifWithdraw_keepsSilence _

theorem State.withdrawWants_keepsSilence (ws : List Want) : s.KeepsSilence (s.withdrawWants ws) := by
  refine State.KeepsSilence.foldl (fun t w => ?_) ws s
  unfold State.withdrawWant
  split
  · exact t.withdrawStanding_keepsSilence _
  · exact .refl t

/-- A want of a voided image generation goes, or is VOID. -/
theorem Xch.voidImage_wants {x : Xch} {image gen : Nat} {cause : VoidCause} {w : Want}
    (member : w ∈ (x.voidImage image gen cause).wants) : w ∈ x.wants ∨ ∃ buf c, w.state = .void buf c := by
  obtain ⟨v, there, becomes⟩ := List.mem_filterMap.1 member
  split at becomes
  · unfold Want.voided at becomes
    split at becomes
    · cases becomes
      exact .inr ⟨_, _, rfl⟩
    · cases becomes
  · cases becomes
    exact .inl there

theorem State.dropWants_keepsSilence (image gen : Nat) : s.KeepsSilence (s.dropWants image gen) := by
  have withdrawn := s.withdrawWants_keepsSilence (s.xch.wants.filter (fun w => w.ofImage image gen))
  refine withdrawn.trans ⟨rfl, rfl, rfl, rfl, rfl, id, fun w member => ?_⟩
  rcases Xch.voidImage_wants member with kept | void
  · exact .inr (.inl ⟨w, kept, rfl⟩)
  · exact .inr (.inr void)

theorem State.withdrawMedia_keepsSilence (p : MediaReq → Bool) : s.KeepsSilence (s.withdrawMedia p) := by
  obtain ⟨x, y, frame⟩ := s.withdrawMedia_eq p
  rw [frame]
  exact .of_wants

theorem State.teardown_keepsSilence : s.KeepsSilence s.teardown := by
  have disconnected : s.KeepsSilence { s with mfn := { s.mfn.disconnect with state := .detaching, drain := none } } := .of_wants
  unfold State.teardown
  exact ((disconnected.trans (State.dropWants_keepsSilence _ _ _)).trans
    (State.withdrawMedia_keepsSilence _ (fun _ => true))).trans .of_wants

theorem State.closeRequest_keepsSilence : s.KeepsSilence s.closeRequest := by
  cases request : s.mfn.request with
  | none =>
    unfold State.closeRequest
    rw [request]
    exact .refl s
  | some r =>
    obtain ⟨lines, recency, -, closed⟩ := s.closeRequest_eq r request
    rw [closed]
    split
    · exact State.KeepsSilence.trans (t := { s with
        mfn := { s.mfn with request := none }
        mctl := s.mctl.withoutReads r.serial
        lpm := { s.lpm with lines := lines, recency := recency } }) .of_wants (State.teardown_keepsSilence _)
    · exact .of_wants

theorem State.failRequest_keepsSilence (status : UsbStatus) : s.KeepsSilence (s.failRequest status) :=
  State.KeepsSilence.trans (t := { s with mfn := { s.mfn with usbStatus := some status } }) .of_wants
    (State.closeRequest_keepsSilence _)

theorem State.demand_keepsSilence (needed : Want → Bool) : s.KeepsSilence { s with xch := s.xch.demand needed } := by
  refine .of_wants (wants := fun w member => ?_)
  obtain ⟨v, there, rfl⟩ := List.mem_map.1 member
  exact ⟨v, there, by split <;> rfl⟩

theorem State.xchAsk_keepsSilence (key : Key) (purpose : Purpose) : s.KeepsSilence (s.xchAsk key purpose).2 := by
  unfold State.xchAsk
  split
  · exact s.demand_keepsSilence _
  · split
    · exact .refl s
    · split
      · exact .refl s
      · split
        · refine ⟨rfl, rfl, rfl, rfl, rfl, id, fun w member => ?_⟩
          rcases List.mem_append.1 member with old | new
          · exact .inr (.inl ⟨w, old, rfl⟩)
          · obtain rfl := List.mem_singleton.1 new
            exact .inl rfl
        · exact .refl s

theorem State.request_keepsSilence (r : Request) : s.KeepsSilence (s.setRequest r) := .of_wants

theorem State.askStep_keepsSilence (st : XferStep) : s.KeepsSilence (s.askStep st) := by
  unfold State.askStep
  split
  · split
    · rename_i r _ _
      have asked := s.xchAsk_keepsSilence (s.mfn.key st.line) .demand
      split
      all_goals
        rename_i answered
        rw [answered] at asked
      · exact asked.trans (State.request_keepsSilence _ _)
      · exact asked.trans (State.request_keepsSilence _ _)
      · exact asked.trans (State.request_keepsSilence _ _)
      · exact (asked.trans (State.raise_keepsSilence _ _ _)).trans (State.failRequest_keepsSilence _ _)
    · exact .refl s
  · exact .refl s

theorem State.askWants_keepsSilence : s.KeepsSilence s.askWants := by
  unfold State.askWants
  split
  · exact (s.demand_keepsSilence _).trans (.foldl State.askStep_keepsSilence _ _)
  · exact .refl s

theorem State.withdrawReads_keepsSilence (p : MediaReq → Bool) : s.KeepsSilence (s.withdrawReads p) :=
  (s.withdrawMedia_keepsSilence (fun m => m.isRead && p m)).trans .of_wants

theorem State.askFetch_keepsSilence : s.KeepsSilence s.askFetch := by
  unfold State.askFetch
  split
  · split
    · split
      · split
        · split
          · exact .of_wants
          · exact (s.withdrawReads_keepsSilence _).trans (State.request_keepsSilence _ _)
        · exact .refl s
      · exact .refl s
    · exact .refl s
  · exact .refl s

theorem State.askStore_keepsSilence : s.KeepsSilence s.askStore := by
  have failed (detail : Bytes) : s.KeepsSilence ((s.raise .spaceExhausted detail).failRequest .spaceExhausted) :=
    (s.raise_keepsSilence _ _).trans (State.failRequest_keepsSilence _ _)
  unfold State.askStore
  split
  · split
    · split
      · split
        · exact .of_wants
        · exact failed _
        · exact failed _
      · exact .refl s
    · exact .refl s
  · exact .refl s

theorem State.mediaRun_keepsSilence (n : Nat) : s.KeepsSilence (State.mediaRun n s) := by
  induction n generalizing s with
  | zero => exact .refl s
  | succ n ih =>
    exact ((s.askWants_keepsSilence.trans (State.askFetch_keepsSilence _)).trans (State.askStore_keepsSilence _)).trans (ih _)

theorem State.mediaAdvance_keepsSilence : s.KeepsSilence s.mediaAdvance := by
  unfold State.mediaAdvance
  split
  · exact s.mediaRun_keepsSilence 8
  · exact .refl s

theorem State.detachComplete_keepsSilence : s.KeepsSilence s.detachComplete := by
  by_cases due : s.mfn.state = .detaching ∧ s.mfn.cause.isSome ∧ s.lpm.dirtyCount = 0
  · obtain ⟨c, cause⟩ := Option.isSome_iff_exists.1 due.2.1
    rw [s.detachComplete_detachEnds.ends c due.1 cause due.2.2]
    exact .of_wants
  · rw [s.detachComplete_detachEnds.rests (by
      by_contra others
      push Not at others
      exact due ⟨others.1, Option.isSome_iff_ne_none.2 others.2.1, others.2.2⟩)]
    exact .refl s

theorem State.startInput_keepsSilence : s.KeepsSilence s.startInput := by
  unfold State.startInput
  split
  · split
    · exact .of_wants
    · exact .of_wants
    · exact .refl s
  · exact .refl s

theorem State.askNotice_keepsSilence : s.KeepsSilence s.askNotice := by
  unfold State.askNotice
  split
  · exact .of_wants
  · exact .refl s

end

theorem State.serveWatcher_of_none {s : State} (watchers : s.cfw.watchers = []) : s.serveWatcher = s :=
  s.serveWatcher_watcherServed.rests (fun j w turn => by
    have placed := turn.place
    simp [watchers] at placed)

/-- LIF takes no offer in SILENT (R166, R174). -/
theorem State.offers_of_silent {s : State} (silent : s.ptu.state = .silent) : s.offers = [] := by
  unfold State.offers
  rw [List.filter_eq_nil_iff]
  intro o _
  simp [State.acceptable, State.lifAccepts, silent]

theorem State.askGiveRead_of_empty {s : State} (empty : s.lif.sendList = []) : s.askGiveRead = s := by
  simp [State.askGiveRead, Lif.head, empty]

theorem State.startUnit_eq (s : State) : s.startUnit = { s with upb := s.startUnit.upb } := by
  unfold State.startUnit
  split
  · split <;> rfl
  · rfl

/-- What a station just silenced has of frames, entries and watchers: nothing, and no want queued on the lane. -/
structure State.Silenced (s : State) : Prop where
  state    : s.ptu.state = .silent
  list     : s.lif.sendList = []
  own      : s.adm.own = []
  watchers : s.cfw.watchers = []
  gives    : s.xch.gives = []
  wants    : ∀ w ∈ s.xch.wants, ∀ st, w.state = .queued st → st = .held

theorem State.Silenced.kept {s t : State} (silenced : s.Silenced) (kept : s.KeepsSilence t) : t.Silenced where
  state := by rw [kept.ptu, silenced.state]
  list := kept.list silenced.list
  own := by rw [kept.adm, silenced.own]
  watchers := by rw [kept.cfw, silenced.watchers]
  gives := by rw [kept.gives, silenced.gives]
  wants w member st queued := by
    rcases kept.wants w member with held | ⟨v, there, same⟩ | ⟨buf, cause, void⟩
    · rw [queued] at held
      injection held
    · exact silenced.wants v there st (same.trans queued)
    · rw [queued] at void
      cases void

/-- The end of a step leaves a silenced station without frames and entries: ORD's REPLY is dropped and the last wants are
SENT (R154, R197). -/
theorem State.Silenced.settled {s : State} (silenced : s.Silenced) :
    (settle s).lif.sendList = [] ∧ (settle s).adm.own = [] ∧ (settle s).cfw.watchers = [] ∧ (settle s).xch.gives = [] ∧
    (∀ w ∈ (settle s).xch.wants, ∀ st, w.state ≠ .queued st) ∧
    (∀ o rest reply restart, s.ord.inbox = o :: rest → o.standing = .replyHeld reply restart →
      (settle s).ord.inbox = rest) ∧
    (∀ o rest, s.ord.inbox = o :: rest → o.standing = .waiting → (settle s).ord.inbox = s.ord.inbox) ∧
    (s.ord.inbox = [] → (settle s).ord.inbox = []) := by
  have toInput : s.KeepsSilence (s.mediaAdvance.detachComplete.askCapture.startInput) :=
    ((s.mediaAdvance_keepsSilence.trans (State.detachComplete_keepsSilence _)).trans .of_wants).trans
      (State.startInput_keepsSilence _)
  obtain ⟨u, isInput⟩ : ∃ u, u = s.mediaAdvance.detachComplete.askCapture.startInput := ⟨_, rfl⟩
  rw [← isInput] at toInput
  have noWatcher : u.serveWatcher = u := State.serveWatcher_of_none (silenced.kept toInput).watchers
  have toNotice : s.KeepsSilence u.enterSelfRefresh.askNotice :=
    (toInput.trans .of_wants).trans (State.askNotice_keepsSilence _)
  obtain ⟨v, isNotice⟩ : ∃ v, v = u.enterSelfRefresh.askNotice := ⟨_, rfl⟩
  rw [← isNotice] at toNotice
  have quiet := silenced.kept toNotice
  obtain ⟨inbox, refused, replied, waits, empty⟩ := v.refuseSilent_silentRefused.silent quiet.state
  have noOffers : v.refuseSilent.offers = [] := by
    rw [refused]
    exact State.offers_of_silent quiet.state
  have run : settle s = v.refuseSilent.startUnit := by
    rw [settle_eq_run, State.settleRun, State.settleOffers, ← isInput, noWatcher, ← isNotice,
      State.takeOffers_idle 25 noOffers, State.askGiveRead_of_empty (by rw [refused]; exact quiet.list)]
  rw [run, State.startUnit_eq, refused, ← toNotice.ord]
  refine ⟨quiet.list, quiet.own, quiet.watchers, quiet.gives, fun w member st queued => ?_, replied, waits, empty⟩
  obtain ⟨x, there, rfl⟩ := List.mem_map.1 member
  split at queued
  · cases queued
  next unheld => exact unheld (queued.trans (by rw [quiet.wants x there st queued]))

/-! ### The entry -/

theorem State.cfwSilent_eq (s : State) : s.cfwSilent = { s with
    mctl := s.cfwSilent.mctl
    cfw := { s.cfw with watchers := [], out := none, turn := 0 } } := by
  unfold State.cfwSilent
  split
  · split <;> rfl
  · rfl

/-- The blocks at the entry to SILENT. -/
theorem State.enterSilent_eq (s : State) : s.enterSilent = { s with
    ptu := { s.ptu with state := .silent, standing := none }
    lif := s.lifSilent.lif
    adm := { copied := s.adm.copied }
    cfw := { s.cfw with watchers := [], out := none, turn := 0 }
    mctl := s.enterSilent.mctl
    lpm := (s.xch.gives.map Give.line).foldl Lpm.unpin s.lpm
    xch := { s.xch with gives := [], wants := s.xch.wants.map (fun w => w.silence s.wantDue) }
    ord := { s.ord with restartPending := false, restartReply := none }
    ntu := s.ntu.silence } := by
  unfold State.enterSilent State.xchSilent
  dsimp only
  rw [State.cfwSilent_eq]
  rfl

theorem Want.silence_unqueued (w : Want) (due : Time) (st : Standing) : (w.silence due).state ≠ .queued st := by
  unfold Want.silence
  split
  · simp
  next unqueued => exact unqueued st

theorem State.enterSilent_silenced (s : State) : s.enterSilent.Silenced := by
  rw [State.enterSilent_eq]
  refine ⟨rfl, rfl, rfl, rfl, rfl, fun w member st queued => ?_⟩
  obtain ⟨v, -, rfl⟩ := List.mem_map.1 member
  exact absurd queued (v.silence_unqueued _ st)

theorem Lif.isStopped_iff (l : Lif) : l.isStopped = true ↔ ∃ q, l.tenure = some q ∧ q.stopped = true := by
  unfold Lif.isStopped
  rw [Option.any_eq_true]

/-- Settles O26: both commands enter SILENT, and the end of the step takes nothing back. -/
theorem duplicateNumberSilencesTheStation : Obligations.DuplicateNumberSilencesTheStation := by
  intro s f handovers released legal state silenced
  have may : s.mayDuplicate = true := by
    rcases state with h | h | h <;> simp [State.mayDuplicate, legal, h]
  have silences : silenced (settle s.enterSilent) := by
    obtain ⟨list, own, watchers, gives, wants, replied, waits, empty⟩ := s.enterSilent_silenced.settled
    have entry := s.enterSilent_eq
    rw [show s.enterSilent.ord.inbox = s.ord.inbox by rw [entry]] at replied waits empty
    refine ⟨?_, ?_, ?_, ?_, list, ?_, ?_, ?_, ?_, own, ?_, watchers, gives, wants, ?_, ?_, ?_, ?_, ?_, ?_, ?_, ?_, ?_, ?_, ?_,
      replied, waits, empty, ?_, ?_, ?_⟩
    case refine_6 =>
      rw [settle_lif_sitOut, entry]
      simp [State.lifSilent, Lif.isStopped_iff]
    all_goals simp only [settle_ptu_state, settle_lif_engine, settle_lif_stat, settle_lif_ltx, settle_lif_tenure,
      settle_adm_roster, settle_adm_waiting, settle_adm_expired, settle_ord_restartPending, settle_now, settle_rstn,
      settle_pins, settle_sld, settle_psq, settle_wdu, settle_sdram, settle_ord_holder, settle_ccu_captured,
      settle_ccu_buffer, settle_ptu_peers, settle_lif_recvQueue, settle_pending]
    all_goals rw [entry]
    all_goals rfl
  refine ⟨fun engine => ⟨_, exec_of_effect released ?_, silences⟩, fun engine short same => ⟨_, exec_of_effect released ?_, silences⟩⟩
  · change s.duplicate = _
    rcases engine with h | h | h | h <;> simp [State.duplicate, may, Lif.reads, Lif.isSending, h]
  · have reads : s.lif.reads = true := (Lif.reads_iff _).2 engine
    change s.frameComplete f handovers = _
    simp [State.frameComplete, reads, LaneFrame.wellFormed, short, State.isDuplicate, may, same]

end Sys2Proof.Machine


/-! ## A change of the admission lists, and the hold limit (R29, R34, R40) -/

namespace Sys2Proof.Machine

/-! ### The grant of a change -/

/-- What a grant does reads these parts of the state alone. -/
theorem State.GrantTaken.congr {s s' u : State} (taken : s.GrantTaken u) (psq : s'.psq = s.psq) (now : s'.now = s.now)
    (sld : s'.sld = s.sld) (ccu : s'.ccu = s.ccu) (wdu : s'.wdu = s.wdu) (ntu : s'.ntu = s.ntu)
    (state : s'.ptu.state = s.ptu.state) (own : s'.adm.own = s.adm.own) : s'.GrantTaken u := by
  have settings (f : Settings → Nat) : s'.setting f = s.setting f := by simp [State.setting, sld]
  have list (l : List OwnFrame) : s'.adm.ownWith l = s.adm.ownWith l := by simp [Adm.ownWith, own]
  have raises (k : NoticeKind) (d : Bytes) : (s'.raise k d).ntu = (s.raise k d).ntu := State.raise_ntu_congr ntu now state k d
  have twice (k k' : NoticeKind) (d d' : Bytes) : ((s'.raise k d).raise k' d').ntu = ((s.raise k d).raise k' d').ntu :=
    State.raise_raise_ntu_congr ntu now state k k' d d'
  refine ⟨?_, ?_, ?_, ?_⟩
  · rw [psq, now, settings, raises, ccu, wdu]
    exact taken.powerOn
  · rw [psq, now, settings, raises, ccu, wdu]
    exact taken.restore
  · rw [psq, now, settings, settings, twice, ccu, wdu, list]
    exact taken.alreadyUp
  · rw [psq, ntu, ccu, wdu, list]
    exact taken.refused

theorem State.grantReleases_congr {s s' : State} (psq : s'.psq = s.psq) (sld : s'.sld = s.sld) :
    s'.grantReleases = s.grantReleases := by
  have settings : s'.setting Settings.settle = s.setting Settings.settle := by simp [State.setting, sld]
  simp only [State.grantReleases, psq, settings]

/-- The lists after a change and its promotion (R29). -/
def State.changed (s : State) (change : Adm → Adm) : Adm :=
  (change s.adm).promote (s.setting Settings.slotCount) s.now

/-- A change that does not bring this station's number into its roster is no grant. -/
theorem State.admChange_ungranted {s : State} {change : Adm → Adm}
    (no : s.serving = false ∨ s.own ∈ s.adm.roster.map Prod.fst ∨ s.own ∉ (s.changed change).roster.map Prod.fst) :
    s.admChange change = { s with adm := s.changed change } := by
  unfold State.admChange
  refine if_neg ?_
  simp only [Bool.and_eq_true, Bool.not_eq_true', ← Bool.not_eq_true, Adm.inRoster_iff]
  rintro ⟨⟨serving, out⟩, into⟩
  rcases no with uplink | before | after
  · rw [uplink] at serving
    cases serving
  · exact out before
  · exact after into

/-- A change that brings a serving station's number into its roster is a grant (R40). -/
theorem State.admChange_granted {s : State} {change : Adm → Adm} (serving : s.serving = true)
    (out : s.own ∉ s.adm.roster.map Prod.fst) (into : s.own ∈ (s.changed change).roster.map Prod.fst) :
    s.admChange change = ({ s with adm := s.changed change } : State).granted := by
  unfold State.admChange
  refine if_pos ?_
  simp only [Bool.and_eq_true, Bool.not_eq_true', ← Bool.not_eq_true, Adm.inRoster_iff]
  exact ⟨⟨serving, out⟩, into⟩

/-- The lists of a change, whether or not it is a grant, and what the grant leaves alone. -/
theorem State.admChange_powerMoves (s : State) (change : Adm → Adm) :
    ({ s with adm := s.changed change } : State).PowerMoves (s.admChange change) := by
  unfold State.admChange
  dsimp only
  split
  · exact State.granted_powerMoves _
  · exact .refl _

theorem State.admChange_lists (s : State) (change : Adm → Adm) :
    (s.admChange change).adm.roster = (s.changed change).roster ∧
    (s.admChange change).adm.waiting = (s.changed change).waiting ∧
    (s.admChange change).adm.expired = (s.changed change).expired ∧
    (s.admChange change).adm.copied = (s.changed change).copied := by
  rw [(s.admChange_powerMoves change).only.frame]
  exact ⟨rfl, rfl, rfl, rfl⟩

/-- A grant by a change in MEMBER, where the release that it may ask cancels no claim. -/
theorem State.admChange_taken {s : State} {change : Adm → Adm} (serving : s.serving = true) (member : s.ptu.state = .member)
    (out : s.own ∉ s.adm.roster.map Prod.fst) (into : s.own ∈ (s.changed change).roster.map Prod.fst)
    (kept : (change s.adm).own = s.adm.own)
    (uncancelled : s.grantReleases = true → cancelPair (s.adm.ownWith [{ kind := .release }]) = none) :
    s.GrantTaken (s.admChange change) ∧ s.admChange change = { s with
      adm := { s.changed change with
        own := if s.grantReleases then s.adm.ownWith [{ kind := .release }] else s.adm.own }
      psq := (s.admChange change).psq, wdu := (s.admChange change).wdu, ccu := (s.admChange change).ccu
      ntu := (s.admChange change).ntu } := by
  have own : (s.changed change).own = s.adm.own := kept
  have list (l : List OwnFrame) : (s.changed change).ownWith l = s.adm.ownWith l := by simp [Adm.ownWith, own]
  have releases : ({ s with adm := s.changed change } : State).grantReleases = s.grantReleases :=
    State.grantReleases_congr rfl rfl
  obtain ⟨taken, frame⟩ := State.granted_taken { s with adm := s.changed change } member (by
    rw [releases, list]
    exact uncancelled)
  rw [State.admChange_granted serving out into]
  refine ⟨taken.congr rfl rfl rfl rfl rfl rfl rfl own.symm, frame.trans ?_⟩
  rw [releases]
  simp only [list, own]

/-! ### Promotion -/

theorem Adm.promote_numbers (a : Adm) (slots : Nat) (now : Time) : (a.promote slots now).roster.map Prod.fst =
    a.roster.map Prod.fst ++ a.waiting.take (slots - a.roster.length) := by
  simp [Adm.promote, Function.comp_def]

/-- A station that no list names is not promoted. -/
theorem Adm.promote_other {a : Adm} {slots x : Nat} {now : Time} (roster : x ∉ a.roster.map Prod.fst)
    (waiting : x ∉ a.waiting.take (slots - a.roster.length)) : x ∉ (a.promote slots now).roster.map Prod.fst := by
  rw [Adm.promote_numbers, List.mem_append]
  exact not_or.2 ⟨roster, waiting⟩

/-- Of a roster in order one entry names a station. -/
theorem Adm.Ordered.dropRoster_length {a : Adm} {slots x : Nat} (ordered : a.Ordered slots)
    (member : x ∈ a.roster.map Prod.fst) : (a.dropRoster x).roster.length = a.roster.length - 1 := by
  have distinct := ordered.rosterDistinct
  have numbers : (a.dropRoster x).roster.map Prod.fst = (a.roster.map Prod.fst).filter (fun y => y != x) := by
    simp [Adm.dropRoster, List.filter_map, Function.comp_def, bne, decide_not, BEq.beq]
  have length := congrArg List.length numbers
  rw [List.length_map, ← distinct.erase_eq_filter, List.length_erase_of_mem member, List.length_map] at length
  exact length

/-- The entry of a roster in order that names a station is the one that is found. -/
theorem find?_of_distinct {l : List (Nat × Time)} {e : Nat × Time} (distinct : (l.map Prod.fst).Nodup) (member : e ∈ l) :
    l.find? (fun x => x.1 = e.1) = some e := by
  induction l with
  | nil => cases member
  | cons x l ih =>
    simp only [List.map_cons, List.nodup_cons] at distinct
    rcases List.mem_cons.1 member with rfl | later
    · simp
    · have other : x.1 ≠ e.1 := fun same => distinct.1 (same ▸ List.mem_map_of_mem later)
      simpa [other] using ih distinct.2 later

/-! ### The hold limit (R34) -/

/-- The lists once an entry has reached the hold limit at a moment. -/
def State.limitReached (s : State) (x : Nat) (now : Time) : Adm :=
  ({ (s.adm.dropRoster x) with
    expired := s.adm.expired.filter (fun e => e.1 ≠ x) ++ [(x, after now (s.setting Settings.presenceMs))] } : Adm).promote
    (s.setting Settings.slotCount) now

/-- Settles O27: the change is a release, and the grant it may bring is `State.admChange_taken`. -/
theorem holdLimitRemovesTheEntry : Obligations.HoldLimitRemovesTheEntry := by
  refine ⟨fun s x start released ordered member => ?_, fun s x due released found => ?_⟩
  · intro limit room
    have lists := ordered.lists
    have named : x.toNat ∈ s.adm.roster.map Prod.fst := List.mem_map_of_mem member
    have entry : s.adm.roster.find? (fun e => e.1 = x.toNat) = some (x.toNat, start) :=
      find?_of_distinct lists.rosterDistinct member
    obtain ⟨v, isV⟩ : ∃ v, v = (s.timeTo (after start limit)).expire x.toNat := ⟨_, rfl⟩
    have effect : Instr.effect (.entryHoldLimit x) s =
        if s.serving && x.toNat = s.own then (v.admChange (fun a => a.release x.toNat)).slotEnded
        else v.admChange (fun a => a.release x.toNat) := by
      change s.holdLimitReached x.toNat = _
      unfold State.holdLimitReached
      rw [entry, isV]
      rfl
    have inside : v.adm.inRoster x.toNat = true := by
      rw [Adm.inRoster_iff, isV]
      exact named
    have changes : v.changed (fun a => a.release x.toNat) = s.limitReached x.toNat v.now := by
      unfold State.changed Adm.release
      dsimp only
      rw [if_pos inside, isV]
      rfl
    have same : v.psq = s.psq ∧ v.serving = s.serving ∧ v.own = s.own ∧ v.ptu = s.ptu ∧ v.adm.roster = s.adm.roster ∧
        v.adm.own = s.adm.own ∧ v.now = (s.timeTo (after start limit)).now ∧ v.sdram = s.sdram ∧ v.ord = s.ord ∧
        v.sld = s.sld := by
      rw [isV]
      exact ⟨rfl, rfl, rfl, rfl, rfl, rfl, rfl, rfl, rfl, rfl⟩
    obtain ⟨psq, serving, own, ptu, roster, owned, now, sdram, ord, sld⟩ := same
    have gone : x.toNat ∉ (s.limitReached x.toNat v.now).roster.map Prod.fst := by
      refine Adm.promote_other ?_ fun waits => lists.disjoint _ (List.mem_of_mem_take waits) named
      simp [Adm.dropRoster]
    have length := lists.dropRoster_length named
    have places : s.setting Settings.slotCount - (s.adm.dropRoster x.toNat).roster.length = room := by rw [length]
    obtain ⟨listRoster, listWaiting, listExpired, -⟩ := v.admChange_lists (fun a => a.release x.toNat)
    rw [changes] at listRoster listWaiting listExpired
    have keeps := v.admChange_keeps (fun a => a.release x.toNat)
    obtain ⟨keptNow, -, -, -, keptPtu, -, keptSdram, keptOrd, -⟩ := keeps
    obtain ⟨u, isU⟩ : ∃ u, u = Instr.effect (.entryHoldLimit x) s := ⟨_, rfl⟩
    have through : u.now = v.now ∧ u.adm = (v.admChange (fun a => a.release x.toNat)).adm ∧ u.sdram = s.sdram ∧
        u.ptu = s.ptu ∧ u.ord = s.ord := by
      rw [isU, effect]
      split
      · simp [sdram, ptu, ord]
      · exact ⟨keptNow, rfl, keptSdram.trans sdram, keptPtu.trans ptu, keptOrd.trans ord⟩
    obtain ⟨uNow, uAdm, uSdram, uPtu, uOrd⟩ := through
    refine ⟨v.now, settle u, fun come => now.trans (State.timeTo_of_reached come), ?_, ?_, ?_, ?_, ?_, ?_, ?_, ?_, ?_, ?_, ?_⟩
    · rw [isU]
      exact exec_effect released
    · rw [settle_now, uNow]
    · rw [settle_adm_roster, uAdm, listRoster, ← places]
      rfl
    · rw [settle_adm_waiting, uAdm, listWaiting, ← places]
      rfl
    · rw [settle_adm_expired, uAdm, listExpired]
      rfl
    · rw [settle_sdram, uSdram]
    · rw [settle_ptu_state, uPtu]
    · rw [settle_ord_holder, uOrd]
    · intro serves mine
      have still : v.admChange (fun a => a.release x.toNat) = { v with adm := v.changed (fun a => a.release x.toNat) } :=
        State.admChange_ungranted (.inr (.inl (by rw [own, roster, ← mine]; exact named)))
      rw [settle_psq, isU, effect, if_pos (by simp [serves, mine]), still, ← psq]
      rfl
    · intro unpromoted other
      have still : v.admChange (fun a => a.release x.toNat) = { v with adm := v.changed (fun a => a.release x.toNat) } := by
        by_cases before : s.own ∈ s.adm.roster.map Prod.fst
        · exact State.admChange_ungranted (.inr (.inl (by rw [own, roster]; exact before)))
        · refine State.admChange_ungranted (.inr (.inr ?_))
          rw [changes, own]
          refine Adm.promote_other (fun within => before ?_) (by rw [← places] at unpromoted; exact unpromoted)
          obtain ⟨e, there, isOwn⟩ := List.mem_map.1 within
          exact List.mem_map.2 ⟨e, (List.mem_filter.1 there).1, isOwn⟩
      rw [settle_psq, isU, effect, if_neg (by simp [other]), still]
      exact psq
    · intro promoted serves isMember uncancelled
      have waiting : s.own ∈ s.adm.waiting := List.mem_of_mem_take promoted
      have out : s.own ∉ s.adm.roster.map Prod.fst := lists.disjoint _ waiting
      have other : x.toNat ≠ s.own := fun mine => out (mine ▸ named)
      have releases : v.grantReleases = s.grantReleases := State.grantReleases_congr psq sld
      have list (l : List OwnFrame) : v.adm.ownWith l = s.adm.ownWith l := by simp [Adm.ownWith, owned]
      have keepsOwn : (v.adm.release x.toNat).own = v.adm.own := by
        unfold Adm.release
        split <;> rfl
      obtain ⟨taken, frame⟩ := State.admChange_taken (s := v) (change := fun a => a.release x.toNat)
        (serving.trans serves) (by rw [ptu]; exact isMember) (by rw [own, roster]; exact out) (by
          rw [changes, own]
          unfold State.limitReached
          rw [Adm.promote_numbers]
          refine List.mem_append_right _ ?_
          rw [← places] at promoted
          exact promoted) keepsOwn (by rw [releases, list]; exact uncancelled)
      have uIs : u = v.admChange (fun a => a.release x.toNat) := by rw [isU, effect, if_neg (by simp [other])]
      refine ⟨u, rfl, ?_, ?_⟩
      · rw [uIs]
        rw [isV] at taken ⊢
        exact taken.congr rfl rfl rfl rfl rfl rfl rfl rfl
      · rw [uIs, frame, releases, list, owned]
  · refine ⟨(s.timeTo due).now, fun come => State.timeTo_of_reached come, exec_of_effect released ?_⟩
    change s.expiredOver x.toNat = _
    unfold State.expiredOver
    rw [found]
    rfl

end Sys2Proof.Machine


/-! ## Admission frames of other stations (R29 to R33) -/

namespace Sys2Proof.Machine

/-! ### A frame of another station ends -/

/-- The state to which a frame of another station is presented: its take decided and placed (R163, R171). -/
def State.between (s : State) (f : LaneFrame) : State := (({ s with lif := s.lif.passed } : State).holdTake f).placeTake

theorem State.between_eq (s : State) (f : LaneFrame) :
    s.between f = { s with lif := (s.between f).lif, cfw := (s.between f).cfw } := by
  have held (t : State) : t.holdTake f = { t with lif := (t.holdTake f).lif, cfw := (t.holdTake f).cfw } := by
    unfold State.holdTake
    split <;> rfl
  have placed (t : State) : t.placeTake = { t with lif := t.placeTake.lif } := by
    unfold State.placeTake
    split <;> rfl
  unfold State.between
  rw [placed, held]

/-- A frame of a kind that the role does not take changes LIF alone. -/
theorem State.between_untaken {s : State} {f : LaneFrame} (reads : s.lif.reads = true) (untaken : s.lif.takeHeld = none)
    (passes : ({ s with lif := s.lif.passed } : State).decidesTake f = false) :
    s.between f = { s with lif := s.lif.afterFrame } := by
  unfold State.between
  simp only [State.holdTake, passes]
  simp [State.placeTake, Lif.passed_eq _ reads, untaken, Lif.afterFrame]

/-- A frame read whole of another number than this station's, none handed over. -/
theorem exec_frameComplete {s : State} {f : LaneFrame} (released : s.rstn = false)
    (engine : s.lif.engine = .quiet ∨ s.lif.engine = .receiving) (tenure : s.lif.tenure = none)
    (other : f.sender.toNat ≠ s.own) (short : f.body.length ≤ 2064) :
    exec (.frameCompleteUnspoiled f 0) s = .next (settle ((s.between f).present f)) := by
  have reads : s.lif.reads = true := (Lif.reads_iff _).2 engine
  refine exec_of_effect released ?_
  change s.frameComplete f 0 = _
  rw [State.frameComplete, if_pos (by simp [reads, LaneFrame.wellFormed, short]),
    if_neg (by simp [State.isDuplicate, other]), if_neg (by simp [tenure])]
  rfl

/-- What hearing a sender does to the peer table (R181). -/
def State.heardPtu (s : State) (x : Nat) : Ptu := if s.isPeer x then s.hearing x else s.ptu

theorem State.heard_eq {s t : State} (sld : t.sld = s.sld) (ptu : t.ptu = s.ptu) (x : Nat) :
    t.heard x = { t with ptu := s.heardPtu x } := by
  have peer : t.isPeer x = s.isPeer x := by unfold State.isPeer State.own; rw [sld]
  unfold State.heard State.heardPtu State.hearing
  rw [peer, ptu]
  split
  · rfl
  · rw [← ptu]

theorem State.heardPtu_state (s : State) (x : Nat) : (s.heardPtu x).state = s.ptu.state := by
  unfold State.heardPtu
  split
  · exact s.hearing_state x
  · rfl

/-- Presence apart, hearing a station leaves its entry as it was. -/
theorem State.heardPtu_peer (s : State) (x : Nat) : ((s.heardPtu x).peer x).digestMatch = (s.ptu.peer x).digestMatch ∧
    ((s.heardPtu x).peer x).role = (s.ptu.peer x).role := by
  unfold State.heardPtu
  split
  next peer =>
    obtain ⟨⟨low, high⟩, -⟩ : (1 ≤ x ∧ x ≤ 62) ∧ x ≠ s.own := by simpa [State.isPeer] using peer
    rw [s.hearing_peer low high]
    exact ⟨rfl, rfl⟩
  next => exact ⟨rfl, rfl⟩

/-! ### The tests of an admission frame (R30) -/

/-- ADMIT-CLAIM, ADMIT-WITHDRAW and ADMIT-RELEASE. -/
def FrameKind.admits (kind : FrameKind) : Prop := kind = .admitClaim ∨ kind = .admitWithdraw ∨ kind = .admitRelease

theorem FrameKind.admits.ofCode {kind : FrameKind} (admits : kind.admits) : FrameKind.ofCode kind.code = some kind := by
  rcases admits with rfl | rfl | rfl <;> rfl

theorem FrameKind.admits.code_ne_beacon {kind : FrameKind} (admits : kind.admits) : kind.code ≠ FrameKind.beacon.code := by
  rcases admits with rfl | rfl | rfl <;> decide

theorem admitBody_iff {kind : FrameKind} (admits : kind.admits) (body : Bytes) :
    admitBody kind body = true ↔ if kind = .admitClaim then body = [1] ∨ body = [2] else body = [] := by
  rcases admits with rfl | rfl | rfl <;> simp [admitBody]

theorem State.admitTest_iff {s : State} {f : LaneFrame} {kind : FrameKind} (other : f.sender.toNat ≠ s.own)
    (admits : kind.admits) : s.admitTest f kind = true ↔
      (s.ptu.state = .member ∨ (s.ptu.state = .listen ∧ s.adm.copied = true)) ∧ f.dest = toAll ∧
      (1 ≤ f.sender.toNat ∧ f.sender.toNat ≤ 62) ∧
      (if kind = .admitClaim then f.body = [1] ∨ f.body = [2] else f.body = []) ∧
      (s.ptu.peer f.sender.toNat).digestMatch ≠ .no ∧
      (kind = .admitClaim → (s.ptu.peer f.sender.toNat).role ≠ some .uplink) := by
  rw [straps_legal_iff, ← admitBody_iff admits]
  simp only [State.admitTest, State.admActs, State.roleOf, other, Bool.and_eq_true, Bool.or_eq_true,
    decide_eq_true_eq, ne_eq, decide_not, Bool.not_eq_true', decide_eq_false_iff_not, not_or, if_false]
  tauto

/-- An admission frame is presented to ADM (R164). -/
theorem State.present_admission {s t : State} {f : LaneFrame} {kind : FrameKind} (admits : kind.admits)
    (code : f.kind = kind.code) (sld : t.sld = s.sld) (ptu : t.ptu = s.ptu) :
    t.present f = ({ t with ptu := s.heardPtu f.sender.toNat } : State).admitFrame f kind := by
  rw [State.present, if_neg (by rw [code]; exact admits.code_ne_beacon), State.heard_eq sld ptu]
  rw [State.presentBlocks, code, admits.ofCode]
  rcases admits with rfl | rfl | rfl <;> rfl

theorem State.admitFrame_refused {s : State} {f : LaneFrame} {kind : FrameKind} (refused : s.admitTest f kind = false) :
    s.admitFrame f kind = s := by
  rw [State.admitFrame, refused]
  exact if_neg (by simp)

/-- The change that an admission frame of a station makes. -/
def admitChange (kind : FrameKind) (x slots : Nat) (now : Time) (a : Adm) : Adm :=
  match kind with
  | .admitClaim => a.claim x slots now
  | .admitWithdraw => a.withdraw x
  | _ => a.release x

theorem State.admitFrame_applied {s : State} {f : LaneFrame} {kind : FrameKind} (admits : kind.admits)
    (passes : s.admitTest f kind = true) : s.admitFrame f kind =
      s.admChange (admitChange kind f.sender.toNat (s.setting Settings.slotCount) s.now) := by
  unfold State.admitFrame
  rw [if_pos passes]
  rcases admits with rfl | rfl | rfl <;> rfl

/-! ### The lists after a frame -/

section
variable {a : Adm} {slots x : Nat} (h : a.Ordered slots)
include h

/-- In order a station's drop from both lists is its drop from the list that holds it. -/
theorem Adm.Ordered.drop_unlisted (absent : x ∉ a.roster.map Prod.fst) : a.dropRoster x = a := by
  have kept : a.roster.filter (fun e => e.1 ≠ x) = a.roster := List.filter_eq_self.2 fun e member => by
    simpa using fun same : e.1 = x => absent (same ▸ List.mem_map_of_mem member)
  unfold Adm.dropRoster
  rw [kept]

theorem Adm.Ordered.drop_unwaiting (absent : x ∉ a.waiting) : a.dropWaiting x = a := by
  have kept : a.waiting.filter (fun y => y ≠ x) = a.waiting := List.filter_eq_self.2 fun y member => by
    simpa using fun same : y = x => absent (same ▸ member)
  unfold Adm.dropWaiting
  rw [kept]

theorem Adm.Ordered.withdraw_eq : a.withdraw x = (a.dropRoster x).dropWaiting x := by
  unfold Adm.withdraw
  split
  next waits =>
    rw [h.drop_unlisted (h.disjoint x ((a.isWaiting_iff x).1 waits))]
  next waitsNot =>
    exact ((h.dropRoster x).drop_unwaiting (fun waits => waitsNot ((a.isWaiting_iff x).2 waits))).symm

theorem Adm.Ordered.release_eq : a.release x = (a.dropRoster x).dropWaiting x := by
  unfold Adm.release
  split
  next inside =>
    refine ((h.dropRoster x).drop_unwaiting fun waits => ?_).symm
    exact h.disjoint x waits ((a.inRoster_iff x).1 inside)
  next outside =>
    rw [h.drop_unlisted (by simpa [← Adm.inRoster_iff] using outside)]

end

theorem Adm.claim_present {a : Adm} {x : Nat} (slots : Nat) (now : Time)
    (present : x ∈ a.roster.map Prod.fst ∨ x ∈ a.waiting) : a.claim x slots now = a := by
  unfold Adm.claim
  exact if_pos (by simpa only [Bool.or_eq_true, Adm.inRoster_iff, Adm.isWaiting_iff] using present)

theorem Adm.claim_room {a : Adm} {x slots : Nat} (now : Time) (absent : x ∉ a.roster.map Prod.fst)
    (unwaited : x ∉ a.waiting) (room : a.roster.length < slots) : a.claim x slots now = a.joinRoster x now := by
  unfold Adm.claim
  rw [if_neg (by simpa only [Bool.or_eq_true, Adm.inRoster_iff, Adm.isWaiting_iff] using not_or.2 ⟨absent, unwaited⟩),
    if_pos room]

theorem Adm.claim_full {a : Adm} {x slots : Nat} (now : Time) (absent : x ∉ a.roster.map Prod.fst)
    (unwaited : x ∉ a.waiting) (full : slots ≤ a.roster.length) : a.claim x slots now = a.joinWaiting x := by
  unfold Adm.claim
  rw [if_neg (by simpa only [Bool.or_eq_true, Adm.inRoster_iff, Adm.isWaiting_iff] using not_or.2 ⟨absent, unwaited⟩),
    if_neg (by omega)]

/-- Settles O23: the tests of R30, then one change of the lists with its promotion. -/
theorem admissionFramesMoveTheLists : Obligations.AdmissionFramesMoveTheLists := by
  intro s f kind released engine tenure other short admits code ordered
  intro x legal applied slots inRoster isWaiting promoted rosterLess waitingLess
  have lists := ordered.lists
  obtain ⟨v, isV⟩ : ∃ v : State, v = { s.between f with ptu := s.heardPtu x } := ⟨_, rfl⟩
  have same : v.now = s.now ∧ v.sdram = s.sdram ∧ v.ord = s.ord ∧ v.adm = s.adm ∧ v.psq = s.psq ∧ v.sld = s.sld ∧
      v.ptu = s.heardPtu x := by
    rw [isV, State.between_eq]
    exact ⟨rfl, rfl, rfl, rfl, rfl, rfl, rfl⟩
  obtain ⟨now, sdram, ord, adm, psq, sld, ptu⟩ := same
  have settings : v.setting Settings.slotCount = slots := by simp only [State.setting, sld, slots]
  have presented : (s.between f).present f = v.admitFrame f kind := by
    rw [isV]
    exact State.present_admission admits code (by rw [State.between_eq]) (by rw [State.between_eq])
  have test : v.admitTest f kind = true ↔ applied := by
    rw [State.admitTest_iff (by rw [State.own, sld]; exact other) admits, ptu, State.heardPtu_state,
      (s.heardPtu_peer x).1, (s.heardPtu_peer x).2, adm]
  have becomes (holds : applied) {a : Adm} (changed : admitChange kind x slots s.now s.adm = a)
      (expired : a.expired = s.adm.expired) : promoted (settle (v.admitFrame f kind)) a.roster a.waiting := by
    have after : v.changed (admitChange kind x slots s.now) = a.promote slots s.now := by
      rw [State.changed, settings, now, adm, changed]
    obtain ⟨roster, waiting, dropped, -⟩ := v.admChange_lists (admitChange kind x slots s.now)
    rw [after] at roster waiting dropped
    rw [State.admitFrame_applied admits (test.2 holds), settings, now]
    exact ⟨by rw [settle_adm_roster, roster]; rfl, by rw [settle_adm_waiting, waiting]; rfl,
      by rw [settle_adm_expired, dropped]; exact expired⟩
  obtain ⟨keptNow, -, -, -, -, -, keptSdram, keptOrd, -⟩ := v.admitFrame_keeps f kind
  refine ⟨settle (v.admitFrame f kind), ?_, ?_, ?_, ?_, ?_, ?_, ?_⟩
  · rw [exec_frameComplete released engine tenure other short, presented]
  · rw [settle_now, keptNow, now]
  · rw [settle_sdram, keptSdram, sdram]
  · rw [settle_ord_holder, keptOrd, ord]
  · rintro rfl holds
    refine ⟨fun present => ?_, fun absent unwaited room => ?_, fun absent unwaited full => ?_⟩
    · exact becomes holds (Adm.claim_present slots s.now present) rfl
    · exact becomes holds (Adm.claim_room s.now absent unwaited room) rfl
    · exact becomes holds (Adm.claim_full s.now absent unwaited full) rfl
  · rintro retracts holds
    refine becomes holds (a := (s.adm.dropRoster x).dropWaiting x) ?_ rfl
    rcases retracts with rfl | rfl
    · exact lists.withdraw_eq
    · exact lists.release_eq
  · intro refused
    have failed : v.admitTest f kind = false := by
      rw [← Bool.not_eq_true, test]
      exact refused
    rw [State.admitFrame_refused failed]
    refine ⟨by simp [adm], by simp [adm], by simp [adm], by simp [adm], by simp [psq], fun serving untaken => ?_⟩
    have serves : ({ s with lif := s.lif.passed } : State).serving = true := serving
    have passes : ({ s with lif := s.lif.passed } : State).decidesTake f = false := by
      refine State.decidesTake_kind (kind := kind) (by rw [code]; exact FrameKind.admits.ofCode admits) ?_
      rcases admits with rfl | rfl | rfl <;> simp [State.takesKind, serves]
    have peer : s.isPeer x = true ↔ legal := by
      simp [State.isPeer, legal, x, other]
    have heard : s.heardPtu x = if legal then s.hearing x else s.ptu := if_congr peer rfl rfl
    rw [isV, State.between_untaken ((Lif.reads_iff _).2 engine) untaken passes, heard]

end Sys2Proof.Machine


/-! ## The end of a tenure: the warm restart, and what LIF keeps of its frame (R165, R169, R175, R187) -/

namespace Sys2Proof.Machine

/-! ### A tenure ends -/

theorem Lif.isSending_iff (l : Lif) : l.isSending = true ↔ l.engine = .bidding ∨ l.engine = .sending := by
  simp [Lif.isSending]

/-- A tenure can end as its sender stands: the slots are read by one that sends, and one that has stopped ends so. -/
theorem Lif.endsAs_of {l : Lif} {t : Tenure} {how : TenureEnd} (tenure : l.tenure = some t)
    (ends : l.engine = .bidding ∨ l.engine = .sending ∨ (t.stopped = true ∧ ∀ spoil take, how ≠ .slots spoil take)) :
    l.endsAs how = true := by
  rcases or_assoc.2 ends with sends | ⟨stopped, noSlots⟩
  · have sending := l.isSending_iff.2 sends
    cases how <;> simp [Lif.endsAs, sending]
  · cases how with
    | slots spoil take => exact absurd rfl (noSlots spoil take)
    | stopped error tail => simp [Lif.endsAs, Lif.isStopped, tenure, stopped]

section

variable {s : State} {e : SendEntry} {t : Tenure} (tenure : s.lif.tenure = some t) (entry : s.lif.entry t.seq = some e)
include tenure entry

theorem State.tenured_of : s.tenured = some (e, t.frame) := by simp [State.tenured, tenure, entry]

/-- The end of a tenure that is not the one of RESTART's REPLY (R165). -/
theorem State.tenureEnds_of {how : TenureEnd} (ends : s.lif.endsAs how = true) (straps : Straps)
    (noRestart : s.ord.restartReply ≠ some e.seq) :
    s.tenureEnds how straps = (s.tenureRest how).endTenure e t.frame how := by
  rw [State.tenureEnds, if_pos ends, State.tenured_of tenure entry]
  simp [State.restartEnds, noRestart]

end

/-! ### The warm restart (R175) -/

theorem State.beginStart_warm (s : State) (straps : Straps) :
    s.warmRestart straps = { s with
      now := 0
      sld :=
        { role := straps.role, snum := straps.snum.toNat
          phase := if straps.snum ≠ 0 ∧ straps.snum ≠ 63 then .reading 1 else .halted
          warm := true, settings := none }
      ptu := if straps.snum ≠ 0 ∧ straps.snum ≠ 63 then {} else { state := .haltedSetup, boundary := some 1000 }
      lif := if straps.snum ≠ 0 ∧ straps.snum ≠ 63 then {} else { engine := .syncing }
      adm := {}, wdu := {}, cfw := {}, lpm := {}, xch := {}, ord := {}, ntu := {}, upb := {}
      psq := { feedClosed := s.psq.feedClosed }
      ccu := s.ccu.stop s.now
      mfn := Mfn.started s.pins.vbsense (if s.mfn.state = .none then s.mfn.lastCause else some .restart)
      mctl := s.mctl.restart } := by
  have number : (1 ≤ straps.snum.toNat ∧ straps.snum.toNat ≤ 62) ↔ straps.snum ≠ 0 ∧ straps.snum ≠ 63 :=
    (straps_legal_iff _).trans not_or
  by_cases legal : straps.snum ≠ 0 ∧ straps.snum ≠ 63
  · have is := number.2 legal
    simp only [if_pos legal]
    unfold State.warmRestart State.beginStart
    exact if_pos (by simpa [State.legalNumber] using is)
  · have isNot : ¬ (1 ≤ straps.snum.toNat ∧ straps.snum.toNat ≤ 62) := fun h => legal (number.1 h)
    simp only [if_neg legal]
    unfold State.warmRestart State.beginStart
    refine (if_neg (by simpa [State.legalNumber] using isNot)).trans ?_
    unfold State.enterHalted State.offerBeacon
    exact if_neg (by simpa [State.legalNumber] using isNot)

/-- Settles O20: the end of RESTART's REPLY is the warm restart of every block. -/
theorem restartReplyBeginsAWarmRestart : Obligations.RestartReplyBeginsAWarmRestart := by
  intro s e t how straps released ends tenure entry reply over_ legal
  have restarts : s.restartEnds e how = true := by
    rcases over_ with taken | givenUp
    · simp [State.restartEnds, reply, State.tenureReport, taken]
    · simp [State.restartEnds, reply, givenUp]
  have effect : Instr.effect (.senderTenureEnd how straps) s = s.warmRestart straps := by
    change s.tenureEnds how straps = _
    rw [State.tenureEnds, if_pos (Lif.endsAs_of tenure ends), State.tenured_of tenure entry]
    exact if_pos restarts
  refine ⟨s.warmRestart straps, exec_of_effect released effect, ?_, ?_, ?_⟩
  · rw [State.beginStart_warm]
    simp [legal, Ccu.stop, Mfn.started, Mctl.restart]
  · rw [State.beginStart_warm]
    simp only [Mctl.restart]
    cases s.mctl.current with
    | none => rfl
    | some c =>
      obtain ⟨req, reported⟩ := c
      cases req <;> rfl
  · intro c current unCaptured
    rw [State.beginStart_warm] at current
    simp only [Mctl.restart] at current
    cases old : s.mctl.current with
    | none => simp [old] at current
    | some d =>
      obtain ⟨req, reported⟩ := d
      rw [old] at current
      cases req
      case capture n =>
        cases current
        exact absurd rfl (unCaptured n)
      all_goals
        cases current
        rfl

end Sys2Proof.Machine


/-! ## What LIF does with a frame whose tenure has ended (R157, R158, R162, R165, R187) -/

namespace Sys2Proof.Machine

/-! ### The report (R165) -/

/-- A tenure's frame is done: TAKEN, or NOT-TAKEN and sent to all. -/
def SendEntry.done (e : SendEntry) (how : TenureEnd) : Prop :=
  TenureEnd.outcome how = .taken ∨ (TenureEnd.outcome how = .notTaken ∧ e.dest = toAll)

theorem State.tenureReport_done {s : State} {e : SendEntry} {how : TenureEnd} (done : e.done how) :
    s.tenureReport e (TenureEnd.outcome how) = if TenureEnd.outcome how = .taken then .taken else .notTaken := by
  rcases done with taken | ⟨notTaken, all⟩
  · simp [State.tenureReport, taken]
  · simp [State.tenureReport, notTaken, all]

theorem State.tenureReport_undone {s : State} {e : SendEntry} {how : TenureEnd} (undone : ¬ e.done how) :
    s.tenureReport e (TenureEnd.outcome how) = if e.retry + 1 < s.retryLimit then .retry else .givenUp := by
  unfold State.tenureReport
  cases outcome : TenureEnd.outcome how with
  | taken => exact absurd (.inl outcome) undone
  | notTaken =>
    have one : e.dest ≠ toAll := fun all => undone (.inr ⟨outcome, all⟩)
    simp [one]
  | spoiled => rfl

theorem State.tenureReport_retried {s : State} {e : SendEntry} {how : TenureEnd} (undone : ¬ e.done how)
    (below : e.retry + 1 < s.retryLimit) : s.tenureReport e (TenureEnd.outcome how) = .retry := by
  rw [State.tenureReport_undone undone, if_pos below]

theorem State.tenureReport_givenUp {s : State} {e : SendEntry} {how : TenureEnd} (undone : ¬ e.done how)
    (reached : s.retryLimit ≤ e.retry + 1) : s.tenureReport e (TenureEnd.outcome how) = .givenUp := by
  rw [State.tenureReport_undone undone, if_neg (by omega)]

/-- A frame that is done is not retried. -/
theorem State.tenureReport_done_ne {s : State} {e : SendEntry} {how : TenureEnd} (done : e.done how) :
    s.tenureReport e (TenureEnd.outcome how) ≠ .retry := by
  rw [State.tenureReport_done done]
  split <;> simp

/-! ### LIF after the tenure -/

theorem State.settleEntry_retry (s : State) (seq : Nat) : (s.settleEntry seq .retry).lif.sendList =
    s.lif.sendList.map (fun x => if x.seq = seq then { x with retry := x.retry + 1, inTenure := false } else x) := rfl

theorem State.settleEntry_leaves (s : State) (seq : Nat) {r : Report} (leaves : r ≠ .retry) :
    (s.settleEntry seq r).lif.sendList = s.lif.sendList.filter (fun x => x.seq ≠ seq) := by
  unfold State.settleEntry
  split
  · exact absurd rfl leaves
  · rw [State.freeGiveBuf_sendList]
    rfl

theorem State.settleEntry_onlyWithdraws (s : State) (seq : Nat) (r : Report) : s.OnlyWithdraws (s.settleEntry seq r) := by
  unfold State.settleEntry
  split
  · exact ⟨_, _, _, rfl⟩
  · unfold State.freeGiveBuf Lif.remove
    (repeat' split) <;> exact ⟨_, _, _, rfl⟩

theorem Lif.endTenure_sendList (l : Lif) (how : TenureEnd) : (l.endTenure how).sendList = l.sendList := by
  cases how <;> rfl

/-- What LIF reports of a tenure that ends. -/
def State.ending (s : State) (e : SendEntry) (how : TenureEnd) : Report := s.tenureReport e (TenureEnd.outcome how)

/-- LIF with a tenure ended, the frame's entry settled, nothing presented or reported yet. -/
def State.afterTenure (s : State) (e : SendEntry) (how : TenureEnd) : State :=
  ({ s.tenureRest how with lif := (s.tenureRest how).lif.endTenure how } : State).settleEntry e.seq (s.ending e how)

theorem State.afterTenure_eq (s : State) (e : SendEntry) (how : TenureEnd) : s.afterTenure e how = { s with
    lif := (s.afterTenure e how).lif
    mctl := { s.mctl with waitSend := (s.afterTenure e how).mctl.waitSend } } := by
  have rest : s.tenureRest how = { s with lif := (s.tenureRest how).lif } := by
    cases how with
    | slots spoil take => rfl
    | stopped error tail =>
      simp only [State.tenureRest, State.stopSending, State.mismatch, State.receiveError]
      split <;> split <;> rfl
  obtain ⟨l, g, w, frame⟩ := State.settleEntry_onlyWithdraws
    { s.tenureRest how with lif := (s.tenureRest how).lif.endTenure how } e.seq (s.ending e how)
  unfold State.afterTenure
  rw [frame]
  generalize (s.tenureRest how).lif = lif at rest
  rw [rest]

theorem State.afterTenure_core (s : State) (e : SendEntry) (how : TenureEnd) :
    (s.afterTenure e how).lif.core = ((s.tenureRest how).lif.endTenure how).core := by
  unfold State.afterTenure
  simp

theorem State.afterTenure_retried {s : State} {e : SendEntry} {how : TenureEnd} (retried : s.ending e how = .retry) :
    (s.afterTenure e how).lif.sendList =
      s.lif.sendList.map (fun x => if x.seq = e.seq then { x with retry := x.retry + 1, inTenure := false } else x) := by
  rw [State.afterTenure, retried, State.settleEntry_retry, Lif.endTenure_sendList, State.tenureRest_sendList]

theorem State.afterTenure_left {s : State} {e : SendEntry} {how : TenureEnd} (leaves : s.ending e how ≠ .retry) :
    (s.afterTenure e how).lif.sendList = s.lif.sendList.filter (fun x => x.seq ≠ e.seq) := by
  rw [State.afterTenure, State.settleEntry_leaves _ _ leaves, Lif.endTenure_sendList, State.tenureRest_sendList]

/-- What is presented of a frame of this station's own that completed unspoiled (R164, R201). -/
def State.presentsOwn (s : State) (e : SendEntry) (f : LaneFrame) (how : TenureEnd) : State :=
  if f.dest = toAll ∧ TenureEnd.outcome how ≠ .spoiled then (s.presentBlocks f).ownNotice e f else s

/-- The end of a tenure: LIF, what is presented of the frame, and the report to its owner. -/
theorem State.endTenure_eq (s : State) (e : SendEntry) (f : LaneFrame) (how : TenureEnd) :
    (s.tenureRest how).endTenure e f how =
      ((s.afterTenure e how).presentsOwn e f how).report e f (s.ending e how) := by
  have limit : (s.tenureRest how).retryLimit = s.retryLimit := by
    simp [State.retryLimit, State.setting]
  have report : (s.tenureRest how).tenureReport e (TenureEnd.outcome how) = s.ending e how := by
    unfold State.ending State.tenureReport
    rw [limit]
  unfold State.endTenure State.presentsOwn State.afterTenure
  rw [report]
  dsimp only
  congr 1
  exact if_congr (by simp) rfl rfl

/-- The command of a tenure's end, RESTART's REPLY apart. -/
theorem exec_senderTenureEnd {s : State} {e : SendEntry} {t : Tenure} {how : TenureEnd} {straps : Straps}
    (released : s.rstn = false) (ends : s.lif.endsAs how = true) (tenure : s.lif.tenure = some t)
    (entry : s.lif.entry t.seq = some e) (noRestart : s.ord.restartReply ≠ some e.seq) :
    exec (.senderTenureEnd how straps) s = .next (settle
      (((s.afterTenure e how).presentsOwn e t.frame how).report e t.frame (s.ending e how))) := by
  refine exec_of_effect released ?_
  change s.tenureEnds how straps = _
  rw [State.tenureEnds_of tenure entry ends straps noRestart, State.endTenure_eq]

theorem State.presentsOwn_laneCore (s : State) (e : SendEntry) (f : LaneFrame) (how : TenureEnd) :
    (s.presentsOwn e f how).lif.core = s.lif.core := by
  unfold State.presentsOwn
  split <;> simp

/-- A frame of a kind that ADM and XCH do not take, of another owner than NTU, is presented to none. -/
theorem State.presentsOwn_unheeded {s : State} {e : SendEntry} {f : LaneFrame} {how : TenureEnd}
    (kind : f.kind = FrameKind.beacon.code ∨ f.kind = FrameKind.reply.code ∨ f.kind = FrameKind.consoleOut.code)
    (owner : e.owner ≠ .ntu) : s.presentsOwn e f how = s := by
  have blocks : s.presentBlocks f = s := by
    unfold State.presentBlocks
    rcases kind with h | h | h <;> rw [h] <;> rfl
  unfold State.presentsOwn State.ownNotice
  rw [blocks]
  split
  · exact if_neg (by simp [owner])
  · rfl

/-- The presented frame leaves PTU, ORD, CFW and the clocks alone. -/
theorem State.presentsOwn_keeps (s : State) (e : SendEntry) (f : LaneFrame) (how : TenureEnd) :
    (s.presentsOwn e f how).now = s.now ∧ (s.presentsOwn e f how).rstn = s.rstn ∧ (s.presentsOwn e f how).pins = s.pins ∧
    (s.presentsOwn e f how).sld = s.sld ∧ (s.presentsOwn e f how).ptu = s.ptu ∧ (s.presentsOwn e f how).cfw = s.cfw ∧
    (s.presentsOwn e f how).sdram = s.sdram ∧ (s.presentsOwn e f how).ord = s.ord ∧
    (s.presentsOwn e f how).fresh = s.fresh ∧ (s.presentsOwn e f how).pending = s.pending := by
  unfold State.presentsOwn
  split <;> simp

/-! ### The engine (R157, R158, R162) -/

/-- A sender that had stopped and waits in DISCARDING drives nothing more (R162). -/
theorem State.tenureRest_discarding {s : State} (engine : s.lif.engine = .discarding) (error : RxError) (tail : Bool) :
    s.tenureRest (.stopped error tail) = s := by
  simp [State.tenureRest, State.stopSending, State.receiveError, Lif.isSending, Lif.reads, engine]

/-- Of LIF but its list and its give buffer, what a tenure's end leaves. -/
theorem State.tenureRest_ended {s : State} {t : Tenure} {how : TenureEnd}
    (ends : s.lif.engine = .bidding ∨ s.lif.engine = .sending ∨
      ((s.lif.engine = .receiving ∨ s.lif.engine = .discarding) ∧ t.stopped = true ∧ ∀ spoil take, how ≠ .slots spoil take)) :
    (match how with
      | .slots _ _ => ((s.tenureRest how).lif.endTenure how).engine = .quiet ∧
          ((s.tenureRest how).lif.endTenure how).drove = .nothing
      | .stopped error tail => ((s.tenureRest how).lif.endTenure how).engine = .discarding ∧
          ((s.tenureRest how).lif.endTenure how).drove =
            if s.lif.engine = .discarding then s.lif.drove
            else if s.ptu.state = .silent ∨ error = .tailDominant then .nothing
            else if tail ∧ error ≠ .badCheck then .tailBit else .spoilSlot) := by
  cases how with
  | slots spoil take =>
    have sends : s.lif.isSending = true := by
      rcases ends with h | h | ⟨-, -, noSlots⟩
      · exact s.lif.isSending_iff.2 (.inl h)
      · exact s.lif.isSending_iff.2 (.inr h)
      · exact absurd rfl (noSlots spoil take)
    dsimp only [State.tenureRest]
    rw [Lif.endTenure_slots _ _ _ sends]
    exact ⟨rfl, rfl⟩
  | stopped error tail =>
    by_cases waits : s.lif.engine = .discarding
    · rw [State.tenureRest_discarding waits]
      dsimp only
      rw [if_pos waits]
      exact ⟨waits, rfl⟩
    · dsimp only
      rw [if_neg waits, ← State.errorDrive_eq]
      refine s.tenureRest_stopped error tail ?_
      rcases ends with h | h | ⟨h | h, -, -⟩
      · exact .inl (s.lif.isSending_iff.2 (.inl h))
      · exact .inl (s.lif.isSending_iff.2 (.inr h))
      · exact .inr h
      · exact absurd h waits

theorem Lif.endTenure_rest (l : Lif) (how : TenureEnd) : (l.endTenure how).sitOut = true ∧ (l.endTenure how).ltx = false ∧
    (l.endTenure how).tenure = none ∧ (l.endTenure how).quiet = 0 := by
  cases how <;> exact ⟨rfl, rfl, rfl, rfl⟩

theorem State.report_laneCore' (s : State) (e : SendEntry) (f : LaneFrame) (r : Report) :
    (s.report e f r).lif.core = s.lif.core := by simp

/-- The fields that the lane core holds. -/
theorem Lif.core_fields {l m : Lif} (same : l.core = m.core) : l.engine = m.engine ∧ l.drove = m.drove ∧
    l.sitOut = m.sitOut ∧ l.ltx = m.ltx ∧ l.tenure = m.tenure ∧ l.quiet = m.quiet := by
  rw [Lif.core_eq_iff] at same
  rw [same]
  exact ⟨rfl, rfl, rfl, rfl, rfl, rfl⟩

/-- Settles O18: LIF's own part, and the reports on a BEACON and on a REPLY. -/
theorem tenureEndsWithItsOutcome : Obligations.TenureEndsWithItsOutcome := by
  intro s e t how straps released ends tenure entry noRestart outcome limit done
  have endsAs : s.lif.endsAs how = true := Lif.endsAs_of tenure (by
    rcases ends with h | h | ⟨-, stopped⟩
    · exact .inl h
    · exact .inr (.inl h)
    · exact .inr (.inr stopped))
  obtain ⟨p, isP⟩ : ∃ p, p = (s.afterTenure e how).presentsOwn e t.frame how := ⟨_, rfl⟩
  have core : (p.report e t.frame (s.ending e how)).lif.core = ((s.tenureRest how).lif.endTenure how).core := by
    rw [State.report_laneCore', isP, State.presentsOwn_laneCore, State.afterTenure_core]
  obtain ⟨engine, drove, sitOut, ltx, noTenure, quiet⟩ := Lif.core_fields core
  obtain ⟨restSitOut, restLtx, restTenure, restQuiet⟩ := (s.tenureRest how).lif.endTenure_rest how
  have after : s.afterTenure e how = _ := s.afterTenure_eq e how
  obtain ⟨pNow, pRstn, pPins, pSld, pPtu, -, pSdram, -, -, pPending⟩ :=
    (s.afterTenure e how).presentsOwn_keeps e t.frame how
  rw [← isP] at pNow pRstn pPins pSld pPtu pSdram pPending
  obtain ⟨rNow, rRstn, rPins, rSld, -, -, rSdram, -, -, -, rPending⟩ := p.report_keeps e t.frame (s.ending e how)
  refine ⟨p.report e t.frame (s.ending e how), ?_, ?_, ?_, ?_, ?_, ?_, ?_, ?_, ?_, ?_, ?_, ?_, ?_, ?_⟩
  · rw [isP]
    exact exec_senderTenureEnd released endsAs tenure entry noRestart
  · have rest := State.tenureRest_ended ends
    cases how with
    | slots spoil take => exact ⟨engine.trans rest.1, drove.trans rest.2⟩
    | stopped error tail => exact ⟨engine.trans rest.1, drove.trans rest.2⟩
  · exact sitOut.trans restSitOut
  · exact ltx.trans restLtx
  · exact noTenure.trans restTenure
  · exact quiet.trans restQuiet
  · rw [rNow, pNow, after]
  · rw [rRstn, pRstn, after]
  · rw [rPins, pPins, after]
  · rw [rSld, pSld, after]
  · rw [rSdram, pSdram, after]
  · rw [rPending, pPending, after]
  · intro frames
    have same : p = s.afterTenure e how := by
      rw [isP]
      rcases frames with ⟨owner, kind⟩ | ⟨owner, kind⟩
      · exact State.presentsOwn_unheeded (.inl kind) (by simp [owner])
      · exact State.presentsOwn_unheeded (.inr (.inl kind)) (by simp [owner])
    have reported : p.report e t.frame (s.ending e how) = p ∨
        ∃ ptu, p.report e t.frame (s.ending e how) = { p with ptu := ptu } := by
      rcases frames with ⟨owner, -⟩ | ⟨owner, -⟩
      · exact .inr ⟨_, by rw [State.report, owner]⟩
      · exact .inl (by rw [State.report, owner])
    have others : (p.report e t.frame (s.ending e how)).lif = p.lif ∧ (p.report e t.frame (s.ending e how)).adm = s.adm ∧
        (p.report e t.frame (s.ending e how)).psq = s.psq ∧ (p.report e t.frame (s.ending e how)).cfw = s.cfw ∧
        (p.report e t.frame (s.ending e how)).xch = s.xch ∧ (p.report e t.frame (s.ending e how)).lpm = s.lpm ∧
        (p.report e t.frame (s.ending e how)).ord = s.ord := by
      rcases reported with h | ⟨ptu, h⟩ <;> rw [h, same, after] <;> exact ⟨rfl, rfl, rfl, rfl, rfl, rfl, rfl⟩
    obtain ⟨lif, rest⟩ := others
    rw [lif]
    rw [same] at rest ⊢
    refine ⟨fun isDone => ?_, fun undone below => ?_, fun undone reached => ?_, rest⟩
    · exact State.afterTenure_left (State.tenureReport_done_ne isDone)
    · exact State.afterTenure_retried (State.tenureReport_retried undone below)
    · exact State.afterTenure_left (by rw [State.ending, State.tenureReport_givenUp undone reached]; simp)
  · intro owner
    have ptu : (p.report e t.frame (s.ending e how)).ptu = s.ptu.report e.seq (s.ending e how) := by
      rw [State.report, owner]
      dsimp only
      rw [pPtu, after]
    rw [ptu, State.ending]
    refine ⟨fun isDone => ?_, fun undone below => ?_, fun undone reached => ?_⟩
    · rw [State.tenureReport_done isDone]
      split <;> rfl
    · rw [State.tenureReport_retried undone below]
      rfl
    · rw [State.tenureReport_givenUp undone reached]
      rfl

end Sys2Proof.Machine


/-! ## Grants by the own claim and by another station's release (R16, R31, R40, R43) -/

namespace Sys2Proof.Machine

/-- What a grant does is told of these parts of its outcome alone. -/
theorem State.GrantTaken.to {s u v : State} (taken : s.GrantTaken u) (psq : v.psq = u.psq) (ntu : v.ntu = u.ntu)
    (ccu : v.ccu = u.ccu) (wdu : v.wdu = u.wdu) : s.GrantTaken v := by
  obtain ⟨powerOn, restore, alreadyUp, refused⟩ := taken
  refine ⟨?_, ?_, ?_, ?_⟩ <;> rw [psq, ntu, ccu, wdu] <;> assumption

/-! ### The own claim -/

section

variable {s : State} {f : LaneFrame}

/-- A serving station's own ADMIT-CLAIM passes R30's tests in MEMBER. -/
theorem State.admitTest_ownClaim (serving : s.serving = true) (legal : s.legalNumber = true)
    (member : s.ptu.state = .member) (all : f.dest = toAll) (mine : f.sender.toNat = s.own)
    (body : f.body = [1] ∨ f.body = [2]) : s.admitTest f .admitClaim = true := by
  have number : f.sender ≠ 0 ∧ f.sender ≠ 63 := by
    rw [← not_or, ← straps_legal_iff, mine]
    simpa [State.legalNumber, State.own] using legal
  have role : s.sld.role ≠ .uplink := by
    have : s.sld.role = .serving := by simpa [State.serving] using serving
    simp [this]
  simpa [State.admitTest, State.admActs, State.roleOf, member, all, mine, role, admitBody] using And.intro number body

variable {e : SendEntry} {how : TenureEnd}

/-- The own claim, completed unspoiled, is applied (R31, R164). -/
theorem State.presentsOwn_claim (serving : s.serving = true) (legal : s.legalNumber = true)
    (member : s.ptu.state = .member) (code : f.kind = FrameKind.admitClaim.code) (all : f.dest = toAll)
    (mine : f.sender.toNat = s.own) (body : f.body = [1] ∨ f.body = [2]) (owner : e.owner = .adm)
    (unspoiled : TenureEnd.outcome how ≠ .spoiled) : s.presentsOwn e f how =
      s.admChange (fun a => a.claim s.own (s.setting Settings.slotCount) s.now) := by
  have blocks : s.presentBlocks f = s.admChange (fun a => a.claim s.own (s.setting Settings.slotCount) s.now) := by
    rw [State.presentBlocks, code]
    change s.admitFrame f .admitClaim = _
    rw [State.admitFrame_applied (.inl rfl) (State.admitTest_ownClaim serving legal member all mine body), mine]
    rfl
  unfold State.presentsOwn State.ownNotice
  rw [if_pos ⟨all, unspoiled⟩, blocks]
  exact if_neg (by simp [owner])

/-- The own claim leaves the list at its end, and settles no retract (R43). -/
theorem State.ownDone_claim {s : State} {seq : Nat} {own : OwnFrame} {start : StartKind}
    (found : s.adm.own.find? (fun g => g.standing.isAt seq) = some own) (kind : own.kind = .claim start) :
    s.ownDone seq = { s with adm := { s.adm with own := s.adm.own.filter (fun g => !g.standing.isAt seq) } } := by
  have claim : own.isClaim = true := by simp [OwnFrame.isClaim, kind]
  rw [State.ownDone, found]
  exact if_pos claim

theorem State.report_claimDone {s : State} {e : SendEntry} {f : LaneFrame} {own : OwnFrame}
    {start : StartKind} {r : Report} (owner : e.owner = .adm) (done : r = .taken ∨ r = .notTaken)
    (found : s.adm.own.find? (fun g => g.standing.isAt e.seq) = some own) (kind : own.kind = .claim start) :
    s.report e f r = { s with adm := { s.adm with own := s.adm.own.filter (fun g => !g.standing.isAt e.seq) } } := by
  rw [← State.ownDone_claim found kind, State.report, owner]
  rcases done with rfl | rfl <;> rfl

end

theorem Adm.find?_ownWith {a : Adm} {entries : List OwnFrame} {p : OwnFrame → Bool} {own : OwnFrame}
    (places : a.own.length ≤ 4) (found : a.own.find? p = some own) : (a.ownWith entries).find? p = some own := by
  unfold Adm.ownWith
  rw [List.take_append, List.take_of_length_le places, List.find?_append, found]
  rfl

/-- The report of a tenure whose slots were read unspoiled by all. -/
theorem State.ending_toAll (s : State) {e : SendEntry} (all : e.dest = toAll) (take : Bool) :
    s.ending e (.slots false take) = .taken ∨ s.ending e (.slots false take) = .notTaken := by
  cases take
  · exact .inr (by simp [State.ending, TenureEnd.outcome, State.tenureReport, all])
  · exact .inl (by simp [State.ending, TenureEnd.outcome, State.tenureReport])

theorem TenureEnd.unspoiled (take : Bool) : TenureEnd.outcome (.slots false take) ≠ .spoiled := by
  cases take <;> simp [TenureEnd.outcome]

/-- The end of the own claim's tenure as one change of the lists, then its entry's end. -/
theorem exec_ownClaim {s : State} {e : SendEntry} {t : Tenure} {take : Bool} {straps : Straps}
    (released : s.rstn = false) (serving : s.serving = true) (legal : s.legalNumber = true)
    (member : s.ptu.state = .member) (sends : s.lif.engine = .bidding ∨ s.lif.engine = .sending)
    (tenure : s.lif.tenure = some t) (entry : s.lif.entry t.seq = some e) (noRestart : s.ord.restartReply ≠ some e.seq)
    (owner : e.owner = .adm) (code : t.frame.kind = FrameKind.admitClaim.code) (all : t.frame.dest = toAll)
    (mine : t.frame.sender.toNat = s.own) (body : t.frame.body = [1] ∨ t.frame.body = [2]) :
    exec (.senderTenureEnd (.slots false take) straps) s = .next (settle
      (((s.afterTenure e (.slots false take)).admChange
        (fun a => a.claim s.own (s.setting Settings.slotCount) s.now)).report e t.frame (s.ending e (.slots false take)))) := by
  obtain ⟨w, isW⟩ : ∃ w, w = s.afterTenure e (.slots false take) := ⟨_, rfl⟩
  have frame := s.afterTenure_eq e (.slots false take)
  rw [← isW] at frame
  have same : w.serving = s.serving ∧ w.legalNumber = s.legalNumber ∧ w.ptu = s.ptu ∧ w.own = s.own ∧
      w.setting Settings.slotCount = s.setting Settings.slotCount ∧ w.now = s.now := by
    rw [frame]
    exact ⟨rfl, rfl, rfl, rfl, rfl, rfl⟩
  obtain ⟨hServing, hLegal, hPtu, hOwn, hSlots, hNow⟩ := same
  have presented : w.presentsOwn e t.frame (.slots false take) =
      w.admChange (fun a => a.claim s.own (s.setting Settings.slotCount) s.now) := by
    rw [State.presentsOwn_claim (hServing.trans serving) (hLegal.trans legal) (by rw [hPtu, member]) code all
      (by rw [mine, hOwn]) body owner (TenureEnd.unspoiled take), hOwn, hSlots, hNow]
  rw [exec_senderTenureEnd released (Lif.endsAs_of tenure (by tauto)) tenure entry noRestart, ← isW, presented]

/-- Settles O24: the own claim with room, the own claim without, and the promotion by a peer's retract. -/
theorem grantStartsTheServerOrAsksARelease : Obligations.GrantStartsTheServerOrAsksARelease := by
  refine ⟨?_, ?_, ?_⟩
  · intro s e t own start take straps released serving legal member ordered sends tenure entry noRestart owner toEvery
    intro _ code all mine body places found kind out unwaited uncancelled slots room roster asked
    obtain ⟨w, isW⟩ : ∃ w, w = s.afterTenure e (.slots false take) := ⟨_, rfl⟩
    have frame := s.afterTenure_eq e (.slots false take)
    rw [← isW] at frame
    have same : w.serving = s.serving ∧ w.ptu = s.ptu ∧ w.own = s.own ∧ w.adm = s.adm ∧ w.psq = s.psq ∧ w.sld = s.sld ∧
        w.now = s.now ∧ w.sdram = s.sdram ∧ w.ord = s.ord ∧ w.cfw = s.cfw ∧ w.mfn = s.mfn ∧ w.ccu = s.ccu ∧
        w.wdu = s.wdu ∧ w.ntu = s.ntu := by
      rw [frame]
      exact ⟨rfl, rfl, rfl, rfl, rfl, rfl, rfl, rfl, rfl, rfl, rfl, rfl, rfl, rfl⟩
    obtain ⟨hServing, hPtu, hOwn, hAdm, hPsq, hSld, hNow, hSdram, hOrd, hCfw, hMfn, hCcu, hWdu, hNtu⟩ := same
    have releases : w.grantReleases = s.grantReleases := State.grantReleases_congr hPsq hSld
    have change : w.changed (fun a => a.claim s.own slots s.now) = (s.adm.joinRoster s.own s.now).promote slots s.now := by
      have settings : w.setting Settings.slotCount = slots := by simp only [State.setting, hSld, slots]
      rw [State.changed, hAdm, settings, hNow, Adm.claim_room _ out unwaited room]
    obtain ⟨taken, after⟩ := State.admChange_taken (s := w) (change := fun a => a.claim s.own slots s.now)
      (hServing.trans serving) (by rw [hPtu, member]) (by rw [hOwn, hAdm]; exact out) (by
        rw [change, hOwn, Adm.promote_numbers]
        exact List.mem_append_left _ (by simp [Adm.joinRoster])) (by
        rw [hAdm, Adm.claim_room _ out unwaited room]
        rfl) (by rw [releases, hAdm]; exact uncancelled)
    rw [releases, hAdm, change] at after
    have foundAsked : asked.find? (fun g => g.standing.isAt e.seq) = some own := by
      change (if s.grantReleases then s.adm.ownWith [{ kind := .release }] else s.adm.own).find? _ = _
      split
      · exact Adm.find?_ownWith places found
      · exact found
    generalize isV : w.admChange (fun a => a.claim s.own slots s.now) = v at taken after
    have vAdm : v.adm = { (s.adm.joinRoster s.own s.now).promote slots s.now with own := asked } := by rw [after]
    refine ⟨{ v with adm := { v.adm with own := v.adm.own.filter (fun g => !g.standing.isAt e.seq) } }, ?_, ?_, ?_, ?_, ?_,
      ?_, ?_, ?_, ?_, ?_, ?_⟩
    · rw [exec_ownClaim released serving legal member sends tenure entry noRestart owner code all mine body, ← isW]
      change Host.Outcome.next (settle ((w.admChange (fun a => a.claim s.own slots s.now)).report _ _ _)) = _
      rw [isV, State.report_claimDone owner (s.ending_toAll toEvery take)
        (by rw [vAdm]; exact foundAsked) kind]
    · exact (taken.congr hPsq.symm hNow.symm hSld.symm hCcu.symm hWdu.symm hNtu.symm (by rw [hPtu]) (by rw [hAdm])).to
        rfl rfl rfl rfl
    · rw [vAdm]
      rfl
    · rw [vAdm]
      rfl
    · rw [vAdm]
    · rw [after]
      exact hNow
    · rw [after]
      exact hSdram
    · rw [after]
      exact hPtu
    · rw [after]
      exact hOrd
    · rw [after]
      exact hCfw
    · rw [after]
      exact hMfn
  · intro s e t own start take straps released serving legal member ordered sends tenure entry noRestart owner toEvery
    intro _ code all mine body found kind out unwaited full
    obtain ⟨w, isW⟩ : ∃ w, w = s.afterTenure e (.slots false take) := ⟨_, rfl⟩
    have frame := s.afterTenure_eq e (.slots false take)
    rw [← isW] at frame
    obtain ⟨slots, isSlots⟩ : ∃ n, n = s.setting Settings.slotCount := ⟨_, rfl⟩
    rw [← isSlots] at full
    have change : w.changed (fun a => a.claim s.own slots s.now) = { s.adm with waiting := s.adm.waiting ++ [s.own] } := by
      have same : w.adm = s.adm ∧ w.setting Settings.slotCount = slots ∧ w.now = s.now := by
        rw [frame, isSlots]
        exact ⟨rfl, rfl, rfl⟩
      obtain ⟨hAdm, hSlots, hNow⟩ := same
      have none_ : slots - (s.adm.joinWaiting s.own).roster.length = 0 := Nat.sub_eq_zero_of_le full
      rw [State.changed, hAdm, hSlots, hNow, Adm.claim_full _ out unwaited full, Adm.promote, none_]
      simp [Adm.joinWaiting]
    have still : w.admChange (fun a => a.claim s.own slots s.now) =
        { w with adm := { s.adm with waiting := s.adm.waiting ++ [s.own] } } := by
      have mineOut : w.own = s.own := by rw [frame]; rfl
      rw [State.admChange_ungranted (.inr (.inr (by rw [change, mineOut]; exact out))), change]
    refine ⟨{ w with adm := { s.adm with
      waiting := s.adm.waiting ++ [s.own], own := s.adm.own.filter (fun g => !g.standing.isAt e.seq) } }, ?_, ?_⟩
    · rw [exec_ownClaim released serving legal member sends tenure entry noRestart owner code all mine body, ← isW,
        ← isSlots, still, State.report_claimDone (s := { w with adm := { s.adm with waiting := s.adm.waiting ++ [s.own] } })
          owner (s.ending_toAll toEvery take) found kind]
    · rw [frame]
      exact ⟨rfl, rfl, rfl, rfl, rfl, rfl, rfl, rfl, rfl, rfl, rfl⟩
  · intro s f reads serving member ordered untaken all codes empty x rosterLess room matches_ inRoster promoted uncancelled
    have lists := ordered.lists
    obtain ⟨kind, code, admits, body⟩ : ∃ kind : FrameKind, f.kind = kind.code ∧
        (kind = .admitWithdraw ∨ kind = .admitRelease) ∧ kind ≠ .admitClaim := by
      rcases codes with h | h
      · exact ⟨_, h, .inr rfl, by simp⟩
      · exact ⟨_, h, .inl rfl, by simp⟩
    have isAdmission : kind.admits := .inr admits
    have passes : ({ s with lif := s.lif.passed } : State).decidesTake f = false := by
      have serves : ({ s with lif := s.lif.passed } : State).serving = true := serving
      refine State.decidesTake_kind (kind := kind) (by rw [code]; exact isAdmission.ofCode) ?_
      rcases admits with rfl | rfl <;> simp [State.takesKind, serves]
    have heard : s.heardPtu x = s.hearing x := if_pos (reads.isPeer rfl)
    obtain ⟨v, isV⟩ : ∃ v : State, v = { s with lif := s.lif.afterFrame, ptu := s.hearing x } := ⟨_, rfl⟩
    have presented : (s.between f).present f = v.admitFrame f kind := by
      rw [State.between_untaken reads.reads untaken passes, isV, ← heard]
      exact State.present_admission isAdmission code rfl rfl
    have test : v.admitTest f kind = true := by
      rw [isV, State.admitTest_iff (by exact reads.other) isAdmission]
      refine ⟨.inl (by rw [s.hearing_state]; exact member), all, reads.legal, by rw [if_neg body]; exact empty, ?_,
        fun claim => absurd claim body⟩
      have kept := (s.heardPtu_peer x).1
      rw [heard] at kept
      rw [kept]
      exact matches_
    have waiting : s.own ∈ s.adm.waiting := List.mem_of_mem_take promoted
    have out : s.own ∉ s.adm.roster.map Prod.fst := lists.disjoint _ waiting
    have change : ∀ slots now, admitChange kind x slots now s.adm = s.adm.dropRoster x := fun slots now => by
      have once : (s.adm.dropRoster x).dropWaiting x = s.adm.dropRoster x :=
        (lists.dropRoster x).drop_unwaiting fun waits => lists.disjoint x waits inRoster
      rcases admits with rfl | rfl
      · exact lists.withdraw_eq.trans once
      · exact lists.release_eq.trans once
    obtain ⟨slots, isSlots⟩ : ∃ n, n = s.setting Settings.slotCount := ⟨_, rfl⟩
    have changed : v.changed (admitChange kind x slots s.now) = (s.adm.dropRoster x).promote slots s.now := by
      rw [isV, State.changed]
      change Adm.promote (admitChange kind x slots s.now s.adm) _ _ = _
      rw [change, isSlots]
      rfl
    have applied : v.admitFrame f kind = v.admChange (admitChange kind x slots s.now) := by
      rw [State.admitFrame_applied isAdmission test, isV, isSlots]
      rfl
    obtain ⟨taken, after⟩ := State.admChange_taken (s := v) (change := admitChange kind x slots s.now)
      (by rw [isV]; exact serving) (by rw [isV, s.hearing_state]; exact member) (by rw [isV]; exact out) (by
        rw [changed, Adm.promote_numbers, isV, isSlots]
        exact List.mem_append_right _ promoted) (by
        rw [isV]
        change (admitChange kind x slots s.now s.adm).own = s.adm.own
        rw [change]
        rfl) (by rw [isV]; exact uncancelled)
    rw [changed] at after
    refine ⟨v.admChange (admitChange kind x slots s.now), ?_, ?_, ?_, ?_, ?_, ?_, ?_, ?_, ?_, ?_, ?_⟩
    · rw [exec_frameComplete reads.released reads.engine reads.tenure reads.other reads.body, presented, applied]
    · rw [isV] at taken ⊢
      exact taken.congr rfl rfl rfl rfl rfl rfl (s.hearing_state x).symm rfl
    all_goals rw [after, isV]
    · rw [isSlots]
      rfl
    · rw [isSlots]
      rfl
    all_goals rfl

end Sys2Proof.Machine


/-! ## IMAGE-RETIRE, and the wants' timers and LINE-WANTs (R139, R143, R146, R149, R153) -/

namespace Sys2Proof.Machine

/-! ### LIF between a frame's end and its presentation -/

/-- A frame that reserves no input room changes LIF's receive queue and what it drives alone. -/
theorem State.between_lane {s : State} {f : LaneFrame} (reads : s.lif.reads = true) (untaken : s.lif.takeHeld = none)
    (free : s.reserves f = 0) : s.between f = { s with lif := { s.lif.afterFrame with
      recvQueue := (s.between f).lif.recvQueue, drove := (s.between f).lif.drove } } := by
  cases decides : ({ s with lif := s.lif.passed } : State).decidesTake f with
  | false =>
    rw [State.between_untaken reads untaken decides]
  | true =>
    have placed : s.between f = s.taking f := by
      rw [State.between, State.holdTake, if_pos decides]
      simp [State.placeTake, Lif.passed_eq _ reads, State.taking, Lif.afterFrame, State.reserves, State.serving]
    rw [placed, State.taking, free]
    simp only [Lif.afterFrame, untaken]
    rfl

theorem State.reserves_of_kind (s : State) {f : LaneFrame} (kind : f.kind ≠ FrameKind.consoleIn.code) :
    s.reserves f = 0 := by
  simp [State.reserves, kind]

/-- The sender's role in the peer table is another station's role, hearing it or not. -/
theorem State.heard_role {s t : State} {x : Nat} (sld : t.sld = s.sld) (ptu : t.ptu = s.heardPtu x) (other : x ≠ s.own) :
    t.roleOf x = (s.ptu.peer x).role := by
  have own : t.own = s.own := by simp only [State.own, sld]
  rw [State.roleOf, own, if_neg other, ptu, (s.heardPtu_peer x).2]

/-- A frame of a kind that only XCH takes is presented to it (R139, R164). -/
theorem State.present_exchange {s t : State} {f : LaneFrame} {kind : FrameKind}
    (exchanged : kind = .lineWant ∨ kind = .lineGive ∨ kind = .imageRetire) (code : f.kind = kind.code)
    (sld : t.sld = s.sld) (ptu : t.ptu = s.ptu) :
    t.present f = ({ t with ptu := s.heardPtu f.sender.toNat } : State).xchFrame f kind := by
  have notBeacon : kind.code ≠ FrameKind.beacon.code := by rcases exchanged with rfl | rfl | rfl <;> decide
  rw [State.present, if_neg (by rw [code]; exact notBeacon), State.heard_eq sld ptu, State.presentBlocks, code]
  rcases exchanged with rfl | rfl | rfl <;> rfl

/-! ### The own tenure of a frame sent to all -/

/-- LIF after a tenure whose slots were read unspoiled, of a frame sent to all (R157, R158, R165). -/
theorem State.afterTenure_slots {s : State} {e : SendEntry} {take : Bool} (sends : s.lif.isSending = true)
    (all : e.dest = toAll) : s.afterTenure e (.slots false take) = { s with
      lif := { s.lif with
        engine := .quiet, quiet := 0, sitOut := true, ltx := false, drove := .nothing, tenure := none
        sendList := s.lif.sendList.filter (fun x => x.seq ≠ e.seq)
        giveBuf := (s.afterTenure e (.slots false take)).lif.giveBuf }
      mctl := { s.mctl with waitSend := (s.afterTenure e (.slots false take)).mctl.waitSend } } := by
  have core := s.afterTenure_core e (.slots false take)
  have left : s.ending e (.slots false take) ≠ .retry := by
    rcases s.ending_toAll all take with h | h <;> simp [h]
  rw [show (s.tenureRest (.slots false take)) = s from rfl, Lif.endTenure_slots _ _ _ sends, Lif.core_eq_iff] at core
  have list := State.afterTenure_left left
  generalize isV : s.afterTenure e (.slots false take) = v at *
  have frame := s.afterTenure_eq e (.slots false take)
  rw [isV] at frame
  rw [list] at core
  calc v = { s with lif := v.lif, mctl := { s.mctl with waitSend := v.mctl.waitSend } } := frame
    _ = _ := by rw [core]

/-- An own frame of XCH's kinds, sent to all and completed unspoiled (R164). -/
theorem State.presentsOwn_exchange {s : State} {e : SendEntry} {f : LaneFrame} {kind : FrameKind} {how : TenureEnd}
    (exchanged : kind = .lineWant ∨ kind = .lineGive ∨ kind = .imageRetire) (code : f.kind = kind.code)
    (all : f.dest = toAll) (owner : e.owner ≠ .ntu) (unspoiled : TenureEnd.outcome how ≠ .spoiled) :
    s.presentsOwn e f how = s.xchFrame f kind := by
  have blocks : s.presentBlocks f = s.xchFrame f kind := by
    rw [State.presentBlocks, code]
    rcases exchanged with rfl | rfl | rfl <;> rfl
  unfold State.presentsOwn State.ownNotice
  rw [if_pos ⟨all, unspoiled⟩, blocks]
  exact if_neg (by simp [owner])

/-- Settles O45: a peer's IMAGE-RETIRE, then the station's own in uplink role. -/
theorem imageRetireEndsItsLinesWantsAndAttachment : Obligations.ImageRetireEndsItsLinesWantsAndAttachment := by
  unfold Obligations.ImageRetireEndsItsLinesWantsAndAttachment
  intro passes retired
  refine ⟨fun s f reads untaken code placed => ?_, ?_⟩
  · intro uplink
    obtain ⟨t, isT⟩ : ∃ t : State, t = { s.between f with ptu := s.heardPtu f.sender.toNat } := ⟨_, rfl⟩
    have lane := State.between_lane reads.reads untaken (s.reserves_of_kind (f := f) (by rw [code]; decide))
    have heard : s.heardPtu f.sender.toNat = s.hearing f.sender.toNat := if_pos (reads.isPeer rfl)
    have frame : t = { s with
        ptu := s.hearing f.sender.toNat
        lif := { s.lif.afterFrame with recvQueue := t.lif.recvQueue, drove := t.lif.drove } } := by
      rw [isT, heard]
      dsimp only
      rw [lane]
    have role : t.roleOf f.sender.toNat = (s.ptu.peer f.sender.toNat).role :=
      State.heard_role (by rw [frame]) (by rw [isT]) reads.other
    have state : t.ptu.state = s.ptu.state := by rw [isT]; exact s.heardPtu_state _
    refine ⟨t, t.xchFrame f .imageRetire, ?_, frame, fun serving => ?_, fun passing isUplink => ?_, fun refused => ?_⟩
    · rw [exec_frameComplete reads.released reads.engine reads.tenure reads.other reads.body, isT]
      rw [State.present_exchange (s := s) (.inr (.inr rfl)) code (by rw [lane]) (by rw [lane])]
    · have passed : ({ s with lif := s.lif.passed } : State).decidesTake f = false := by
        have serves : ({ s with lif := s.lif.passed } : State).serving = true := serving
        exact State.decidesTake_kind (kind := .imageRetire) (by rw [code]; rfl) (by simp [State.takesKind, serves])
      rw [isT, State.between_untaken reads.reads untaken passed]
    · rw [State.xchFrame_retire, if_pos ⟨by rw [state]; exact passing, role.trans isUplink⟩]
      exact State.applyRetire_retired _ _ _ (by rw [frame]; exact placed)
    · rw [State.xchFrame_retire, if_neg]
      rw [state, role]
      exact refused
  · intro s e t take straps released uplink sends tenure entry noRestart owner toEvery all code mine placed
    obtain ⟨v, isV⟩ : ∃ v, v = s.afterTenure e (.slots false take) := ⟨_, rfl⟩
    have frame := State.afterTenure_slots (take := take) ((Lif.isSending_iff _).2 sends) toEvery
    rw [← isV] at frame
    have role : v.roleOf t.frame.sender.toNat = some .uplink := by
      have isUplink : s.sld.role = .uplink := by
        cases role : s.sld.role with
        | serving => simp [State.serving, role] at uplink
        | uplink => rfl
      have same : v.sld = s.sld := by rw [frame]
      rw [State.roleOf, mine, State.own, State.own, same, if_pos rfl, isUplink]
    have unreported (u : State) : u.report e t.frame (s.ending e (.slots false take)) = u := by
      rw [State.report, owner]
      rcases s.ending_toAll toEvery take with h | h <;> rw [h] <;> rfl
    have state : v.ptu.state = s.ptu.state := by rw [frame]
    refine ⟨v, v.xchFrame t.frame .imageRetire, ?_, frame, fun passing => ?_, fun refused => ?_⟩
    · rw [exec_senderTenureEnd released (Lif.endsAs_of tenure (by tauto)) tenure entry noRestart, unreported, ← isV,
        State.presentsOwn_exchange (.inr (.inr rfl)) code all (by simp [owner]) (TenureEnd.unspoiled take)]
    · rw [State.xchFrame_retire, if_pos ⟨by rw [state]; exact passing, role⟩]
      exact State.applyRetire_retired _ _ _ (by rw [frame]; exact placed)
    · rw [State.xchFrame_retire, if_neg]
      rw [state]
      exact fun both => refused both.1

end Sys2Proof.Machine


/-! ## A want's timer, and another station's LINE-WANT (R128, R143, R146, R149) -/

namespace Sys2Proof.Machine

/-! ### The want's timer -/

theorem Want.waits_iff (w : Want) : w.waits = true ↔ w.state = .sent ∨ w.state = .riding := by
  simp [Want.waits]

/-- The timer of a want runs out (R146). -/
theorem exec_wantTimer {s : State} {place : Nat} {w : Want} {due : Time} (released : s.rstn = false)
    (placed : s.xch.wants[place]? = some w) (waits : w.state = .sent ∨ w.state = .riding) (running : w.timer = some due) :
    exec (.wantTimerExpiry place) s = .next (settle ((s.timeTo due).wantExpired w)) := by
  refine exec_of_effect released ?_
  change (match s.xch.timedWant place with
    | some w => s.expires w.timer (fun u => u.wantExpired w)
    | none => s) = _
  have timed : s.xch.timedWant place = some w := by
    rw [Xch.timedWant, placed]
    exact if_pos (w.waits_iff.2 waits)
  rw [timed]
  dsimp only
  rw [running, State.expires_some]

theorem Lpm.freeFilling_of_filling {p : Lpm} {pos : Nat} {key : Key} (filling : p.line pos = some (.filling key .none)) :
    p.freeFilling pos = { p with
      lines := p.lines.filter (fun e => e.1 ≠ pos), recency := p.recency.filter (fun q => q ≠ pos) } := by
  rw [Lpm.freeFilling, filling]
  rfl

/-! ### A LINE-WANT (R143, R149) -/

/-- The tests of R139 for a LINE-WANT of another station. -/
theorem State.xchFrame_want {s : State} {f : LaneFrame} (other : f.sender.toNat ≠ s.own) :
    s.xchFrame f .lineWant =
      if (s.ptu.state = .listen ∨ s.ptu.state = .member) ∧ f.dest = toAll ∧ f.body.length = 7 ∧
          1 ≤ field f.body 0 2 ∧ field f.body 0 2 ≤ 65534 then s.seeWant (keyOf f.body)
      else s := by
  unfold State.xchFrame imageLegal
  by_cases passes : (s.ptu.state = .listen ∨ s.ptu.state = .member) ∧ f.dest = toAll ∧
      1 ≤ field f.body 0 2 ∧ field f.body 0 2 ≤ 65534
  · rw [if_pos (by simpa [and_assoc] using passes)]
    dsimp only
    by_cases length : f.body.length = 7
    · rw [if_pos (by simpa using ⟨length, other⟩), if_pos]
      tauto
    · rw [if_neg (by simp [length]), if_neg]
      tauto
  · rw [if_neg (by simpa [and_assoc] using passes), if_neg]
    tauto

theorem Want.ride_isFor (w : Want) (due : Time) (key : Key) : (w.ride due).isFor key = w.isFor key := by
  unfold Want.ride
  split
  · simp [Want.isFor, *]
  · simp [Want.isFor, *]
  · rfl

/-- The wants once those of a key ride (R143). -/
def State.riding (s : State) (key : Key) : List Want :=
  s.xch.wants.map (fun w => if w.isFor key then w.ride s.wantDue else w)

theorem State.riding_all (s : State) (key : Key) :
    (s.riding key).all (fun w => !w.isFor key) = s.xch.wants.all (fun w => !w.isFor key) := by
  unfold State.riding
  rw [List.all_map]
  congr 1
  funext w
  dsimp only [Function.comp]
  split
  · rw [Want.ride_isFor]
  · rfl

theorem State.rideWants_frame (s : State) (key : Key) : s.rideWants key = { s with
    lif := { s.lif with sendList := (s.rideWants key).lif.sendList, giveBuf := (s.rideWants key).lif.giveBuf }
    mctl := { s.mctl with waitSend := (s.rideWants key).mctl.waitSend }
    xch := { s.xch with wants := s.riding key } } := by
  obtain ⟨l, g, w, frame⟩ := s.withdrawWants_onlyWithdraws (s.xch.wants.filter (fun w => w.isFor key))
  unfold State.rideWants
  rw [frame]
  rfl

/-- The conditions of R149 on XCH's own lists. -/
def Xch.giveFree (x : Xch) (key : Key) : Prop :=
  (∀ w ∈ x.wants, w.isFor key = false) ∧ x.gives.length < 4 ∧ ∀ g ∈ x.gives, g.key ≠ key

theorem Xch.giveFree_iff (x : Xch) (key : Key) : x.giveFree key ↔
    (x.wants.all (fun w => !w.isFor key) && x.gives.length < 4 && x.gives.all (fun g => g.key ≠ key)) = true := by
  simp [Xch.giveFree, and_assoc]

theorem Lpm.find_clean {p : Lpm} {key k : Key} {pos pins : Nat} {doomed : Bool}
    (found : p.find key = some (pos, .clean k pins doomed)) : k = key ∧ doomed = false := by
  have has := List.find?_some found
  simpa [Line.hasKey] using has

/-- No give is queued where the line is not CLEAN or the lists do not allow it. -/
theorem State.queueGive_none {s : State} {key : Key}
    (no : (∀ pos pins, s.lpm.find key ≠ some (pos, .clean key pins false)) ∨ ¬ s.xch.giveFree key) : s.queueGive key = s := by
  unfold State.queueGive
  split
  next pos k pins doomed found =>
    obtain ⟨rfl, rfl⟩ := Lpm.find_clean found
    rcases no with unclean | unfree
    · exact absurd found (unclean pos pins)
    · exact if_neg fun free => unfree ((s.xch.giveFree_iff k).2 free)
  next => rfl

/-- The give of a CLEAN line, which is pinned (R149). -/
theorem State.queueGive_clean {s : State} {key : Key} {pos pins : Nat}
    (found : s.lpm.find key = some (pos, .clean key pins false)) (line : s.lpm.line pos = some (.clean key pins false))
    (free : s.xch.giveFree key) : s.queueGive key = { s with
      lpm := { s.lpm.put pos (.clean key (pins + 1) false) with recency := s.lpm.recency.filter (fun q => q ≠ pos) }
      xch := { s.xch with gives := s.xch.gives ++ [{ key := key, line := pos }] } } := by
  unfold State.queueGive
  rw [found]
  dsimp only
  rw [if_pos ((s.xch.giveFree_iff key).1 free)]
  simp [Lpm.pin, line]

/-- Settles O43: the want's timer by its tries, and the LINE-WANT by the tests it passes. -/
theorem wantsRetryFailAndRideAndGivesAreQueued : Obligations.WantsRetryFailAndRideAndGivesAreQueued := by
  refine ⟨fun s place w due released placed waits running => ⟨fun below => ?_, fun reached filling => ?_⟩, ?_⟩
  · rw [exec_wantTimer released placed waits running, State.wantExpired, if_pos below]
    rfl
  · intro v waitsOn answers
    have expires : (s.timeTo due).wantExpired w = v.wantEnded w.key false := by
      rw [State.wantExpired, if_neg (by omega)]
      have freed := Lpm.freeFilling_of_filling filling
      change State.wantEnded { s.timeTo due with
        lpm := s.lpm.freeFilling w.line
        xch := { s.xch with wants := s.xch.wants.filter (fun v => v.line ≠ w.line) } } w.key false = _
      rw [freed]
    obtain ⟨idle, fails⟩ := v.wantEnded_failed w.key
    have answer {u : State} (known : v.wantEnded w.key false = u) : answers u := by
      rw [← known, ← expires]
      exact exec_wantTimer released placed waits running
    refine ⟨fun noRequest => answer (idle noRequest), fun r request => ?_⟩
    obtain ⟨passes, ends⟩ := fails r request
    exact ⟨fun none_ => answer (passes none_), fun before st rest steps early waiting =>
      ⟨_, answer rfl, ends before st rest steps early waiting⟩⟩
  · intro s f reads serving untaken code key due free passes
    have decides : ({ s with lif := s.lif.passed } : State).decidesTake f = false := by
      have serves : ({ s with lif := s.lif.passed } : State).serving = true := serving
      exact State.decidesTake_kind (kind := .lineWant) (by rw [code]; rfl) (by simp [State.takesKind, serves])
    have heard : s.heardPtu f.sender.toNat = s.hearing f.sender.toNat := if_pos (reads.isPeer rfl)
    obtain ⟨t, isT⟩ : ∃ t : State, t = { s with ptu := s.hearing f.sender.toNat, lif := s.lif.afterFrame } := ⟨_, rfl⟩
    have state : t.ptu.state = s.ptu.state := by rw [isT]; exact s.hearing_state _
    have runs : exec (.frameCompleteUnspoiled f 0) s = .next (settle (t.xchFrame f .lineWant)) := by
      rw [exec_frameComplete reads.released reads.engine reads.tenure reads.other reads.body,
        State.between_untaken reads.reads untaken decides, isT, ← heard,
        State.present_exchange (s := s) (t := { s with lif := s.lif.afterFrame }) (.inl rfl) code rfl rfl]
    rw [State.xchFrame_want (by rw [isT]; exact reads.other), state] at runs
    refine ⟨fun refused => ?_, fun passing => ?_⟩
    · rw [runs, if_neg refused, isT]
    · rw [if_pos passing] at runs
      have frames := t.seeWant_frames key
      have ride := t.rideWants_frame key
      have sees : t.seeWant key = if s.ptu.state = .member then (t.rideWants key).queueGive key else t.rideWants key := by
        have serves : t.serving = true := by rw [isT]; exact serving
        unfold State.seeWant
        dsimp only
        rw [serves, state]
        exact if_congr (by simp) rfl rfl
      generalize t.rideWants key = r at ride sees
      have lists : r.xch.giveFree key ↔ free := by
        have wants : r.xch.wants = t.riding key := by rw [ride]
        have gives : r.xch.gives = s.xch.gives := by rw [ride, isT]
        rw [Xch.giveFree_iff, wants, gives, State.riding_all, isT]
        exact (s.xch.giveFree_iff key).symm
      have pool : r.lpm = s.lpm := by rw [ride, isT]
      have none_ : s.ptu.state = .listen ∨ (∀ pos pins, s.lpm.find key ≠ some (pos, .clean key pins false)) ∨ ¬ free →
          t.seeWant key = r := by
        intro no
        rw [sees]
        split
        next member =>
          refine State.queueGive_none ?_
          rcases no with listen | unclean | unfree
          · rw [member] at listen
            cases listen
          · exact .inl (by rw [pool]; exact unclean)
          · exact .inr fun isFree => unfree (lists.1 isFree)
        next => rfl
      have given : ∀ pos pins, s.ptu.state = .member → s.lpm.find key = some (pos, .clean key pins false) →
          s.lpm.line pos = some (.clean key pins false) → free → t.seeWant key = { r with
            lpm := { s.lpm.put pos (.clean key (pins + 1) false) with recency := s.lpm.recency.filter (fun q => q ≠ pos) }
            xch := { r.xch with gives := s.xch.gives ++ [{ key := key, line := pos }] } } := by
        intro pos pins member found line isFree
        have gives : r.xch.gives = s.xch.gives := by rw [ride, isT]
        rw [sees, if_pos member, State.queueGive_clean (by rw [pool]; exact found) (by rw [pool]; exact line)
          (lists.2 isFree), pool, gives]
      have either : t.seeWant key = r ∨ ∃ lines recency gives, t.seeWant key = { r with
          lpm := { s.lpm with lines := lines, recency := recency }, xch := { r.xch with gives := gives } } := by
        by_cases no : s.ptu.state = .listen ∨ (∀ pos pins, s.lpm.find key ≠ some (pos, .clean key pins false)) ∨ ¬ free
        · exact .inl (none_ no)
        · rw [sees]
          split
          · unfold State.queueGive
            split
            · split
              · split
                next q pinned =>
                  right
                  rw [pool] at pinned
                  unfold Lpm.pin at pinned
                  split at pinned <;> cases pinned <;> exact ⟨_, _, _, rfl⟩
                next => exact .inl rfl
              · exact .inl rfl
            · exact .inl rfl
          · exact .inl rfl
      refine ⟨t.seeWant key, runs, ?_, ⟨?_, ?_, ?_⟩, fun pos pins member found line isFree => ?_, fun no => ?_, ?_⟩
      · have wants : (t.seeWant key).xch.wants = t.riding key := by
          rcases either with h | ⟨_, _, _, h⟩ <;> rw [h, ride]
        rw [wants, isT]
        rfl
      · rw [isT] at frames ⊢
        exact frames.leaves
      · rw [isT] at frames ⊢
        exact frames.tenure
      · rw [isT] at frames ⊢
        exact frames.stays
      · rw [given pos pins member found line isFree]
        refine ⟨rfl, ?_, rfl, fun q other => ?_⟩
        · change (s.lpm.put pos _).line pos = _
          simp
        · change (s.lpm.put pos _).line q = _
          simp [other]
      · rw [none_ no, pool]
        exact ⟨by rw [ride, isT], rfl⟩
      · rcases either with h | ⟨_, _, _, h⟩ <;> rw [h, ride, isT]

end Sys2Proof.Machine


/-! ## The uplink line (R205, R206, R208) -/

namespace Sys2Proof.Machine

/-! ### Units from the computer -/

/-- Without a further sync byte the hunt leaves nothing (R205). -/
theorem State.hunt_nothing (ended : Bool) (n : Nat) {bytes : Bytes} (noSync : (165 : Byte) ∉ bytes) (s : State) :
    State.hunt ended n bytes s = { s with upb := { s.upb with rx := [] } } := by
  induction n generalizing bytes with
  | zero => rfl
  | succ n ih =>
    cases bytes with
    | nil => rfl
    | cons b bs =>
      have other : b ≠ syncByte := fun same => noSync (by rw [same]; exact List.mem_cons_self)
      rw [State.hunt, if_neg other]
      exact ih fun later => noSync (List.mem_cons_of_mem _ later)

/-- What follows the sync byte of a unit decides (R205). -/
theorem State.hunt_sync (ended : Bool) (part : Bytes) (s : State) :
    State.hunt ended (165 :: part).length (165 :: part) s = (match readUnit part with
      | .partly =>
        if ended then State.hunt ended part.length part s else { s with upb := { s.upb with rx := 165 :: part } }
      | .bad => State.hunt ended part.length part s
      | .whole dest kind body rest => State.hunt ended part.length rest (s.takeUnit dest kind body)) := by
  rw [List.length_cons, State.hunt]
  exact if_pos rfl

theorem readUnit_partly {part : Bytes} (short : part.length < 4 ∨ (field part 2 2 ≤ 2064 ∧ part.length < 6 + field part 2 2)) :
    readUnit part = .partly := by
  unfold readUnit
  dsimp only
  split
  · rfl
  next enough =>
    obtain ⟨fits, open_⟩ := short.resolve_left enough
    rw [if_neg (by omega), if_pos open_]

theorem readUnit_long {part : Bytes} (enough : 4 ≤ part.length) (long : 2064 < field part 2 2) : readUnit part = .bad := by
  unfold readUnit
  dsimp only
  rw [if_neg (by omega), if_pos long]

theorem readUnit_badCheck {part : Bytes} (fits : field part 2 2 ≤ 2064) (whole : part.length = 6 + field part 2 2)
    (differs : field part (4 + field part 2 2) 2 ≠ (crc16 (part.take (4 + field part 2 2))).toNat) :
    readUnit part = .bad := by
  unfold readUnit
  dsimp only
  rw [if_neg (by omega), if_neg (by omega), if_neg (by omega), if_neg differs]

/-- A unit's bytes behind its sync byte, before their check value. -/
def unitContent (dest kind : Byte) (body : Bytes) : Bytes := [dest, kind] ++ be 2 body.length ++ body

theorem readUnit_whole (dest kind : Byte) {body : Bytes} (fits : body.length ≤ 2064) :
    readUnit (unitContent dest kind body ++ be 2 (crc16 (unitContent dest kind body)).toNat) =
      .whole dest kind body [] := by
  obtain ⟨crc, isCrc⟩ : ∃ c, c = (crc16 (unitContent dest kind body)).toNat := ⟨_, rfl⟩
  have small : crc < 256 ^ 2 := isCrc ▸ (crc16 _).isLt
  have length : (unitContent dest kind body).length = 4 + body.length := by
    simp [unitContent, be_length]
    omega
  have len : field (unitContent dest kind body ++ be 2 crc) 2 2 = body.length :=
    field_of_append (before := [dest, kind]) (after := body ++ be 2 crc) (by simp [unitContent]) rfl (by omega)
  have check : field (unitContent dest kind body ++ be 2 crc) (4 + body.length) 2 = crc :=
    field_of_append (after := []) (by simp) length small
  have content : (unitContent dest kind body ++ be 2 crc).take (4 + body.length) = unitContent dest kind body :=
    List.take_left' length
  have total : (unitContent dest kind body ++ be 2 crc).length = 6 + body.length := by
    rw [List.length_append, length, be_length]
    omega
  have rest : (unitContent dest kind body ++ be 2 crc).drop (6 + body.length) = [] :=
    List.drop_of_length_le (by omega)
  have bodyRead : ((unitContent dest kind body ++ be 2 crc).drop 4).take body.length = body := by
    rw [show unitContent dest kind body ++ be 2 crc = ([dest, kind] ++ be 2 body.length) ++ (body ++ be 2 crc) by
      simp [unitContent], List.drop_left' (by simp [be_length]), List.take_left]
  rw [← isCrc, readUnit]
  rw [len, total, if_neg (by omega), if_neg (by omega), if_neg (by omega), content, check, if_pos isCrc, rest, bodyRead]
  rfl

theorem FrameKind.ofCode_code (k : FrameKind) : FrameKind.ofCode k.code = some k := by
  cases k <;> rfl

theorem FrameKind.code_of_ofCode {c : Byte} {k : FrameKind} (found : FrameKind.ofCode c = some k) : c = k.code := by
  have same : k.code = c := by simpa using List.find?_some found
  exact same.symm

theorem FrameKind.code_range (k : FrameKind) : (2 ≤ k.code.toNat ∧ k.code.toNat ≤ 12) ↔ k ≠ .beacon := by
  cases k <;> decide

/-- A unit joins the outbound queue where its destination and kind pass and the queue has room. -/
theorem State.takeUnit_passes {s : State} {dest : Byte} {k : FrameKind} {body : Bytes} (kind : k ≠ .beacon)
    (passes : dest ≠ 0 ∧ dest.toNat < 64 ∧ dest.toNat ≠ s.own ∧ s.upb.outq.length < 16) : s.takeUnit dest k.code body =
      { s with upb := { s.upb with outq := s.upb.outq ++ [{ dest := dest, kind := k, body := body }] } } := by
  have range := (FrameKind.code_range k).2 kind
  rw [State.takeUnit, FrameKind.ofCode_code]
  exact if_pos (by simpa [State.unitTest, passes, range] using passes.1)

theorem State.takeUnit_dropped {s : State} {dest kind : Byte} {body : Bytes}
    (fails : ¬ (dest ≠ 0 ∧ dest.toNat < 64 ∧ dest.toNat ≠ s.own ∧ s.upb.outq.length < 16) ∨ kind = 1 ∨
      ∀ k : FrameKind, kind ≠ k.code) : s.takeUnit dest kind body = s := by
  unfold State.takeUnit
  split
  next k found =>
    refine if_neg fun test => ?_
    simp only [State.unitTest, Bool.and_eq_true, decide_eq_true_eq] at test
    rcases fails with no | rfl | no
    · exact no (by tauto)
    · exact absurd test.1.1.2 (by decide)
    · exact no k (FrameKind.code_of_ofCode found)
  next => rfl

/-- The characters of the computer, in uplink role and outside HALTED-SETUP. -/
theorem State.uplinkChars_of {s : State} (uplink : s.serving = false) (state : s.ptu.state ≠ .haltedSetup) (bytes : Bytes)
    (ended : Bool) : s.uplinkChars bytes ended = s.hunt ended (s.upb.rx ++ bytes).length (s.upb.rx ++ bytes) := by
  rw [State.uplinkChars, if_pos (by simp [State.upbReceives, uplink, state])]

/-! ### Frames for the computer -/

/-- The unit that a frame handed over becomes (R172). -/
def unitOf (g : LaneFrame) : InUnit :=
  { sender := byte g.sender.toNat, dest := g.dest, kind := g.kind, body := g.body }

/-- In uplink role the frames handed over join the inbound queue in their order (R172). -/
theorem State.handOvers_uplink (n : Nat) {s : State} (uplink : s.serving = false) : State.handOvers n s = { s with
    lif := { s.lif with recvQueue := s.lif.recvQueue.drop n }
    upb := { s.upb with inq := s.upb.inq ++ (s.lif.recvQueue.take n).map unitOf } } := by
  induction n generalizing s with
  | zero => simp [State.handOvers]
  | succ n ih =>
    rw [State.handOvers]
    cases queue : s.lif.recvQueue with
    | nil =>
      have idle : s.handOver = s := by rw [State.handOver, queue]
      rw [idle, ih uplink, queue]
      simp
    | cons f rest =>
      have hands : s.handOver = { s with
          lif := { s.lif with recvQueue := rest }, upb := { s.upb with inq := s.upb.inq ++ [unitOf f] } } := by
        rw [State.handOver, queue]
        exact if_neg (by simp [uplink])
      rw [hands, ih (s := { s with
        lif := { s.lif with recvQueue := rest }, upb := { s.upb with inq := s.upb.inq ++ [unitOf f] } }) uplink]
      simp

/-- What is presented of a frame leaves the inbound queue and the unit being sent. -/
theorem State.present_inbound (s : State) (f : LaneFrame) :
    (s.present f).upb.inq = s.upb.inq ∧ (s.present f).upb.tx = s.upb.tx := by
  have gives (t : State) (key : Key) : (t.suppressComputerGives key).upb.inq = t.upb.inq ∧
      (t.suppressComputerGives key).upb.tx = t.upb.tx := by
    unfold State.suppressComputerGives
    split <;> exact ⟨rfl, rfl⟩
  have exchanged (t : State) (kind : FrameKind) :
      (t.xchFrame f kind).upb.inq = t.upb.inq ∧ (t.xchFrame f kind).upb.tx = t.upb.tx := by
    unfold State.xchFrame
    split
    · split
      · split <;> simp
      · split
        · unfold State.seeGive
          rw [(gives _ _).1, (gives _ _).2]
          simp
        · exact ⟨rfl, rfl⟩
      · split <;> simp
      · exact ⟨rfl, rfl⟩
    · exact ⟨rfl, rfl⟩
  unfold State.present State.presentBlocks
  dsimp only
  split
  · split
    · split <;> simp
    · simp
  · split
    · simp
    · simp
    · simp
    · simpa using exchanged (s.heard f.sender.toNat) .lineWant
    · simpa using exchanged (s.heard f.sender.toNat) .lineGive
    · simpa using exchanged (s.heard f.sender.toNat) .imageRetire
    · simp

/-- The frames that a station in uplink role takes when sent to all (R170). -/
def FrameKind.takenOfAll : List FrameKind :=
  [.beacon, .admitClaim, .admitWithdraw, .admitRelease, .notice, .lineWant, .imageRetire]

/-- The frames that it takes when sent to itself (R170). -/
def FrameKind.takenOfOne : List FrameKind := [.order, .reply, .consoleOut, .consoleIn]

theorem FrameKind.code_mem {c : Byte} {k : FrameKind} (found : FrameKind.ofCode c = some k) (l : List FrameKind) :
    (∃ j ∈ l, c = j.code) ↔ k ∈ l := by
  constructor
  · rintro ⟨j, member, rfl⟩
    rw [FrameKind.ofCode_code] at found
    cases found
    exact member
  · exact fun member => ⟨k, member, FrameKind.code_of_ofCode found⟩

/-- The tests of a frame at a station in uplink role (R170, R171, R208). -/
theorem State.decidesTake_uplink {s : State} {f : LaneFrame} (uplink : s.serving = false)
    (legal : f.sender ≠ 0 ∧ f.sender ≠ 63) : s.decidesTake f = true ↔
      s.ptu.state = .member ∧
      ((f.dest = toAll ∧ ∃ k ∈ FrameKind.takenOfAll, f.kind = k.code) ∨
        (f.dest.toNat = s.own ∧ ∃ k ∈ FrameKind.takenOfOne, f.kind = k.code)) ∧
      s.lif.recvQueue.length < 8 ∧ s.upb.inq.length + s.lif.recvQueue.length + s.upbListed < 32 := by
  have room : 1 ≤ s.upbFree ↔ s.upb.inq.length + s.lif.recvQueue.length + s.upbListed < 32 := by
    unfold State.upbFree State.upbListed
    omega
  cases found : FrameKind.ofCode f.kind with
  | none =>
    have coded (k : FrameKind) : f.kind ≠ k.code := fun same => by
      rw [same, FrameKind.ofCode_code] at found
      cases found
    simp [State.decidesTake, found, coded]
  | some kind =>
    rw [FrameKind.code_mem found, FrameKind.code_mem found, ← room]
    simp only [State.decidesTake, found, State.takesIn, State.kindTest, uplink, legal, Bool.and_eq_true, ne_eq,
      not_false_eq_true, decide_true, if_false, Bool.false_and, Bool.and_false, Bool.or_false, decide_eq_true_eq,
      Bool.false_eq_true, and_true]
    cases kind <;> simp [State.takesKind, FrameKind.takenOfAll, FrameKind.takenOfOne, uplink] <;> tauto

/-- What a frame's end leaves at a station in uplink role, whether it takes the frame or not. -/
theorem State.uplinkPasses {s t : State} {f : LaneFrame} (reads : s.Reads f) (handovers : Nat) (uplink : s.serving = false)
    (untaken : s.lif.takeHeld = none) (between : s.between f = t) (sld : t.sld = s.sld)
    (core : t.lif.core = ({ s.lif.afterFrame with recvQueue := t.lif.recvQueue, drove := t.lif.drove } : Lif).core)
    (upb : t.upb = s.upb) (sdram : t.sdram = s.sdram) (pending : t.pending = s.pending) :
    ∃ u, exec (.frameCompleteUnspoiled f handovers) s = .next (settle u) ∧
      u.lif.recvQueue = t.lif.recvQueue.drop handovers ∧
      u.upb.inq = s.upb.inq ++ (t.lif.recvQueue.take handovers).map unitOf ∧
      u.lif.drove = t.lif.drove ∧ u.lif.engine = .quiet ∧ u.lif.takeHeld = none ∧ u.lif.tenure = none ∧
      u.upb.tx = s.upb.tx ∧ u.sdram = s.sdram ∧ u.pending = s.pending := by
  have runs := reads.exec handovers
  change exec _ s = .next (settle (State.handOvers handovers ((s.between f).present f))) at runs
  rw [between] at runs
  obtain ⟨-, -, -, pSld, pSdram, -, pPending⟩ := t.present_keeps f
  obtain ⟨inq, tx⟩ := t.present_inbound f
  have lane := (Lif.core_eq_iff _ _).1 ((t.present_laneCore f).trans core)
  have role : (t.present f).serving = false := by
    rw [State.serving, pSld, sld]
    exact uplink
  have queue : (t.present f).lif.recvQueue = t.lif.recvQueue := by rw [lane]
  rw [State.handOvers_uplink handovers role] at runs
  refine ⟨_, runs, ?_, ?_, ?_, ?_, ?_, ?_, ?_, ?_, ?_⟩
  · rw [queue]
  · dsimp only
    rw [inq, upb, queue]
  · dsimp only
    rw [lane]
  · dsimp only
    rw [lane]
    rfl
  · dsimp only
    rw [lane]
    exact untaken
  · dsimp only
    rw [lane]
    exact reads.tenure
  · exact tx.trans (by rw [upb])
  · exact pSdram.trans sdram
  · exact pPending.trans pending

/-- Settles O60: units from the computer, then the pin and the line to it, then the lane's frames. -/
theorem uplinkUnitsPassBothWays : Obligations.UplinkUnitsPassBothWays := by
  intro s released uplink received
  have chars {c : Instr} {bytes : Bytes} {ended : Bool} {u : State} (effect : c.effect s = s.uplinkChars bytes ended)
      (plain : c.isPlain = true) (state : s.ptu.state ≠ .haltedSetup)
      (known : s.hunt ended (s.upb.rx ++ bytes).length (s.upb.rx ++ bytes) = u) : exec c s = .next (settle u) :=
    exec_of_effect released ((effect.trans (State.uplinkChars_of uplink state bytes ended)).trans known) plain
  refine ⟨fun state empty dest kind body fits => ?_, fun state bytes part joined noSync => ?_, fun b sending => ?_, ?_, ?_,
    fun u rest idle urts queue state => ?_, fun f handovers reads untaken => ?_⟩
  · intro content passes whole
    have hunts : s.hunt false (s.upb.rx ++ 165 :: (content ++ be 2 (crc16 content).toNat)).length
        (s.upb.rx ++ 165 :: (content ++ be 2 (crc16 content).toNat)) =
        { s.takeUnit dest kind body with upb := { (s.takeUnit dest kind body).upb with rx := [] } } := by
      rw [empty, List.nil_append, State.hunt_sync]
      change (match readUnit (unitContent dest kind body ++ be 2 (crc16 (unitContent dest kind body)).toNat) with
        | .partly => _
        | .bad => _
        | .whole dest kind body rest => _) = _
      rw [readUnit_whole dest kind fits]
      exact State.hunt_nothing false _ (by simp) _
    refine ⟨fun k code notBeacon pass => ?_, fun fails => ?_⟩
    · refine chars rfl rfl state (hunts.trans ?_)
      rw [code, State.takeUnit_passes notBeacon pass]
    · refine chars rfl rfl state (hunts.trans ?_)
      rw [State.takeUnit_dropped fails]
  · intro len
    have nothing (ended : Bool) := State.hunt_nothing ended part.length noSync s
    refine ⟨fun enough long => ?_, fun fits whole differs => ?_, fun short => ⟨?_, ?_, ?_⟩⟩
    · refine chars rfl rfl state ?_
      rw [joined, State.hunt_sync, readUnit_long enough long]
      exact nothing false
    · refine chars rfl rfl state ?_
      rw [joined, State.hunt_sync, readUnit_badCheck fits whole differs]
      exact nothing false
    · refine chars rfl rfl state ?_
      rw [joined, State.hunt_sync, readUnit_partly short]
      rfl
    · refine chars rfl rfl state ?_
      rw [joined, State.hunt_sync, readUnit_partly short]
      exact nothing true
    · refine chars rfl rfl state ?_
      rw [joined, State.hunt_sync, readUnit_partly short]
      exact nothing true
  · refine exec_of_effect released ?_
    change s.unitSent = _
    rw [State.unitSent, if_pos (by simp [sending])]
  · exact ends_released _ _ released
  · exact ends_released _ _ released
  · intro content
    rw [State.startUnit, if_pos (by rcases state with h | h | h <;> simp [uplink, idle, urts, h]), queue]
    rfl
  · intro kinds toThis toEvery takes unit passes
    have decides : ({ s with lif := s.lif.passed } : State).decidesTake f = true ↔ takes :=
      State.decidesTake_uplink (s := { s with lif := s.lif.passed }) uplink reads.sender_legal
    have free : s.reserves f = 0 := by simp [State.reserves, uplink]
    refine ⟨fun isTaken => ?_, fun notTaken => ?_⟩
    · have placed : s.between f = s.taking f := by
        rw [State.between, State.holdTake, if_pos (decides.2 isTaken)]
        simp [State.placeTake, Lif.passed_eq _ reads.reads, State.taking, Lif.afterFrame, State.reserves, State.serving]
      refine State.uplinkPasses reads handovers uplink untaken placed rfl ?_ rfl rfl rfl
      simp [State.taking, Lif.core, Lif.afterFrame, untaken]
    · have placed := State.between_untaken reads.reads untaken (by
        rw [← Bool.not_eq_true, decides]
        exact notTaken)
      exact State.uplinkPasses reads handovers uplink untaken placed rfl rfl rfl rfl rfl

end Sys2Proof.Machine


/-! ## A lane receive write completes (R110, R128, R145) -/

namespace Sys2Proof.Machine

/-- The request over, and its bytes in their line. -/
def State.lineWritten (s : State) (pos : Nat) (data : Bytes) : State :=
  { s.requestOver with sdram := Memory.writeBytes s.sdram (s.lineAt pos) (data.take 2048) }

theorem exec_laneReceiveWriteComplete {s : State} {pos : Nat} {data : Bytes} {rep : Bool} (released : s.rstn = false)
    (current : s.mctl.current = some { req := .receive pos data, reported := rep }) :
    exec .laneReceiveWriteComplete s =
      if s.lineFits pos then
        .next (settle (if rep then (s.lineWritten pos data).fillEnded pos else s.lineWritten pos data))
      else .fault .noSuchAddress := by
  rw [← completes_released (s.lineFits pos)
    (fun t => if rep then (t.lineWritten pos data).fillEnded pos else t.lineWritten pos data) released]
  change execLaneReceiveWriteComplete s = _
  simp only [execLaneReceiveWriteComplete, current]
  rfl

/-- The bytes of a line written whole, and every byte outside it. -/
theorem State.lineWritten_stored {s : State} {pos : Nat} {data : Bytes} (length : data.length = 2048)
    (wf : Memory.wf s.sdram) :
    (∀ a, s.lineAt pos ≤ a → a < s.lineAt pos + 2048 →
      Memory.read (s.lineWritten pos data).sdram a = data.getD (a - s.lineAt pos) 0) ∧
    (∀ a, a < s.lineAt pos ∨ s.lineAt pos + 2048 ≤ a →
      Memory.read (s.lineWritten pos data).sdram a = Memory.read s.sdram a) := by
  have whole : data.take 2048 = data := List.take_of_length_le (by omega)
  unfold State.lineWritten
  rw [whole]
  refine ⟨fun a low high => ?_, fun a outside => ?_⟩
  · dsimp only
    rw [Memory.read_writeBytes _ _ _ _ wf, if_pos ⟨low, by omega⟩]
  · dsimp only
    rw [Memory.read_writeBytes _ _ _ _ wf, if_neg (by omega)]

/-! ### The want's end -/

theorem Lpm.fillDone_inFlight {p : Lpm} {pos : Nat} {key : Key} (line : p.line pos = some (.filling key .inFlight)) :
    p.fillDone pos = (.complete, (p.put pos (.clean key 0 false)).toTail pos) := by
  rw [Lpm.fillDone, line]

theorem Lpm.fillDone_freePending {p : Lpm} {pos : Nat} {key : Key} (line : p.line pos = some (.filling key .freePending)) :
    p.fillDone pos = (.void, p.free pos) := by
  rw [Lpm.fillDone, line]

section

variable {s : State} {pos : Nat} {w : Want} {buf : Fin 4} (found : s.xch.wants.find? (fun v => v.line = pos) = some w)
include found

/-- The write of a FILLING line ends its LANDING want (R145). -/
theorem State.fillEnded_landing {key : Key} (line : s.lpm.line pos = some (.filling key .inFlight))
    (landing : w.state = .landing buf) : s.fillEnded pos = ({ s with
      lpm := (s.lpm.put pos (.clean key 0 false)).toTail pos
      xch := { s.xch with
        wants := s.xch.wants.filter (fun v => v.line ≠ pos), fillBufs := s.xch.fillBufs.set buf none } } : State).wantEnded
        w.key true := by
  have place : w.line = pos := by simpa using List.find?_some found
  unfold State.fillEnded
  rw [Lpm.fillDone_inFlight line]
  dsimp only
  rw [found]
  dsimp only [Xch.endWant]
  rw [landing, place]

/-- The state once the write of a line to be freed has ended its VOID want (R145). -/
def State.voidEnded (s : State) (pos : Nat) (buf : Fin 4) : State := { s with
  lpm := { s.lpm with
    lines := s.lpm.lines.filter (fun e => e.1 ≠ pos), recency := s.lpm.recency.filter (fun q => q ≠ pos) }
  xch := { s.xch with
    wants := s.xch.wants.filter (fun v => v.line ≠ pos), fillBufs := s.xch.fillBufs.set buf none } }

theorem State.fillEnded_void {key : Key} {cause : VoidCause} (line : s.lpm.line pos = some (.filling key .freePending))
    (void : w.state = .void buf cause) : s.fillEnded pos =
      if cause = .retired then (s.voidEnded pos buf).wantEnded w.key false else s.voidEnded pos buf := by
  have place : w.line = pos := by simpa using List.find?_some found
  unfold State.fillEnded
  rw [Lpm.fillDone_freePending line]
  dsimp only
  rw [found]
  dsimp only [Xch.endWant]
  rw [void, place]
  cases cause <;> rfl

end

/-- A want's fill as MFN takes it (R128): its steps that waited on the key are looked up again. -/
theorem State.wantEnded_filled (s : State) (key : Key) :
    (s.mfn.request = none → s.wantEnded key true = s) ∧
    ∀ r, s.mfn.request = some r → s.wantEnded key true = { s with mfn := { s.mfn with request := some { r with
      blocked := false
      steps := r.steps.map (fun st =>
        if st.state = .waiting ∧ s.mfn.key st.line = key then s.lookupStep st else st) } } } := by
  refine ⟨fun idle => by rw [State.wantEnded, idle], fun r request => ?_⟩
  rw [State.wantEnded, request]
  simp [State.setRequest]

/-- A lookup reads the pool and the attachment's keys alone. -/
theorem State.LookedUpAgain.congr {s s' : State} {old st : XferStep} (again : s.LookedUpAgain old st)
    (lpm : s'.lpm = s.lpm) (keys : ∀ n, s'.mfn.key n = s.mfn.key n) : s'.LookedUpAgain old st := by
  obtain ⟨⟨overlay, merge, cache, filling, absent⟩, place⟩ := again
  refine ⟨⟨by rw [lpm]; exact overlay, ?_, ?_, ?_, ?_⟩, place⟩
  all_goals
    rw [keys, lpm]
    assumption

/-- Settles O31: the bytes of the line, then the want's end by its line and its state. -/
theorem receiveWriteFillsTheLine : Obligations.ReceiveWriteFillsTheLine := by
  intro s pos data key w buf released current fits length wf found base stored xch waits answers
  obtain ⟨t, isT⟩ : ∃ t, t = s.lineWritten pos data := ⟨_, rfl⟩
  have isStored : stored t := isT ▸ State.lineWritten_stored length wf
  have answer {u : State} (known : t.fillEnded pos = u) : answers u := by
    rw [← known, isT]
    exact (exec_laneReceiveWriteComplete released current).trans (if_pos ((s.lineFits_iff pos).2 fits))
  have same : t.lpm = s.lpm ∧ t.xch = s.xch ∧ t.mfn = s.mfn := by
    rw [isT]
    exact ⟨rfl, rfl, rfl⟩
  obtain ⟨sameLpm, sameXch, sameMfn⟩ := same
  have foundT : t.xch.wants.find? (fun v => v.line = pos) = some w := by rw [sameXch]; exact found
  refine ⟨fun line landing => ?_, fun cause line void => ?_⟩
  · have filled := State.fillEnded_landing foundT (by rw [sameLpm]; exact line) landing
    generalize isV : ({ t with
      lpm := (t.lpm.put pos (.clean key 0 false)).toTail pos
      xch := { t.xch with
        wants := t.xch.wants.filter (fun v => v.line ≠ pos), fillBufs := t.xch.fillBufs.set buf none } } : State) = v at filled
    obtain ⟨idle, looks⟩ := v.wantEnded_filled w.key
    have request : v.mfn.request = s.mfn.request := by rw [← isV, ← sameMfn]
    have frame : ∀ m : Mfn, ({ v with mfn := m } : State) = { s with
        sdram := t.sdram
        mctl := { s.mctl with current := none }
        lpm := { s.lpm with lines := v.lpm.lines, recency := v.lpm.recency }
        xch := xch
        mfn := m } := by
      intro m
      rw [← isV, isT]
      rfl
    obtain ⟨m, ended⟩ : ∃ m, v.wantEnded w.key true = { v with mfn := m } := by
      cases has : v.mfn.request with
      | none => exact ⟨v.mfn, idle has⟩
      | some r => exact ⟨_, looks r has⟩
    have pool : v.lpm = (s.lpm.put pos (.clean key 0 false)).toTail pos := by rw [← isV, sameLpm]
    refine ⟨{ v with mfn := m }, answer (filled.trans ended), ?_, ?_, ?_, fun q other => ?_, fun none_ => ?_,
      fun r some_ => ?_, ?_⟩
    · rw [frame]
      exact isStored
    · change v.lpm.line pos = _
      rw [pool]
      simp
    · change v.lpm.recency = _
      rw [pool]
      rfl
    · change v.lpm.line q = _
      rw [pool]
      simp [other]
    · have unchanged := ended.symm.trans (idle (request.trans none_))
      have mfn := congrArg State.mfn unchanged
      exact mfn.trans (by rw [← isV, ← sameMfn])
    · have looked := ended.symm.trans (looks r (request.trans some_))
      have mfn := congrArg State.mfn looked
      have vMfn : v.mfn = s.mfn := by rw [← isV, ← sameMfn]
      rw [vMfn] at mfn
      refine ⟨_, mfn, by simp, fun i old new before after_ => ?_⟩
      rw [List.getElem?_map, before, Option.map_some] at after_
      refine ⟨fun waited => ?_, fun unwaited => ?_⟩
      · rw [if_pos waited] at after_
        cases after_
        have again := v.lookupStep_lookedUpAgain old
        refine again.congr rfl fun n => ?_
        change m.key n = _
        rw [show m = _ from mfn, vMfn]
        rfl
      · rw [if_neg unwaited] at after_
        cases after_
        rfl
    · rw [frame]
  · have emptied := State.fillEnded_void foundT (by rw [sameLpm]; exact line) void
    generalize isV : t.voidEnded pos buf = v at emptied
    have frame : v = { s with
        sdram := t.sdram
        mctl := { s.mctl with current := none }
        lpm := { s.lpm with
          lines := s.lpm.lines.filter (fun e => e.1 ≠ pos), recency := s.lpm.recency.filter (fun q => q ≠ pos) }
        xch := xch } := by
      rw [← isV, isT]
      rfl
    have sdram : v.sdram = t.sdram := by rw [frame]
    have request : v.mfn = s.mfn := by rw [frame]
    obtain ⟨idle, fails⟩ := v.wantEnded_failed w.key
    refine ⟨v, ?_, ?_, fun still => ?_, fun retired r some_ => ?_⟩
    · change (∀ a, base ≤ a → a < base + 2048 → Memory.read v.sdram a = _) ∧ (∀ a, _ → Memory.read v.sdram a = _)
      rw [sdram]
      exact isStored
    · rw [sdram]
      exact frame
    · refine answer (emptied.trans ?_)
      split
      next retired =>
        rcases still with dropped | none_
        · rw [retired] at dropped
          cases dropped
        · exact idle (by rw [request]; exact none_)
      next => rfl
    · rw [if_pos retired] at emptied
      obtain ⟨passes, ends⟩ := fails r (by rw [request]; exact some_)
      rw [request] at passes ends
      refine ⟨fun none_ => answer (emptied.trans (passes none_)), fun before st rest steps early waiting => ?_⟩
      refine ⟨_, answer emptied, ?_⟩
      have result := ends before st rest steps early waiting
      rw [State.raise_ntu_congr (s := s) (by rw [frame]) (by rw [frame]) (by rw [frame])] at result
      exact result

end Sys2Proof.Machine


/-! ## A media transfer completes (R106, R110, R129, R130, R133) -/

namespace Sys2Proof.Machine

theorem exec_mediaTransferComplete {s : State} {m : MediaReq} {rep : Bool} (released : s.rstn = false)
    (current : s.mctl.current = some { req := .media m, reported := rep }) :
    exec .mediaTransferComplete s =
      if s.lineFits m.line then .next (settle (s.mediaDone m rep)) else .fault .noSuchAddress := by
  rw [← completes_released (s.lineFits m.line) (fun t => t.mediaDone m rep) released]
  change execMediaTransferComplete s = _
  simp only [execMediaTransferComplete, current]

/-! ### The blocks of a write -/

/-- Blocks written into a line one after the other: each stands in its place, and no other byte changes. -/
theorem Memory.read_writeBlocks (base : Nat) (blocks : List Nat) (rising : blocks.Pairwise (· < ·)) (mem : Memory)
    (data : Bytes) (wf : Memory.wf mem) (length : data.length = 512 * blocks.length) :
    (∀ j b i, blocks[j]? = some b → i < 512 →
      Memory.read (mem.writeBlocks base blocks data) (base + 512 * b + i) = data.getD (512 * j + i) 0) ∧
    (∀ a, (∀ b ∈ blocks, a < base + 512 * b ∨ base + 512 * b + 512 ≤ a) →
      Memory.read (mem.writeBlocks base blocks data) a = Memory.read mem a) := by
  induction blocks generalizing mem data with
  | nil => exact ⟨fun _ _ _ here => by simp at here, fun _ _ => rfl⟩
  | cons first rest ih =>
    obtain ⟨lowest, rising⟩ := List.pairwise_cons.1 rising
    rw [List.length_cons] at length
    have taken : (data.take 512).length = 512 := by rw [List.length_take]; omega
    obtain ⟨inside, outside⟩ := ih rising (mem.writeBytes (base + 512 * first) (data.take 512)) (data.drop 512)
      (Memory.writeBytes_wf _ mem _ wf) (by rw [List.length_drop]; omega)
    unfold Memory.writeBlocks
    refine ⟨fun j b i here small => ?_, fun a apart => ?_⟩
    · cases j with
      | zero =>
        obtain rfl : first = b := by simpa using here
        rw [outside _ fun c mem_ => Or.inl (by have := lowest c mem_; omega), Memory.read_writeBytes _ _ _ _ wf,
          if_pos (by omega)]
        simp only [List.getD_eq_getElem?_getD, List.getElem?_take]
        rw [if_pos (by omega)]
        congr 2
        omega
      | succ j =>
        rw [inside j b i (by simpa using here) small]
        simp only [List.getD_eq_getElem?_getD, List.getElem?_drop]
        congr 2
        omega
    · rw [outside a fun c mem_ => apart c (List.mem_cons_of_mem _ mem_), Memory.read_writeBytes _ _ _ _ wf, if_neg]
      have := apart first List.mem_cons_self
      omega

/-- The request over, and a write's blocks in their line. -/
def State.mediaStored (s : State) (m : MediaReq) : State :=
  { s.requestOver with sdram := Memory.writeBlocks s.sdram (s.lineAt m.line) m.blocks m.data }

theorem State.mediaStored_blocksStored {s u : State} {m : MediaReq} (wf : Memory.wf s.sdram)
    (rising : m.blocks.Pairwise (· < ·)) (length : m.data.length = 512 * m.blocks.length)
    (kept : u.sdram = (s.mediaStored m).sdram) : s.BlocksStored u m := by
  have stored := Memory.read_writeBlocks (s.lineAt m.line) m.blocks rising s.sdram m.data wf length
  unfold State.BlocksStored
  rw [kept]
  exact stored

theorem State.mediaDone_write {s : State} {m : MediaReq} (write : m.isRead = false) : s.mediaDone m true =
    ({ s.mediaStored m with lpm := s.lpm.unpin m.line } : State).writeArrived m := by
  unfold State.mediaDone
  simp only [write]
  rfl

theorem State.mediaDone_read {s : State} {m : MediaReq} (read : m.isRead = true) : s.mediaDone m true =
    ({ s.requestOver with lpm := s.lpm.unpin m.line } : State).readArrived m (s.readBlocks m) := by
  unfold State.mediaDone
  simp only [read]
  rfl

/-! ### The step's end -/

/-- A request that ends with no transfer of its own current or waiting takes nothing else with it (R131). -/
theorem State.RequestEnded.kept {s t : State} {r : Request} (ended : s.RequestEnded t) (some_ : s.mfn.request = some r)
    (stays : s.mfn.draining = false) (idle : s.mctl.current = none)
    (unasked : ∀ x ∈ s.mctl.waitMedia, x.isRead = true → x.request ≠ r.serial) :
    t = { s with mfn := { s.mfn with request := none } } := by
  obtain ⟨lines, recency, turn, still, -⟩ := ended.ends r some_
  have empty : s.mctl.waitMedia.filter (fun x => x.isRead && x.request = r.serial) = [] :=
    List.filter_eq_nil_iff.2 fun x mem => by simpa using unasked x mem
  have whole : s.mctl.waitMedia.filter (fun x => !(x.isRead && x.request = r.serial)) = s.mctl.waitMedia :=
    List.filter_eq_self.2 fun x mem => by simpa [Classical.or_iff_not_imp_left] using unasked x mem
  have without : s.mctl.withoutReads r.serial = s.mctl := by
    unfold Mctl.withoutReads
    rw [whole, idle, Option.map_none, ← idle]
  rw [empty] at turn
  have pool : s.lpm = { s.lpm with lines := lines, recency := recency } := by
    generalize isQ : ({ s.lpm with lines := lines, recency := recency } : Lpm) = q at turn
    cases turn
    rfl
  rw [still stays, without, ← pool]

/-- A write's step is done (R130). -/
def Request.stepDone (r : Request) (lineNo : Nat) : Request :=
  { r with steps := r.steps.map (fun st => if st.line = lineNo then { st with state := .done } else st) }

theorem isDone_all (steps : List XferStep) : steps.all XferStep.isDone = true ↔ ∀ st ∈ steps, st.state = .done := by
  simp [XferStep.isDone]

theorem State.writeArrived_done {s : State} {m : MediaReq} {r : Request} (some_ : s.mfn.request = some r)
    (kind : r.kind = .write) (own : m.request = r.serial) :
    (¬ (∀ st ∈ (r.stepDone m.lineNo).steps, st.state = .done) → s.writeArrived m = s.setRequest (r.stepDone m.lineNo)) ∧
    ((∀ st ∈ (r.stepDone m.lineNo).steps, st.state = .done) → s.writeArrived m =
      ({ s with mfn := { s.mfn with request := some (r.stepDone m.lineNo), usbStatus := some .good } } :
        State).closeRequest) := by
  have arrived : s.writeArrived m = if (r.stepDone m.lineNo).steps.all XferStep.isDone then
      ({ s with mfn := { s.mfn with request := some (r.stepDone m.lineNo), usbStatus := some .good } } :
        State).closeRequest else s.setRequest (r.stepDone m.lineNo) := by
    unfold State.writeArrived
    rw [some_]
    exact if_pos (by simp [kind, own])
  rw [arrived]
  exact ⟨fun unfinished => if_neg fun all => unfinished ((isDone_all _).1 all),
    fun finished => if_pos ((isDone_all _).2 finished)⟩

theorem State.writeArrived_other {s : State} {m : MediaReq}
    (other : ∀ r, s.mfn.request = some r → r.kind ≠ .write ∨ m.request ≠ r.serial) : s.writeArrived m = s := by
  unfold State.writeArrived
  split
  next r some_ => exact if_neg (by simpa [Classical.or_iff_not_imp_left] using other r some_)
  next => rfl

theorem State.readArrived_other {s : State} {m : MediaReq} {blocks : List (Nat × Bytes)}
    (other : m.dropped = true ∨ ∀ r, s.mfn.request = some r → m.request ≠ r.serial) : s.readArrived m blocks = s := by
  unfold State.readArrived
  split
  next r some_ =>
    refine if_neg fun taken => ?_
    obtain ⟨⟨-, own⟩, kept⟩ : (r.kind = .read ∧ m.request = r.serial) ∧ m.dropped = false := by simpa using taken
    rcases other with dropped | other
    · rw [dropped] at kept
      cases kept
    · exact other r some_ own
  next => rfl

end Sys2Proof.Machine


namespace Sys2Proof.Machine

/-! ### What MFN sends of the blocks read (R129) -/

/-- The data of a block among those read. -/
def blockOf (got : List (Nat × Bytes)) (n : Nat) : Bytes := ((got.find? (fun g => g.1 = n)).map Prod.snd).getD []

/-- A request after it has sent `n` blocks. -/
def Request.sent (r : Request) (n : Nat) : Request :=
  { r with
    delivery := r.delivery + n
    steps := r.steps.map (fun st =>
      if 0 < n ∧ 4 * st.line + st.last < r.delivery + n then { st with state := .done } else st)
    got := r.got.filter (fun g => g.1 < r.delivery ∨ r.delivery + n ≤ g.1) }

theorem Request.sent_zero (r : Request) : r.sent 0 = r := by
  have whole : r.got.filter (fun g => g.1 < r.delivery ∨ r.delivery + 0 ≤ g.1) = r.got :=
    List.filter_eq_self.2 fun g _ => by simpa using Nat.lt_or_ge g.1 r.delivery
  unfold Request.sent
  rw [whole]
  simp

/-- A request after it has sent the block at its delivery point. -/
def Request.sentOne (r : Request) : Request :=
  { r with
    delivery := r.delivery + 1
    got := r.got.filter (fun g => g.1 ≠ r.delivery)
    steps := doneBefore (r.delivery + 1) r.steps }

theorem Request.sentOne_sent (r : Request) (n : Nat) : r.sentOne.sent n = r.sent (n + 1) := by
  have delivery : r.delivery + 1 + n = r.delivery + (n + 1) := by omega
  have got : (r.got.filter (fun g => g.1 ≠ r.delivery)).filter
        (fun g => g.1 < r.delivery + 1 ∨ r.delivery + 1 + n ≤ g.1) =
      r.got.filter (fun g => g.1 < r.delivery ∨ r.delivery + (n + 1) ≤ g.1) := by
    rw [List.filter_filter]
    refine List.filter_congr fun g _ => ?_
    rw [← Bool.decide_and]
    exact decide_eq_decide.2 (by omega)
  have steps : (doneBefore (r.delivery + 1) r.steps).map (fun st =>
        if 0 < n ∧ 4 * st.line + st.last < r.delivery + 1 + n then { st with state := .done } else st) =
      r.steps.map (fun st =>
        if 0 < n + 1 ∧ 4 * st.line + st.last < r.delivery + (n + 1) then { st with state := .done } else st) := by
    unfold doneBefore
    rw [List.map_map]
    refine List.map_congr_left fun st _ => ?_
    simp only [Function.comp]
    by_cases before : 4 * st.line + st.last < r.delivery + 1
    · rw [if_pos before, if_pos (c := 0 < n + 1 ∧ _) ⟨by omega, by omega⟩]
      split <;> rfl
    · rw [if_neg before]
      exact if_congr (by omega) rfl rfl
  unfold Request.sent Request.sentOne
  dsimp only
  rw [got, steps, delivery]

/-- MFN sends the blocks read as far as they follow the delivery point without a gap. -/
theorem deliver_sent (k : Nat) (r : Request) (out : Bytes) : ∃ n, n ≤ k ∧
    (∀ i < n, ∃ g ∈ r.got, g.1 = r.delivery + i) ∧ (n < k → ∀ g ∈ r.got, g.1 ≠ r.delivery + n) ∧
    deliver k r out = (out ++ (List.range n).flatMap (fun i => blockOf r.got (r.delivery + i)), r.sent n) := by
  induction k generalizing r out with
  | zero => exact ⟨0, Nat.le_refl 0, fun _ small => by omega, fun small => by omega, by simp [deliver, Request.sent_zero]⟩
  | succ k ih =>
    cases found : r.got.find? (fun g => g.1 = r.delivery) with
    | none =>
      refine ⟨0, by omega, fun _ small => by omega, fun _ g mem => ?_, ?_⟩
      · simpa using List.find?_eq_none.1 found g mem
      · rw [deliver, found]
        simp [Request.sent_zero]
    | some g =>
      have place : g.1 = r.delivery := by simpa using List.find?_some found
      have standing : g ∈ r.got := List.mem_of_find?_eq_some found
      obtain ⟨n, few, each, gap, sent⟩ := ih r.sentOne (out ++ g.2)
      have kept {x : Nat × Bytes} : x ∈ r.sentOne.got ↔ x ∈ r.got ∧ x.1 ≠ r.delivery := by
        unfold Request.sentOne
        simp [List.mem_filter]
      have next (i : Nat) : r.sentOne.delivery + i = r.delivery + (i + 1) := by
        change r.delivery + 1 + i = _
        omega
      have block (i : Nat) : blockOf r.sentOne.got (r.sentOne.delivery + i) = blockOf r.got (r.delivery + (i + 1)) := by
        rw [next]
        unfold blockOf Request.sentOne
        dsimp only
        rw [List.find?_filter]
        congr 3
        funext x
        simp only [decide_eq_true_eq]
        exact decide_eq_decide.2 (by omega)
      refine ⟨n + 1, by omega, fun i small => ?_, fun small x mem => ?_, ?_⟩
      · cases i with
        | zero => exact ⟨g, standing, place⟩
        | succ i =>
          obtain ⟨x, mem, at_⟩ := each i (by omega)
          exact ⟨x, (kept.1 mem).1, at_.trans (next i)⟩
      · by_cases here : x.1 = r.delivery
        · omega
        · have := gap (by omega) x (kept.2 ⟨mem, here⟩)
          rwa [next] at this
      · have first : blockOf r.got (r.delivery + 0) = g.2 := by rw [Nat.add_zero, blockOf, found]; rfl
        rw [deliver, found]
        refine sent.trans ?_
        rw [Request.sentOne_sent, List.range_succ_eq_map, List.flatMap_cons, List.flatMap_map, first,
          List.append_assoc]
        simp only [block]

/-! ### Readahead (R133) -/

/-- What readahead asks depends on the attachment by its keys alone. -/
theorem ReadaheadAsked.congr {m m' : Mfn} {lines : List Nat} {p q : Lpm} {ws vs : List Want}
    (asked : ReadaheadAsked m lines p ws q vs) (keys : ∀ n, m'.key n = m.key n) : ReadaheadAsked m' lines p ws q vs := by
  induction asked with
  | done p ws => exact .done p ws
  | held stands _ ih => exact .held (by rw [keys]; exact stands) ih
  | full free unheld asked => exact .full free (by rw [keys]; exact unheld) (by rw [keys]; exact asked)
  | asked free unheld asked notFull _ ih =>
    exact .asked free (by rw [keys]; exact unheld) (by rw [keys]; exact asked) notFull ih

/-- A readahead want is new at the end of the list, or nothing is. -/
theorem State.xchAsk_readahead (s : State) (key : Key) : ∃ asked : List Want,
    (s.xchAsk key .readahead).2.xch = { s.xch with wants := s.xch.wants ++ asked } ∧
    ∀ w ∈ asked, w.purpose = .readahead ∧ w.state = .queued .held ∧ w.key = key := by
  unfold State.xchAsk
  split
  · exact ⟨[], by simp [Xch.demand], by simp⟩
  · split
    · exact ⟨[], by simp, by simp⟩
    · split
      · exact ⟨[], by simp, by simp⟩
      · split
        · exact ⟨[_], rfl, fun w mem => by obtain rfl := List.mem_singleton.1 mem; exact ⟨rfl, rfl, rfl⟩⟩
        · exact ⟨[], by simp, by simp⟩

/-- Readahead adds readahead wants of its candidate lines to the list. -/
theorem State.readahead_wants (lines : List Nat) (s : State) : ∃ asked : List Want,
    (s.readahead lines).xch = { s.xch with wants := s.xch.wants ++ asked } ∧
    ∀ w ∈ asked, w.purpose = .readahead ∧ w.state = .queued .held ∧ ∃ line ∈ lines, w.key = s.mfn.key line := by
  induction lines generalizing s with
  | nil => exact ⟨[], by simp [State.readahead], by simp⟩
  | cons line rest ih =>
    have later {t : State} (mfn : t.mfn = s.mfn) : ∃ asked : List Want,
        (t.readahead rest).xch = { t.xch with wants := t.xch.wants ++ asked } ∧
        ∀ w ∈ asked, w.purpose = .readahead ∧ w.state = .queued .held ∧
          ∃ n ∈ line :: rest, w.key = s.mfn.key n := by
      obtain ⟨asked, xch, each⟩ := ih t
      refine ⟨asked, xch, fun w mem => ?_⟩
      obtain ⟨purpose, state, n, here, key⟩ := each w mem
      exact ⟨purpose, state, n, List.mem_cons_of_mem _ here, by rw [key, mfn]⟩
    obtain ⟨new, xch, fresh⟩ := s.xchAsk_readahead (s.mfn.key line)
    have mfn : (s.xchAsk (s.mfn.key line) .readahead).2.mfn = s.mfn := by simp
    have first : ∀ w ∈ new, w.purpose = .readahead ∧ w.state = .queued .held ∧
        ∃ n ∈ line :: rest, w.key = s.mfn.key n := fun w mem =>
      ⟨(fresh w mem).1, (fresh w mem).2.1, line, List.mem_cons_self, (fresh w mem).2.2⟩
    unfold State.readahead
    split
    · exact later rfl
    · generalize s.xchAsk (s.mfn.key line) .readahead = result at xch mfn
      obtain ⟨answer, t⟩ := result
      obtain ⟨asked, more, each⟩ := later mfn
      have goesOn : ∃ asked : List Want, (t.readahead rest).xch = { s.xch with wants := s.xch.wants ++ asked } ∧
          ∀ w ∈ asked, w.purpose = .readahead ∧ w.state = .queued .held ∧
            ∃ n ∈ line :: rest, w.key = s.mfn.key n := by
        refine ⟨new ++ asked, ?_, fun w mem => (List.mem_append.1 mem).elim (first w) (each w)⟩
        rw [more, show t.xch = _ from xch]
        simp [List.append_assoc]
      cases answer
      case full => exact ⟨new, xch, first⟩
      all_goals exact goesOn

/-- Readahead writes the pool and the wants alone. -/
theorem State.readahead_eq (s : State) (lines : List Nat) :
    s.readahead lines = { s with lpm := (s.readahead lines).lpm, xch := (s.readahead lines).xch } := by
  have keeps := s.readahead_keeps lines
  generalize s.readahead lines = t at keeps
  cases t
  simp_all

end Sys2Proof.Machine


namespace Sys2Proof.Machine

/-! ### A read's completion (R129, R131, R133) -/

/-- The transfer over, and the blocks read sent as far as they go. -/
def State.blocksSent (s : State) (m : MediaReq) (r : Request) (out : Bytes) : State :=
  { s.requestOver with
    lpm := s.lpm.unpin m.line, mfn := { s.mfn with usbData := out, request := some r } }

/-- A READ done: GOOD sent and the last block remembered. -/
def State.readGood (s : State) (r : Request) : State :=
  { s with mfn := { s.mfn with usbStatus := some .good, tracker := some r.lastBlock } }

/-- The READ began right behind the READ before it, and the attachment is not draining. -/
def State.readFollows (s : State) (r : Request) : Prop :=
  s.mfn.draining = false ∧ ∃ t, s.mfn.tracker = some t ∧ r.first = t + 1

theorem State.readComplete_eq (s : State) (r : Request) :
    (s.readFollows r → s.readComplete r =
      ((s.readGood r).readahead ((s.readGood r).readaheadLines r.lastBlock)).closeRequest) ∧
    (¬ s.readFollows r → s.readComplete r = (s.readGood r).closeRequest) := by
  have sequential : (s.mfn.tracker.any (fun t => r.first = t + 1) && !s.mfn.draining) = true ↔ s.readFollows r := by
    unfold State.readFollows
    simp [Option.any_eq_true, and_comm]
  have draining : (s.readGood r).mfn.draining = s.mfn.draining := rfl
  constructor
  · intro follows
    unfold State.readComplete
    dsimp only
    change State.closeRequest (if (s.mfn.tracker.any _ && !(s.readGood r).mfn.draining) = true then _ else _) = _
    rw [draining, if_pos (sequential.2 follows)]
    rfl
  · intro first
    unfold State.readComplete
    dsimp only
    change State.closeRequest (if (s.mfn.tracker.any _ && !(s.readGood r).mfn.draining) = true then _ else _) = _
    rw [draining, if_neg (mt sequential.1 first)]
    rfl

theorem State.mediaDone_ownRead {s : State} {m : MediaReq} {r r' : Request} {out : Bytes} (read : m.isRead = true)
    (kept : m.dropped = false) (some_ : s.mfn.request = some r) (kind : r.kind = .read) (own : m.request = r.serial)
    (sent : deliver 8 { r with got := r.got ++ (s.readBlocks m).filter (fun g => r.delivery ≤ g.1) } s.mfn.usbData =
      (out, r')) :
    (¬ (∀ st ∈ r'.steps, st.state = .done) → s.mediaDone m true = s.blocksSent m r' out) ∧
    ((∀ st ∈ r'.steps, st.state = .done) → s.mediaDone m true = (s.blocksSent m r' out).readComplete r') := by
  have done : s.mediaDone m true = if r'.steps.all XferStep.isDone then (s.blocksSent m r' out).readComplete r' else
      s.blocksSent m r' out := by
    rw [State.mediaDone_read read]
    unfold State.readArrived
    rw [show ({ s.requestOver with lpm := s.lpm.unpin m.line } : State).mfn = s.mfn from rfl, some_]
    refine (if_pos (by simp [kind, own, kept])).trans ?_
    rw [sent]
    rfl
  rw [done]
  exact ⟨fun unfinished => if_neg fun all => unfinished ((isDone_all _).1 all),
    fun finished => if_pos ((isDone_all _).2 finished)⟩

/-- What readahead asks after a READ: wants of the lines behind its last block, as many as the setting and the capacity
allow. -/
theorem State.readahead_bounds {s : State} {last : Nat} : ∃ asked,
    (s.readahead (s.readaheadLines last)).xch = { s.xch with wants := s.xch.wants ++ asked } ∧
    ∀ w ∈ asked, w.purpose = .readahead ∧ w.state = .queued .held ∧ w.key.image = s.mfn.image ∧
      w.key.gen = s.mfn.gen ∧ last / 4 < w.key.line ∧ w.key.line ≤ last / 4 + s.setting Settings.readahead ∧
      w.key.line ≤ (s.mfn.capacity - 1) / 4 := by
  obtain ⟨asked, xch, each⟩ := s.readahead_wants (s.readaheadLines last)
  refine ⟨asked, xch, fun w mem => ?_⟩
  obtain ⟨purpose, state, line, candidate, key⟩ := each w mem
  obtain ⟨within, inside⟩ := List.mem_filter.1 candidate
  obtain ⟨i, small, rfl⟩ := List.mem_map.1 within
  have := List.mem_range.1 small
  rw [key]
  exact ⟨purpose, state, rfl, rfl, by change _ < last / 4 + 1 + i; omega, by change last / 4 + 1 + i ≤ _; omega,
    of_decide_eq_true inside⟩

theorem State.closeRequest_sdram (s : State) : s.closeRequest.sdram = s.sdram := by simp

/-- Settles O32: a write's blocks one after the other; a read's as far as they follow the delivery point. -/
theorem mediaTransferMovesItsBlocks : Obligations.MediaTransferMovesItsBlocks := by
  have over_ {s u : State} {m : MediaReq} {rep : Bool} (released : s.rstn = false)
      (current : s.mctl.current = some { req := .media m, reported := rep })
      (fits : s.ccu.ringSize + 2048 * m.line + 2048 ≤ s.mctl.size) (done : s.mediaDone m rep = u) :
      exec .mediaTransferComplete s = .next (settle u) := by
    rw [← done]
    exact (exec_mediaTransferComplete released current).trans (if_pos ((s.lineFits_iff m.line).2 fits))
  refine ⟨?write, ?read, ?foreignWrite, ?unreported, ?foreignRead, ?outside⟩
  case write =>
    intro s m r released current fits wf write rising _ length some_ kind own steps finished
    obtain ⟨t, isT⟩ : ∃ t, t = ({ s.mediaStored m with lpm := s.lpm.unpin m.line } : State) := ⟨_, rfl⟩
    have some_' : t.mfn.request = some r := by rw [isT]; exact some_
    obtain ⟨waits, ends⟩ := State.writeArrived_done some_' kind own
    have done := State.mediaDone_write (s := s) write
    rw [← isT] at done
    by_cases all : finished
    · rw [ends all] at done
      have sdram := State.closeRequest_sdram ({ t with
        mfn := { t.mfn with request := some (r.stepDone m.lineNo), usbStatus := some .good } } : State)
      have ended := State.closeRequest_requestEnded ({ t with
        mfn := { t.mfn with request := some (r.stepDone m.lineNo), usbStatus := some .good } } : State)
      generalize State.closeRequest _ = u at done sdram ended
      have stored : u.sdram = (s.mediaStored m).sdram := by rw [sdram, isT]
      refine ⟨u, over_ released current fits done, State.mediaStored_blocksStored wf rising length stored, _,
        Lpm.unpin_unpinned _ _, fun unfinished => absurd all unfinished, fun _ => ?_, fun _ calm unasked => ?_⟩
      · rw [stored]
        subst isT
        exact ended
      · rw [stored]
        subst isT
        exact ended.kept rfl calm rfl unasked
    · rw [waits all] at done
      subst isT
      exact ⟨_, over_ released current fits done, State.mediaStored_blocksStored wf rising length rfl, _,
        Lpm.unpin_unpinned _ _, fun _ => rfl, fun finished => absurd finished all, fun finished => absurd finished all⟩
  case read =>
    intro s m r released current fits read undropped some_ kind own base read_ got block
    obtain ⟨n, few, each, gap, sent⟩ := deliver_sent 8 { r with got := got } s.mfn.usbData
    obtain ⟨waits, ends⟩ := State.mediaDone_ownRead read undropped some_ kind own sent
    obtain ⟨r', isR⟩ : ∃ r', r' = Request.sent { r with got := got } n := ⟨_, rfl⟩
    obtain ⟨v, isV⟩ : ∃ v, v = s.blocksSent m r'
      (s.mfn.usbData ++ (List.range n).flatMap (fun i => blockOf got (r.delivery + i))) := ⟨_, rfl⟩
    rw [← isR] at waits ends
    have waits := fun unfinished => (waits unfinished).trans isV.symm
    have ends := fun finished => (ends finished).trans (congrArg (State.readComplete · r') isV.symm)
    obtain ⟨sequential, fresh⟩ := v.readComplete_eq r'
    have bounds := (v.readGood r').readahead_bounds (last := r'.lastBlock)
    have frame := (v.readGood r').readahead_eq ((v.readGood r').readaheadLines r'.lastBlock)
    have asks := (v.readGood r').readahead_readaheadAsked ((v.readGood r').readaheadLines r'.lastBlock)
    refine ⟨n, ?_⟩
    by_cases finished : ∀ st ∈ r'.steps, st.state = .done
    · by_cases follows : v.readFollows r'
      · have done := (ends finished).trans (sequential follows)
        generalize State.readahead _ _ = w at done bounds frame asks
        have ended := w.closeRequest_requestEnded
        subst isV isR
        refine ⟨_, over_ released current fits done, few, each, gap, w, ?_,
          fun unfinished => absurd finished unfinished, fun _ => ⟨ended, ?_, ?_⟩,
          fun _ calm unasked => ?_, fun first => absurd ⟨finished, follows⟩ first, fun _ _ => bounds,
          fun _ _ placed => ⟨_, Lpm.unpin_unpinned _ _, ?_⟩⟩
        · rw [frame]
          rfl
        · rw [frame]
          rfl
        · rw [frame]
          rfl
        · rw [frame] at ended ⊢
          exact ended.kept rfl calm rfl unasked
        · obtain ⟨asked, -⟩ := asks (Lpm.Placed.unpin placed m.line)
          exact asked.congr fun _ => rfl
      · have done := (ends finished).trans (fresh follows)
        have ended := (v.readGood r').closeRequest_requestEnded
        subst isV isR
        exact ⟨_, over_ released current fits done, few, each, gap, _, rfl,
          fun unfinished => absurd finished unfinished, fun _ => ⟨ended, rfl, rfl⟩,
          fun _ calm unasked => ended.kept rfl calm rfl unasked,
          fun _ => ⟨Lpm.unpin_unpinned _ _, rfl⟩, fun _ follows' => absurd follows' follows,
          fun _ follows' => absurd follows' follows⟩
    · have done := waits finished
      subst isV isR
      exact ⟨_, over_ released current fits done, few, each, gap, _, rfl, fun _ => ⟨rfl, rfl, rfl⟩,
        fun finished' => absurd finished' finished, fun finished' => absurd finished' finished,
        fun _ => ⟨Lpm.unpin_unpinned _ _, rfl⟩, fun finished' => absurd finished' finished,
        fun finished' => absurd finished' finished⟩
  case foreignWrite =>
    intro s m released current fits wf write rising _ length other
    have done := State.mediaDone_write (s := s) write
    rw [State.writeArrived_other (by exact other)] at done
    exact ⟨_, over_ released current fits done, State.mediaStored_blocksStored wf rising length rfl,
      Lpm.unpin_unpinned _ _, rfl⟩
  case unreported =>
    intro s m released current fits
    refine ⟨fun read => over_ released current fits ?_, fun write wf rising _ length => ?_⟩
    · unfold State.mediaDone
      simp only [read]
      rfl
    · have done : s.mediaDone m false = s.mediaStored m := by
        unfold State.mediaDone
        simp only [write]
        rfl
      exact ⟨_, over_ released current fits done, State.mediaStored_blocksStored wf rising length rfl, rfl⟩
  case foreignRead =>
    intro s m released current fits read other
    have done := State.mediaDone_read (s := s) read
    rw [State.readArrived_other (by exact other)] at done
    exact ⟨_, over_ released current fits done, Lpm.unpin_unpinned _ _, rfl⟩
  case outside =>
    intro s m rep released current beyond
    refine (exec_mediaTransferComplete released current).trans (if_neg fun fits => ?_)
    have := (s.lineFits_iff m.line).1 fits
    omega

end Sys2Proof.Machine


/-! ## Another station's LINE-GIVE (R144, R151, R152) -/

namespace Sys2Proof.Machine

/-! ### Entries of the send list while frames are withdrawn -/

/-- An entry gone from a send list is gone from every shorter one. -/
theorem Lif.entry_gone {l k : Lif} (fewer : k.sendList.Sublist l.sendList) {seq : Nat} (gone : l.entry seq = none) :
    k.entry seq = none :=
  Lif.entry_eq_none.2 fun x mem => Lif.entry_eq_none.1 gone x (fewer.subset mem)

theorem State.withdrawStanding_sendList (s : State) (st : Standing) :
    (s.withdrawStanding st).lif.sendList.Sublist s.lif.sendList := by
  cases st with
  | held => exact .refl _
  | listed seq => exact s.lifWithdraw_sendList seq
  | inTenure seq => exact s.lifWithdraw_sendList seq

/-- An entry stays, or is withdrawn. -/
theorem State.withdrawStanding_entry {s : State} (st : Standing) {seq : Nat} {e : SendEntry}
    (entry : s.lif.entry seq = some e) :
    (s.withdrawStanding st).lif.entry seq = some e ∨ (s.withdrawStanding st).lif.entry seq = none :=
  ((s.withdrawWant_entry { key := ⟨0, 0, 0⟩, purpose := .demand, state := .queued st, line := 0 } seq).2 e entry).imp_right
    And.right

theorem State.withdrawStandings_sendList (l : List Standing) (s : State) :
    (l.foldl State.withdrawStanding s).lif.sendList.Sublist s.lif.sendList := by
  induction l generalizing s with
  | nil => exact .refl _
  | cons st l ih => exact (ih _).trans (s.withdrawStanding_sendList st)

/-- A frame listed outside tenure is gone once its standing is among those withdrawn. -/
theorem State.withdrawStandings_gone {seq : Nat} {e : SendEntry} (waits : e.inTenure = false) (l : List Standing)
    (among : .listed seq ∈ l) (s : State) (entry : s.lif.entry seq = some e ∨ s.lif.entry seq = none) :
    (l.foldl State.withdrawStanding s).lif.entry seq = none := by
  induction l generalizing s with
  | nil => exact absurd among List.not_mem_nil
  | cons st l ih =>
    rw [List.foldl_cons]
    have gone (gone : (s.withdrawStanding st).lif.entry seq = none) := Lif.entry_gone
      (State.withdrawStandings_sendList l (s.withdrawStanding st)) gone
    rcases entry with here | none_
    · by_cases own : st = .listed seq
      · exact gone ((s.withdrawStanding_spec st).1 seq e own here waits)
      · have later : Standing.listed seq ∈ l := by simpa [Ne.symm own] using among
        exact ih later (s.withdrawStanding st) (State.withdrawStanding_entry st here)
    · exact gone ((s.withdrawStanding_spec st).2.1 seq none_)

/-! ### Gives that leave the list (R150, R151) -/

theorem State.dropGives_lif (s : State) (out : Give → Bool) : (s.dropGives out).lif =
    (((s.xch.gives.filter out).map Give.standing).foldl State.withdrawStanding s).lif := rfl

theorem State.dropGives_sendList (s : State) (out : Give → Bool) :
    (s.dropGives out).lif.sendList.Sublist s.lif.sendList := by
  rw [State.dropGives_lif]
  exact State.withdrawStandings_sendList _ s

theorem State.dropGives_gone {s : State} {out : Give → Bool} {g : Give} {seq : Nat} {e : SendEntry}
    (leaves : g ∈ s.xch.gives.filter out) (standing : g.standing = .listed seq) (waits : e.inTenure = false)
    (entry : s.lif.entry seq = some e ∨ s.lif.entry seq = none) : (s.dropGives out).lif.entry seq = none := by
  rw [State.dropGives_lif]
  exact State.withdrawStandings_gone waits _ (List.mem_map.2 ⟨g, leaves, standing⟩) s entry

theorem State.dropGives_frame (s : State) (out : Give → Bool) : s.dropGives out = { s with
    lif := { s.lif with sendList := (s.dropGives out).lif.sendList, giveBuf := (s.dropGives out).lif.giveBuf }
    mctl := { s.mctl with waitSend := (s.dropGives out).mctl.waitSend }
    lpm := { s.lpm with lines := (s.dropGives out).lpm.lines, recency := (s.dropGives out).lpm.recency }
    xch := { s.xch with gives := s.xch.gives.filter (fun g => !out g) } } := by
  obtain ⟨l, g, w, frame⟩ := State.OnlyWithdraws.foldl _ State.withdrawStanding_onlyWithdraws
    ((s.xch.gives.filter out).map Give.standing) s
  obtain ⟨lines, recency, pool⟩ := Lpm.OnlyLines.foldl _ Lpm.unpin_onlyLines ((s.xch.gives.filter out).map Give.line) s.lpm
  unfold State.dropGives
  dsimp only
  rw [frame]
  dsimp only
  rw [pool]

/-- A FILLING line has no pin to drop. -/
theorem Lpm.UnpinnedInTurn.filling {p q : Lpm} {l : List Nat} (turn : p.UnpinnedInTurn l q) {pos : Nat} {key : Key}
    {write : FillWrite} (line : p.line pos = some (.filling key write)) : q.line pos = some (.filling key write) := by
  induction turn with
  | done => exact line
  | @next p q r first rest one _ ih =>
    refine ih ?_
    by_cases here : pos = first
    · subst here
      rw [one.unheld (.inr ⟨key, write, line⟩)]
      exact line
    · rw [one.others pos here]
      exact line

/-! ### The fill (R144) -/

/-- A want in a state that a give fills. -/
theorem Want.fillable_iff (w : Want) :
    w.fillable = true ↔ w.state = .sent ∨ w.state = .riding ∨ ∃ st, w.state = .queued st := by
  cases state : w.state <;> simp [Want.fillable, state]

/-- A fill withdraws at most the frame of one want. -/
theorem State.fillWants_lif (s : State) (key : Key) (data : Bytes) :
    (s.fillWants key data).lif = s.lif ∨ ∃ w, (s.fillWants key data).lif = (s.withdrawWant w).lif := by
  unfold State.fillWants
  split
  · split
    next w _ _ _ _ _ _ => exact .inr ⟨w, rfl⟩
    next => exact .inl rfl
  · exact .inl rfl

theorem State.fillWants_entry {s : State} (key : Key) (data : Bytes) {seq : Nat} {e : SendEntry}
    (entry : s.lif.entry seq = some e) :
    (s.fillWants key data).lif.entry seq = some e ∨ (s.fillWants key data).lif.entry seq = none := by
  rcases s.fillWants_lif key data with same | ⟨w, withdrawn⟩
  · exact .inl (by rw [same]; exact entry)
  · rw [withdrawn]
    exact ((s.withdrawWant_entry w seq).2 e entry).imp_right And.right

theorem State.fillWants_frame (s : State) (key : Key) (data : Bytes) : s.fillWants key data = { s with
    lif := { s.lif with
      sendList := (s.fillWants key data).lif.sendList, giveBuf := (s.fillWants key data).lif.giveBuf }
    mctl := { s.mctl with
      waitRecv := (s.fillWants key data).mctl.waitRecv, waitSend := (s.fillWants key data).mctl.waitSend }
    lpm := { s.lpm with lines := (s.fillWants key data).lpm.lines, recency := (s.fillWants key data).lpm.recency }
    xch := { s.xch with
      wants := (s.fillWants key data).xch.wants, fillBufs := (s.fillWants key data).xch.fillBufs } } := by
  unfold State.fillWants
  split
  next w _ _ _ =>
    split
    next p filled =>
      obtain ⟨l, g, ws, frame⟩ := s.withdrawWants_onlyWithdraws [w]
      have pool : p = { s.lpm with lines := p.lines, recency := p.recency } := by
        unfold Lpm.fill at filled
        split at filled <;> cases filled
        rfl
      change s.withdrawWant w = _ at frame
      dsimp only
      rw [frame, pool]
      rfl
    next => rfl
  next => rfl

/-- The free fill buffer with the lowest number. -/
theorem Xch.freeBuffer_of {x : Xch} {buf : Fin 4} (free : x.fillBufs.get buf = none)
    (lowest : ∀ j, j < buf → ¬ x.fillBufs.get j = none) : x.freeBuffer = some buf := by
  have taken (j : Fin 4) (below : j < buf) : (x.fillBufs.get j).isNone = false := Bool.eq_false_iff.2 fun none_ =>
    lowest j below (Option.isNone_iff_eq_none.1 none_)
  unfold Xch.freeBuffer
  match buf, free, taken with
  | 0, free, _ => simp [free]
  | 1, free, taken => simp [free, taken 0 (by decide)]
  | 2, free, taken => simp [free, taken 0 (by decide), taken 1 (by decide)]
  | 3, free, taken => simp [free, taken 0 (by decide), taken 1 (by decide), taken 2 (by decide)]

/-- The want filled is the first of its key, where that one can be filled. -/
theorem find?_fillable {ws : List Want} {key : Key} {w : Want} (first : ws.find? (fun v => v.isFor key) = some w)
    (fills : w.fillable = true) : ws.find? (fun v => v.isFor key && v.fillable) = some w := by
  obtain ⟨own, before, after_, rfl, none_⟩ := List.find?_eq_some_iff_append.1 first
  refine List.find?_eq_some_iff_append.2 ⟨by simpa using ⟨own, fills⟩, before, after_, rfl, fun x mem => ?_⟩
  have : x.isFor key = false := by simpa using none_ x mem
  simp [this]

/-- The want of a FILLING line lands in the free buffer, and its line's receive write is asked (R144). -/
theorem State.fillWants_lands {s : State} {key k : Key} {data : Bytes} {w : Want} {buf : Fin 4}
    (first : s.xch.wants.find? (fun v => v.isFor key) = some w) (fills : w.fillable = true)
    (free : s.xch.fillBufs.get buf = none) (lowest : ∀ j, j < buf → ¬ s.xch.fillBufs.get j = none)
    (line : s.lpm.line w.line = some (.filling k .none)) : s.fillWants key data = { s.withdrawWant w with
      lpm := s.lpm.put w.line (.filling k .inFlight)
      mctl := (s.withdrawWant w).mctl.askReceive w.line data
      xch := { s.xch with
        fillBufs := s.xch.fillBufs.set buf (some data)
        wants := s.xch.wants.map (fun v => if v.line = w.line then v.land buf else v) } } := by
  obtain ⟨l, g, ws, frame⟩ := s.withdrawWants_onlyWithdraws [w]
  change s.withdrawWant w = _ at frame
  unfold State.fillWants
  rw [find?_fillable first fills, Xch.freeBuffer_of free lowest]
  dsimp only
  rw [Lpm.fill, line]
  dsimp only
  rw [frame]

/-! ### The computer's gives (R152) -/

theorem State.suppressComputerGives_sendList (s : State) (key : Key) :
    (s.suppressComputerGives key).lif.sendList.Sublist s.lif.sendList := by
  unfold State.suppressComputerGives
  split
  · exact .refl _
  · exact List.filter_sublist

theorem State.suppressComputerGives_frame (s : State) (key : Key) : s.suppressComputerGives key = { s with
    lif := { s.lif with sendList := (s.suppressComputerGives key).lif.sendList }
    upb := { s.upb with outq := (s.suppressComputerGives key).upb.outq } } := by
  unfold State.suppressComputerGives
  split <;> rfl

theorem State.suppressComputerGives_serving {s : State} (key : Key) (serving : s.serving = true) :
    s.suppressComputerGives key = s := if_pos serving

theorem State.suppressComputerGives_uplink {s : State} (key : Key) (uplink : s.serving = false) :
    (∀ g, g ∈ (s.suppressComputerGives key).upb.outq ↔
      g ∈ s.upb.outq ∧ ¬ (g.kind = .lineGive ∧ keyOf g.body = key)) ∧
    ∀ e ∈ (s.suppressComputerGives key).lif.sendList, e.isComputerGive key = false := by
  rw [State.suppressComputerGives, if_neg (by simp [uplink])]
  refine ⟨fun g => ?_, fun e mem => ?_⟩
  · simp [List.mem_filter, isGiveOf, imp_iff_not_or]
  · simpa using (List.mem_filter.1 mem).2

end Sys2Proof.Machine


namespace Sys2Proof.Machine

/-- The tests of R139 for a LINE-GIVE of another station. -/
theorem State.xchFrame_give {s : State} {f : LaneFrame} (other : f.sender.toNat ≠ s.own) :
    s.xchFrame f .lineGive =
      if (s.ptu.state = .listen ∨ s.ptu.state = .member) ∧ f.dest = toAll ∧ f.body.length = 2055 ∧
          1 ≤ field f.body 0 2 ∧ field f.body 0 2 ≤ 65534 then s.seeGive (keyOf f.body) (f.body.drop 7)
      else s := by
  unfold State.xchFrame imageLegal
  by_cases passes : (s.ptu.state = .listen ∨ s.ptu.state = .member) ∧ f.dest = toAll ∧
      1 ≤ field f.body 0 2 ∧ field f.body 0 2 ≤ 65534
  · rw [if_pos (by simpa [and_assoc] using passes)]
    dsimp only
    by_cases length : f.body.length = 2055
    · rw [if_pos (by simpa using ⟨length, other⟩), if_pos]
      tauto
    · rw [if_neg (by simp [length]), if_neg]
      tauto
  · rw [if_neg (by simpa [and_assoc] using passes), if_neg]
    tauto

/-- A LINE-GIVE is never taken (R170). -/
theorem State.Reads.exec_give {s : State} {f : LaneFrame} (reads : s.Reads f) (untaken : s.lif.takeHeld = none)
    (code : f.kind = FrameKind.lineGive.code) :
    Machine.exec (.frameCompleteUnspoiled f 0) s = .next (settle (({ s with ptu := s.hearing f.sender.toNat, lif := s.lif.afterFrame } : State).xchFrame f .lineGive)) := by
  have decides : ({ s with lif := s.lif.passed } : State).decidesTake f = false :=
    State.decidesTake_kind (kind := .lineGive) (by rw [code]; rfl) rfl
  have heard : s.heardPtu f.sender.toNat = s.hearing f.sender.toNat := if_pos (reads.isPeer rfl)
  rw [exec_frameComplete reads.released reads.engine reads.tenure reads.other reads.body,
    State.between_untaken reads.reads untaken decides,
    State.present_exchange (s := s) (t := { s with lif := s.lif.afterFrame }) (.inr (.inl rfl)) code rfl rfl, heard]

/-- This station's own gives of a key, outside their tenure. -/
def Give.suppressed (key : Key) (g : Give) : Bool := g.key = key && !g.isInTenure

section

variable (t : State) (key : Key) (data : Bytes)

theorem State.seeGive_eq : t.seeGive key data =
    ((t.fillWants key data).dropGives (Give.suppressed key)).suppressComputerGives key := rfl

/-- The gives stand as they did before the fill. -/
theorem State.fillWants_gives : (t.fillWants key data).xch.gives = t.xch.gives := by rw [t.fillWants_frame key data]

theorem State.fillWants_upb : (t.fillWants key data).upb = t.upb := by rw [t.fillWants_frame key data]

theorem State.fillWants_serving : (t.fillWants key data).serving = t.serving := by rw [t.fillWants_frame key data]; rfl

theorem State.dropGives_serving (out : Give → Bool) : (t.dropGives out).serving = t.serving := by
  rw [t.dropGives_frame out]
  rfl

theorem State.seeGive_frame : t.seeGive key data = { t with
    lif := { t.lif with sendList := (t.seeGive key data).lif.sendList, giveBuf := (t.seeGive key data).lif.giveBuf }
    mctl := { t.mctl with
      waitRecv := (t.fillWants key data).mctl.waitRecv, waitSend := (t.seeGive key data).mctl.waitSend }
    lpm := { t.lpm with lines := (t.seeGive key data).lpm.lines, recency := (t.seeGive key data).lpm.recency }
    xch := { t.xch with
      wants := (t.fillWants key data).xch.wants
      fillBufs := (t.fillWants key data).xch.fillBufs
      gives := t.xch.gives.filter (fun g => !g.suppressed key) }
    upb := { t.upb with outq := (t.seeGive key data).upb.outq } } := by
  rw [State.seeGive_eq]
  have fill := t.fillWants_frame key data
  generalize t.fillWants key data = a at fill ⊢
  have drop := a.dropGives_frame (Give.suppressed key)
  generalize a.dropGives (Give.suppressed key) = b at drop ⊢
  have computer := b.suppressComputerGives_frame key
  generalize b.suppressComputerGives key = c at computer ⊢
  rw [computer, drop, fill]

/-- Frames in tenure and frames of no suppressed give or filled want stay. -/
theorem State.seeGive_unwithdrawn :
    (∀ seq e, t.lif.entry seq = some e → e.inTenure = true → (t.seeGive key data).lif.entry seq = some e) ∧
    (∀ e ∈ t.lif.sendList, e ∈ (t.fillWants key data).lif.sendList →
      (∀ g ∈ t.xch.gives, g.suppressed key = true → g.standing.isAt e.seq = false) →
      t.serving = true ∨ e.isComputerGive key = false → e ∈ (t.seeGive key data).lif.sendList) := by
  rw [State.seeGive_eq]
  obtain ⟨-, tenure₁, -⟩ := t.fillWants_frames key data
  obtain ⟨tenure₂, stays₂, -⟩ := (t.fillWants key data).dropGives_frames (Give.suppressed key)
  obtain ⟨tenure₃, stays₃⟩ := ((t.fillWants key data).dropGives (Give.suppressed key)).suppressComputerGives_frames key
  refine ⟨fun seq e entry inTenure => ?_, fun e _ filled unsuppressed foreign => ?_⟩
  · exact tenure₃ seq e (tenure₂ seq e (tenure₁ seq e entry inTenure) inTenure) inTenure
  · refine stays₃ e (stays₂ e filled ?_) ?_
    · rw [State.fillWants_gives]
      exact unsuppressed
    · rw [State.dropGives_serving, State.fillWants_serving]
      exact foreign

theorem State.seeGive_sendList : (t.seeGive key data).lif.sendList.Sublist (t.fillWants key data).lif.sendList :=
  (State.suppressComputerGives_sendList _ _).trans (State.dropGives_sendList _ _)

/-- A suppressed give's frame leaves the send list (R151). -/
theorem State.seeGive_suppresses {g : Give} {seq : Nat} {e : SendEntry}
    (suppressed : g ∈ t.xch.gives.filter (Give.suppressed key)) (standing : g.standing = .listed seq)
    (entry : t.lif.entry seq = some e) (waits : e.inTenure = false) : (t.seeGive key data).lif.entry seq = none := by
  rw [State.seeGive_eq]
  refine Lif.entry_gone (State.suppressComputerGives_sendList _ _)
    (State.dropGives_gone (g := g) ?_ standing waits (State.fillWants_entry key data entry))
  rw [State.fillWants_gives]
  exact suppressed

/-- The suppressed gives' lines are unpinned in turn (R151). -/
theorem State.seeGive_unpins : (t.fillWants key data).lpm.UnpinnedInTurn
    ((t.xch.gives.filter (Give.suppressed key)).map Give.line) (t.seeGive key data).lpm := by
  have unpins := ((t.fillWants key data).dropGives_frames (Give.suppressed key)).2.2
  rw [State.fillWants_gives] at unpins
  rw [State.seeGive_eq, State.suppressComputerGives_frame]
  exact unpins

/-- The computer's gives of the key stay in serving role, and leave in uplink role (R152). -/
theorem State.seeGive_computer :
    (t.serving = true → (t.seeGive key data).upb = t.upb) ∧
    (t.serving = false →
      (∀ g, g ∈ (t.seeGive key data).upb.outq ↔ g ∈ t.upb.outq ∧ ¬ (g.kind = .lineGive ∧ keyOf g.body = key)) ∧
      ∀ e ∈ (t.seeGive key data).lif.sendList, e.isComputerGive key = false) := by
  rw [State.seeGive_eq]
  generalize isB : (t.fillWants key data).dropGives (Give.suppressed key) = b
  have serving : b.serving = t.serving := by rw [← isB, State.dropGives_serving, State.fillWants_serving]
  have upb : b.upb = t.upb := by rw [← isB, State.dropGives_frame, State.fillWants_upb]
  refine ⟨fun serves => ?_, fun uplink => ?_⟩
  · rw [State.suppressComputerGives_serving key (serving.trans serves), upb]
  · have leaves := State.suppressComputerGives_uplink key (serving.trans uplink)
    rw [upb] at leaves
    exact leaves

end

/-- Settles O44: the fill, this station's gives, and the computer's, one after the other. -/
theorem lineGivesFillAndSuppress : Obligations.LineGivesFillAndSuppress := by
  intro s f reads untaken code keyIn key data bufferFree filling suppressed isComputers unfilled passes
  obtain ⟨t, isT⟩ : ∃ t : State, t = { s with ptu := s.hearing f.sender.toNat, lif := s.lif.afterFrame } := ⟨_, rfl⟩
  have runs := reads.exec_give untaken code
  rw [← isT, State.xchFrame_give (by rw [isT]; exact reads.other),
    show t.ptu.state = s.ptu.state by rw [isT]; exact s.hearing_state _] at runs
  refine ⟨fun refused => ?_, fun passing => ?_⟩
  · rw [runs, if_neg refused, isT]
  · rw [if_pos passing] at runs
    have frame := t.seeGive_frame key data
    have fill := t.fillWants_frames key data
    obtain ⟨tenure, stays⟩ := t.seeGive_unwithdrawn key data
    have suppresses {g : Give} {seq : Nat} {e : SendEntry} := t.seeGive_suppresses key data (g := g) (seq := seq) (e := e)
    have unpins := t.seeGive_unpins key data
    obtain ⟨serves, uplinks⟩ := t.seeGive_computer key data
    have computers (e : SendEntry) : e.isComputerGive key = false ↔ ¬ isComputers e := by
      rw [← Bool.not_eq_true]
      exact not_congr (e.isComputerGive_iff key)
    obtain ⟨fillNone, -, fillStays⟩ := fill
    have same : t.xch = s.xch ∧ t.lpm = s.lpm ∧ t.mctl = s.mctl ∧ t.upb = s.upb ∧ t.serving = s.serving ∧
        t.lif.sendList = s.lif.sendList := by
      rw [isT]
      exact ⟨rfl, rfl, rfl, rfl, rfl, rfl⟩
    obtain ⟨xch, lpm, mctl, upb, serving, sendList⟩ := same
    have entry (seq : Nat) : t.lif.entry seq = s.lif.entry seq := by rw [Lif.entry, sendList, Lif.entry]
    rw [xch] at fillNone fillStays
    have still (none_ : unfilled) : t.fillWants key data = t := fillNone none_
    refine ⟨t.seeGive key data, runs, fun w buf k first fills free lowest line => ?_, fun none_ => ?_, ?_,
      fun g out seq e standing here waits => ?_, fun serves' => ?_, fun uplink => ?_, fun seq e here inTenure => ?_,
      fun e mem foreign unfills unsuppressed => ?_, ?_⟩
    · have lands := State.fillWants_lands (s := t) (data := data) (by rw [xch]; exact first)
        (w.fillable_iff.2 fills.2) (by rw [xch]; exact free) (by rw [xch]; exact lowest) (by rw [lpm]; exact line)
      have shorter := t.seeGive_sendList key data
      obtain ⟨l, g, ws, withdrawn⟩ := t.withdrawWants_onlyWithdraws [w]
      change t.withdrawWant w = _ at withdrawn
      generalize t.fillWants key data = v at lands unpins frame shorter
      have filled : v.lpm = s.lpm.put w.line (.filling k .inFlight) := by rw [lands, lpm]
      rw [filled, xch] at unpins
      refine ⟨?_, ?_, ?_, unpins.filling (key := k) (write := .inFlight) (by simp),
        ⟨s.lpm.put w.line (.filling k .inFlight), ?_, ?_, rfl, unpins⟩, ?_⟩
      · rw [frame, lands, xch]
        rfl
      · rw [frame, lands, xch]
      · rw [frame, lands, withdrawn, mctl]
        rfl
      · simp
      · exact fun pos other => by simp [other]
      · intro seq e queued here waits
        refine Lif.entry_eq_none.1 (Lif.entry_gone shorter ?_)
        have gone := (t.withdrawStanding_spec (.listed seq)).1 seq e rfl (by rw [entry]; exact here) waits
        rw [lands, State.withdrawWant, queued]
        exact gone
    · have unpinned := unpins
      rw [still none_] at unpinned frame
      rw [lpm, xch] at unpinned
      refine ⟨?_, ?_, ?_, unpinned⟩
      · rw [frame, xch]
      · rw [frame, xch]
      · rw [frame, mctl]
    · rw [frame, xch]
      dsimp only
      refine List.filter_congr fun g _ => ?_
      simp [Give.suppressed, Bool.or_comm]
    · refine Lif.entry_eq_none.1 (suppresses ?_ standing (by rw [entry]; exact here) waits)
      rw [xch]
      exact out
    · rw [serves (serving.trans serves'), upb]
    · obtain ⟨outq, sends⟩ := uplinks (serving.trans uplink)
      rw [upb] at outq
      exact ⟨outq, fun e mem => (computers e).1 (sends e mem)⟩
    · exact tenure seq e (by rw [entry]; exact here) inTenure
    · refine stays e (by rw [sendList]; exact mem) ?_ (fun g here out => ?_) ?_
      · rcases unfills with none_ | unqueued
        · rw [still none_, sendList]
          exact mem
        · exact fillStays e (by rw [sendList]; exact mem) unqueued
      · rw [xch] at here
        exact unsuppressed g (List.mem_filter.2 ⟨here, out⟩)
      · rw [serving, computers e]
        exact foreign
    · rw [frame, isT]

end Sys2Proof.Machine


/-! ## What the owners make of a tenure's outcome (R42 to R45, R70, R75, R76, R142, R150, R200, R207) -/

namespace Sys2Proof.Machine

/-! ### The outcome and the report -/

section

variable {s : State} {e : SendEntry} {how : TenureEnd}

theorem State.ending_done (done : e.done how) : s.ending e how = .taken ∨ s.ending e how = .notTaken := by
  rw [State.ending, State.tenureReport_done done]
  split
  · exact .inl rfl
  · exact .inr rfl

theorem State.ending_retry_iff : s.ending e how = .retry ↔ ¬ e.done how ∧ e.retry + 1 < s.retryLimit := by
  by_cases done : e.done how
  · exact iff_of_false (State.tenureReport_done_ne done) fun both => both.1 done
  · rw [State.ending, State.tenureReport_undone done]
    split
    next below => exact iff_of_true rfl ⟨done, below⟩
    next reached => exact iff_of_false (by simp) fun both => reached both.2

theorem State.ending_givenUp_iff : s.ending e how = .givenUp ↔ ¬ e.done how ∧ s.retryLimit ≤ e.retry + 1 := by
  by_cases done : e.done how
  · refine iff_of_false (fun givenUp => ?_) fun both => both.1 done
    rcases State.ending_done (s := s) done with h | h <;> rw [h] at givenUp <;> cases givenUp
  · rw [State.ending, State.tenureReport_undone done]
    split
    next below => exact iff_of_false (by simp) fun both => by omega
    next reached => exact iff_of_true rfl ⟨done, by omega⟩

theorem State.ending_taken (taken : TenureEnd.outcome how = .taken) : s.ending e how = .taken := by
  rw [State.ending, State.tenureReport_done (.inl taken), if_pos taken]

/-- A tenure neither TAKEN nor tried again is reported NOT-TAKEN or GIVEN-UP. -/
theorem State.ending_rest (untaken : ¬ TenureEnd.outcome how = .taken) (left : s.ending e how ≠ .retry) :
    s.ending e how = .notTaken ∨ s.ending e how = .givenUp := by
  by_cases done : e.done how
  · rw [State.ending, State.tenureReport_done done, if_neg untaken]
    exact .inl rfl
  · refine .inr (State.ending_givenUp_iff.2 ⟨done, ?_⟩)
    by_contra below
    exact left (State.ending_retry_iff.2 ⟨done, by omega⟩)

/-! ### What is presented of the own frame -/

variable {w : State} {f : LaneFrame}

/-- A frame that is not done is presented to none. -/
theorem State.presentsOwn_undone (undone : ¬ e.done how) (dest : f.dest = e.dest) : w.presentsOwn e f how = w := by
  refine if_neg fun presented => undone ?_
  obtain ⟨all, unspoiled⟩ := presented
  cases outcome : TenureEnd.outcome how with
  | taken => exact .inl outcome
  | notTaken => exact .inr ⟨outcome, by rw [← dest]; exact all⟩
  | spoiled => exact absurd outcome unspoiled

/-- The own frame's sender is no other station. -/
theorem State.presentBlocks_upb (mine : f.sender.toNat = w.own) : (w.presentBlocks f).upb = w.upb := by
  have exchange (kind : FrameKind) : (w.xchFrame f kind).upb = w.upb := by
    unfold State.xchFrame
    split
    · split
      · simp [mine]
      · simp [mine]
      · split <;> simp
      · rfl
    · rfl
  unfold State.presentBlocks
  split
  · simp
  · simp
  · simp
  · exact exchange _
  · exact exchange _
  · exact exchange _
  · rfl

/-- The station's own LINE-WANT and LINE-GIVE change nothing (R142, R144). -/
theorem State.presentsOwn_line {kind : FrameKind} (line : kind = .lineWant ∨ kind = .lineGive) (code : f.kind = kind.code)
    (mine : f.sender.toNat = w.own) (owner : e.owner ≠ .ntu) : w.presentsOwn e f how = w := by
  have blocks : w.presentBlocks f = w := by
    rw [State.presentBlocks, code]
    rcases line with rfl | rfl
    · change w.xchFrame f .lineWant = w
      simp [State.xchFrame, mine]
    · change w.xchFrame f .lineGive = w
      simp [State.xchFrame, mine]
  unfold State.presentsOwn State.ownNotice
  rw [blocks]
  split
  · exact if_neg (by simp [owner])
  · rfl

/-- The own NOTICE, which no block takes (R201, R208). -/
theorem State.presentsOwn_notice (code : f.kind = FrameKind.notice.code) (owner : e.owner = .ntu) :
    w.presentsOwn e f how =
      if f.dest = toAll ∧ TenureEnd.outcome how ≠ .spoiled ∧ w.serving = false ∧ 1 ≤ w.upbFree then
        { w with upb := { w.upb with inq :=
          w.upb.inq ++ [{ sender := byte w.own, dest := f.dest, kind := f.kind, body := f.body }] } }
      else w := by
  have blocks : w.presentBlocks f = w := by
    rw [State.presentBlocks, code]
    rfl
  unfold State.presentsOwn State.ownNotice
  rw [blocks]
  by_cases presented : f.dest = toAll ∧ TenureEnd.outcome how ≠ .spoiled
  · obtain ⟨all, unspoiled⟩ := presented
    rw [if_pos ⟨all, unspoiled⟩]
    by_cases free : w.serving = false ∧ 1 ≤ w.upbFree
    · rw [if_pos (by simpa [owner] using free), if_pos ⟨all, unspoiled, free⟩]
    · rw [if_neg (by simpa [owner] using free), if_neg fun both => free both.2.2]
  · rw [if_neg presented, if_neg fun both => presented ⟨both.1, both.2.1⟩]

/-- The computer's frame leaves UPB as it is (R164). -/
theorem State.presentsOwn_upb (mine : f.sender.toNat = w.own) (owner : e.owner ≠ .ntu) :
    (w.presentsOwn e f how).upb = w.upb := by
  unfold State.presentsOwn State.ownNotice
  split
  · rw [if_neg (by simp [owner])]
    exact State.presentBlocks_upb mine
  · rfl

end

/-! ### The own frames (R42 to R45) -/

theorem State.cancelClaim_sendList (s : State) : s.cancelClaim.lif.sendList.Sublist s.lif.sendList := by
  unfold State.cancelClaim
  split
  next c w rest _ =>
    rw [(State.retractSettled_keeps _).2.2.2.2.2.1]
    exact (State.withdrawStanding_sendList _ _).trans (State.withdrawStanding_sendList _ _)
  next => exact .refl _

/-- What frames cancelled with their CLAIM leave of a list is told of the list alone. -/
theorem Lif.PairCancelled.congr {l l' k : Lif} {c w : OwnFrame} (cancelled : l.PairCancelled k c w)
    (sends : l'.sendList = l.sendList) : l'.PairCancelled k c w := by
  obtain ⟨leaves, stays⟩ := cancelled
  refine ⟨fun q x standing entry => leaves q x standing ?_, fun x mem => stays x ?_⟩
  · rw [← entry, Lif.entry, Lif.entry, sends]
  · rw [← sends]
    exact mem

/-- Settling is told of ADM's lists but by what it leaves of them. -/
theorem State.RetractSettles.congr_lists {s s' u : State} {own : List OwnFrame} (settles : s.RetractSettles u own)
    (psq : s'.psq = s.psq) (adm : { s'.adm with roster := [], waiting := [], own := [] } =
      { s.adm with roster := [], waiting := [], own := [] }) (state : s'.ptu.state = s.ptu.state) :
    s'.RetractSettles u own := by
  unfold State.RetractSettles at *
  have lists (r : List (Nat × Time)) (w : List Nat) (o : List OwnFrame) :
      ({ s'.adm with roster := r, waiting := w, own := o } : Adm) = { s.adm with roster := r, waiting := w, own := o } :=
    congrArg (fun a : Adm => { a with roster := r, waiting := w, own := o }) adm
  obtain ⟨first, second⟩ := settles
  refine ⟨by rw [psq, state]; exact first, ?_⟩
  rw [psq, state]
  exact second.trans (lists _ _ _).symm

/-- The own frame at `seq` and those behind it (R45). -/
theorem later_eq {before after_ : List OwnFrame} {f : OwnFrame} {seq : Nat} (at_ : f.standing.isAt seq = true)
    (early : ∀ g ∈ before, g.standing.isAt seq = false) :
    (before ++ f :: after_).dropWhile (fun f => !f.standing.isAt seq) = f :: after_ := by
  rw [List.dropWhile_append_of_pos fun g mem => by simp [early g mem]]
  exact List.dropWhile_cons_of_neg (by simp [at_])

/-- The own frames with the one at `seq` and those behind it HELD again (R45). -/
theorem State.ownGivenUp_eq {s : State} {seq : Nat} {before after_ : List OwnFrame} {f : OwnFrame}
    (list : s.adm.own = before ++ f :: after_) (at_ : f.standing.isAt seq = true)
    (early : ∀ g ∈ before, g.standing.isAt seq = false ∧ ∀ h ∈ f :: after_, g.standing ≠ h.standing) :
    s.ownGivenUp seq = ({ ((f :: after_).map OwnFrame.standing).foldl State.withdrawStanding s with
      adm := { s.adm with own := before ++ (f :: after_).map (fun g => { g with standing := .held }) } } :
        State).cancelClaim := by
  obtain ⟨l, g, w, frame⟩ := State.OnlyWithdraws.foldl _ State.withdrawStanding_onlyWithdraws
    ((f :: after_).map OwnFrame.standing) s
  have held : s.adm.own.map (fun g =>
        if ((f :: after_).map OwnFrame.standing).contains g.standing then { g with standing := .held } else g) =
      before ++ (f :: after_).map (fun g => { g with standing := .held }) := by
    rw [list, List.map_append]
    congr 1
    · refine (List.map_congr_left fun g mem => ?_).trans (List.map_id _)
      refine if_neg fun among => ?_
      obtain ⟨h, here, same⟩ := List.mem_map.1 (List.contains_iff_mem.1 among)
      exact (early g mem).2 h here same.symm
    · exact List.map_congr_left fun g mem => if_pos (List.contains_iff_mem.2 (List.mem_map_of_mem mem))
  unfold State.ownGivenUp
  dsimp only
  rw [list, later_eq at_ fun g mem => (early g mem).1, frame]
  dsimp only
  rw [held]

/-- The own frame at `seq`, a retract, is done: it leaves the list and is settled (R42, R43). -/
theorem State.ownDone_retract {s : State} {seq : Nat} {f : OwnFrame}
    (found : s.adm.own.find? (fun g => g.standing.isAt seq) = some f) (retract : f.kind = .release ∨ f.kind = .withdraw) :
    s.ownDone seq =
      ({ s with adm := { s.adm with own := s.adm.own.filter (fun g => !g.standing.isAt seq) } } : State).retractSettled := by
  have notClaim : f.isClaim = false := by rcases retract with h | h <;> simp [OwnFrame.isClaim, h]
  rw [State.ownDone, found]
  exact if_neg (by simp [notClaim])

end Sys2Proof.Machine


namespace Sys2Proof.Machine

/-! ### The state after LIF's own part -/

theorem State.tenureRest_recvQueue (s : State) (how : TenureEnd) : (s.tenureRest how).lif.recvQueue = s.lif.recvQueue := by
  cases how with
  | slots spoil take => rfl
  | stopped error tail =>
    simp only [State.tenureRest, State.stopSending, State.mismatch, State.receiveError]
    split <;> split <;> rfl

theorem Lif.endTenure_recvQueue (l : Lif) (how : TenureEnd) : (l.endTenure how).recvQueue = l.recvQueue := by
  cases how <;> rfl

/-- LIF's own part of a tenure's end: its list and its give's read, with the queue of frames taken as it was. -/
theorem State.afterTenure_parts (s : State) (e : SendEntry) (how : TenureEnd) : ∃ l m,
    s.afterTenure e how = { s with lif := l, mctl := { s.mctl with waitSend := m } } ∧
    (s.ending e how = .retry → l.sendList =
      s.lif.sendList.map (fun x => if x.seq = e.seq then { x with retry := x.retry + 1, inTenure := false } else x)) ∧
    (s.ending e how ≠ .retry → l.sendList = s.lif.sendList.filter (fun x => x.seq ≠ e.seq)) ∧
    l.recvQueue = s.lif.recvQueue := by
  refine ⟨_, _, s.afterTenure_eq e how, State.afterTenure_retried, State.afterTenure_left, ?_⟩
  obtain ⟨l, g, m, frame⟩ := State.settleEntry_onlyWithdraws
    { s.tenureRest how with lif := (s.tenureRest how).lif.endTenure how } e.seq (s.ending e how)
  change s.afterTenure e how = _ at frame
  rw [frame]
  change ((s.tenureRest how).lif.endTenure how).recvQueue = _
  rw [Lif.endTenure_recvQueue, State.tenureRest_recvQueue]

/-- An entry of another frame stays, or a list without the frame has none of it. -/
theorem Lif.entry_left {l k : Lif} {seq q : Nat} {x : SendEntry}
    (left : k.sendList = l.sendList.filter (fun x => x.seq ≠ seq)) (entry : l.entry q = some x) :
    k.entry q = some x ∨ k.entry q = none := by
  by_cases same : q = seq
  · right
    refine Lif.entry_eq_none.2 fun y mem => ?_
    rw [left] at mem
    simpa [same] using (List.mem_filter.1 mem).2
  · left
    rw [← entry, Lif.entry, Lif.entry, left, List.find?_filter]
    congr 1
    funext y
    by_cases here : y.seq = q
    · simp [here, same]
    · simp [here]

/-! ### The own frames given up (R45) -/

theorem State.withdrawStandings_entry {seq : Nat} {x : SendEntry} (l : List Standing) (s : State)
    (entry : s.lif.entry seq = some x ∨ s.lif.entry seq = none) :
    (l.foldl State.withdrawStanding s).lif.entry seq = some x ∨ (l.foldl State.withdrawStanding s).lif.entry seq = none := by
  induction l generalizing s with
  | nil => exact entry
  | cons st l ih =>
    refine ih _ ?_
    rcases entry with here | none_
    · exact State.withdrawStanding_entry st here
    · exact .inr ((s.withdrawStanding_spec st).2.1 seq none_)

/-- The frame of a CLAIM that is cancelled leaves the send list (R44). -/
theorem State.cancelClaim_gone {s : State} {c w : OwnFrame} {rest : List OwnFrame} {q : Nat} {x : SendEntry}
    (found : cancelPair s.adm.own = some (c, w, rest)) (standing : c.standing = .listed q) (waits : x.inTenure = false)
    (entry : s.lif.entry q = some x ∨ s.lif.entry q = none) : s.cancelClaim.lif.entry q = none := by
  rcases entry with here | none_
  · exact (s.cancelClaim_cancels.2 c w rest found).2.1.leaves q x (.inl standing) here waits
  · exact Lif.entry_gone s.cancelClaim_sendList none_

/-! ### Retracts done (R32, R33, R42) -/

/-- A serving or uplink station's own retract passes R30's tests in MEMBER. -/
theorem State.admitTest_ownRetract {s : State} {f : LaneFrame} {kind : FrameKind} (legal : s.legalNumber = true)
    (member : s.ptu.state = .member) (all : f.dest = toAll) (mine : f.sender.toNat = s.own) (body : f.body = [])
    (retract : kind = .admitWithdraw ∨ kind = .admitRelease) : s.admitTest f kind = true := by
  have number : f.sender ≠ 0 ∧ f.sender ≠ 63 := by
    rw [← not_or, ← straps_legal_iff, mine]
    simpa [State.legalNumber, State.own] using legal
  rcases retract with rfl | rfl <;>
    simpa [State.admitTest, State.admActs, member, all, mine, admitBody, body] using number

/-- The lists without a station that had a place or waited, the head of the queue promoted (R32, R33, R29). -/
def Adm.retracted (a : Adm) (x slots : Nat) (now : Time) : Adm := ((a.dropRoster x).dropWaiting x).promote slots now

/-- The own retract, completed unspoiled, is applied and grants nothing (R32, R33, R164). -/
theorem State.presentsOwn_retract {s : State} {e : SendEntry} {f : LaneFrame} {kind : FrameKind} {how : TenureEnd}
    (legal : s.legalNumber = true) (member : s.ptu.state = .member) (ordered : AdmissionOrdered s)
    (code : f.kind = kind.code) (retract : kind = .admitWithdraw ∨ kind = .admitRelease) (all : f.dest = toAll)
    (mine : f.sender.toNat = s.own) (body : f.body = []) (owner : e.owner = .adm)
    (unspoiled : TenureEnd.outcome how ≠ .spoiled) : s.presentsOwn e f how =
      { s with adm := s.adm.retracted s.own (s.setting Settings.slotCount) s.now } := by
  have lists := ordered.lists
  have change : admitChange kind s.own (s.setting Settings.slotCount) s.now s.adm =
      (s.adm.dropRoster s.own).dropWaiting s.own := by
    rcases retract with rfl | rfl
    · exact lists.withdraw_eq
    · exact lists.release_eq
  have changed : s.changed (admitChange kind s.own (s.setting Settings.slotCount) s.now) =
      s.adm.retracted s.own (s.setting Settings.slotCount) s.now := by
    rw [State.changed, change, Adm.retracted]
  have out : s.own ∉ (s.changed (admitChange kind s.own (s.setting Settings.slotCount) s.now)).roster.map Prod.fst := by
    rw [changed]
    refine Adm.promote_other ?_ fun waits => ?_
    · simp [Adm.dropRoster, Adm.dropWaiting]
    · have := List.mem_of_mem_take waits
      simp [Adm.dropWaiting] at this
  have blocks : s.presentBlocks f = { s with adm := s.adm.retracted s.own (s.setting Settings.slotCount) s.now } := by
    have presented : s.presentBlocks f = s.admitFrame f kind := by
      rw [State.presentBlocks, code]
      rcases retract with rfl | rfl <;> rfl
    rw [presented, State.admitFrame_applied (.inr retract)
      (State.admitTest_ownRetract legal member all mine body retract), mine, State.admChange_ungranted (.inr (.inr out)),
      changed]
  unfold State.presentsOwn State.ownNotice
  rw [if_pos ⟨all, unspoiled⟩, blocks]
  exact if_neg (by simp [owner])

end Sys2Proof.Machine


namespace Sys2Proof.Machine

/-- A frame listed again has an entry outside its tenure. -/
theorem Lif.entry_retried {l k : Lif} {e : SendEntry}
    (listed : k.sendList =
      l.sendList.map (fun x => if x.seq = e.seq then { x with retry := x.retry + 1, inTenure := false } else x))
    (entry : l.entry e.seq = some e) : k.entry e.seq = some { e with retry := e.retry + 1, inTenure := false } := by
  have found (sends : List SendEntry) : sends.find? (fun x => x.seq = e.seq) = some e →
      (sends.map (fun x => if x.seq = e.seq then { x with retry := x.retry + 1, inTenure := false } else x)).find?
        (fun x => x.seq = e.seq) = some { e with retry := e.retry + 1, inTenure := false } := by
    induction sends with
    | nil => simp
    | cons x sends ih =>
      by_cases same : x.seq = e.seq
      · simp only [List.find?_cons, List.map_cons, same, decide_true, if_true]
        intro here
        rw [Option.some.inj here]
      · simpa [same] using ih
  rw [Lif.entry, listed]
  exact found l.sendList entry

/-- A frame's outcome is a new try or its end. -/
theorem State.ending_ended {s : State} {e : SendEntry} {how : TenureEnd} (left : s.ending e how ≠ .retry) :
    s.ending e how = .taken ∨ s.ending e how = .notTaken ∨ s.ending e how = .givenUp := by
  by_cases taken : TenureEnd.outcome how = .taken
  · exact .inl (State.ending_taken taken)
  · exact .inr (State.ending_rest taken left)

/-- UPB's free places are told of its queue, the frames taken and the computer's frames in the list. -/
theorem State.upbFree_congr {s t : State} (upb : t.upb = s.upb) (queue : t.lif.recvQueue = s.lif.recvQueue)
    (sends : t.lif.sendList.filter (fun e => e.owner = .upb) = s.lif.sendList.filter (fun e => e.owner = .upb)) :
    t.upbFree = s.upbFree := by
  rw [State.upbFree, State.upbFree, upb, queue, sends]

/-! ### The CONSOLE-OUT whose tenure has ended (R70, R75, R76) -/

section

variable {s : State} {o : OutFrame} {seq : Nat} (out : s.cfw.out = some o) (at_ : o.isAt seq = true)
include out at_

theorem State.outEnded_orphaned (orphaned : o.orphaned = true) (change_ : Watcher → Watcher) :
    s.outEnded seq change_ = s.clearOut := by
  simp [State.outEnded, out, at_, orphaned]

theorem State.outEnded_owned (owned : o.orphaned = false) {change_ : Watcher → Watcher} :
    s.outEnded seq change_ = { s with cfw := { s.cfw with
      out := none, watchers := s.cfw.watchers.map (fun w => if w.station = o.station then change_ w else w) } } := by
  simp [State.outEnded, out, at_, owned]

theorem State.outEnded_watcher (owned : o.orphaned = false) {change_ : Watcher → Watcher} {w : Watcher}
    (station : o.station = w.station) (watches : w ∈ s.cfw.watchers) :
    change_ w ∈ (s.outEnded seq change_).cfw.watchers := by
  rw [State.outEnded_owned out at_ owned]
  exact List.mem_map.2 ⟨w, watches, if_pos station.symm⟩

end

/-- A watcher whose frame was given up, its loss counted from the frame's start (R76). -/
theorem Watcher.givenUp_inFlight {w : Watcher} {r : InFlight} {c : Ccu} {now : Time} (flies : w.inFlight = some r)
    (ascends : r.start ≤ r.finish) : w.givenUp c now =
      let ptr := if r.finish < c.oldest then w.sendPtr else max r.start c.oldest
      let lost := if c.oldest ≤ r.start then 0 else min r.finish c.oldest - r.start
      { w with
        inFlight := none, sendPtr := ptr, gap := min (w.gap + lost) 4294967295, pause := some (after now 100)
        waitStart := if ptr < c.stored then some now else none } := by
  have lost : min r.finish c.oldest - r.start = if c.oldest ≤ r.start then 0 else min r.finish c.oldest - r.start := by
    split <;> omega
  rw [Watcher.givenUp, flies]
  dsimp only
  rw [← lost]
  rfl

/-- One pin drops in turn as it drops alone. -/
theorem Lpm.UnpinnedInTurn.one {p q : Lpm} {pos : Nat} (turn : p.UnpinnedInTurn [pos] q) : p.Unpinned q pos := by
  cases turn with
  | next first rest =>
    cases rest
    exact first

/-! ### What the owners make of an outcome (R42 to R45, R75, R76, R143, R144, R150, R199, R201, R207) -/

/-- The tenure of a frame has ended: LIF's own part of it is done, and the owner is yet to be told. -/
structure State.TenureOver (s w : State) (e : SendEntry) (t : Tenure) (how : TenureEnd) (l : Lif)
    (m : Option (Nat × Nat)) : Prop where
  frame   : w = { s with lif := l, mctl := { s.mctl with waitSend := m } }
  listed  : s.lif.entry e.seq = some e
  retried : s.ending e how = .retry → l.sendList =
    s.lif.sendList.map (fun x => if x.seq = e.seq then { x with retry := x.retry + 1, inTenure := false } else x)
  left    : s.ending e how ≠ .retry → l.sendList = s.lif.sendList.filter (fun x => x.seq ≠ e.seq)
  queue   : l.recvQueue = s.lif.recvQueue
  code    : t.frame.kind = e.kind.code
  dest    : t.frame.dest = e.dest
  mine    : t.frame.sender.toNat = s.own

/-- The frame is presented to this station's own blocks, and its outcome told to its owner. -/
def State.outcomeTold (s w : State) (e : SendEntry) (t : Tenure) (how : TenureEnd) : State :=
  (w.presentsOwn e t.frame how).report e t.frame (s.ending e how)

section

variable {s w : State} {e : SendEntry} {t : Tenure} {how : TenureEnd} {l : Lif} {m : Option (Nat × Nat)}

theorem State.TenureOver.mine_after (h : s.TenureOver w e t how l m) : t.frame.sender.toNat = w.own := by
  rw [h.frame]
  exact h.mine

theorem State.TenureOver.unpresented (h : s.TenureOver w e t how l m) (undone : ¬ e.done how) :
    w.presentsOwn e t.frame how = w := State.presentsOwn_undone undone h.dest

/-- A new try of an own frame: it is QUEUED again (R43, R44). -/
theorem State.TenureOver.own_retried (h : s.TenureOver w e t how l m) (owner : e.owner = .adm)
    (again : s.ending e how = .retry) :
    let own := s.adm.own.map (fun f => if f.standing.isAt e.seq then { f with standing := .listed e.seq } else f)
    let lif : Lif := { s.lif with sendList := s.lif.sendList.map (fun x =>
      if x.seq = e.seq then { x with retry := x.retry + 1, inTenure := false } else x) }
    (cancelPair own = none →
      (s.outcomeTold w e t how).adm = { s.adm with own := own } ∧ (s.outcomeTold w e t how).psq = s.psq) ∧
    (∀ c x rest, cancelPair own = some (c, x, rest) → s.RetractSettles (s.outcomeTold w e t how) rest ∧
      (s.outcomeTold w e t how).adm.roster = s.adm.roster ∧ (s.outcomeTold w e t how).adm.waiting = s.adm.waiting ∧
      lif.PairCancelled (s.outcomeTold w e t how).lif c x) := by
  intro own lif
  have undone : ¬ e.done how := (State.ending_retry_iff.1 again).1
  have unmoved := h.unpresented undone
  obtain ⟨isW, listed, listRetried, listLeft, queue, code, dest, mine⟩ := h
  have uIs : s.outcomeTold w e t how =
      ({ w with adm := { s.adm with own := own } } : State).cancelClaim := by
    rw [State.outcomeTold, unmoved, State.report, owner, again, isW]
    rfl
  rw [uIs]
  obtain ⟨still, cancels⟩ := ({ w with adm := { s.adm with own := own } } : State).cancelClaim_cancels
  refine ⟨fun none_ => ?_, fun c x rest found => ?_⟩
  · rw [still none_, isW]
    exact ⟨rfl, rfl⟩
  · obtain ⟨settles, pair, only⟩ := cancels c x rest found
    refine ⟨settles.congr (by rw [isW]) rfl (by rw [isW]), by rw [only], by rw [only],
      pair.congr ?_⟩
    rw [isW]
    exact (listRetried again).symm

/-- An own frame is given up: it and every later one are HELD again (R45). -/
theorem State.TenureOver.own_givenUp (h : s.TenureOver w e t how l m) (owner : e.owner = .adm)
    (lost : s.ending e how = .givenUp) {before after_ : List OwnFrame} {f : OwnFrame}
    (list : s.adm.own = before ++ f :: after_) (at_ : f.standing.isAt e.seq = true)
    (early : ∀ g ∈ before, g.standing.isAt e.seq = false ∧ ∀ k ∈ f :: after_, g.standing ≠ k.standing) :
    let own := before ++ (f :: after_).map (fun g => { g with standing := .held })
    (cancelPair own = none →
      (s.outcomeTold w e t how).adm = { s.adm with own := own } ∧ (s.outcomeTold w e t how).psq = s.psq) ∧
    (∀ c x rest, cancelPair own = some (c, x, rest) → s.RetractSettles (s.outcomeTold w e t how) rest ∧
      (s.outcomeTold w e t how).adm.roster = s.adm.roster ∧ (s.outcomeTold w e t how).adm.waiting = s.adm.waiting ∧
      ∀ q y, c.standing = .listed q → s.lif.entry q = some y → y.inTenure = false →
        (s.outcomeTold w e t how).lif.entry q = none) ∧
    ∀ g ∈ after_, ∀ q y, g.standing = .listed q → s.lif.entry q = some y → y.inTenure = false →
      (s.outcomeTold w e t how).lif.entry q = none := by
  intro own
  have undone : ¬ e.done how := (State.ending_givenUp_iff.1 lost).1
  have unmoved := h.unpresented undone
  obtain ⟨isW, listed, listRetried, listLeft, queue, code, dest, mine⟩ := h
  have mineList : w.adm.own = before ++ f :: after_ := by rw [isW]; exact list
  have uIs : s.outcomeTold w e t how = w.ownGivenUp e.seq := by
    rw [State.outcomeTold, unmoved, State.report, owner, lost]
    rfl
  have left : l.sendList = s.lif.sendList.filter (fun x => x.seq ≠ e.seq) :=
    listLeft (by rw [lost]; simp)
  have entries {q : Nat} {x : SendEntry} (entry : s.lif.entry q = some x) :
      w.lif.entry q = some x ∨ w.lif.entry q = none := by
    rw [isW]
    exact Lif.entry_left left entry
  have equation := State.ownGivenUp_eq mineList at_ early
  obtain ⟨sends, give, wait, folded⟩ := State.OnlyWithdraws.foldl _ State.withdrawStanding_onlyWithdraws
    ((f :: after_).map OwnFrame.standing) w
  generalize isX : ({ ((f :: after_).map OwnFrame.standing).foldl State.withdrawStanding w with
    adm := { w.adm with own := before ++ (f :: after_).map (fun g => { g with standing := .held }) } } : State) = x
    at equation
  have frame : x.adm = { s.adm with own := own } ∧ x.psq = s.psq ∧ x.ptu = s.ptu := by
    rw [← isX, folded, isW]
    exact ⟨rfl, rfl, rfl⟩
  obtain ⟨xAdm, xPsq, xPtu⟩ := frame
  have xLif : x.lif = (((f :: after_).map OwnFrame.standing).foldl State.withdrawStanding w).lif := by rw [← isX]
  rw [uIs, equation]
  obtain ⟨still, cancels⟩ := x.cancelClaim_cancels
  rw [xAdm] at still cancels
  refine ⟨fun none_ => ?_, fun c y rest found => ?_, fun g mem q y standing entry waits => ?_⟩
  · rw [still none_]
    exact ⟨xAdm, xPsq⟩
  · obtain ⟨settles, -, only⟩ := cancels c y rest found
    refine ⟨settles.congr xPsq.symm (by rw [xAdm]) (by rw [xPtu]), ?_, ?_, fun q z standing entry waits => ?_⟩
    · rw [only]
    · rw [only]
    · refine State.cancelClaim_gone (by rw [xAdm]; exact found) standing waits ?_
      rw [xLif]
      exact State.withdrawStandings_entry _ w (entries entry)
  · refine Lif.entry_gone x.cancelClaim_sendList ?_
    rw [xLif]
    exact State.withdrawStandings_gone waits _
      (List.mem_map.2 ⟨g, List.mem_cons_of_mem _ mem, standing⟩) w (entries entry)

/-- A retract seen on the lane takes this station's own place, and is settled (R32, R33, R42). -/
theorem State.TenureOver.own_done (h : s.TenureOver w e t how l m) (owner : e.owner = .adm) (isDone : e.done how)
    (all : e.dest = toAll) (body : t.frame.body = []) (member : s.ptu.state = .member) (legal : s.legalNumber = true)
    (ordered : AdmissionOrdered s) {f : OwnFrame} (found : s.adm.own.find? (fun g => g.standing.isAt e.seq) = some f)
    (kinds : (e.kind = .admitRelease ∧ f.kind = .release) ∨ (e.kind = .admitWithdraw ∧ f.kind = .withdraw)) :
    let rosterLess := s.adm.roster.filter (fun g => g.1 ≠ s.own)
    let waitingLess := s.adm.waiting.filter (fun y => y ≠ s.own)
    let room := s.setting Settings.slotCount - rosterLess.length
    s.RetractSettles (s.outcomeTold w e t how) (s.adm.own.filter (fun g => !g.standing.isAt e.seq)) ∧
    (s.outcomeTold w e t how).adm.roster = rosterLess ++ (waitingLess.take room).map (fun y => (y, s.now)) ∧
    (s.outcomeTold w e t how).adm.waiting = waitingLess.drop room := by
  intro rosterLess waitingLess room
  have mineW := h.mine_after
  obtain ⟨isW, listed, listRetried, listLeft, queue, code, dest, mine⟩ := h
  obtain ⟨kind, code', retract, retracts⟩ : ∃ kind : FrameKind, t.frame.kind = kind.code ∧
      (kind = .admitWithdraw ∨ kind = .admitRelease) ∧ (f.kind = .release ∨ f.kind = .withdraw) := by
    rcases kinds with ⟨kind, h⟩ | ⟨kind, h⟩
    · exact ⟨_, by rw [code, kind], .inr rfl, .inl h⟩
    · exact ⟨_, by rw [code, kind], .inl rfl, .inr h⟩
  have unspoiled : TenureEnd.outcome how ≠ .spoiled := by
    rcases isDone with h | ⟨h, -⟩ <;> rw [h] <;> simp
  have presented : w.presentsOwn e t.frame how =
      { w with adm := s.adm.retracted s.own (s.setting Settings.slotCount) s.now } := by
    rw [State.presentsOwn_retract (by rw [isW]; exact legal) (by rw [isW]; exact member)
      (ordered.congr (by rw [isW]) (by rw [isW])) code' retract (dest.trans all) mineW body owner unspoiled, isW]
    rfl
  have uIs : s.outcomeTold w e t how = ({ w with
      adm := { s.adm.retracted s.own (s.setting Settings.slotCount) s.now with
        own := s.adm.own.filter (fun g => !g.standing.isAt e.seq) } } : State).retractSettled := by
    have leaves := State.ownDone_retract (s := { w with
      adm := s.adm.retracted s.own (s.setting Settings.slotCount) s.now }) found retracts
    rw [State.outcomeTold, presented, State.report, owner]
    rcases State.ending_done (s := s) isDone with h | h <;> rw [h] <;> exact leaves
  rw [uIs]
  generalize isX : ({ w with
      adm := { s.adm.retracted s.own (s.setting Settings.slotCount) s.now with
        own := s.adm.own.filter (fun g => !g.standing.isAt e.seq) } } : State) = x
  have lists := (State.retractSettled_powerMoves x).only.sameLists
  refine ⟨?_, ?_, ?_⟩
  · have settles := x.retractSettled_settles
    rw [← isX] at settles ⊢
    exact settles.congr_lists (by rw [isW]) rfl (by rw [isW])
  · rw [lists.1, ← isX]
    rfl
  · rw [lists.2.1, ← isX]
    rfl

/-- NTU takes a NOTICE's outcome, UPB what the notice shows (R199, R207). -/
theorem State.TenureOver.notice_told (h : s.TenureOver w e t how l m) (owner : e.owner = .ntu) (kind : e.kind = .notice) :
    (s.outcomeTold w e t how).ntu = s.ntu.report s.now e.seq (s.ending e how) ∧
    (s.outcomeTold w e t how).upb = (w.presentsOwn e t.frame how).upb := by
  have code := h.code
  have isW := h.frame
  unfold State.outcomeTold
  have presented := State.presentsOwn_notice (w := w) (f := t.frame) (how := how) (by rw [code, kind]) owner
  generalize w.presentsOwn e t.frame how = v at presented
  have same : v.ntu = s.ntu ∧ v.now = s.now := by
    rw [presented]
    split <;> rw [isW] <;> exact ⟨rfl, rfl⟩
  have uIs : v.report e t.frame (s.ending e how) =
      { v with ntu := s.ntu.report s.now e.seq (s.ending e how) } := by
    rw [State.report, owner]
    dsimp only
    rw [same.1, same.2]
  rw [uIs]
  exact ⟨rfl, rfl⟩

/-- An uplink station's own notice to all enters its inbox as it was sent (R207). -/
theorem State.TenureOver.notice_presented (h : s.TenureOver w e t how l m) (owner : e.owner = .ntu)
    (kind : e.kind = .notice) (all : e.dest = toAll)
    (foreign : ∀ x ∈ s.lif.sendList, x.owner = .upb → x.seq ≠ e.seq) :
    (s.serving = false → TenureEnd.outcome how ≠ .spoiled → 1 ≤ s.upbFree → (s.outcomeTold w e t how).upb = { s.upb with
      inq := s.upb.inq ++ [{ sender := byte s.own, dest := 63, kind := 7, body := t.frame.body }] }) ∧
    (s.serving = true ∨ TenureEnd.outcome how = .spoiled ∨ s.upbFree = 0 → (s.outcomeTold w e t how).upb = s.upb) := by
  rw [(h.notice_told owner kind).2]
  obtain ⟨isW, listed, listRetried, listLeft, queue, code, dest, mine⟩ := h
  have presented := State.presentsOwn_notice (w := w) (f := t.frame) (how := how) (by rw [code, kind]) owner
  have free (unspoiled : TenureEnd.outcome how ≠ .spoiled) : w.upbFree = s.upbFree := by
    have left : l.sendList = s.lif.sendList.filter (fun x => x.seq ≠ e.seq) := by
      refine listLeft fun again => ?_
      refine (State.ending_retry_iff.1 again).1 ?_
      cases outcome : TenureEnd.outcome how with
      | taken => exact .inl outcome
      | notTaken => exact .inr ⟨outcome, all⟩
      | spoiled => exact absurd outcome unspoiled
    rw [isW]
    refine State.upbFree_congr (s := s) rfl queue ?_
    dsimp only
    rw [left, List.filter_filter]
    refine List.filter_congr fun x mem => ?_
    by_cases computers : x.owner = .upb
    · simp [computers, foreign x mem computers]
    · simp [computers]
  have serves : w.serving = s.serving := by rw [isW]; rfl
  have upb : w.upb = s.upb := by rw [isW]
  refine ⟨fun uplink unspoiled place => ?_, fun no => ?_⟩
  · rw [presented, if_pos ⟨dest.trans all, unspoiled, serves.trans uplink, by rw [free unspoiled]; exact place⟩,
      dest, all, code, kind, ← upb]
    rw [isW]
    rfl
  · rw [presented, if_neg, upb]
    rintro ⟨-, unspoiled, uplink, place⟩
    rcases no with serving | spoiled | full
    · rw [serves, serving] at uplink
      cases uplink
    · exact unspoiled spoiled
    · rw [free unspoiled] at place
      omega

/-- An orphaned CONSOLE-OUT is done with, whatever its outcome (R70). -/
theorem State.TenureOver.orphan_told (h : s.TenureOver w e t how l m) (owner : e.owner = .cfw)
    (kind : e.kind = .consoleOut) {o : OutFrame} (out : s.cfw.out = some o) (at_ : o.isAt e.seq = true)
    (orphaned : o.orphaned = true) : (s.outcomeTold w e t how).cfw = { s.cfw with out := none } ∧
      ∀ x ∈ (s.outcomeTold w e t how).lif.sendList, x.seq ≠ e.seq := by
  obtain ⟨isW, listed, listRetried, listLeft, queue, code, dest, mine⟩ := h
  have outW : w.cfw.out = some o := by rw [isW]; exact out
  rw [State.outcomeTold, State.presentsOwn_unheeded (.inr (.inr (by rw [code, kind]))) (by simp [owner]), State.report, owner]
  dsimp only
  by_cases again : s.ending e how = .retry
  · have entryW : w.lif.entry e.seq = some { e with retry := e.retry + 1, inTenure := false } := by
      rw [isW]
      exact Lif.entry_retried (listRetried again) listed
    have uIs : w.reportCfw e.seq (s.ending e how) = (w.lifWithdraw e.seq).clearOut := by
      rw [again]
      exact State.outBack_orphaned outW at_ orphaned
    rw [uIs]
    refine ⟨?_, Lif.entry_eq_none.1 ((w.lifWithdraw_spec e.seq).1 _ entryW rfl)⟩
    rw [State.clearOut, State.lifWithdraw_frame, isW]
  · have uIs : w.reportCfw e.seq (s.ending e how) = w.clearOut := by
      rcases State.ending_ended again with h | h | h <;> rw [h] <;> exact State.outEnded_orphaned outW at_ orphaned _
    rw [uIs, State.clearOut, isW]
    refine ⟨rfl, fun x mem => ?_⟩
    change x ∈ l.sendList at mem
    rw [listLeft again] at mem
    simpa using (List.mem_filter.1 mem).2

/-- A watcher's CONSOLE-OUT (R75, R76). -/
theorem State.TenureOver.out_told (h : s.TenureOver w e t how l m) (owner : e.owner = .cfw)
    (kind : e.kind = .consoleOut) {o : OutFrame} {x : Watcher} {r : InFlight} (out : s.cfw.out = some o)
    (at_ : o.isAt e.seq = true) (owned : o.orphaned = false) (station : o.station = x.station)
    (watches : x ∈ s.cfw.watchers) (flies : x.inFlight = some r) :
    (s.ending e how = .retry → (s.outcomeTold w e t how).cfw =
      { s.cfw with out := some { o with standing := .frame (.listed e.seq) } }) ∧
    (s.ending e how ≠ .retry → (s.outcomeTold w e t how).cfw.out = none) ∧
    (e.done how → { x with inFlight := none, gap := x.gap - r.gap, nextMark := r.resume } ∈
      (s.outcomeTold w e t how).cfw.watchers) ∧
    (s.ending e how = .givenUp → r.start ≤ r.finish →
      let oldest := s.ccu.oldest
      let ptr := if r.finish < oldest then x.sendPtr else max r.start oldest
      let lost := if oldest ≤ r.start then 0 else min r.finish oldest - r.start
      { x with
        inFlight := none, sendPtr := ptr, gap := min (x.gap + lost) 4294967295, pause := some (after s.now 100)
        waitStart := if ptr < s.ccu.stored then some s.now else none } ∈ (s.outcomeTold w e t how).cfw.watchers) := by
  obtain ⟨isW, listed, listRetried, listLeft, queue, code, dest, mine⟩ := h
  have outW : w.cfw.out = some o := by rw [isW]; exact out
  have watchesW : x ∈ w.cfw.watchers := by rw [isW]; exact watches
  rw [State.outcomeTold, State.presentsOwn_unheeded (.inr (.inr (by rw [code, kind]))) (by simp [owner]), State.report, owner]
  dsimp only
  refine ⟨fun again => ?_, fun left => ?_, fun isDone => ?_, fun lost ascends => ?_⟩
  · rw [again]
    change (w.outBack e.seq).cfw = _
    rw [State.outBack_standing outW at_ owned, isW]
  · have ended (change_ : Watcher → Watcher) : (w.outEnded e.seq change_).cfw.out = none := by
      rw [State.outEnded_owned outW at_ owned]
    rcases State.ending_ended left with h | h | h <;> rw [h] <;> exact ended _
  · have changed := State.outEnded_watcher (change_ := Watcher.taken) outW at_ owned station watchesW
    rw [show x.taken = { x with inFlight := none, gap := x.gap - r.gap, nextMark := r.resume } by
      rw [Watcher.taken, flies]] at changed
    rcases State.ending_done (s := s) isDone with h | h <;> rw [h] <;> exact changed
  · have changed := State.outEnded_watcher (change_ := fun y => y.givenUp w.ccu w.now) outW at_ owned station watchesW
    rw [Watcher.givenUp_inFlight flies ascends] at changed
    rw [lost]
    rw [isW] at changed ⊢
    exact changed

/-- A want's LINE-WANT (R143). -/
theorem State.TenureOver.want_told (h : s.TenureOver w e t how l m) (owner : e.owner = .xchWant)
    (kind : e.kind = .lineWant) : (s.outcomeTold w e t how).xch = { s.xch with
      wants := s.xch.wants.map (fun x => match x.state with
        | .queued st =>
          if st.isAt e.seq then
            (if e.retry + 1 < s.retryLimit ∧
                ¬ (TenureEnd.outcome how = .taken ∨ (TenureEnd.outcome how = .notTaken ∧ e.dest = toAll)) then
              { x with state := .queued (.listed e.seq) }
             else { x with state := .sent, timer := some (after s.now (s.setting Settings.wantTimer)) })
          else x
        | _ => x)
      gives := (s.outcomeTold w e t how).xch.gives } := by
  have mineW := h.mine_after
  obtain ⟨isW, listed, listRetried, listLeft, queue, code, dest, mine⟩ := h
  have xch : w.xch = s.xch := by rw [isW]
  have dueW : w.wantDue = after s.now (s.setting Settings.wantTimer) := by rw [isW]; rfl
  rw [State.outcomeTold, State.presentsOwn_line (.inl rfl) (by rw [code, kind]) mineW (by simp [owner]), State.report, owner]
  dsimp only
  by_cases again : s.ending e how = .retry
  · have both : e.retry + 1 < s.retryLimit ∧ ¬ e.done how := (State.ending_retry_iff.1 again).symm
    rw [again]
    rw [show (w.reportWant e.seq .retry).xch = s.xch.restand e.seq (.listed e.seq) by rw [← xch]; rfl]
    refine congrArg (fun l => Xch.mk l (s.xch.restand e.seq (.listed e.seq)).gives s.xch.fillBufs)
      (List.map_congr_left fun x _ => ?_)
    unfold Want.restand
    cases x.state with
    | queued st => exact if_congr Iff.rfl (if_pos both).symm rfl
    | _ => rfl
  · have never : ¬ (e.retry + 1 < s.retryLimit ∧ ¬ e.done how) := fun both =>
      again (State.ending_retry_iff.2 both.symm)
    have uIs : w.reportWant e.seq (s.ending e how) = w.wantSent e.seq := by
      rcases State.ending_ended again with h | h | h <;> rw [h] <;> rfl
    rw [uIs]
    rw [show (w.wantSent e.seq).xch =
      { s.xch with wants := s.xch.wants.map (fun x =>
          x.sentAt e.seq (after s.now (s.setting Settings.wantTimer))) } by rw [← xch, ← dueW]; rfl]
    refine congrArg (fun l => Xch.mk l s.xch.gives s.xch.fillBufs) (List.map_congr_left fun x _ => ?_)
    unfold Want.sentAt
    cases x.state with
    | queued st => exact if_congr Iff.rfl (if_neg never).symm rfl
    | _ => rfl

/-- A give's LINE-GIVE (R144). -/
theorem State.TenureOver.give_told (h : s.TenureOver w e t how l m) (owner : e.owner = .xchGive)
    (kind : e.kind = .lineGive) :
    (s.ending e how = .retry → (s.outcomeTold w e t how).lpm = s.lpm ∧ (s.outcomeTold w e t how).xch.gives =
      s.xch.gives.map (fun g => if g.standing.isAt e.seq then { g with standing := .listed e.seq } else g)) ∧
    (s.ending e how ≠ .retry → (s.outcomeTold w e t how).xch =
        { s.xch with gives := s.xch.gives.filter (fun g => !g.standing.isAt e.seq) } ∧
      ∀ g, s.xch.gives.filter (fun g => g.standing.isAt e.seq) = [g] →
        s.lpm.Unpinned (s.outcomeTold w e t how).lpm g.line) := by
  have mineW := h.mine_after
  obtain ⟨isW, listed, listRetried, listLeft, queue, code, dest, mine⟩ := h
  rw [State.outcomeTold, State.presentsOwn_line (.inr rfl) (by rw [code, kind]) mineW (by simp [owner]), State.report, owner]
  dsimp only
  refine ⟨fun again => ?_, fun left => ?_⟩
  · rw [again, isW]
    exact ⟨rfl, rfl⟩
  · have uIs : w.reportGive e.seq (s.ending e how) = w.giveEnded e.seq := by
      rcases State.ending_ended left with h | h | h <;> rw [h] <;> rfl
    have frame := w.dropGives_frame (fun g => g.standing.isAt e.seq)
    have unpins := (w.dropGives_frames (fun g => g.standing.isAt e.seq)).2.2
    rw [uIs, State.giveEnded]
    have same : w.xch = s.xch ∧ w.lpm = s.lpm := by rw [isW]; exact ⟨rfl, rfl⟩
    rw [same.1, same.2] at unpins
    refine ⟨by rw [frame, same.1], fun g one => ?_⟩
    rw [one] at unpins
    exact unpins.one

/-- A computer's own frame: given up, it returns to the computer (R207). -/
theorem State.TenureOver.computer_told (h : s.TenureOver w e t how l m) (owner : e.owner = .upb) :
    (s.ending e how = .givenUp → (s.outcomeTold w e t how).upb = { s.upb with inq := s.upb.inq ++
      [{ sender := byte s.own, dest := e.dest, kind := e.kind.code ||| 128, body := t.frame.body }] }) ∧
    (s.ending e how ≠ .givenUp → (s.outcomeTold w e t how).upb = s.upb) := by
  have mineW := h.mine_after
  obtain ⟨isW, listed, listRetried, listLeft, queue, code, dest, mine⟩ := h
  have upb : (w.presentsOwn e t.frame how).upb = s.upb := by
    rw [State.presentsOwn_upb mineW (by simp [owner]), isW]
  have sld : (w.presentsOwn e t.frame how).sld = s.sld := by
    rw [(w.presentsOwn_keeps e t.frame how).2.2.2.1, isW]
  rw [State.outcomeTold, State.report, owner]
  refine ⟨fun lost => ?_, fun other => ?_⟩
  · rw [lost]
    simp only [State.reportUpb, State.failedUnit, State.own, upb, sld, dest, code]
  · generalize s.ending e how = r at other
    cases r
    case givenUp => exact absurd rfl other
    all_goals exact upb

end

/-- Settles O19: by the owner of the frame, and by what LIF reports of it. -/
theorem ownersTakeTheOutcome : Obligations.OwnersTakeTheOutcome := by
  intro s e t how straps released ends tenure entry noRestart code dest mine limit taken done retried givenUp back due
  have listed : s.lif.entry e.seq = some e := by rw [Lif.entry_seq entry]; exact entry
  obtain ⟨l, m, isW, listRetried, listLeft, queue⟩ := s.afterTenure_parts e how
  have runs := exec_senderTenureEnd (straps := straps) released ends tenure entry noRestart
  rw [isW] at runs
  have told : s.TenureOver { s with lif := l, mctl := { s.mctl with waitSend := m } } e t how l m :=
    ⟨rfl, listed, listRetried, listLeft, queue, code, dest, mine⟩
  generalize ({ s with lif := l, mctl := { s.mctl with waitSend := m } } : State) = w at runs told
  have retries : s.ending e how = .retry ↔ retried := State.ending_retry_iff
  have givesUp : s.ending e how = .givenUp ↔ givenUp := State.ending_givenUp_iff
  refine ⟨s.outcomeTold w e t how, runs, fun owner => ⟨fun again => ?_, fun lost before after_ f list at_ early => ?_,
    fun isDone all body member legal ordered f found kinds => ?_⟩, fun owner kind => ?_,
    fun owner kind o out at_ orphaned => ?_, fun owner kind o x r out at_ owned station watches flies => ?_,
    fun owner kind => ?_, fun owner kind => ?_, fun owner => ?_⟩
  · exact told.own_retried owner (retries.2 again)
  · exact told.own_givenUp owner (givesUp.2 lost) list at_ early
  · exact told.own_done owner isDone all body member legal ordered found kinds
  · refine ⟨fun isTaken k inTenure once => ?_, fun isTaken k inTenure again => ?_, fun again => ?_,
      fun untaken left => ?_, told.notice_presented owner kind⟩ <;> rw [(told.notice_told owner kind).1]
    · rw [State.ending_taken isTaken]
      simp [Ntu.report, Ntu.taken, inTenure, once]
    · rw [State.ending_taken isTaken]
      simp [Ntu.report, Ntu.taken, inTenure, again]
    · rw [retries.2 again]
      rfl
    · rcases State.ending_rest untaken (mt retries.1 left) with h | h <;> rw [h] <;> rfl
  · exact told.orphan_told owner kind out at_ orphaned
  · obtain ⟨again, ended, isDone, lost⟩ := told.out_told owner kind out at_ owned station watches flies
    exact ⟨again ∘ retries.2, fun left => ended (mt retries.1 left), isDone, lost ∘ givesUp.2⟩
  · exact told.want_told owner kind
  · obtain ⟨again, ended⟩ := told.give_told owner kind
    exact ⟨again ∘ retries.2, fun left => ended (mt retries.1 left)⟩
  · obtain ⟨lost, kept⟩ := told.computer_told owner
    exact ⟨lost ∘ givesUp.2, fun other => kept (mt givesUp.1 other)⟩

end Sys2Proof.Machine


/-! ## Notices, and changes of the admission lists in turn (R16, R29, R40, R198) -/

namespace Sys2Proof.Machine

/-! ### What is told of a kind (R198) -/

/-- The detail of the pending notice of a kind. -/
def Ntu.told (n : Ntu) (kind : NoticeKind) : Option Bytes :=
  (n.pending.find? (fun p => p.kind = kind)).map PendingNotice.detail

/-- A pending notice of a kind with a new detail and time. -/
def PendingNotice.retold (kind : NoticeKind) (detail : Bytes) (now : Time) (p : PendingNotice) : PendingNotice :=
  if p.kind = kind then { p with detail := detail, time := now } else p

theorem PendingNotice.retold_kind (kind : NoticeKind) (detail : Bytes) (now : Time) (p : PendingNotice) :
    (p.retold kind detail now).kind = p.kind := by
  unfold PendingNotice.retold
  split <;> rfl

theorem find?_retold (l : List PendingNotice) (kind other : NoticeKind) (detail : Bytes) (now : Time) :
    (l.map (PendingNotice.retold kind detail now)).find? (fun p => p.kind = other) =
      (l.find? (fun p => p.kind = other)).map (PendingNotice.retold kind detail now) := by
  rw [List.find?_map]
  congr 2
  funext p
  simp only [Function.comp, PendingNotice.retold_kind]

/-- A raise tells its own kind anew, and of every other what was told. -/
theorem Ntu.told_raise (n : Ntu) (now : Time) (kind other : NoticeKind) (detail : Bytes) :
    (n.raise now kind detail).told other = if other = kind then some detail else n.told other := by
  unfold Ntu.told Ntu.raise
  split
  next again =>
    change Option.map _ ((n.pending.map (PendingNotice.retold kind detail now)).find? _) = _
    rw [find?_retold, Option.map_map]
    split
    next same =>
      subst same
      obtain ⟨p, mem, kind⟩ := List.any_eq_true.1 again
      cases found : n.pending.find? (fun p => p.kind = other) with
      | none => exact absurd kind (by simpa using List.find?_eq_none.1 found p mem)
      | some q =>
        have own : q.kind = other := by simpa using List.find?_some found
        simp [PendingNotice.retold, own]
    next different =>
      cases found : n.pending.find? (fun p => p.kind = other) with
      | none => rfl
      | some q =>
        have own : q.kind = other := by simpa using List.find?_some found
        simp [PendingNotice.retold, own, different]
  next fresh =>
    have none_ (same : other = kind) : n.pending.find? (fun p => p.kind = other) = none :=
      List.find?_eq_none.2 fun p mem => by
        subst same
        simpa using fun here : p.kind = other => fresh (List.any_eq_true.2 ⟨p, mem, by simpa using here⟩)
    dsimp only
    rw [List.find?_append]
    split
    next same =>
      rw [none_ same]
      simp [same]
    next different =>
      have : ¬ kind = other := fun same => different same.symm
      simp [this]

theorem State.takesRaises_iff (s : State) :
    s.takesRaises = true ↔ s.ptu.state = .listen ∨ s.ptu.state = .member ∨ s.ptu.state = .silent := by
  simp [State.takesRaises, or_assoc]

theorem State.told_raise (s : State) (kind other : NoticeKind) (detail : Bytes) :
    (s.raise kind detail).ntu.told other =
      if other = kind ∧ s.takesRaises = true then some detail else s.ntu.told other := by
  rw [State.raise_ntu]
  by_cases takes : s.takesRaises = true
  · rw [if_pos takes, Ntu.told_raise]
    exact if_congr (by simp [takes]) rfl rfl
  · rw [if_neg takes, if_neg (by simp [takes])]

theorem State.told_raise_other {s : State} {kind other : NoticeKind} {detail : Bytes} (different : other ≠ kind) :
    (s.raise kind detail).ntu.told other = s.ntu.told other := by
  rw [State.told_raise, if_neg fun both => different both.1]

theorem State.told_raise_same {s : State} {kind : NoticeKind} {detail : Bytes} (takes : s.takesRaises = true) :
    (s.raise kind detail).ntu.told kind = some detail := by
  rw [State.told_raise, if_pos ⟨rfl, takes⟩]

/-! ### A grant (R16) -/

theorem State.told_psqEnter {s : State} {st : SeqState} {var : Variant} {start : Bool} {kind : NoticeKind}
    (other : kind ≠ .powerState) : (s.psqEnter st var start).ntu.told kind = s.ntu.told kind := by
  unfold State.psqEnter
  dsimp only
  rw [State.told_raise_other other]
  congr 1
  simp only [State.tellWdu_keeps, State.tellMfn_keeps, State.askClaim_keeps]
  split <;> split <;> simp <;> split <;> simp

theorem State.told_startedOn {s : State} {kind : NoticeKind} (other : kind ≠ .powerState) :
    s.startedOn.ntu.told kind = s.ntu.told kind := by
  have enters := State.told_psqEnter (s := (s.setPending .none).mark .powerOn 0) (st := .on) (var := .none)
    (start := false) other
  unfold State.startedOn
  dsimp only
  split
  · split
    · rw [(State.releaseSlot_keeps _).2.2.2.2.2.2.2.2.2.2.2.2.2.1]
      exact enters
    · exact enters
  · exact enters

/-- A grant tells of POWER-STATE alone. -/
theorem State.told_granted {s : State} {kind : NoticeKind} (other : kind ≠ .powerState) :
    s.granted.ntu.told kind = s.ntu.told kind := by
  unfold State.granted
  split
  · split
    · dsimp only
      split
      · rw [State.told_startedOn other, State.told_psqEnter other]
        rfl
      · rw [State.told_psqEnter other]
        rfl
    · rw [State.told_psqEnter other]
      rfl
  · simp

/-- What a raise tells, whatever else is told. -/
theorem State.told_raise_congr {s : State} {n : Ntu} {kind : NoticeKind} (same : n.told kind = s.ntu.told kind)
    (raised : NoticeKind) (detail : Bytes) :
    (s.raise raised detail).ntu.told kind = (({ s with ntu := n } : State).raise raised detail).ntu.told kind := by
  rw [State.told_raise, State.told_raise, same]
  rfl

/-- A grant as it would be with other notices pending, of which POWER-STATE is told alike. -/
theorem State.GrantTaken.retold {s w : State} {n : Ntu} (taken : ({ s with ntu := n } : State).GrantTaken w)
    (same : n.told .powerState = s.ntu.told .powerState) :
    ∃ v, s.GrantTaken v ∧ v.psq = w.psq ∧ v.wdu = w.wdu ∧ v.ccu = w.ccu ∧
      v.ntu.told .powerState = w.ntu.told .powerState := by
  obtain ⟨powerOn, restore, alreadyUp, refused⟩ := taken
  by_cases starts : s.psq.state = some .awaitingSlot ∧ s.psq.claimAsked = true
  · obtain ⟨state, asked⟩ := starts
    have noRefusal {P : Prop} : s.psq.state ≠ some .awaitingSlot ∨ s.psq.claimAsked = false → P := fun no => by
      simp [state, asked] at no
    by_cases isPowerOn : s.psq.variant = .powerOn
    · obtain ⟨psq, ntu, ccu, wdu⟩ := powerOn state asked isPowerOn
      refine ⟨{ w with ntu := (s.raise .powerState [6, 1, s.psq.pendingAct.code, 1]).ntu },
        ⟨fun _ _ _ => ⟨psq, rfl, ccu, wdu⟩, fun _ _ other => ?_, fun _ _ other => ?_, noRefusal⟩, rfl, rfl, rfl, ?_⟩
      · rw [isPowerOn] at other
        cases other
      · rw [isPowerOn] at other
        cases other
      · rw [ntu]
        exact State.told_raise_congr same _ _
    · by_cases isRestore : s.psq.variant = .feedRestore
      · cases pgood : s.psq.pgood with
        | false =>
          obtain ⟨psq, ntu, ccu, wdu⟩ := restore state asked isRestore pgood
          refine ⟨{ w with ntu := (s.raise .powerState [6, 2, s.psq.pendingAct.code, 1]).ntu },
            ⟨fun _ _ other => absurd other isPowerOn, fun _ _ _ _ => ⟨psq, rfl, ccu, wdu⟩, fun _ _ _ up => ?_, noRefusal⟩,
            rfl, rfl, rfl, ?_⟩
          · rw [pgood] at up
            cases up
          · rw [ntu]
            exact State.told_raise_congr same _ _
        | true =>
          by_cases free : s.setting Settings.settle = 0 → cancelPair (s.adm.ownWith [{ kind := .release }]) = none
          · obtain ⟨psq, ntu, ccu, wdu⟩ := alreadyUp state asked isRestore pgood free
            refine ⟨{ w with
                ntu := ((s.raise .powerState [6, 2, s.psq.pendingAct.code, 1]).raise .powerState [7, 0, 0, 1]).ntu },
              ⟨fun _ _ other => absurd other isPowerOn, fun _ _ _ down => ?_, fun _ _ _ _ _ => ⟨psq, rfl, ccu, wdu⟩,
                noRefusal⟩, rfl, rfl, rfl, ?_⟩
            · rw [pgood] at down
              cases down
            · rw [ntu]
              simp only [State.told_raise, same, State.takesRaises, State.raise_keeps]
          · exact ⟨w, ⟨fun _ _ other => absurd other isPowerOn, fun _ _ _ down => by simp [pgood] at down,
              fun _ _ _ _ free' => absurd free' free, noRefusal⟩, rfl, rfl, rfl, rfl⟩
      · exact ⟨w, ⟨fun _ _ other => absurd other isPowerOn, fun _ _ other => absurd other isRestore,
          fun _ _ other => absurd other isRestore, noRefusal⟩, rfl, rfl, rfl, rfl⟩
  · have noStart {P : Prop} : s.psq.state = some .awaitingSlot → s.psq.claimAsked = true → P :=
      fun state asked => absurd ⟨state, asked⟩ starts
    have refuses : s.psq.state ≠ some .awaitingSlot ∨ s.psq.claimAsked = false := by
      by_contra none_
      rw [not_or] at none_
      exact starts ⟨not_not.1 none_.1, by simpa using none_.2⟩
    by_cases free : cancelPair (s.adm.ownWith [{ kind := .release }]) = none
    · obtain ⟨psq, ntu, ccu, wdu⟩ := refused refuses free
      exact ⟨{ w with ntu := s.ntu }, ⟨noStart, noStart, noStart, fun _ _ => ⟨psq, rfl, ccu, wdu⟩⟩, rfl, rfl, rfl,
        by rw [ntu]; exact same.symm⟩
    · exact ⟨w, ⟨noStart, noStart, noStart, fun _ free' => absurd free' free⟩, rfl, rfl, rfl, rfl⟩

end Sys2Proof.Machine


namespace Sys2Proof.Machine

/-! ### Changes of the lists in turn (R29, R40) -/

/-- `t` is `s` after changes of other stations' places: this station's own place is lost by none, and its promotion is
one grant (R16, R40). -/
structure State.AdmMoved (s t : State) : Prop where
  same   : t.now = s.now ∧ t.sld = s.sld ∧ t.ptu = s.ptu
  stays  : s.own ∈ s.adm.roster.map Prod.fst → s.own ∈ t.adm.roster.map Prod.fst
  still  : s.own ∈ s.adm.roster.map Prod.fst ∨ s.own ∉ t.adm.roster.map Prod.fst →
    t.psq = s.psq ∧ t.wdu = s.wdu ∧ t.ccu = s.ccu ∧ t.adm.own = s.adm.own ∧
    t.ntu.told .powerState = s.ntu.told .powerState
  grants : s.serving = true → s.ptu.state = .member → s.own ∉ s.adm.roster.map Prod.fst →
    s.own ∈ t.adm.roster.map Prod.fst →
    (s.grantReleases = true → cancelPair (s.adm.ownWith [{ kind := .release }]) = none) →
    ∃ w, s.GrantTaken w ∧ t.psq = w.psq ∧ t.wdu = w.wdu ∧ t.ccu = w.ccu ∧
      t.ntu.told .powerState = w.ntu.told .powerState
  told   : ∀ kind, kind ≠ .powerState → kind ≠ .rosterConflict → t.ntu.told kind = s.ntu.told kind

theorem State.AdmMoved.refl (s : State) : s.AdmMoved s :=
  ⟨⟨rfl, rfl, rfl⟩, id, fun _ => ⟨rfl, rfl, rfl, rfl, rfl⟩, fun _ _ out into => absurd into out, fun _ _ _ => rfl⟩

theorem State.AdmMoved.trans {s t u : State} (first : s.AdmMoved t) (second : t.AdmMoved u) : s.AdmMoved u := by
  obtain ⟨now, sld, ptu⟩ := first.same
  obtain ⟨now', sld', ptu'⟩ := second.same
  have own : t.own = s.own := by rw [State.own, State.own, sld]
  have stays := second.stays
  have still := second.still
  have grants := second.grants
  rw [own] at stays still grants
  refine ⟨⟨now'.trans now, sld'.trans sld, ptu'.trans ptu⟩, fun within => stays (first.stays within), fun no => ?_,
    fun serving member out into uncancelled => ?_, fun kind power conflict => ?_⟩
  · have firstNo : s.own ∈ s.adm.roster.map Prod.fst ∨ s.own ∉ t.adm.roster.map Prod.fst :=
      no.imp_right fun out into => out (stays into)
    have secondNo : s.own ∈ t.adm.roster.map Prod.fst ∨ s.own ∉ u.adm.roster.map Prod.fst := no.imp_left first.stays
    obtain ⟨psq, wdu, ccu, list, told⟩ := first.still firstNo
    obtain ⟨psq', wdu', ccu', list', told'⟩ := still secondNo
    exact ⟨psq'.trans psq, wdu'.trans wdu, ccu'.trans ccu, list'.trans list, told'.trans told⟩
  · by_cases between : s.own ∈ t.adm.roster.map Prod.fst
    · obtain ⟨w, taken, psq, wdu, ccu, told⟩ := first.grants serving member out between uncancelled
      obtain ⟨psq', wdu', ccu', -, told'⟩ := still (.inl between)
      exact ⟨w, taken, psq'.trans psq, wdu'.trans wdu, ccu'.trans ccu, told'.trans told⟩
    · obtain ⟨psq, wdu, ccu, list, told⟩ := first.still (.inr between)
      have listed (l : List OwnFrame) : t.adm.ownWith l = s.adm.ownWith l := by simp [Adm.ownWith, list]
      have serves : t.serving = true := by rw [State.serving, sld]; exact serving
      obtain ⟨w, taken, psq', wdu', ccu', told'⟩ := grants serves (by rw [ptu]; exact member) between into (by
        rw [State.grantReleases_congr psq sld, listed]
        exact uncancelled)
      obtain ⟨v, taken', psqV, wduV, ccuV, toldV⟩ := State.GrantTaken.retold (s := s) (n := t.ntu)
        (taken.congr psq.symm now.symm sld.symm ccu.symm wdu.symm rfl (by rw [ptu]) list.symm) told
      exact ⟨v, taken', psq'.trans psqV.symm, wdu'.trans wduV.symm, ccu'.trans ccuV.symm, told'.trans toldV.symm⟩
  · exact (second.told kind power conflict).trans (first.told kind power conflict)

/-- One change, which leaves this station's own frames and its own place. -/
theorem State.admChange_admMoved {s : State} {change : Adm → Adm} (list : (change s.adm).own = s.adm.own)
    (place : s.own ∈ s.adm.roster.map Prod.fst → s.own ∈ (change s.adm).roster.map Prod.fst) :
    s.AdmMoved (s.admChange change) := by
  have keeps := s.admChange_keeps change
  have roster := (s.admChange_lists change).1
  have numbers : (s.changed change).roster.map Prod.fst = _ := Adm.promote_numbers _ _ _
  refine ⟨⟨keeps.1, keeps.2.2.2.1, keeps.2.2.2.2.1⟩, fun within => ?_, fun no => ?_,
    fun serving member out into uncancelled => ?_, fun kind power _ => ?_⟩
  · rw [roster, numbers]
    exact List.mem_append_left _ (place within)
  · rw [roster] at no
    rw [State.admChange_ungranted (.inr no)]
    exact ⟨rfl, rfl, rfl, list, rfl⟩
  · rw [roster] at into
    obtain ⟨taken, -⟩ := State.admChange_taken serving member out into list uncancelled
    exact ⟨_, taken, rfl, rfl, rfl, rfl⟩
  · unfold State.admChange
    dsimp only
    split
    · exact State.told_granted power
    · rfl

theorem State.raise_conflict_admMoved (s : State) (detail : Bytes) : s.AdmMoved (s.raise .rosterConflict detail) := by
  rw [State.raise_eq]
  exact ⟨⟨rfl, rfl, rfl⟩, id, fun _ => ⟨rfl, rfl, rfl, rfl, State.told_raise_other (by simp)⟩,
    fun _ _ out into => absurd into out, fun _ _ conflict => State.told_raise_other conflict⟩

/-- A station leaves both lists. -/
def Adm.dropBoth (a : Adm) (x : Nat) : Adm := (a.dropRoster x).dropWaiting x

theorem Adm.mem_dropRoster {a : Adm} {x y : Nat} (other : y ≠ x) (within : y ∈ a.roster.map Prod.fst) :
    y ∈ (a.dropRoster x).roster.map Prod.fst := by
  obtain ⟨e, mem, rfl⟩ := List.mem_map.1 within
  exact List.mem_map.2 ⟨e, List.mem_filter.2 ⟨mem, by simpa using other⟩, rfl⟩

/-- A station's removal from the lists (R35). -/
theorem State.admRemove_admMoved {s : State} {x : Nat} (other : x ≠ s.own) : s.AdmMoved (s.admRemove x) :=
  State.admChange_admMoved rfl fun within => Adm.mem_dropRoster (Ne.symm other) within

theorem State.admRemove_lists (s : State) (x : Nat) :
    (s.admRemove x).adm.roster = ((s.adm.dropBoth x).promote (s.setting Settings.slotCount) s.now).roster ∧
    (s.admRemove x).adm.waiting = ((s.adm.dropBoth x).promote (s.setting Settings.slotCount) s.now).waiting ∧
    (s.admRemove x).adm.expired = s.adm.expired ∧ (s.admRemove x).adm.copied = s.adm.copied :=
  s.admChange_lists _

/-- A station that both lists lost is in neither, promotion done. -/
theorem Adm.dropBoth_gone (a : Adm) (x slots : Nat) (now : Time) :
    x ∉ ((a.dropBoth x).promote slots now).roster.map Prod.fst ∧ x ∉ ((a.dropBoth x).promote slots now).waiting := by
  have out : x ∉ (a.dropBoth x).roster.map Prod.fst := by simp [Adm.dropBoth, Adm.dropRoster, Adm.dropWaiting]
  have unwaited : x ∉ (a.dropBoth x).waiting := by simp [Adm.dropBoth, Adm.dropWaiting]
  exact ⟨Adm.promote_other out fun waits => unwaited (List.mem_of_mem_take waits),
    fun waits => unwaited (List.mem_of_mem_drop waits)⟩

/-- A promotion before a station's removal leaves what the removal alone does. -/
theorem Adm.promote_dropBoth_promote (a : Adm) (x slots : Nat) (now : Time) :
    ((a.promote slots now).dropBoth x).promote slots now = (a.dropBoth x).promote slots now := by
  generalize isK : slots - a.roster.length = k
  have split : a.waiting.filter (fun y => y ≠ x) =
      (a.waiting.take k).filter (fun y => y ≠ x) ++ (a.waiting.drop k).filter (fun y => y ≠ x) := by
    rw [← List.filter_append, List.take_append_drop]
  have promoted : ((a.waiting.take k).map (fun y => (y, now))).filter (fun e => e.1 ≠ x) =
      ((a.waiting.take k).filter (fun y => y ≠ x)).map (fun y => (y, now)) := by
    rw [List.filter_map]
    rfl
  have few : ((a.waiting.take k).filter (fun y => y ≠ x)).length ≤ slots - (a.roster.filter (fun e => e.1 ≠ x)).length := by
    have first := (a.waiting.take k).length_filter_le (fun y => y ≠ x)
    have second := a.roster.length_filter_le (fun e => e.1 ≠ x)
    have third := a.waiting.length_take_le k
    omega
  unfold Adm.dropBoth Adm.dropRoster Adm.dropWaiting Adm.promote
  dsimp only
  rw [isK, List.filter_append, promoted, split]
  generalize (a.waiting.take k).filter (fun y => y ≠ x) = firsts at few
  generalize (a.waiting.drop k).filter (fun y => y ≠ x) = others
  generalize a.roster.filter (fun e => e.1 ≠ x) = roster at few
  have places : slots - (roster ++ firsts.map (fun y => (y, now))).length = slots - roster.length - firsts.length := by
    rw [List.length_append, List.length_map]
    omega
  rw [places, List.take_append, List.drop_append, List.take_of_length_le few, List.drop_of_length_le few]
  simp [List.append_assoc]

end Sys2Proof.Machine


/-! ## Another station's BEACON (R35, R37, R46, R183, R186, R194) -/

namespace Sys2Proof.Machine

/-! ### The decoder reads what the layout writes (R183) -/

theorem byteAt_append (before after_ : Bytes) (c : Byte) : byteAt (before ++ c :: after_) before.length = c := by
  simp [byteAt]

theorem byte_toNat {n : Nat} (small : n < 256) : (byte n).toNat = n := by
  simpa [byte] using Nat.mod_eq_of_lt small

theorem map_byte_toNat {l : List Nat} (small : ∀ y ∈ l, y < 256) : (l.map byte).map (fun x => x.toNat) = l := by
  rw [List.map_map]
  refine (List.map_congr_left fun y mem => ?_).trans (List.map_id _)
  exact byte_toNat (small y mem)

/-- The twelve bytes before a beacon's roster. -/
def Beacon.front (b : Beacon) : Bytes :=
  [Role.code b.role, b.state.code] ++ be 2 b.digest.toNat ++ [b.seq.state, b.seq.variant, b.seq.pendingAct, b.seq.slotHeld] ++
  be 2 b.attach.1 ++ be 1 b.attach.2 ++ [byte b.roster.length]

theorem Beacon.bytes_eq (b : Beacon) : b.bytes =
    b.front ++ b.roster.map byte ++ byte b.waiting.length :: (b.waiting.map byte ++ [byte b.holder]) := by
  simp [Beacon.bytes, Beacon.front]

theorem Beacon.front_length (b : Beacon) : b.front.length = 12 := by simp [Beacon.front, be_length]

theorem beaconOf_bytes {f : LaneFrame} {b : Beacon} (all : f.dest = toAll) (body : f.body = b.bytes) (fits : b.Fits) :
    beaconOf f = some b := by
  obtain ⟨state, ⟨attach, gen⟩, ⟨rosterFew, rosterSmall⟩, ⟨waitingFew, waitingSmall⟩, holder⟩ := fits
  have front := b.front_length
  have rosterCount : (byteAt b.bytes 11).toNat = b.roster.length := by
    rw [← byte_toNat (n := b.roster.length) (by omega)]
    rfl
  have waitingCount : (byteAt b.bytes (12 + b.roster.length)).toNat = b.waiting.length := by
    have place := byteAt_append (b.front ++ b.roster.map byte) (b.waiting.map byte ++ [byte b.holder]) (byte b.waiting.length)
    rw [List.length_append, front, List.length_map, ← Beacon.bytes_eq] at place
    rw [place, byte_toNat (by omega)]
  have last : (byteAt b.bytes (13 + b.roster.length + b.waiting.length)).toNat = b.holder := by
    have place := byteAt_append (b.front ++ b.roster.map byte ++ byte b.waiting.length :: b.waiting.map byte) []
      (byte b.holder)
    rw [List.append_assoc, List.cons_append, ← Beacon.bytes_eq] at place
    simp only [List.length_append, List.length_cons, front, List.length_map] at place
    rw [show 13 + b.roster.length + b.waiting.length = 12 + b.roster.length + (b.waiting.length + 1) by omega, place,
      byte_toNat holder]
  have length : b.bytes.length = 14 + b.roster.length + b.waiting.length := by
    rw [Beacon.bytes_eq]
    simp [front]
    omega
  have digest : field b.bytes 2 2 = b.digest.toNat :=
    field_of_append (before := [Role.code b.role, b.state.code]) (after := _) rfl rfl b.digest.isLt
  have image : field b.bytes 8 2 = b.attach.1 :=
    field_of_append (before := [Role.code b.role, b.state.code] ++ be 2 b.digest.toNat ++
      [b.seq.state, b.seq.variant, b.seq.pendingAct, b.seq.slotHeld]) (after := be 1 b.attach.2 ++
      (byte b.roster.length :: b.roster.map byte) ++ (byte b.waiting.length :: b.waiting.map byte) ++ [byte b.holder])
      (by simp [Beacon.bytes]) (by simp [be_length]) attach
  have generation : field b.bytes 10 1 = b.attach.2 :=
    field_of_append (before := [Role.code b.role, b.state.code] ++ be 2 b.digest.toNat ++
      [b.seq.state, b.seq.variant, b.seq.pendingAct, b.seq.slotHeld] ++ be 2 b.attach.1) (after :=
      (byte b.roster.length :: b.roster.map byte) ++ (byte b.waiting.length :: b.waiting.map byte) ++ [byte b.holder])
      (by simp [Beacon.bytes]) (by simp [be_length]) gen
  have roster : ((b.bytes.drop 12).take b.roster.length).map (fun x => x.toNat) = b.roster := by
    rw [Beacon.bytes_eq, List.append_assoc, List.drop_left' front, List.take_left' (by simp), map_byte_toNat rosterSmall]
  have waiting : ((b.bytes.drop (13 + b.roster.length)).take b.waiting.length).map (fun x => x.toNat) = b.waiting := by
    rw [Beacon.bytes_eq, List.append_cons, List.drop_left' (by simp [front]; omega), List.take_left' (by simp),
      map_byte_toNat waitingSmall]
  have role : (if byteAt b.bytes 0 = 1 then some Role.serving else if byteAt b.bytes 0 = 2 then some Role.uplink else none) =
      some b.role := by
    change (if Role.code b.role = 1 then _ else if Role.code b.role = 2 then _ else _) = _
    cases b.role <;> rfl
  have station : (if byteAt b.bytes 1 = 3 then some StationState.member
      else if byteAt b.bytes 1 = 4 then some StationState.haltedSetup else none) = some b.state := by
    change (if b.state.code = 3 then _ else if b.state.code = 4 then _ else _) = _
    rcases state with h | h <;> rw [h] <;> rfl
  unfold beaconOf
  dsimp only
  rw [body, rosterCount, waitingCount, role, station, digest, image, generation, roster, waiting, last,
    if_pos (by simp [all, length, rosterFew, waitingFew])]
  simp
  rfl

theorem beaconOf_short {f : LaneFrame} (short : f.dest ≠ toAll ∨ f.body.length < 14) : beaconOf f = none := by
  unfold beaconOf
  refine if_neg ?_
  rcases short with other | short
  · simp [other]
  · have : ¬ f.body.length = 14 + (byteAt f.body 11).toNat + (byteAt f.body (12 + (byteAt f.body 11).toNat)).toNat := by
      omega
    simp [this]

/-! ### The sender's entry, and the rack-mismatch condition (R183, R186) -/

theorem State.evalMismatch_ptu (s : State) :
    s.evalMismatch.ptu = { s.ptu with mismatch := !s.ptu.mismatched.isEmpty } := by
  unfold State.evalMismatch
  dsimp only
  split
  next same => rw [same]
  next => rw [(State.raise_keeps _ _ _).2.2.2.2.1]

theorem State.evalMismatch_told {s : State} {kind : NoticeKind} (other : kind ≠ .rackMismatch) :
    s.evalMismatch.ntu.told kind = s.ntu.told kind := by
  unfold State.evalMismatch
  dsimp only
  split
  · rfl
  · exact State.told_raise_other other

/-- A change of the condition is told. -/
theorem State.evalMismatch_changed {s : State} (takes : s.takesRaises = true)
    (changed : (!s.ptu.mismatched.isEmpty) ≠ s.ptu.mismatch) : s.evalMismatch.ntu.told .rackMismatch =
      some [flag (!s.ptu.mismatched.isEmpty), byte s.ptu.mismatched.length, byte (s.ptu.mismatched.headD 0)] := by
  unfold State.evalMismatch
  dsimp only
  rw [if_neg changed]
  exact State.told_raise_same takes

theorem State.evalMismatch_same {s : State} (same : (!s.ptu.mismatched.isEmpty) = s.ptu.mismatch) : s.evalMismatch = s :=
  if_pos same

theorem State.evalMismatch_eq (s : State) : s.evalMismatch = { s with ptu := s.evalMismatch.ptu, ntu := s.evalMismatch.ntu } := by
  unfold State.evalMismatch
  dsimp only
  split
  · rfl
  · rw [State.raise_eq]

end Sys2Proof.Machine


namespace Sys2Proof.Machine

/-! ### Repair (R37) -/

section

variable {s : State} {x : Nat} {b : Beacon}

/-- The branches of a repair: nothing, a conflict told, or one change of the sender's own place. -/
theorem State.repair_cases (s : State) (x : Nat) (b : Beacon) : s.repair x b = s ∨
    s.repair x b = s.raise .rosterConflict [byte x] ∨
    ∃ change : Adm → Adm, s.repair x b = s.admChange change ∧ (change s.adm).own = s.adm.own ∧
      (change s.adm).expired = s.adm.expired ∧ (change s.adm).copied = s.adm.copied ∧
      (∀ y ∈ s.adm.roster.map Prod.fst, y ≠ x → y ∈ (change s.adm).roster.map Prod.fst) ∧
      (change s.adm).dropBoth x = s.adm.dropBoth x := by
  have dropRoster (y : Nat) (within : y ∈ s.adm.roster.map Prod.fst) (other : y ≠ x) :
      y ∈ (s.adm.dropRoster x).roster.map Prod.fst := Adm.mem_dropRoster other within
  unfold State.repair
  dsimp only
  split
  · split
    · exact .inl rfl
    · split
      · exact .inr (.inl rfl)
      · split
        · exact .inl rfl
        · split
          · refine .inr (.inr ⟨_, rfl, rfl, rfl, rfl, fun y within _ => ?_, ?_⟩)
            · simp only [Adm.joinRoster, List.map_append]
              exact List.mem_append_left _ within
            · simp [Adm.joinRoster, Adm.dropBoth, Adm.dropRoster, Adm.dropWaiting]
          · exact .inr (.inl rfl)
  · split
    · split
      · refine .inr (.inr ⟨_, rfl, rfl, rfl, rfl, dropRoster, ?_⟩)
        simp [Adm.joinWaiting, Adm.dropBoth, Adm.dropRoster, Adm.dropWaiting]
      · split
        · exact .inl rfl
        · refine .inr (.inr ⟨_, rfl, rfl, rfl, rfl, fun y within _ => within, ?_⟩)
          simp [Adm.joinWaiting, Adm.dropBoth, Adm.dropRoster, Adm.dropWaiting]
    · split
      · refine .inr (.inr ⟨_, rfl, rfl, rfl, rfl, dropRoster, ?_⟩)
        simp [Adm.dropBoth, Adm.dropRoster, Adm.dropWaiting]
      · split
        · refine .inr (.inr ⟨_, rfl, rfl, rfl, rfl, fun y within _ => within, ?_⟩)
          simp [Adm.dropBoth, Adm.dropRoster, Adm.dropWaiting]
        · exact .inl rfl

theorem State.repair_admMoved (other : x ≠ s.own) : s.AdmMoved (s.repair x b) := by
  rcases s.repair_cases x b with same | conflict | ⟨change, changed, list, -, -, place, -⟩
  · rw [same]
    exact .refl s
  · rw [conflict]
    exact s.raise_conflict_admMoved _
  · rw [changed]
    exact State.admChange_admMoved list fun within => place _ within (Ne.symm other)

/-- Repair leaves the hold limits and the copy alone. -/
theorem State.repair_marks (s : State) (x : Nat) (b : Beacon) :
    (s.repair x b).adm.expired = s.adm.expired ∧ (s.repair x b).adm.copied = s.adm.copied := by
  rcases s.repair_cases x b with same | conflict | ⟨change, changed, -, expired, copied, -, -⟩
  · rw [same]
    exact ⟨rfl, rfl⟩
  · rw [conflict, State.raise_eq]
    exact ⟨rfl, rfl⟩
  · obtain ⟨-, -, isExpired, isCopied⟩ := s.admChange_lists change
    rw [changed]
    exact ⟨isExpired.trans expired, isCopied.trans copied⟩

/-- The lists of a removal read the lists alone. -/
theorem Adm.promote_dropBoth_congr {a c : Adm} (roster : c.roster = a.roster) (waiting : c.waiting = a.waiting)
    (x slots : Nat) (now : Time) :
    ((c.dropBoth x).promote slots now).roster = ((a.dropBoth x).promote slots now).roster ∧
    ((c.dropBoth x).promote slots now).waiting = ((a.dropBoth x).promote slots now).waiting := by
  simp [Adm.promote, Adm.dropBoth, Adm.dropRoster, Adm.dropWaiting, roster, waiting]

/-- A repair before the sender's removal leaves the lists that the removal alone leaves (R35, R37). -/
theorem State.repair_admRemove (s : State) (x : Nat) (b : Beacon) :
    ((s.repair x b).admRemove x).adm.roster =
      ((s.adm.dropBoth x).promote (s.setting Settings.slotCount) s.now).roster ∧
    ((s.repair x b).admRemove x).adm.waiting =
      ((s.adm.dropBoth x).promote (s.setting Settings.slotCount) s.now).waiting := by
  obtain ⟨now, -, -, sld, -⟩ := s.repair_keeps x b
  obtain ⟨roster, waiting, -, -⟩ := (s.repair x b).admRemove_lists x
  rw [roster, waiting, now, show (s.repair x b).setting Settings.slotCount = s.setting Settings.slotCount by
    rw [State.setting, sld, State.setting]]
  rcases s.repair_cases x b with same | conflict | ⟨change, changed, -, -, -, -, drops⟩
  · rw [same]
    exact ⟨rfl, rfl⟩
  · rw [conflict, State.raise_eq]
    exact ⟨rfl, rfl⟩
  · obtain ⟨isRoster, isWaiting, -, -⟩ := s.admChange_lists change
    rw [changed]
    obtain ⟨first, second⟩ := Adm.promote_dropBoth_congr isRoster isWaiting x (s.setting Settings.slotCount) s.now
    rw [first, second, State.changed, Adm.promote_dropBoth_promote, drops]
    exact ⟨rfl, rfl⟩

end

end Sys2Proof.Machine


namespace Sys2Proof.Machine

/-- The table of R37. -/
theorem State.repair_eq (s : State) (x : Nat) (b : Beacon) : s.repair x b =
    if x ∈ b.roster then
      if x ∈ s.adm.roster.map Prod.fst then s
      else if x ∈ s.adm.waiting then s.raise .rosterConflict [byte x]
      else if x ∈ s.adm.expired.map Prod.fst then s
      else if s.adm.roster.length < s.setting Settings.slotCount then s.admChange (fun a => a.joinRoster x s.now)
      else s.raise .rosterConflict [byte x]
    else if x ∈ b.waiting then
      if x ∈ s.adm.roster.map Prod.fst then s.admChange (fun a => (a.dropRoster x).joinWaiting x)
      else if x ∈ s.adm.waiting then s
      else s.admChange (fun a => a.joinWaiting x)
    else if x ∈ s.adm.roster.map Prod.fst then s.admChange (fun a => a.dropRoster x)
    else if x ∈ s.adm.waiting then s.admChange (fun a => a.dropWaiting x)
    else s := by
  have expired : s.adm.expired.any (fun e => e.1 = x) = true ↔ x ∈ s.adm.expired.map Prod.fst := by
    simp [List.any_eq_true]
  unfold State.repair
  simp only [Adm.inRoster_iff, Adm.isWaiting_iff, expired, List.contains_iff_mem]

/-! ### The copy (R46) -/

/-- The numbers of a beacon that the copy takes into the roster. -/
def Beacon.copied (b : Beacon) (slots : Nat) : List Nat := (legalNumbers b.roster).eraseDups.take slots

/-- The numbers of a beacon that the copy takes into the waiting list. -/
def Beacon.copiedWaiting (b : Beacon) (slots : Nat) : List Nat :=
  ((legalNumbers b.waiting).filter (fun y => !(b.copied slots).contains y)).eraseDups

theorem State.copyLists_eq (s : State) (b : Beacon) : s.copyLists b = ({ s with adm := { s.adm with
    roster := (b.copied (s.setting Settings.slotCount)).map (fun y => (y, s.now))
    waiting := b.copiedWaiting (s.setting Settings.slotCount)
    copied := true } } : State).admChange id := by
  unfold State.copyLists
  dsimp only
  rw [copyRoster_foldl _ _ _ rfl, copyWaiting_foldl _ rfl _ _ s.now rfl]
  rfl

theorem State.copyLists_lists (s : State) (b : Beacon) :
    let copied := b.copied (s.setting Settings.slotCount)
    let waits := b.copiedWaiting (s.setting Settings.slotCount)
    let free := s.setting Settings.slotCount - copied.length
    (s.copyLists b).adm.roster = (copied ++ waits.take free).map (fun y => (y, s.now)) ∧
    (s.copyLists b).adm.waiting = waits.drop free ∧
    (s.copyLists b).adm.expired = s.adm.expired ∧ (s.copyLists b).adm.copied = true := by
  intro copied waits free
  obtain ⟨roster, waiting, expired, isCopied⟩ := State.admChange_lists ({ s with adm := { s.adm with
    roster := copied.map (fun y => (y, s.now)), waiting := waits, copied := true } } : State) id
  have places : s.setting Settings.slotCount - (copied.map (fun y => (y, s.now))).length = free := by
    rw [List.length_map]
  generalize isN : s.setting Settings.slotCount - (copied.map (fun y => (y, s.now))).length = n at places
  have promoted : (s.copyLists b).adm.roster =
      copied.map (fun y => (y, s.now)) ++ (waits.take n).map (fun y => (y, s.now)) := by
    rw [State.copyLists_eq, ← isN]
    exact roster
  have left : (s.copyLists b).adm.waiting = waits.drop n := by
    rw [State.copyLists_eq, ← isN]
    exact waiting
  rw [promoted, left, places, List.map_append, State.copyLists_eq]
  exact ⟨rfl, rfl, expired, isCopied⟩

theorem State.told_admChange {s : State} {change : Adm → Adm} {kind : NoticeKind} (other : kind ≠ .powerState) :
    (s.admChange change).ntu.told kind = s.ntu.told kind := by
  unfold State.admChange
  dsimp only
  split
  · exact State.told_granted other
  · rfl

/-! ### ADM's part of a beacon (R37, R38, R46) -/

section

variable {s : State} {x : Nat} {b : Beacon}

theorem State.usableBeacon_iff (other : x ≠ s.own) :
    s.usableBeacon x b = true ↔ b.state = .member ∧ s.ptu.digest = some b.digest := by
  simp [State.usableBeacon, other]

theorem State.admActs_iff (s : State) :
    s.admActs = true ↔ s.ptu.state = .member ∨ (s.ptu.state = .listen ∧ s.adm.copied = true) := by
  simp [State.admActs]

theorem State.admBeacon_repairs (other : x ≠ s.own) (usable : b.state = .member ∧ s.ptu.digest = some b.digest)
    (repairs : s.ptu.state = .member ∨ (s.ptu.state = .listen ∧ s.adm.copied = true)) :
    s.admBeacon x b = s.repair x b := by
  unfold State.admBeacon
  rw [if_pos ((State.usableBeacon_iff other).2 usable), if_pos (s.admActs_iff.2 repairs)]

theorem State.admBeacon_copies (other : x ≠ s.own) (usable : b.state = .member ∧ s.ptu.digest = some b.digest)
    (listen : s.ptu.state = .listen) (fresh : s.adm.copied = false) : s.admBeacon x b = s.copyLists b := by
  unfold State.admBeacon
  rw [if_pos ((State.usableBeacon_iff other).2 usable), if_neg (by simp [State.admActs_iff, listen, fresh]),
    if_pos listen]

theorem State.admBeacon_passes (other : x ≠ s.own) (no : ¬ (b.state = .member ∧ s.ptu.digest = some b.digest) ∨
    ¬ ((s.ptu.state = .member ∨ (s.ptu.state = .listen ∧ s.adm.copied = true)) ∨ s.ptu.state = .listen)) :
    s.admBeacon x b = s := by
  unfold State.admBeacon
  rcases no with unusable | unmoved
  · exact if_neg (mt (State.usableBeacon_iff other).1 unusable)
  · obtain ⟨idle, awake⟩ := not_or.1 unmoved
    rw [if_neg (mt s.admActs_iff.1 idle), if_neg awake, ite_self]

/-- What ADM makes of a beacon that it does not copy. -/
theorem State.admBeacon_uncopied (other : x ≠ s.own) (uncopied : ¬ ((b.state = .member ∧ s.ptu.digest = some b.digest) ∧
    s.ptu.state = .listen ∧ s.adm.copied = false)) : s.admBeacon x b = s ∨ s.admBeacon x b = s.repair x b := by
  by_cases usable : b.state = .member ∧ s.ptu.digest = some b.digest
  · by_cases repairs : s.ptu.state = .member ∨ (s.ptu.state = .listen ∧ s.adm.copied = true)
    · exact .inr (State.admBeacon_repairs other usable repairs)
    · refine .inl (State.admBeacon_passes other (.inr ?_))
      rintro (acts | listen)
      · exact repairs acts
      · refine uncopied ⟨usable, listen, Bool.eq_false_iff.2 fun copied => repairs (.inr ⟨listen, copied⟩)⟩
  · exact .inl (State.admBeacon_passes other (.inl usable))

theorem State.told_admBeacon {kind : NoticeKind} (power : kind ≠ .powerState) (conflict : kind ≠ .rosterConflict) :
    (s.admBeacon x b).ntu.told kind = s.ntu.told kind := by
  unfold State.admBeacon
  split
  · split
    · rcases s.repair_cases x b with same | told | ⟨change, changed, -⟩
      · rw [same]
      · rw [told]
        exact State.told_raise_other conflict
      · rw [changed]
        exact State.told_admChange power
    · split
      · rw [State.copyLists_eq]
        exact State.told_admChange power
      · rfl
  · rfl

end

/-! ### The role report (R35, R70, R194) -/

/-- A removed watcher's place in the list. -/
theorem State.dropWatcher_watchers (s : State) (x : Nat) :
    (s.dropWatcher x).cfw.watchers = s.cfw.watchers.filter (fun w => w.station ≠ x) := by
  cases place : s.cfw.place x with
  | some j =>
    obtain ⟨turn, removed⟩ := State.dropWatcher_present place
    rw [removed]
  | none =>
    have still : s.dropWatcher x = s := if_neg (by simp [place])
    rw [still]
    refine (List.filter_eq_self.2 fun w mem => ?_).symm
    have := List.findIdx?_eq_none_iff.1 place w mem
    simpa using this

theorem State.loseClaim_holder {s : State} {x : Nat} (cause : Nat) (holds : s.ord.holder = some x) :
    (s.loseClaim x cause).ord = { s.ord with holder := none, holdTime := 0 } ∧
    (s.takesRaises = true → (s.loseClaim x cause).ntu.told .claimLost = some [byte x, 0, byte cause]) := by
  unfold State.loseClaim
  rw [if_pos holds]
  refine ⟨?_, fun takes => State.told_raise_same takes⟩
  rw [State.raise_eq]

theorem State.loseClaim_other {s : State} {x : Nat} (cause : Nat) (other : s.ord.holder ≠ some x) :
    s.loseClaim x cause = s := if_neg other

theorem State.told_loseClaim {s : State} {x cause : Nat} {kind : NoticeKind} (other : kind ≠ .claimLost) :
    (s.loseClaim x cause).ntu.told kind = s.ntu.told kind := by
  unfold State.loseClaim
  split
  · exact State.told_raise_other other
  · rfl

end Sys2Proof.Machine


namespace Sys2Proof.Machine

theorem Ptu.setPeer_rest (p : Ptu) (x : Nat) (e : Peer) : (p.setPeer x e).state = p.state ∧
    (p.setPeer x e).digest = p.digest ∧ (p.setPeer x e).mismatch = p.mismatch := by
  unfold Ptu.setPeer
  split <;> exact ⟨rfl, rfl, rfl⟩

/-- Every other entry stays, the numbers of no station among them. -/
theorem Ptu.peer_setPeer_other (p : Ptu) {x y : Nat} (e : Peer) (low : 1 ≤ x) (high : x ≤ 62) (other : y ≠ x) :
    (p.setPeer x e).peer y = p.peer y := by
  rcases Nat.eq_zero_or_pos y with rfl | positive
  · rfl
  · rw [p.peer_setPeer e low high y positive, if_neg other]

/-- The sender's entry once its beacon has been heard and read (R181, R183). -/
def State.beaconPeer (s : State) (x : Nat) (b : Beacon) : Peer :=
  { s.ptu.peer x with
    present := true, missed := 0, role := some b.role, lastState := some b.state, lastSeq := some b.seq
    lastAttach := some b.attach, digestMatch := s.digestMatchOf b }

/-- PTU's part of a beacon: the entry, and the condition evaluated anew (R183, R186). -/
theorem State.beaconEntry_heard (s : State) {x : Nat} {b : Beacon} (low : 1 ≤ x) (high : x ≤ 62) (l : Lif) :
    ∃ t, t = ({ s with ptu := s.hearing x, lif := l } : State).beaconEntry x b ∧
      t = { s with ptu := t.ptu, ntu := t.ntu, lif := l } ∧
      t.ptu.peer x = s.beaconPeer x b ∧ (∀ y, y ≠ x → t.ptu.peer y = s.ptu.peer y) ∧
      t.ptu.state = s.ptu.state ∧ t.ptu.digest = s.ptu.digest ∧
      (t.ptu.mismatch = true ↔ t.ptu.mismatched ≠ []) ∧
      (∀ kind, kind ≠ .rackMismatch → t.ntu.told kind = s.ntu.told kind) ∧
      (t.ptu.mismatch ≠ s.ptu.mismatch → s.takesRaises = true → t.ntu.told .rackMismatch =
        some [flag t.ptu.mismatch, byte t.ptu.mismatched.length, byte (t.ptu.mismatched.headD 0)]) := by
  obtain ⟨hState, hDigest, hMismatch⟩ : (s.hearing x).state = s.ptu.state ∧ (s.hearing x).digest = s.ptu.digest ∧
      (s.hearing x).mismatch = s.ptu.mismatch := Ptu.setPeer_rest _ _ _
  obtain ⟨p, isP⟩ : ∃ p, p = (s.hearing x).setPeer x (s.beaconPeer x b) := ⟨_, rfl⟩
  obtain ⟨pState, pDigest, pMismatch⟩ : p.state = s.ptu.state ∧ p.digest = s.ptu.digest ∧ p.mismatch = s.ptu.mismatch := by
    rw [isP, ← hState, ← hDigest, ← hMismatch]
    exact Ptu.setPeer_rest _ _ _
  obtain ⟨v, isV⟩ : ∃ v : State, v = { s with ptu := p, lif := l } := ⟨_, rfl⟩
  have enters : ({ s with ptu := s.hearing x, lif := l } : State).beaconEntry x b = v.evalMismatch := by
    have entry : s.beaconPeer x b = { (s.hearing x).peer x with
        role := some b.role, lastState := some b.state, lastSeq := some b.seq, lastAttach := some b.attach
        digestMatch := ({ s with ptu := s.hearing x, lif := l } : State).digestMatchOf b } := by
      rw [s.hearing_peer low high]
      unfold State.beaconPeer State.digestMatchOf
      rw [hDigest]
    rw [isV, isP, entry]
    rfl
  have vPtu : v.ptu = p := by rw [isV]
  have ptu : v.evalMismatch.ptu = { p with mismatch := !p.mismatched.isEmpty } := by rw [v.evalMismatch_ptu, vPtu]
  have bad : v.evalMismatch.ptu.mismatched = p.mismatched := by rw [ptu]; rfl
  refine ⟨v.evalMismatch, enters.symm, ?_, ?_, fun y other => ?_, ?_, ?_, ?_, fun kind other => ?_, fun changed takes => ?_⟩
  · have frame := v.evalMismatch_eq
    generalize v.evalMismatch = t at frame
    rw [frame, isV]
  · rw [ptu]
    change p.peer x = _
    rw [isP, Ptu.peer_setPeer _ _ low high _ low, if_pos rfl]
  · rw [ptu]
    change p.peer y = _
    rw [isP, Ptu.peer_setPeer_other _ _ low high other]
    exact Ptu.peer_setPeer_other _ _ low high other
  · rw [ptu]
    exact pState
  · rw [ptu]
    exact pDigest
  · rw [bad, ptu]
    simp
  · rw [State.evalMismatch_told other, isV]
  · rw [bad, ptu]
    have takesV : v.takesRaises = true := by
      rw [isV]
      rw [State.takesRaises_iff] at takes ⊢
      change p.state = _ ∨ p.state = _ ∨ p.state = _
      rw [pState]
      exact takes
    rw [State.evalMismatch_changed takesV, vPtu]
    rw [ptu] at changed
    rw [vPtu, pMismatch]
    exact changed

/-- A beacon of another station as the lane's end presents it (R164, R183). -/
theorem State.Reads.exec_beacon {s : State} {f : LaneFrame} (reads : s.Reads f) (serving : s.serving = true)
    (untaken : s.lif.takeHeld = none) (code : f.kind = FrameKind.beacon.code) :
    Machine.exec (.frameCompleteUnspoiled f 0) s = .next (settle
      (match beaconOf f with
        | some b => ({ s with ptu := s.hearing f.sender.toNat, lif := s.lif.afterFrame } : State).beaconSeen f.sender.toNat b
        | none => { s with ptu := s.hearing f.sender.toNat, lif := s.lif.afterFrame })) := by
  have decides : ({ s with lif := s.lif.passed } : State).decidesTake f = false := by
    have serves : ({ s with lif := s.lif.passed } : State).serving = true := serving
    exact State.decidesTake_kind (kind := .beacon) (by rw [code]; rfl) (by simp [State.takesKind, serves])
  rw [reads.exec_untaken untaken decides, State.present, reads.heard (t := { s with lif := s.lif.afterFrame }) rfl rfl]
  dsimp only
  rw [if_pos code]
  cases beaconOf f with
  | some b => exact congrArg (fun u => Host.Outcome.next (settle u)) (if_pos (reads.isPeer rfl))
  | none => rfl

end Sys2Proof.Machine


namespace Sys2Proof.Machine

/-- What the report of a serving sender's role takes from it (R70, R194): ADM and PSQ keep all. -/
theorem State.roleReported_serving (s : State) (x : Nat) :
    (s.roleReported x .serving).adm = s.adm ∧ (s.roleReported x .serving).psq = s.psq ∧
    (s.roleReported x .serving).wdu = s.wdu ∧ (s.roleReported x .serving).ccu = s.ccu ∧
    (s.roleReported x .serving).cfw.watchers = s.cfw.watchers.filter (fun w => w.station ≠ x) ∧
    (s.ord.holder = some x → (s.roleReported x .serving).ord.holder = none ∧
      (s.takesRaises = true → (s.roleReported x .serving).ntu.told .claimLost = some [byte x, 0, 3])) ∧
    (s.ord.holder ≠ some x → (s.roleReported x .serving).ord = s.ord) ∧
    ∀ kind, kind ≠ .claimLost → (s.roleReported x .serving).ntu.told kind = s.ntu.told kind := by
  have reported : s.roleReported x .serving = (s.loseClaim x 3).dropWatcher x := rfl
  have ord : (s.roleReported x .serving).ord = (s.loseClaim x 3).ord := by rw [reported]; simp
  have ntu : (s.roleReported x .serving).ntu = (s.loseClaim x 3).ntu := by rw [reported]; simp
  refine ⟨by rw [reported]; simp, by rw [reported]; simp, by rw [reported]; simp, by rw [reported]; simp, ?_, ?_, ?_, ?_⟩
  · rw [reported, State.dropWatcher_watchers]
    simp
  · intro holds
    obtain ⟨lost, told⟩ := State.loseClaim_holder 3 holds
    rw [ord, ntu, lost]
    exact ⟨rfl, told⟩
  · intro other
    rw [ord, State.loseClaim_other 3 other]
  · intro kind other
    rw [ntu]
    exact State.told_loseClaim other

theorem State.roleReported_uplink (s : State) (x : Nat) : s.roleReported x .uplink = s.admRemove x := rfl

/-- ADM's part of a beacon and the report of its sender's role. -/
def State.beaconHeeded (s : State) (x : Nat) (b : Beacon) : State := (s.admBeacon x b).roleReported x b.role

theorem State.admRemove_told {s : State} {x : Nat} {kind : NoticeKind} (other : kind ≠ .powerState) :
    (s.admRemove x).ntu.told kind = s.ntu.told kind := State.told_admChange other

section

variable {s : State} {x : Nat} {b : Beacon}

/-- A beacon's part in the lists that is no copy: other stations' places alone, and notices. -/
theorem State.beaconHeeded_moved (other : x ≠ s.own) (uncopied : ¬ ((b.state = .member ∧ s.ptu.digest = some b.digest) ∧
    s.ptu.state = .listen ∧ s.adm.copied = false)) : ∃ m, s.AdmMoved m ∧ (s.beaconHeeded x b).adm = m.adm ∧
      (s.beaconHeeded x b).psq = m.psq ∧ (s.beaconHeeded x b).wdu = m.wdu ∧ (s.beaconHeeded x b).ccu = m.ccu ∧
      (s.beaconHeeded x b).ntu.told .powerState = m.ntu.told .powerState := by
  have first : s.AdmMoved (s.admBeacon x b) := by
    rcases State.admBeacon_uncopied other uncopied with same | repaired
    · rw [same]
      exact .refl s
    · rw [repaired]
      exact State.repair_admMoved other
  unfold State.beaconHeeded
  cases b.role with
  | serving =>
    obtain ⟨adm, psq, wdu, ccu, -, -, -, told⟩ := (s.admBeacon x b).roleReported_serving x
    exact ⟨s.admBeacon x b, first, adm, psq, wdu, ccu, told .powerState (by simp)⟩
  | uplink =>
    have own : (s.admBeacon x b).own = s.own := by rw [State.own, State.own, first.same.2.1]
    exact ⟨(s.admBeacon x b).admRemove x, first.trans (State.admRemove_admMoved (by rw [own]; exact other)),
      rfl, rfl, rfl, rfl, rfl⟩

theorem State.beaconHeeded_told {kind : NoticeKind} (power : kind ≠ .powerState) (conflict : kind ≠ .rosterConflict)
    (lost : kind ≠ .claimLost) : (s.beaconHeeded x b).ntu.told kind = s.ntu.told kind := by
  rw [← State.told_admBeacon (s := s) (x := x) (b := b) power conflict]
  unfold State.beaconHeeded
  cases b.role with
  | serving => exact ((s.admBeacon x b).roleReported_serving x).2.2.2.2.2.2.2 kind lost
  | uplink => exact State.admRemove_told power

/-- Whatever the role, the hold limits stay, and the copy is marked where there is one. -/
theorem State.beaconHeeded_marks (s : State) (x : Nat) (b : Beacon) :
    (s.beaconHeeded x b).adm.expired = (s.admBeacon x b).adm.expired ∧
    (s.beaconHeeded x b).adm.copied = (s.admBeacon x b).adm.copied := by
  unfold State.beaconHeeded
  cases b.role with
  | serving =>
    rw [((s.admBeacon x b).roleReported_serving x).1]
    exact ⟨rfl, rfl⟩
  | uplink =>
    obtain ⟨-, -, expired, copied⟩ := (s.admBeacon x b).admRemove_lists x
    exact ⟨expired, copied⟩

theorem State.beaconHeeded_ptu (s : State) (x : Nat) (b : Beacon) : (s.beaconHeeded x b).ptu = s.ptu := by
  simp [State.beaconHeeded]

/-- Of a sender that is an uplink ORD and CFW know nothing. -/
theorem State.admRemove_ord_cfw (s : State) (x : Nat) :
    (s.admRemove x).ord = s.ord ∧ (s.admRemove x).cfw = s.cfw := by
  unfold State.admRemove
  simp

end

/-- Settles O25: a beacon cut short, then a whole one: PTU's entry, ADM's part, the role report. -/
theorem beaconsUpdateThePeerAndRepairTheLists : Obligations.BeaconsUpdateThePeerAndRepairTheLists := by
  refine ⟨fun s f reads serving untaken code short => ?_, fun s f b reads serving untaken code all body fits => ?_⟩
  · rw [reads.exec_beacon serving untaken code, beaconOf_short short]
  · intro x entry slots usable repairs copies told notice inRoster isWaiting rosterLess waitingLess legal copied waits
      copyRoster copyWaiting
    have runs := reads.exec_beacon serving untaken code
    rw [beaconOf_bytes all body fits] at runs
    obtain ⟨t, isT, frame, peer, peers, state, digest, mismatch, toldOthers, toldRack⟩ :=
      s.beaconEntry_heard (x := x) (b := b) reads.legal.1 reads.legal.2 s.lif.afterFrame
    have seen : ({ s with ptu := s.hearing x, lif := s.lif.afterFrame } : State).beaconSeen x b = t.beaconHeeded x b := by
      rw [isT]
      rfl
    have same : t.adm = s.adm ∧ t.psq = s.psq ∧ t.sld = s.sld ∧ t.now = s.now ∧ t.ord = s.ord ∧ t.cfw = s.cfw ∧
        t.ccu = s.ccu ∧ t.wdu = s.wdu := by
      rw [frame]
      exact ⟨rfl, rfl, rfl, rfl, rfl, rfl, rfl, rfl⟩
    obtain ⟨adm, psq, sld, now, ord, cfw, ccu, wdu⟩ := same
    have own : t.own = s.own := by rw [State.own, State.own, sld]
    have other : x ≠ t.own := by rw [own]; exact reads.other
    have settings : t.setting Settings.slotCount = slots := by simp only [State.setting, sld, slots]
    have isUsable : (b.state = .member ∧ t.ptu.digest = some b.digest) ↔ usable := by rw [digest]
    have isRepairs : (t.ptu.state = .member ∨ (t.ptu.state = .listen ∧ t.adm.copied = true)) ↔ repairs := by
      rw [state, adm]
    have isCopies : ((b.state = .member ∧ t.ptu.digest = some b.digest) ∧ t.ptu.state = .listen ∧
        t.adm.copied = false) ↔ copies := by rw [digest, state, adm]
    have takes : t.takesRaises = true ↔ told := by rw [State.takesRaises_iff, state]
    obtain ⟨u, isU⟩ : ∃ u, u = t.beaconHeeded x b := ⟨_, rfl⟩
    have ptu : u.ptu = t.ptu := by rw [isU, State.beaconHeeded_ptu]
    obtain ⟨expired, isCopied⟩ := t.beaconHeeded_marks x b
    rw [← isU] at expired isCopied
    have copying (h : copies) : t.admBeacon x b = t.copyLists b := by
      obtain ⟨usable, listen, fresh⟩ := isCopies.2 h
      exact State.admBeacon_copies other usable listen fresh
    have uncopied (h : ¬ copies) : t.admBeacon x b = t ∨ t.admBeacon x b = t.repair x b :=
      State.admBeacon_uncopied other (mt isCopies.1 h)
    have copyLists := t.copyLists_lists b
    refine ⟨u, by rw [runs, isU, ← seen], ?_⟩
    intro becomes conflict granted
    have uncopiedMarks (h : ¬ copies) :
        (t.admBeacon x b).adm.expired = s.adm.expired ∧ (t.admBeacon x b).adm.copied = s.adm.copied := by
      rw [← adm]
      rcases uncopied h with passes | repaired
      · rw [passes]
        exact ⟨rfl, rfl⟩
      · rw [repaired]
        exact t.repair_marks x b
    refine ⟨?_, fun h => ?_, fun h => ?_, fun member _ grants uncancelled => ?_, fun h _ ungranted => ?_,
      by rw [ptu]; exact peer, fun y different => by rw [ptu]; exact peers y different, by rw [ptu]; exact state, ?_,
      fun role => ?_, fun role => ?_⟩
    · rw [expired]
      by_cases h : copies
      · rw [copying h, copyLists.2.2.1, adm]
      · exact (uncopiedMarks h).1
    · rw [isCopied, copying h]
      exact copyLists.2.2.2
    · rw [isCopied]
      exact (uncopiedMarks h).2
    · have h : ¬ copies := by
        rintro ⟨-, listen, -⟩
        rw [member] at listen
        cases listen
      obtain ⟨m, moved, mAdm, mPsq, mWdu, mCcu, mTold⟩ := State.beaconHeeded_moved other (mt isCopies.1 h)
      rw [← isU] at mAdm mPsq mWdu mCcu mTold
      obtain ⟨out, into⟩ := grants
      obtain ⟨w, taken, wPsq, wWdu, wCcu, wTold⟩ := moved.grants (by rw [State.serving, sld]; exact serving)
        (state.trans member) (by rw [own, adm]; exact out) (by rw [own, ← mAdm]; exact into)
        (by rw [State.grantReleases_congr psq sld, adm]; exact uncancelled)
      obtain ⟨v, takenV, vPsq, vWdu, vCcu, vTold⟩ := State.GrantTaken.retold (s := s) (n := t.ntu)
        (taken.congr psq.symm now.symm sld.symm ccu.symm wdu.symm rfl state.symm (by rw [adm])) (toldOthers _ (by simp))
      exact ⟨v, takenV, by rw [mPsq, wPsq, vPsq], by rw [mWdu, wWdu, vWdu], by rw [mCcu, wCcu, vCcu],
        (mTold.trans wTold).trans vTold.symm⟩
    · obtain ⟨m, moved, mAdm, mPsq, -⟩ := State.beaconHeeded_moved other (mt isCopies.1 h)
      rw [← isU] at mAdm mPsq
      have still : t.own ∈ t.adm.roster.map Prod.fst ∨ t.own ∉ m.adm.roster.map Prod.fst := by
        rw [own, adm, ← mAdm]
        by_contra no
        obtain ⟨out, into⟩ := not_or.1 no
        exact ungranted ⟨out, not_not.1 into⟩
      obtain ⟨mPsq', -, -, mList, -⟩ := moved.still still
      exact ⟨by rw [mPsq, mPsq', psq], by rw [mAdm, mList, adm]⟩
    · rw [ptu]
      refine ⟨mismatch, fun changed isTold => ?_⟩
      have rack := toldRack changed (by rw [State.takesRaises_iff]; exact isTold)
      rw [← State.beaconHeeded_told (x := x) (b := b) (by simp) (by simp) (by simp), ← isU] at rack
      exact rack
    · have reported : u = (t.admBeacon x b).admRemove x := by
        rw [isU, State.beaconHeeded, role]
        rfl
      have keeps := t.admBeacon_keeps x b
      obtain ⟨aNow, -, -, aSld, -, aCfw, -, aOrd, -⟩ := keeps
      obtain ⟨roster, waiting, -, -⟩ := (t.admBeacon x b).admRemove_lists x
      have aSettings : (t.admBeacon x b).setting Settings.slotCount = slots := by
        rw [State.setting, aSld, ← settings, State.setting]
      rw [← reported, aSettings, aNow, now] at roster waiting
      obtain ⟨rOrd, rCfw⟩ := (t.admBeacon x b).admRemove_ord_cfw x
      obtain ⟨out, unwaited⟩ := (t.admBeacon x b).adm.dropBoth_gone x slots s.now
      refine ⟨by rw [reported, rOrd, aOrd, ord], by rw [reported, rCfw, aCfw, cfw], by rw [roster]; exact out,
        by rw [waiting]; exact unwaited, fun _ h => ?_, fun h => ?_, fun ordered usable' repairs' named conflicts => ?_⟩
      · have lists : u.adm.roster = ((s.adm.dropBoth x).promote slots s.now).roster ∧
            u.adm.waiting = ((s.adm.dropBoth x).promote slots s.now).waiting := by
          rcases uncopied h with passes | repaired
          · rw [roster, waiting, passes, adm]
            exact ⟨rfl, rfl⟩
          · rw [reported, repaired, ← adm, ← settings, ← now]
            exact t.repair_admRemove x b
        exact lists
      · obtain ⟨cRoster, cWaiting, -, -⟩ := copyLists
        rw [settings, now] at cRoster
        rw [settings] at cWaiting
        obtain ⟨first, second⟩ := Adm.promote_dropBoth_congr (a := { s.adm with roster := copyRoster, waiting := copyWaiting })
          (c := (t.copyLists b).adm) cRoster cWaiting x slots s.now
        rw [copying h] at roster waiting
        exact ⟨roster.trans first, waiting.trans second⟩
      · have conflictTold : (t.admBeacon x b).ntu.told .rosterConflict = some [byte x] := by
          rw [State.admBeacon_repairs other (isUsable.2 usable') (isRepairs.2 repairs'), State.repair_eq, if_pos named, adm]
          have takes' : t.takesRaises = true := takes.2 (by
            rcases repairs' with member | ⟨listen, -⟩
            · exact .inr (.inl member)
            · exact .inl listen)
          rcases conflicts with waits | ⟨outside, fresh, full⟩
          · rw [if_neg (ordered.lists.disjoint x waits), if_pos waits]
            exact State.told_raise_same takes'
          · by_cases waits : x ∈ s.adm.waiting
            · rw [if_neg outside, if_pos waits]
              exact State.told_raise_same takes'
            · rw [if_neg outside, if_neg waits, if_neg fresh, settings, if_neg (by omega)]
              exact State.told_raise_same takes'
        rw [← State.admRemove_told (x := x) (by simp), ← reported] at conflictTold
        exact conflictTold
    · have reported : u = (t.admBeacon x b).roleReported x .serving := by rw [isU, State.beaconHeeded, role]
      obtain ⟨-, -, -, -, aPtu, aCfw, -, aOrd, -⟩ := t.admBeacon_keeps x b
      obtain ⟨uAdm, uPsq, -, -, watchers, holds, passes, toldKind⟩ := (t.admBeacon x b).roleReported_serving x
      rw [← reported, aOrd, ord] at holds passes
      rw [← reported] at uAdm uPsq toldKind
      rw [← reported, aCfw, cfw] at watchers
      refine ⟨fun held => ?_, passes, watchers, fun no => ?_, fun usable' repairs' ordered => ?_, fun h => ?_⟩
      · obtain ⟨gone, tells⟩ := holds held
        refine ⟨gone, fun isTold => tells ?_⟩
        rw [State.takesRaises_iff, aPtu, state]
        exact isTold
      · have same : t.admBeacon x b = t := State.admBeacon_passes other (by
          rw [isUsable, isRepairs, state]
          exact no)
        rw [uAdm, uPsq, same, adm, psq]
        exact ⟨rfl, rfl⟩
      · intro stays conflicts
        have repair : t.admBeacon x b = t.repair x b :=
          State.admBeacon_repairs other (isUsable.2 usable') (isRepairs.2 repairs')
        rw [State.repair_eq, adm, settings, now] at repair
        have takes' : t.takesRaises = true := takes.2 (by
          rcases repairs' with member | ⟨listen, -⟩
          · exact .inr (.inl member)
          · exact .inl listen)
        have stay (same : t.admBeacon x b = t) : stays := by
          change u.adm.roster = _ ∧ u.adm.waiting = _
          rw [uAdm, same, adm]
          exact ⟨rfl, rfl⟩
        have clash (raised : t.admBeacon x b = t.raise .rosterConflict [byte x]) : conflicts := by
          refine ⟨?_, ?_⟩
          · change u.adm.roster = _ ∧ u.adm.waiting = _
            rw [uAdm, raised, State.raise_eq]
            exact ⟨by rw [adm], by rw [adm]⟩
          · change u.ntu.told .rosterConflict = _
            rw [toldKind _ (by simp), raised]
            exact State.told_raise_same takes'
        have moves {change : Adm → Adm} (changed : t.admBeacon x b = t.admChange change) :
            becomes (change s.adm).roster (change s.adm).waiting := by
          obtain ⟨roster, waiting, -, -⟩ := t.admChange_lists change
          rw [State.changed, adm, settings, now] at roster waiting
          change u.adm.roster = _ ∧ u.adm.waiting = _
          rw [uAdm, changed]
          exact ⟨roster, waiting⟩
        have outside (waits : isWaiting) : ¬ inRoster := ordered.lists.disjoint x waits
        refine ⟨fun named => ?_, fun unnamed waits => ?_, fun unnamed unlisted => ?_⟩
        · rw [if_pos named] at repair
          refine ⟨fun inside => stay (by rw [repair, if_pos inside]),
            fun waits => clash (by rw [repair, if_neg (outside waits), if_pos waits]), fun out unwaited => ?_⟩
          rw [if_neg out, if_neg unwaited] at repair
          exact ⟨fun spent => stay (by rw [repair, if_pos spent]),
            fun fresh room => moves (by rw [repair, if_neg fresh, if_pos room]),
            fun fresh full => clash (by rw [repair, if_neg fresh, if_neg (by omega)])⟩
        · rw [if_neg unnamed, if_pos waits] at repair
          exact ⟨fun inside => moves (by rw [repair, if_pos inside]),
            fun waiting => stay (by rw [repair, if_neg (outside waiting), if_pos waiting]),
            fun out unwaited => moves (by rw [repair, if_neg out, if_neg unwaited])⟩
        · rw [if_neg unnamed, if_neg unlisted] at repair
          exact ⟨fun inside => moves (by rw [repair, if_pos inside]),
            fun waiting => moves (by rw [repair, if_neg (outside waiting), if_pos waiting]),
            fun out unwaited => stay (by rw [repair, if_neg out, if_neg unwaited])⟩
      · obtain ⟨cRoster, cWaiting, -, -⟩ := copyLists
        rw [settings, now] at cRoster
        rw [settings] at cWaiting
        rw [uAdm, copying h]
        exact ⟨cRoster, cWaiting⟩

end Sys2Proof.Machine


namespace Sys2Proof.Machine

/-! ### What the end of a step leaves of the own frames and of the watchers (R43, R72 to R74, R166) -/

/-- Listing leaves the kinds of the own frames. -/
theorem listOwn_kinds (seq : Nat) (l : List OwnFrame) : (listOwn seq l).map OwnFrame.kind = l.map OwnFrame.kind := by
  induction l with
  | nil => rfl
  | cons f rest ih =>
    unfold listOwn
    split
    · rfl
    · rw [List.map_cons, List.map_cons, ih]

/-- What an owner's act at the end of a step leaves: the kinds of the own frames, and the watchers' stations. -/
structure State.KeepsRolls (s t : State) : Prop where
  kinds    : t.adm.own.map OwnFrame.kind = s.adm.own.map OwnFrame.kind
  stations : t.cfw.watchers.map Watcher.station = s.cfw.watchers.map Watcher.station

theorem State.KeepsRolls.trans {s t u : State} (first : s.KeepsRolls t) (second : t.KeepsRolls u) : s.KeepsRolls u :=
  ⟨second.kinds.trans first.kinds, second.stations.trans first.stations⟩

theorem State.KeepsRolls.of_eq {s t : State} (adm : t.adm = s.adm) (cfw : t.cfw = s.cfw) : s.KeepsRolls t :=
  ⟨by rw [adm], by rw [cfw]⟩

theorem State.acceptOffer_keepsRolls (s : State) (o : Offer) : s.KeepsRolls (s.acceptOffer o) := by
  unfold State.acceptOffer State.listed
  cases o.owner with
  | adm => exact ⟨listOwn_kinds _ _, rfl⟩
  | _ => exact ⟨rfl, rfl⟩

theorem State.takeOffer_keepsRolls (s : State) : s.KeepsRolls s.takeOffer := by
  unfold State.takeOffer
  split
  · exact ⟨rfl, rfl⟩
  · exact s.acceptOffer_keepsRolls _
  · dsimp only
    generalize List.getD _ _ _ = pick
    obtain ⟨kinds, stations⟩ := ({ s with fresh := s.fresh + 1 } : State).acceptOffer_keepsRolls pick
    exact ⟨kinds, stations⟩

theorem State.takeOffers_keepsRolls (n : Nat) (s : State) : s.KeepsRolls (State.takeOffers n s) := by
  induction n generalizing s with
  | zero => exact ⟨rfl, rfl⟩
  | succ n ih => exact s.takeOffer_keepsRolls.trans (ih _)

theorem Watcher.build_station {w : Watcher} {c : Ccu} {now : Time} {first finish : Nat} {data : Bytes} {b : Built}
    (built : w.build c now first finish data = some b) : b.after.station = w.station := by
  unfold Watcher.build at built
  split at built
  · cases built
  · cases built
    rfl

theorem Cfw.buildFor_stations (c : Cfw) (ccu : Ccu) (now : Time) (w : Watcher) (first finish : Nat) (data : Bytes) :
    (c.buildFor ccu now w first finish data).watchers.map Watcher.station = c.watchers.map Watcher.station := by
  unfold Cfw.buildFor
  split
  next b built =>
    have same : b.after.station = w.station := Watcher.build_station built
    unfold Cfw.setWatcher
    dsimp only
    rw [List.map_map]
    refine List.map_congr_left fun x _ => ?_
    dsimp only [Function.comp_apply]
    split
    next at_ => exact at_.symm
    next => rfl
  next => rfl

theorem State.serveWatcher_keepsRolls (s : State) : s.KeepsRolls s.serveWatcher := by
  refine ⟨by simp, ?_⟩
  unfold State.serveWatcher
  split
  · split
    · dsimp only
      split
      · rfl
      · exact Cfw.buildFor_stations _ _ _ _ _ _ _
    · rfl
  · rfl

theorem State.startInput_keepsRolls (s : State) : s.KeepsRolls s.startInput := by
  refine ⟨by simp, ?_⟩
  unfold State.startInput
  split
  · split
    · rfl
    · dsimp only
      rw [State.mark]
    · rfl
  · rfl

theorem settle_keepsRolls (s : State) : s.KeepsRolls (settle s) := by
  rw [settle_eq_run]
  unfold State.settleRun State.settleOffers
  have before : s.KeepsRolls s.mediaAdvance.detachComplete.askCapture := .of_eq (by simp) (by simp)
  have between (t : State) : t.KeepsRolls t.enterSelfRefresh.askNotice.refuseSilent := .of_eq (by simp) (by simp)
  have after_ (t : State) : t.KeepsRolls t.askGiveRead.startUnit := .of_eq (by simp) (by simp)
  exact before.trans ((State.startInput_keepsRolls _).trans ((State.serveWatcher_keepsRolls _).trans ((between _).trans
    ((State.takeOffers_keepsRolls _ _).trans (after_ _)))))

end Sys2Proof.Machine


namespace Sys2Proof.Machine

/-! ### PTU's part of absences (R182, R186) -/

/-- The peer table with a station's entry emptied, the rack-mismatch condition evaluated anew. -/
def Ptu.forgotten (p : Ptu) (x : Nat) : Ptu :=
  { p.setPeer x {} with mismatch := !(p.setPeer x {}).mismatched.isEmpty }

/-- Of the table with its own beacon, absences change entries and the rack-mismatch condition alone. -/
theorem Ptu.forgotten_rest (p : Ptu) (x : Nat) : p.forgotten x =
    { p with peers := (p.forgotten x).peers, mismatch := (p.forgotten x).mismatch } := by
  unfold Ptu.forgotten Ptu.setPeer
  split <;> rfl

theorem Ptu.forgotten_peer (p : Ptu) {x : Nat} (low : 1 ≤ x) (high : x ≤ 62) {y : Nat} (positive : 1 ≤ y) :
    (p.forgotten x).peer y = if y = x then {} else p.peer y := p.peer_setPeer {} low high y positive

theorem Ptu.forgotten_mismatch (p : Ptu) (x : Nat) :
    (p.forgotten x).mismatch = !(p.forgotten x).mismatched.isEmpty := rfl

theorem Ptu.mem_mismatched {p : Ptu} {y : Nat} : y ∈ p.mismatched ↔
    y ∈ stationNumbers ∧ (p.peer y).present = true ∧ (p.peer y).digestMatch = .no := by
  simp [Ptu.mismatched, List.mem_filter]

theorem mem_stationNumbers {y : Nat} : y ∈ stationNumbers ↔ 1 ≤ y ∧ y ≤ 62 := by
  unfold stationNumbers
  rw [List.mem_map]
  refine ⟨?_, fun ⟨low, high⟩ => ⟨y - 1, List.mem_range.2 (by omega), by omega⟩⟩
  rintro ⟨i, within, rfl⟩
  have := List.mem_range.1 within
  omega

/-- A table that names no mismatch names none with an entry less. -/
theorem Ptu.forgotten_mismatched {p : Ptu} {x : Nat} (low : 1 ≤ x) (high : x ≤ 62) (matched : p.mismatched = []) :
    (p.forgotten x).mismatched = [] := by
  refine List.eq_nil_iff_forall_not_mem.2 fun y named => ?_
  obtain ⟨station, present, no⟩ := Ptu.mem_mismatched.1 named
  rw [p.forgotten_peer low high (mem_stationNumbers.1 station).1] at present no
  by_cases same : y = x
  · rw [if_pos same] at present
    cases present
  · rw [if_neg same] at present no
    exact List.eq_nil_iff_forall_not_mem.1 matched y (Ptu.mem_mismatched.2 ⟨station, present, no⟩)

/-! ### One absence (R182) -/

/-- ADM's part of an absence: the station leaves the lists. -/
def State.unlisted (s : State) (x : Nat) : State := ({ s with ptu := s.ptu.setPeer x {} } : State).admRemove x

theorem State.declareAbsent_eq (s : State) (x : Nat) :
    s.declareAbsent x = (((s.unlisted x).loseClaim x 2).dropWatcher x).evalMismatch := rfl

theorem State.unlisted_ptu (s : State) (x : Nat) : (s.unlisted x).ptu = s.ptu.setPeer x {} :=
  (({ s with ptu := s.ptu.setPeer x {} } : State).admRemove_keeps x).2.2.2.2.1

section

variable (s : State) (x : Nat)

theorem State.declareAbsent_ptu : (s.declareAbsent x).ptu = s.ptu.forgotten x := by
  rw [State.declareAbsent_eq, State.evalMismatch_ptu]
  simp [State.unlisted_ptu, Ptu.forgotten]

/-- What ADM and PSQ make of an absence is ADM's part alone. -/
theorem State.declareAbsent_unlisted : (s.declareAbsent x).adm = (s.unlisted x).adm ∧
    (s.declareAbsent x).psq = (s.unlisted x).psq ∧ (s.declareAbsent x).wdu = (s.unlisted x).wdu ∧
    (s.declareAbsent x).ccu = (s.unlisted x).ccu := by
  simp [State.declareAbsent_eq]

theorem State.declareAbsent_watchers :
    (s.declareAbsent x).cfw.watchers = s.cfw.watchers.filter (fun w => w.station ≠ x) := by
  rw [State.declareAbsent_eq, State.evalMismatch_eq]
  dsimp only
  rw [State.dropWatcher_watchers]
  simp [State.unlisted]

theorem State.declareAbsent_claim : ∃ v : State, v.ord = s.ord ∧ v.ptu.state = s.ptu.state ∧
    v.ntu.told .claimLost = s.ntu.told .claimLost ∧ (s.declareAbsent x).ord = (v.loseClaim x 2).ord ∧
    (s.declareAbsent x).ntu.told .claimLost = (v.loseClaim x 2).ntu.told .claimLost := by
  refine ⟨s.unlisted x, by simp [State.unlisted], ?_, State.admRemove_told (by simp), ?_, ?_⟩
  · rw [State.unlisted_ptu, (s.ptu.setPeer_rest x {}).1]
  · simp [State.declareAbsent_eq]
  · rw [State.declareAbsent_eq, State.evalMismatch_told (by simp)]
    simp

/-- The absent claim holder loses the claim (R194). -/
theorem State.declareAbsent_holder (holds : s.ord.holder = some x) :
    (s.declareAbsent x).ord.holder = none ∧ (s.declareAbsent x).ord.holdTime = 0 ∧
    (s.takesRaises = true → (s.declareAbsent x).ntu.told .claimLost = some [byte x, 0, 2]) := by
  obtain ⟨v, vOrd, vState, -, ord, told⟩ := s.declareAbsent_claim x
  obtain ⟨lost, tells⟩ := State.loseClaim_holder (s := v) (x := x) 2 (by rw [vOrd]; exact holds)
  rw [ord, told, lost]
  refine ⟨rfl, rfl, fun takes => tells ?_⟩
  rw [State.takesRaises_iff] at takes ⊢
  rwa [vState]

theorem State.declareAbsent_other (other : s.ord.holder ≠ some x) :
    (s.declareAbsent x).ord = s.ord ∧ (s.declareAbsent x).ntu.told .claimLost = s.ntu.told .claimLost := by
  obtain ⟨v, vOrd, -, vTold, ord, told⟩ := s.declareAbsent_claim x
  rw [ord, told, State.loseClaim_other 2 (by rw [vOrd]; exact other)]
  exact ⟨vOrd, vTold⟩

/-- POWER-STATE tells of the grant alone. -/
theorem State.declareAbsent_power :
    (s.declareAbsent x).ntu.told .powerState = (s.unlisted x).ntu.told .powerState := by
  rw [State.declareAbsent_eq, State.evalMismatch_told (by simp)]
  simp only [State.dropWatcher_keeps]
  exact State.told_loseClaim (by simp)

/-- The rack-mismatch condition is told where it changes (R186). -/
theorem State.declareAbsent_rack :
    ((s.declareAbsent x).ptu.mismatch = s.ptu.mismatch →
      (s.declareAbsent x).ntu.told .rackMismatch = s.ntu.told .rackMismatch) ∧
    ((s.declareAbsent x).ptu.mismatch ≠ s.ptu.mismatch → s.takesRaises = true →
      (s.declareAbsent x).ntu.told .rackMismatch = some [flag (s.declareAbsent x).ptu.mismatch,
        byte (s.declareAbsent x).ptu.mismatched.length, byte ((s.declareAbsent x).ptu.mismatched.headD 0)]) := by
  obtain ⟨v, isV⟩ : ∃ v, v = ((s.unlisted x).loseClaim x 2).dropWatcher x := ⟨_, rfl⟩
  have absent : s.declareAbsent x = v.evalMismatch := by rw [isV, State.declareAbsent_eq]
  have ptu : v.ptu = s.ptu.setPeer x {} := by rw [isV]; simp [State.unlisted_ptu]
  obtain ⟨state, -, mismatch⟩ := s.ptu.setPeer_rest x {}
  have before : v.ntu.told .rackMismatch = s.ntu.told .rackMismatch := by
    rw [isV]
    simp only [State.dropWatcher_keeps]
    exact (State.told_loseClaim (by simp)).trans (State.admRemove_told (by simp))
  have now : v.evalMismatch.ptu.mismatch = !v.ptu.mismatched.isEmpty := by rw [v.evalMismatch_ptu]
  have named : v.evalMismatch.ptu.mismatched = v.ptu.mismatched := by rw [v.evalMismatch_ptu]; rfl
  rw [absent, now, named, ← mismatch, ← ptu]
  refine ⟨fun same => ?_, fun changed takes => State.evalMismatch_changed ?_ changed⟩
  · rw [State.evalMismatch_same same, before]
  · rw [State.takesRaises_iff] at takes ⊢
    rwa [ptu, state]

end

end Sys2Proof.Machine


namespace Sys2Proof.Machine

/-! ### Absences in turn (R182) -/

/-- Stations are declared absent, one after another. -/
def State.absences (s : State) (l : List Nat) : State := l.foldl State.declareAbsent s

/-- All of a list are station numbers. -/
def Stations (l : List Nat) : Prop := ∀ x ∈ l, 1 ≤ x ∧ x ≤ 62

theorem Stations.tail {x : Nat} {l : List Nat} (h : Stations (x :: l)) : Stations l :=
  fun y mem => h y (List.mem_cons_of_mem x mem)

theorem State.absences_cons (s : State) (x : Nat) (l : List Nat) :
    s.absences (x :: l) = (s.declareAbsent x).absences l := rfl

theorem State.absences_rest (s : State) (l : List Nat) : (s.absences l).ptu =
    { s.ptu with peers := (s.absences l).ptu.peers, mismatch := (s.absences l).ptu.mismatch } := by
  induction l generalizing s with
  | nil => rfl
  | cons x l ih =>
    have first := s.ptu.forgotten_rest x
    have rest := ih (s.declareAbsent x)
    rw [State.declareAbsent_ptu] at rest
    rw [State.absences_cons]
    generalize ((s.declareAbsent x).absences l).ptu = p at rest ⊢
    rw [first] at rest
    exact rest

theorem State.absences_state (s : State) (l : List Nat) : (s.absences l).ptu.state = s.ptu.state := by
  rw [s.absences_rest l]

theorem State.declareAbsent_state (s : State) (x : Nat) : (s.declareAbsent x).ptu.state = s.ptu.state :=
  s.absences_state [x]

theorem State.declareAbsent_takes (s : State) (x : Nat) : (s.declareAbsent x).takesRaises = true ↔ s.takesRaises = true := by
  rw [State.takesRaises_iff, State.takesRaises_iff, s.declareAbsent_state]

/-- The entry of every station declared absent is empty, every other stays. -/
theorem State.absences_peer {s : State} {l : List Nat} (stations : Stations l) {y : Nat} (positive : 1 ≤ y) :
    (s.absences l).ptu.peer y = if y ∈ l then {} else s.ptu.peer y := by
  induction l generalizing s with
  | nil => rfl
  | cons x l ih =>
    obtain ⟨low, high⟩ := stations x List.mem_cons_self
    rw [State.absences_cons, ih stations.tail, State.declareAbsent_ptu, Ptu.forgotten_peer _ low high positive]
    by_cases later : y ∈ l
    · simp [later]
    · by_cases same : y = x
      · simp [same]
      · simp [later, same]

/-- After an absence the rack-mismatch condition is what the table says (R186). -/
theorem State.absences_mismatch {s : State} {l : List Nat} (some_ : l ≠ []) :
    (s.absences l).ptu.mismatch = !(s.absences l).ptu.mismatched.isEmpty := by
  induction l generalizing s with
  | nil => exact absurd rfl some_
  | cons x l ih =>
    rw [State.absences_cons]
    cases l with
    | nil =>
      change (s.declareAbsent x).ptu.mismatch = !(s.declareAbsent x).ptu.mismatched.isEmpty
      rw [State.declareAbsent_ptu]
      exact s.ptu.forgotten_mismatch x
    | cons y l => exact ih (by simp)

/-- Without the condition and with a table that matches, absences tell nothing of it. -/
theorem State.absences_matched {s : State} {l : List Nat} (stations : Stations l) (unset : s.ptu.mismatch = false)
    (matched : s.ptu.mismatched = []) : (s.absences l).ptu.mismatched = [] ∧
      (s.absences l).ntu.told .rackMismatch = s.ntu.told .rackMismatch := by
  induction l generalizing s with
  | nil => exact ⟨matched, rfl⟩
  | cons x l ih =>
    obtain ⟨low, high⟩ := stations x List.mem_cons_self
    have still : (s.declareAbsent x).ptu.mismatched = [] := by
      rw [State.declareAbsent_ptu]
      exact Ptu.forgotten_mismatched low high matched
    have unset' : (s.declareAbsent x).ptu.mismatch = false := by
      rw [State.declareAbsent_ptu] at still ⊢
      rw [Ptu.forgotten_mismatch, still]
      rfl
    obtain ⟨named, told⟩ := ih stations.tail unset' still
    exact ⟨named, told.trans ((s.declareAbsent_rack x).1 (unset'.trans unset.symm))⟩

/-- The condition that stood is told of where the last of its stations has gone, once (R186). -/
theorem State.absences_rack {s : State} {l : List Nat} (stations : Stations l) (set_ : s.ptu.mismatch = true) :
    ((s.absences l).ptu.mismatched ≠ [] → (s.absences l).ntu.told .rackMismatch = s.ntu.told .rackMismatch) ∧
    ((s.absences l).ptu.mismatched = [] → l ≠ [] → s.takesRaises = true →
      (s.absences l).ntu.told .rackMismatch = some [0, 0, 0]) := by
  induction l generalizing s with
  | nil => exact ⟨fun _ => rfl, fun _ some_ => absurd rfl some_⟩
  | cons x l ih =>
    obtain ⟨same, changes⟩ := s.declareAbsent_rack x
    have now : (s.declareAbsent x).ptu.mismatch = !(s.declareAbsent x).ptu.mismatched.isEmpty :=
      State.absences_mismatch (s := s) (l := [x]) (by simp)
    rw [State.absences_cons]
    by_cases stands : (s.declareAbsent x).ptu.mismatch = true
    · obtain ⟨kept, ends_⟩ := ih stations.tail stands
      refine ⟨fun bad => (kept bad).trans (same (stands.trans set_.symm)), fun none_ _ takes => ?_⟩
      cases l with
      | nil =>
        have none_ : (s.declareAbsent x).ptu.mismatched = [] := none_
        rw [none_] at now
        rw [now] at stands
        cases stands
      | cons y l => exact ends_ none_ (by simp) ((s.declareAbsent_takes x).2 takes)
    · have unset : (s.declareAbsent x).ptu.mismatch = false := Bool.eq_false_iff.2 stands
      have matched : (s.declareAbsent x).ptu.mismatched = [] := by
        rw [unset] at now
        simpa using now.symm
      obtain ⟨named, told⟩ := State.absences_matched stations.tail unset matched
      refine ⟨fun bad => absurd named bad, fun _ _ takes => ?_⟩
      rw [told, changes (by rw [unset, set_]; simp) takes, unset, matched]
      rfl

/-! ### Who has gone stays gone (R35, R70, R194) -/

/-- No list, no claim and no watcher names a station. -/
structure State.Without (s : State) (x : Nat) : Prop where
  roster  : x ∉ s.adm.roster.map Prod.fst
  waiting : x ∉ s.adm.waiting
  claim   : s.ord.holder ≠ some x
  watcher : ∀ w ∈ s.cfw.watchers, w.station ≠ x

theorem State.unlisted_lists (s : State) (x : Nat) :
    (s.unlisted x).adm.roster = ((s.adm.dropBoth x).promote (s.setting Settings.slotCount) s.now).roster ∧
    (s.unlisted x).adm.waiting = ((s.adm.dropBoth x).promote (s.setting Settings.slotCount) s.now).waiting := by
  obtain ⟨roster, waiting, -⟩ := ({ s with ptu := s.ptu.setPeer x {} } : State).admRemove_lists x
  exact ⟨roster, waiting⟩

theorem State.declareAbsent_without (s : State) (x : Nat) : (s.declareAbsent x).Without x := by
  obtain ⟨adm, -⟩ := s.declareAbsent_unlisted x
  obtain ⟨roster, waiting⟩ := s.unlisted_lists x
  obtain ⟨unrostered, unwaited⟩ := s.adm.dropBoth_gone x (s.setting Settings.slotCount) s.now
  refine ⟨by rw [adm, roster]; exact unrostered, by rw [adm, waiting]; exact unwaited, fun holds => ?_, fun w mem => ?_⟩
  · by_cases held : s.ord.holder = some x
    · rw [(s.declareAbsent_holder x held).1] at holds
      cases holds
    · rw [(s.declareAbsent_other x held).1] at holds
      exact held holds
  · rw [State.declareAbsent_watchers] at mem
    simpa using (List.mem_filter.1 mem).2

/-- A station that no list names is in none after another's removal. -/
theorem Adm.dropBoth_still {a : Adm} {x : Nat} (y slots : Nat) (now : Time) (roster : x ∉ a.roster.map Prod.fst)
    (waiting : x ∉ a.waiting) : x ∉ ((a.dropBoth y).promote slots now).roster.map Prod.fst ∧
      x ∉ ((a.dropBoth y).promote slots now).waiting := by
  have out : x ∉ (a.dropBoth y).roster.map Prod.fst := fun within => by
    obtain ⟨e, mem, isX⟩ := List.mem_map.1 within
    exact roster (List.mem_map.2 ⟨e, (List.mem_filter.1 mem).1, isX⟩)
  have unwaited : x ∉ (a.dropBoth y).waiting := fun within => waiting (List.mem_filter.1 within).1
  exact ⟨Adm.promote_other out fun waits => unwaited (List.mem_of_mem_take waits),
    fun waits => unwaited (List.mem_of_mem_drop waits)⟩

theorem State.Without.declareAbsent {s : State} {x : Nat} (h : s.Without x) (y : Nat) : (s.declareAbsent y).Without x := by
  obtain ⟨adm, -⟩ := s.declareAbsent_unlisted y
  obtain ⟨roster, waiting⟩ := s.unlisted_lists y
  obtain ⟨unrostered, unwaited⟩ := Adm.dropBoth_still y (s.setting Settings.slotCount) s.now h.roster h.waiting
  refine ⟨by rw [adm, roster]; exact unrostered, by rw [adm, waiting]; exact unwaited, fun holds => ?_, fun w mem => ?_⟩
  · by_cases held : s.ord.holder = some y
    · rw [(s.declareAbsent_holder y held).1] at holds
      cases holds
    · rw [(s.declareAbsent_other y held).1] at holds
      exact h.claim holds
  · rw [State.declareAbsent_watchers] at mem
    exact h.watcher w (List.mem_filter.1 mem).1

theorem State.Without.absences {s : State} {x : Nat} (h : s.Without x) (l : List Nat) : (s.absences l).Without x := by
  induction l generalizing s with
  | nil => exact h
  | cons y l ih => exact ih (h.declareAbsent y)

theorem State.absences_without {s : State} {l : List Nat} {x : Nat} (gone : x ∈ l) : (s.absences l).Without x := by
  induction l generalizing s with
  | nil => cases gone
  | cons y l ih =>
    rcases List.mem_cons.1 gone with rfl | later
    · exact (s.declareAbsent_without x).absences l
    · exact ih later

/-! ### The claim (R194) -/

theorem State.absences_unheld {s : State} {l : List Nat} (others : ∀ x ∈ l, s.ord.holder ≠ some x) :
    (s.absences l).ord = s.ord ∧ (s.absences l).ntu.told .claimLost = s.ntu.told .claimLost := by
  induction l generalizing s with
  | nil => exact ⟨rfl, rfl⟩
  | cons y l ih =>
    obtain ⟨ord, told⟩ := s.declareAbsent_other y (others y List.mem_cons_self)
    obtain ⟨ord', told'⟩ := ih (s := s.declareAbsent y) fun x mem => by
      rw [ord]
      exact others x (List.mem_cons_of_mem y mem)
    exact ⟨ord'.trans ord, told'.trans told⟩

theorem State.absences_holder {s : State} {l : List Nat} {x : Nat} (gone : x ∈ l) (holds : s.ord.holder = some x) :
    (s.absences l).ord.holder = none ∧ (s.absences l).ord.holdTime = 0 ∧
    (s.takesRaises = true → (s.absences l).ntu.told .claimLost = some [byte x, 0, 2]) := by
  induction l generalizing s with
  | nil => cases gone
  | cons y l ih =>
    rw [State.absences_cons]
    by_cases same : y = x
    · rw [same]
      obtain ⟨lost, time, told⟩ := s.declareAbsent_holder x holds
      obtain ⟨ord, still⟩ := State.absences_unheld (s := s.declareAbsent x) (l := l) fun z _ => by rw [lost]; simp
      rw [ord, still]
      exact ⟨lost, time, told⟩
    · obtain ⟨ord, told⟩ := s.declareAbsent_other y (by rw [holds]; simpa using Ne.symm same)
      rw [← s.declareAbsent_takes y]
      exact ih ((List.mem_cons.1 gone).resolve_left (Ne.symm same)) (by rw [ord]; exact holds)

end Sys2Proof.Machine


namespace Sys2Proof.Machine

/-! ### What the lists' changes leave of the history (R52) -/

theorem State.granted_captured (s : State) : s.granted.ccu.captured = s.ccu.captured := by
  have part : s.granted.ccu.capturedPart = s.ccu.capturedPart := by
    unfold State.granted State.startedOn
    split
    · split
      · dsimp only
        split
        · split
          · split <;> simp
          · simp
        · simp
      · simp
    · simp
  exact congrArg Prod.fst part

theorem State.declareAbsent_captured (s : State) (x : Nat) : (s.declareAbsent x).ccu.captured = s.ccu.captured := by
  obtain ⟨-, -, -, ccu⟩ := s.declareAbsent_unlisted x
  rw [ccu]
  unfold State.unlisted State.admRemove State.admChange
  dsimp only
  split
  · exact State.granted_captured _
  · rfl

theorem State.absences_captured (s : State) (l : List Nat) : (s.absences l).ccu.captured = s.ccu.captured := by
  induction l generalizing s with
  | nil => rfl
  | cons x l ih => exact (ih _).trans (s.declareAbsent_captured x)

/-! ### Promotions during LISTEN (R16, R46) -/

/-- 1 where this station's number has come into its own roster, the station serving. -/
def State.newlyIn (s t : State) : Nat :=
  if s.serving = true ∧ s.own ∉ s.adm.roster.map Prod.fst ∧ s.own ∈ t.adm.roster.map Prod.fst then 1 else 0

/-- `t` is `s` after changes of other stations' places in LISTEN, a grant of which no claim is asked: the release it asks
is kept for the end of LISTEN. -/
structure State.ListenMoved (s t : State) : Prop where
  sld   : t.sld = s.sld
  state : t.ptu.state = s.ptu.state
  stays : s.own ∈ s.adm.roster.map Prod.fst → s.own ∈ t.adm.roster.map Prod.fst
  own   : t.adm.own = s.adm.own
  kept  : t.adm.kept = s.adm.kept + s.newlyIn t
  psq   : t.psq = { s.psq with retract := s.psq.retract + s.newlyIn t }

theorem State.newlyIn_self (s : State) : s.newlyIn s = 0 := if_neg fun ⟨_, out, into⟩ => out into

theorem State.ListenMoved.refl (s : State) : s.ListenMoved s :=
  ⟨rfl, rfl, id, rfl, by rw [s.newlyIn_self]; rfl, by rw [s.newlyIn_self]; rfl⟩

/-- This station's number, once in, stays: it comes in once at most. -/
theorem State.newlyIn_trans {s t u : State} (sld : t.sld = s.sld)
    (first : s.own ∈ s.adm.roster.map Prod.fst → s.own ∈ t.adm.roster.map Prod.fst)
    (second : s.own ∈ t.adm.roster.map Prod.fst → s.own ∈ u.adm.roster.map Prod.fst) :
    s.newlyIn u = s.newlyIn t + t.newlyIn u := by
  have own : t.own = s.own := by rw [State.own, State.own, sld]
  have serving : t.serving = s.serving := by rw [State.serving, State.serving, sld]
  unfold State.newlyIn
  rw [own, serving]
  by_cases before : s.own ∈ s.adm.roster.map Prod.fst
  · simp [before, first before]
  · by_cases between : s.own ∈ t.adm.roster.map Prod.fst
    · simp [before, between, second between]
    · simp [before, between]

theorem State.ListenMoved.trans {s t u : State} (first : s.ListenMoved t) (second : t.ListenMoved u) : s.ListenMoved u := by
  have own : t.own = s.own := by rw [State.own, State.own, first.sld]
  have stays := second.stays
  rw [own] at stays
  have count : s.newlyIn u = s.newlyIn t + t.newlyIn u := State.newlyIn_trans first.sld first.stays stays
  refine ⟨second.sld.trans first.sld, second.state.trans first.state, stays ∘ first.stays, second.own.trans first.own,
    ?_, ?_⟩
  · rw [second.kept, first.kept, count, Nat.add_assoc]
  · rw [second.psq, first.psq, count, ← Nat.add_assoc]

theorem State.askRetract_listen {s : State} (listen : s.ptu.state = .listen) (kind : OwnKind) : s.askRetract kind =
    { s with psq := { s.psq with retract := s.psq.retract + 1 }, adm := { s.adm with kept := s.adm.kept + 1 } } := by
  unfold State.askRetract
  rw [if_neg (by simp [listen])]
  dsimp only
  rw [if_neg (by simp [listen])]

theorem State.admChange_listenMoved {s : State} {change : Adm → Adm} (listen : s.ptu.state = .listen)
    (unasked : s.psq.state ≠ some .awaitingSlot ∨ s.psq.claimAsked = false)
    (list : (change s.adm).own = s.adm.own ∧ (change s.adm).kept = s.adm.kept)
    (place : s.own ∈ s.adm.roster.map Prod.fst → s.own ∈ (change s.adm).roster.map Prod.fst) :
    s.ListenMoved (s.admChange change) := by
  have keeps := s.admChange_keeps change
  have stays : s.own ∈ s.adm.roster.map Prod.fst → s.own ∈ (s.changed change).roster.map Prod.fst := fun within => by
    have numbers : (s.changed change).roster.map Prod.fst = _ := Adm.promote_numbers _ _ _
    rw [numbers]
    exact List.mem_append_left _ (place within)
  by_cases grant : s.serving = true ∧ s.own ∉ s.adm.roster.map Prod.fst ∧ s.own ∈ (s.changed change).roster.map Prod.fst
  · obtain ⟨serving, out, into⟩ := grant
    have refused : s.admChange change = ({ s with adm := s.changed change } : State).askRetract .release := by
      rw [State.admChange_granted serving out into]
      refine State.granted_refused _ fun ⟨awaits, asked⟩ => ?_
      rcases unasked with other | none_
      · exact other awaits
      · exact Bool.false_ne_true (none_.symm.trans asked)
    rw [State.askRetract_listen (s := { s with adm := s.changed change }) listen] at refused
    have once : s.newlyIn (s.admChange change) = 1 := by
      rw [refused]
      exact if_pos ⟨serving, out, into⟩
    refine ⟨keeps.2.2.2.1, by rw [keeps.2.2.2.2.1], ?_, ?_, ?_, ?_⟩
    · rw [refused]
      exact stays
    · rw [refused]
      exact list.1
    · rw [once, refused]
      exact congrArg (· + 1) list.2
    · rw [once, refused]
  · have still : s.admChange change = { s with adm := s.changed change } := by
      unfold State.admChange
      refine if_neg fun isGrant => grant ?_
      simp only [Bool.and_eq_true, Bool.not_eq_true', ← Bool.not_eq_true, Adm.inRoster_iff, and_assoc] at isGrant
      exact isGrant
    have never : s.newlyIn (s.admChange change) = 0 := by
      rw [still]
      exact if_neg grant
    refine ⟨keeps.2.2.2.1, by rw [keeps.2.2.2.2.1], ?_, ?_, ?_, ?_⟩
    · rw [still]
      exact stays
    · rw [still]
      exact list.1
    · rw [never, still]
      exact list.2
    · rw [never, still]
      rfl

theorem State.absences_sld (s : State) (l : List Nat) : (s.absences l).sld = s.sld :=
  (State.foldl_declareAbsent_keeps l s).2.2.2.1

/-- Other stations' absences in LISTEN. -/
theorem State.absences_listenMoved {s : State} {l : List Nat} (others : s.own ∉ l) (listen : s.ptu.state = .listen)
    (unasked : s.psq.state ≠ some .awaitingSlot ∨ s.psq.claimAsked = false) : s.ListenMoved (s.absences l) := by
  induction l generalizing s with
  | nil => exact .refl s
  | cons x l ih =>
    obtain ⟨other, later⟩ := not_or.1 (mt List.mem_cons.2 others)
    obtain ⟨v, isV⟩ : ∃ v : State, v = { s with ptu := s.ptu.setPeer x {} } := ⟨_, rfl⟩
    obtain ⟨adm, sld, psq⟩ : v.adm = s.adm ∧ v.sld = s.sld ∧ v.psq = s.psq := by rw [isV]; exact ⟨rfl, rfl, rfl⟩
    have state : v.ptu.state = s.ptu.state := by rw [isV]; exact (s.ptu.setPeer_rest x {}).1
    have own : v.own = s.own := by rw [State.own, State.own, sld]
    have moved : v.ListenMoved (v.admRemove x) :=
      State.admChange_listenMoved (by rw [state]; exact listen) (by rw [psq]; exact unasked) ⟨rfl, rfl⟩
        fun within => Adm.mem_dropRoster (by rw [own]; exact other) within
    obtain ⟨admIs, psqIs, -, -⟩ := s.declareAbsent_unlisted x
    have removed : s.unlisted x = v.admRemove x := by rw [isV]; rfl
    have newly : s.newlyIn (s.declareAbsent x) = v.newlyIn (v.admRemove x) := by
      unfold State.newlyIn
      rw [own, adm, State.serving, State.serving, sld, admIs, removed]
    have first : s.ListenMoved (s.declareAbsent x) := by
      refine ⟨s.absences_sld [x], s.declareAbsent_state x, ?_, ?_, ?_, ?_⟩
      · rw [admIs, removed, ← own, ← adm]
        exact moved.stays
      · rw [admIs, removed, moved.own, adm]
      · rw [newly, admIs, removed, moved.kept, adm]
      · rw [newly, psqIs, removed, moved.psq, psq]
    have sameOwn : (s.declareAbsent x).own = s.own := by rw [State.own, State.own, first.sld]
    refine first.trans (ih (by rw [sameOwn]; exact later) (first.state.trans listen) ?_)
    rw [first.psq]
    exact unasked

end Sys2Proof.Machine


namespace Sys2Proof.Machine

/-! ### The end of LISTEN (R46, R177) -/

/-- The own frames' retract at the end of LISTEN. -/
def State.leaveEntry (s : State) : List OwnKind :=
  if s.serving = false then []
  else if s.own ∈ s.adm.roster.map Prod.fst then [.release]
  else if s.own ∈ s.adm.waiting then [.withdraw] else []

/-- The entry to MEMBER asks the waiting claim. -/
def State.enteringClaims (s : State) : Bool :=
  s.psq.state = some .awaitingSlot ∧ s.psq.retract + s.leaveEntry.length = 0 ∧ s.psq.claimAsked = false

theorem State.selfRetract_eq (s : State) : ∃ frames : List OwnFrame, frames.map OwnFrame.kind = s.leaveEntry ∧
    s.selfRetract = { s with
      adm := { s.adm with own := s.adm.ownWith (frames ++ List.replicate s.adm.kept { kind := .release }), kept := 0 }
      psq := { s.psq with retract := s.psq.retract + frames.length } } := by
  refine ⟨_, ?_, rfl⟩
  unfold State.leaveEntry
  simp only [Adm.inRoster_iff, Adm.isWaiting_iff]
  cases s.serving with
  | false => rfl
  | true =>
    rw [if_pos rfl, if_neg (Ne.symm Bool.false_ne_true)]
    split
    · rfl
    · split <;> rfl

theorem take_append_take {α : Type} (l m : List α) (n : Nat) : (l.take n ++ m).take n = (l ++ m).take n := by
  rw [List.take_append, List.take_append, List.take_take, List.length_take, Nat.min_self]
  by_cases long : l.length ≤ n
  · rw [Nat.min_eq_right long]
  · rw [Nat.min_eq_left (by omega), Nat.sub_self, Nat.sub_eq_zero_of_le (by omega)]

/-- What the end of LISTEN asks of ADM, and where it leaves PTU. -/
theorem State.enterMember_parts (s : State) :
    s.enterMember.adm.roster = s.adm.roster ∧ s.enterMember.adm.waiting = s.adm.waiting ∧
    s.enterMember.adm.kept = 0 ∧
    s.enterMember.adm.own.map OwnFrame.kind =
      (s.adm.own.map OwnFrame.kind ++ s.leaveEntry ++ List.replicate s.adm.kept OwnKind.release ++
        (if s.enteringClaims then [OwnKind.claim (if s.psq.variant = .feedRestore then .feedRestore else .powerOn)]
          else [])).take 4 ∧
    s.enterMember.psq = { s.psq with
      retract := s.psq.retract + s.leaveEntry.length, claimAsked := s.psq.claimAsked || s.enteringClaims } ∧
    s.enterMember.ptu = { s.ptu with state := .member } := by
  obtain ⟨frames, kinds, retracts⟩ := s.selfRetract_eq
  have length : frames.length = s.leaveEntry.length := by rw [← kinds, List.length_map]
  have start : s.psq.variant.startKind = (if s.psq.variant = .feedRestore then .feedRestore else .powerOn) := by
    cases s.psq.variant <;> rfl
  unfold State.enterMember
  rw [retracts]
  unfold State.askClaim
  dsimp only
  have claims : (s.psq.state = some .awaitingSlot && s.psq.retract + frames.length = 0 && !s.psq.claimAsked &&
      StationState.member = .member : Bool) = s.enteringClaims := by
    unfold State.enteringClaims
    rw [length]
    cases s.psq.claimAsked <;> simp
  rw [claims]
  have listed : (s.adm.ownWith (frames ++ List.replicate s.adm.kept { kind := .release })).map OwnFrame.kind =
      (s.adm.own.map OwnFrame.kind ++ s.leaveEntry ++ List.replicate s.adm.kept OwnKind.release).take 4 := by
    simp [Adm.ownWith, List.map_take, kinds]
  cases s.enteringClaims with
  | false =>
    refine ⟨rfl, rfl, rfl, ?_, ?_, rfl⟩
    · simpa using listed
    · simp [length]
  | true =>
    refine ⟨rfl, rfl, rfl, ?_, ?_, rfl⟩
    · change (List.take 4 ((s.adm.ownWith (frames ++ List.replicate s.adm.kept { kind := .release })) ++
        [({ kind := .claim s.psq.variant.startKind } : OwnFrame)])).map OwnFrame.kind = _
      rw [List.map_take, List.map_append, listed, start]
      exact take_append_take _ _ 4
    · simp [State.addOwn, length]

/-! ### The beacon due (R184) -/

theorem Lif.engine_of_core {l m : Lif} (same : l.core = m.core) : l.engine = m.engine := by
  have engines : l.core.engine = m.core.engine := congrArg Lif.engine same
  exact engines

/-- The debt once the beacon of a boundary is due. -/
def Ptu.debtDue (p : Ptu) : Nat :=
  match p.standing with
  | some .held => min 2 (p.debt + 1)
  | some (.listed _) => min 2 (p.debt + 1)
  | _ => p.debt

theorem State.offerBeacon_ptu (s : State) : s.offerBeacon.ptu = { s.ptu with
    debt := s.offerBeacon.ptu.debt, standing := s.offerBeacon.ptu.standing
    beaconClass := s.offerBeacon.ptu.beaconClass } := by
  unfold State.offerBeacon
  split
  · split
    next => rfl
    next => rfl
    next seq _ =>
      have left : (s.lifWithdraw seq).ptu = s.ptu := by simp
      dsimp only
      rw [left]
      rfl
    next => rfl
  · rfl

/-- A member with a legal number owes a beacon, and one not in tenure is offered anew. -/
theorem State.offerBeacon_owes {s : State} (offers : s.ptu.state = .member ∨ s.ptu.state = .haltedSetup)
    (legal : s.legalNumber = true) : s.offerBeacon.ptu.debt = s.ptu.debtDue ∧
      ((∀ seq, s.ptu.standing ≠ some (.inTenure seq)) →
        s.offerBeacon.ptu.beaconClass = if 2 ≤ s.offerBeacon.ptu.debt then 0 else 3) := by
  unfold State.offerBeacon Ptu.debtDue
  rw [if_pos (by simpa [legal] using offers)]
  cases s.ptu.standing with
  | none => exact ⟨rfl, fun _ => rfl⟩
  | some standing =>
    cases standing with
    | held => exact ⟨rfl, fun _ => rfl⟩
    | listed seq => exact ⟨by simp [Ptu.freshBeacon, Ptu.owe], fun _ => by simp [Ptu.freshBeacon, Ptu.owe]⟩
    | inTenure seq => exact ⟨rfl, fun untenured => absurd rfl (untenured seq)⟩

/-! ### What follows the absences of a boundary (R177, R184) -/

/-- The end of LISTEN, then the beacon due. -/
def State.memberBeacon (s : State) : State := (if s.ptu.state = .listen then s.enterMember else s).offerBeacon

/-- What follows the absences leaves the table, the lists, the claim, the watchers and the notices. -/
theorem State.memberBeacon_keeps (s : State) :
    s.memberBeacon.ptu.peers = s.ptu.peers ∧ s.memberBeacon.ptu.mismatch = s.ptu.mismatch ∧
    s.memberBeacon.ptu.boundary = s.ptu.boundary ∧ s.memberBeacon.ptu.digest = s.ptu.digest ∧
    s.memberBeacon.adm.roster = s.adm.roster ∧ s.memberBeacon.adm.waiting = s.adm.waiting ∧
    s.memberBeacon.ord = s.ord ∧ s.memberBeacon.cfw = s.cfw ∧ s.memberBeacon.ntu = s.ntu ∧
    s.memberBeacon.ccu = s.ccu ∧ s.memberBeacon.wdu = s.wdu ∧ s.memberBeacon.lif.engine = s.lif.engine := by
  obtain ⟨m, isM⟩ : ∃ m, m = if s.ptu.state = .listen then s.enterMember else s := ⟨_, rfl⟩
  have lif : m.lif = s.lif := by rw [isM]; split <;> simp
  have engine : m.offerBeacon.lif.engine = m.lif.engine := Lif.engine_of_core m.offerBeacon_laneCore
  have ptu := m.offerBeacon_ptu
  have same : m.ptu.peers = s.ptu.peers ∧ m.ptu.mismatch = s.ptu.mismatch ∧ m.ptu.boundary = s.ptu.boundary ∧
      m.ptu.digest = s.ptu.digest ∧ m.adm.roster = s.adm.roster ∧ m.adm.waiting = s.adm.waiting := by
    rw [isM]
    split
    · obtain ⟨roster, waiting, -, -, -, memberPtu⟩ := s.enterMember_parts
      rw [memberPtu]
      exact ⟨rfl, rfl, rfl, rfl, roster, waiting⟩
    · exact ⟨rfl, rfl, rfl, rfl, rfl, rfl⟩
  obtain ⟨peers, mismatch, boundary, digest, roster, waiting⟩ := same
  have rest : m.ord = s.ord ∧ m.cfw = s.cfw ∧ m.ntu = s.ntu ∧ m.ccu = s.ccu ∧ m.wdu = s.wdu := by
    rw [isM]
    split <;> simp
  obtain ⟨ord, cfw, ntu, ccu, wdu⟩ := rest
  have offered : s.memberBeacon = m.offerBeacon := by rw [isM]; rfl
  clear isM
  rw [offered, engine, lif, ptu]
  simp [peers, mismatch, boundary, digest, roster, waiting, ord, cfw, ntu, ccu, wdu]

theorem State.memberBeacon_still {s : State} (awake : s.ptu.state ≠ .listen) :
    s.memberBeacon.ptu.state = s.ptu.state ∧ s.memberBeacon.adm = s.adm ∧ s.memberBeacon.psq = s.psq := by
  unfold State.memberBeacon
  rw [if_neg awake, State.offerBeacon_ptu]
  simp

theorem State.memberBeacon_listen {s : State} (listen : s.ptu.state = .listen) :
    s.memberBeacon.ptu.state = .member ∧ s.memberBeacon.adm = s.enterMember.adm ∧
    s.memberBeacon.psq = s.enterMember.psq := by
  unfold State.memberBeacon
  rw [if_pos listen, State.offerBeacon_ptu, s.enterMember_parts.2.2.2.2.2]
  simp

theorem State.memberBeacon_owes {s : State} (offers : s.ptu.state = .listen ∨ s.ptu.state = .member ∨
    s.ptu.state = .haltedSetup) (legal : s.legalNumber = true) : s.memberBeacon.ptu.debt = s.ptu.debtDue ∧
      ((∀ seq, s.ptu.standing ≠ some (.inTenure seq)) →
        s.memberBeacon.ptu.beaconClass = if 2 ≤ s.memberBeacon.ptu.debt then 0 else 3) := by
  unfold State.memberBeacon
  by_cases listen : s.ptu.state = .listen
  · have ptu : s.enterMember.ptu = { s.ptu with state := .member } := s.enterMember_parts.2.2.2.2.2
    have sld : s.enterMember.legalNumber = s.legalNumber := by simp [State.legalNumber]
    obtain ⟨debt, cls⟩ := State.offerBeacon_owes (s := s.enterMember) (.inl (by rw [ptu])) (sld.trans legal)
    rw [if_pos listen]
    rw [ptu] at debt cls
    exact ⟨debt, cls⟩
  · rw [if_neg listen]
    exact State.offerBeacon_owes (offers.resolve_left listen) legal

end Sys2Proof.Machine


namespace Sys2Proof.Machine

/-! ### A presence-period boundary (R177, R182, R184) -/

/-- A peer that a boundary finds absent: two boundaries have missed it before. -/
def State.Gone (s : State) (x : Nat) : Prop :=
  1 ≤ x ∧ x ≤ 62 ∧ (s.ptu.peer x).present = true ∧ 2 ≤ (s.ptu.peer x).missed

theorem Ptu.age_peer (p : Ptu) {x : Nat} (low : 1 ≤ x) (high : x ≤ 62) : p.age.peer x =
    if (p.peer x).present then { p.peer x with missed := (p.peer x).missed + 1 } else p.peer x := by
  have size : p.peers.toArray.size = 62 := p.peers.size_toArray
  have within : x - 1 < 62 := by omega
  simp only [Ptu.peer, Ptu.age, low, if_true]
  simp [List.getD_eq_getElem?_getD, Vector.toList, size, within]

/-- The state at a boundary, its peers aged. -/
def State.aged (s : State) (due : Time) : State :=
  { s.timeTo due with ptu := ({ s.ptu with boundary := some (after due s.period) } : Ptu).age }

theorem State.boundary_eq {s : State} {due : Time} (runs : s.ptu.boundary = some due) :
    s.boundary = ((s.aged due).absences (s.aged due).ptu.overdue).memberBeacon := by
  unfold State.boundary
  rw [runs]
  rfl

theorem State.aged_peer (s : State) (due : Time) {x : Nat} (low : 1 ≤ x) (high : x ≤ 62) :
    (s.aged due).ptu.peer x = if (s.ptu.peer x).present then
      { s.ptu.peer x with missed := (s.ptu.peer x).missed + 1 } else s.ptu.peer x :=
  Ptu.age_peer { s.ptu with boundary := some (after due s.period) } low high

theorem State.mem_overdue (s : State) (due : Time) (x : Nat) : x ∈ (s.aged due).ptu.overdue ↔ s.Gone x := by
  unfold Ptu.overdue Ptu.presentPeers State.Gone
  rw [List.mem_filter, List.mem_filter, mem_stationNumbers, and_assoc, and_assoc]
  refine and_congr_right fun low => and_congr_right fun high => ?_
  rw [s.aged_peer due low high, decide_eq_true_iff]
  cases present : (s.ptu.peer x).present with
  | false => simp [present]
  | true =>
    simp only [if_true, present, true_and]
    omega

theorem State.overdue_stations (s : State) (due : Time) : Stations (s.aged due).ptu.overdue := fun x mem => by
  obtain ⟨low, high, -⟩ := (s.mem_overdue due x).1 mem
  exact ⟨low, high⟩

/-- One peer alone gone is the whole list. -/
theorem State.overdue_single {s : State} {due : Time} {x : Nat} (gone : s.Gone x) (alone : ∀ y, s.Gone y → y = x) :
    (s.aged due).ptu.overdue = [x] := by
  have distinct : (s.aged due).ptu.overdue.Nodup := by
    have numbers : stationNumbers.Nodup := List.nodup_range.map fun i j same => Nat.succ.inj same
    exact (numbers.filter _).filter _
  refine List.perm_singleton.1 ((List.perm_ext_iff_of_nodup distinct (List.nodup_singleton x)).2 fun y => ?_)
  rw [s.mem_overdue, List.mem_singleton]
  exact ⟨alone y, fun same => same ▸ gone⟩

/-- A grant by one absence in MEMBER (R16, R40). -/
theorem State.declareAbsent_grants {s : State} {x : Nat} (other : x ≠ s.own) (serving : s.serving = true)
    (member : s.ptu.state = .member) (out : s.own ∉ s.adm.roster.map Prod.fst)
    (into : s.own ∈ (s.declareAbsent x).adm.roster.map Prod.fst)
    (uncancelled : s.grantReleases = true → cancelPair (s.adm.ownWith [{ kind := .release }]) = none) :
    ∃ w, s.GrantTaken w ∧ (s.declareAbsent x).psq = w.psq ∧ (s.declareAbsent x).wdu = w.wdu ∧
      (s.declareAbsent x).ccu = w.ccu ∧ (s.declareAbsent x).ntu.told .powerState = w.ntu.told .powerState := by
  obtain ⟨adm, psq, wdu, ccu⟩ := s.declareAbsent_unlisted x
  have state : ({ s with ptu := s.ptu.setPeer x {} } : State).ptu.state = s.ptu.state := (s.ptu.setPeer_rest x {}).1
  have moved := State.admRemove_admMoved (s := { s with ptu := s.ptu.setPeer x {} }) (x := x) other
  rw [adm] at into
  obtain ⟨w, taken, isPsq, isWdu, isCcu, told⟩ := moved.grants serving (state.trans member) out into uncancelled
  rw [psq, wdu, ccu, State.declareAbsent_power]
  exact ⟨w, taken.congr rfl rfl rfl rfl rfl rfl state.symm rfl, isPsq, isWdu, isCcu, told⟩

/-- What the end of LISTEN makes of the absences before it (R46). -/
theorem State.listenEnds {s a : State} (moved : s.ListenMoved a) (listen : s.ptu.state = .listen) :
    let promoted := s.newlyIn a
    let retract := s.psq.retract + promoted + a.leaveEntry.length
    let claims : Bool := s.psq.state = some .awaitingSlot ∧ retract = 0 ∧ s.psq.claimAsked = false
    let start : StartKind := if s.psq.variant = .feedRestore then .feedRestore else .powerOn
    a.memberBeacon.adm.own.map OwnFrame.kind =
      (s.adm.own.map OwnFrame.kind ++ a.leaveEntry ++ List.replicate (s.adm.kept + promoted) OwnKind.release ++
        (if claims then [OwnKind.claim start] else [])).take 4 ∧
    a.memberBeacon.adm.kept = 0 ∧
    a.memberBeacon.psq = { s.psq with retract := retract, claimAsked := s.psq.claimAsked || claims } := by
  intro promoted retract claims start
  obtain ⟨-, adm, psq⟩ := State.memberBeacon_listen (moved.state.trans listen)
  obtain ⟨-, -, kept, kinds, asks, -⟩ := a.enterMember_parts
  have isClaims : a.enteringClaims = claims := by
    unfold State.enteringClaims
    rw [moved.psq]
  rw [isClaims] at kinds asks
  rw [moved.own, moved.kept, moved.psq] at kinds
  rw [moved.psq] at asks
  rw [adm, psq]
  exact ⟨kinds, kept, asks⟩

end Sys2Proof.Machine


namespace Sys2Proof.Machine

/-! ### What a boundary's absences leave (R182, R186, R194) -/

/-- The state at a boundary, its absences declared. -/
def State.thinned (s : State) (due : Time) : State := (s.aged due).absences (s.aged due).ptu.overdue

section

variable (s : State) (due : Time)

theorem State.aged_takes : (s.aged due).takesRaises = true ↔
    s.ptu.state = .listen ∨ s.ptu.state = .member ∨ s.ptu.state = .silent := State.takesRaises_iff _

/-- Of PTU a boundary's absences change entries and the rack-mismatch condition alone. -/
theorem State.thinned_ptu : (s.thinned due).ptu = { s.ptu with
    boundary := some (after due s.period), peers := (s.thinned due).ptu.peers
    mismatch := (s.thinned due).ptu.mismatch } := (s.aged due).absences_rest _

theorem State.thinned_keeps : (s.thinned due).now = (s.timeTo due).now ∧ (s.thinned due).rstn = s.rstn ∧
    (s.thinned due).pins = s.pins ∧ (s.thinned due).sld = s.sld ∧ (s.thinned due).sdram = s.sdram ∧
    (s.thinned due).pending = s.pending ∧ (s.thinned due).lif.engine = s.lif.engine ∧
    (s.thinned due).ccu.captured = s.ccu.captured := by
  obtain ⟨now, rstn, pins, sld, sdram, -, -, pending⟩ :=
    State.foldl_declareAbsent_keeps (s.aged due).ptu.overdue (s.aged due)
  have core := State.foldl_declareAbsent_laneCore (s.aged due).ptu.overdue (s.aged due)
  have engine : (s.thinned due).lif.engine = s.lif.engine := Lif.engine_of_core core
  exact ⟨now, rstn, pins, sld, sdram, pending, engine, State.absences_captured _ _⟩

theorem State.thinned_peer {x : Nat} (low : 1 ≤ x) (high : x ≤ 62) : (s.thinned due).ptu.peer x =
    if (s.ptu.peer x).present then
      (if 2 ≤ (s.ptu.peer x).missed then {} else { s.ptu.peer x with missed := (s.ptu.peer x).missed + 1 })
    else s.ptu.peer x := by
  have overdue : x ∈ (s.aged due).ptu.overdue ↔ (s.ptu.peer x).present = true ∧ 2 ≤ (s.ptu.peer x).missed := by
    simp [s.mem_overdue, State.Gone, low, high]
  unfold State.thinned
  rw [State.absences_peer (s.overdue_stations due) low, s.aged_peer due low high]
  cases present : (s.ptu.peer x).present with
  | false => simp [overdue, present]
  | true => simp [overdue, present]

theorem State.thinned_without {x : Nat} (gone : s.Gone x) : (s.thinned due).Without x :=
  State.absences_without ((s.mem_overdue due x).2 gone)

/-- With nobody gone the boundary ages alone. -/
theorem State.thinned_none (none_ : ∀ x, ¬ s.Gone x) : s.thinned due = s.aged due := by
  have empty : (s.aged due).ptu.overdue = [] :=
    List.eq_nil_iff_forall_not_mem.2 fun x mem => none_ x ((s.mem_overdue due x).1 mem)
  unfold State.thinned
  rw [empty]
  rfl

theorem State.thinned_holder {x : Nat} (gone : s.Gone x) (holds : s.ord.holder = some x) :
    (s.thinned due).ord.holder = none ∧ (s.thinned due).ord.holdTime = 0 ∧
    (s.ptu.state = .listen ∨ s.ptu.state = .member ∨ s.ptu.state = .silent →
      (s.thinned due).ntu.told .claimLost = some [byte x, 0, 2]) := by
  rw [← s.aged_takes due]
  exact State.absences_holder (s := s.aged due) ((s.mem_overdue due x).2 gone) holds

theorem State.thinned_unheld (others : ∀ x, s.Gone x → s.ord.holder ≠ some x) :
    (s.thinned due).ord = s.ord ∧ (s.thinned due).ntu.told .claimLost = s.ntu.told .claimLost :=
  State.absences_unheld (s := s.aged due) fun x mem => others x ((s.mem_overdue due x).1 mem)

theorem State.thinned_mismatch (some_ : ∃ x, s.Gone x) :
    (s.thinned due).ptu.mismatch = true ↔ (s.thinned due).ptu.mismatched ≠ [] := by
  obtain ⟨x, gone⟩ := some_
  unfold State.thinned
  rw [State.absences_mismatch (List.ne_nil_of_mem ((s.mem_overdue due x).2 gone))]
  simp

/-- The condition that stood (R186). -/
theorem State.thinned_rack (set_ : s.ptu.mismatch = true) :
    ((s.thinned due).ptu.mismatched ≠ [] → (s.thinned due).ntu.told .rackMismatch = s.ntu.told .rackMismatch) ∧
    ((s.thinned due).ptu.mismatched = [] → (∃ x, s.Gone x) →
      s.ptu.state = .listen ∨ s.ptu.state = .member ∨ s.ptu.state = .silent →
      (s.thinned due).ntu.told .rackMismatch = some [0, 0, 0]) := by
  rw [← s.aged_takes due]
  obtain ⟨kept, ends_⟩ := State.absences_rack (s := s.aged due) (s.overdue_stations due) set_
  exact ⟨kept, fun matched ⟨x, gone⟩ => ends_ matched (List.ne_nil_of_mem ((s.mem_overdue due x).2 gone))⟩

/-- Other stations' absences in LISTEN, a grant of which no claim is asked. -/
theorem State.thinned_listenMoved (listen : s.ptu.state = .listen) (unheard : (s.ptu.peer s.own).present = false)
    (unasked : s.psq.state ≠ some .awaitingSlot ∨ s.psq.claimAsked = false) : (s.aged due).ListenMoved (s.thinned due) := by
  refine State.absences_listenMoved (fun mem => ?_) listen unasked
  obtain ⟨-, -, present, -⟩ := (s.mem_overdue due s.own).1 mem
  rw [unheard] at present
  cases present

end

/-- Settles O15: the absences of a boundary in turn, then the end of LISTEN, the beacon due and the end of the step. -/
theorem boundaryAgesPeersAndOwesBeacons : Obligations.BoundaryAgesPeersAndOwesBeacons := by
  unfold Obligations.BoundaryAgesPeersAndOwesBeacons
  intro s due released runs gone told notice
  obtain ⟨a, isA⟩ : ∃ a, a = s.thinned due := ⟨_, rfl⟩
  obtain ⟨u, isU⟩ : ∃ u, u = a.memberBeacon := ⟨_, rfl⟩
  have acts : s.boundary = u := by rw [isU, isA, State.boundary_eq runs]; rfl
  obtain ⟨now, rstn, pins, sld, sdram, pending, engine, captured⟩ := s.thinned_keeps due
  have ptu := s.thinned_ptu due
  rw [← isA] at now rstn pins sld sdram pending engine captured ptu
  have state : a.ptu.state = s.ptu.state := by rw [ptu]
  have own : a.own = s.own := by rw [State.own, State.own, sld]
  have legal : a.legalNumber = s.legalNumber := by rw [State.legalNumber, State.legalNumber, sld]
  obtain ⟨uPeers, uMismatch, uBoundary, uDigest, uRoster, uWaiting, uOrd, uCfw, uNtu, uCcu, uWdu, uEngine⟩ :=
    a.memberBeacon_keeps
  rw [← isU] at uPeers uMismatch uBoundary uDigest uRoster uWaiting uOrd uCfw uNtu uCcu uWdu uEngine
  have rest : u.now = a.now ∧ u.rstn = a.rstn ∧ u.pins = a.pins ∧ u.sld = a.sld ∧ u.sdram = a.sdram ∧
      u.pending = a.pending := by
    rw [isU]
    unfold State.memberBeacon
    split <;> simp
  obtain ⟨uNow, uRstn, uPins, uSld, uSdram, uPending⟩ := rest
  have peers : (settle u).ptu.peers = a.ptu.peers := by rw [settle_ptu_peers, uPeers]
  have peer (x : Nat) : (settle u).ptu.peer x = a.ptu.peer x := by unfold Ptu.peer; rw [peers]
  have bad : (settle u).ptu.mismatched = a.ptu.mismatched := by unfold Ptu.mismatched; simp only [peer]
  have kinds := (settle_keepsRolls u).kinds
  have without (x : Nat) (h : gone x) : a.Without x := by rw [isA]; exact s.thinned_without due h
  have roster : (settle u).adm.roster = a.adm.roster := by rw [settle_adm_roster, uRoster]
  have waiting : (settle u).adm.waiting = a.adm.waiting := by rw [settle_adm_waiting, uWaiting]
  have still (none_ : ∀ x, ¬ gone x) : a = s.aged due := by rw [isA]; exact s.thinned_none due none_
  refine ⟨u, settle u, rfl, exec_of_effect released acts, ?_, ?_, ?_, ?_, ?_, ?_, ?_, ?_, ?_, ?_, fun x low high => ?_,
    fun x low high present missed => ?_, ?_, fun offers isLegal => ?_, fun present => ?_, fun listen unheard unasked => ?_,
    fun x h holds => ?_, fun others => ?_, ⟨fun some_ => ?_, fun set_ some_ matched isTold => ?_, fun set_ named => ?_⟩,
    fun none_ => ?_, fun x h alone serving member _ out into uncancelled => ?_⟩
  · rw [settle_now, uNow, now]
    rfl
  · rw [settle_rstn, uRstn, rstn]
  · rw [settle_pins, uPins, pins]
  · rw [settle_sld, uSld, sld]
  · rw [settle_sdram, uSdram, sdram]
  · rw [settle_pending, uPending, pending]
  · rw [settle_lif_engine, uEngine, engine]
  · rw [settle_ccu_captured, uCcu, captured]
  · rw [settle_ptu_boundary, uBoundary, ptu]
  · rw [settle_ptu_digest, uDigest, ptu]
  · rw [peer, isA]
    exact s.thinned_peer due low high
  · obtain ⟨unrostered, unwaited, unclaimed, unwatched⟩ := without x ⟨low, high, present, missed⟩
    rw [roster, waiting, settle_ord_holder, uOrd]
    refine ⟨unrostered, unwaited, unclaimed, fun w mem isX => ?_⟩
    have station : w.station ∈ (settle u).cfw.watchers.map Watcher.station := List.mem_map_of_mem mem
    rw [(settle_keepsRolls u).stations, uCfw] at station
    obtain ⟨v, within, same⟩ := List.mem_map.1 station
    exact unwatched v within (same.trans isX)
  · rw [settle_ptu_state, isU, ← state]
    by_cases listen : a.ptu.state = .listen
    · rw [if_pos listen, (State.memberBeacon_listen listen).1]
    · rw [if_neg listen, (State.memberBeacon_still listen).1]
  · obtain ⟨debt, cls⟩ := State.memberBeacon_owes (by rw [state]; exact offers) (legal.trans isLegal)
    rw [settle_ptu_debt, settle_ptu_beaconClass, isU]
    rw [ptu] at debt cls
    exact ⟨debt, cls⟩
  · have none_ (x : Nat) (h : gone x) : False := by
      obtain ⟨low, high, isPresent, missed⟩ := h
      exact absurd (present x low high isPresent) (by omega)
    have aged := still none_
    rw [roster, waiting, aged]
    refine ⟨rfl, rfl, fun awake => ?_⟩
    obtain ⟨-, adm, psq⟩ := State.memberBeacon_still (s := a) (by rw [state]; exact awake)
    rw [kinds, settle_adm_kept, settle_psq, isU, adm, psq, aged]
    exact ⟨rfl, rfl, rfl⟩
  · intro mine promoted entry retract claims start
    have moved := s.thinned_listenMoved due listen unheard unasked
    rw [← isA] at moved
    have ends_ := State.listenEnds moved listen
    rw [← isU] at ends_
    have isPromoted : (s.aged due).newlyIn a = promoted := by
      unfold State.newlyIn
      simp only [promoted, mine, roster]
      rfl
    have isEntry : a.leaveEntry = entry := by
      unfold State.leaveEntry
      rw [own, State.serving, sld]
      simp only [entry, mine, roster, waiting]
      rfl
    dsimp only at ends_
    rw [isPromoted, isEntry] at ends_
    rw [kinds, settle_adm_kept, settle_psq]
    exact ends_
  · obtain ⟨lost, time, tells⟩ := s.thinned_holder due h holds
    rw [settle_ord_holder, settle_ord_holdTime, uOrd, isA]
    refine ⟨lost, time, fun isTold => ?_⟩
    change u.ntu.told .claimLost = _
    rw [uNtu, isA]
    exact tells isTold
  · obtain ⟨ord, tells⟩ := s.thinned_unheld due others
    rw [settle_ord_holder, uOrd, isA, ord]
    refine ⟨rfl, ?_⟩
    change u.ntu.told .claimLost = s.ntu.told .claimLost
    rw [uNtu, isA, tells]
  · change _ ↔ (settle u).ptu.mismatched ≠ []
    rw [settle_ptu_mismatch, uMismatch, bad, isA]
    exact s.thinned_mismatch due some_
  · change (settle u).ptu.mismatched = [] at matched
    change u.ntu.told .rackMismatch = _
    rw [bad, isA] at matched
    rw [uNtu, isA]
    exact (s.thinned_rack due set_).2 matched some_ isTold
  · change (settle u).ptu.mismatched ≠ [] at named
    change u.ntu.told .rackMismatch = s.ntu.told .rackMismatch
    rw [bad, isA] at named
    rw [uNtu, isA]
    exact (s.thinned_rack due set_).1 named
  · rw [settle_ptu_mismatch, uMismatch, uNtu, still none_]
    exact ⟨rfl, rfl⟩
  · have single : a = (s.aged due).declareAbsent x := by
      rw [isA, State.thinned, State.overdue_single h alone]
      rfl
    rw [roster] at into
    have other : x ≠ s.own := fun same => (without x h).roster (by rw [same]; exact into)
    obtain ⟨w, taken, psq, wdu, ccu, power⟩ := State.declareAbsent_grants (s := s.aged due) other serving member out
      (by rw [← single]; exact into) uncancelled
    rw [← single] at psq wdu ccu power
    obtain ⟨-, -, uPsq⟩ := State.memberBeacon_still (s := a) (by rw [state, member]; simp)
    refine ⟨w, taken.congr rfl ?_ rfl rfl rfl rfl rfl rfl, ?_, ?_, ?_, ?_⟩
    · rw [settle_now, uNow, now]
      rfl
    · rw [settle_psq, isU, uPsq, psq]
    · rw [settle_wdu, uWdu, wdu]
    · rw [uCcu, ccu]
    · change u.ntu.told .powerState = w.ntu.told .powerState
      rw [uNtu, power]

end Sys2Proof.Machine
